-- ==== Sys2Proof/Word.lean ====
section
/-! DEFINITION. The word types of the Erunlum and their plainest arithmetic (spec/00 R3, spec/04 R86, R88). -/

namespace Sys2Proof

abbrev Byte := BitVec 8
abbrev Half := BitVec 16
abbrev Word := BitVec 32
abbrev DWord := BitVec 64
/-- A mask register: one bit per lane, 1,024 lanes (04 R86). -/
abbrev Mask := BitVec 1024

/-- A 32-bit word with its poison bit (04 R88). -/
structure PWord where
  val : Word
  poison : Bool
  deriving DecidableEq, Repr

/-- The clean word holding zero: the start value of registers (02 R46). -/
def PWord.zero : PWord := ⟨0, false⟩

/-- A clean word. -/
def PWord.clean (w : Word) : PWord := ⟨w, false⟩

/-- A 64-bit value as its low and high words, each with its poison bit (03 R62, R73). -/
structure PPair where
  lo : PWord
  hi : PWord
  deriving DecidableEq, Repr

def PPair.zero : PPair := ⟨.zero, .zero⟩

/-- The 64-bit content of a pair: the low word in bits [31:0] (03 R62). -/
def PPair.val (p : PPair) : DWord := p.hi.val ++ p.lo.val

/-- Either word of the pair is poisoned. -/
def PPair.poison (p : PPair) : Bool := p.lo.poison || p.hi.poison

/-- A pair holding a 64-bit value, both words with the same poison bit. -/
def PPair.ofVal (v : DWord) (poison : Bool) : PPair :=
  ⟨⟨v.setWidth 32, poison⟩, ⟨(v >>> 32).setWidth 32, poison⟩⟩

/-- 1 for a relation that holds, 0 otherwise (05 R111). -/
def Word.ofBool (b : Bool) : Word := if b then 1 else 0

end Sys2Proof
end

