-- ==== Sys2Proof/Config.lean ====
section
/-! DEFINITION. What one implementation fixes, and the free values: constants without a body that stand
for what the spec leaves open (DESIGN CHOICE, notes/assumptions/6, 10). -/

namespace Sys2Proof.Config

/-- Cycles of the 1.7 GHz arithmetic clock in one microsecond (00 R4); limits in µs and ms count them at a lower clock too. DESIGN CHOICE:
notes/assumptions/3. -/
def cyclesPerUs : Nat := 1700

/-- Whether a firmware image or signed command carries a valid Falcon-1024 signature (18 R385). FREE: the
verifying key is fused and not given. -/
opaque signatureValid : List Byte → Bool

/-- The 64-bit sequence number that a signed command carries (18 R385). FREE: its layout is not given. -/
opaque signedSequence : List Byte → DWord

/-- The word that a signed command writes into the partition table, by byte offset, or nothing for an identity
command (18 R385, 14 R307). FREE: its layout is not given. -/
opaque signedPartitionWrite : List Byte → Option (Nat × DWord)

/-- Byte i of the module's 16-byte serial number (18 R386). FREE. -/
opaque serialByte : Nat → Byte

/-- Byte i of the Falcon-1024 signature over a report (18 R386). FREE: the identity key never leaves the module. -/
opaque reportSignature : List Byte → List Byte

/-- The upper 24 bits of word 0x0C and the PC field of a stall sample that names a lane offset (17 R375, R380). FREE: the spec
flags a lane offset and does not say how. DESIGN CHOICE: notes/assumptions/46. -/
opaque laneSampleFlag : Nat → BitVec 24
opaque laneSamplePc : Nat → DWord

/-- The reason code of a stall sample of a team that waits for room in a bin store (17 R375). FREE: the table has none. -/
opaque storeStallReason : Byte

/-- Byte i of the saved processing state in a descriptor, at the n-th save (12 R259). FREE: its layout is not given. DESIGN CHOICE: notes/assumptions/53. -/
opaque savedQueueByte : Nat → Nat → Byte

/-- The packet address that a restored launch reports in FPOS, at the n-th use (16 R353, 12 R270). FREE: its LAUNCH packet is not
recorded in the image. DESIGN CHOICE: notes/assumptions/72. -/
opaque restoredPacket : Nat → DWord

/-- The row of its channel that holds a line (11 R258). FREE: no rule places addresses in rows. DESIGN CHOICE: notes/assumptions/76. -/
opaque hbmRow : Nat → Nat

/-- An L1's associativity, as a power of two of at most 512; the index that a line address gives; which of the lines that may be
replaced is; and the lines of a control core's L1 (14 R318, 09 R208, R210). FREE: no rule gives them. DESIGN CHOICE: notes/assumptions/14. -/
opaque l1WaysLog : Nat
opaque l1Index : Nat → Nat
opaque l1Victim : Nat → Nat
opaque ctrlL1Lines : Nat

/-- The entries of a set of the snoop filter besides the first, and the index that a line gives in its die's filter (09 R226). FREE: no rule
gives them. DESIGN CHOICE: notes/assumptions/14. -/
opaque filterWays : Nat
opaque filterIndex : Nat → Nat

/-- The core that the migration of a granule needs vacated, if it needs one (14 R319). FREE: no rule says when. DESIGN CHOICE:
notes/assumptions/114. -/
opaque migrationVacates : Nat → Option Nat

/-- A field of the kill record of an array error that no team raised (11 R248, 12 R279). FREE: no rule gives it. DESIGN CHOICE: notes/assumptions/79. -/
opaque killField : Nat → Nat → Nat

/-- The arguments of a mailbox command in MBARG (18 R383). FREE: its layout is not given. -/
opaque mbAsid : List Byte → Byte
opaque mbAddress : List Byte → DWord
opaque mbNumber : List Byte → Nat
opaque mbTargetKind : List Byte → Nat
opaque mbCores : List Byte → List Nat
opaque mbCommand : List Byte → List Byte
opaque mbNonce : List Byte → List Byte

/-- The step at which the n-th bring-up fails, if one does (18 R381). FREE. -/
opaque bringUpFailure : Nat → Option Nat

end Sys2Proof.Config
end

