-- ==== Sys2Proof/Syntax.lean ====
section
/-! DEFINITION. The instructions and steps of the Erunlum: one constructor of Instr per row of
spec/opcode_table.json, and the types of their operands (spec/03 R61–R81, spec/95). -/

namespace Sys2Proof

/-- Types of the class 0x1 operations (03 R78): .f32, .f64 and the packed pairs .f16, .bf16. -/
inductive FTy | f32 | f64 | f16 | bf16
  deriving DecidableEq, Repr

/-- .f32 or .f64: the types of classes 0x2 (FRCP to FDIV) and 0x6 (03 R79). -/
inductive DTy | f32 | f64
  deriving DecidableEq, Repr

/-- Integer types (03 R78): signed and unsigned, 32 and 64 bits. -/
inductive ITy | i32 | n32 | i64 | n64
  deriving DecidableEq, Repr

/-- 32 or 64 bits: .b32/.b64, and .i32/.i64 of IABS and INEG. -/
inductive Wd | w32 | w64
  deriving DecidableEq, Repr

/-- Types of RED.ADD/MIN/MAX and of the scans (03 R78, R79). -/
inductive RTy | i32 | n32 | f32 | i64 | n64 | f64
  deriving DecidableEq, Repr

/-- The fourteen conversion formats, in the order of their codes (03 R80). -/
inductive Fmt | f32 | f64 | f16 | bf16 | e4m3 | e5m2 | i8 | i16 | i32 | i64 | n8 | n16 | n32 | n64
  deriving DecidableEq, Repr

/-- Element types of QMX (03 R81). -/
inductive MxTy | e4m3 | e5m2
  deriving DecidableEq, Repr

/-- Relations of FCMP (07 R164). -/
inductive FRel | eq | ne | lt | le | gt | ge | un | or
  deriving DecidableEq, Repr

/-- Relations of ICMP (07 R164). -/
inductive IRel | eq | ne | lt | le | gt | ge
  deriving DecidableEq, Repr

/-- Memory levels (03 R81, 09 R206), in the order of their codes. -/
inductive Level | p | s | n | d | g
  deriving DecidableEq, Repr

/-- Load widths (10 R230), in the order of their codes. -/
inductive LdW | n8 | i8 | n16 | i16 | b32 | b64 | b128
  deriving DecidableEq, Repr

/-- Store widths (10 R230). -/
inductive StW | b8 | b16 | b32 | b64 | b128
  deriving DecidableEq, Repr

/-- Atomic operations (03 R66), in the order of their codes. -/
inductive AtomOp | add | and | or | xor | min | max | minn | maxn | swap | cas
  deriving DecidableEq, Repr

/-- Destination kinds (03 R67). -/
inductive DK | reg | mask | none | latch
  deriving DecidableEq, Repr

/-- A decoded lane source (03 R69). -/
inductive Src
  | vreg (i : BitVec 8)
  | latch (i : BitVec 2)
  | sreg (i : BitVec 6)
  | kreg (i : BitVec 4)
  | cwin (win : BitVec 3) (off : BitVec 17)
  | imm (p : BitVec 20)
  | lit (i : BitVec 2)
  deriving DecidableEq, Repr

/-- The fields that every lane instruction carries (03 R67): destination, governing mask, sources,
rounding field, HOLD, and the literal words that follow W2 (R71). -/
structure LaneArgs where
  dk : DK
  di : BitVec 8
  ks : BitVec 4
  a : Src
  b : Src
  c : Src
  rm : BitVec 3
  hold : Bool
  lits : List Word
  deriving DecidableEq, Repr

/-- A team: its ASID and its TEAMNO, which are unique together among live teams (17 R376, 19 R389). -/
structure TeamId where
  asid : Byte
  teamno : Word
  deriving DecidableEq, Repr

/-- A gang: its ASID and gang id together (02 R37). -/
structure GangId where
  asid : Byte
  gid : Word
  deriving DecidableEq, Repr

/-- An instruction stream: a team's, or the control core's of a cluster 0–53 (9·die + cluster). -/
inductive StreamId
  | team (t : TeamId)
  | ctrl (cl : Nat)
  deriving DecidableEq, Repr

/-- An engine operation: its issuing team and its SEQ (13 R290). -/
structure OpId where
  team : TeamId
  seq : BitVec 48
  deriving DecidableEq, Repr

/-- Who waits for room in a full bin store (13 R283). -/
inductive AppendWaiter
  | team (t : TeamId)
  | op (o : OpId)
  deriving DecidableEq, Repr

/-- Whose access stalls on a tagged line: a stream's or an engine operation's (11 R253, R255). -/
inductive Staller
  | stream (st : StreamId)
  | op (o : OpId)
  | host (line : Nat)
  deriving DecidableEq, Repr

/-- Host register spaces: the CXL.io registers (12 R261) and the management window (18 R382). -/
inductive RegSpace | cxlIo | mgmt
  deriving DecidableEq, Repr

/-- The units that acknowledge a pre-emption (14 R320). -/
inductive UnitId
  | team (t : TeamId)
  | ctrl (cl : Nat)
  | op (o : OpId)
  | ballast (die : Nat)
  deriving DecidableEq, Repr

/-- An error of one 16-bit symbol of what a stack holds of a 512-byte block: the symbol's number, 0–255 a data symbol,
256–271 a parity symbol and 272–287 a sector's check value, and the bits that are wrong (11 R245, R246). -/
structure SymErr where
  ix : Nat
  flip : Half
  deriving DecidableEq, Repr

/-- The array that holds a word of memory: a node's L1, or a way of the L2 slice that its address gives. -/
inductive MemArray
  | l1 (node : Nat)
  | l2 (way : Nat)
  deriving DecidableEq, Repr

/-- Where an on-chip array error falls (11 R248), and with it what the array holds there. A line of a die scratchpad lies in a way of the L2
slice that its offset gives. -/
inductive ArrayKind
  | scalarReg (st : StreamId) (i : BitVec 6)
  | laneReg (t : TeamId) (i : BitVec 8) (lane : Nat)
  | memWord (pa : Nat) (holder : MemArray)
  | scratch (core : Nat) (off : Nat)
  | dieScratch (l : Nat) (die : Nat) (off : Nat) (way : Nat)
  | aBank (cl ix bank w : Nat)
  | bBank (cl ix bank w : Nat)
  | acc (cl ix acc e : Nat)
  | directory (line : Nat)
  | tlbClass (cl : Nat) (gran : Nat)
  | shard (l bin die : Nat)
  | queue (q : Nat)
  | progress (o : OpId)
  deriving DecidableEq, Repr

/-- An on-chip array error: corrected, or uncorrectable (11 R248). -/
structure ArrayLoc where
  kind : ArrayKind
  corrected : Bool
  deriving DecidableEq, Repr

/-- A link whose flits carry a CRC (11 R248): a die-to-die link 0–6 (01 R9), an IOD link 0–1, a Myvemi port 0–1. -/
inductive LinkId
  | dieToDie (i : Nat) (forward : Bool)
  | iod (i : Nat) (forward : Bool)
  | myvemi (port : Nat) (forward : Bool)
  deriving DecidableEq, Repr

/-- A part of the spare inventory (11 R258). -/
inductive PartId
  | laneUnit (core quadrant column : Nat)
  | arrayColumn (core quadrant column : Nat)
  | core (core : Nat)
  | controlCore (cl : Nat)
  | l2Way (slice : Nat) (way : Nat)
  | hbmRow (stack channel row : Nat)
  | pseudoChannel (stack channel : Nat)
  | linkLane (lk : LinkId) (lane : Nat)
  deriving DecidableEq, Repr

/-- What a pre-emption request names (14 R319, 18 R383). -/
inductive PreTarget
  | launch (l : Nat)
  | context (asid : Byte)
  | cores (cs : List Nat)
  deriving DecidableEq, Repr

/-- The instructions and steps, one constructor per row of spec/opcode_table.json, in its order. -/
inductive Instr
  /-- ADD (R108): Scalar add of two registers modulo 2^32. -/
  | add (d : BitVec 6) (a : BitVec 6) (b : BitVec 6)
  /-- SUB (R108): Scalar subtract of two registers modulo 2^32. -/
  | sub (d : BitVec 6) (a : BitVec 6) (b : BitVec 6)
  /-- MUL (R108): Scalar multiply, low 32 bits. -/
  | mul (d : BitVec 6) (a : BitVec 6) (b : BitVec 6)
  /-- MULH (R108): Scalar signed multiply, high 32 bits. -/
  | mulh (d : BitVec 6) (a : BitVec 6) (b : BitVec 6)
  /-- MULHN (R108): Scalar unsigned multiply, high 32 bits. -/
  | mulhn (d : BitVec 6) (a : BitVec 6) (b : BitVec 6)
  /-- AND (R108): Scalar bitwise AND. -/
  | and (d : BitVec 6) (a : BitVec 6) (b : BitVec 6)
  /-- OR (R108): Scalar bitwise OR. -/
  | or (d : BitVec 6) (a : BitVec 6) (b : BitVec 6)
  /-- XOR (R108): Scalar bitwise XOR. -/
  | xor (d : BitVec 6) (a : BitVec 6) (b : BitVec 6)
  /-- ANDN (R108): Scalar AND with the complement of the second operand. -/
  | andn (d : BitVec 6) (a : BitVec 6) (b : BitVec 6)
  /-- SHL (R108): Scalar shift left by a register count. -/
  | shl (d : BitVec 6) (a : BitVec 6) (b : BitVec 6)
  /-- SHR (R108): Scalar logical shift right by a register count. -/
  | shr (d : BitVec 6) (a : BitVec 6) (b : BitVec 6)
  /-- SRA (R108): Scalar arithmetic shift right by a register count. -/
  | sra (d : BitVec 6) (a : BitVec 6) (b : BitVec 6)
  /-- MIN (R108): Scalar signed minimum. -/
  | min (d : BitVec 6) (a : BitVec 6) (b : BitVec 6)
  /-- MAX (R108): Scalar signed maximum. -/
  | max (d : BitVec 6) (a : BitVec 6) (b : BitVec 6)
  /-- MINN (R108): Scalar unsigned minimum. -/
  | minn (d : BitVec 6) (a : BitVec 6) (b : BitVec 6)
  /-- MAXN (R108): Scalar unsigned maximum. -/
  | maxn (d : BitVec 6) (a : BitVec 6) (b : BitVec 6)
  /-- CLZ (R108): Scalar count of leading zero bits. -/
  | clz (d : BitVec 6) (a : BitVec 6)
  /-- CTZ (R108): Scalar count of trailing zero bits. -/
  | ctz (d : BitVec 6) (a : BitVec 6)
  /-- POPC (R108): Scalar population count. -/
  | popc (d : BitVec 6) (a : BitVec 6)
  /-- ADDI (R109): Scalar add of a sign-extended 14-bit immediate. -/
  | addi (d : BitVec 6) (a : BitVec 6) (i : BitVec 14)
  /-- ANDI (R109): Scalar AND with a sign-extended immediate. -/
  | andi (d : BitVec 6) (a : BitVec 6) (i : BitVec 14)
  /-- ORI (R109): Scalar OR with a sign-extended immediate. -/
  | ori (d : BitVec 6) (a : BitVec 6) (i : BitVec 14)
  /-- XORI (R109): Scalar XOR with a sign-extended immediate. -/
  | xori (d : BitVec 6) (a : BitVec 6) (i : BitVec 14)
  /-- SHLI (R109): Scalar shift left by an immediate count 0-31. -/
  | shli (d : BitVec 6) (a : BitVec 6) (s : BitVec 5)
  /-- SHRI (R109): Scalar logical shift right by an immediate count. -/
  | shri (d : BitVec 6) (a : BitVec 6) (s : BitVec 5)
  /-- SRAI (R109): Scalar arithmetic shift right by an immediate count. -/
  | srai (d : BitVec 6) (a : BitVec 6) (s : BitVec 5)
  /-- LIH (R63): Loads a 20-bit immediate shifted left by 12 into a scalar register. -/
  | lih (d : BitVec 6) (i : BitVec 20)
  /-- CEQI (R109): Writes 1 if the register equals the immediate, else 0. -/
  | ceqi (d : BitVec 6) (a : BitVec 6) (i : BitVec 14)
  /-- CLTI (R109): Writes 1 if the register is signed-less than the immediate, else 0. -/
  | clti (d : BitVec 6) (a : BitVec 6) (i : BitVec 14)
  /-- AADDI (R110): 64-bit address add of a base and a sign-extended immediate into an even pair. -/
  | aaddi (d : BitVec 6) (a : BitVec 6) (i : BitVec 14)
  /-- AADD (R110): 64-bit address add of two bases. -/
  | aadd (d : BitVec 6) (a : BitVec 6) (b : BitVec 6)
  /-- ASUB (R110): 64-bit address subtract of two bases. -/
  | asub (d : BitVec 6) (a : BitVec 6) (b : BitVec 6)
  /-- AADDX (R110): 64-bit address add of a base and a shifted signed 32-bit index. -/
  | aaddx (d : BitVec 6) (a : BitVec 6) (b : BitVec 6) (h : BitVec 4)
  /-- CEQ (R111): Writes 1 if two scalars are equal. -/
  | ceq (d : BitVec 6) (a : BitVec 6) (b : BitVec 6)
  /-- CNE (R111): Writes 1 if two scalars differ. -/
  | cne (d : BitVec 6) (a : BitVec 6) (b : BitVec 6)
  /-- CLT (R111): Writes 1 if signed less than. -/
  | clt (d : BitVec 6) (a : BitVec 6) (b : BitVec 6)
  /-- CLE (R111): Writes 1 if signed less or equal. -/
  | cle (d : BitVec 6) (a : BitVec 6) (b : BitVec 6)
  /-- CLTN (R111): Writes 1 if unsigned less than. -/
  | cltn (d : BitVec 6) (a : BitVec 6) (b : BitVec 6)
  /-- CLEN (R111): Writes 1 if unsigned less or equal. -/
  | clen (d : BitVec 6) (a : BitVec 6) (b : BitVec 6)
  /-- ACEQ (R111): Writes 1 if two 64-bit address bases are equal. -/
  | aceq (d : BitVec 6) (a : BitVec 6) (b : BitVec 6)
  /-- ACLTN (R111): Writes 1 if one 64-bit address base is unsigned-less than the other. -/
  | acltn (d : BitVec 6) (a : BitVec 6) (b : BitVec 6)
  /-- B (R112): Unconditional PC-relative branch. -/
  | b (o : BitVec 16)
  /-- BEQZ (R112): Branches when the scalar is zero. -/
  | beqz (a : BitVec 6) (o : BitVec 16)
  /-- BNEZ (R112): Branches when the scalar is non-zero. -/
  | bnez (a : BitVec 6) (o : BitVec 16)
  /-- BLTZ (R112): Branches when the scalar is negative. -/
  | bltz (a : BitVec 6) (o : BitVec 16)
  /-- BGEZ (R112): Branches when the scalar is non-negative. -/
  | bgez (a : BitVec 6) (o : BitVec 16)
  /-- BGTZ (R112): Branches when the scalar is positive. -/
  | bgtz (a : BitVec 6) (o : BitVec 16)
  /-- BLEZ (R112): Branches when the scalar is zero or negative. -/
  | blez (a : BitVec 6) (o : BitVec 16)
  /-- BKZ (R113): Branches when a mask register's summary word is zero. -/
  | bkz (k : BitVec 4) (o : BitVec 16)
  /-- BKNZ (R113): Branches when a mask register's summary word is non-zero. -/
  | bknz (k : BitVec 4) (o : BitVec 16)
  /-- CALL (R114): Writes the link address to a pair and branches PC-relative. -/
  | call (a : BitVec 6) (o : BitVec 16)
  /-- NOP (R125): Does nothing. -/
  | nop
  /-- JR (R114): Jumps to the address held in a register pair. -/
  | jr (a : BitVec 6)
  /-- CALLR (R114): Jumps to a pair's address and writes the link to another pair. -/
  | callr (d : BitVec 6) (a : BitVec 6)
  /-- TRAP (R124): Raises cause TRAP after completing, with a 6-bit code. -/
  | trap (c : BitVec 6)
  /-- RFT (R99): Returns from a trap: restores k0, clears SUP and resumes the run at TLPC then the scalar stream at TPC. -/
  | rft
  /-- BKPT (R124): Raises BKPT after completing, or stops the team when a debugger holds it. -/
  | bkpt
  /-- SLEEP (R125): Blocks the stream for a register-given number of cycles. -/
  | sleep (a : BitVec 6)
  /-- YIELD (R125): Places the team last in issue choice for its next instruction. -/
  | yield
  /-- KMOV (R115): Copies one mask register to another. -/
  | kmov (d : BitVec 4) (a : BitVec 4)
  /-- KNOT (R115): Writes the occupied lanes not in ka. -/
  | knot (d : BitVec 4) (a : BitVec 4)
  /-- KAND (R115): Mask AND. -/
  | kand (d : BitVec 4) (a : BitVec 4) (b : BitVec 4)
  /-- KOR (R115): Mask OR. -/
  | kor (d : BitVec 4) (a : BitVec 4) (b : BitVec 4)
  /-- KXOR (R115): Mask XOR. -/
  | kxor (d : BitVec 4) (a : BitVec 4) (b : BitVec 4)
  /-- KANDN (R115): Mask AND with the complement of kb. -/
  | kandn (d : BitVec 4) (a : BitVec 4) (b : BitVec 4)
  /-- KALL (R115): Sets a mask to every occupied lane. -/
  | kall (d : BitVec 4)
  /-- KCLR (R115): Clears a mask register. -/
  | kclr (d : BitVec 4)
  /-- KSETN (R115): Sets a mask to the occupied lanes below a scalar count. -/
  | ksetn (d : BitVec 4) (s : BitVec 6)
  /-- KPOP (R115): Writes the number of lanes in a mask to a scalar. -/
  | kpop (a : BitVec 4) (s : BitVec 6)
  /-- KFIRST (R115): Writes the lowest lane of a mask to a scalar, or all ones if empty. -/
  | kfirst (a : BitVec 4) (s : BitVec 6)
  /-- KSUM (R115): Writes a mask's summary word to a scalar. -/
  | ksum (a : BitVec 4) (s : BitVec 6)
  /-- KMOVV (R116): Writes one mask word from a scalar, excluding vacant lanes. -/
  | kmovv (d : BitVec 4) (w : BitVec 5) (s : BitVec 6)
  /-- LRUN (R117): Enqueues a run of 1 to 256 lane instructions from a lane-code offset or the present lane PC. -/
  | lrun (c : BitVec 8) (o : BitVec 18)
  /-- LSETPC (R119): Sets the lane PC without issuing a lane instruction. -/
  | lsetpc (o : BitVec 18)
  /-- SETFMT (R120): Writes FMT from a scalar after the checks of R89. -/
  | setfmt (a : BitVec 6)
  /-- GETFMT (R120): Reads FMT into a scalar. -/
  | getfmt (d : BitVec 6)
  /-- LGET (R121): Reads one word of one lane's register into a scalar. -/
  | lget (d : BitVec 6) (a : BitVec 6) (b : BitVec 6)
  /-- LPUT (R121): Writes a scalar into one word of one lane's register. -/
  | lput (d : BitVec 6) (a : BitVec 6) (b : BitVec 6)
  /-- SRR (R122): Reads a special register or counter into a scalar or pair. -/
  | srr (d : BitVec 6) (n : BitVec 12)
  /-- SRW (R123): Writes a special register from a scalar, with the side effects of R123. -/
  | srw (s : BitVec 6) (n : BitVec 12)
  /-- RDCNT (R374): Reads a counter ordered after every older instruction's issue. -/
  | rdcnt (d : BitVec 6) (n : BitVec 12)
  /-- CSEL (R374): Writes the event select of a programmable counter in supervisor mode. -/
  | csel (s : BitVec 6) (n : BitVec 12)
  /-- CZERO (R374): Zeroes a programmable counter in supervisor mode. -/
  | czero (n : BitVec 12)
  /-- CLD (R242): Scalar constant load of one word of a constant window. -/
  | cld (d : BitVec 6) (w : BitVec 3) (o : BitVec 17)
  /-- SLD (R239): Scalar load from a named level, one event. -/
  | sld (d : BitVec 6) (a : BitVec 6) (b : BitVec 6) (l : BitVec 3) (w : BitVec 3)
  /-- SST (R239): Scalar store to a named level, one event. -/
  | sst (d : BitVec 6) (a : BitVec 6) (b : BitVec 6) (l : BitVec 3) (w : BitVec 3)
  /-- SATOM (R240): Scalar atomic read-modify-write, one event. -/
  | satom (d : BitVec 6) (a : BitVec 6) (b : BitVec 6) (l : BitVec 2) (p : BitVec 4) (w : BitVec 1)
  /-- DECLASS (R244): Returns the granule of an address to class UNCL after draining its holders. -/
  | declass (a : BitVec 6)
  /-- TLBINV (R341): Invalidates every translation of one page module-wide and waits for accesses checked against it. -/
  | tlbinv (a : BitVec 6)
  /-- ATINV (R341): Invalidates every translation of the team's ASID module-wide. -/
  | atinv
  /-- EXIT (R287): Vacates the lanes of a mask: clears them from every k register and sets them in kv. -/
  | exit (a : BitVec 4)
  /-- REFILL (R288): Takes records from the team's shard into vacant lanes, or retires the team when drained and closed. -/
  | refill (d : BitVec 4) (s : BitVec 6)
  /-- REFILL_W (R289): As REFILL, but waits when the shard is empty and the bin open. -/
  | refillW (d : BitVec 4) (s : BitVec 6)
  /-- SPAWN (R285): Appends a four-word record to the tail of the team's shard of a bin. -/
  | spawn (d : BitVec 6) (a : BitVec 6)
  /-- BINCLOSE (R285): Sets the closed flag of a bin. -/
  | binclose (a : BitVec 6)
  /-- XCOPY (R296): Forks a copy-engine operation described by a descriptor, optionally counting bytes into a barrier. -/
  | xcopy (h : BitVec 4) (a : BitVec 6) (c : BitVec 1) (n : BitVec 3)
  /-- XFILL (R296): Forks a copy-engine fill operation with a pattern. -/
  | xfill (h : BitVec 4) (a : BitVec 6) (c : BitVec 1) (n : BitVec 3)
  /-- XGATH (R299): Forks a gather-unit operation that assembles B tiles from CSR data. -/
  | xgath (h : BitVec 4) (a : BitVec 6)
  /-- SWBUILD (R302): Forks a Sward build that appends records for dilated marked tiles. -/
  | swbuild (h : BitVec 4) (a : BitVec 6)
  /-- HWAIT (R303): Waits for and joins a handle's operation, or traps ENGINE when it stopped. -/
  | hwait (h : BitVec 4)
  /-- HTEST (R303): Writes a handle's state and class to a scalar, joining if ended. -/
  | htest (h : BitVec 4) (s : BitVec 6)
  /-- HCANCEL (R303): Requests a running operation to stop, or discards a stopped one. -/
  | hcancel (h : BitVec 4)
  /-- BAR_ARR (R369): Arrives at the team's instance of a logical barrier. -/
  | barArr (n : BitVec 3)
  /-- BAR_WAIT (R369): Waits until the participant's arrival phase completes and returns its status. -/
  | barWait (d : BitVec 6) (n : BitVec 3)
  /-- BAR_EXP (R369): Adds an expected byte count to a barrier's pending-byte counter. -/
  | barExp (a : BitVec 6) (n : BitVec 3)
  /-- MZERO (R197): Queues an operation that zeroes an accumulator and clears its poison. -/
  | mzero (c : BitVec 2) (a : BitVec 2)
  /-- MMA (R198): Queues a dense matrix multiply-accumulate on an array core. -/
  | mma (c : BitVec 2) (a : BitVec 2) (p : BitVec 2) (q : BitVec 2) (x : BitVec 1) (y : BitVec 1) (z : BitVec 1) (m : BitVec 3)
  /-- MMAQ (R198): Queues a multiply-accumulate with group-scaled integer weights. -/
  | mmaq (c : BitVec 2) (a : BitVec 2) (p : BitVec 2) (q : BitVec 2) (x : BitVec 1) (y : BitVec 1) (z : BitVec 1) (m : BitVec 3)
  /-- MMAS (R193): Queues a sparse multiply-accumulate that skips an all-zero B bank. -/
  | mmas (c : BitVec 2) (a : BitVec 2) (p : BitVec 2) (q : BitVec 2) (x : BitVec 1) (y : BitVec 1) (z : BitVec 1) (m : BitVec 3)
  /-- MBANK (R200): Reads the bank, accumulator and queue status of an array core. -/
  | mbank (c : BitVec 2) (d : BitVec 6)
  /-- FADD (R151): Lane floating-point add rounded once. -/
  | fadd (t : FTy) (x : LaneArgs)
  /-- FSUB (R151): Lane floating-point subtract rounded once. -/
  | fsub (t : FTy) (x : LaneArgs)
  /-- FMUL (R151): Lane floating-point multiply rounded once. -/
  | fmul (t : FTy) (x : LaneArgs)
  /-- FFMA (R151): Lane fused multiply-add with one rounding. -/
  | ffma (t : FTy) (x : LaneArgs)
  /-- FFMS (R151): Lane fused multiply-subtract with one rounding. -/
  | ffms (t : FTy) (x : LaneArgs)
  /-- FMIN (R152): Lane minimumNumber. -/
  | fmin (t : FTy) (x : LaneArgs)
  /-- FMAX (R152): Lane maximumNumber. -/
  | fmax (t : FTy) (x : LaneArgs)
  /-- FABS (R153): Lane clear of the sign bit. -/
  | fabs (t : FTy) (x : LaneArgs)
  /-- FNEG (R153): Lane inversion of the sign bit. -/
  | fneg (t : FTy) (x : LaneArgs)
  /-- FRINT (R154): Lane round to an integral value in the same format. -/
  | frint (t : FTy) (x : LaneArgs)
  /-- FCLASS (R155): Lane class word of a floating-point value. -/
  | fclass (t : FTy) (x : LaneArgs)
  /-- FRCP (R156): Lane reciprocal, correctly rounded to nearest even. -/
  | frcp (t : DTy) (x : LaneArgs)
  /-- FRSQ (R156): Lane reciprocal square root. -/
  | frsq (t : DTy) (x : LaneArgs)
  /-- FSQRT (R156): Lane square root in mode m. -/
  | fsqrt (t : DTy) (x : LaneArgs)
  /-- FDIV (R156): Lane division in mode m. -/
  | fdiv (t : DTy) (x : LaneArgs)
  /-- FEXP2 (R156): Lane base-2 exponential. -/
  | fexp2 (x : LaneArgs)
  /-- FLOG2 (R156): Lane base-2 logarithm. -/
  | flog2 (x : LaneArgs)
  /-- FSINT (R157): Lane sine of an argument in turns. -/
  | fsint (x : LaneArgs)
  /-- FCOST (R157): Lane cosine of an argument in turns. -/
  | fcost (x : LaneArgs)
  /-- CVT (R159): Lane conversion between two of the fourteen formats. -/
  | cvt (dst : Fmt) (src : Fmt) (x : LaneArgs)
  /-- IADD (R160): Lane integer add. -/
  | iadd (t : ITy) (x : LaneArgs)
  /-- ISUB (R160): Lane integer subtract. -/
  | isub (t : ITy) (x : LaneArgs)
  /-- IMUL (R160): Lane integer multiply, low bits. -/
  | imul (t : ITy) (x : LaneArgs)
  /-- IMULH (R160): Lane integer multiply, high bits. -/
  | imulh (t : ITy) (x : LaneArgs)
  /-- IMAD (R160): Lane integer multiply-add. -/
  | imad (t : ITy) (x : LaneArgs)
  /-- IMIN (R160): Lane integer minimum. -/
  | imin (t : ITy) (x : LaneArgs)
  /-- IMAX (R160): Lane integer maximum. -/
  | imax (t : ITy) (x : LaneArgs)
  /-- IABS (R160): Lane integer absolute value. -/
  | iabs (t : Wd) (x : LaneArgs)
  /-- INEG (R160): Lane integer negation. -/
  | ineg (t : Wd) (x : LaneArgs)
  /-- IADDS (R160): Lane saturating integer add. -/
  | iadds (t : ITy) (x : LaneArgs)
  /-- ISUBS (R160): Lane saturating integer subtract. -/
  | isubs (t : ITy) (x : LaneArgs)
  /-- LANE_AND (R161): Lane bitwise AND. -/
  | laneAnd (t : Wd) (x : LaneArgs)
  /-- LANE_OR (R161): Lane bitwise OR. -/
  | laneOr (t : Wd) (x : LaneArgs)
  /-- LANE_XOR (R161): Lane bitwise XOR. -/
  | laneXor (t : Wd) (x : LaneArgs)
  /-- LANE_ANDN (R161): Lane AND with complement. -/
  | laneAndn (t : Wd) (x : LaneArgs)
  /-- NOT (R161): Lane bitwise complement. -/
  | not (t : Wd) (x : LaneArgs)
  /-- LANE_SHL (R161): Lane shift left. -/
  | laneShl (t : Wd) (x : LaneArgs)
  /-- LANE_SHR (R161): Lane logical shift right. -/
  | laneShr (t : Wd) (x : LaneArgs)
  /-- LANE_SRA (R161): Lane arithmetic shift right. -/
  | laneSra (t : Wd) (x : LaneArgs)
  /-- ROL (R161): Lane rotate left. -/
  | rol (t : Wd) (x : LaneArgs)
  /-- ROR (R161): Lane rotate right. -/
  | ror (t : Wd) (x : LaneArgs)
  /-- LANE_CLZ (R161): Lane count of leading zeros. -/
  | laneClz (t : Wd) (x : LaneArgs)
  /-- LANE_CTZ (R161): Lane count of trailing zeros. -/
  | laneCtz (t : Wd) (x : LaneArgs)
  /-- LANE_POPC (R161): Lane population count. -/
  | lanePopc (t : Wd) (x : LaneArgs)
  /-- BREV (R161): Lane bit reversal. -/
  | brev (t : Wd) (x : LaneArgs)
  /-- BFE (R162): Lane bit-field extract. -/
  | bfe (t : Wd) (x : LaneArgs)
  /-- BFI (R162): Lane bit-field insert. -/
  | bfi (t : Wd) (x : LaneArgs)
  /-- MOV (R161): Lane move. -/
  | mov (t : Wd) (x : LaneArgs)
  /-- SEL (R163): Lane select between two sources by a mask register. -/
  | sel (t : Wd) (x : LaneArgs)
  /-- FCMP (R164): Lane floating-point compare writing a whole mask register. -/
  | fcmp (r : FRel) (t : DTy) (x : LaneArgs)
  /-- ICMP (R164): Lane integer compare writing a whole mask register. -/
  | icmp (r : IRel) (t : ITy) (x : LaneArgs)
  /-- SHFL_IDX (R166): Moves a value from an indexed lane of the governing set. -/
  | shflIdx (t : Wd) (x : LaneArgs)
  /-- SHFL_XOR (R166): Moves a value from the lane at j xor b. -/
  | shflXor (t : Wd) (x : LaneArgs)
  /-- SHFL_UP (R166): Moves a value from the lane b places lower. -/
  | shflUp (t : Wd) (x : LaneArgs)
  /-- SHFL_DOWN (R166): Moves a value from the lane b places higher. -/
  | shflDown (t : Wd) (x : LaneArgs)
  /-- BCAST (R167): Broadcasts one lane's value to every governed lane. -/
  | bcast (t : Wd) (x : LaneArgs)
  /-- LIDX (R168): Writes each lane's index in its team. -/
  | lidx (x : LaneArgs)
  /-- RED_ADD (R169): Team sum reduction, floating point rounded once. -/
  | redAdd (t : RTy) (x : LaneArgs)
  /-- RED_MIN (R169): Team minimum reduction. -/
  | redMin (t : RTy) (x : LaneArgs)
  /-- RED_MAX (R169): Team maximum reduction. -/
  | redMax (t : RTy) (x : LaneArgs)
  /-- RED_AND (R169): Team bitwise AND reduction. -/
  | redAnd (t : Wd) (x : LaneArgs)
  /-- RED_OR (R169): Team bitwise OR reduction. -/
  | redOr (t : Wd) (x : LaneArgs)
  /-- SCAN_ADD (R170): Inclusive prefix sum over the governing set. -/
  | scanAdd (t : RTy) (x : LaneArgs)
  /-- SCAN_ADDX (R170): Exclusive prefix sum over the governing set. -/
  | scanAddx (t : RTy) (x : LaneArgs)
  /-- SCAN_MAX (R170): Inclusive prefix maximum. -/
  | scanMax (t : RTy) (x : LaneArgs)
  /-- XSWAP (R173): Arrives at an XSWAP pair to exchange a lane register with the partner team. -/
  | xswap (t : Wd) (x : LaneArgs)
  /-- SWMARK (R300): Marks tiles in a Sward bitmap with one atomic OR per lane. -/
  | swmark (x : LaneArgs)
  /-- LD (R231): Lane load, one event per governed lane, whole or nothing. -/
  | ld (lv : Level) (w : LdW) (x : LaneArgs)
  /-- ST (R231): Lane store, one event per governed lane, whole or nothing. -/
  | st (lv : Level) (w : StW) (x : LaneArgs)
  /-- ATOM (R236): Lane atomic, one indivisible event per governed lane in ascending order. -/
  | atom (op : AtomOp) (lv : Level) (t : Wd) (x : LaneArgs)
  /-- CLD_LANE (R242): Lane constant load of per-lane window words. -/
  | cldLane (t : Wd) (x : LaneArgs)
  /-- MFEED_A (R202): Writes lane words into an A operand bank, optionally publishing it FULL. -/
  | mfeedA (x : LaneArgs)
  /-- MFEED_B (R202): Writes lane words into a B operand bank, optionally publishing it FULL. -/
  | mfeedB (x : LaneArgs)
  /-- MDRAIN (R203): Reads accumulator elements into lanes, optionally returning it to ARRAY. -/
  | mdrain (x : LaneArgs)
  /-- QMX (R205): Quantises each mask word's block of FP32 values to MX E4M3 or E5M2 with a shared scale. -/
  | qmx (t : MxTy) (x : LaneArgs)
  /-- EVENT_ENTRY (R96): Takes a pending VERSION_FULL or DIRTY_BUDGET event at an instruction boundary with SUP clear. -/
  | eventEntry (t : TeamId)
  /-- CHAIN_PHASE_START (R204): A waiting HOLD chain with feeds or drains issues once every named bank and accumulator is in its needed phase. -/
  | chainPhaseStart (t : TeamId)
  /-- BANK_PHASE_PERFORM (R187): A waiting MFEED or MDRAIN performs once its bank is EMPTY or accumulator in DRAIN. -/
  | bankPhasePerform (t : TeamId)
  /-- REFILL_W_TAKE (R289): A waiting REFILL.W takes again when a record arrives or the bin closes. -/
  | refillWTake (t : TeamId)
  /-- SPAWN_APPEND (R283): A SPAWN or SWBUILD append waiting on a full bin store performs when room is freed. -/
  | spawnAppend (w : AppendWaiter)
  /-- HWAIT_RETURN (R303): A blocked HWAIT or engine command returns or traps when the handle's operation ends. -/
  | hwaitReturn (t : TeamId)
  /-- XSWAP_EXCHANGE (R174): Both partners having arrived, the exchange runs in the pair's slots and both teams write back together. -/
  | xswapExchange (t : TeamId)
  /-- XSWAP_TIMEOUT (R175): After 2^20 cycles of waiting for the partner the XSWAP traps XSWAP_TIMEOUT. -/
  | xswapTimeout (t : TeamId)
  /-- SLEEP_END (R125): A SLEEP's cycle count expires and the stream resumes. -/
  | sleepEnd (st : StreamId)
  /-- STALL_SAMPLE (R375): Every 2^(8+IV) cycles the core writes a stall sample of one resident team. -/
  | stallSample (core : Nat)
  /-- DCMD_STOP (R377): Debug command stops the named team at its next boundary outside a chain. -/
  | dcmdStop (core : Nat)
  /-- DCMD_RESUME (R376): Debug command resumes the named stopped team. -/
  | dcmdResume (core : Nat)
  /-- DCMD_STEP (R377): Debug command makes the stopped team issue one unit and stop again. -/
  | dcmdStep (core : Nat)
  /-- REGISTER_WRITE (R6): A host write to a register with no row of its own, such as FWACC, QTBASE, ASIDBASE or debug fields. -/
  | registerWrite (sp : RegSpace) (off : Nat) (v : DWord)
  /-- MODULE_RESET (R381): Power-on or reset runs the seven bring-up steps. -/
  | moduleReset
  /-- QCMD_REGISTER (R261): Registers a queue from its descriptor and starts watching its tail. -/
  | qcmdRegister (q : Half)
  /-- QCMD_DEREGISTER (R261): Deregisters a queue, unmapping it first if mapped. -/
  | qcmdDeregister (q : Half)
  /-- QCMD_CLEAR_FAULT (R261): Returns a FAULTED queue to IDLE or MAPPED. -/
  | qcmdClearFault (q : Half)
  /-- TAIL_REREAD (R263): After the tail line is invalidated the IOD re-reads the tail and finds it changed. -/
  | tailReread (q : Nat)
  /-- QUEUE_IDLE_TIMEOUT (R272): A signal-mapped queue idle for TIMEOUT begins unmapping. -/
  | queueIdleTimeout (q : Nat)
  /-- QUEUE_UNMAP_COMPLETE (R273): The queue's processing state is saved and it becomes IDLE, or MAPPED with PEND set. -/
  | queueUnmapComplete (q : Nat)
  /-- RUN_LIST_TURN_END (R274): A process's quantum expires; its launches are pre-empted and the next process's queues mapped. -/
  | runListTurnEnd
  /-- NOP_PACKET (R266): A NOP packet starts and has no effect. -/
  | nopPacket (q : Nat)
  /-- LAUNCH (R278): A LAUNCH packet copies and checks the launch record and its tables and accepts the launch. -/
  | launch (q : Nat)
  /-- IB_CALL (R269): Runs the packets of an indirect buffer, faulting at a fifth active level. -/
  | ibCall (q : Nat)
  /-- WAIT_VALUE (R267): Starts once a masked location satisfies the relation. -/
  | waitValue (q : Nat)
  /-- BARRIER_AND (R267): Starts once every used location is at least its value. -/
  | barrierAnd (q : Nat)
  /-- WAIT_REREAD (R267): A write to a watched line makes the IOD re-read an unsatisfied wait condition. -/
  | waitReread (q : Nat)
  /-- WRITE_VALUE (R266): Performs one 4- or 8-byte write event. -/
  | writeValue (q : Nat)
  /-- LAUNCH_COMPLETION (R268): When teams retired, operations joined, groups ended and gangs committed, LSTATE is set and CVAL written. -/
  | launchCompletion (l : Nat)
  /-- LNOTE (R311): A leaf controller takes a launch accepted by the IOD. -/
  | lnote (cl : Nat)
  /-- PREQ (R319): A leaf controller takes a pre-emption request for a widened set. -/
  | preq (cl : Nat)
  /-- PACK (R322): The IOD takes a cluster's acknowledgement; when all dies have acknowledged the collection is complete. -/
  | pack (cl : Nat)
  /-- RESUME (R324): A leaf controller takes a request to place teams from an image or saved state. -/
  | resume (cl : Nat)
  /-- MAPCHG (R344): A leaf controller takes recomputed core maps. -/
  | mapchg (cl : Nat)
  /-- EFAULT (R338): The IOD takes an engine fault that a leaf could not resolve. -/
  | efault (cl : Nat)
  /-- DONE (R49): The IOD takes a report of retired teams and joined operations for completion. -/
  | done (cl : Nat)
  /-- UNIT_PREEMPT_ACK (R320): A unit reaches its stop point, drains what it must and acknowledges the pre-emption. -/
  | unitPreemptAck (u : UnitId)
  /-- PREEMPTED_TEAM_PLACEMENT (R315): Pre-empted or restored teams and groups are placed whole in pre-emption order. -/
  | preemptedTeamPlacement (die : Nat)
  /-- TEAM_START (R44): A shard's fill or expiry, a core, register room and quota together start a new team. -/
  | teamStart (l : Nat) (bin : Nat) (die : Nat)
  /-- NEIGHBOURHOOD_START (R36): A whole neighbourhood starts on a free rectangle in one step. -/
  | neighbourhoodStart (l : Nat) (die : Nat)
  /-- SHARD_TIMER_EXPIRY (R282): A shard's timer expires with records present. -/
  | shardTimerExpiry (l : Nat) (bin : Nat) (die : Nat)
  /-- NEIGHBOURHOOD_RESERVATION (R314): After 1 ms of waiting the arbiter reserves a rectangle for the group. -/
  | neighbourhoodReservation (l : Nat) (die : Nat)
  /-- URGENCY_PREDICTOR_UPDATE (R317): Every 256 cycles the predictor marks each group's slowest team and the favoured team. -/
  | urgencyPredictorUpdate (core : Nat)
  /-- MATRIX_GROUP_FORM (R178): A matrix group forms on a cluster and its control core starts. -/
  | matrixGroupForm (l : Nat) (cl : Nat)
  /-- MATRIX_GROUP_END (R178): A group's teams, shards and queues are done and the control core is freed. -/
  | matrixGroupEnd (cl : Nat)
  /-- MATRIX_OP_START (R188): The head operation of a queue starts when its banks are FULL and accumulator ARRAY. -/
  | matrixOpStart (cl : Nat) (ix : Nat)
  /-- MATRIX_OP_COMPLETE (R198): An operation completes, writing the accumulator and performing releases and RC. -/
  | matrixOpComplete (cl : Nat) (ix : Nat)
  /-- COPY_LINE_RUN (R297): The copy engine reads the source lines of one line-run and writes its destination bytes. -/
  | copyLineRun (o : OpId)
  /-- GATHER_TILE (R299): The gather unit reads CSR data and assembles one B tile. -/
  | gatherTile (o : OpId)
  /-- GATHER_WRITE (R299): When the target bank is EMPTY the gather writes the tile and publishes it. -/
  | gatherWrite (o : OpId)
  /-- SWARD_TILE (R302): The Sward engine reads bitmap words for one tile index and appends its record. -/
  | swardTile (o : OpId)
  /-- LEAF_FAULT_RESOLVE (R338): A leaf controller maps a first-touch fault or stops the operation. -/
  | leafFaultResolve (o : OpId)
  /-- BAR_BYTE_REPORT (R367): An engine byte count lands and decrements a pending-byte counter. -/
  | barByteReport (o : OpId)
  /-- BAR_WAIT_RELEASE (R365): After the tree latency, waiting participants are released. -/
  | barWaitRelease (t : TeamId)
  /-- BALLAST_MEASURE (R304): Every 50 µs each die compares shard depths and takes rates with its neighbours. -/
  | ballastMeasure
  /-- BALLAST_RECORD_TRANSFER (R305): Ballast moves records from a shard's tail to a neighbour's shard in one event. -/
  | ballastRecordTransfer (l : Nat) (bin : Nat) (d : Nat) (e : Nat)
  /-- BALLAST_SLAB_RESPLIT (R305): Ballast moves boundary rows between two slabs of the last SWBUILD descriptor. -/
  | ballastSlabResplit (l : Nat) (bin : Nat) (d : Nat) (e : Nat)
  /-- GRANULE_MIGRATION (R306): A granule is drained, copied to another die and remapped. -/
  | granuleMigration (l : Nat) (bin : Nat) (d : Nat) (e : Nat)
  /-- RDS (R224): The home takes a shared read request for a line. -/
  | rds (node : Nat) (line : Nat)
  /-- RDX (R224): The home takes a read-with-ownership request. -/
  | rdx (node : Nat) (line : Nat)
  /-- UPG (R224): The home takes an ownership upgrade request. -/
  | upg (node : Nat) (line : Nat)
  /-- FWD (R224): An owner L1 takes a forward and sends the line to the requester. -/
  | fwd (node : Nat) (line : Nat)
  /-- INV (R224): An L1 takes an invalidation, drops the line and acknowledges. -/
  | inv (node : Nat) (line : Nat)
  /-- BINV (R226): A holder takes a snoop-filter eviction invalidation and answers with WbD or Ack. -/
  | binv (node : Nat) (line : Nat)
  /-- ACK (R224): An acknowledgement or grant is taken; a grant ends the transaction. -/
  | ack (line : Nat)
  /-- DATA (R224): A requester takes line contents. -/
  | data (node : Nat) (line : Nat)
  /-- WBD (R224): The home takes a dirty write-back and writes it to L2. -/
  | wbd (node : Nat) (line : Nat)
  /-- HOST_CXL_MEM_READ (R225): A host CXL.mem read acts at the home. -/
  | hostCxlMemRead (pa : Nat) (len : Nat)
  /-- HOST_CXL_MEM_WRITE (R225): A host CXL.mem write invalidates L1 copies and writes L2. -/
  | hostCxlMemWrite (pa : Nat) (bytes : (List Byte)) (poisoned : Bool)
  /-- CXL_CACHE_COMPLETION (R243): The IOD's CXL.cache agent completes an access to host memory. -/
  | cxlCacheCompletion (line : Nat) (err : Bool)
  /-- RECLASS_DRAIN (R219): A core takes a drain, lets overlapped accesses perform, invalidates its class copy and acknowledges. -/
  | reclassDrain (node : Nat) (gran : Nat)
  /-- RECLASS_DRAIN_ACK (R219): The home has all drain acknowledgements, records the new class and releases the stalled access. -/
  | reclassDrainAck (gran : Nat)
  /-- TABLE_WALK (R327): The walker pool reads the table levels for a translation. -/
  | tableWalk (cl : Nat) (asid : Byte) (va : DWord)
  /-- BLOCK_DECODE (R247): After a CRC mismatch the block is decoded with its parity and corrected or poisoned. -/
  | blockDecode (block : Nat) (errs : (List SymErr))
  /-- UNCORRECTABLE_ARRAY_ERROR (R248): An on-chip array error is corrected, poisons data or kills gangs. -/
  | uncorrectableArrayError (loc : ArrayLoc)
  /-- LINK_FLIT_REPLAY (R248): A flit failing its link CRC is replayed. -/
  | linkFlitReplay (lk : LinkId) (lane : Nat)
  /-- LINK_PORT_DOWN (R17): A Myvemi port goes down and the module runs on the other. -/
  | linkPortDown (port : Nat)
  /-- SPARE_REPLACEMENT (R258): Firmware replaces a failing part from the spare inventory during a pre-emption. -/
  | spareReplacement (p : PartId)
  /-- CORE_RETIREMENT (R345): Firmware pre-empts a core's teams, sets its RETIRE bit, recomputes maps and resumes. -/
  | coreRetirement (core : Nat)
  /-- LEAF_CONTROLLER_RESTART (R362): A leaf controller silent for 10 ms is restarted by the IOD. -/
  | leafControllerRestart (cl : Nat)
  /-- GANG_COMMIT (R254): An ended gang whose dependencies committed commits its versions at one point. -/
  | gangCommit (g : GangId)
  /-- VERSION_STALL_TIMEOUT (R255): An access stalled 100 µs on a tagged line hardens the owning gang. -/
  | versionStallTimeout (w : Staller)
  /-- SUPPLY_LOSS (R358): Supply loss detected: the module freezes and collects every context. -/
  | supplyLoss
  /-- DROGUE_FLUSH (R359): Protected contexts' images and dirty granules are written to flash with commit records. -/
  | drogueFlush
  /-- SUPPLY_RETURN (R360): Supply returns during a flush; contexts resume after it commits. -/
  | supplyReturn
  /-- ENERGY_RESERVE_LOW (R360): Stored energy falls below reserve and flash writing stops. -/
  | energyReserveLow
  /-- FREEZE (R351): Mailbox command pre-empts a context and writes its image to its image area. -/
  | freeze (asid : Byte)
  /-- RESTORE (R352): Mailbox command checks an image and restores its context onto a named queue. -/
  | restore (addr : DWord) (q : Nat)
  /-- CKPT (R357): Mailbox command resets DCOUNT to the bitmap count and ends a lapse. -/
  | ckpt (asid : Byte)
  /-- DROGUE_REG (R355): Mailbox command registers a context for Drogue protection with a budget. -/
  | drogueReg (asid : Byte) (budget : Nat)
  /-- IMAGE_AREA (R351): Mailbox command gives a context's image area address and size. -/
  | imageArea (asid : Byte) (addr : DWord) (size : Nat)
  /-- PREEMPT (R319): Mailbox command requests pre-emption of a launch, context or core set. -/
  | preempt (tgt : PreTarget)
  /-- SIGNED (R385): Mailbox command carries a signed partition or identity command. -/
  | signed (cmd : (List Byte))
  /-- REPORT (R386): Mailbox command writes a signed attestation report. -/
  | report (nonce : (List Byte)) (buf : DWord)
  /-- SENSOR_REFRESH (R384): Every 1 ms the sensors are refreshed. -/
  | sensorRefresh (vals : (List Word))
  deriving DecidableEq, Repr

end Sys2Proof
end

