-- ==== Sys2Proof/Machine/Legal.lean ====
section
/-! DEFINITION. The operand rules whose breach traps ILLEGAL whatever the machine's state: what each source and
destination of a lane instruction is, and which register and code fields of the scalar words are permitted
(spec/03 R62, R65–R72, R74, R78–R81; spec/07 R146, R147). -/

namespace Sys2Proof

/-- How an operand is read (07 R146) and so how an immediate20 becomes one (03 R70). -/
inductive SrcTy
  | int32 | int64 | fp32 | fp64 | packed | quad
  deriving DecidableEq, Repr

/-- What a source position of an opcode takes. -/
inductive SrcUse
  /-- kind 00 and payload 0 -/
  | unused
  | val (t : SrcTy)
  /-- a 32-bit word from the register kinds only -/
  | regWord
  /-- a 32-bit word in a kind that is the same for every lane (07 R167) -/
  | uniform
  /-- an immediate20 holding a number below the limit -/
  | number (limit : Nat)
  /-- a mask register, the selector of SEL -/
  | selector
  deriving DecidableEq, Repr

inductive DstUse | none | w32 | w64 | quad | mask
  deriving DecidableEq, Repr

def FTy.srcTy : FTy → SrcTy
  | .f32 => .fp32 | .f64 => .fp64 | .f16 => .packed | .bf16 => .packed
def DTy.srcTy : DTy → SrcTy
  | .f32 => .fp32 | .f64 => .fp64
def ITy.srcTy : ITy → SrcTy
  | .i32 => .int32 | .n32 => .int32 | .i64 => .int64 | .n64 => .int64
def Wd.srcTy : Wd → SrcTy
  | .w32 => .int32 | .w64 => .int64
def RTy.srcTy : RTy → SrcTy
  | .i32 => .int32 | .n32 => .int32 | .f32 => .fp32 | .i64 => .int64 | .n64 => .int64 | .f64 => .fp64
/-- A conversion source (03 R70, 06 R126). -/
def Fmt.srcTy : Fmt → SrcTy
  | .f32 => .fp32 | .f64 => .fp64 | .f16 => .packed | .bf16 => .packed
  | .i64 => .int64 | .n64 => .int64
  | .e4m3 => .int32 | .e5m2 => .int32 | .i8 => .int32 | .i16 => .int32 | .i32 => .int32
  | .n8 => .int32 | .n16 => .int32 | .n32 => .int32

/-- The destination width of an operand type. -/
def SrcTy.dst : SrcTy → DstUse
  | .int64 => .w64 | .fp64 => .w64 | .quad => .quad | .int32 => .w32 | .fp32 => .w32 | .packed => .w32

def Fmt.isFloat : Fmt → Bool
  | .f32 => true | .f64 => true | .f16 => true | .bf16 => true | .e4m3 => true | .e5m2 => true
  | .i8 => false | .i16 => false | .i32 => false | .i64 => false
  | .n8 => false | .n16 => false | .n32 => false | .n64 => false

def RTy.isFloat : RTy → Bool
  | .f32 => true | .f64 => true | .i32 => false | .n32 => false | .i64 => false | .n64 => false

namespace Machine

/-- The shape of a lane opcode: its sources, destination, permitted destination kinds, whether it rounds (07 R147)
and whether it may carry HOLD (03 R74). -/
structure LaneSig where
  a : SrcUse
  b : SrcUse
  c : SrcUse
  dst : DstUse
  dks : List DK
  rounds : Bool
  hold : Bool
  deriving DecidableEq, Repr

/-- An elementwise opcode over type t, which writes lane registers or latches only. -/
def sigT (t : SrcTy) (b c : SrcUse) (rounds : Bool) : LaneSig :=
  ⟨.val t, b, c, t.dst, [.reg, .latch], rounds, true⟩

/-- The base and offset operands of an address at a level (10 R227). -/
def addrTy : Level → SrcTy
  | .g => .int64 | .p => .int32 | .s => .int32 | .n => .int32 | .d => .int32

def ldDst : LdW → DstUse
  | .b64 => .w64 | .b128 => .quad | .n8 => .w32 | .i8 => .w32 | .n16 => .w32 | .i16 => .w32 | .b32 => .w32

def stTy : StW → SrcTy
  | .b64 => .int64 | .b128 => .quad | .b8 => .int32 | .b16 => .int32 | .b32 => .int32

/-- The shape of each lane instruction, none for every other instruction (03 R79–R81, 07 R146, R147). DEDUCED: notes/assumptions/27. -/
def laneSig : Instr → Option (LaneSig × LaneArgs)
  | .fadd t x | .fsub t x | .fmul t x => some (sigT t.srcTy (.val t.srcTy) .unused true, x)
  | .ffma t x | .ffms t x => some (sigT t.srcTy (.val t.srcTy) (.val t.srcTy) true, x)
  | .fmin t x | .fmax t x => some (sigT t.srcTy (.val t.srcTy) .unused false, x)
  | .fabs t x | .fneg t x | .fclass t x => some (sigT t.srcTy .unused .unused false, x)
  | .frint t x => some (sigT t.srcTy .unused .unused true, x)
  | .frcp t x | .frsq t x => some (sigT t.srcTy .unused .unused false, x)
  | .fsqrt t x => some (sigT t.srcTy .unused .unused true, x)
  | .fdiv t x => some (sigT t.srcTy (.val t.srcTy) .unused true, x)
  | .fexp2 x | .flog2 x | .fsint x | .fcost x => some (sigT .fp32 .unused .unused false, x)
  | .cvt d s x =>
    some (⟨.val s.srcTy, .unused, .unused, d.srcTy.dst, [.reg, .latch], d.isFloat || s.isFloat, true⟩, x)
  | .iadd t x | .isub t x | .imul t x | .imulh t x | .imin t x | .imax t x | .iadds t x | .isubs t x =>
    some (sigT t.srcTy (.val t.srcTy) .unused false, x)
  | .imad t x => some (sigT t.srcTy (.val t.srcTy) (.val t.srcTy) false, x)
  | .iabs t x | .ineg t x => some (sigT t.srcTy .unused .unused false, x)
  | .laneAnd t x | .laneOr t x | .laneXor t x | .laneAndn t x =>
    some (sigT t.srcTy (.val t.srcTy) .unused false, x)
  | .not t x | .laneClz t x | .laneCtz t x | .lanePopc t x | .brev t x | .mov t x =>
    some (sigT t.srcTy .unused .unused false, x)
  | .laneShl t x | .laneShr t x | .laneSra t x | .rol t x | .ror t x | .bfe t x =>
    some (sigT t.srcTy (.val .int32) .unused false, x)
  | .bfi t x => some (sigT t.srcTy (.val .int32) (.val t.srcTy) false, x)
  | .sel t x => some (sigT t.srcTy (.val t.srcTy) .selector false, x)
  | .fcmp _ t x => some (⟨.val t.srcTy, .val t.srcTy, .unused, .mask, [.mask], false, true⟩, x)
  | .icmp _ t x => some (⟨.val t.srcTy, .val t.srcTy, .unused, .mask, [.mask], false, true⟩, x)
  | .shflIdx t x | .shflXor t x | .shflUp t x | .shflDown t x =>
    some (sigT t.srcTy (.val .int32) .unused false, x)
  | .bcast t x => some (sigT t.srcTy .uniform .unused false, x)
  | .lidx x => some (⟨.unused, .unused, .unused, .w32, [.reg, .latch], false, true⟩, x)
  | .redAdd t x | .scanAdd t x | .scanAddx t x => some (sigT t.srcTy .unused .unused t.isFloat, x)
  | .redMin t x | .redMax t x | .scanMax t x => some (sigT t.srcTy .unused .unused false, x)
  | .redAnd t x | .redOr t x => some (sigT t.srcTy .unused .unused false, x)
  | .xswap t x => some (⟨.val t.srcTy, .number 64, .unused, t.srcTy.dst, [.reg], false, false⟩, x)
  | .swmark x => some (⟨.val .int64, .val .int32, .unused, .none, [.none], false, false⟩, x)
  | .ld lv w x => some (⟨.val (addrTy lv), .val .int32, .unused, ldDst w, [.reg], false, false⟩, x)
  | .st lv w x => some (⟨.val (addrTy lv), .val .int32, .val (stTy w), .none, [.none], false, false⟩, x)
  | .atom op lv t x =>
    some (⟨.val (addrTy lv), .val .int32, .val t.srcTy, t.srcTy.dst,
      if op = .cas then [.reg] else [.reg, .none], false, false⟩, x)
  | .cldLane t x => some (⟨.val .int32, .number 8, .unused, t.srcTy.dst, [.reg], false, false⟩, x)
  | .mfeedA x | .mfeedB x => some (⟨.regWord, .uniform, .unused, .none, [.none], false, true⟩, x)
  | .mdrain x => some (⟨.unused, .uniform, .unused, .w32, [.reg], false, true⟩, x)
  | .qmx _ x => some (⟨.val .fp32, .unused, .unused, .w32, [.reg], false, true⟩, x)
  | _ => none

/-- Registers a source of an operand type names: even for 64 bits, a multiple of 4 for .b128 (03 R69, 10 R232). DEDUCED: notes/assumptions/28. -/
def regAligned (t : SrcTy) (i : Nat) : Bool :=
  match t with
  | .int64 => i % 2 == 0
  | .fp64 => i % 2 == 0
  | .quad => i % 4 == 0
  | .int32 => true
  | .fp32 => true
  | .packed => true

/-- A source is of a kind and payload its position takes (03 R69). -/
def srcLegal (u : SrcUse) (s : Src) : Bool :=
  match u with
  | .unused => s == .vreg 0
  | .val t =>
    match s with
    | .vreg i => regAligned t i.toNat
    | .sreg i => regAligned t i.toNat
    | .latch _ => t != .quad
    | .kreg _ => false
    | .cwin _ _ => t != .quad
    | .imm _ => t != .quad
    | .lit i => t != .quad && i.toNat ≤ 2
  | .regWord =>
    match s with
    | .vreg _ => true
    | .sreg _ => true
    | .latch _ => true
    | .kreg _ => false
    | .cwin _ _ => false
    | .imm _ => false
    | .lit _ => false
  | .uniform =>
    match s with
    | .sreg _ => true
    | .cwin _ _ => true
    | .imm _ => true
    | .lit i => i.toNat ≤ 2
    | .vreg _ => false
    | .latch _ => false
    | .kreg _ => false
  | .number limit =>
    match s with
    | .imm p => p.toNat < limit
    | .vreg _ => false
    | .sreg _ => false
    | .latch _ => false
    | .kreg _ => false
    | .cwin _ _ => false
    | .lit _ => false
  | .selector =>
    match s with
    | .kreg _ => true
    | .vreg _ => false
    | .sreg _ => false
    | .latch _ => false
    | .cwin _ _ => false
    | .imm _ => false
    | .lit _ => false

/-- The literal indices a source references, both of a 64-bit literal (03 R71). -/
def litRefs (u : SrcUse) (s : Src) : List Nat :=
  match s with
  | .lit i =>
    match u with
    | .val .int64 => [i.toNat, i.toNat + 1]
    | .val .fp64 => [i.toNat, i.toNat + 1]
    | _ => [i.toNat]
  | _ => []

/-- The number of literal words that follow W2: one past the highest index referenced (03 R59, R71). -/
def litCount (refs : List Nat) : Nat := refs.foldl (fun m i => max m (i + 1)) 0

/-- The referenced literals are 0 to m − 1 with m at most 3 (03 R71). -/
def litsLegal (refs : List Nat) : Bool :=
  litCount refs ≤ 3 && (List.range (litCount refs)).all (fun i => refs.contains i)

def LaneSig.refs (g : LaneSig) (x : LaneArgs) : List Nat :=
  litRefs g.a x.a ++ litRefs g.b x.b ++ litRefs g.c x.c

/-- DI agrees with DK (03 R68), and a wide destination is aligned. -/
def dstLegal (d : DstUse) (x : LaneArgs) : Bool :=
  match x.dk with
  | .reg =>
    match d with
    | .w64 => x.di.toNat % 2 == 0
    | .quad => x.di.toNat % 4 == 0
    | .w32 => true
    | .none => true
    | .mask => true
  | .mask => x.di.toNat < 16
  | .none => x.di == 0
  | .latch => x.di == 0

/-- The level codes an opcode takes: atomics have no lane-private level (03 R81). -/
def levelLegal : Instr → Bool
  | .atom _ lv _ _ => lv != .p
  | .cvt d s _ => d != s
  | _ => true

/-- Step 2 of the lane decode checks (03 R77): everything that traps ILLEGAL. -/
def laneLegal (i : Instr) : Bool :=
  match laneSig i with
  | none => true
  | some (g, x) =>
    g.dks.contains x.dk && dstLegal g.dst x
      && srcLegal g.a x.a && srcLegal g.b x.b && srcLegal g.c x.c
      && (x.rm == 0 || (g.rounds && x.rm.toNat ≤ 4))
      && litsLegal (g.refs x) && x.lits.length == litCount (g.refs x)
      && (g.hold || !x.hold) && levelLegal i

/-- The feature that an instruction needs: the bit of FWACC0 without which it traps ILLEGAL (12 R262). -/
def featureOf : Instr → Option Nat
  | .mzero _ _ => some 1
  | .mma _ _ _ _ _ _ _ _ => some 1
  | .mmaq _ _ _ _ _ _ _ _ => some 1
  | .mbank _ _ => some 1
  | .mfeedA _ => some 1
  | .mfeedB _ => some 1
  | .mdrain _ => some 1
  | .qmx _ _ => some 1
  | .mmas _ _ _ _ _ _ _ _ => some 3
  | .xgath _ _ => some 3
  | .swmark _ => some 4
  | .swbuild _ _ => some 4
  | .xswap _ _ => some 8
  | _ => none

def even (r : BitVec 6) : Bool := r.toNat % 2 == 0

/-- Level codes of SLD and SST: .S, .N, .D, .G (10 R239). -/
def scalarLevel (l : BitVec 3) : Option Level :=
  match l.toNat with
  | 1 => some .s
  | 2 => some .n
  | 3 => some .d
  | 4 => some .g
  | _ => none

/-- Level codes of SATOM (03 R65). -/
def atomLevel (l : BitVec 2) : Level :=
  match l.toNat with
  | 0 => .s
  | 1 => .n
  | 2 => .d
  | _ => .g

/-- Widths of SLD (03 R65): LD's from .n8 to .b64. -/
def sldWidth (w : BitVec 3) : Option LdW :=
  match w.toNat with
  | 0 => some .n8
  | 1 => some .i8
  | 2 => some .n16
  | 3 => some .i16
  | 4 => some .b32
  | 5 => some .b64
  | _ => none

/-- Widths of SST (03 R65). -/
def sstWidth (w : BitVec 3) : Option StW :=
  match w.toNat with
  | 0 => some .b8
  | 2 => some .b16
  | 4 => some .b32
  | 5 => some .b64
  | _ => none

/-- Atomic operation codes (03 R66). -/
def atomOp (p : BitVec 4) : Option AtomOp :=
  match p.toNat with
  | 0 => some .add
  | 1 => some .and
  | 2 => some .or
  | 3 => some .xor
  | 4 => some .min
  | 5 => some .max
  | 6 => some .minn
  | 7 => some .maxn
  | 8 => some .swap
  | 9 => some .cas
  | _ => none

/-- The register-pair, code and flag rules of the scalar words (03 R62, R65; 05 R110, R114; 10 R239; 13 R285, R292;
15 R342; 17 R370). Rules that depend on the issuer or on the state are in the meanings. -/
def scalarLegal : Instr → Bool
  | .aaddi d _ _ | .aadd d _ _ | .asub d _ _ | .aaddx d _ _ _ => even d
  | .call a _ => even a
  | .jr a => even a
  | .callr d a => even d && even a
  | .lsetpc o => o.toNat != 0x3FFFF
  | .sld d _ _ l w =>
    (scalarLevel l).isSome && (sldWidth w).isSome && (sldWidth w != some .b64 || even d)
  | .sst d _ _ l w =>
    (scalarLevel l).isSome && (sstWidth w).isSome && (sstWidth w != some .b64 || even d)
  | .satom d _ b _ p w => (atomOp p).isSome && (w == 0 || (even d && even b))
  | .declass a => even a
  | .tlbinv a => even a
  | .spawn d _ => d.toNat % 4 == 0
  | .xcopy _ a c n | .xfill _ a c n => even a && (c == 1 || n == 0)
  | .xgath _ a | .swbuild _ a => even a
  | .barExp a _ => even a
  | .mma _ _ _ _ _ _ _ m | .mmaq _ _ _ _ _ _ _ m | .mmas _ _ _ _ _ _ _ m => m.toNat ≤ 4
  | _ => true

end Machine
end Sys2Proof
end

