-- ==== Sys2Proof/Machine/State.lean ====
section
/-! DEFINITION. The state of the Erunlum module as plain data: everything the spec gives the machine, the
reasons a step can stop, and the state after reset (INVENTORY.md, ## State). -/

namespace Sys2Proof.Machine

/-- A sparse table: key and value pairs with rising keys, none equal to what an unlisted key reads as. -/
abbrev SMap (α : Type) := List (Nat × α)

/-- Memory: bytes by physical address (15 R325). An unlisted address reads as zero (DESIGN CHOICE, notes/assumptions/1). -/
abbrev Memory := List Host.Cell

/-! ## Accesses -/

/-- Who owns a TLB (15 R333). -/
inductive TlbOwner
  | cluster (cl : Nat)
  | copyEngine (die : Nat)
  | gather (cl : Nat)
  | sward (die : Nat)
  | iod
  deriving DecidableEq, Repr

/-- A classifier entry (09 R218). -/
inductive GClass
  | uncl
  | priv (node : Nat) (w : Bool)
  | ro
  | shared
  deriving DecidableEq, Repr

/-- A TLB entry (15 R333): page number at the leaf's level, leaf bits, the marked granules, and the class copies by granule. -/
structure TlbEntry where
  owner : TlbOwner
  asid : Byte
  level : Nat
  page : Nat
  pte : Nat
  frame : Nat
  r : Bool
  w : Bool
  x : Bool
  sup : Bool
  apl : BitVec 2
  d : Bool
  marked : List Nat
  cls : SMap GClass
  deriving DecidableEq, Repr

/-- Storage that an access reaches (09 R206). -/
inductive Loc
  | mem (pa : Nat)
  | scratch (core off : Nat)
  | dscratch (launch die off : Nat)
  deriving DecidableEq, Repr

/-- Kinds of access that a leaf's permissions tell apart (15 R331). -/
inductive AccKind | read | write | atomic | fetch | head | probe
  deriving DecidableEq, Repr

/-- What serves an access of a stream: its L1, the slice, for an atomic without near placement (10 R237), or, for a constant read of an RO
granule, the core's constant cache (10 R241). -/
inductive Via | l1 | slice | const
  deriving DecidableEq, Repr

/-- One checked part of an access: its lane, the virtual address and the translation that it was checked against (10 R233), where it
goes, and what serves it there. -/
structure Spot where
  lane : Nat
  va : Option DWord
  tr : Option TlbEntry
  loc : Loc
  via : Via
  deriving DecidableEq, Repr

/-- What an event does at its location (09 R211). -/
inductive EvOp
  | read (n : Nat)
  | write (bs : List Byte)
  | atomic (op : AtomOp) (t : Wd) (operand compare : DWord)
  deriving DecidableEq, Repr

/-- One event of an access. -/
structure AccEvent where
  spot : Spot
  op : EvOp
  deriving DecidableEq, Repr

/-- Where the words that an access reads go once all its events have performed (10 R231, R234): a scalar register or pair, n registers
of each lane, or the constant-window words of the instructions that read them (07 R149). -/
inductive AccDest
  | none
  | sreg (d : BitVec 6) (wide : Bool) (w : LdW)
  | lanes (r n : Nat) (w : LdW)
  | windows
  deriving DecidableEq, Repr

/-- A completed instruction as breakpoints see it: lane or scalar, its address, and its governing mask (17 R377). -/
structure Done where
  lane : Bool
  addr : Nat
  gov : Mask
  deriving DecidableEq, Repr

/-- What a blocked stream, or an outstanding access, waits on (02 R52). -/
inductive Wait
  | hwait (h : BitVec 4)
  | command (h : BitVec 4)
  | barWait (n : BitVec 3)
  | refillW
  | sleep (till : Nat)
  | phase
  | chainPhase
  | xswap
  | spawn
  | reclass (gran : Nat)
  | version (owner : GangId) (since : Nat)
  | cxl (line : Nat)
  | matrixQueue
  | inval (va : Option Nat)
  | declass (gran : Nat)
  deriving DecidableEq, Repr

/-- The registers and the place of a stream (04 R86, R91, 05 R107), with the lanes of a team: what its instructions can have changed
since an access issued that is to issue again (16 R358). -/
structure Back where
  regs : Vector PWord 64
  pc : DWord
  fmt : Word
  tvec : DWord
  pgpool : DWord
  tcause : Word
  tdetail : Word
  tpc : DWord
  taddr : DWord
  tstat : Word
  vregs : SMap PWord
  masks : Vector Mask 16
  tlpc : Word
  tlane : Word
  tk0 : Mask
  lanePc : Nat
  runLeft : Nat
  deriving DecidableEq, Repr

/-- What has issued beside a stream's latest access before it could perform (09 R216): nothing; instructions that changed nothing but
the stream, whose registers then were these; or one that reached further. -/
inductive Beside
  | none
  | own (b : Back)
  | other
  deriving DecidableEq, Repr

/-- An access that has passed its checks and has not performed all its events (09 R216, 10 R233): those still to come, in order; whether
its classes have been taken, and whether it counts as ordered (R215); whether it has found everything that its events wait for (begun);
the words that it has read, by lane; what it waits for; what completes with it; and the point at which its instruction issues again if it
is withdrawn (16 R358). stale tells that a translation that it was checked against has been removed (15 R341), and stepped that it is of
the unit of a step (17 R377). -/
structure Access where
  lane : Bool
  kind : AccKind
  events : List AccEvent
  classed : Bool
  ordered : Bool
  begun : Bool
  stale : Bool
  stepped : Bool
  got : List (Nat × PWord)
  dest : AccDest
  wait : Option Wait
  units : List Done
  sup : Bool
  backPc : DWord
  backLane : Nat
  backLeft : Nat
  beside : Beside
  deriving DecidableEq, Repr

/-! ## Streams -/

/-- STATE of a handle (13 R290). -/
inductive HState | idle | running | complete | stopped | cancelled
  deriving DecidableEq, Repr

/-- CLASS of an engine operation (13 R290). -/
inductive EngClass | xcopy | xfill | xgath | swbuild
  deriving DecidableEq, Repr

/-- A future handle (13 R290); cls has a meaning only when st is not idle. -/
structure Handle where
  st : HState
  cls : EngClass
  seq : BitVec 48
  deriving DecidableEq, Repr

/-- The registers that team and control-core scalar streams share (04 R86, R91), and the stream's blocking state: what it waits on, since
when it has yielded (05 R125), its latest outstanding access, and the overlapped accesses before it that are outstanding, the oldest first
(09 R216). -/
structure Scalar where
  regs : Vector PWord 64
  pc : DWord
  fmt : Word
  handles : Vector Handle 16
  tvec : DWord
  pgpool : DWord
  tcause : Word
  tdetail : Word
  tpc : DWord
  taddr : DWord
  tstat : Word
  wait : Option Wait
  yielded : Option Nat
  acc : Option Access
  older : List Access
  debugStopped : Bool
  stepping : Bool
  deriving DecidableEq, Repr

/-- An item record (02 R19), with the gang whose uncommitted append it is (11 R252). -/
structure Rec where
  w0 : Word
  w1 : Word
  w2 : Word
  w3 : Word
  tag : Option GangId
  deriving DecidableEq, Repr

/-- Team roles (02 R32). -/
inductive Role | vector | feed | drain
  deriving DecidableEq, Repr

/-- An arrival at an XSWAP pair (07 R173): the form, the instruction's fields, the governing set and the source words at
arrival, and the cycles waited (R175). -/
structure XArrival where
  pair : BitVec 6
  wide : Wd
  args : LaneArgs
  g : Mask
  src : SMap PPair
  waited : Nat
  deriving DecidableEq, Repr

/-- Where a team is resident: its physical core 36·die + site and its slot (02 R51). -/
structure Placement where
  core : Nat
  slot : Nat
  deriving DecidableEq, Repr

/-- A stop of an LRUN that is delivered as a trap (17 R378): an address match, lane-conditional or not, or the end of a step. -/
inductive PendTrap | bkpt (laneCond : Bool) | step
  deriving DecidableEq, Repr

/-- A team (02 R22, 04 R86, 16 R349). savedOn is the core that a team without a place had when it was saved; begun holds the quadrants
that have chosen its next lane instruction (14 R316); pendTrap is a stop of an LRUN that is taken when its run has completed (04 R97). refillRecs
are the records that it took at refills, each with the number of its take; anew marks a team of a relaunched gang that starts where it is
placed (11 R256). -/
structure Team where
  id : TeamId
  gid : Word
  launch : Nat
  entry : Nat
  nw : Nat
  alloc : Nat
  role : Role
  pos : Nat
  tix : Nat
  nbRows : Nat
  nbCols : Nat
  blk : Nat
  die : Nat
  place : Option Placement
  savedOn : Option Nat
  lvid : Vector Word 8
  lvext : Vector Word 8
  sc : Scalar
  vregs : SMap PWord
  masks : Vector Mask 16
  kv : Mask
  latches : SMap PPair
  seq : BitVec 48
  tlpc : Word
  tlane : Word
  tk0 : Mask
  lanePc : Nat
  runLeft : Nat
  chainPos : Nat
  chainStart : Nat
  pushes : Nat
  chainReads : Option (List PWord)
  chainLog : List (Nat × Mask)
  begun : List Nat
  pendTrap : Option PendTrap
  eventVersion : Option (BitVec 7)
  eventDirty : Bool
  startRecs : List Rec
  refillRecs : List (Nat × Rec)
  anew : Bool
  instrs : Nat
  xarr : Option XArrival
  deriving DecidableEq, Repr

/-! ## Matrix groups -/

/-- An operand bank (08 R179, R185): the words that differ from their reset values, phase and Z. -/
structure Bank where
  words : SMap PWord
  full : Bool
  z : Bool
  deriving DecidableEq, Repr

/-- An accumulator (08 R179, R186). -/
structure Acc where
  elems : SMap PWord
  drain : Bool
  deriving DecidableEq, Repr

inductive MxForm | mzero | mma | mmaq | mmas
  deriving DecidableEq, Repr

/-- A queued matrix operation (08 R188, R198): its fields, the FMT captured at issue, when it started, and its name: the control core's
PC and its position in the queue at issue (17 R375). -/
structure MxOp where
  form : MxForm
  word : Word
  acc : BitVec 2
  abank : BitVec 2
  bbank : BitVec 2
  ra : Bool
  rb : Bool
  rc : Bool
  rm : BitVec 3
  fmt : Word
  started : Option Nat
  pc : DWord
  qpos : Nat
  deriving DecidableEq, Repr

/-- The matrix state of one array core (08 R179). -/
structure ArrayState where
  core : Nat
  ab : Vector Bank 4
  bb : Vector Bank 4
  acc : Vector Acc 4
  queue : List MxOp
  deriving DecidableEq, Repr

/-- A matrix group and its control core (08 R177, R178); placed is false while the group is saved. -/
structure Group where
  cl : Nat
  launch : Nat
  sc : Scalar
  arrays : List ArrayState
  placed : Bool
  deriving DecidableEq, Repr

/-! ## Cores -/

/-- A debug block (17 R376). -/
structure Debug where
  dctl : Word
  dteam : Word
  dasid : Byte
  bp : Vector DWord 4
  bpc : Vector Word 4
  trbase : DWord
  trlen : Word
  trptr : Word
  trig : Word
  smpl : Word
  deriving DecidableEq, Repr

/-- A shadow record against a unit of a core (11 R257): the array column or lane unit, and when. -/
structure ShadowRec where
  array : Bool
  quadrant : Nat
  column : Nat
  time : Nat
  deriving DecidableEq, Repr

/-- An issue choice (14 R316): the ready teams in the order in which they became ready, or were last chosen, and the favoured team to
which each of the last 64 choices, the latest first, went under step 1, if one did. -/
structure Chooser where
  waiting : List TeamId
  grants : List (Option TeamId)
  deriving DecidableEq, Repr

/-- A physical core (01 R14): carve-out, scratchpad, counters, debug block, predictor and unit records. nextSample is when
the next stall sample is due, and sampleSlot the slot from which its team is taken (17 R375); slowest holds the teams that the predictor has marked, with
their deficits (14 R317). -/
structure CoreState where
  carve : Nat
  scratch : Memory
  scratchPoison : SMap Bool
  iret : DWord
  pmc : Vector DWord 16
  psel : Vector Word 16
  dbg : Debug
  nextSample : Nat
  sampleSlot : Nat
  slowest : List (TeamId × Nat)
  quads : Vector Chooser 4
  pipes : Chooser
  shadow : List ShadowRec
  spareCols : Vector Bool 4
  deriving DecidableEq, Repr

/-! ## Launches, bins and queues -/

/-- Hardware domains (02 R39). -/
inductive HwDom | lane | team | core | nbhd | cluster | die | device
  deriving DecidableEq, Repr

/-- Sharing domains (12 R275). -/
inductive ShDom | priv | scratch | window | dscratch | global
  deriving DecidableEq, Repr

/-- A launch-record entry as accepted (12 R276). -/
structure Entry where
  sbase : DWord
  lbase : DWord
  hbmap : DWord
  slen : Nat
  llen : Nat
  sentry : Nat
  lentry : Nat
  arg : Word
  fmt : Word
  n : Nat
  alloc : Nat
  role : Role
  pos : Nat
  tix : Nat
  bin : Nat
  deriving DecidableEq, Repr

/-- A bin-table entry as accepted (12 R277), with the bin's closed flag and the gang that tags its close. -/
structure Bin where
  records : DWord
  count : Nat
  home : Bool
  homeWord : Nat
  ballast : Bool
  timer : Nat
  closed : Bool
  closeTag : Option GangId
  lastBuild : Option DWord
  deriving DecidableEq, Repr

/-- A constant window (10 R241). -/
structure Window where
  base : DWord
  len : Nat
  deriving DecidableEq, Repr

/-- An XSWAP pair (12 R277). -/
structure XPair where
  first : Nat
  count : Nat
  posA : Nat
  ixA : Nat
  posB : Nat
  ixB : Nat
  deriving DecidableEq, Repr

/-- The kill record of a launch: the fields of the status block that a kill writes (12 R279). -/
structure KillRec where
  gid : Word
  teamno : Word
  tcause : Word
  tdetail : Word
  tpc : DWord
  taddr : DWord
  tlpc : Word
  tlane : Word
  tk0 : Mask
  deriving DecidableEq, Repr

inductive LState | running | complete | failed | saved
  deriving DecidableEq, Repr

/-- A live launch: its record as accepted (12 R275, R278) and its progress (02 R49, 12 R279). cands are the clusters on which it forms
matrix groups, fixed at its acceptance (08 R178), and proc the process whose run-list queue accepted it (12 R274). -/
structure Launch where
  id : Nat
  queue : Nat
  proc : Option Word
  asid : Byte
  part : Nat
  packet : DWord
  caddr : DWord
  cval : DWord
  raw : List Byte
  nb : Bool
  relaunch : Bool
  rows : Nat
  cols : Nat
  carve : Nat
  dscr : Nat
  diemask : Nat
  arrays : Nat
  barUsed : Byte
  barNbhd : Byte
  psize : Nat
  vbudget : Nat
  teamq : Nat
  nbq : Nat
  slotq : Nat
  regq : Nat
  spq : Nat
  hier : List (HwDom × ShDom)
  entries : List Entry
  bins : List Bin
  pairs : List XPair
  pbase : DWord
  tvec : DWord
  pgpool : DWord
  stat : DWord
  ccsbase : DWord
  ccslen : Nat
  ccentry : Nat
  ccfmt : Word
  ccarg : Word
  windows : Vector Window 8
  lstate : LState
  kills : Nat
  failcode : Nat
  krec : Option KillRec
  noted : List Nat
  cands : List Nat
  formed : List Nat
  preempted : Bool
  doneSeen : Nat
  deriving DecidableEq, Repr

/-- A bin's shard on one die (13 R280, R282); timer is the cycle at which it expires, and ready its place in the order in which shards
became ready (14 R312). -/
structure Shard where
  launch : Nat
  bin : Nat
  die : Nat
  recs : List Rec
  timer : Option Nat
  frozen : Option Nat
  expired : Bool
  ready : Option Nat
  rot : Nat
  takes : List (Nat × Nat)
  deriving DecidableEq, Repr

inductive QState | idle | mapped | unmapping | faulted
  deriving DecidableEq, Repr

/-- A position inside an indirect buffer (12 R269): base, packet count, next packet. -/
structure IbPos where
  base : DWord
  count : Nat
  next : Nat
  deriving DecidableEq, Repr

/-- A registered queue (12 R259): the host-written fields copied at registration, and the processing state. read counts ring
packets that have been read; cur is a packet read that has not started, at its address (R264, R265); stall holds processing
after clear fault until the tail is next found changed (R261); order is its place among queues that wait for a slot (R273); tailPa is where
its tail lies, and tailNew tells that the tail's line has been invalidated, or not yet read, since the tail was last read (R263). -/
structure Queue where
  num : Nat
  ring : DWord
  log2sz : Nat
  signal : Bool
  asid : Byte
  part : Nat
  proc : Word
  taila : DWord
  heada : DWord
  timeout : Nat
  descPa : Nat
  st : QState
  pend : Bool
  code : Nat
  fpos : DWord
  read : DWord
  tail : DWord
  ibs : List IbPos
  cur : Option (DWord × List Byte)
  stall : Bool
  lastChange : Nat
  order : Option Nat
  dereg : Bool
  tailPa : Nat
  tailNew : Bool
  deriving DecidableEq, Repr

/-- An ASID table entry as copied at the first register command of the ASID (15 R332); clean tells that its reserved bits are zero. -/
structure AsidCopy where
  asid : Byte
  valid : Bool
  clean : Bool
  root : Nat
  dbbase : Nat
  dbvbase : DWord
  dblen : Nat
  deriving DecidableEq, Repr

/-- A partition entry (14 R308). -/
structure Partition where
  regcap : Nat
  slotcap : Nat
  pdies : Nat
  valid : Bool
  quantum : Nat
  clmask : Nat
  deriving DecidableEq, Repr

/-- The kept fields of one die's core-map block (16 R343); the others are computed. -/
structure CoreMap where
  harvest : BitVec 36
  retire : BitVec 36
  spareRetired : Bool
  spcc : BitVec 4
  gen : Word
  deriving DecidableEq, Repr

/-! ## Engines, barriers, gangs -/

/-- Where an engine operation's source or destination lies (13 R296). -/
inductive Storage
  | global
  | scratch (core : Nat)
  | window (cores : List Nat)
  | dscratch (die : Nat)
  deriving DecidableEq, Repr

/-- A descriptor once read and checked (13 R296, R298, R301). -/
inductive Desc
  | copy (fill : Bool) (src dst : DWord) (esize ndim : Nat) (ext : List Nat) (sstr dstr : List DWord)
      (slvl dlvl : Level)
  | gath (rowptr colidx vals : DWord) (tiles b0 nb kb0 n0 : Nat)
  | sward (bmap hbase : DWord) (nx ny r bin : Nat) (tstride user : Word) (slabs : List (Nat × Nat))
  deriving DecidableEq, Repr

/-- An engine operation (13 R290–R297, 16 R400). A stopped one that HTEST or BAR.WAIT has joined stays while its handle names it
(R303). phases are those in which its byte counts landed (17 R368), and stalled the gang its access waits for (11 R255). ending is the
state and the cause with which it ends once its status can be written (R294). pos is its issuer's position in its neighbourhood, and arr the
array core, by group and index, that it was issued on (R299). held keeps what an access that waits was checked against, with whether it
writes (15 R335), and stale tells that a translation among these has been removed (15 R341). -/
structure EngineOp where
  id : OpId
  handle : BitVec 4
  cls : EngClass
  gid : Word
  launch : Nat
  die : Nat
  core : Nat
  src : Storage
  dst : Storage
  pc : DWord
  desc : DWord
  pgpool : DWord
  sup : Bool
  count : Option (BitVec 3)
  body : Option Desc
  prog : Nat
  st : HState
  cause : Nat
  addr : DWord
  kind : BitVec 2
  fault : Bool
  cancel : Bool
  tile : Option (SMap PWord)
  appendWait : Bool
  joined : Bool
  phases : List Word
  stalled : Option (GangId × Nat)
  ending : Option (HState × Nat)
  pos : Nat
  arr : Option (Nat × Nat)
  held : List (Bool × Spot)
  stale : Bool
  deriving DecidableEq, Repr

/-- One participant of a barrier instance (17 R363), with the PC of its last BAR.ARR (R375) and the instructions that its team had
retired by then, which the predictor counts from (14 R317). -/
structure Part where
  team : TeamId
  arrived : Bool
  arrph : Word
  arrPc : DWord
  pend : Bool
  base : Nat
  deriving DecidableEq, Repr

/-- A barrier instance (17 R363); releaseAt is set while released participants await the tree latency. -/
structure Barrier where
  launch : Nat
  gid : Word
  name : BitVec 3
  nbhd : Bool
  parts : List Part
  phase : Word
  pb : DWord
  pbpois : Bool
  abn : Bool
  lstat : BitVec 2
  releaseAt : Option Nat
  deriving DecidableEq, Repr

/-- An engine byte count on its way to a pending-byte counter (17 R365, R367). -/
structure ByteReport where
  op : OpId
  launch : Nat
  gid : Word
  name : BitVec 3
  bytes : DWord
  abandoned : Bool
  due : Nat
  deriving DecidableEq, Repr

/-- A gang (02 R37, 11 R252–R256). past holds its retired teams while it may still be killed and relaunched (R256). -/
structure Gang where
  id : GangId
  launch : Nat
  prot : Bool
  hardened : Bool
  ended : Bool
  deps : List GangId
  kills : Nat
  past : List Team
  deriving DecidableEq, Repr

/-- What a version tag is on: a line of memory, of a core's scratchpad, or of a die scratchpad (11 R252). -/
inductive TagLoc
  | mem (line : Nat)
  | scratch (core line : Nat)
  | dscratch (l die line : Nat)
  deriving DecidableEq, Repr

/-- A tagged line with its earlier contents (11 R252; DEDUCED, notes/assumptions/7). -/
structure VTag where
  loc : TagLoc
  gang : GangId
  bytes : List Byte
  poison : List Bool
  deriving DecidableEq, Repr

/-- The die scratchpad of a launch on a die (09 R209). One that a restore has brought waits under the number of its die and 6 more until it
fits there. -/
structure DieScratch where
  launch : Nat
  die : Nat
  bytes : Memory
  poison : SMap Bool
  deriving DecidableEq, Repr

/-! ## Memory system -/

/-- An open reclassification (09 R219): the class to record and the cores that have not acknowledged. -/
structure Reclass where
  gran : Nat
  target : GClass
  undrained : List Nat
  deriving DecidableEq, Repr

/-- A walk-cache entry: a valid non-leaf entry (15 R328). -/
structure WalkEntry where
  die : Nat
  asid : Byte
  level : Nat
  prefixBits : Nat
  next : Nat
  deriving DecidableEq, Repr

/-- States of a directory entry (09 R222). -/
inductive DirSt | i | s | e | m | o
  deriving DecidableEq, Repr

inductive CohReq | rdS | rdX | upg
  deriving DecidableEq, Repr

/-- The open transaction of a BUSY line (09 R224, R226): the request, the L1s whose answer is awaited, and whether the home has the
data to supply, or the requester has it. evict marks a snoop-filter eviction. -/
structure Txn where
  evict : Bool
  req : CohReq
  node : Nat
  awaiting : List Nat
  fromMem : Bool
  hasData : Bool
  dirty : Bool
  deriving DecidableEq, Repr

/-- A directory entry (09 R222): OWNER, SHR by cluster, the open transaction, and requests that wait. -/
structure DirEntry where
  line : Nat
  st : DirSt
  owner : Option Nat
  shr : List Nat
  busy : Option Txn
  waiting : List (CohReq × Nat)
  deriving DecidableEq, Repr

/-- States of an L1 line; wb is a line held in the write-back buffer (09 R224). -/
inductive L1St | m | o | e | s | wb
  deriving DecidableEq, Repr

/-- What an L1 tags a line with (09 R210, 15 R333): the ASID, the virtual line, and the level of the page that it was reached through. -/
structure L1Tag where
  asid : Byte
  vline : Nat
  level : Nat
  deriving DecidableEq, Repr

/-- A line an L1 holds, with its tag (09 R210) and the team that last touched it (14 R318). own lists the poisoned words of a clean copy, when
they may be others than those of the line at its home (11 R248, R249). Nodes 0–215 are cores and 216–269 the control
cores of clusters 0–53. -/
structure L1Line where
  node : Nat
  line : Nat
  st : L1St
  tag : Option L1Tag
  touched : Option TeamId
  own : Option (List Nat)
  deriving DecidableEq, Repr

/-- Protocol messages in flight (09 R223). An Ack to the home says whether its sender supplied Data; the grant carries the state that
the requester takes, and stays until it has been taken and the requester has its data (R224). wbAck is the home's Ack of a WbD. -/
inductive CohMsg
  | fwd (dst line requester : Nat) (excl : Bool)
  | inv (dst line : Nat)
  | binv (dst line : Nat)
  | ackHome (src line : Nat) (dirty supplied : Bool)
  | grant (dst line : Nat) (st : L1St) (taken hasData : Bool)
  | data (dst line : Nat)
  | wbd (src line : Nat)
  | wbAck (dst line : Nat)
  deriving DecidableEq, Repr

/-- A line of host memory that the CXL.cache agent holds, or has asked for (10 R243). -/
structure HostLine where
  line : Nat
  excl : Bool
  ready : Bool
  err : Bool
  deriving DecidableEq, Repr

/-! ## Control plane -/

/-- Command-link messages (16 R361). -/
inductive LinkMsg
  | lnote (l : Nat)
  | preq (c : Nat)
  | pack (c : Nat)
  | resume (l : Nat)
  | mapchg (die : Nat)
  | efault (o : OpId)
  | done (l : Nat)
  deriving DecidableEq, Repr

/-- A command link to a leaf controller (14 R311): permits each way, and messages taken in order. -/
structure CmdLink where
  cl : Nat
  downPermits : Nat
  upPermits : Nat
  down : List LinkMsg
  up : List LinkMsg
  downWait : List LinkMsg
  upWait : List LinkMsg
  stops : List Nat
  deriving DecidableEq, Repr

/-- Why a pre-emption was raised (14 R319), which says what follows its completion (R324). -/
inductive Purpose
  | turnEnd
  | freeze (asid : Byte)
  | request
  | repair (cores : List Nat)
  | part (p : PartId)
  | ballast (l bin src dst : Nat)
  | drogue
  deriving DecidableEq, Repr

/-- A pre-emption in progress (14 R319–R322): why it was raised, the launches it takes whole, the cores that it clears, its members, the
units that have not acknowledged, those that have received the request, and the clusters whose leaf controllers were asked, have
answered, and whose answers the IOD has taken. -/
structure Collection where
  id : Nat
  purposes : List Purpose
  launches : List Nat
  cores : List Nat
  members : List UnitId
  units : List UnitId
  told : List UnitId
  asked : List Nat
  answered : List Nat
  packed : List Nat
  deriving DecidableEq, Repr

/-- A saved core scratchpad (14 R324, 16 R348): the teams that were resident on its core. Its contents stand at a core number of
216 or more, at which no core is. tag is the module logical core under which an image knows it. nb names the neighbourhood and the position
whose scratchpad it is, and tag is none when no SCRATCH record of the image has it. -/
structure SavedScratch where
  launch : Nat
  die : Nat
  from' : Nat
  tag : Option Nat
  at' : Nat
  teams : List TeamId
  nb : Option (GangId × Nat)
  deriving DecidableEq, Repr

/-- A group that waits for a rectangle: the next neighbourhood that a launch starts on a die, or a gang that resumes there (14 R314). -/
inductive Waiter
  | start (launch : Nat)
  | resume (gang : GangId)
  deriving DecidableEq, Repr

/-- A group's wait for a rectangle on a die, and since when. -/
structure RectWait where
  who : Waiter
  launch : Nat
  die : Nat
  since : Nat
  deriving DecidableEq, Repr

/-- A neighbourhood reservation: the cores kept for a group of a launch (14 R314). -/
structure Reservation where
  die : Nat
  who : Waiter
  launch : Nat
  cores : List Nat
  deriving DecidableEq, Repr

/-- A context registered for the Drogue (16 R355, R356). later lists its teams that had no place when 7/8 of the budget was reached, or came
with an image since: they take DIRTY_BUDGET once they are placed. -/
structure DrogueCtx where
  asid : Byte
  budget : Nat
  dcount : Nat
  lapsed : Bool
  raised : Bool
  later : List TeamId
  deriving DecidableEq, Repr

/-- What has been asked for after supply loss and waits until the flush has completed: the retirement of a core, the replacement of a part, and
what a stop of a leaf controller, a second one or not, asks for (16 R360, R362). -/
inductive DueRequest
  | core (core : Nat)
  | part (p : PartId)
  | leafStop (cl : Nat) (again : Bool)
  deriving DecidableEq, Repr

/-- A Drogue record in flash (16 R359). -/
structure FlashRecord where
  asid : Byte
  budget : Nat
  image : List Byte
  granules : List (DWord × List Byte × List Bool)
  committed : Bool
  superseded : Bool
  deriving DecidableEq, Repr

/-- Module supply (16 R358, R360). -/
inductive Supply | on | lost | flushed
  deriving DecidableEq, Repr

/-- An entry of the module's error log (10 R243, 12 R279). -/
inductive ErrLog
  | hostWrite (pa : Nat)
  | statWrite (l : Nat)
  deriving DecidableEq, Repr

/-- A count kept against a part for the triggers of 11 R258: what part, and when. -/
structure PartCount where
  part : PartId
  times : List Nat
  uncorrected : Bool
  deriving DecidableEq, Repr

/-- A unit whose corrected array errors are counted (11 R248): a core, a control core, an L2 slice, the store of a die's shards, the TLB of a
cluster, a queue's place in the IOD, or a die's engines. -/
inductive ArrayUnit
  | core (core : Nat)
  | control (cl : Nat)
  | slice (slice : Nat)
  | store (die : Nat)
  | tlb (cl : Nat)
  | queue (q : Nat)
  | engines (die : Nat)
  deriving DecidableEq, Repr

/-- A unit that computes wrongly: lane unit or array column of a core, and the bits its result has wrong
(06 R144, 08 R195; DESIGN CHOICE, notes/assumptions/9). -/
structure Defect where
  core : Nat
  array : Bool
  quadrant : Nat
  column : Nat
  flip : Word
  deriving DecidableEq, Repr

/-- A Ballast move in flight (13 R304, R305): how many records were moved, once they were; whether the slab step is to come; and the
home granules still to be migrated. -/
structure BallastMove where
  launch : Nat
  bin : Nat
  src : Nat
  dst : Nat
  moved : Option Nat
  split : Bool
  homes : List Word
  deriving DecidableEq, Repr

/-- What has an issue opportunity (14 R316): a quadrant of a core, one of its two scalar pipes, or a control core. -/
inductive Port
  | quad (core q : Nat)
  | pipe (core : Nat)
  | ctrl (cl : Nat)
  deriving DecidableEq, Repr

/-- One turn of the module: which agent moves next (DESIGN CHOICE, notes/assumptions/2, 3): an issue opportunity, the next events of a
stream's latest outstanding access, or of an older one, an event of another agent, or the passing of time. lim bounds the memory events that an instruction
performs in the turn: the others follow in later turns (09 R211, R213). A host store is one of the host's to its own memory (15 R325). An
L2 slice may write a line back to its stack and drop it (11 R249). A firmware image may be put into the flash store (18 R385). -/
inductive Turn
  | issue (p : Port) (lim : Option Nat)
  | perform (st : StreamId) (lim : Option Nat)
  | performOlder (st : StreamId) (n : Nat) (lim : Option Nat)
  | event (i : Instr)
  | elapse (cycles : Nat)
  | hostStore (pa : Nat) (bytes : List Byte)
  | l2Evict (line : Nat)
  | flashImage (leaf : Bool) (image : List Byte)
  deriving DecidableEq, Repr

/-- Firmware images (18 R381, R385): those in flash, those put there since and not yet verified, and those that run. -/
structure Firmware where
  iod : List Byte
  leaf : List Byte
  iodNew : Option (List Byte)
  leafNew : Option (List Byte)
  iodRuns : List Byte
  leafRuns : List Byte
  deriving DecidableEq, Repr

/-- How the last host CXL.mem request was answered: its address, the data of a read, the CXL poison indication (11 R249), and an error
completion (16 R358). -/
structure HostReply where
  pa : Nat
  bytes : List Byte
  poison : Bool
  error : Bool
  deriving DecidableEq, Repr

/-- The state of the module. mhz is the arithmetic clock in force, sensorsDue the cycle at which the sensors are next
refreshed, hotFor the refreshes, one after another, that have found power over its limit, and coolFor those that have found no cause of throttling
(18 R384); leafStops holds the clusters whose leaf controllers were
restarted, and when (16 R362). DEDUCED: notes/assumptions/101. migrating tells that the present turn met a leaf in migration (15 R327);
statDue holds the launches whose status waits to be written, and qcmdDue a register command that waits (DESIGN CHOICE, notes/assumptions/111).
bstate is the step of bring-up reached, and up tells that the last has completed (18 R381); readySeq and takeSeq number the shards that become
ready (14 R312) and the takes (11 R256); lost holds the L2 ways and link lanes out of service, and deadStacks the stacks that are retired
(11 R258); arrayErrors holds the units' corrected errors (11 R248); flushDue holds what waits for a flush (16 R360). -/
structure State where
  agenda : List Turn
  cur : Option StreamId
  limit : Option Nat
  migrating : Bool
  statDue : List Nat
  qcmdDue : Option Nat
  freeCount : Nat
  readySeq : Nat
  takeSeq : Nat
  clock : Nat
  mem : Memory
  poison : SMap Bool
  fw : Vector Word 4
  fwacc : Vector Word 4
  qtbase : DWord
  qtsize : Word
  qstat : Word
  mstate : Word
  asidbase : DWord
  bstate : Nat
  up : Bool
  firmware : Firmware
  mbCode : Byte
  mbErr : Bool
  mbBusy : Bool
  mbarg : Vector Byte 48
  sensors : Vector Word 28
  mhz : Nat
  sensorsDue : Nat
  hotFor : Nat
  coolFor : Nat
  alerts : Vector Word 64
  alertIx : Nat
  interrupts : Nat
  signedSeq : DWord
  errlog : List ErrLog
  ports : Vector Bool 2
  iodLinkDown : Vector Bool 2
  supply : Supply
  energyLow : Bool
  flash : List FlashRecord
  gangSeq : Word
  startSeq : Vector (BitVec 24) 6
  rlslots : Nat
  partitions : Vector Partition 8
  coreMaps : Vector CoreMap 6
  noMatrix : List Nat
  asids : List AsidCopy
  queues : List Queue
  turnProc : Option Word
  turnStart : Nat
  turnNext : Option Word
  nextOrder : Nat
  launches : List Launch
  nextLaunch : Nat
  shards : List Shard
  teams : List Team
  groups : List Group
  cores : SMap CoreState
  ctrlIret : SMap DWord
  dscratch : List DieScratch
  gangs : List Gang
  tags : List VTag
  ops : List EngineOp
  barriers : List Barrier
  reports : List ByteReport
  classes : SMap GClass
  reclass : List Reclass
  tlb : List TlbEntry
  walkCache : List WalkEntry
  dir : List DirEntry
  l1 : List L1Line
  constLines : List (Nat × Nat)
  net : List CohMsg
  hostLines : List HostLine
  hostStalls : List (Nat × GangId × Nat)
  hostReply : Option HostReply
  links : List CmdLink
  collections : List Collection
  nextCollection : Nat
  savedScratch : List SavedScratch
  saveOrder : List UnitId
  reservations : List Reservation
  waitingNb : List RectWait
  imageAreas : List (Byte × DWord × Nat)
  drogue : List DrogueCtx
  counts : List PartCount
  arrayErrors : List (ArrayUnit × Nat)
  usedSpares : List PartId
  lost : List PartId
  deadStacks : List Nat
  leafStops : List (Nat × Nat)
  flushDue : List DueRequest
  defects : List Defect
  moves : List BallastMove
  deriving DecidableEq, Repr

/-- Why the machine stops. DESIGN CHOICE: notes/assumptions/99. -/
inductive Fault
  /-- Raised by a meaning when no live stream is issuing: an instruction that nothing issues has no effect the
  spec could give. Safe: step never runs an instruction without its stream. -/
  | noStream
  deriving DecidableEq, Repr

/-- Why an instruction has no meaning. -/
inductive Refusal
  /-- Raised by an arm of exec whose instruction has no meaning in the model yet. Safe: nothing is proved of it. -/
  | notModelled (mnemonic : String)
  deriving DecidableEq, Repr

/-! ## Start values -/

/-- An idle handle (02 R46). -/
def Handle.idle : Handle := ⟨.idle, .xcopy, 0⟩

/-- The start value of the registers two kinds of stream share: all zero, handles idle (02 R46, 08 R178). -/
def Scalar.start : Scalar where
  regs := Vector.replicate 64 PWord.zero
  pc := 0
  fmt := 0
  handles := Vector.replicate 16 Handle.idle
  tvec := 0
  pgpool := 0
  tcause := 0
  tdetail := 0
  tpc := 0
  taddr := 0
  tstat := 0
  wait := none
  yielded := none
  acc := none
  older := []
  debugStopped := false
  stepping := false

def Bank.reset : Bank := ⟨[], false, false⟩
def Acc.reset : Acc := ⟨[], false⟩

/-- The reset values of an array core's matrix state (08 R179). -/
def ArrayState.reset (core : Nat) : ArrayState where
  core := core
  ab := Vector.replicate 4 Bank.reset
  bb := Vector.replicate 4 Bank.reset
  acc := Vector.replicate 4 Acc.reset
  queue := []

/-- A debug block after reset (17 R376). -/
def Debug.reset : Debug where
  dctl := 0
  dteam := 0
  dasid := 0
  bp := Vector.replicate 4 0
  bpc := Vector.replicate 4 0
  trbase := 0
  trlen := 0
  trptr := 0
  trig := 0
  smpl := 0

/-- A core after reset: carve-out code 0 (19 R388), counters zero (17 R372). -/
def CoreState.reset : CoreState where
  carve := 0
  scratch := []
  scratchPoison := []
  iret := 0
  pmc := Vector.replicate 16 0
  psel := Vector.replicate 16 0
  dbg := Debug.reset
  nextSample := 0
  sampleSlot := 0
  slowest := []
  quads := Vector.replicate 4 ⟨[], []⟩
  pipes := ⟨[], []⟩
  shadow := []
  spareCols := Vector.replicate 4 true

/-- A partition entry's reset values (14 R308). -/
def Partition.reset (valid : Bool) : Partition where
  regcap := 512
  slotcap := 16
  pdies := 0x3F
  valid := valid
  quantum := 10000
  clmask := 2 ^ 54 - 1

/-- A core-map block with no site fused off or retired and the spare control core unassigned
(16 R343; the fused and flash values are DESIGN CHOICE, notes/assumptions/6). -/
def CoreMap.reset : CoreMap := ⟨0, 0, false, 0xF, 0⟩

/-- A command link after reset: eight permits each way (14 R311). -/
def CmdLink.reset (cl : Nat) : CmdLink := ⟨cl, 8, 8, [], [], [], [], []⟩

/-- No image is known: DESIGN CHOICE, notes/assumptions/112. -/
def Firmware.reset : Firmware := ⟨[], [], none, none, [], []⟩

/-- The module right after reset, bring-up done and MSTATE INIT (18 R381; DEDUCED, notes/assumptions/16; DESIGN
CHOICE, notes/assumptions/6, 15). -/
def State.reset : State where
  agenda := []
  cur := none
  limit := none
  migrating := false
  statDue := []
  qcmdDue := none
  freeCount := 0
  readySeq := 0
  takeSeq := 0
  clock := 0
  mem := []
  poison := []
  fw := #v[0x3FF, 0, 0, 0]
  fwacc := Vector.replicate 4 0
  qtbase := 0
  qtsize := 0
  qstat := 0
  mstate := 0
  asidbase := 0
  bstate := 7
  up := true
  firmware := Firmware.reset
  mbCode := 0
  mbErr := false
  mbBusy := false
  mbarg := Vector.replicate 48 0
  sensors := Vector.replicate 28 0
  mhz := 1700
  sensorsDue := 1700000
  hotFor := 0
  coolFor := 0
  alerts := Vector.replicate 64 0
  alertIx := 0
  interrupts := 0
  signedSeq := 0
  errlog := []
  ports := Vector.replicate 2 true
  iodLinkDown := Vector.replicate 2 false
  supply := .on
  energyLow := false
  flash := []
  gangSeq := 0
  startSeq := Vector.replicate 6 0
  rlslots := 32
  partitions := #v[Partition.reset true, Partition.reset false, Partition.reset false, Partition.reset false,
    Partition.reset false, Partition.reset false, Partition.reset false, Partition.reset false]
  coreMaps := Vector.replicate 6 CoreMap.reset
  noMatrix := []
  asids := []
  queues := []
  turnProc := none
  turnStart := 0
  turnNext := none
  nextOrder := 0
  launches := []
  nextLaunch := 0
  shards := []
  teams := []
  groups := []
  cores := []
  ctrlIret := []
  dscratch := []
  gangs := []
  tags := []
  ops := []
  barriers := []
  reports := []
  classes := []
  reclass := []
  tlb := []
  walkCache := []
  dir := []
  l1 := []
  constLines := []
  net := []
  hostLines := []
  hostStalls := []
  hostReply := none
  links := []
  collections := []
  nextCollection := 0
  savedScratch := []
  saveOrder := []
  reservations := []
  waitingNb := []
  imageAreas := []
  drogue := []
  counts := []
  arrayErrors := []
  usedSpares := []
  lost := []
  deadStacks := []
  leafStops := []
  flushDue := []
  defects := []
  moves := []

end Sys2Proof.Machine
end

