-- ==== Sys2Proof/Machine/Store.lean ====
section
/-! DEFINITION. Sparse tables in canonical form, the memories built on them, and the bytes and poison bits they
hold (spec/00 R3 for byte order; spec/11 R249 for poison; DESIGN CHOICE, notes/assumptions/1). -/

namespace Sys2Proof.Machine

/-! ## Sparse tables -/

/-- The value a table holds at a key: d where it lists none. -/
def smGet {α : Type} (d : α) : SMap α → Nat → α
  | [], _ => d
  | (k, v) :: m, a => if a = k then v else if a < k then d else smGet d m a

/-- The table with one value replaced, its form kept: a key set to d is not listed. -/
def smSet {α : Type} [DecidableEq α] (d : α) : SMap α → Nat → α → SMap α
  | [], a, b => if b = d then [] else [(a, b)]
  | (k, v) :: m, a, b =>
    if a < k then (if b = d then (k, v) :: m else (a, b) :: (k, v) :: m)
    else if a = k then (if b = d then m else (a, b) :: m)
    else (k, v) :: smSet d m a b

/-- Every key is above the given one and no value is the default. -/
def smWfFrom {α : Type} [DecidableEq α] (d : α) : Option Nat → SMap α → Bool
  | _, [] => true
  | lo, (k, v) :: m => lo.all (· < k) && v != d && smWfFrom d (some k) m

/-- The canonical form: keys strictly rise and no value is the default. -/
def smWf {α : Type} [DecidableEq α] (d : α) (m : SMap α) : Bool := smWfFrom d none m

/-- A table with the values of consecutive keys replaced. -/
def smSetList {α : Type} [DecidableEq α] (d : α) (m : SMap α) : Nat → List α → SMap α
  | _, [] => m
  | a, b :: bs => smSetList d (smSet d m a b) (a + 1) bs

/-- The values of n consecutive keys. -/
def smGetList {α : Type} (d : α) (m : SMap α) (a : Nat) : Nat → List α
  | 0 => []
  | n + 1 => smGet d m a :: smGetList d m (a + 1) n

/-! ## Bytes -/

/-- What a memory reads as at an address: zero where nothing is listed (DESIGN CHOICE, notes/assumptions/1). -/
def Memory.read (m : Memory) (a : Nat) : Byte := smGet 0 m a

/-- A memory with one byte written. -/
def Memory.write (m : Memory) (a : Nat) (b : Byte) : Memory := smSet 0 m a b

def Memory.readBytes (m : Memory) (a n : Nat) : List Byte := smGetList 0 m a n

def Memory.writeBytes (m : Memory) (a : Nat) (bs : List Byte) : Memory := smSetList 0 m a bs

/-- A memory is in its canonical form. -/
def Memory.wf (m : Memory) : Bool := smWf 0 m

/-- The number of little-endian bytes (00 R3). -/
def natOfBytes : List Byte → Nat
  | [] => 0
  | b :: bs => b.toNat + 256 * natOfBytes bs

/-- The low n bytes of a number, lowest first (00 R3). -/
def natBytes : Nat → Nat → List Byte
  | 0, _ => []
  | n + 1, w => BitVec.ofNat 8 w :: natBytes n (w / 256)

/-! ## Poison -/

/-- The words that n bytes at address a touch, by word number. -/
def wordsTouched (a n : Nat) : List Nat :=
  if n = 0 then [] else (List.range ((a + n - 1) / 4 - a / 4 + 1)).map (· + a / 4)

/-- Some word that the bytes touch is poisoned. -/
def poisonedAt (p : SMap Bool) (a n : Nat) : Bool := (wordsTouched a n).any (smGet false p)

/-- Poison after a write of n bytes at a with data of poison q: a word written whole takes q, a word written in part
is poisoned by poisoned data and keeps its bit otherwise (11 R249). -/
def poisonWrite (p : SMap Bool) (a n : Nat) (q : Bool) : SMap Bool :=
  (wordsTouched a n).foldl (fun p w =>
    if a ≤ 4 * w ∧ 4 * w + 4 ≤ a + n then smSet false p w q
    else if q then smSet false p w true else p) p

/-- Words with their poison bits, read from bytes and poison. -/
def readPWord (m : Memory) (p : SMap Bool) (a : Nat) : PWord :=
  ⟨BitVec.ofNat 32 (natOfBytes (m.readBytes a 4)), poisonedAt p a 4⟩

/-! ## Small helpers over lists -/

/-- The first element that satisfies f replaced by g of it. -/
def replaceFirst {α : Type} (f : α → Bool) (g : α → α) : List α → List α
  | [] => []
  | x :: xs => if f x then g x :: xs else x :: replaceFirst f g xs

/-- A number list with one number added when it is not in it. -/
def insertNew {α : Type} [DecidableEq α] (a : α) (l : List α) : List α := if a ∈ l then l else l ++ [a]

/-- The least natural number below a bound that the list does not hold. -/
def leastFree (used : List Nat) : Nat → Nat → Nat
  | 0, k => k
  | fuel + 1, k => if k ∈ used then leastFree used fuel (k + 1) else k

/-- The lowest index not in a list. -/
def lowestFree (used : List Nat) : Nat := leastFree used used.length 0

/-- Bits [lo + n − 1 : lo] of a number. -/
def natBits (x lo n : Nat) : Nat := x / 2 ^ lo % 2 ^ n

end Sys2Proof.Machine
end

