-- ==== Sys2Proof/Machine/Regs.lean ====
section
/-! DEFINITION. The one way to read and write registers: scalar registers and pairs, lane registers, masks and their
summaries, the special bit fields of the trap registers, and the streams, teams and cores that hold them
(spec/02 R23, R27, R30; spec/03 R62, R73; spec/04 R86–R94; spec/05 R101). -/

namespace Sys2Proof.Machine

/-! ## Scalar registers -/

/-- A scalar register: s0 reads as zero and clear (04 R87). -/
def Scalar.reg (sc : Scalar) (i : BitVec 6) : PWord :=
  if i = 0 then PWord.zero else sc.regs.get ⟨i.toNat, i.isLt⟩

/-- A write to a scalar register: a write to s0 is discarded (04 R87). -/
def Scalar.setReg (sc : Scalar) (i : BitVec 6) (w : PWord) : Scalar :=
  if i = 0 then sc else { sc with regs := sc.regs.set i.toNat w i.isLt }

/-- An even register and the next, low word first; s0 as a pair reads as zero (03 R62, 05 R101). -/
def Scalar.pair (sc : Scalar) (i : BitVec 6) : PPair :=
  if i = 0 then PPair.zero else ⟨sc.reg i, sc.reg (i + 1)⟩

/-- A write to a pair: a write to the pair of s0 leaves s1 as it is (05 R101). -/
def Scalar.setPair (sc : Scalar) (i : BitVec 6) (p : PPair) : Scalar :=
  if i = 0 then sc else (sc.setReg i p.lo).setReg (i + 1) p.hi

/-- An address base: an even register names a pair, an odd one is zero-extended (05 R101). -/
def Scalar.base64 (sc : Scalar) (i : BitVec 6) : PPair :=
  if even i then sc.pair i else ⟨sc.reg i, PWord.zero⟩

def Scalar.handle (sc : Scalar) (h : BitVec 4) : Handle := sc.handles.get ⟨h.toNat, h.isLt⟩

def Scalar.setHandle (sc : Scalar) (h : BitVec 4) (x : Handle) : Scalar :=
  { sc with handles := sc.handles.set h.toNat x h.isLt }

/-- TSTAT.SUP (04 R94). -/
def Scalar.sup (sc : Scalar) : Bool := sc.tstat.getLsbD 0

/-- TSTAT with its bits LANE, EVPEND and SUP (04 R94). -/
def tstatWord (lane evpend sup : Bool) : Word := 0#29 ++ BitVec.ofBool lane ++ BitVec.ofBool evpend ++ BitVec.ofBool sup

/-- TSTAT.LANE and TSTAT.EVPEND (04 R94). -/
def Scalar.laneBit (sc : Scalar) : Bool := sc.tstat.getLsbD 2
def Scalar.evpend (sc : Scalar) : Bool := sc.tstat.getLsbD 1

/-- TDETAIL from its fields (04 R93). -/
def tdetailWord (runLeft acc tcode sub : Nat) (inChain : Bool) (chpos : Nat) : Word :=
  BitVec.ofNat 9 runLeft ++ BitVec.ofNat 2 acc ++ BitVec.ofNat 6 tcode ++ BitVec.ofNat 7 sub ++ 0#3
    ++ BitVec.ofBool inChain ++ BitVec.ofNat 4 chpos

/-- TDETAIL.RUNLEFT (04 R93). -/
def Scalar.runLeftField (sc : Scalar) : Nat := (sc.tdetail.extractLsb' 23 9).toNat

/-! ## FMT -/

/-- FMT may hold this value (04 R89): reserved bits zero, a rounding mode of the table, and matrix codes that
08 R184 defines; BFMT code 6 needs the INT3 feature (12 R262). -/
def fmtLegal (int3 : Bool) (w : Word) : Bool :=
  w.extractLsb' 24 8 == 0 && !w.getLsbD 7 && (w.extractLsb' 0 3).toNat ≤ 4
    && (w.extractLsb' 8 4).toNat ≤ 3 && (w.extractLsb' 12 4).toNat ≤ (if int3 then 6 else 5)
    && w.extractLsb' 16 4 == 0 && w.extractLsb' 20 4 == 0

/-- A feature that the driver accepted: bit b of FWACC0 (12 R262). -/
def State.feature (s : State) (b : Nat) : Bool := (s.fwacc.get 0).getLsbD b

/-- An instruction is one of the module's accepted features; MMAS needs the matrix arrays too (12 R262). -/
def State.offered (s : State) (i : Instr) : Bool :=
  (featureOf i).all s.feature &&
    match i with
    | .mmas _ _ _ _ _ _ _ _ => s.feature 1
    | _ => true

/-! ## Masks -/

/-- The lanes below 32·n (02 R22). -/
def lanesBelow (n : Nat) : Mask := BitVec.ofNat 1024 (2 ^ n - 1)

/-- The mask of a list of lanes. -/
def maskOf (l : List Nat) : Mask := l.foldl (fun m j => m ||| (1#1024 <<< j)) 0

/-- The lanes of a mask below a bound, ascending (02 R23). -/
def lanesIn (m : Mask) (n : Nat) : List Nat := (List.range n).filter m.getLsbD

/-- Mask word w: lanes 32w to 32w + 31 (02 R23). -/
def maskWord (m : Mask) (w : Nat) : Word := m.extractLsb' (32 * w) 32

/-- The mask with one word replaced. -/
def setMaskWord (m : Mask) (w : Nat) (x : Word) : Mask :=
  (m &&& ~~~(((0xFFFFFFFF#32).setWidth 1024) <<< (32 * w))) ||| ((x.setWidth 1024) <<< (32 * w))

/-- The summary word: bit w is the OR of mask word w (02 R27). -/
def summary (m : Mask) : Word :=
  (List.range 32).foldl (fun x w => if maskWord m w = 0 then x else x ||| (1#32 <<< w)) 0

/-! ## Teams -/

def State.team? (s : State) (t : TeamId) : Option Team := s.teams.find? (fun x => x.id = t)

/-- The state with one team replaced. -/
def State.setTeam (s : State) (t : Team) : State :=
  { s with teams := replaceFirst (fun x => x.id = t.id) (fun _ => t) s.teams }

def State.mapTeam (s : State) (t : TeamId) (f : Team → Team) : State :=
  { s with teams := replaceFirst (fun x => x.id = t) f s.teams }

/-- The core that a team is on, or was on when it was saved. -/
def Team.seat (t : Team) : Option Nat :=
  match t.place with
  | some p => some p.core
  | none => t.savedOn

/-- The number of lanes, 32·n (02 R22). -/
def Team.lanes (t : Team) : Nat := 32 * t.nw

/-- The lanes of the team (04 R87). -/
def Team.full (t : Team) : Mask := lanesBelow t.lanes

/-- The occupied lanes: not in kv (02 R20, 05 R115). -/
def Team.occ (t : Team) : Mask := t.full &&& ~~~t.kv

/-- A mask register; bits of lanes at or above the team size read as zero (04 R87). -/
def Team.k (t : Team) (i : BitVec 4) : Mask := t.masks.get ⟨i.toNat, i.isLt⟩ &&& t.full

/-- A write of a whole mask register (04 R87). -/
def Team.setK (t : Team) (i : BitVec 4) (m : Mask) : Team :=
  { t with masks := t.masks.set i.toNat (m &&& t.full) i.isLt }

/-- A word of a lane register: register r of lane j (04 R86). -/
def Team.v (t : Team) (r j : Nat) : PWord := smGet PWord.zero t.vregs (1024 * r + j)

def Team.setV (t : Team) (r j : Nat) (w : PWord) : Team :=
  { t with vregs := smSet PWord.zero t.vregs (1024 * r + j) w }

/-- A pair of lane registers, the even member low (03 R69). -/
def Team.vPair (t : Team) (r j : Nat) : PPair := ⟨t.v r j, t.v (r + 1) j⟩

def Team.setVPair (t : Team) (r j : Nat) (p : PPair) : Team := (t.setV r j p.lo).setV (r + 1) j p.hi

/-- Latch l of lane j (03 R73). -/
def Team.latch (t : Team) (l j : Nat) : PPair := smGet PPair.zero t.latches (4 * j + l)

/-- A result pushed into the latches of lane j (03 R73). -/
def Team.pushLatch (t : Team) (j : Nat) (p : PPair) : Team :=
  let l := smSet PPair.zero t.latches (4 * j + 3) (t.latch 2 j)
  let l := smSet PPair.zero l (4 * j + 2) (t.latch 1 j)
  let l := smSet PPair.zero l (4 * j + 1) (t.latch 0 j)
  { t with latches := smSet PPair.zero l (4 * j) p }

/-- The gang of a team: its ASID and gang id (02 R37). -/
def Team.gang (t : Team) : GangId := ⟨t.id.asid, t.gid⟩

/-! ## Matrix groups -/

def State.group? (s : State) (cl : Nat) : Option Group := s.groups.find? (fun g => g.cl = cl)

def State.mapGroup (s : State) (cl : Nat) (f : Group → Group) : State :=
  { s with groups := replaceFirst (fun g => g.cl = cl) f s.groups }

/-- The die of a matrix group, and the cluster that its array cores are in or left. -/
def Group.die (g : Group) : Nat := ((g.arrays.map (·.core)).headD 0) % 216 / 36

def Group.array? (g : Group) (ix : Nat) : Option ArrayState := g.arrays[ix]?

def Group.mapArray (g : Group) (ix : Nat) (f : ArrayState → ArrayState) : Group :=
  { g with arrays := g.arrays.modify ix f }

/-! ## Streams -/

/-- The registers of a live stream. -/
def State.scalar? (s : State) : StreamId → Option Scalar
  | .team t => (s.team? t).map (·.sc)
  | .ctrl cl => (s.group? cl).map (·.sc)

/-- The state with a stream's registers changed. -/
def State.mapScalar (s : State) (st : StreamId) (f : Scalar → Scalar) : State :=
  match st with
  | .team t => s.mapTeam t (fun x => { x with sc := f x.sc })
  | .ctrl cl => s.mapGroup cl (fun g => { g with sc := f g.sc })

/-- The wait is that of a lane instruction, which leaves the scalar stream to go on (02 R53, 05 R105). -/
def Wait.isLane : Wait → Bool
  | .phase => true
  | .chainPhase => true
  | .xswap => true
  | .hwait _ => false
  | .command _ => false
  | .barWait _ => false
  | .refillW => false
  | .sleep _ => false
  | .spawn => false
  | .reclass _ => false
  | .version _ _ => false
  | .cxl _ => false
  | .matrixQueue => false
  | .inval _ => false
  | .declass _ => false

/-- The wait of an access that is stalled on a gang's tag (11 R253). -/
def Wait.isVersion : Wait → Bool
  | .version _ _ => true
  | .phase => false
  | .chainPhase => false
  | .xswap => false
  | .hwait _ => false
  | .command _ => false
  | .barWait _ => false
  | .refillW => false
  | .sleep _ => false
  | .spawn => false
  | .reclass _ => false
  | .cxl _ => false
  | .matrixQueue => false
  | .inval _ => false
  | .declass _ => false

/-- A stream waits for an event of another agent (02 R52). -/
def State.block (s : State) (st : StreamId) (w : Wait) : State :=
  s.mapScalar st (fun sc => { sc with wait := some w })

def State.unblock (s : State) (st : StreamId) : State :=
  s.mapScalar st (fun sc => { sc with wait := none })

/-- The access is stalled on a gang's tag (11 R253). Such a one has performed no event, and it can be withdrawn unless what issued beside it
reached further than its stream (16 R358). -/
def Access.stalled (a : Access) : Bool := a.wait.any Wait.isVersion
def Access.withdrawable (a : Access) : Bool := a.stalled && !a.begun && a.beside != .other

/-- The access is overlapped: its classes have been taken, and nothing has made it ordered (09 R215). -/
def Access.overlaps (a : Access) : Bool := a.classed && !a.ordered

/-- The outstanding accesses of a stream, the oldest first (09 R216). -/
def Scalar.accs (sc : Scalar) : List Access := sc.older ++ sc.acc.toList

/-- One of them: the latest, or one of those before it. -/
def Scalar.accAt (sc : Scalar) : Option Nat → Option Access
  | none => sc.acc
  | some k => sc.older[k]?

/-- The same access with its progress. -/
def Scalar.setAcc (sc : Scalar) (k : Option Nat) (a : Access) : Scalar :=
  match k with
  | none => { sc with acc := some a }
  | some k => { sc with older := sc.older.set k a }

/-- The access is complete. -/
def Scalar.endAcc (sc : Scalar) : Option Nat → Scalar
  | none => { sc with acc := none }
  | some k => { sc with older := sc.older.eraseIdx k }

/-- An access issues, and stands behind those that are outstanding. -/
def Scalar.newAcc (sc : Scalar) (a : Access) : Scalar := { sc with acc := some a, older := sc.accs }

def Scalar.mapAccs (f : Access → Access) (sc : Scalar) : Scalar := { sc with acc := sc.acc.map f, older := sc.older.map f }

/-- A control core that waited for its queues goes on. -/
def wakeQueue (sc : Scalar) : Scalar := if sc.wait = some .matrixQueue then { sc with wait := none } else sc

/-! ## Launches, queues, cores -/

def State.launch? (s : State) (l : Nat) : Option Launch := s.launches.find? (fun x => x.id = l)

def State.mapLaunch (s : State) (l : Nat) (f : Launch → Launch) : State :=
  { s with launches := replaceFirst (fun x => x.id = l) f s.launches }

def State.queue? (s : State) (q : Nat) : Option Queue := s.queues.find? (fun x => x.num = q)

def State.mapQueue (s : State) (q : Nat) (f : Queue → Queue) : State :=
  { s with queues := replaceFirst (fun x => x.num = q) f s.queues }

def State.core (s : State) (c : Nat) : CoreState := smGet CoreState.reset s.cores c

def State.mapCore (s : State) (c : Nat) (f : CoreState → CoreState) : State :=
  { s with cores := smSet CoreState.reset s.cores c (f (s.core c)) }

/-- The launch that a stream runs for. -/
def State.launchOf (s : State) : StreamId → Option Launch
  | .team t => (s.team? t).bind (fun x => s.launch? x.launch)
  | .ctrl cl => (s.group? cl).bind (fun g => s.launch? g.launch)

/-- The entry of a team in its launch. -/
def State.entryOf (s : State) (x : Team) : Option Entry := (s.launch? x.launch).bind (fun l => l.entries[x.entry]?)

def State.gang? (s : State) (g : GangId) : Option Gang := s.gangs.find? (fun x => x.id = g)

def State.mapGang (s : State) (g : GangId) (f : Gang → Gang) : State :=
  { s with gangs := replaceFirst (fun x => x.id = g) f s.gangs }

def State.op? (s : State) (o : OpId) : Option EngineOp := s.ops.find? (fun x => x.id = o)

def State.mapOp (s : State) (o : OpId) (f : EngineOp → EngineOp) : State :=
  { s with ops := replaceFirst (fun x => x.id = o) f s.ops }

def State.shard? (s : State) (l bin die : Nat) : Option Shard :=
  s.shards.find? (fun x => x.launch = l && x.bin = bin && x.die = die)

def State.mapShard (s : State) (l bin die : Nat) (f : Shard → Shard) : State :=
  { s with shards := replaceFirst (fun x => x.launch = l && x.bin = bin && x.die = die) f s.shards }

def Launch.bin? (l : Launch) (b : Nat) : Option Bin := l.bins[b]?

def Launch.mapBin (l : Launch) (b : Nat) (f : Bin → Bin) : Launch := { l with bins := l.bins.modify b f }

/-! ## Counters -/

/-- A programmable counter's event code, filter and slot (17 R373). -/
def pselEvent (w : Word) : Nat := (w.extractLsb' 0 8).toNat
def pselFilt (w : Word) : Bool := w.getLsbD 24
def pselSlot (w : Word) : Nat := (w.extractLsb' 20 4).toNat

/-- n occurrences of an event on a core, of the team in a slot (17 R373). -/
def State.count (s : State) (core : Nat) (slot : Option Nat) (event n : Nat) : State :=
  s.mapCore core (fun c =>
    { c with pmc := Vector.ofFn (fun i =>
        let w := c.psel.get i
        if pselEvent w = event ∧ event ≠ 0 ∧ (!pselFilt w || slot = some (pselSlot w))
        then c.pmc.get i + BitVec.ofNat 64 n else c.pmc.get i) })

end Sys2Proof.Machine
end

