-- ==== Sys2Proof/Machine/Causes.lean ====
section
/-! DEFINITION. Trap causes: their codes and their order (spec/04 R92, R93, R95, R96), and a trap to take. -/

namespace Sys2Proof.Machine

/-- Trap causes with what their SUB and TCODE say (04 R95). -/
inductive Cause
  | illegal
  | laneHead
  | latchStale
  | latchChain
  | role
  | slot
  | quota
  | align (memory : Bool)
  | page (sub : Nat)
  | perm
  | boundsAperture
  | boundsWindow
  | poison
  | shadow
  | bkpt (laneCond : Bool)
  | step
  | trap (code : BitVec 6)
  | engine (cls : Nat)
  | xswapTimeout
  | versionFull (sub : BitVec 7)
  | dirtyBudget
  deriving DecidableEq, Repr

/-- CODE (04 R95). -/
def Cause.code : Cause → Nat
  | .illegal => 0x01
  | .laneHead => 0x02
  | .latchStale => 0x03
  | .latchChain => 0x04
  | .role => 0x05
  | .slot => 0x06
  | .quota => 0x07
  | .align _ => 0x08
  | .page _ => 0x09
  | .perm => 0x0A
  | .boundsAperture => 0x0A
  | .boundsWindow => 0x0A
  | .poison => 0x0B
  | .shadow => 0x0C
  | .bkpt _ => 0x0D
  | .step => 0x0E
  | .trap _ => 0x0F
  | .engine _ => 0x10
  | .xswapTimeout => 0x11
  | .versionFull _ => 0x12
  | .dirtyBudget => 0x13

/-- SUB (04 R95). -/
def Cause.sub : Cause → Nat
  | .align m => if m then 1 else 0
  | .page n => n
  | .perm => 0
  | .boundsAperture => 1
  | .boundsWindow => 2
  | .bkpt l => if l then 1 else 0
  | .engine c => c
  | .versionFull n => n.toNat
  | .illegal => 0
  | .laneHead => 0
  | .latchStale => 0
  | .latchChain => 0
  | .role => 0
  | .slot => 0
  | .quota => 0
  | .poison => 0
  | .shadow => 0
  | .step => 0
  | .trap _ => 0
  | .xswapTimeout => 0
  | .dirtyBudget => 0

/-- The place of a cause in the order of 04 R96: the lower stands first. -/
def Cause.rank : Cause → Nat
  | .laneHead => 0
  | .illegal => 1
  | .role => 2
  | .quota => 3
  | .latchChain => 4
  | .latchStale => 5
  | .align m => if m then 9 else 6
  | .boundsWindow => 7
  | .slot => 8
  | .page _ => 10
  | .perm => 11
  | .boundsAperture => 12
  | .poison => 13
  | .shadow => 14
  | .engine _ => 15
  | .xswapTimeout => 16
  | .trap _ => 17
  | .bkpt _ => 17
  | .step => 18
  | .versionFull _ => 19
  | .dirtyBudget => 20

/-- TCAUSE.EVT (04 R92). -/
def Cause.isEvent : Cause → Bool
  | .versionFull _ => true
  | .dirtyBudget => true
  | _ => false

/-- The cause kills the gang instead of entering the handler (11 R251, R257). -/
def Cause.kills : Cause → Bool
  | .poison => true
  | .shadow => true
  | _ => false

/-- TDETAIL.TCODE (04 R93). -/
def Cause.tcode : Cause → Nat
  | .trap c => c.toNat
  | _ => 0

/-- A trap to take: its cause, the kind of access, the address, and the faulting lanes of a lane cause. -/
structure Trap where
  cause : Cause
  acc : Nat
  addr : DWord
  lanes : Mask
  deriving DecidableEq, Repr

/-- A trap of a cause without an address: TADDR and ACC are then written as 0. DESIGN CHOICE: notes/assumptions/118. -/
def Trap.of (c : Cause) : Trap := ⟨c, 0, 0, 0⟩

/-- The lowest lane of a mask, 0 when it is empty. -/
def lowestLane (m : Mask) : Nat := ((List.range 1024).find? m.getLsbD).getD 0

/-- TCAUSE (04 R92). -/
def Cause.tcauseWord (c : Cause) : Word := 0#23 ++ BitVec.ofBool c.isEvent ++ BitVec.ofNat 8 c.code

end Sys2Proof.Machine
end

