-- ==== Sys2Proof/WellFormed.lean ====
section
/-! DEFINITION. Well-formed instructions: those that no static operand rule refuses (spec/03 R62, R65–R72, R77 step 2). -/

namespace Sys2Proof

/-- No operand rule that traps ILLEGAL whatever the state refuses the instruction. -/
def Instr.wf (i : Instr) : Bool := Machine.scalarLegal i && Machine.laneLegal i

end Sys2Proof
end

