-- ==== Sys2Proof/Decode.lean ====
section
/-! DEFINITION. From words to instructions and back: the scalar word formats (spec/03 R61–R66), the L96 lane format
(R67–R72, R78–R81) and their little-endian bytes (spec/00 R3). The decoder refuses by name what is no encoding of any
row; the rules that depend on an instruction's operands stand in Machine/Legal.lean. -/

namespace Sys2Proof

/-- Why a word or a group of words is no instruction. -/
inductive DecodeError
  /-- A major opcode that 03 R64 does not list. -/
  | major
  /-- A minor code or condition that 03 R65 does not list. -/
  | minor
  /-- A field the instruction does not use is not zero (03 R62). -/
  | field
  /-- A lane class, operation, type, level, width or format code that 03 R78–R81 do not list. -/
  | laneOp
  /-- A source kind and payload that are not in the table of 03 R69, named by its position. -/
  | source (position : Nat)
  /-- The destination index has a bit set that 03 R68 requires to be zero. -/
  | destination
  /-- Fewer bytes or words than the instruction has. -/
  | short
  deriving DecidableEq, Repr

/-- An answer of the decoder: what the bits stand for, or why they stand for nothing. -/
inductive Decoded (α : Type)
  | ok (a : α)
  | error (e : DecodeError)
  deriving DecidableEq, Repr

/-- The little-endian word of four bytes (00 R3). -/
def Word.ofBytes (b0 b1 b2 b3 : Byte) : Word := b3 ++ b2 ++ b1 ++ b0

/-- The bytes of a word, lowest address first (00 R3). -/
def Word.bytes (w : Word) : List Byte :=
  [w.extractLsb' 0 8, w.extractLsb' 8 8, w.extractLsb' 16 8, w.extractLsb' 24 8]

/-! ## Scalar words -/

/-- Major 0x01: the selector is bits [7:0] (03 R65). -/
def decodeAlu (w : Word) : Decoded Instr :=
  match w.extractLsb' 0 8 with
  | 0x00 => .ok (.add (w.extractLsb' 20 6) (w.extractLsb' 14 6) (w.extractLsb' 8 6))
  | 0x01 => .ok (.sub (w.extractLsb' 20 6) (w.extractLsb' 14 6) (w.extractLsb' 8 6))
  | 0x02 => .ok (.mul (w.extractLsb' 20 6) (w.extractLsb' 14 6) (w.extractLsb' 8 6))
  | 0x03 => .ok (.mulh (w.extractLsb' 20 6) (w.extractLsb' 14 6) (w.extractLsb' 8 6))
  | 0x04 => .ok (.mulhn (w.extractLsb' 20 6) (w.extractLsb' 14 6) (w.extractLsb' 8 6))
  | 0x05 => .ok (.and (w.extractLsb' 20 6) (w.extractLsb' 14 6) (w.extractLsb' 8 6))
  | 0x06 => .ok (.or (w.extractLsb' 20 6) (w.extractLsb' 14 6) (w.extractLsb' 8 6))
  | 0x07 => .ok (.xor (w.extractLsb' 20 6) (w.extractLsb' 14 6) (w.extractLsb' 8 6))
  | 0x08 => .ok (.andn (w.extractLsb' 20 6) (w.extractLsb' 14 6) (w.extractLsb' 8 6))
  | 0x09 => .ok (.shl (w.extractLsb' 20 6) (w.extractLsb' 14 6) (w.extractLsb' 8 6))
  | 0x0a => .ok (.shr (w.extractLsb' 20 6) (w.extractLsb' 14 6) (w.extractLsb' 8 6))
  | 0x0b => .ok (.sra (w.extractLsb' 20 6) (w.extractLsb' 14 6) (w.extractLsb' 8 6))
  | 0x0c => .ok (.min (w.extractLsb' 20 6) (w.extractLsb' 14 6) (w.extractLsb' 8 6))
  | 0x0d => .ok (.max (w.extractLsb' 20 6) (w.extractLsb' 14 6) (w.extractLsb' 8 6))
  | 0x0e => .ok (.minn (w.extractLsb' 20 6) (w.extractLsb' 14 6) (w.extractLsb' 8 6))
  | 0x0f => .ok (.maxn (w.extractLsb' 20 6) (w.extractLsb' 14 6) (w.extractLsb' 8 6))
  | 0x10 => if w.extractLsb' 8 6 = 0 then .ok (.clz (w.extractLsb' 20 6) (w.extractLsb' 14 6)) else .error .field
  | 0x11 => if w.extractLsb' 8 6 = 0 then .ok (.ctz (w.extractLsb' 20 6) (w.extractLsb' 14 6)) else .error .field
  | 0x12 => if w.extractLsb' 8 6 = 0 then .ok (.popc (w.extractLsb' 20 6) (w.extractLsb' 14 6)) else .error .field
  | _ => .error .minor

/-- Major 0x0e: the selector is bits [7:4] (03 R65). -/
def decodeA64 (w : Word) : Decoded Instr :=
  match w.extractLsb' 4 4 with
  | 0x00 => if w.extractLsb' 0 4 = 0 then .ok (.aadd (w.extractLsb' 20 6) (w.extractLsb' 14 6) (w.extractLsb' 8 6)) else .error .field
  | 0x01 => if w.extractLsb' 0 4 = 0 then .ok (.asub (w.extractLsb' 20 6) (w.extractLsb' 14 6) (w.extractLsb' 8 6)) else .error .field
  | 0x02 => .ok (.aaddx (w.extractLsb' 20 6) (w.extractLsb' 14 6) (w.extractLsb' 8 6) (w.extractLsb' 0 4))
  | _ => .error .minor

/-- Major 0x0f: the selector is bits [7:0] (03 R65). -/
def decodeCmp (w : Word) : Decoded Instr :=
  match w.extractLsb' 0 8 with
  | 0x00 => .ok (.ceq (w.extractLsb' 20 6) (w.extractLsb' 14 6) (w.extractLsb' 8 6))
  | 0x01 => .ok (.cne (w.extractLsb' 20 6) (w.extractLsb' 14 6) (w.extractLsb' 8 6))
  | 0x02 => .ok (.clt (w.extractLsb' 20 6) (w.extractLsb' 14 6) (w.extractLsb' 8 6))
  | 0x03 => .ok (.cle (w.extractLsb' 20 6) (w.extractLsb' 14 6) (w.extractLsb' 8 6))
  | 0x04 => .ok (.cltn (w.extractLsb' 20 6) (w.extractLsb' 14 6) (w.extractLsb' 8 6))
  | 0x05 => .ok (.clen (w.extractLsb' 20 6) (w.extractLsb' 14 6) (w.extractLsb' 8 6))
  | 0x06 => .ok (.aceq (w.extractLsb' 20 6) (w.extractLsb' 14 6) (w.extractLsb' 8 6))
  | 0x07 => .ok (.acltn (w.extractLsb' 20 6) (w.extractLsb' 14 6) (w.extractLsb' 8 6))
  | _ => .error .minor

/-- Major 0x10: the selector is bits [19:16] (03 R65). -/
def decodeBranch (w : Word) : Decoded Instr :=
  match w.extractLsb' 16 4 with
  | 0x00 => if w.extractLsb' 20 6 = 0 then .ok (.b (w.extractLsb' 0 16)) else .error .field
  | 0x01 => .ok (.beqz (w.extractLsb' 20 6) (w.extractLsb' 0 16))
  | 0x02 => .ok (.bnez (w.extractLsb' 20 6) (w.extractLsb' 0 16))
  | 0x03 => .ok (.bltz (w.extractLsb' 20 6) (w.extractLsb' 0 16))
  | 0x04 => .ok (.bgez (w.extractLsb' 20 6) (w.extractLsb' 0 16))
  | 0x05 => .ok (.bgtz (w.extractLsb' 20 6) (w.extractLsb' 0 16))
  | 0x06 => .ok (.blez (w.extractLsb' 20 6) (w.extractLsb' 0 16))
  | _ => .error .minor

/-- Major 0x11: the selector is bits [19:16] (03 R65). -/
def decodeBk (w : Word) : Decoded Instr :=
  match w.extractLsb' 16 4 with
  | 0x00 => if w.extractLsb' 24 2 = 0 then .ok (.bkz (w.extractLsb' 20 4) (w.extractLsb' 0 16)) else .error .field
  | 0x01 => if w.extractLsb' 24 2 = 0 then .ok (.bknz (w.extractLsb' 20 4) (w.extractLsb' 0 16)) else .error .field
  | _ => .error .minor

/-- Major 0x12: the selector is bits [19:16] (03 R65). -/
def decodeCall (w : Word) : Decoded Instr :=
  match w.extractLsb' 16 4 with
  | 0x00 => .ok (.call (w.extractLsb' 20 6) (w.extractLsb' 0 16))
  | _ => .error .minor

/-- Major 0x13: the selector is bits [7:0] (03 R65). -/
def decodeCtl (w : Word) : Decoded Instr :=
  match w.extractLsb' 0 8 with
  | 0x00 => if w.extractLsb' 8 18 = 0 then .ok .nop else .error .field
  | 0x01 => if w.extractLsb' 20 6 = 0 ∧ w.extractLsb' 8 6 = 0 then .ok (.jr (w.extractLsb' 14 6)) else .error .field
  | 0x02 => if w.extractLsb' 8 6 = 0 then .ok (.callr (w.extractLsb' 20 6) (w.extractLsb' 14 6)) else .error .field
  | 0x03 => if w.extractLsb' 14 12 = 0 then .ok (.trap (w.extractLsb' 8 6)) else .error .field
  | 0x04 => if w.extractLsb' 8 18 = 0 then .ok .rft else .error .field
  | 0x05 => if w.extractLsb' 8 18 = 0 then .ok .bkpt else .error .field
  | 0x06 => if w.extractLsb' 20 6 = 0 ∧ w.extractLsb' 8 6 = 0 then .ok (.sleep (w.extractLsb' 14 6)) else .error .field
  | 0x07 => if w.extractLsb' 8 18 = 0 then .ok .yield else .error .field
  | _ => .error .minor

/-- Major 0x14: the selector is bits [7:0] (03 R65). -/
def decodeMask (w : Word) : Decoded Instr :=
  match w.extractLsb' 0 8 with
  | 0x00 => if w.extractLsb' 8 10 = 0 then .ok (.kmov (w.extractLsb' 22 4) (w.extractLsb' 18 4)) else .error .field
  | 0x01 => if w.extractLsb' 8 10 = 0 then .ok (.knot (w.extractLsb' 22 4) (w.extractLsb' 18 4)) else .error .field
  | 0x02 => if w.extractLsb' 8 6 = 0 then .ok (.kand (w.extractLsb' 22 4) (w.extractLsb' 18 4) (w.extractLsb' 14 4)) else .error .field
  | 0x03 => if w.extractLsb' 8 6 = 0 then .ok (.kor (w.extractLsb' 22 4) (w.extractLsb' 18 4) (w.extractLsb' 14 4)) else .error .field
  | 0x04 => if w.extractLsb' 8 6 = 0 then .ok (.kxor (w.extractLsb' 22 4) (w.extractLsb' 18 4) (w.extractLsb' 14 4)) else .error .field
  | 0x05 => if w.extractLsb' 8 6 = 0 then .ok (.kandn (w.extractLsb' 22 4) (w.extractLsb' 18 4) (w.extractLsb' 14 4)) else .error .field
  | 0x06 => if w.extractLsb' 8 14 = 0 then .ok (.kall (w.extractLsb' 22 4)) else .error .field
  | 0x07 => if w.extractLsb' 8 14 = 0 then .ok (.kclr (w.extractLsb' 22 4)) else .error .field
  | 0x08 => if w.extractLsb' 14 8 = 0 then .ok (.ksetn (w.extractLsb' 22 4) (w.extractLsb' 8 6)) else .error .field
  | 0x09 => if w.extractLsb' 22 4 = 0 ∧ w.extractLsb' 14 4 = 0 then .ok (.kpop (w.extractLsb' 18 4) (w.extractLsb' 8 6)) else .error .field
  | 0x0a => if w.extractLsb' 22 4 = 0 ∧ w.extractLsb' 14 4 = 0 then .ok (.kfirst (w.extractLsb' 18 4) (w.extractLsb' 8 6)) else .error .field
  | 0x0b => if w.extractLsb' 22 4 = 0 ∧ w.extractLsb' 14 4 = 0 then .ok (.ksum (w.extractLsb' 18 4) (w.extractLsb' 8 6)) else .error .field
  | 0x0c => if w.extractLsb' 19 3 = 0 then .ok (.kmovv (w.extractLsb' 22 4) (w.extractLsb' 14 5) (w.extractLsb' 8 6)) else .error .field
  | _ => .error .minor

/-- Major 0x17: the selector is bits [7:0] (03 R65). -/
def decodeFmtop (w : Word) : Decoded Instr :=
  match w.extractLsb' 0 8 with
  | 0x00 => if w.extractLsb' 20 6 = 0 ∧ w.extractLsb' 8 6 = 0 then .ok (.setfmt (w.extractLsb' 14 6)) else .error .field
  | 0x01 => if w.extractLsb' 8 12 = 0 then .ok (.getfmt (w.extractLsb' 20 6)) else .error .field
  | _ => .error .minor

/-- Major 0x18: the selector is bits [7:0] (03 R65). -/
def decodeLaneac (w : Word) : Decoded Instr :=
  match w.extractLsb' 0 8 with
  | 0x00 => .ok (.lget (w.extractLsb' 20 6) (w.extractLsb' 14 6) (w.extractLsb' 8 6))
  | 0x01 => .ok (.lput (w.extractLsb' 20 6) (w.extractLsb' 14 6) (w.extractLsb' 8 6))
  | _ => .error .minor

/-- Major 0x19: the selector is bits [7:0] (03 R65). -/
def decodeSreg (w : Word) : Decoded Instr :=
  match w.extractLsb' 0 8 with
  | 0x00 => .ok (.srr (w.extractLsb' 20 6) (w.extractLsb' 8 12))
  | 0x01 => .ok (.srw (w.extractLsb' 20 6) (w.extractLsb' 8 12))
  | 0x02 => .ok (.rdcnt (w.extractLsb' 20 6) (w.extractLsb' 8 12))
  | 0x03 => .ok (.csel (w.extractLsb' 20 6) (w.extractLsb' 8 12))
  | 0x04 => if w.extractLsb' 20 6 = 0 then .ok (.czero (w.extractLsb' 8 12)) else .error .field
  | _ => .error .minor

/-- Major 0x1e: the selector is bits [7:0] (03 R65). -/
def decodeDeclass (w : Word) : Decoded Instr :=
  match w.extractLsb' 0 8 with
  | 0x00 => if w.extractLsb' 20 6 = 0 ∧ w.extractLsb' 8 6 = 0 then .ok (.declass (w.extractLsb' 14 6)) else .error .field
  | _ => .error .minor

/-- Major 0x1f: the selector is bits [7:0] (03 R65). -/
def decodeTbl (w : Word) : Decoded Instr :=
  match w.extractLsb' 0 8 with
  | 0x00 => if w.extractLsb' 20 6 = 0 ∧ w.extractLsb' 8 6 = 0 then .ok (.tlbinv (w.extractLsb' 14 6)) else .error .field
  | 0x01 => if w.extractLsb' 8 18 = 0 then .ok .atinv else .error .field
  | _ => .error .minor

/-- Major 0x20: the selector is bits [7:0] (03 R65). -/
def decodeQk (w : Word) : Decoded Instr :=
  match w.extractLsb' 0 8 with
  | 0x00 => if w.extractLsb' 22 4 = 0 ∧ w.extractLsb' 8 10 = 0 then .ok (.exit (w.extractLsb' 18 4)) else .error .field
  | 0x01 => if w.extractLsb' 14 8 = 0 then .ok (.refill (w.extractLsb' 22 4) (w.extractLsb' 8 6)) else .error .field
  | 0x02 => if w.extractLsb' 14 8 = 0 then .ok (.refillW (w.extractLsb' 22 4) (w.extractLsb' 8 6)) else .error .field
  | _ => .error .minor

/-- Major 0x21: the selector is bits [7:0] (03 R65). -/
def decodeQr (w : Word) : Decoded Instr :=
  match w.extractLsb' 0 8 with
  | 0x00 => if w.extractLsb' 8 6 = 0 then .ok (.spawn (w.extractLsb' 20 6) (w.extractLsb' 14 6)) else .error .field
  | 0x01 => if w.extractLsb' 20 6 = 0 ∧ w.extractLsb' 8 6 = 0 then .ok (.binclose (w.extractLsb' 14 6)) else .error .field
  | _ => .error .minor

/-- Major 0x22: the selector is bits [15:8] (03 R65). -/
def decodeEng (w : Word) : Decoded Instr :=
  match w.extractLsb' 8 8 with
  | 0x00 => if w.extractLsb' 0 4 = 0 then .ok (.xcopy (w.extractLsb' 22 4) (w.extractLsb' 16 6) (w.extractLsb' 7 1) (w.extractLsb' 4 3)) else .error .field
  | 0x01 => if w.extractLsb' 0 4 = 0 then .ok (.xfill (w.extractLsb' 22 4) (w.extractLsb' 16 6) (w.extractLsb' 7 1) (w.extractLsb' 4 3)) else .error .field
  | 0x02 => if w.extractLsb' 0 8 = 0 then .ok (.xgath (w.extractLsb' 22 4) (w.extractLsb' 16 6)) else .error .field
  | 0x03 => if w.extractLsb' 0 8 = 0 then .ok (.swbuild (w.extractLsb' 22 4) (w.extractLsb' 16 6)) else .error .field
  | 0x10 => if w.extractLsb' 16 6 = 0 ∧ w.extractLsb' 0 8 = 0 then .ok (.hwait (w.extractLsb' 22 4)) else .error .field
  | 0x11 => if w.extractLsb' 0 8 = 0 then .ok (.htest (w.extractLsb' 22 4) (w.extractLsb' 16 6)) else .error .field
  | 0x12 => if w.extractLsb' 16 6 = 0 ∧ w.extractLsb' 0 8 = 0 then .ok (.hcancel (w.extractLsb' 22 4)) else .error .field
  | _ => .error .minor

/-- Major 0x23: the selector is bits [7:0] (03 R65). -/
def decodeBar (w : Word) : Decoded Instr :=
  match w.extractLsb' 0 8 with
  | 0x00 => if w.extractLsb' 11 15 = 0 then .ok (.barArr (w.extractLsb' 8 3)) else .error .field
  | 0x01 => if w.extractLsb' 11 9 = 0 then .ok (.barWait (w.extractLsb' 20 6) (w.extractLsb' 8 3)) else .error .field
  | 0x02 => if w.extractLsb' 20 6 = 0 ∧ w.extractLsb' 11 3 = 0 then .ok (.barExp (w.extractLsb' 14 6) (w.extractLsb' 8 3)) else .error .field
  | _ => .error .minor

/-- Major 0x30: the selector is bits [7:0] (03 R65). -/
def decodeMx (w : Word) : Decoded Instr :=
  match w.extractLsb' 0 8 with
  | 0x00 => if w.extractLsb' 8 14 = 0 then .ok (.mzero (w.extractLsb' 24 2) (w.extractLsb' 22 2)) else .error .field
  | 0x01 => if w.extractLsb' 17 1 = 0 ∧ w.extractLsb' 8 3 = 0 then .ok (.mma (w.extractLsb' 24 2) (w.extractLsb' 22 2) (w.extractLsb' 20 2) (w.extractLsb' 18 2) (w.extractLsb' 16 1) (w.extractLsb' 15 1) (w.extractLsb' 14 1) (w.extractLsb' 11 3)) else .error .field
  | 0x02 => if w.extractLsb' 17 1 = 0 ∧ w.extractLsb' 8 3 = 0 then .ok (.mmaq (w.extractLsb' 24 2) (w.extractLsb' 22 2) (w.extractLsb' 20 2) (w.extractLsb' 18 2) (w.extractLsb' 16 1) (w.extractLsb' 15 1) (w.extractLsb' 14 1) (w.extractLsb' 11 3)) else .error .field
  | 0x03 => if w.extractLsb' 17 1 = 0 ∧ w.extractLsb' 8 3 = 0 then .ok (.mmas (w.extractLsb' 24 2) (w.extractLsb' 22 2) (w.extractLsb' 20 2) (w.extractLsb' 18 2) (w.extractLsb' 16 1) (w.extractLsb' 15 1) (w.extractLsb' 14 1) (w.extractLsb' 11 3)) else .error .field
  | 0x04 => if w.extractLsb' 14 10 = 0 then .ok (.mbank (w.extractLsb' 24 2) (w.extractLsb' 8 6)) else .error .field
  | _ => .error .minor

/-- The scalar opcode map (03 R64, R65). -/
def decodeScalar (w : Word) : Decoded Instr :=
  match w.extractLsb' 26 6 with
  | 0x01 => decodeAlu w
  | 0x02 => .ok (.addi (w.extractLsb' 20 6) (w.extractLsb' 14 6) (w.extractLsb' 0 14))
  | 0x03 => .ok (.andi (w.extractLsb' 20 6) (w.extractLsb' 14 6) (w.extractLsb' 0 14))
  | 0x04 => .ok (.ori (w.extractLsb' 20 6) (w.extractLsb' 14 6) (w.extractLsb' 0 14))
  | 0x05 => .ok (.xori (w.extractLsb' 20 6) (w.extractLsb' 14 6) (w.extractLsb' 0 14))
  | 0x06 => if w.extractLsb' 5 9 = 0 then .ok (.shli (w.extractLsb' 20 6) (w.extractLsb' 14 6) (w.extractLsb' 0 5)) else .error .field
  | 0x07 => if w.extractLsb' 5 9 = 0 then .ok (.shri (w.extractLsb' 20 6) (w.extractLsb' 14 6) (w.extractLsb' 0 5)) else .error .field
  | 0x08 => if w.extractLsb' 5 9 = 0 then .ok (.srai (w.extractLsb' 20 6) (w.extractLsb' 14 6) (w.extractLsb' 0 5)) else .error .field
  | 0x0a => .ok (.lih (w.extractLsb' 20 6) (w.extractLsb' 0 20))
  | 0x0b => .ok (.ceqi (w.extractLsb' 20 6) (w.extractLsb' 14 6) (w.extractLsb' 0 14))
  | 0x0c => .ok (.clti (w.extractLsb' 20 6) (w.extractLsb' 14 6) (w.extractLsb' 0 14))
  | 0x0d => .ok (.aaddi (w.extractLsb' 20 6) (w.extractLsb' 14 6) (w.extractLsb' 0 14))
  | 0x0e => decodeA64 w
  | 0x0f => decodeCmp w
  | 0x10 => decodeBranch w
  | 0x11 => decodeBk w
  | 0x12 => decodeCall w
  | 0x13 => decodeCtl w
  | 0x14 => decodeMask w
  | 0x15 => .ok (.lrun (w.extractLsb' 18 8) (w.extractLsb' 0 18))
  | 0x16 => if w.extractLsb' 18 8 = 0 then .ok (.lsetpc (w.extractLsb' 0 18)) else .error .field
  | 0x17 => decodeFmtop w
  | 0x18 => decodeLaneac w
  | 0x19 => decodeSreg w
  | 0x1a => .ok (.cld (w.extractLsb' 20 6) (w.extractLsb' 17 3) (w.extractLsb' 0 17))
  | 0x1b => if w.extractLsb' 0 2 = 0 then .ok (.sld (w.extractLsb' 20 6) (w.extractLsb' 14 6) (w.extractLsb' 8 6) (w.extractLsb' 5 3) (w.extractLsb' 2 3)) else .error .field
  | 0x1c => if w.extractLsb' 0 2 = 0 then .ok (.sst (w.extractLsb' 20 6) (w.extractLsb' 14 6) (w.extractLsb' 8 6) (w.extractLsb' 5 3) (w.extractLsb' 2 3)) else .error .field
  | 0x1d => if w.extractLsb' 0 1 = 0 then .ok (.satom (w.extractLsb' 20 6) (w.extractLsb' 14 6) (w.extractLsb' 8 6) (w.extractLsb' 6 2) (w.extractLsb' 2 4) (w.extractLsb' 1 1)) else .error .field
  | 0x1e => decodeDeclass w
  | 0x1f => decodeTbl w
  | 0x20 => decodeQk w
  | 0x21 => decodeQr w
  | 0x22 => decodeEng w
  | 0x23 => decodeBar w
  | 0x30 => decodeMx w
  | _ => .error .major

/-! ## Field codes of lane instructions -/

def FTy.code : FTy → BitVec 3
  | .f32 => 0
  | .f64 => 1
  | .f16 => 2
  | .bf16 => 3

def FTy.ofCode (c : BitVec 3) : Option FTy :=
  match c with
  | 0 => some .f32
  | 1 => some .f64
  | 2 => some .f16
  | 3 => some .bf16
  | _ => none

def DTy.code : DTy → BitVec 3
  | .f32 => 0
  | .f64 => 1

def DTy.ofCode (c : BitVec 3) : Option DTy :=
  match c with
  | 0 => some .f32
  | 1 => some .f64
  | _ => none

def ITy.code : ITy → BitVec 3
  | .i32 => 0
  | .n32 => 1
  | .i64 => 2
  | .n64 => 3

def ITy.ofCode (c : BitVec 3) : Option ITy :=
  match c with
  | 0 => some .i32
  | 1 => some .n32
  | 2 => some .i64
  | 3 => some .n64
  | _ => none

def Wd.bit : Wd → BitVec 3
  | .w32 => 0
  | .w64 => 1

def Wd.ofBit (c : BitVec 3) : Option Wd :=
  match c with
  | 0 => some .w32
  | 1 => some .w64
  | _ => none

def Wd.signedCode : Wd → BitVec 3
  | .w32 => 0
  | .w64 => 2

def Wd.ofSigned (c : BitVec 3) : Option Wd :=
  match c with
  | 0 => some .w32
  | 2 => some .w64
  | _ => none

def Wd.teamCode : Wd → BitVec 3
  | .w32 => 6
  | .w64 => 7

def Wd.ofTeam (c : BitVec 3) : Option Wd :=
  match c with
  | 6 => some .w32
  | 7 => some .w64
  | _ => none

def Wd.atomBit : Wd → BitVec 1
  | .w32 => 0
  | .w64 => 1

def Wd.ofAtomBit (c : BitVec 1) : Option Wd :=
  match c with
  | 0 => some .w32
  | 1 => some .w64
  | _ => none

def RTy.code : RTy → BitVec 3
  | .i32 => 0
  | .n32 => 1
  | .f32 => 2
  | .i64 => 3
  | .n64 => 4
  | .f64 => 5

def RTy.ofCode (c : BitVec 3) : Option RTy :=
  match c with
  | 0 => some .i32
  | 1 => some .n32
  | 2 => some .f32
  | 3 => some .i64
  | 4 => some .n64
  | 5 => some .f64
  | _ => none

def MxTy.code : MxTy → BitVec 3
  | .e4m3 => 0
  | .e5m2 => 1

def MxTy.ofCode (c : BitVec 3) : Option MxTy :=
  match c with
  | 0 => some .e4m3
  | 1 => some .e5m2
  | _ => none

def Fmt.code : Fmt → BitVec 4
  | .f32 => 0
  | .f64 => 1
  | .f16 => 2
  | .bf16 => 3
  | .e4m3 => 4
  | .e5m2 => 5
  | .i8 => 6
  | .i16 => 7
  | .i32 => 8
  | .i64 => 9
  | .n8 => 10
  | .n16 => 11
  | .n32 => 12
  | .n64 => 13

def Fmt.ofCode (c : BitVec 4) : Option Fmt :=
  match c with
  | 0 => some .f32
  | 1 => some .f64
  | 2 => some .f16
  | 3 => some .bf16
  | 4 => some .e4m3
  | 5 => some .e5m2
  | 6 => some .i8
  | 7 => some .i16
  | 8 => some .i32
  | 9 => some .i64
  | 10 => some .n8
  | 11 => some .n16
  | 12 => some .n32
  | 13 => some .n64
  | _ => none

def Level.code : Level → BitVec 3
  | .p => 0
  | .s => 1
  | .n => 2
  | .d => 3
  | .g => 4

def Level.ofCode (c : BitVec 3) : Option Level :=
  match c with
  | 0 => some .p
  | 1 => some .s
  | 2 => some .n
  | 3 => some .d
  | 4 => some .g
  | _ => none

def LdW.code : LdW → BitVec 3
  | .n8 => 0
  | .i8 => 1
  | .n16 => 2
  | .i16 => 3
  | .b32 => 4
  | .b64 => 5
  | .b128 => 6

def LdW.ofCode (c : BitVec 3) : Option LdW :=
  match c with
  | 0 => some .n8
  | 1 => some .i8
  | 2 => some .n16
  | 3 => some .i16
  | 4 => some .b32
  | 5 => some .b64
  | 6 => some .b128
  | _ => none

def StW.code : StW → BitVec 3
  | .b8 => 0
  | .b16 => 2
  | .b32 => 4
  | .b64 => 5
  | .b128 => 6

def StW.ofCode (c : BitVec 3) : Option StW :=
  match c with
  | 0 => some .b8
  | 2 => some .b16
  | 4 => some .b32
  | 5 => some .b64
  | 6 => some .b128
  | _ => none

def AtomOp.code : AtomOp → BitVec 4
  | .add => 0
  | .and => 1
  | .or => 2
  | .xor => 3
  | .min => 4
  | .max => 5
  | .minn => 6
  | .maxn => 7
  | .swap => 8
  | .cas => 9

def AtomOp.ofCode (c : BitVec 4) : Option AtomOp :=
  match c with
  | 0 => some .add
  | 1 => some .and
  | 2 => some .or
  | 3 => some .xor
  | 4 => some .min
  | 5 => some .max
  | 6 => some .minn
  | 7 => some .maxn
  | 8 => some .swap
  | 9 => some .cas
  | _ => none

def DK.code : DK → BitVec 2
  | .reg => 0
  | .mask => 1
  | .none => 2
  | .latch => 3

def DK.ofCode (c : BitVec 2) : Option DK :=
  match c with
  | 0 => some .reg
  | 1 => some .mask
  | 2 => some .none
  | 3 => some .latch
  | _ => none

def FRel.code : FRel → BitVec 5
  | .eq => 0
  | .ne => 1
  | .lt => 2
  | .le => 3
  | .gt => 4
  | .ge => 5
  | .un => 6
  | .or => 7

def IRel.code : IRel → BitVec 5
  | .eq => 0
  | .ne => 1
  | .lt => 2
  | .le => 3
  | .gt => 4
  | .ge => 5

/-! ## Lane instructions -/

/-- Class 0x1 (03 R79, R81): op is OP[7:3] and ty OP[2:0]. -/
def laneFloat (op : BitVec 5) (ty : BitVec 3) : Option (LaneArgs → Instr) :=
  match op with
  | 0 => (FTy.ofCode ty).map .fadd
  | 1 => (FTy.ofCode ty).map .fsub
  | 2 => (FTy.ofCode ty).map .fmul
  | 3 => (FTy.ofCode ty).map .ffma
  | 4 => (FTy.ofCode ty).map .ffms
  | 5 => (FTy.ofCode ty).map .fmin
  | 6 => (FTy.ofCode ty).map .fmax
  | 7 => (FTy.ofCode ty).map .fabs
  | 8 => (FTy.ofCode ty).map .fneg
  | 9 => (FTy.ofCode ty).map .frint
  | 10 => (FTy.ofCode ty).map .fclass
  | _ => none

/-- Class 0x2 (03 R79, R81): op is OP[7:3] and ty OP[2:0]. -/
def laneSpecial (op : BitVec 5) (ty : BitVec 3) : Option (LaneArgs → Instr) :=
  match op with
  | 0 => (DTy.ofCode ty).map .frcp
  | 1 => (DTy.ofCode ty).map .frsq
  | 2 => (DTy.ofCode ty).map .fsqrt
  | 3 => (DTy.ofCode ty).map .fdiv
  | 4 => if ty = 0 then some .fexp2 else none
  | 5 => if ty = 0 then some .flog2 else none
  | 6 => if ty = 0 then some .fsint else none
  | 7 => if ty = 0 then some .fcost else none
  | _ => none

/-- Class 0x4 (03 R79, R81): op is OP[7:3] and ty OP[2:0]. -/
def laneInt (op : BitVec 5) (ty : BitVec 3) : Option (LaneArgs → Instr) :=
  match op with
  | 0 => (ITy.ofCode ty).map .iadd
  | 1 => (ITy.ofCode ty).map .isub
  | 2 => (ITy.ofCode ty).map .imul
  | 3 => (ITy.ofCode ty).map .imulh
  | 4 => (ITy.ofCode ty).map .imad
  | 5 => (ITy.ofCode ty).map .imin
  | 6 => (ITy.ofCode ty).map .imax
  | 7 => (Wd.ofSigned ty).map .iabs
  | 8 => (Wd.ofSigned ty).map .ineg
  | 9 => (ITy.ofCode ty).map .iadds
  | 10 => (ITy.ofCode ty).map .isubs
  | _ => none

/-- Class 0x5 (03 R79, R81): op is OP[7:3] and ty OP[2:0]. -/
def laneBits (op : BitVec 5) (ty : BitVec 3) : Option (LaneArgs → Instr) :=
  match op with
  | 0 => (Wd.ofBit ty).map .laneAnd
  | 1 => (Wd.ofBit ty).map .laneOr
  | 2 => (Wd.ofBit ty).map .laneXor
  | 3 => (Wd.ofBit ty).map .laneAndn
  | 4 => (Wd.ofBit ty).map .not
  | 5 => (Wd.ofBit ty).map .laneShl
  | 6 => (Wd.ofBit ty).map .laneShr
  | 7 => (Wd.ofBit ty).map .laneSra
  | 8 => (Wd.ofBit ty).map .rol
  | 9 => (Wd.ofBit ty).map .ror
  | 10 => (Wd.ofBit ty).map .laneClz
  | 11 => (Wd.ofBit ty).map .laneCtz
  | 12 => (Wd.ofBit ty).map .lanePopc
  | 13 => (Wd.ofBit ty).map .brev
  | 14 => (Wd.ofBit ty).map .bfe
  | 15 => (Wd.ofBit ty).map .bfi
  | 16 => (Wd.ofBit ty).map .mov
  | 17 => (Wd.ofBit ty).map .sel
  | _ => none

/-- Class 0x6 (03 R79, R81): op is OP[7:3] and ty OP[2:0]. -/
def laneFcmp (op : BitVec 5) (ty : BitVec 3) : Option (LaneArgs → Instr) :=
  match op with
  | 0 => (DTy.ofCode ty).map (.fcmp .eq)
  | 1 => (DTy.ofCode ty).map (.fcmp .ne)
  | 2 => (DTy.ofCode ty).map (.fcmp .lt)
  | 3 => (DTy.ofCode ty).map (.fcmp .le)
  | 4 => (DTy.ofCode ty).map (.fcmp .gt)
  | 5 => (DTy.ofCode ty).map (.fcmp .ge)
  | 6 => (DTy.ofCode ty).map (.fcmp .un)
  | 7 => (DTy.ofCode ty).map (.fcmp .or)
  | _ => none

/-- Class 0x7 (03 R79, R81): op is OP[7:3] and ty OP[2:0]. -/
def laneIcmp (op : BitVec 5) (ty : BitVec 3) : Option (LaneArgs → Instr) :=
  match op with
  | 0 => (ITy.ofCode ty).map (.icmp .eq)
  | 1 => (ITy.ofCode ty).map (.icmp .ne)
  | 2 => (ITy.ofCode ty).map (.icmp .lt)
  | 3 => (ITy.ofCode ty).map (.icmp .le)
  | 4 => (ITy.ofCode ty).map (.icmp .gt)
  | 5 => (ITy.ofCode ty).map (.icmp .ge)
  | _ => none

/-- Class 0x8 (03 R79, R81): op is OP[7:3] and ty OP[2:0]. -/
def laneTeam (op : BitVec 5) (ty : BitVec 3) : Option (LaneArgs → Instr) :=
  match op with
  | 0 => (Wd.ofTeam ty).map .shflIdx
  | 1 => (Wd.ofTeam ty).map .shflXor
  | 2 => (Wd.ofTeam ty).map .shflUp
  | 3 => (Wd.ofTeam ty).map .shflDown
  | 4 => (Wd.ofTeam ty).map .bcast
  | 5 => if ty = 1 then some .lidx else none
  | 8 => (RTy.ofCode ty).map .redAdd
  | 9 => (RTy.ofCode ty).map .redMin
  | 10 => (RTy.ofCode ty).map .redMax
  | 11 => (Wd.ofTeam ty).map .redAnd
  | 12 => (Wd.ofTeam ty).map .redOr
  | 13 => (RTy.ofCode ty).map .scanAdd
  | 14 => (RTy.ofCode ty).map .scanAddx
  | 15 => (RTy.ofCode ty).map .scanMax
  | _ => none

/-- Class 0x9 (03 R79, R81): op is OP[7:3] and ty OP[2:0]. -/
def laneSwap (op : BitVec 5) (ty : BitVec 3) : Option (LaneArgs → Instr) :=
  match op with
  | 0 => (Wd.ofBit ty).map .xswap
  | 1 => if ty = 0 then some .swmark else none
  | _ => none

/-- Class 0xd (03 R79, R81): op is OP[7:3] and ty OP[2:0]. -/
def laneCld (op : BitVec 5) (ty : BitVec 3) : Option (LaneArgs → Instr) :=
  match op with
  | 0 => (Wd.ofBit ty).map .cldLane
  | _ => none

/-- Class 0xe (03 R79, R81): op is OP[7:3] and ty OP[2:0]. -/
def laneFeed (op : BitVec 5) (ty : BitVec 3) : Option (LaneArgs → Instr) :=
  match op with
  | 0 => if ty = 0 then some .mfeedA else none
  | 1 => if ty = 0 then some .mfeedB else none
  | 2 => if ty = 0 then some .mdrain else none
  | 3 => (MxTy.ofCode ty).map .qmx
  | _ => none
/-- Class 0x3, the conversions: destination and source formats (03 R80). -/
def laneConvert (d s : BitVec 4) : Option (LaneArgs → Instr) :=
  match Fmt.ofCode d, Fmt.ofCode s with
  | some d, some s => some (.cvt d s)
  | _, _ => none

/-- Classes 0xA and 0xB: level, width and two zero bits (03 R81). -/
def laneLoad (lv w : BitVec 3) (z : BitVec 2) : Option (LaneArgs → Instr) :=
  match Level.ofCode lv, LdW.ofCode w, z == 0 with
  | some lv, some w, true => some (.ld lv w)
  | _, _, _ => none

def laneStore (lv w : BitVec 3) (z : BitVec 2) : Option (LaneArgs → Instr) :=
  match Level.ofCode lv, StW.ofCode w, z == 0 with
  | some lv, some w, true => some (.st lv w)
  | _, _, _ => none

/-- Class 0xC: level, atomic operation and width (03 R81). -/
def laneAtomic (lv : BitVec 3) (o : BitVec 4) (w : BitVec 1) : Option (LaneArgs → Instr) :=
  match Level.ofCode lv, AtomOp.ofCode o, Wd.ofAtomBit w with
  | some lv, some o, some t => some (.atom o lv t)
  | _, _, _ => none

/-- The lane opcode map: OP[11:8] is the class (03 R78–R81). -/
def laneOp (op : BitVec 12) : Option (LaneArgs → Instr) :=
  match op.extractLsb' 8 4 with
  | 0x1 => laneFloat (op.extractLsb' 3 5) (op.extractLsb' 0 3)
  | 0x2 => laneSpecial (op.extractLsb' 3 5) (op.extractLsb' 0 3)
  | 0x3 => laneConvert (op.extractLsb' 4 4) (op.extractLsb' 0 4)
  | 0x4 => laneInt (op.extractLsb' 3 5) (op.extractLsb' 0 3)
  | 0x5 => laneBits (op.extractLsb' 3 5) (op.extractLsb' 0 3)
  | 0x6 => laneFcmp (op.extractLsb' 3 5) (op.extractLsb' 0 3)
  | 0x7 => laneIcmp (op.extractLsb' 3 5) (op.extractLsb' 0 3)
  | 0x8 => laneTeam (op.extractLsb' 3 5) (op.extractLsb' 0 3)
  | 0x9 => laneSwap (op.extractLsb' 3 5) (op.extractLsb' 0 3)
  | 0xA => laneLoad (op.extractLsb' 5 3) (op.extractLsb' 2 3) (op.extractLsb' 0 2)
  | 0xB => laneStore (op.extractLsb' 5 3) (op.extractLsb' 2 3) (op.extractLsb' 0 2)
  | 0xC => laneAtomic (op.extractLsb' 5 3) (op.extractLsb' 1 4) (op.extractLsb' 0 1)
  | 0xD => laneCld (op.extractLsb' 3 5) (op.extractLsb' 0 3)
  | 0xE => laneFeed (op.extractLsb' 3 5) (op.extractLsb' 0 3)
  | _ => none

/-- A source's kind and payload (03 R69). -/
def decodeSrc (k : BitVec 2) (p : BitVec 20) : Option Src :=
  match k with
  | 0 =>
    if p.extractLsb' 8 12 = 0 then some (.vreg (p.extractLsb' 0 8))
    else if p.extractLsb' 2 18 = 0x40 then some (.latch (p.extractLsb' 0 2))
    else if p.extractLsb' 6 14 = 0x6 then some (.sreg (p.extractLsb' 0 6))
    else if p.extractLsb' 4 16 = 0x20 then some (.kreg (p.extractLsb' 0 4))
    else none
  | 1 => some (.cwin (p.extractLsb' 17 3) (p.extractLsb' 0 17))
  | 2 => some (.imm p)
  | _ => if p.extractLsb' 2 18 = 0 then some (.lit (p.extractLsb' 0 2)) else none

/-- The kind and payload of a source (03 R69). -/
def Src.kind : Src → BitVec 2
  | .vreg _ => 0
  | .latch _ => 0
  | .sreg _ => 0
  | .kreg _ => 0
  | .cwin _ _ => 1
  | .imm _ => 2
  | .lit _ => 3

def Src.payload : Src → BitVec 20
  | .vreg i => 0#12 ++ i
  | .latch i => 0x40#18 ++ i
  | .sreg i => 0x6#14 ++ i
  | .kreg i => 0x20#16 ++ i
  | .cwin w o => w ++ o
  | .imm p => p
  | .lit i => 0#18 ++ i

/-- The fields of W0, W1 and W2 that every lane instruction has, without its literals (03 R67). -/
def decodeArgs (w0 w1 w2 : Word) : Decoded LaneArgs :=
  match DK.ofCode (w0.extractLsb' 18 2) with
  | none => .error .destination
  | some dk =>
    match decodeSrc (w0.extractLsb' 4 2) (w1.extractLsb' 12 20) with
    | none => .error (.source 0)
    | some a =>
      match decodeSrc (w0.extractLsb' 2 2) (w1.extractLsb' 0 12 ++ w2.extractLsb' 24 8) with
      | none => .error (.source 1)
      | some b =>
        match decodeSrc (w0.extractLsb' 0 2) (w2.extractLsb' 4 20) with
        | none => .error (.source 2)
        | some c =>
          .ok { dk := dk, di := w0.extractLsb' 10 8, ks := w0.extractLsb' 6 4, a := a, b := b, c := c,
                rm := w2.extractLsb' 1 3, hold := w2.extractLsb' 0 1 == 1, lits := [] }

/-- The literal words that a source of a kind and payload references, both of a 64-bit literal; a payload outside the table of 03 R69,
index 3 among them, references none (03 R59, R71; DESIGN CHOICE, notes/assumptions/110). -/
def litWords (u : SrcUse) (k : BitVec 2) (p : BitVec 20) : List Nat :=
  match k, decodeSrc k p with
  | 3, some (.lit i) => if i = 3 then [] else Machine.litRefs u (.lit i)
  | _, _ => []

/-- The operands of an opcode; a literal of an unassigned opcode is one word wide (DESIGN CHOICE, notes/assumptions/110). -/
def opUses (op : BitVec 12) : SrcUse × SrcUse × SrcUse :=
  match laneOp op with
  | none => (.uniform, .uniform, .uniform)
  | some f =>
    match Machine.laneSig (f ⟨.none, 0, 0, .imm 0, .imm 0, .imm 0, 0, false, []⟩) with
    | some (g, _) => (g.a, g.b, g.c)
    | none => (.uniform, .uniform, .uniform)

/-- The number of literal words that the source kinds reference, whatever the other fields hold (03 R59, R71). -/
def laneLitCount (w0 w1 w2 : Word) : Nat :=
  let (a, b, c) := opUses (w0.extractLsb' 20 12)
  Machine.litCount (litWords a (w0.extractLsb' 4 2) (w1.extractLsb' 12 20)
    ++ litWords b (w0.extractLsb' 2 2) (w1.extractLsb' 0 12 ++ w2.extractLsb' 24 8)
    ++ litWords c (w0.extractLsb' 0 2) (w2.extractLsb' 4 20))

/-- The lane instruction at the head of a list of words, and the words after it (03 R67, R71). -/
def decodeLane : List Word → Decoded (Instr × List Word)
  | w0 :: w1 :: w2 :: rest =>
    match laneOp (w0.extractLsb' 20 12) with
    | none => .error .laneOp
    | some f =>
      match decodeArgs w0 w1 w2 with
      | .error e => .error e
      | .ok x =>
        if rest.length < laneLitCount w0 w1 w2 then .error .short
        else .ok (f { x with lits := rest.take (laneLitCount w0 w1 w2) }, rest.drop (laneLitCount w0 w1 w2))
  | _ => .error .short

/-! ## The encoder -/

/-- The word of a scalar instruction, none for any other (03 R61, R64, R65). -/
def encodeScalar : Instr → Option Word
  | .add d a b => some (0x01#6 ++ d ++ a ++ b ++ 0x00#8)
  | .sub d a b => some (0x01#6 ++ d ++ a ++ b ++ 0x01#8)
  | .mul d a b => some (0x01#6 ++ d ++ a ++ b ++ 0x02#8)
  | .mulh d a b => some (0x01#6 ++ d ++ a ++ b ++ 0x03#8)
  | .mulhn d a b => some (0x01#6 ++ d ++ a ++ b ++ 0x04#8)
  | .and d a b => some (0x01#6 ++ d ++ a ++ b ++ 0x05#8)
  | .or d a b => some (0x01#6 ++ d ++ a ++ b ++ 0x06#8)
  | .xor d a b => some (0x01#6 ++ d ++ a ++ b ++ 0x07#8)
  | .andn d a b => some (0x01#6 ++ d ++ a ++ b ++ 0x08#8)
  | .shl d a b => some (0x01#6 ++ d ++ a ++ b ++ 0x09#8)
  | .shr d a b => some (0x01#6 ++ d ++ a ++ b ++ 0x0a#8)
  | .sra d a b => some (0x01#6 ++ d ++ a ++ b ++ 0x0b#8)
  | .min d a b => some (0x01#6 ++ d ++ a ++ b ++ 0x0c#8)
  | .max d a b => some (0x01#6 ++ d ++ a ++ b ++ 0x0d#8)
  | .minn d a b => some (0x01#6 ++ d ++ a ++ b ++ 0x0e#8)
  | .maxn d a b => some (0x01#6 ++ d ++ a ++ b ++ 0x0f#8)
  | .clz d a => some (0x01#6 ++ d ++ a ++ 0#6 ++ 0x10#8)
  | .ctz d a => some (0x01#6 ++ d ++ a ++ 0#6 ++ 0x11#8)
  | .popc d a => some (0x01#6 ++ d ++ a ++ 0#6 ++ 0x12#8)
  | .addi d a i => some (0x02#6 ++ d ++ a ++ i)
  | .andi d a i => some (0x03#6 ++ d ++ a ++ i)
  | .ori d a i => some (0x04#6 ++ d ++ a ++ i)
  | .xori d a i => some (0x05#6 ++ d ++ a ++ i)
  | .shli d a s => some (0x06#6 ++ d ++ a ++ 0#9 ++ s)
  | .shri d a s => some (0x07#6 ++ d ++ a ++ 0#9 ++ s)
  | .srai d a s => some (0x08#6 ++ d ++ a ++ 0#9 ++ s)
  | .lih d i => some (0x0a#6 ++ d ++ i)
  | .ceqi d a i => some (0x0b#6 ++ d ++ a ++ i)
  | .clti d a i => some (0x0c#6 ++ d ++ a ++ i)
  | .aaddi d a i => some (0x0d#6 ++ d ++ a ++ i)
  | .aadd d a b => some (0x0e#6 ++ d ++ a ++ b ++ 0x00#4 ++ 0#4)
  | .asub d a b => some (0x0e#6 ++ d ++ a ++ b ++ 0x01#4 ++ 0#4)
  | .aaddx d a b h => some (0x0e#6 ++ d ++ a ++ b ++ 0x02#4 ++ h)
  | .ceq d a b => some (0x0f#6 ++ d ++ a ++ b ++ 0x00#8)
  | .cne d a b => some (0x0f#6 ++ d ++ a ++ b ++ 0x01#8)
  | .clt d a b => some (0x0f#6 ++ d ++ a ++ b ++ 0x02#8)
  | .cle d a b => some (0x0f#6 ++ d ++ a ++ b ++ 0x03#8)
  | .cltn d a b => some (0x0f#6 ++ d ++ a ++ b ++ 0x04#8)
  | .clen d a b => some (0x0f#6 ++ d ++ a ++ b ++ 0x05#8)
  | .aceq d a b => some (0x0f#6 ++ d ++ a ++ b ++ 0x06#8)
  | .acltn d a b => some (0x0f#6 ++ d ++ a ++ b ++ 0x07#8)
  | .b o => some (0x10#6 ++ 0#6 ++ 0x00#4 ++ o)
  | .beqz a o => some (0x10#6 ++ a ++ 0x01#4 ++ o)
  | .bnez a o => some (0x10#6 ++ a ++ 0x02#4 ++ o)
  | .bltz a o => some (0x10#6 ++ a ++ 0x03#4 ++ o)
  | .bgez a o => some (0x10#6 ++ a ++ 0x04#4 ++ o)
  | .bgtz a o => some (0x10#6 ++ a ++ 0x05#4 ++ o)
  | .blez a o => some (0x10#6 ++ a ++ 0x06#4 ++ o)
  | .bkz k o => some (0x11#6 ++ 0#2 ++ k ++ 0x00#4 ++ o)
  | .bknz k o => some (0x11#6 ++ 0#2 ++ k ++ 0x01#4 ++ o)
  | .call a o => some (0x12#6 ++ a ++ 0x00#4 ++ o)
  | .nop => some (0x13#6 ++ 0#18 ++ 0x00#8)
  | .jr a => some (0x13#6 ++ 0#6 ++ a ++ 0#6 ++ 0x01#8)
  | .callr d a => some (0x13#6 ++ d ++ a ++ 0#6 ++ 0x02#8)
  | .trap c => some (0x13#6 ++ 0#12 ++ c ++ 0x03#8)
  | .rft => some (0x13#6 ++ 0#18 ++ 0x04#8)
  | .bkpt => some (0x13#6 ++ 0#18 ++ 0x05#8)
  | .sleep a => some (0x13#6 ++ 0#6 ++ a ++ 0#6 ++ 0x06#8)
  | .yield => some (0x13#6 ++ 0#18 ++ 0x07#8)
  | .kmov d a => some (0x14#6 ++ d ++ a ++ 0#10 ++ 0x00#8)
  | .knot d a => some (0x14#6 ++ d ++ a ++ 0#10 ++ 0x01#8)
  | .kand d a b => some (0x14#6 ++ d ++ a ++ b ++ 0#6 ++ 0x02#8)
  | .kor d a b => some (0x14#6 ++ d ++ a ++ b ++ 0#6 ++ 0x03#8)
  | .kxor d a b => some (0x14#6 ++ d ++ a ++ b ++ 0#6 ++ 0x04#8)
  | .kandn d a b => some (0x14#6 ++ d ++ a ++ b ++ 0#6 ++ 0x05#8)
  | .kall d => some (0x14#6 ++ d ++ 0#14 ++ 0x06#8)
  | .kclr d => some (0x14#6 ++ d ++ 0#14 ++ 0x07#8)
  | .ksetn d s => some (0x14#6 ++ d ++ 0#8 ++ s ++ 0x08#8)
  | .kpop a s => some (0x14#6 ++ 0#4 ++ a ++ 0#4 ++ s ++ 0x09#8)
  | .kfirst a s => some (0x14#6 ++ 0#4 ++ a ++ 0#4 ++ s ++ 0x0a#8)
  | .ksum a s => some (0x14#6 ++ 0#4 ++ a ++ 0#4 ++ s ++ 0x0b#8)
  | .kmovv d w s => some (0x14#6 ++ d ++ 0#3 ++ w ++ s ++ 0x0c#8)
  | .lrun c o => some (0x15#6 ++ c ++ o)
  | .lsetpc o => some (0x16#6 ++ 0#8 ++ o)
  | .setfmt a => some (0x17#6 ++ 0#6 ++ a ++ 0#6 ++ 0x00#8)
  | .getfmt d => some (0x17#6 ++ d ++ 0#12 ++ 0x01#8)
  | .lget d a b => some (0x18#6 ++ d ++ a ++ b ++ 0x00#8)
  | .lput d a b => some (0x18#6 ++ d ++ a ++ b ++ 0x01#8)
  | .srr d n => some (0x19#6 ++ d ++ n ++ 0x00#8)
  | .srw s n => some (0x19#6 ++ s ++ n ++ 0x01#8)
  | .rdcnt d n => some (0x19#6 ++ d ++ n ++ 0x02#8)
  | .csel s n => some (0x19#6 ++ s ++ n ++ 0x03#8)
  | .czero n => some (0x19#6 ++ 0#6 ++ n ++ 0x04#8)
  | .cld d w o => some (0x1a#6 ++ d ++ w ++ o)
  | .sld d a b l w => some (0x1b#6 ++ d ++ a ++ b ++ l ++ w ++ 0#2)
  | .sst d a b l w => some (0x1c#6 ++ d ++ a ++ b ++ l ++ w ++ 0#2)
  | .satom d a b l p w => some (0x1d#6 ++ d ++ a ++ b ++ l ++ p ++ w ++ 0#1)
  | .declass a => some (0x1e#6 ++ 0#6 ++ a ++ 0#6 ++ 0x00#8)
  | .tlbinv a => some (0x1f#6 ++ 0#6 ++ a ++ 0#6 ++ 0x00#8)
  | .atinv => some (0x1f#6 ++ 0#18 ++ 0x01#8)
  | .exit a => some (0x20#6 ++ 0#4 ++ a ++ 0#10 ++ 0x00#8)
  | .refill d s => some (0x20#6 ++ d ++ 0#8 ++ s ++ 0x01#8)
  | .refillW d s => some (0x20#6 ++ d ++ 0#8 ++ s ++ 0x02#8)
  | .spawn d a => some (0x21#6 ++ d ++ a ++ 0#6 ++ 0x00#8)
  | .binclose a => some (0x21#6 ++ 0#6 ++ a ++ 0#6 ++ 0x01#8)
  | .xcopy h a c n => some (0x22#6 ++ h ++ a ++ 0x00#8 ++ c ++ n ++ 0#4)
  | .xfill h a c n => some (0x22#6 ++ h ++ a ++ 0x01#8 ++ c ++ n ++ 0#4)
  | .xgath h a => some (0x22#6 ++ h ++ a ++ 0x02#8 ++ 0#8)
  | .swbuild h a => some (0x22#6 ++ h ++ a ++ 0x03#8 ++ 0#8)
  | .hwait h => some (0x22#6 ++ h ++ 0#6 ++ 0x10#8 ++ 0#8)
  | .htest h s => some (0x22#6 ++ h ++ s ++ 0x11#8 ++ 0#8)
  | .hcancel h => some (0x22#6 ++ h ++ 0#6 ++ 0x12#8 ++ 0#8)
  | .barArr n => some (0x23#6 ++ 0#15 ++ n ++ 0x00#8)
  | .barWait d n => some (0x23#6 ++ d ++ 0#9 ++ n ++ 0x01#8)
  | .barExp a n => some (0x23#6 ++ 0#6 ++ a ++ 0#3 ++ n ++ 0x02#8)
  | .mzero c a => some (0x30#6 ++ c ++ a ++ 0#14 ++ 0x00#8)
  | .mma c a p q x y z m => some (0x30#6 ++ c ++ a ++ p ++ q ++ 0#1 ++ x ++ y ++ z ++ m ++ 0#3 ++ 0x01#8)
  | .mmaq c a p q x y z m => some (0x30#6 ++ c ++ a ++ p ++ q ++ 0#1 ++ x ++ y ++ z ++ m ++ 0#3 ++ 0x02#8)
  | .mmas c a p q x y z m => some (0x30#6 ++ c ++ a ++ p ++ q ++ 0#1 ++ x ++ y ++ z ++ m ++ 0#3 ++ 0x03#8)
  | .mbank c d => some (0x30#6 ++ c ++ 0#10 ++ d ++ 0x04#8)
  | .fadd _ _ => none
  | .fsub _ _ => none
  | .fmul _ _ => none
  | .ffma _ _ => none
  | .ffms _ _ => none
  | .fmin _ _ => none
  | .fmax _ _ => none
  | .fabs _ _ => none
  | .fneg _ _ => none
  | .frint _ _ => none
  | .fclass _ _ => none
  | .frcp _ _ => none
  | .frsq _ _ => none
  | .fsqrt _ _ => none
  | .fdiv _ _ => none
  | .fexp2 _ => none
  | .flog2 _ => none
  | .fsint _ => none
  | .fcost _ => none
  | .cvt _ _ _ => none
  | .iadd _ _ => none
  | .isub _ _ => none
  | .imul _ _ => none
  | .imulh _ _ => none
  | .imad _ _ => none
  | .imin _ _ => none
  | .imax _ _ => none
  | .iabs _ _ => none
  | .ineg _ _ => none
  | .iadds _ _ => none
  | .isubs _ _ => none
  | .laneAnd _ _ => none
  | .laneOr _ _ => none
  | .laneXor _ _ => none
  | .laneAndn _ _ => none
  | .not _ _ => none
  | .laneShl _ _ => none
  | .laneShr _ _ => none
  | .laneSra _ _ => none
  | .rol _ _ => none
  | .ror _ _ => none
  | .laneClz _ _ => none
  | .laneCtz _ _ => none
  | .lanePopc _ _ => none
  | .brev _ _ => none
  | .bfe _ _ => none
  | .bfi _ _ => none
  | .mov _ _ => none
  | .sel _ _ => none
  | .fcmp _ _ _ => none
  | .icmp _ _ _ => none
  | .shflIdx _ _ => none
  | .shflXor _ _ => none
  | .shflUp _ _ => none
  | .shflDown _ _ => none
  | .bcast _ _ => none
  | .lidx _ => none
  | .redAdd _ _ => none
  | .redMin _ _ => none
  | .redMax _ _ => none
  | .redAnd _ _ => none
  | .redOr _ _ => none
  | .scanAdd _ _ => none
  | .scanAddx _ _ => none
  | .scanMax _ _ => none
  | .xswap _ _ => none
  | .swmark _ => none
  | .ld _ _ _ => none
  | .st _ _ _ => none
  | .atom _ _ _ _ => none
  | .cldLane _ _ => none
  | .mfeedA _ => none
  | .mfeedB _ => none
  | .mdrain _ => none
  | .qmx _ _ => none
  | .eventEntry _ => none
  | .chainPhaseStart _ => none
  | .bankPhasePerform _ => none
  | .refillWTake _ => none
  | .spawnAppend _ => none
  | .hwaitReturn _ => none
  | .xswapExchange _ => none
  | .xswapTimeout _ => none
  | .sleepEnd _ => none
  | .stallSample _ => none
  | .dcmdStop _ => none
  | .dcmdResume _ => none
  | .dcmdStep _ => none
  | .registerWrite _ _ _ => none
  | .moduleReset => none
  | .qcmdRegister _ => none
  | .qcmdDeregister _ => none
  | .qcmdClearFault _ => none
  | .tailReread _ => none
  | .queueIdleTimeout _ => none
  | .queueUnmapComplete _ => none
  | .runListTurnEnd => none
  | .nopPacket _ => none
  | .launch _ => none
  | .ibCall _ => none
  | .waitValue _ => none
  | .barrierAnd _ => none
  | .waitReread _ => none
  | .writeValue _ => none
  | .launchCompletion _ => none
  | .lnote _ => none
  | .preq _ => none
  | .pack _ => none
  | .resume _ => none
  | .mapchg _ => none
  | .efault _ => none
  | .done _ => none
  | .unitPreemptAck _ => none
  | .preemptedTeamPlacement _ => none
  | .teamStart _ _ _ => none
  | .neighbourhoodStart _ _ => none
  | .shardTimerExpiry _ _ _ => none
  | .neighbourhoodReservation _ _ => none
  | .urgencyPredictorUpdate _ => none
  | .matrixGroupForm _ _ => none
  | .matrixGroupEnd _ => none
  | .matrixOpStart _ _ => none
  | .matrixOpComplete _ _ => none
  | .copyLineRun _ => none
  | .gatherTile _ => none
  | .gatherWrite _ => none
  | .swardTile _ => none
  | .leafFaultResolve _ => none
  | .barByteReport _ => none
  | .barWaitRelease _ => none
  | .ballastMeasure => none
  | .ballastRecordTransfer _ _ _ _ => none
  | .ballastSlabResplit _ _ _ _ => none
  | .granuleMigration _ _ _ _ => none
  | .rds _ _ => none
  | .rdx _ _ => none
  | .upg _ _ => none
  | .fwd _ _ => none
  | .inv _ _ => none
  | .binv _ _ => none
  | .ack _ => none
  | .data _ _ => none
  | .wbd _ _ => none
  | .hostCxlMemRead _ _ => none
  | .hostCxlMemWrite _ _ _ => none
  | .cxlCacheCompletion _ _ => none
  | .reclassDrain _ _ => none
  | .reclassDrainAck _ => none
  | .tableWalk _ _ _ => none
  | .blockDecode _ _ => none
  | .uncorrectableArrayError _ => none
  | .linkFlitReplay _ _ => none
  | .linkPortDown _ => none
  | .spareReplacement _ => none
  | .coreRetirement _ => none
  | .leafControllerRestart _ => none
  | .gangCommit _ => none
  | .versionStallTimeout _ => none
  | .supplyLoss => none
  | .drogueFlush => none
  | .supplyReturn => none
  | .energyReserveLow => none
  | .freeze _ => none
  | .restore _ _ => none
  | .ckpt _ => none
  | .drogueReg _ _ => none
  | .imageArea _ _ _ => none
  | .preempt _ => none
  | .signed _ => none
  | .report _ _ => none
  | .sensorRefresh _ => none

/-- The operation field OP of a lane instruction, none for any other (03 R78–R81). -/
def encodeOp : Instr → Option (BitVec 12)
  | .fadd t _ => some (0x1#4 ++ 0#5 ++ t.code)
  | .fsub t _ => some (0x1#4 ++ 1#5 ++ t.code)
  | .fmul t _ => some (0x1#4 ++ 2#5 ++ t.code)
  | .ffma t _ => some (0x1#4 ++ 3#5 ++ t.code)
  | .ffms t _ => some (0x1#4 ++ 4#5 ++ t.code)
  | .fmin t _ => some (0x1#4 ++ 5#5 ++ t.code)
  | .fmax t _ => some (0x1#4 ++ 6#5 ++ t.code)
  | .fabs t _ => some (0x1#4 ++ 7#5 ++ t.code)
  | .fneg t _ => some (0x1#4 ++ 8#5 ++ t.code)
  | .frint t _ => some (0x1#4 ++ 9#5 ++ t.code)
  | .fclass t _ => some (0x1#4 ++ 10#5 ++ t.code)
  | .frcp t _ => some (0x2#4 ++ 0#5 ++ t.code)
  | .frsq t _ => some (0x2#4 ++ 1#5 ++ t.code)
  | .fsqrt t _ => some (0x2#4 ++ 2#5 ++ t.code)
  | .fdiv t _ => some (0x2#4 ++ 3#5 ++ t.code)
  | .fexp2 _ => some (0x2#4 ++ 4#5 ++ 0#3)
  | .flog2 _ => some (0x2#4 ++ 5#5 ++ 0#3)
  | .fsint _ => some (0x2#4 ++ 6#5 ++ 0#3)
  | .fcost _ => some (0x2#4 ++ 7#5 ++ 0#3)
  | .iadd t _ => some (0x4#4 ++ 0#5 ++ t.code)
  | .isub t _ => some (0x4#4 ++ 1#5 ++ t.code)
  | .imul t _ => some (0x4#4 ++ 2#5 ++ t.code)
  | .imulh t _ => some (0x4#4 ++ 3#5 ++ t.code)
  | .imad t _ => some (0x4#4 ++ 4#5 ++ t.code)
  | .imin t _ => some (0x4#4 ++ 5#5 ++ t.code)
  | .imax t _ => some (0x4#4 ++ 6#5 ++ t.code)
  | .iabs t _ => some (0x4#4 ++ 7#5 ++ t.signedCode)
  | .ineg t _ => some (0x4#4 ++ 8#5 ++ t.signedCode)
  | .iadds t _ => some (0x4#4 ++ 9#5 ++ t.code)
  | .isubs t _ => some (0x4#4 ++ 10#5 ++ t.code)
  | .laneAnd t _ => some (0x5#4 ++ 0#5 ++ t.bit)
  | .laneOr t _ => some (0x5#4 ++ 1#5 ++ t.bit)
  | .laneXor t _ => some (0x5#4 ++ 2#5 ++ t.bit)
  | .laneAndn t _ => some (0x5#4 ++ 3#5 ++ t.bit)
  | .not t _ => some (0x5#4 ++ 4#5 ++ t.bit)
  | .laneShl t _ => some (0x5#4 ++ 5#5 ++ t.bit)
  | .laneShr t _ => some (0x5#4 ++ 6#5 ++ t.bit)
  | .laneSra t _ => some (0x5#4 ++ 7#5 ++ t.bit)
  | .rol t _ => some (0x5#4 ++ 8#5 ++ t.bit)
  | .ror t _ => some (0x5#4 ++ 9#5 ++ t.bit)
  | .laneClz t _ => some (0x5#4 ++ 10#5 ++ t.bit)
  | .laneCtz t _ => some (0x5#4 ++ 11#5 ++ t.bit)
  | .lanePopc t _ => some (0x5#4 ++ 12#5 ++ t.bit)
  | .brev t _ => some (0x5#4 ++ 13#5 ++ t.bit)
  | .bfe t _ => some (0x5#4 ++ 14#5 ++ t.bit)
  | .bfi t _ => some (0x5#4 ++ 15#5 ++ t.bit)
  | .mov t _ => some (0x5#4 ++ 16#5 ++ t.bit)
  | .sel t _ => some (0x5#4 ++ 17#5 ++ t.bit)
  | .shflIdx t _ => some (0x8#4 ++ 0#5 ++ t.teamCode)
  | .shflXor t _ => some (0x8#4 ++ 1#5 ++ t.teamCode)
  | .shflUp t _ => some (0x8#4 ++ 2#5 ++ t.teamCode)
  | .shflDown t _ => some (0x8#4 ++ 3#5 ++ t.teamCode)
  | .bcast t _ => some (0x8#4 ++ 4#5 ++ t.teamCode)
  | .lidx _ => some (0x8#4 ++ 5#5 ++ 1#3)
  | .redAdd t _ => some (0x8#4 ++ 8#5 ++ t.code)
  | .redMin t _ => some (0x8#4 ++ 9#5 ++ t.code)
  | .redMax t _ => some (0x8#4 ++ 10#5 ++ t.code)
  | .redAnd t _ => some (0x8#4 ++ 11#5 ++ t.teamCode)
  | .redOr t _ => some (0x8#4 ++ 12#5 ++ t.teamCode)
  | .scanAdd t _ => some (0x8#4 ++ 13#5 ++ t.code)
  | .scanAddx t _ => some (0x8#4 ++ 14#5 ++ t.code)
  | .scanMax t _ => some (0x8#4 ++ 15#5 ++ t.code)
  | .xswap t _ => some (0x9#4 ++ 0#5 ++ t.bit)
  | .swmark _ => some (0x9#4 ++ 1#5 ++ 0#3)
  | .cldLane t _ => some (0xd#4 ++ 0#5 ++ t.bit)
  | .mfeedA _ => some (0xe#4 ++ 0#5 ++ 0#3)
  | .mfeedB _ => some (0xe#4 ++ 1#5 ++ 0#3)
  | .mdrain _ => some (0xe#4 ++ 2#5 ++ 0#3)
  | .qmx t _ => some (0xe#4 ++ 3#5 ++ t.code)
  | .fcmp r t _ => some (0x6#4 ++ r.code ++ t.code)
  | .icmp r t _ => some (0x7#4 ++ r.code ++ t.code)
  | .cvt d s _ => some (0x3#4 ++ d.code ++ s.code)
  | .ld lv w _ => some (0xA#4 ++ lv.code ++ w.code ++ 0#2)
  | .st lv w _ => some (0xB#4 ++ lv.code ++ w.code ++ 0#2)
  | .atom o lv t _ => some (0xC#4 ++ lv.code ++ o.code ++ t.atomBit)
  | .add _ _ _ => none
  | .sub _ _ _ => none
  | .mul _ _ _ => none
  | .mulh _ _ _ => none
  | .mulhn _ _ _ => none
  | .and _ _ _ => none
  | .or _ _ _ => none
  | .xor _ _ _ => none
  | .andn _ _ _ => none
  | .shl _ _ _ => none
  | .shr _ _ _ => none
  | .sra _ _ _ => none
  | .min _ _ _ => none
  | .max _ _ _ => none
  | .minn _ _ _ => none
  | .maxn _ _ _ => none
  | .clz _ _ => none
  | .ctz _ _ => none
  | .popc _ _ => none
  | .addi _ _ _ => none
  | .andi _ _ _ => none
  | .ori _ _ _ => none
  | .xori _ _ _ => none
  | .shli _ _ _ => none
  | .shri _ _ _ => none
  | .srai _ _ _ => none
  | .lih _ _ => none
  | .ceqi _ _ _ => none
  | .clti _ _ _ => none
  | .aaddi _ _ _ => none
  | .aadd _ _ _ => none
  | .asub _ _ _ => none
  | .aaddx _ _ _ _ => none
  | .ceq _ _ _ => none
  | .cne _ _ _ => none
  | .clt _ _ _ => none
  | .cle _ _ _ => none
  | .cltn _ _ _ => none
  | .clen _ _ _ => none
  | .aceq _ _ _ => none
  | .acltn _ _ _ => none
  | .b _ => none
  | .beqz _ _ => none
  | .bnez _ _ => none
  | .bltz _ _ => none
  | .bgez _ _ => none
  | .bgtz _ _ => none
  | .blez _ _ => none
  | .bkz _ _ => none
  | .bknz _ _ => none
  | .call _ _ => none
  | .nop => none
  | .jr _ => none
  | .callr _ _ => none
  | .trap _ => none
  | .rft => none
  | .bkpt => none
  | .sleep _ => none
  | .yield => none
  | .kmov _ _ => none
  | .knot _ _ => none
  | .kand _ _ _ => none
  | .kor _ _ _ => none
  | .kxor _ _ _ => none
  | .kandn _ _ _ => none
  | .kall _ => none
  | .kclr _ => none
  | .ksetn _ _ => none
  | .kpop _ _ => none
  | .kfirst _ _ => none
  | .ksum _ _ => none
  | .kmovv _ _ _ => none
  | .lrun _ _ => none
  | .lsetpc _ => none
  | .setfmt _ => none
  | .getfmt _ => none
  | .lget _ _ _ => none
  | .lput _ _ _ => none
  | .srr _ _ => none
  | .srw _ _ => none
  | .rdcnt _ _ => none
  | .csel _ _ => none
  | .czero _ => none
  | .cld _ _ _ => none
  | .sld _ _ _ _ _ => none
  | .sst _ _ _ _ _ => none
  | .satom _ _ _ _ _ _ => none
  | .declass _ => none
  | .tlbinv _ => none
  | .atinv => none
  | .exit _ => none
  | .refill _ _ => none
  | .refillW _ _ => none
  | .spawn _ _ => none
  | .binclose _ => none
  | .xcopy _ _ _ _ => none
  | .xfill _ _ _ _ => none
  | .xgath _ _ => none
  | .swbuild _ _ => none
  | .hwait _ => none
  | .htest _ _ => none
  | .hcancel _ => none
  | .barArr _ => none
  | .barWait _ _ => none
  | .barExp _ _ => none
  | .mzero _ _ => none
  | .mma _ _ _ _ _ _ _ _ => none
  | .mmaq _ _ _ _ _ _ _ _ => none
  | .mmas _ _ _ _ _ _ _ _ => none
  | .mbank _ _ => none
  | .eventEntry _ => none
  | .chainPhaseStart _ => none
  | .bankPhasePerform _ => none
  | .refillWTake _ => none
  | .spawnAppend _ => none
  | .hwaitReturn _ => none
  | .xswapExchange _ => none
  | .xswapTimeout _ => none
  | .sleepEnd _ => none
  | .stallSample _ => none
  | .dcmdStop _ => none
  | .dcmdResume _ => none
  | .dcmdStep _ => none
  | .registerWrite _ _ _ => none
  | .moduleReset => none
  | .qcmdRegister _ => none
  | .qcmdDeregister _ => none
  | .qcmdClearFault _ => none
  | .tailReread _ => none
  | .queueIdleTimeout _ => none
  | .queueUnmapComplete _ => none
  | .runListTurnEnd => none
  | .nopPacket _ => none
  | .launch _ => none
  | .ibCall _ => none
  | .waitValue _ => none
  | .barrierAnd _ => none
  | .waitReread _ => none
  | .writeValue _ => none
  | .launchCompletion _ => none
  | .lnote _ => none
  | .preq _ => none
  | .pack _ => none
  | .resume _ => none
  | .mapchg _ => none
  | .efault _ => none
  | .done _ => none
  | .unitPreemptAck _ => none
  | .preemptedTeamPlacement _ => none
  | .teamStart _ _ _ => none
  | .neighbourhoodStart _ _ => none
  | .shardTimerExpiry _ _ _ => none
  | .neighbourhoodReservation _ _ => none
  | .urgencyPredictorUpdate _ => none
  | .matrixGroupForm _ _ => none
  | .matrixGroupEnd _ => none
  | .matrixOpStart _ _ => none
  | .matrixOpComplete _ _ => none
  | .copyLineRun _ => none
  | .gatherTile _ => none
  | .gatherWrite _ => none
  | .swardTile _ => none
  | .leafFaultResolve _ => none
  | .barByteReport _ => none
  | .barWaitRelease _ => none
  | .ballastMeasure => none
  | .ballastRecordTransfer _ _ _ _ => none
  | .ballastSlabResplit _ _ _ _ => none
  | .granuleMigration _ _ _ _ => none
  | .rds _ _ => none
  | .rdx _ _ => none
  | .upg _ _ => none
  | .fwd _ _ => none
  | .inv _ _ => none
  | .binv _ _ => none
  | .ack _ => none
  | .data _ _ => none
  | .wbd _ _ => none
  | .hostCxlMemRead _ _ => none
  | .hostCxlMemWrite _ _ _ => none
  | .cxlCacheCompletion _ _ => none
  | .reclassDrain _ _ => none
  | .reclassDrainAck _ => none
  | .tableWalk _ _ _ => none
  | .blockDecode _ _ => none
  | .uncorrectableArrayError _ => none
  | .linkFlitReplay _ _ => none
  | .linkPortDown _ => none
  | .spareReplacement _ => none
  | .coreRetirement _ => none
  | .leafControllerRestart _ => none
  | .gangCommit _ => none
  | .versionStallTimeout _ => none
  | .supplyLoss => none
  | .drogueFlush => none
  | .supplyReturn => none
  | .energyReserveLow => none
  | .freeze _ => none
  | .restore _ _ => none
  | .ckpt _ => none
  | .drogueReg _ _ => none
  | .imageArea _ _ _ => none
  | .preempt _ => none
  | .signed _ => none
  | .report _ _ => none
  | .sensorRefresh _ => none

/-- The words of a lane instruction with the given operation field (03 R67). -/
def laneWords (op : BitVec 12) (x : LaneArgs) : List Word :=
  (op ++ x.dk.code ++ x.di ++ x.ks ++ x.a.kind ++ x.b.kind ++ x.c.kind)
    :: (x.a.payload ++ x.b.payload.extractLsb' 8 12)
    :: (x.b.payload.extractLsb' 0 8 ++ x.c.payload ++ x.rm ++ BitVec.ofBool x.hold)
    :: x.lits

/-- The words of an instruction: one for a scalar instruction, three and its literals for a lane instruction, none
for a step of the module. -/
def encode (i : Instr) : List Word :=
  match encodeScalar i with
  | some w => [w]
  | none =>
    match encodeOp i, Machine.laneSig i with
    | some op, some (_, x) => laneWords op x
    | _, _ => []

/-! ## Bytes -/

/-- The whole words of a list of bytes. -/
def wordsOfBytes : List Byte → List Word
  | b0 :: b1 :: b2 :: b3 :: rest => Word.ofBytes b0 b1 b2 b3 :: wordsOfBytes rest
  | _ => []

/-- The bytes of a list of words. -/
def bytesOfWords (ws : List Word) : List Byte := ws.flatMap Word.bytes

/-- The scalar instruction at the head of any bytes, and the bytes after it. -/
def decodeScalarBytes : List Byte → Decoded (Instr × List Byte)
  | b0 :: b1 :: b2 :: b3 :: rest =>
    match decodeScalar (Word.ofBytes b0 b1 b2 b3) with
    | .ok i => .ok (i, rest)
    | .error e => .error e
  | _ => .error .short

/-- The lane instruction at the head of any bytes. -/
def decodeLaneBytes (bs : List Byte) : Decoded Instr :=
  match decodeLane (wordsOfBytes bs) with
  | .ok (i, _) => .ok i
  | .error e => .error e

/-- The low n bytes of a number, lowest first. -/
def bytesOfNat : Nat → Nat → List Byte
  | 0, _ => []
  | n + 1, w => BitVec.ofNat 8 w :: bytesOfNat n (w / 256)

/-- The instruction whose bits are w as spec/opcode_table.json numbers them: a scalar word for a row of 32 bits, a
lane instruction of up to six words for a longer row. -/
def decodeTableWord (nbits w : Nat) : Option Instr :=
  if nbits ≤ 32 then
    match decodeScalarBytes (bytesOfNat 4 (w % 2 ^ 32)) with
    | .ok (i, _) => some i
    | .error _ => none
  else
    match decodeLaneBytes (bytesOfNat 24 (w % 2 ^ nbits)) with
    | .ok i => some i
    | .error _ => none

end Sys2Proof
end

