-- ==== Sys2Proof/Machine/Place.lean ====
section
/-! DEFINITION. Where things are: sites, clusters and dies (spec/01 R8–R14), the active cores and their logical
numbers (spec/02 R54, spec/16 R343), and who is resident on a core (spec/02 R51). Cores are numbered 36·die + site,
clusters 9·die + cluster, and L1 nodes as cores, with control cores from 216. -/

namespace Sys2Proof.Machine

/-- The cluster, 0–8, that holds a site (01 R12). -/
def siteCluster (site : Nat) : Nat := 3 * (site / 6 / 2) + site % 6 / 2

/-- The four sites of a cluster, ascending (01 R12). -/
def clusterSites (c : Nat) : List Nat :=
  let b := 12 * (c / 3) + 2 * (c % 3)
  [b, b + 1, b + 6, b + 7]

/-- The cluster of a core (01 R12). -/
def coreCluster (core : Nat) : Nat := 9 * (core / 36) + siteCluster (core % 36)

/-- The cluster of a matrix group's array cores, or the one that they left: the one that a MATRIX record names, also when the group has been
resumed on another cluster than it formed on. DESIGN CHOICE: notes/assumptions/124. -/
def Group.home (g : Group) : Nat := coreCluster (((g.arrays.map (·.core)).headD 0) % 216)

/-- The cluster that an L1 node lies in. -/
def nodeCluster (node : Nat) : Nat := if node < 216 then coreCluster node else node - 216

def ctrlNode (cl : Nat) : Nat := 216 + cl

/-- The kept fields of a die's core-map block (16 R343). -/
def State.coreMap (s : State) (die : Nat) : CoreMap := if h : die < 6 then s.coreMaps.get ⟨die, h⟩ else CoreMap.reset

/-- Neither fused off nor retired (16 R343). -/
def CoreMap.active (m : CoreMap) : BitVec 36 := ~~~(m.harvest ||| m.retire)

def State.isActive (s : State) (core : Nat) : Bool :=
  core < 216 && (s.coreMap (core / 36)).active.getLsbD (core % 36)

/-- The sites of a die by cluster and then by site (02 R54). -/
def sitesInOrder : List Nat := (List.range 9).flatMap clusterSites

/-- The active sites of a die in logical order (02 R54, 16 R343). -/
def CoreMap.ltab (m : CoreMap) : List Nat := sitesInOrder.filter (fun n => m.active.getLsbD n)

/-- The active count of a die (16 R343). -/
def CoreMap.count (m : CoreMap) : Nat := m.ltab.length

/-- The active cores of a die in logical order, as core numbers. -/
def State.activeCores (s : State) (die : Nat) : List Nat := (s.coreMap die).ltab.map (· + 36 * die)

/-- The logical number of a core on its die (02 R54). -/
def State.logicalOf (s : State) (core : Nat) : Nat := (s.coreMap (core / 36)).ltab.idxOf (core % 36)

/-- The module logical core number, 64·die + logical number (02 R54). -/
def State.moduleLogical (s : State) (core : Nat) : Nat := 64 * (core / 36) + s.logicalOf core

/-- The active cores of a cluster in logical order. -/
def State.clusterCores (s : State) (cl : Nat) : List Nat :=
  (s.activeCores (cl / 9)).filter (fun c => coreCluster c = cl)

/-- The teams resident on a core (02 R51). -/
def State.teamsOn (s : State) (core : Nat) : List Team :=
  s.teams.filter (fun t => t.place.any (fun p => p.core = core))

def State.teamsOf (s : State) (l : Nat) : List Team := s.teams.filter (fun t => t.launch = l)

/-- The core that a stream runs on, for a placed team. -/
def State.coreOf (s : State) : StreamId → Option Nat
  | .team t => (s.team? t).bind (fun x => x.place.map (·.core))
  | .ctrl _ => none

/-- The L1 node of a stream. -/
def State.nodeOf (s : State) : StreamId → Option Nat
  | .team t => s.coreOf (.team t)
  | .ctrl cl => some (ctrlNode cl)

/-- The cluster whose TLB a stream uses (15 R333). -/
def State.clusterOf (s : State) : StreamId → Option Nat
  | .team t => (s.coreOf (.team t)).map coreCluster
  | .ctrl cl => some cl

/-- A stream can be found and is placed on a core, or is a live control core, whose launch has not failed (08 R178). -/
def State.resident (s : State) : StreamId → Bool
  | .team t => (s.team? t).any (·.place.isSome)
  | .ctrl cl => (s.group? cl).any (fun g => g.placed && (s.launch? g.launch).any (fun l => l.lstate == .running))

/-! ## Stops asked for -/

/-- The cluster whose leaf controller passes a pre-emption request to a unit (14 R320, R322). -/
def State.unitCluster (s : State) : UnitId → Option Nat
  | .team t => s.clusterOf (.team t)
  | .ctrl cl => some cl
  | .op o => (s.op? o).map (fun x => coreCluster x.core)
  | .ballast die => some (9 * die)

/-- The unit has received a pre-emption request and starts nothing new (14 R320). -/
def State.stopping (s : State) (u : UnitId) : Bool :=
  s.collections.any (fun c => u ∈ c.told)

/-- A core is being cleared by a pre-emption: nothing new starts on it (14 R324). -/
def State.clearing (s : State) (core : Nat) : Bool := s.collections.any (fun c => core ∈ c.cores)

/-- The storage of an operation stands on a core, and was not saved with it. -/
def Storage.there : Storage → Bool
  | .global => true
  | .scratch c => c < 216
  | .window cs => cs.all (· < 216)
  | .dscratch _ => true

/-- An operation may go on: it was not saved by a pre-emption, or has been restarted (14 R321, R324). -/
def State.opGoes (s : State) (o : EngineOp) : Bool :=
  (s.launch? o.launch).any (fun l => !l.preempted) && (s.team? o.id.team).all (·.place.isSome) && o.src.there && o.dst.there
    && ((s.team? o.id.team).isSome || o.arr.all (fun k => (s.group? k.1).all (·.placed)))
    && !s.dscratch.any (fun d => d.launch = o.launch && 6 ≤ d.die && (o.src = .dscratch (d.die - 6) || o.dst = .dscratch (d.die - 6)))

/-! ## Counted events -/

/-- An event counted for the stream's core and slot (17 R373). -/
def State.countFor (s : State) (st : StreamId) (event n : Nat) : State :=
  match st with
  | .team t =>
    match (s.team? t).bind (·.place) with
    | some p => s.count p.core (some p.slot) event n
    | none => s
  | .ctrl _ => s

end Sys2Proof.Machine
end

