-- ==== Sys2Proof/Machine/Space.lean ====
section
/-! DEFINITION. Physical memory: what an address means (spec/15 R325), the page classifier (spec/09 R218, R219), the
net effect of a whole coherence transaction on the directory and the L1s (R222–R225; DESIGN CHOICE, notes/assumptions/5), and the
accesses of device-side agents. -/

namespace Sys2Proof.Machine

/-- Device memory is backed below 810 GiB (15 R325). -/
def deviceLimit : Nat := 810 * 2 ^ 30

def isDevice (pa : Nat) : Bool := pa < deviceLimit

/-- Host memory: PA[51] (15 R325). -/
def isHost (pa : Nat) : Bool := 2 ^ 51 ≤ pa && pa < 2 ^ 52

def backed (pa : Nat) : Bool := isDevice pa || isHost pa

/-- The module stack and the die that hold a device address (15 R325, 01 R14). -/
def stackOf (pa : Nat) : Nat := pa / (45 * 2 ^ 30)
def dieOfPa (pa : Nat) : Nat := stackOf pa / 3

/-- The L2 slice of its stack, and the channel of its stack, that a device address lies in (09 R210). -/
def sliceOf (pa : Nat) : Nat := pa / 128 % 16
def channelOf (pa : Nat) : Nat := 2 * sliceOf pa + pa / 2048 % 2

/-- A granule is 64 KiB, a line 128 bytes (09 R215, R210). -/
def granuleOf (pa : Nat) : Nat := pa / 65536
def lineOf (pa : Nat) : Nat := pa / 128

/-! ## Locations -/

def Loc.add (l : Loc) (n : Nat) : Loc :=
  match l with
  | .mem pa => .mem (pa + n)
  | .scratch c o => .scratch c (o + n)
  | .dscratch l d o => .dscratch l d (o + n)

def State.dscratch? (s : State) (l die : Nat) : Option DieScratch :=
  s.dscratch.find? (fun x => x.launch = l && x.die = die)

/-- The memory that a location lies in, with its poison bits and the offset there. -/
def State.region (s : State) : Loc → Memory × SMap Bool × Nat
  | .mem pa => (s.mem, s.poison, pa)
  | .scratch c o => ((s.core c).scratch, (s.core c).scratchPoison, o)
  | .dscratch l d o =>
    match s.dscratch? l d with
    | some x => (x.bytes, x.poison, o)
    | none => ([], [], o)

/-- The bytes at a location. -/
def State.locBytes (s : State) (l : Loc) (n : Nat) : List Byte :=
  let (m, _, o) := s.region l
  m.readBytes o n

/-- Some word that the bytes at a location touch is poisoned. -/
def State.locPoison (s : State) (l : Loc) (n : Nat) : Bool :=
  let (_, p, o) := s.region l
  poisonedAt p o n

/-- The process that a run-list queue belongs to. -/
def Queue.runProc (q : Queue) : Option Word := if q.signal then none else some q.proc

/-- A store to a 64-byte line that holds a watched tail invalidates it (12 R263): the tail of a signal-mapped queue is watched from its
registration on, that of a run-list queue while it is MAPPED, or UNMAPPING (R273). -/
def Queue.watched (q : Queue) : Bool := q.signal || q.st == .mapped || q.st == .unmapping

def Queue.storedAt (pa n : Nat) (q : Queue) : Queue :=
  if q.watched && pa / 64 ≤ q.tailPa / 64 && q.tailPa / 64 ≤ (pa + n - 1) / 64 then { q with tailNew := true } else q

/-- A write of bytes of one poison at a location (11 R249). -/
def State.locWrite (s : State) (l : Loc) (bs : List Byte) (q : Bool) : State :=
  match l with
  | .mem pa =>
    { s with
      mem := s.mem.writeBytes pa bs
      poison := poisonWrite s.poison pa bs.length q
      queues := s.queues.map (Queue.storedAt pa bs.length) }
  | .scratch c o => s.mapCore c (fun x =>
      { x with scratch := x.scratch.writeBytes o bs, scratchPoison := poisonWrite x.scratchPoison o bs.length q })
  | .dscratch l d o =>
    let put := fun (x : DieScratch) =>
      { x with bytes := x.bytes.writeBytes o bs, poison := poisonWrite x.poison o bs.length q }
    match s.dscratch? l d with
    | some _ => { s with dscratch := replaceFirst (fun x => x.launch = l && x.die = d) put s.dscratch }
    | none => { s with dscratch := s.dscratch ++ [put ⟨l, d, [], []⟩] }

/-! ## The classifier -/

def State.classOf (s : State) (gran : Nat) : GClass := smGet .uncl s.classes gran

/-- The lines of a granule leave the constant caches of some cores (09 R219 step 4, 10 R241). -/
def State.dropConst (s : State) (p : Nat → Bool) (gran : Nat) : State :=
  { s with constLines := s.constLines.filter (fun x => !(p x.1 && x.2 / 512 = gran)) }

/-- The class of a granule; only lines of RO granules stand in constant caches (10 R241). -/
def State.setClass (s : State) (gran : Nat) (c : GClass) : State :=
  let s := if c = .ro then s else s.dropConst (fun _ => true) gran
  { s with classes := smSet .uncl s.classes gran c }

/-- The lowest VA bit that a level's page number uses (15 R326). -/
def levelShift (lvl : Nat) : Nat :=
  match lvl with
  | 0 => 16
  | 1 => 21
  | 2 => 30
  | 3 => 36
  | _ => 48

/-- A translation leads into a granule. -/
def TlbEntry.into (e : TlbEntry) (gran : Nat) : Bool :=
  e.frame ≤ gran * 65536 && gran * 65536 < e.frame + 2 ^ levelShift e.level

/-- The class copy that a cluster's TLB keeps of a granule, UNCL for none (09 R218, 15 R333). -/
def State.copyOf (s : State) (cl gran : Nat) : GClass :=
  match s.tlb.find? (fun e => e.owner = .cluster cl && e.into gran) with
  | some e => smGet .uncl e.cls gran
  | none => .uncl

/-- The copies of a granule's class that some TLBs keep are replaced. -/
def State.setCopies (s : State) (p : TlbOwner → Bool) (gran : Nat) (c : GClass) : State :=
  { s with tlb := s.tlb.map (fun e => if p e.owner && e.into gran then { e with cls := smSet .uncl e.cls gran c } else e) }

/-- No TLB keeps a copy of the granule's class (09 R219 step 4). -/
def State.dropCopies (s : State) (gran : Nat) : State := s.setCopies (fun _ => true) gran .uncl

/-- The active cores whose cluster TLB holds the granule as RO (09 R219 step 2). -/
def State.nodesHolding (s : State) (gran : Nat) : List Nat :=
  (List.range 216).filter (fun c => s.isActive c && s.copyOf (coreCluster c) gran = .ro)

/-- The class copy lets an access of a core proceed overlapped without the home (09 R218). -/
def GClass.lets (g : GClass) (core : Nat) (write : Bool) : Bool :=
  match g with
  | .priv c w => c = core && (w || !write)
  | .ro => !write
  | .uncl => false
  | .shared => false

/-- What an access meets at the classifier. -/
inductive Classified
  | ok (s : State) (ordered : Bool)
  /-- the granule needs, or is in, a reclassification: the access waits (09 R219) -/
  | drain (s : State)

/-- The class transition of one access by a core, or by another agent, at the home of a granule of device memory (09 R218). A core's TLB
takes a copy of the class. -/
def State.classifyHome (s : State) (core : Option Nat) (write : Bool) (gran : Nat) : Classified :=
  let copied := fun (s : State) (g : GClass) =>
    match core with
    | some c => s.setCopies (· = .cluster (coreCluster c)) gran g
    | none => s
  if s.reclass.any (fun r => r.gran = gran) then .drain s
  else
    match s.classOf gran with
    | .uncl =>
      let g : GClass := match core with
        | some c => .priv c write
        | none => .shared
      .ok (copied (s.setClass gran g) g) true
    | .priv c w =>
      if core = some c then .ok (copied (s.setClass gran (.priv c (w || write))) (.priv c (w || write))) false
      else if core.isSome && !write && !w then .drain { s with reclass := s.reclass ++ [⟨gran, .ro, [c]⟩] }
      else .drain { s with reclass := s.reclass ++ [⟨gran, .shared, [c]⟩] }
    | .ro =>
      if write then .drain { s with reclass := s.reclass ++ [⟨gran, .shared, s.nodesHolding gran⟩] }
      else .ok (copied s .ro) false
    | .shared => .ok (copied s .shared) true

/-- An access meets the copy in its cluster's TLB first, and then the home (09 R218). -/
def State.classify (s : State) (core : Option Nat) (write : Bool) (gran : Nat) : Classified :=
  if core.any (fun c => (s.copyOf (coreCluster c) gran).lets c write) then .ok s false
  else s.classifyHome core write gran

/-- The classifier effect of a walker or IOD access, its drains done within the access (15 R327; DESIGN CHOICE, notes/assumptions/17).
A reclassification that is under way ends first: a read then finds RO or SHARED, and a write makes it SHARED (09 R219). -/
def State.classifyDevice (s : State) (write : Bool) (pa : Nat) : State :=
  let gran := granuleOf pa
  if !isDevice pa then s
  else if s.reclass.any (fun r => r.gran = gran) then
    if write then
      { s with reclass := replaceFirst (fun r => r.gran = gran) (fun (r : Reclass) => { r with target := .shared }) s.reclass }
    else s
  else
    match s.classOf gran with
    | .uncl => s.setClass gran .shared
    | .priv c _ => ((s.setClass gran .shared).dropCopies gran).count c none 0x07 1
    | .ro =>
      if write then
        (s.nodesHolding gran).foldl (fun s n => s.count n none 0x07 1) ((s.setClass gran .shared).dropCopies gran)
      else s
    | .shared => s

/-! ## Lines -/

def State.dirEntry (s : State) (line : Nat) : DirEntry :=
  (s.dir.find? (fun e => e.line = line)).getD ⟨line, .i, none, [], none, []⟩

/-- The directory with one entry replaced, its place kept; an entry in I with nothing open is freed (09 R222). -/
def State.setDir (s : State) (e : DirEntry) : State :=
  if e.st = .i ∧ e.busy = none ∧ e.waiting = [] then { s with dir := s.dir.filter (fun x => x.line ≠ e.line) }
  else if s.dir.any (fun x => x.line = e.line) then { s with dir := replaceFirst (fun x => x.line = e.line) (fun _ => e) s.dir }
  else { s with dir := s.dir ++ [e] }

/-- A request for a line: its entry is the most recently requested, and stands last (09 R226). -/
def State.requested (s : State) (line : Nat) : State :=
  { s with dir := s.dir.filter (fun x => x.line ≠ line) ++ s.dir.filter (fun x => x.line = line) }

def State.l1St (s : State) (node line : Nat) : Option L1St :=
  (s.l1.find? (fun x => x.node = node && x.line = line)).map (·.st)

def L1Line.at' (x : L1Line) (node line : Nat) : Bool := x.node = node && x.line = line

/-! ## The poison of copies (11 R248, R249) -/

/-- The poisoned words of a line, as it stands at its home, or with the owner that has changed it. -/
def State.homePoison (s : State) (line : Nat) : List Nat := (List.range 32).filter (fun i => smGet false s.poison (32 * line + i))

/-- The poisoned words of an L1's copy, when they are kept with it. -/
def State.ownPoison (s : State) (node line : Nat) : Option (List Nat) := (s.l1.find? (·.at' node line)).bind (·.own)

/-- A copy that has not been changed. -/
def L1Line.clean (x : L1Line) : Bool := x.st == .e || x.st == .s

/-- Clean copies keep their poison bits when those of the line change where it is held for all. DEDUCED: notes/assumptions/26. -/
def State.keepCopies (s : State) (line : Nat) : State :=
  let bits := s.homePoison line
  { s with l1 := s.l1.map (fun x => if x.line = line && x.clean then { x with own := some (x.own.getD bits) } else x) }

/-- The copy of an L1 becomes what the line holds, its poison bits with it. -/
def State.adoptCopy (s : State) (node line : Nat) : State :=
  match s.ownPoison node line with
  | none => s
  | some ws =>
    { s with
      poison := smSetList false s.poison (32 * line) ((List.range 32).map ws.contains)
      l1 := replaceFirst (·.at' node line) (fun x => { x with own := none }) s.l1 }

/-- The data of a line arrives in place of a copy. -/
def State.replaceCopy (s : State) (node line : Nat) (own : Option (List Nat)) : State :=
  { s with l1 := replaceFirst (·.at' node line) (fun x => { x with own := own }) s.l1 }

/-- The copy of an owner in E is sent on: what takes its place holds it (09 R224, R225; DEDUCED, notes/assumptions/26). -/
def State.adoptOwner (s : State) (line : Nat) : State :=
  match (s.dirEntry line).st, (s.dirEntry line).owner with
  | .e, some o => s.adoptCopy o line
  | _, _ => s

/-- The state of a line in an L1; its tag stays. A copy that is changed is the line's. -/
def State.setL1 (s : State) (node line : Nat) (st : Option L1St) : State :=
  match st with
  | none => { s with l1 := s.l1.filter (fun x => !x.at' node line) }
  | some v =>
    let s := if v = .m then s.adoptCopy node line else s
    if s.l1.any (·.at' node line) then
      { s with l1 := replaceFirst (·.at' node line) (fun x => { x with st := v }) s.l1 }
    else { s with l1 := s.l1 ++ [⟨node, line, v, none, none, none⟩] }

/-- A team touches a line of an L1 (14 R318). A line that has no tag yet takes that of the access; one that is reached under another
alias keeps its own (09 R210). -/
def State.touchL1 (s : State) (node line : Nat) (tag : Option L1Tag) (t : Option TeamId) : State :=
  { s with l1 := replaceFirst (·.at' node line) (fun x => { x with tag := x.tag.or tag, touched := t.or x.touched }) s.l1 }

def State.dropL1 (s : State) (line : Nat) : State := { s with l1 := s.l1.filter (fun x => x.line ≠ line) }

def CohMsg.line : CohMsg → Nat
  | .fwd _ l _ _ => l
  | .inv _ l => l
  | .binv _ l => l
  | .ackHome _ l _ _ => l
  | .grant _ l _ _ _ => l
  | .data _ l => l
  | .wbd _ l => l
  | .wbAck _ l => l

/-- The line's home has a transaction open, or its messages are under way: a request waits (09 R222, R224). -/
def State.lineBusy (s : State) (line : Nat) : Bool :=
  (s.dirEntry line).busy.isSome || s.net.any (fun m => m.line = line)

/-- The home takes a dirty write-back: the line is written to L2, and the entry becomes I, or S where sharers stay (09 R224). A WbD
of an L1 that is not OWNER has been answered already. -/
def State.takeWbd (s : State) (node line : Nat) : State :=
  let e := s.dirEntry line
  let s := if s.l1St node line == some .wb then s.setL1 node line none else s
  if e.owner = some node ∧ (e.st = .m ∨ e.st = .o) then
    s.setDir { e with st := if e.shr = [] then .i else .s, owner := none }
  else s

/-- A line that its owner holds in its write-back buffer: what comes to it is served from there, and its WbD counts as answered
(09 R224). -/
def State.drainWb (s : State) (line : Nat) : State :=
  (s.l1.filter (fun x => x.line = line && x.st = .wb)).foldl (fun s x => s.takeWbd x.node line) s

/-- An owner that gives a line up to a reader: M goes to O, E to S (09 R224). -/
def State.demoteOwner (s : State) (o line : Nat) : State :=
  match s.l1St o line with
  | some .m => s.setL1 o line (some .o)
  | some .e => s.setL1 o line (some .s)
  | _ => s

/-- The entry after a read of a line that an owner holds: O when the owner's copy is dirty, else S (09 R224, R225). -/
def DirEntry.afterRead (e : DirEntry) (dirty : Bool) (o : Nat) : DirEntry :=
  if dirty then { e with st := .o } else { e with st := .s, owner := none, shr := insertNew (nodeCluster o) e.shr }

/-- The L1's copy is dirty. -/
def State.holdsDirty (s : State) (node line : Nat) : Bool :=
  s.l1St node line == some .m || s.l1St node line == some .o

/-- Every L1 copy goes and the entry becomes I: the net effect of Inv and of BInv, with what is dirty written to L2 (09 R225, R226). -/
def State.dropCached (s : State) (line : Nat) : State :=
  let e := s.dirEntry line
  (s.dropL1 line).setDir { e with st := .i, owner := none, shr := [] }

/-- A dirty line written back and given up: I at the L1; the entry is S with sharers left, else I (09 R224, row WbD). DEDUCED: notes/assumptions/26. -/
def State.writeBack (s : State) (node line : Nat) : State :=
  let e := s.dirEntry line
  let s := s.setL1 node line none
  if e.owner = some node then s.setDir { e with st := if e.shr.isEmpty then .i else .s, owner := none } else s

/-- The snoop filter's set of a line: a set of the filter of the die that is the line's home, which has at most 2^24 sets (09 R226). DESIGN CHOICE:
notes/assumptions/14. -/
def filterSet (line : Nat) : Nat × Nat := (dieOfPa (128 * line), Config.filterIndex line % 2 ^ 24)

def State.filterFull (s : State) (line : Nat) : Bool :=
  let used := s.dir.filter (fun e => e.line != line && (e.st != .i || e.busy.isSome))
  if used.isEmpty then false else Config.filterWays < (used.filter (fun e => filterSet e.line = filterSet line)).length

/-- The entry that a full set evicts for a line: the least recently requested that is not BUSY (09 R226). -/
def State.filterVictim (s : State) (line : Nat) : Option Nat :=
  if s.filterFull line then
    (s.dir.find? (fun e => e.line != line && filterSet e.line = filterSet line && e.st != .i && !s.lineBusy e.line)).map (·.line)
  else none

/-- Room for a line's entry, the eviction done within the request. Where every entry of the full set is BUSY, the set takes one entry more
than its ways. DESIGN CHOICE: notes/assumptions/5. -/
def State.makeEntry (s : State) (line : Nat) : State :=
  match s.filterVictim line with
  | some v => s.dropCached v
  | none => s

/-- The lines of an L1 (09 R208), and its ways. -/
def State.l1Lines (s : State) (node : Nat) : Nat :=
  if node < 216 then 2048 - 512 * (s.core node).carve else Config.ctrlL1Lines

def l1Ways : Nat := 2 ^ (Config.l1WaysLog % 10)

/-- The set of an L1 that a virtual line falls in. -/
def State.l1Set (s : State) (node key : Nat) : Nat := Config.l1Index key % (s.l1Lines node / l1Ways)

/-- The address by which a line is indexed: its virtual line. -/
def L1Line.key (x : L1Line) : Nat := (x.tag.map (·.vline)).getD x.line

/-- A whole read transaction of a node (09 R224, RdS rows): nothing when the L1 holds the line. -/
def State.cohRead (s : State) (node : Nat) (slot : Option Nat) (line : Nat) : State :=
  let s := s.drainWb line
  match s.l1St node line with
  | some _ => s
  | none =>
    let s := ((if node < 216 then s.count node slot 0x06 1 else s).makeEntry line).requested line
    let e := s.dirEntry line
    let add := fun (e : DirEntry) => { e with shr := insertNew (nodeCluster node) e.shr }
    match e.st, e.owner with
    | .i, _ => (s.setDir { e with st := .e, owner := some node }).setL1 node line (some .e)
    | .e, some o =>
      let own := s.ownPoison o line
      (((s.demoteOwner o line).setDir (add (e.afterRead (s.holdsDirty o line) o))).setL1 node line (some .s)).replaceCopy node line own
    | .m, some o => ((s.demoteOwner o line).setDir (add (e.afterRead (s.holdsDirty o line) o))).setL1 node line (some .s)
    | _, _ => (s.setDir (add e)).setL1 node line (some .s)

/-- A whole ownership transaction of a node (09 R224, RdX and Upg rows). -/
def State.cohWrite (s : State) (node : Nat) (slot : Option Nat) (line : Nat) : State :=
  let s := s.drainWb line
  match s.l1St node line with
  | some .m => s
  | some .e => s.setL1 node line (some .m)
  | st =>
    let s := ((if node < 216 && st.isNone then s.count node slot 0x06 1 else s).makeEntry line).requested line
    let e := s.dirEntry line
    let s := if st.isNone then s.adoptOwner line else if e.owner.any (· ≠ node) then s.replaceCopy node line none else s
    let others := { s with l1 := s.l1.filter (fun x => x.line ≠ line || x.node = node) }
    (others.setDir { e with st := .m, owner := some node, shr := [] }).setL1 node line (some .m)

/-- A read made at the home for an agent outside the L1s (09 R225). -/
def State.cohHomeRead (s : State) (line : Nat) : State :=
  let s := ((s.drainWb line).requested line).adoptOwner line
  let e := s.dirEntry line
  match e.st, e.owner with
  | .e, some o => (s.demoteOwner o line).setDir (e.afterRead (s.holdsDirty o line) o)
  | .m, some o => (s.demoteOwner o line).setDir (e.afterRead (s.holdsDirty o line) o)
  | _, _ => s

/-- A write made at the slice: every L1 copy goes, what its owner held with it, and the entry becomes I (09 R225). -/
def State.cohHomeWrite (s : State) (line : Nat) : State := (s.adoptOwner line).dropCached line

/-- The lines that n bytes at an address touch. -/
def linesTouched (pa n : Nat) : List Nat :=
  if n = 0 then [] else (List.range (lineOf (pa + n - 1) - lineOf pa + 1)).map (· + lineOf pa)

/-! ## Accesses of the IOD, the walkers and the base dies -/

/-- The effects of a device-side read besides its value. -/
def State.devTouch (s : State) (pa n : Nat) (write : Bool) : State :=
  if isHost pa then s
  else
    let s := s.classifyDevice write pa
    (linesTouched pa n).foldl (fun s l => if write then s.cohHomeWrite l else s.cohHomeRead l) s

/-- A device-side write of clean bytes. -/
def State.devWrite (s : State) (pa : Nat) (bs : List Byte) : State :=
  (s.devTouch pa bs.length true).locWrite (.mem pa) bs false

/-! ## Breakpoints and trace triggers (17 R376, R379) -/

/-- Breakpoint i of a core's debug block: its address and control (17 R376). -/
def Debug.en (d : Debug) (i : Fin 4) : Bool := (d.bpc.get i).getLsbD 0
def Debug.onLane (d : Debug) (i : Fin 4) : Bool := (d.bpc.get i).getLsbD 1
def Debug.lcond (d : Debug) (i : Fin 4) : Bool := (d.bpc.get i).getLsbD 2
def Debug.condReg (d : Debug) (i : Fin 4) : Nat := ((d.bpc.get i).extractLsb' 4 8).toNat
def Debug.condVal (d : Debug) (i : Fin 4) : BitVec 20 := (d.bpc.get i).extractLsb' 12 20

def Debug.hold (d : Debug) : Bool := d.dctl.getLsbD 0
def Debug.grp (d : Debug) : Bool := d.dctl.getLsbD 1
def Debug.self (d : Debug) : Bool := d.dctl.getLsbD 2

/-- Trace triggers (17 R379, R380): a start source sets ON while there is room; a stop source clears it once the records of the cycle
are written. -/
def Debug.fired (d : Debug) (hits : List (Fin 4)) (lo : Nat) : Bool :=
  d.trig.getLsbD 0 && hits.any (fun i => i.val + 1 = (d.trig.extractLsb' lo 3).toNat)

def Debug.traceOn (d : Debug) (hits : List (Fin 4)) : Debug :=
  if d.fired hits 1 && d.trptr.toNat < d.trlen.toNat then { d with trig := d.trig ||| 0x80 } else d

def Debug.traceOff (d : Debug) (hits : List (Fin 4)) : Debug :=
  if d.fired hits 4 then { d with trig := d.trig &&& ~~~0x80 } else d

/-! ## Trace records (17 R380) -/

/-- A trace record of 32 bytes at the core's trace pointer, when there is room. The write is made at the slice, outside every
context, and makes no event: it classifies nothing. -/
def State.traceWrite (s : State) (core : Nat) (teamno : Word) (type : Nat) (pc arg : Nat) : State :=
  let d := (s.core core).dbg
  if d.trptr.toNat < d.trlen.toNat then
    let bytes := natBytes 8 s.clock ++ natBytes 4 teamno.toNat ++ natBytes 4 type ++ natBytes 8 pc ++ natBytes 8 arg
    let pa := d.trbase.toNat + 32 * d.trptr.toNat
    let s := if backed pa then (s.cohHomeWrite (lineOf pa)).locWrite (.mem pa) bytes false else s
    s.mapCore core (fun c => { c with dbg := { c.dbg with
      trptr := c.dbg.trptr + 1
      trig := if c.dbg.trptr.toNat + 1 = c.dbg.trlen.toNat then c.dbg.trig &&& ~~~0x80 else c.dbg.trig } })
  else s

/-- A trace record on a core while its recording is on. DEDUCED: notes/assumptions/32. -/
def State.traceAt (s : State) (core : Nat) (teamno : Word) (type : Nat) (pc arg : Nat) : State :=
  if (s.core core).dbg.trig.getLsbD 7 then s.traceWrite core teamno type pc arg else s

/-- A trace record of a team on its core. -/
def State.trace (s : State) (t : TeamId) (type : Nat) (pc arg : Nat) : State :=
  match s.coreOf (.team t) with
  | some core => s.traceAt core t.teamno type pc arg
  | none => s

/-- The breakpoints that a scalar instruction at an address matches: no lane condition holds for it (17 R377). -/
def Debug.scalarHits (d : Debug) (pc : Nat) : List (Fin 4) :=
  (List.finRange 4).filter (fun i => d.en i && !d.onLane i && !d.lcond i && (d.bp.get i).toNat == pc)

/-- What the match of a team's scalar instruction, at its PC in user mode, does to its core's recording. -/
def State.matchTrace (s : State) (x : Team) (f : Debug → List (Fin 4) → Debug) : State :=
  match x.place with
  | none => s
  | some p =>
    let hits := (s.core p.core).dbg.scalarHits x.sc.pc.toNat
    if x.sc.sup || hits.isEmpty then s else s.mapCore p.core (fun c => { c with dbg := f c.dbg hits })

/-- A scalar instruction that completes starts the recording before the records that it leaves are written, and stops it after them (17 R379). -/
def State.beginTrace (s : State) (x : Team) : State := s.matchTrace x Debug.traceOn
def State.endTrace (s : State) (x : Team) : State := s.matchTrace x Debug.traceOff

/-- What the host is answered after supply loss is detected (16 R358). -/
def HostReply.refused (pa : Nat) : HostReply := ⟨pa, [], false, true⟩

/-- The number at an address, little-endian. -/
def State.memNat (s : State) (pa n : Nat) : Nat := natOfBytes (s.mem.readBytes pa n)

end Sys2Proof.Machine
end

