-- ==== Sys2Proof/Machine/Xlate.lean ====
section
/-! DEFINITION. Translation: the table walk and its entries (spec/15 R326–R331), TLBs and walk caches (R328, R333),
the test of the first-touch pool (R336), permissions (R331) and dirty tracking (R339, spec/16 R356). -/

namespace Sys2Proof.Machine

/-- Who makes an access: its address space and mode, its first-touch pool, when it has an issuer with one (15 R336), the TLB that serves it, the gang that writes versions, the L1 node
it goes through, the core it counts as for the classifier (09 R218), whether its scratchpad accesses are ordered
(09 R215: in a neighbourhood launch), and its team with the slot that its misses are counted for (17 R373). -/
structure Agent where
  asid : Byte
  sup : Bool
  pgpool : Option DWord
  owner : TlbOwner
  die : Nat
  gang : Option GangId
  node : Option Nat
  core : Option Nat
  nb : Bool
  team : Option TeamId
  slot : Option Nat
  deriving DecidableEq, Repr

/-- TDETAIL.ACC (04 R93); both reads of a fetch count as fetch (20 R393). -/
def AccKind.code : AccKind → Nat
  | .read => 0
  | .write => 1
  | .atomic => 2
  | .fetch => 3
  | .head => 3
  | .probe => 0

/-- The number of VA bits that index a level's table (15 R326). -/
def levelBits (lvl : Nat) : Nat :=
  match lvl with
  | 0 => 5
  | 1 => 9
  | 2 => 6
  | 3 => 12
  | _ => 9

/-- The size in bytes of a level's table, which is its alignment (15 R326). -/
def tableSize (lvl : Nat) : Nat := 8 * 2 ^ levelBits lvl

/-- Bits [63:56] are all equal (15 R326). -/
def canonical (va : DWord) : Bool := va.extractLsb' 56 8 == 0 || va.extractLsb' 56 8 == 0xFF

/-- The 57 bits that a walk uses. -/
def va57 (va : DWord) : Nat := va.toNat % 2 ^ 57

/-- FRAME of a leaf as a physical address; NEXT of a pointer (15 R329). -/
def pteFrame (e : Nat) : Nat := natBits e 16 36 * 65536
def pteNext (e : Nat) : Nat := natBits e 8 44 * 256

/-- An entry with V = 1 that a walk treats as not mapped (15 R330). -/
def pteMalformed (lvl e : Nat) : Bool :=
  if e.testBit 1 then
    natBits e 52 12 != 0 || e.testBit 10 || e.testBit 2 || lvl == 4
      || pteFrame e % 2 ^ levelShift lvl != 0 || natBits e 8 2 == 3
  else natBits e 52 12 != 0 || natBits e 2 6 != 0 || lvl == 0 || pteNext e % tableSize (lvl - 1) != 0

/-- What a walk finds (15 R327). -/
inductive Walked
  | leaf (lvl pte e : Nat)
  | absent (lvl : Nat) (ft : Bool)
  | bad
  deriving DecidableEq, Repr

/-- The levels of a walk from a table downwards (15 R327, R328). A table that does not lie in device memory is treated as
not mapped (DEDUCED, notes/assumptions/19). -/
def State.walkFrom (asid : Byte) (die va : Nat) : List Nat → Nat → State → State × Walked
  | [], _, s => (s, .bad)
  | lvl :: rest, t, s =>
    match s.walkCache.find? (fun w => w.die = die && w.asid = asid && w.level = lvl
        && w.prefixBits = va / 2 ^ levelShift lvl) with
    | some w => State.walkFrom asid die va rest w.next s
    | none =>
      let pa := t + 8 * natBits va (levelShift lvl) (levelBits lvl)
      if !isDevice pa then (s, .bad)
      else
        let s := s.devTouch pa 8 false
        let e := s.memNat pa 8
        if !e.testBit 0 then (s, .absent lvl (lvl == 0 && e.testBit 11))
        else if pteMalformed lvl e then (s, .bad)
        else if e.testBit 1 then
          if backed (pteFrame e) then (s, .leaf lvl pa e) else (s, .bad)
        else
          let s := { s with walkCache := s.walkCache ++ [⟨die, asid, lvl, va / 2 ^ levelShift lvl, pteNext e⟩] }
          State.walkFrom asid die va rest (pteNext e) s

def State.asidCopy? (s : State) (asid : Byte) : Option AsidCopy := s.asids.find? (fun a => a.asid = asid)

/-- A walk from the root of an address space (15 R327, R332). -/
def State.walk (s : State) (asid : Byte) (die va : Nat) : State × Walked :=
  match s.asidCopy? asid with
  | some a => if a.valid then State.walkFrom asid die va [4, 3, 2, 1, 0] a.root s else (s, .bad)
  | none => (s, .bad)

/-- The first-touch pool is empty or unusable (15 R336); nothing while its leaf is in migration (15 R327). -/
def State.poolEmpty (s : State) (asid : Byte) (die : Nat) (pool : DWord) : State × Option Bool :=
  if !canonical pool then (s, some true)
  else
    match s.walk asid die (va57 pool) with
    | (s, .leaf lvl _ e) =>
      let pa := pteFrame e + va57 pool % 2 ^ levelShift lvl
      if e.testBit 12 then (s, none)
      else if !e.testBit 3 || !backed pa then (s, some true)
      else
        let s := s.devTouch pa 8 false
        (s, some (poisonedAt s.poison pa 8 || s.memNat pa 4 ≤ s.memNat (pa + 4) 4))
    | (s, _) => (s, some true)

/-- A TLB entry from a leaf: its marked bits are clear when it is filled (15 R339). -/
def TlbEntry.ofLeaf (owner : TlbOwner) (asid : Byte) (va lvl pte e : Nat) : TlbEntry where
  owner := owner
  asid := asid
  level := lvl
  page := va / 2 ^ levelShift lvl
  pte := pte
  frame := pteFrame e
  r := e.testBit 3
  w := e.testBit 4
  x := e.testBit 5
  sup := e.testBit 6
  apl := BitVec.ofNat 2 (natBits e 8 2)
  d := e.testBit 7
  marked := []
  cls := []

/-- The translations that a TLB holds at most (15 R333). -/
def TlbOwner.capacity : TlbOwner → Nat
  | .cluster _ => 4096
  | .copyEngine _ => 512
  | .gather _ => 512
  | .sward _ => 512
  | .iod => 512

/-- A TLB filled with one entry; a full TLB first loses its oldest (DESIGN CHOICE, notes/assumptions/14). -/
def State.tlbFill (s : State) (e : TlbEntry) : State :=
  let own := s.tlb.filter (fun x => x.owner = e.owner)
  let tlb :=
    if own.length < e.owner.capacity then s.tlb
    else
      match s.tlb.findIdx? (fun x => x.owner = e.owner) with
      | some i => s.tlb.eraseIdx i
      | none => s.tlb
  { s with tlb := tlb ++ [e] }

def TlbEntry.covers (e : TlbEntry) (owner : TlbOwner) (asid : Byte) (va : Nat) : Bool :=
  e.owner = owner && e.asid = asid && e.page = va / 2 ^ levelShift e.level

/-- The physical address of a virtual address under a translation. -/
def TlbEntry.pa (e : TlbEntry) (va : Nat) : Nat := e.frame + va % 2 ^ levelShift e.level

/-- What a translation comes to. A stall is a leaf in migration (15 R327). -/
inductive Xlated
  | ok (e : TlbEntry) (pa : Nat)
  | page (sub : Nat)
  | stall
  deriving DecidableEq, Repr

/-- The translation of an address for an agent, from its TLB or by a walk that fills it (15 R326–R328, R333). -/
def State.translate (s : State) (ag : Agent) (va : DWord) : State × Xlated :=
  if !canonical va then (s, .page 0)
  else
    let v := va57 va
    match s.tlb.find? (fun e => e.covers ag.owner ag.asid v) with
    | some e => (s, if backed (e.pa v) then .ok e (e.pa v) else .page 0)
    | none =>
      let s := match ag.core with
        | some c => s.count c ag.slot 0x08 1
        | none => s
      match s.walk ag.asid ag.die v with
      | (s, .leaf lvl pte e) =>
        if e.testBit 12 then (s, .stall)
        else
          let x := TlbEntry.ofLeaf ag.owner ag.asid v lvl pte e
          (s.tlbFill x, if backed (x.pa v) then .ok x (x.pa v) else .page 0)
      | (s, .absent _ ft) =>
        match ft, ag.pgpool with
        | true, some pool =>
          match s.poolEmpty ag.asid ag.die pool with
          | (s, some empty) => (s, .page (if empty then 1 else 0))
          | (s, none) => (s, .stall)
        | true, none => (s, .page 1)
        | false, _ => (s, .page 0)
      | (s, .bad) => (s, .page 0)

/-- The leaf permits the access (15 R331); DECLASS checks no permission (10 R244). -/
def TlbEntry.permits (e : TlbEntry) (k : AccKind) (sup : Bool) : Bool :=
  match k with
  | .probe => true
  | .read => (!e.sup || sup) && e.r
  | .head => (!e.sup || sup) && e.r
  | .write => (!e.sup || sup) && e.w
  | .atomic => (!e.sup || sup) && e.r && e.w
  | .fetch => (!e.sup || sup) && e.x

/-- DCOUNT rises by one: at 7/8 of the budget every resident team of the context has an event pending, a team without a place will have it
once it is placed; at the budget the protection lapses (16 R356). -/
def State.bumpDcount (s : State) (asid : Byte) : State :=
  match s.drogue.find? (fun c => c.asid = asid) with
  | none => s
  | some c =>
    let n := c.dcount + 1
    let bytes := n * 65536
    let first := !c.raised && 7 * (c.budget * 2 ^ 30) ≤ 8 * bytes
    let c' := { c with
      dcount := n
      raised := c.raised || first
      lapsed := c.lapsed || c.budget * 2 ^ 30 ≤ bytes
      later := if first then (s.teams.filter (fun t => t.id.asid = asid && t.place.isNone)).map (·.id) else c.later }
    let s := { s with drogue := replaceFirst (fun x => x.asid = asid) (fun _ => c') s.drogue }
    if first then
      { s with teams := s.teams.map (fun t =>
        if t.id.asid = asid && t.place.isSome then { t with eventDirty := true } else t) }
    else s

/-- Bit g of the dirty bitmap set by an atomic OR event; a bit that changes counts (15 R339, 16 R356). -/
def State.markBitmap (s : State) (a : AsidCopy) (g : Nat) : State :=
  let pa := a.dbbase + 8 * (g / 64) + g % 64 / 8
  let old := s.memNat pa 1
  let s := s.devTouch pa 1 true
  if old.testBit (g % 8) then s
  else (s.locWrite (.mem pa) [BitVec.ofNat 8 (old + 2 ^ (g % 8))] false).bumpDcount a.asid

/-- The leaf's D bit set by an atomic OR event, when the translation does not show it set (15 R339). -/
def State.markLeaf (s : State) (e : TlbEntry) : State :=
  if e.d then s
  else
    let s := s.devTouch e.pte 1 true
    s.locWrite (.mem e.pte) [BitVec.ofNat 8 (s.memNat e.pte 1 ||| 0x80)] false

/-- The context whose dirty bitmap tracks an address (15 R332). -/
def State.trackerOf (s : State) (asid : Byte) (va : DWord) : Option AsidCopy :=
  (s.asidCopy? asid).filter (fun a =>
    a.dbbase != 0 && a.dbvbase.toNat ≤ va.toNat && va.toNat < a.dbvbase.toNat + 65536 * a.dblen)

/-- The bitmap bit of an address, unless the translation tells that it has been set. -/
def State.markGranule (s : State) (asid : Byte) (va : DWord) (e : TlbEntry) : State :=
  match s.trackerOf asid va with
  | some a => if va57 va / 65536 ∈ e.marked then s else s.markBitmap a ((va.toNat - a.dbvbase.toNat) / 65536)
  | none => s

/-- The D bit and the bitmap bit that a write sets before its own event (15 R339). tr is the translation that the access was checked
against: it serves when the TLB has lost it since. -/
def State.markDirty (s : State) (ag : Agent) (va : DWord) (tr : Option TlbEntry) : State :=
  let v := va57 va
  match (s.tlb.find? (fun e => e.covers ag.owner ag.asid v)).or tr with
  | none => s
  | some e =>
    let t := (s.markLeaf e).markGranule ag.asid va e
    let marked := if (s.trackerOf ag.asid va).isSome then insertNew (v / 65536) e.marked else e.marked
    { t with tlb := replaceFirst (fun x => x.covers ag.owner ag.asid v) (fun _ => { e with d := true, marked := marked }) t.tlb }

/-- A leaf of an address space: where it maps, its level, where it stands and what it holds. -/
structure Leaf where
  asid : Byte
  va : Nat
  level : Nat
  pte : Nat
  e : Nat
  deriving DecidableEq, Repr

/-- The bytes of a table that memory lists. -/
def State.tableAt (s : State) (lvl t : Nat) : Memory := s.mem.filter (fun c => t ≤ c.1 && c.1 < t + tableSize lvl)

/-- The leaves below a table, ascending by address (15 R326, R327). -/
def State.leavesFrom (s : State) (asid : Byte) : List Nat → Nat → Nat → List Leaf
  | [], _, _ => []
  | lvl :: rest, t, va =>
    let table := s.tableAt lvl t
    (List.range (2 ^ levelBits lvl)).flatMap (fun i =>
      let pa := t + 8 * i
      let e := natOfBytes (table.readBytes pa 8)
      let va := va + i * 2 ^ levelShift lvl
      if !isDevice pa || !e.testBit 0 || pteMalformed lvl e then []
      else if e.testBit 1 then [⟨asid, va, lvl, pa, e⟩]
      else State.leavesFrom s asid rest (pteNext e) va)

/-- Every leaf of an address space. -/
def State.leaves (s : State) (asid : Byte) : List Leaf :=
  match s.asidCopy? asid with
  | some a => if a.valid then s.leavesFrom asid [4, 3, 2, 1, 0] a.root 0 else []
  | none => []

/-- The leaves of every registered address space. -/
def State.allLeaves (s : State) : List Leaf := s.asids.flatMap (fun a => s.leaves a.asid)

/-- The leaf maps a granule. -/
def Leaf.maps (f : Leaf) (gran : Nat) : Bool :=
  pteFrame f.e ≤ gran * 65536 && gran * 65536 < pteFrame f.e + 2 ^ levelShift f.level

/-- The mappings of a granule in every registered address space. -/
def State.mappings (s : State) (gran : Nat) : List Leaf := s.allLeaves.filter (fun f => f.maps gran)

/-- A TLB entry, a walk-cache entry and an L1 line that belong to the pages of an address space that TLBINV or ATINV names (15 R341). -/
def TlbEntry.named (asid : Byte) (va : Option Nat) (e : TlbEntry) : Bool :=
  e.asid = asid && va.all (fun v => e.page = v / 2 ^ levelShift e.level)

def WalkEntry.named (asid : Byte) (va : Option Nat) (w : WalkEntry) : Bool :=
  w.asid = asid && va.all (fun v => w.prefixBits = v / 2 ^ levelShift w.level)

def L1Line.named (asid : Byte) (va : Option Nat) (x : L1Line) : Bool :=
  x.tag.any (fun t => t.asid = asid && va.all (fun v => t.vline * 128 / 2 ^ levelShift t.level = v / 2 ^ levelShift t.level))

/-- A granule is mapped in some registered address space. -/
def State.mapped (s : State) (gran : Nat) : Bool := s.allLeaves.any (fun f => f.maps gran)

/-- A granule returns to UNCL: at once from SHARED, and by a reclassification from a class that cores may hold (09 R218, R219). One that is
under way ends in UNCL. -/
def State.returnClass (s : State) (gran : Nat) : State :=
  if s.reclass.any (fun r => r.gran = gran) then
    { s with reclass := replaceFirst (fun r => r.gran = gran) (fun (r : Reclass) => { r with target := .uncl }) s.reclass }
  else
    match s.classOf gran with
    | .uncl => s
    | .shared => (s.setClass gran .uncl).dropCopies gran
    | .priv c _ => { s with reclass := s.reclass ++ [⟨gran, .uncl, [c]⟩] }
    | .ro => { s with reclass := s.reclass ++ [⟨gran, .uncl, s.nodesHolding gran⟩] }

/-- The classified granules whose last mapping a step has taken away return to UNCL (09 R218). DEDUCED: notes/assumptions/109. -/
def State.unmappedSince (before s : State) : State :=
  if before.mem = s.mem ∧ before.asids = s.asids then s
  else
    let old := before.allLeaves
    let new := s.allLeaves
    let gone := (s.classes.map (·.1)).filter (fun g => old.any (fun f => f.maps g) && !new.any (fun f => f.maps g))
    gone.foldl State.returnClass s

/-- Every translation of a page, or of a whole address space, leaves every TLB and walk cache, and its L1 lines are
written back or dropped, with those that stand without a tag and may be its lines (15 R341). No class changes. -/
def State.invalidate (s : State) (asid : Byte) (va : Option Nat) : State :=
  let lines := s.l1.filter (fun x => x.tag.isNone || x.named asid va)
  let s := { s with
    tlb := s.tlb.filter (fun e => !e.named asid va)
    walkCache := s.walkCache.filter (fun w => !w.named asid va) }
  lines.foldl (fun s x =>
    if x.st == .m || x.st == .o || x.st == .wb then s.writeBack x.node x.line else s.setL1 x.node x.line none) s

end Sys2Proof.Machine
end

