-- ==== Sys2Proof/Machine/Fetch.lean ====
section
/-! DEFINITION. Fetching scalar and lane code: section bounds, head bits, translation and permission, in the order of
spec/20 R393 (spec/03 R58, R59; spec/05 R103). A fetch is no event, does not classify, and consumes no poison
(DEDUCED, notes/assumptions/13). -/

namespace Sys2Proof.Machine

/-- What a fetch comes to: what it read, a fault, or a leaf in migration. -/
inductive Fetched (α : Type)
  | ok (s : State) (a : α)
  | trap (s : State) (t : Trap)
  | retry (s : State)

/-- Bytes read by a fetch, or the fault of their translation or permission (15 R327, R331). -/
def State.fetchBytes (s : State) (ag : Agent) (va : DWord) (k : AccKind) (n : Nat) : Fetched (List Byte) :=
  match s.translate ag va with
  | (s, .ok e pa) => if e.permits k ag.sup then .ok s (s.mem.readBytes pa n) else .trap s ⟨.perm, k.code, va, 0⟩
  | (s, .page sub) => .trap s ⟨.page sub, k.code, va, 0⟩
  | (s, .stall) => .retry s

def State.fetchWord (s : State) (ag : Agent) (va : DWord) : Fetched Word :=
  match s.fetchBytes ag va .fetch 4 with
  | .ok s bs => .ok s (BitVec.ofNat 32 (natOfBytes bs))
  | .trap s t => .trap s t
  | .retry s => .retry s

/-! ## Scalar code -/

/-- The scalar-code section of a stream: its base and its length in words (03 R58). -/
def State.scalarSection (s : State) (st : StreamId) : DWord × Nat :=
  match st with
  | .team id =>
    match (s.team? id).bind s.entryOf with
    | some e => (e.sbase, e.slen)
    | none => (0, 0)
  | .ctrl _ =>
    match s.launchOf st with
    | some l => (l.ccsbase, l.ccslen)
    | none => (0, 0)

/-- The scalar word at a PC (05 R103). -/
def State.fetchScalar (s : State) (st : StreamId) (ag : Agent) (pc : DWord) : Fetched Word :=
  let (base, len) := s.scalarSection st
  if (pc - base).toNat < 4 * len then s.fetchWord ag pc else .trap s ⟨.perm, 3, pc, 0⟩

/-! ## Lane code -/

/-- A word of a lane-code section: its offset is tested against the section length, and then it is fetched. -/
def State.fetchLaneWord (s : State) (ag : Agent) (e : Entry) (w : Nat) : Fetched Word :=
  s.fetchWord ag (e.lbase + BitVec.ofNat 64 (4 * w))

/-- The trap of a word whose head test or length test failed (20 R393). -/
def laneHead (e : Entry) (w : Nat) : Trap := ⟨.laneHead, 3, e.lbase + BitVec.ofNat 64 (4 * w), 0⟩

/-- Consecutive code words. -/
def State.fetchLaneWords (ag : Agent) (e : Entry) : Nat → Nat → State → Fetched (List Word)
  | 0, _, s => .ok s []
  | n + 1, w, s =>
    match s.fetchLaneWord ag e w with
    | .ok s x =>
      match State.fetchLaneWords ag e n (w + 1) s with
      | .ok s xs => .ok s (x :: xs)
      | .trap s t => .trap s t
      | .retry s => .retry s
    | .trap s t => .trap s t
    | .retry s => .retry s

/-- The first of n words from w that lies at or beyond the section length. -/
def Entry.beyond (e : Entry) (w n : Nat) : Option Nat := ((List.range n).map (· + w)).find? (fun i => e.llen ≤ i)

/-- The words of the lane instruction at an offset, checked and fetched in the order of 20 R393. -/
def State.fetchLane (s : State) (ag : Agent) (e : Entry) (w : Nat) : Fetched (List Word) :=
  if e.llen ≤ w then .trap s (laneHead e w)
  else
    match s.fetchBytes ag (e.hbmap + BitVec.ofNat 64 (w / 8)) .head 1 with
    | .trap s t => .trap s t
    | .retry s => .retry s
    | .ok s hb =>
      if !(natOfBytes hb).testBit (w % 8) then .trap s (laneHead e w)
      else
        match e.beyond (w + 1) 2 with
        | some i => .trap s (laneHead e i)
        | none =>
          match State.fetchLaneWords ag e 3 w s with
          | .trap s t => .trap s t
          | .retry s => .retry s
          | .ok s ws =>
            let m := laneLitCount (ws.getD 0 0) (ws.getD 1 0) (ws.getD 2 0)
            match e.beyond (w + 3) m with
            | some i => .trap s (laneHead e i)
            | none =>
              match State.fetchLaneWords ag e m (w + 3) s with
              | .trap s t => .trap s t
              | .retry s => .retry s
              | .ok s ls => .ok s (ws ++ ls)

/-- The fields of a lane instruction. -/
def laneArgs? (i : Instr) : Option LaneArgs := (laneSig i).map (·.2)

/-- The number of words of a lane instruction (03 R71). -/
def laneWordCount (x : LaneArgs) : Nat := 3 + x.lits.length

/-- The lane instructions from an offset on that a chain holds: up to the first without HOLD, at most left of them, and
only while they fetch and decode (03 R74). A leaf in migration tells for none of them yet (15 R327). -/
def State.chainFrom (ag : Agent) (e : Entry) : Nat → Nat → State → State × Option (List Instr)
  | 0, _, s => (s, some [])
  | left + 1, w, s =>
    match s.fetchLane ag e w with
    | .ok s ws =>
      match decodeLane ws with
      | .ok (i, _) =>
        match laneArgs? i with
        | some x =>
          if x.hold then
            let (s, is) := State.chainFrom ag e left (w + laneWordCount x) s
            (s, is.map (fun is => i :: is))
          else (s, some [i])
        | none => (s, some [])
      | .error _ => (s, some [])
    | .trap s _ => (s, some [])
    | .retry s => (s, none)

end Sys2Proof.Machine
end

