-- ==== Sys2Proof/Machine/Sources.lean ====
section
/-! DEFINITION. What the next instruction of a stream reads, writes and waits for (spec/02 R52, spec/05 R104–R106, spec/09 R216), the team
that the urgency predictor favours (spec/14 R317), and the lines that it keeps in its L1 (R318). -/

namespace Sys2Proof

/-! ## Immediates and widths -/

/-- An immediate20 as an operand (03 R70). -/
def immValue (t : SrcTy) (p : BitVec 20) : DWord :=
  match t with
  | .int32 => (p.signExtend 32).setWidth 64
  | .int64 => p.signExtend 64
  | .fp32 => (p ++ 0#12).setWidth 64
  | .fp64 => p ++ 0#44
  | .packed => (p.extractLsb' 4 16 ++ p.extractLsb' 4 16).setWidth 64
  | .quad => 0

/-- The type at which a position reads its source (07 R146). -/
def SrcUse.ty : SrcUse → SrcTy
  | .val t => t
  | .unused => .int32
  | .regWord => .int32
  | .uniform => .int32
  | .number _ => .int32
  | .selector => .int32

def SrcTy.wide : SrcTy → Bool
  | .int64 => true
  | .fp64 => true
  | .int32 => false
  | .fp32 => false
  | .packed => false
  | .quad => false

/-- The registers that a vector or scalar operand of a type takes (10 R230). -/
def SrcTy.regs : SrcTy → Nat
  | .int64 => 2
  | .fp64 => 2
  | .quad => 4
  | .int32 => 1
  | .fp32 => 1
  | .packed => 1

def DstUse.regs : DstUse → Nat
  | .none => 0
  | .mask => 0
  | .w32 => 1
  | .w64 => 2
  | .quad => 4

/-- A lane instruction reads a word of a constant window, as an access of its own (07 R149, 10 R241). -/
def LaneArgs.readsWindow (a : LaneArgs) : Bool :=
  [a.a, a.b, a.c].any (fun s =>
    match s with
    | .cwin _ _ => true
    | _ => false)

end Sys2Proof

namespace Sys2Proof.Machine

/-! ## Agents of streams -/

/-- A team as it accesses memory (09 R215–R218, 15 R333). -/
def Team.agent (x : Team) (l : Launch) (core : Nat) : Agent where
  team := some x.id
  slot := x.place.map (·.slot)
  asid := x.id.asid
  sup := x.sc.sup
  pgpool := some x.sc.pgpool
  owner := .cluster (coreCluster core)
  die := core / 36
  gang := some x.gang
  node := some core
  core := some core
  nb := l.nb

/-- A control core as it accesses memory: a core of its own for the classifier, outside every gang (09 R218, 04 R98). -/
def Group.agent (g : Group) (l : Launch) : Agent where
  team := none
  slot := none
  asid := l.asid
  sup := g.sc.sup
  pgpool := some g.sc.pgpool
  owner := .cluster g.cl
  die := g.cl / 9
  gang := none
  node := some (ctrlNode g.cl)
  core := none
  nb := true

def State.agentOf (s : State) (st : StreamId) : Option Agent :=
  match st with
  | .team id =>
    match s.team? id, s.launchOf st with
    | some x, some l => x.place.map (fun p => x.agent l p.core)
    | _, _ => none
  | .ctrl cl =>
    match s.group? cl, s.launchOf st with
    | some g, some l => some (g.agent l)
    | _, _ => none

/-! ## What an instruction waits for (05 R104–R106; 09 R216) -/

/-- What a scalar instruction waits for while earlier runs of its team are unfinished (05 R105): nothing but registers; every lane
instruction of the runs; their issue; their memory events, and the team's ordered access (09 R216); or these and every outstanding access
(DEDUCED, notes/assumptions/106). RDCNT waits for the issue of what is older (17 R374). -/
inductive RunRow | free | runDone | issued | access | memory
  deriving DecidableEq, Repr

def runRow : Instr → RunRow
  | .kmov _ _ | .knot _ _ | .kand _ _ _ | .kor _ _ _ | .kxor _ _ _ | .kandn _ _ _ | .kall _ | .kclr _ | .ksetn _ _ => .runDone
  | .kpop _ _ | .kfirst _ _ | .ksum _ _ | .kmovv _ _ _ | .bkz _ _ | .bknz _ _ | .lget _ _ _ | .lput _ _ _ => .runDone
  | .setfmt _ | .rft | .trap _ | .bkpt | .sleep _ => .runDone
  | .lrun _ _ | .lsetpc _ | .rdcnt _ _ => .issued
  | .exit _ | .refill _ _ | .refillW _ _ => .memory
  | .sld _ _ _ _ _ | .sst _ _ _ _ _ | .satom _ _ _ _ _ _ | .cld _ _ _ | .declass _ => .access
  | .xcopy _ _ _ _ | .xfill _ _ _ _ | .xgath _ _ | .swbuild _ _ | .hwait _ | .htest _ _ | .hcancel _ => .memory
  | .barArr _ | .barWait _ _ | .barExp _ _ => .memory
  | .spawn _ _ | .binclose _ | .tlbinv _ | .atinv => .memory
  | _ => .free

/-- A register with the odd member of its pair. -/
def pairRegs (r : BitVec 6) : List (BitVec 6) := [r, r + 1]

def baseRegs (r : BitVec 6) : List (BitVec 6) := if even r then pairRegs r else [r]

/-- A register, or the pair when it is wide. -/
def wideRegs (r : BitVec 6) (wide : Bool) : List (BitVec 6) := if wide then pairRegs r else [r]

/-- The pair that a result is written to: that of s0 takes nothing (05 R101). -/
def pairDest (r : BitVec 6) : List (BitVec 6) := if r = 0 then [] else pairRegs r

/-- The special registers and counters of 64 bits (04 R91, 17 R372). -/
def wideName (n : Nat) : Bool :=
  n == 0x040 || n == 0x044 || n == 0x048 || n == 0x04C || n == 0x100 || n == 0x102 || (0x110 ≤ n && n ≤ 0x11F)

/-- The s registers that a scalar instruction names as its destination, when it issues beside what is older (05 R101, R108–R125; 10 R239). -/
def scalarDests : Instr → List (BitVec 6)
  | .add d _ _ | .sub d _ _ | .mul d _ _ | .mulh d _ _ | .mulhn d _ _ | .and d _ _ | .or d _ _ | .xor d _ _ | .andn d _ _ => [d]
  | .shl d _ _ | .shr d _ _ | .sra d _ _ | .min d _ _ | .max d _ _ | .minn d _ _ | .maxn d _ _ => [d]
  | .clz d _ | .ctz d _ | .popc d _ | .lih d _ | .getfmt d => [d]
  | .addi d _ _ | .andi d _ _ | .ori d _ _ | .xori d _ _ | .ceqi d _ _ | .clti d _ _ => [d]
  | .shli d _ _ | .shri d _ _ | .srai d _ _ => [d]
  | .ceq d _ _ | .cne d _ _ | .clt d _ _ | .cle d _ _ | .cltn d _ _ | .clen d _ _ | .aceq d _ _ | .acltn d _ _ => [d]
  | .aaddi d _ _ | .aadd d _ _ | .asub d _ _ | .aaddx d _ _ _ => pairDest d
  | .call a _ => pairDest a
  | .callr d _ => pairDest d
  | .kpop _ s | .kfirst _ s | .ksum _ s => [s]
  | .lget d _ _ => [d]
  | .srr d n | .rdcnt d n => if wideName n.toNat then pairDest d else [d]
  | .mbank _ d => [d]
  | .sld d _ _ _ w => if sldWidth w = some .b64 then pairDest d else [d]
  | .satom d _ _ _ _ w => if w = 1 then pairDest d else [d]
  | .cld d _ _ => [d]
  | _ => []

/-- Those that it writes: s0 takes no write (03 R62). -/
def scalarWrites (i : Instr) : List (BitVec 6) := (scalarDests i).filter (· ≠ 0)

/-- The s registers that it reads. -/
def scalarReads : Instr → List (BitVec 6)
  | .add _ a b | .sub _ a b | .mul _ a b | .mulh _ a b | .mulhn _ a b | .and _ a b | .or _ a b | .xor _ a b | .andn _ a b => [a, b]
  | .shl _ a b | .shr _ a b | .sra _ a b | .min _ a b | .max _ a b | .minn _ a b | .maxn _ a b => [a, b]
  | .ceq _ a b | .cne _ a b | .clt _ a b | .cle _ a b | .cltn _ a b | .clen _ a b => [a, b]
  | .clz _ a | .ctz _ a | .popc _ a => [a]
  | .addi _ a _ | .andi _ a _ | .ori _ a _ | .xori _ a _ | .ceqi _ a _ | .clti _ a _ => [a]
  | .shli _ a _ | .shri _ a _ | .srai _ a _ => [a]
  | .aaddi _ a _ => baseRegs a
  | .aadd _ a b | .asub _ a b | .aaddx _ a b _ | .aceq _ a b | .acltn _ a b => baseRegs a ++ baseRegs b
  | .beqz a _ | .bnez a _ | .bltz a _ | .bgez a _ | .bgtz a _ | .blez a _ => [a]
  | .jr a | .callr _ a => pairRegs a
  | .ksetn _ s | .kmovv _ _ s | .csel s _ | .setfmt s | .sleep s => [s]
  | .srw s _ => pairRegs s
  | .lget _ a b => [a, b]
  | .lput d a b => [d, a, b]
  | .sld _ a b l _ => b :: (if scalarLevel l = some .g then baseRegs a else [a])
  | .sst d a b l w => b :: (if scalarLevel l = some .g then baseRegs a else [a]) ++ wideRegs d (sstWidth w == some .b64)
  | .satom d a b l _ w => (if atomLevel l = .g then baseRegs a else [a]) ++ wideRegs b (w == 1) ++ wideRegs d (w == 1)
  | .declass a => pairRegs a
  | _ => []

/-- The s registers that a lane instruction reads (03 R69, 10 R230). -/
def laneReads (g : LaneSig) (a : LaneArgs) : List (BitVec 6) :=
  [(g.a, a.a), (g.b, a.b), (g.c, a.c)].flatMap (fun p =>
    match p.2 with
    | .sreg i => if p.1 = .unused then [] else (List.range p.1.ty.regs).map (fun n => i + BitVec.ofNat 6 n)
    | _ => [])

/-- The rest of a run may read an s register, from its code as it stands: of an instruction that cannot be fetched or decoded now, and of
those after it, any may be read (05 R104). -/
def State.runReads (ag : Agent) (e : Entry) (r : BitVec 6) : Nat → Nat → State → Bool
  | 0, _, _ => false
  | left + 1, w, s =>
    match s.fetchLane ag e w with
    | .ok s ws =>
      match decodeLane ws with
      | .ok (i, _) =>
        match laneSig i with
        | some (g, a) => (laneReads g a).contains r || State.runReads ag e r left (w + laneWordCount a) s
        | none => true
      | .error _ => true
    | .trap _ _ => true
    | .retry _ => true

/-- A register of the lanes that an outstanding access will write. -/
def Access.writesV (a : Access) (r n : Nat) : Bool :=
  match a.dest with
  | .lanes d m _ => d < r + n && r < d + m
  | _ => false

/-- A scalar register that it will write. -/
def Access.writesS (a : Access) (r : BitVec 6) : Bool :=
  match a.dest with
  | .sreg d wide _ => d ≠ 0 && (r = d || (wide && r = d + 1))
  | _ => false

/-- A lane instruction reads or writes what the access will write: its source is not available (02 R52). -/
def Access.pends (x : Access) (g : LaneSig) (a : LaneArgs) : Bool :=
  let src := fun (u : SrcUse) (s : Src) =>
    match s with
    | .vreg i => u != .unused && x.writesV i.toNat u.ty.regs
    | .sreg i => u != .unused && (List.range u.ty.regs).any (fun n => x.writesS (i + BitVec.ofNat 6 n))
    | _ => false
  src g.a a.a || src g.b a.b || src g.c a.c || (a.dk == .reg && x.writesV a.di.toNat g.dst.regs)

/-- Lane instructions that access memory, and XSWAP, which is ordered with them by its pair (09 R216; DEDUCED, notes/assumptions/106). -/
def laneMemory : Instr → Bool
  | .ld _ _ _ | .st _ _ _ | .atom _ _ _ _ | .cldLane _ _ | .swmark _ | .xswap _ _ => true
  | _ => false

/-! ## The favoured team (14 R317) -/

/-- The next instruction of a team waits for its outstanding accesses (02 R52): it accesses memory while one of them is ordered (09 R216),
or it reads or writes a register that one of them will write. -/
def State.nextHeld (s : State) (x : Team) : Bool :=
  let accs := x.sc.accs
  let ordered := accs.any (fun c => !c.overlaps)
  match s.agentOf (.team x.id), s.entryOf x with
  | some ag, some e =>
    if accs.isEmpty then false
    else if x.runLeft = 0 then
      match s.fetchScalar (.team x.id) ag x.sc.pc with
      | .ok _ w =>
        match decodeScalar w with
        | .ok i =>
          (ordered && (runRow i == .access || runRow i == .memory)) || (scalarReads i ++ scalarWrites i).any (fun r => accs.any (·.writesS r))
        | .error _ => false
      | .trap _ _ => false
      | .retry _ => false
    else
      match s.fetchLane ag e x.lanePc with
      | .ok _ ws =>
        match decodeLane ws with
        | .ok (i, _) => (laneSig i).any (fun u => (ordered && (laneMemory i || u.2.readsWindow)) || accs.any (·.pends u.1 u.2))
        | .error _ => false
      | .trap _ _ => false
      | .retry _ => false
  | _, _ => false

/-- A team that waits for another agent or for its own accesses, or is stopped, is blocked (02 R52). -/
def State.blocked (s : State) (x : Team) : Bool := x.sc.wait.isSome || x.sc.debugStopped || s.nextHeld x

def Team.slot (x : Team) : Nat := (x.place.map (·.slot)).getD 16

/-- The favoured team of a quadrant: of the slowest teams of the core that have a word there and are not blocked, the one with the
greatest deficit, ties to the lower slot. -/
def State.favoured (s : State) (core q : Nat) : Option TeamId :=
  let here := (s.core core).slowest.filterMap (fun m =>
    ((s.team? m.1).filter (fun x => x.place.any (fun p => p.core = core) && q < x.nw && !s.blocked x)).map (fun x => (x, m.2)))
  (here.foldl (fun best x =>
    match best with
    | none => some x
    | some b => if b.2 < x.2 || (b.2 == x.2 && x.1.slot < b.1.slot) then some x else best) none).map (·.1.id)

/-! ## Room in an L1 (14 R318; 09 R224) -/

/-- The favoured team of a quadrant of the core last touched the line (14 R318). -/
def State.favouredLine (s : State) (x : L1Line) : Bool :=
  x.touched.isSome && x.node < 216 && (List.range 4).any (fun q => s.favoured x.node q = x.touched)

/-- The lines of a set of which one is replaced: those not last touched by the favoured team, or all when there is no other (14 R318).
A line with a transaction open is not replaced while it is. -/
def State.replaceable (s : State) (set : List L1Line) : List L1Line :=
  let plain := set.filter (fun x => !s.favouredLine x)
  (if plain.isEmpty then set else plain).filter (fun x => !s.lineBusy x.line)

/-- The lines of which an L1 gives one up to take a line that it does not hold: nothing while it holds the line or its set has room. -/
def State.victims (s : State) (node line key : Nat) : Option (List L1Line) :=
  let own := s.l1.filter (fun x => x.node = node)
  if own.isEmpty || own.any (·.line = line) then none
  else
    let set := own.filter (fun x => s.l1Set node x.key = s.l1Set node key)
    if set.length < l1Ways then none else some (s.replaceable set)

/-- Room is made: the line given up is written back when it is dirty (09 R224). -/
def State.makeRoom (s : State) (node line key : Nat) : State :=
  match s.victims node line key with
  | none => s
  | some cs =>
    match cs[Config.l1Victim s.freeCount % cs.length]? with
    | some v =>
      let s := { s with freeCount := s.freeCount + 1 }
      if v.st == .m || v.st == .o || v.st == .wb then s.writeBack node v.line else s.setL1 node v.line none
    | none => s


end Sys2Proof.Machine
end

