-- ==== Sys2Proof/Machine/Access.lean ====
section
/-! DEFINITION. One access by an agent: versions, dependences, hardening and commit (spec/11 R252–R255), what an access
waits for before its events (spec/09 R215–R219, spec/10 R243), and the events themselves (R211, R212). -/

namespace Sys2Proof.Machine

/-! ## Versions -/

/-- The line that a location lies in, as versions name it (11 R252). -/
def Loc.tagLoc : Loc → TagLoc
  | .mem pa => .mem (lineOf pa)
  | .scratch c o => .scratch c (o / 128)
  | .dscratch l d o => .dscratch l d (o / 128)

def TagLoc.base : TagLoc → Loc
  | .mem l => .mem (128 * l)
  | .scratch c l => .scratch c (128 * l)
  | .dscratch la d l => .dscratch la d (128 * l)

/-- The latest version on a line. -/
def State.topTag (s : State) (t : TagLoc) : Option VTag := s.tags.reverse.find? (fun x => x.loc = t)

/-- The gang writes versions: protected, not hardened, not yet committed (11 R252, R255). -/
def State.versions (s : State) (g : GangId) : Bool := (s.gang? g).any (fun x => x.prot && !x.hardened)

/-- The poison bits of the 32 words of a line. -/
def State.linePoison (s : State) (t : TagLoc) : List Bool :=
  (List.range 32).map (fun i => s.locPoison (t.base.add (4 * i)) 4)

/-- A version of a line opened by a gang, over what the line holds now (11 R252; DEDUCED, notes/assumptions/7). -/
def State.pushTag (s : State) (t : TagLoc) (g : GangId) : State :=
  { s with tags := s.tags ++ [⟨t, g, s.locBytes t.base 128, s.linePoison t⟩] }

/-- A line's earlier contents written back (11 R256 step 4). -/
def State.restoreTag (s : State) (t : VTag) : State :=
  let s := s.locWrite t.loc.base t.bytes false
  ((List.range 32).zip t.poison).foldl (fun s (i, q) =>
    if q then s.locWrite (t.loc.base.add (4 * i)) (s.locBytes (t.loc.base.add (4 * i)) 4) true else s) s

def addDep (y x : GangId) (s : State) : State :=
  if x = y then s else s.mapGang y (fun g => { g with deps := insertNew x g.deps })

/-- The gangs that a set depends on, transitively, and itself. -/
def State.depClosure (s : State) : Nat → List GangId → List GangId
  | 0, gs => gs
  | n + 1, gs =>
    State.depClosure s n (gs.foldl (fun acc g => ((s.gang? g).map (·.deps)).getD [] |>.foldl (fun a x => insertNew x a) acc) gs)

def State.dependsOn (s : State) (g : GangId) : List GangId := s.depClosure s.gangs.length [g]

/-- An access that waits for a gang's commit waits no longer. -/
def Access.wakeVersion (g : GangId) (a : Access) : Access :=
  match a.wait with
  | some (.version o _) => if o = g then { a with wait := none } else a
  | _ => a

/-- A take or a close that waits for it waits no longer either (11 R253, R254). -/
def wakeVersion (g : GangId) (sc : Scalar) : Scalar :=
  { sc.mapAccs (Access.wakeVersion g) with
    wait := match sc.wait with
      | some (.version o since) => if o = g then none else some (.version o since)
      | w => w }

/-- The same for an operation. -/
def EngineOp.wakeVersion (g : GangId) (o : EngineOp) : EngineOp :=
  if o.stalled.any (fun x => x.1 = g) then { o with stalled := none } else o

/-- A change of every stream's registers. -/
def State.mapStreams (s : State) (f : Scalar → Scalar) : State :=
  { s with teams := s.teams.map (fun t => { t with sc := f t.sc }),
           groups := s.groups.map (fun g => { g with sc := f g.sc }) }

/-- Tags of a committed gang cleared from a record, a shard, a bin, a launch and another gang (11 R254). -/
def Rec.clearTag (g : GangId) (r : Rec) : Rec := if r.tag = some g then { r with tag := none } else r
def Shard.clearTag (g : GangId) (h : Shard) : Shard := { h with recs := h.recs.map (Rec.clearTag g) }
def Bin.clearTag (g : GangId) (b : Bin) : Bin := if b.closeTag = some g then { b with closeTag := none } else b
def Launch.clearTag (g : GangId) (l : Launch) : Launch := { l with bins := l.bins.map (Bin.clearTag g) }
def Team.clearTag (g : GangId) (t : Team) : Team :=
  { t with startRecs := t.startRecs.map (Rec.clearTag g), refillRecs := t.refillRecs.map (fun r => (r.1, r.2.clearTag g)) }
def Gang.clearDep (g : GangId) (x : Gang) : Gang :=
  { x with deps := x.deps.filter (· ≠ g), past := x.past.map (Team.clearTag g) }

/-- A gang's versions become the committed lines, its tags on lines, records and closes are cleared, and accesses
stalled on it proceed, at one point (11 R254). -/
def State.commitGang (s : State) (g : GangId) : State :=
  let s' := { s with
    tags := s.tags.filter (fun t => t.gang ≠ g), shards := s.shards.map (Shard.clearTag g),
    launches := s.launches.map (Launch.clearTag g), teams := s.teams.map (Team.clearTag g), gangs := s.gangs.map (Gang.clearDep g) }
  ({ s' with ops := s'.ops.map (EngineOp.wakeVersion g) }).mapStreams (wakeVersion g)

/-- A stall or budget event becomes pending in a gang's teams (11 R255, 04 R96). -/
def State.raiseVersionFull (s : State) (g : GangId) (sub : BitVec 7) : State :=
  { s with teams := s.teams.map (fun t => if t.gang = g then { t with eventVersion := some sub } else t) }

/-- Hardening: every gang that g depends on and then g commits its versions and runs on unprotected; sub is the
sub-cause of VERSION_FULL, none for a host write (11 R255; DEDUCED, notes/assumptions/20). -/
def State.harden (s : State) (g : GangId) (sub : Option (BitVec 7)) : State :=
  (s.dependsOn g).reverse.foldl (fun s x =>
    if s.versions x then
      let s := (s.commitGang x).mapGang x (fun y => { y with hardened := true, past := [] })
      match sub with
      | some c => s.raiseVersionFull x c
      | none => s
    else s) s

/-- The version budget of a gang in lines (11 R252, 12 R275). -/
def State.budgetLines (s : State) (g : GangId) : Nat :=
  match s.gang? g with
  | some x => ((s.launch? x.launch).map (·.vbudget)).getD 16 * 8192
  | none => 0

/-- The effect of an access on the versions of a line, or the gang it stalls on (11 R252, R253, R255). -/
def State.versionAccess (s : State) (gang : Option GangId) (write : Bool) (t : TagLoc) : State × Option GangId :=
  let bare := fun (s : State) => (s, (s.topTag t).map (·.gang))
  match gang with
  | none => bare s
  | some y =>
    if s.versions y then
      let s := match s.topTag t with
        | some x => addDep y x.gang s
        | none => s
      if write && !(s.tags.any (fun x => x.loc = t && x.gang = y)) then
        if s.budgetLines y ≤ (s.tags.filter (fun x => x.gang = y)).length then bare (s.harden y (some 0))
        else (s.pushTag t y, none)
      else (s, none)
    else bare s

/-! ## The new value of an atomic -/

/-- The lesser and the greater of two values, compared signed or unsigned (05 R108, 07 R160). -/
def lesser {w : Nat} (signed : Bool) (a b : BitVec w) : Bool := if signed then a.slt b else a.ult b

def minOf {w : Nat} (signed : Bool) (a b : BitVec w) : BitVec w := if lesser signed b a then b else a
def maxOf {w : Nat} (signed : Bool) (a b : BitVec w) : BitVec w := if lesser signed a b then b else a

def wdBytes : Wd → Nat
  | .w32 => 4
  | .w64 => 8

/-- The new value of an atomic over w bits (10 R236); none for a CAS that fails. -/
def atomApply {w : Nat} (op : AtomOp) (m c cmp : BitVec w) : Option (BitVec w) :=
  match op with
  | .add => some (m + c)
  | .and => some (m &&& c)
  | .or => some (m ||| c)
  | .xor => some (m ^^^ c)
  | .min => some (minOf true m c)
  | .max => some (maxOf true m c)
  | .minn => some (minOf false m c)
  | .maxn => some (maxOf false m c)
  | .swap => some c
  | .cas => if m = cmp then some c else none

/-- An atomic's new value at its width, as bytes. -/
def atomBytes (op : AtomOp) (t : Wd) (m c cmp : DWord) : Option (List Byte) :=
  match t with
  | .w32 => (atomApply op (m.setWidth 32) (c.setWidth 32) (cmp.setWidth 32)).map (fun v => natBytes 4 v.toNat)
  | .w64 => (atomApply op m c cmp).map (fun v => natBytes 8 v.toNat)

/-! ## What an access waits for -/

/-- An access may perform, waits for another agent, or finds a transaction or migration open and is tried again. -/
inductive Ready
  | go (s : State) (ordered : Bool)
  | block (s : State) (w : Wait)
  | retry (s : State)

/-- The CXL.cache agent's side of an access to host memory (10 R243). -/
def State.hostReady (s : State) (pa : Nat) (write : Bool) : Ready :=
  let line := pa / 64
  match s.hostLines.find? (fun h => h.line = line) with
  | some h =>
    if h.ready && (h.excl || !write) then .go s true
    else if h.ready then
      let ask := fun (x : HostLine) => { x with excl := true, ready := false, err := false }
      .block { s with hostLines := replaceFirst (fun x => x.line = line) ask s.hostLines } (.cxl line)
    else .block s (.cxl line)
  | none => .block { s with hostLines := s.hostLines ++ [⟨line, write, false, false⟩] } (.cxl line)

/-- A stream outside every protected gang has an access that stalls no more, and that has still to reach the line (11 R253: a stalled
access has performed no event, so a new version of the line waits). DEDUCED: notes/assumptions/103. -/
def State.claimed (s : State) (t : TagLoc) : Bool :=
  let mine := fun (sc : Scalar) => sc.accs.any (fun a => a.begun && a.events.any (fun e => e.spot.loc.tagLoc = t))
  s.teams.any (fun x => !s.versions x.gang && mine x.sc) || s.groups.any (fun g => mine g.sc)

/-- The version side of an access, or what it waits for. -/
def State.versionReady (s : State) (ag : Agent) (opens : Bool) (t : TagLoc) (next : State → Ready) : Ready :=
  if opens && ag.gang.any s.versions && s.claimed t then .retry s
  else
    match s.versionAccess ag.gang opens t with
    | (s, some owner) => .block s (.version owner s.clock)
    | (s, none) => next s

/-- The tag under which an L1 takes the line of an access (15 R333). -/
def Spot.tag (p : Spot) (ag : Agent) : Option L1Tag :=
  match p.va, p.tr with
  | some va, some e => some ⟨ag.asid, va57 va / 128, e.level⟩
  | _, _ => none

/-- The line by which an L1 indexes what an access brings in: the virtual one, where there is one. -/
def Spot.key (p : Spot) (ag : Agent) (line : Nat) : Nat := ((p.tag ag).map (·.vline)).getD line

/-- A constant read is served from its core's constant cache, which it may do while the cluster's TLB holds the line's granule as RO
(10 R241). -/
def State.fromConst (s : State) (ag : Agent) (p : Spot) (line : Nat) : Bool :=
  p.via == .const && ag.node.any (fun n => n < 216 && s.copyOf (coreCluster n) (line / 512) = .ro)

/-- A line in a core's constant cache. One that is not there is read at its home, and is held from then on. DESIGN CHOICE: notes/assumptions/5. -/
def State.constRead (s : State) (n line : Nat) : State :=
  if s.constLines.contains (n, line) then s else { (s.cohHomeRead line) with constLines := s.constLines ++ [(n, line)] }

/-- The agent's L1 has no room for the line until a transaction of another line ends (14 R318). -/
def State.crowded (s : State) (ag : Agent) (p : Spot) (line : Nat) : Bool :=
  match ag.node with
  | some n => p.via != .slice && !s.fromConst ag p line && s.victims n line (p.key ag line) == some []
  | none => false

/-- The coherence side of an event of device memory (09 R217, R224, R225; 10 R237). -/
def State.coheres (s : State) (ag : Agent) (write : Bool) (p : Spot) (line : Nat) : State :=
  match ag.node with
  | some n =>
    if p.via = .slice then s.cohHomeWrite line
    else if s.fromConst ag p line then s.constRead n line
    else
      let s := s.makeRoom n line (p.key ag line)
      (if write then s.cohWrite n ag.slot line else s.cohRead n ag.slot line).touchL1 n line (p.tag ag) ag.team
  | none => if write then s.cohHomeWrite line else s.cohHomeRead line

/-- Everything an access does or waits for before its event: class, version and coherence (09 R215–R219, R224;
11 R253). held tells that its class was taken before (09 R215); write marks a write or an atomic, and opens one that will write
(10 R236: an atomic that does not is a read). -/
def State.ready (s : State) (ag : Agent) (held write opens : Bool) (p : Spot) : Ready :=
  match p.loc with
  | .mem pa =>
    if isHost pa then
      let s := match ag.gang with
        | some g => if opens && s.versions g then s.harden g none else s
        | none => s
      s.hostReady pa write
    else if s.lineBusy (lineOf pa) || s.crowded ag p (lineOf pa) then .retry s
    else
      match if held then .ok s false else s.classify ag.core write (granuleOf pa) with
      | .drain s => .block s (.reclass (granuleOf pa))
      | .ok s ordered =>
        s.versionReady ag opens p.loc.tagLoc (fun s => .go (s.coheres ag write p (lineOf pa)) (ordered || ag.core.isNone))
  | .scratch _ _ => s.versionReady ag opens p.loc.tagLoc (fun s => .go s (ag.nb || ag.core.isNone))
  | .dscratch _ _ _ => s.versionReady ag opens p.loc.tagLoc (fun s => .go s true)

/-! ## Events -/

/-- The host answered an access to a line with an error (10 R243). -/
def State.hostErr (s : State) (l : Loc) : Bool :=
  match l with
  | .mem pa => isHost pa && s.hostLines.any (fun h => h.line = pa / 64 && h.err)
  | _ => false

/-- The L1 from which a read is served (10 R237, R241). -/
def State.copyNode (s : State) (ag : Agent) (p : Spot) : Option Nat :=
  match p.loc with
  | .mem pa => if p.via = .slice || s.fromConst ag p (lineOf pa) then none else ag.node
  | .scratch _ _ => none
  | .dscratch _ _ _ => none

/-- The words that n bytes of an L1's copy give, where the copy has poison bits of its own (11 R249). -/
def State.copyWords (s : State) (node : Option Nat) (l : Loc) (n : Nat) (ws : List PWord) : List PWord :=
  match l, node with
  | .mem pa, some k =>
    match s.ownPoison k (lineOf pa) with
    | some own =>
      let bad := fun (i : Nat) => (wordsTouched (pa + 4 * i) (Nat.min n 4)).any (fun w => own.contains (w % 32))
      ws.mapIdx (fun i w => { w with poison := bad i })
    | none => ws
  | _, _ => ws

/-- The words that a read event of n bytes at a location gives, the low word first (11 R249, 10 R243). -/
def State.readWords (s : State) (l : Loc) (n : Nat) : List PWord :=
  let err := s.hostErr l
  if n ≤ 4 then [⟨BitVec.ofNat 32 (natOfBytes (s.locBytes l n)), err || s.locPoison l n⟩]
  else (List.range (n / 4)).map (fun i =>
    ⟨BitVec.ofNat 32 (natOfBytes (s.locBytes (l.add (4 * i)) 4)), err || s.locPoison (l.add (4 * i)) 4⟩)

/-- The dirty marks of a write at a place. -/
def State.dirtied (s : State) (ag : Agent) (p : Spot) : State :=
  match p.va with
  | some va => s.markDirty ag va p.tr
  | none => s

/-- The bytes of a write event; an error from the host is logged instead (10 R243). -/
def State.landed (s : State) (l : Loc) (bs : List Byte) (q : Bool) : State :=
  match l with
  | .mem pa => if s.hostErr l then { s with errlog := s.errlog ++ [.hostWrite pa] } else s.locWrite l bs q
  | _ => s.locWrite l bs q

/-- A write event of bytes of one poison, with the dirty marks that precede it (15 R339). -/
def State.writeEvent (s : State) (ag : Agent) (p : Spot) (bs : List Byte) (q : Bool) : State := (s.dirtied ag p).landed p.loc bs q

/-- What an atomic writes at a location as it stands: nothing for a CAS that fails, nor over a poisoned word (10 R236). -/
def State.atomicValue (s : State) (l : Loc) (op : AtomOp) (t : Wd) (c cmp : DWord) : PPair × Option (List Byte) :=
  let ws := s.readWords l (wdBytes t)
  let m : PPair := ⟨ws.getD 0 .zero, ws.getD 1 .zero⟩
  (m, if m.poison then none else atomBytes op t m.val c cmp)

/-- One atomic event: the old value with its poison, and the write when there is one (10 R236). -/
def State.atomicEvent (s : State) (ag : Agent) (p : Spot) (op : AtomOp) (t : Wd) (c cmp : DWord) :
    State × PPair :=
  match s.atomicValue p.loc op t c cmp with
  | (m, some bs) => (s.writeEvent ag p bs false, m)
  | (m, none) => (s, m)

/-- The kind of access that an event is for the classifier and the protocol (09 R218), and whether it will write. -/
def EvOp.touches : EvOp → Bool
  | .read _ => false
  | .write _ => true
  | .atomic _ _ _ _ => true

def State.opens (s : State) (e : AccEvent) : Bool :=
  match e.op with
  | .read _ => false
  | .write _ => true
  | .atomic op t c cmp => (s.atomicValue e.spot.loc op t c cmp).2.isSome

/-- The class of one event's access, taken as it issues, and whether it is ordered (09 R215, R218); or the reclassification that it waits for. -/
def State.classEvent (s : State) (ag : Agent) (e : AccEvent) : Classified :=
  match e.spot.loc with
  | .mem pa => if isHost pa then .ok s true else
    match s.classify ag.core e.op.touches (granuleOf pa) with
    | .ok s ordered => .ok s (ordered || ag.core.isNone)
    | .drain s => .drain s
  | .scratch _ _ => .ok s (ag.nb || ag.core.isNone)
  | .dscratch _ _ _ => .ok s true

/-- The classes of an access are taken at its issue, those of every lane; it is ordered when one of them is (09 R215, 10 R234). -/
def State.classAll (ag : Agent) : List AccEvent → State → Bool → Ready
  | [], s, ordered => .go s ordered
  | e :: es, s, ordered =>
    match s.classEvent ag e with
    | .ok s o => State.classAll ag es s (ordered || o)
    | .drain s => .block s (.reclass (match e.spot.loc with
      | .mem pa => granuleOf pa
      | .scratch _ _ => 0
      | .dscratch _ _ _ => 0))

/-- The version side of every event of an access: a stall stands before all of them (11 R253). -/
def State.versionAll (ag : Agent) : List AccEvent → State → Ready
  | [], s => .go s false
  | e :: es, s =>
    let host := match e.spot.loc with
      | .mem pa => isHost pa
      | .scratch _ _ => false
      | .dscratch _ _ _ => false
    if host then State.versionAll ag es s
    else
      match s.versionReady ag (s.opens e) e.spot.loc.tagLoc (fun s => .go s false) with
      | .go s _ => State.versionAll ag es s
      | .block s w => .block s w
      | .retry s => .retry s

/-- Every event of an access made ready in order; the access is ordered when one of them is (10 R234). DEDUCED: notes/assumptions/34. -/
def State.readyAll (ag : Agent) (held : Bool) : List AccEvent → State → Bool → Ready
  | [], s, ordered => .go s ordered
  | e :: es, s, ordered =>
    match s.ready ag held e.op.touches (s.opens e) e.spot with
    | .go s o => State.readyAll ag held es s (ordered || o)
    | .block s w => .block s w
    | .retry s => .retry s

/-- An event still to come was checked against a translation that TLBINV or ATINV names (15 R341). -/
def Access.under (asid : Byte) (va : Option Nat) (a : Access) : Bool := a.events.any (fun e => e.spot.tr.any (TlbEntry.named asid va))

/-- The outstanding accesses that a removal concerns are marked, and whether one of them is left. -/
def Access.removed (asid : Byte) (va : Option Nat) (a : Access) : Access := if a.under asid va then { a with stale := true } else a

/-- The same of what an operation's access that waits was checked against. -/
def EngineOp.under (asid : Byte) (va : Option Nat) (o : EngineOp) : Bool := o.held.any (fun h => h.2.tr.any (TlbEntry.named asid va))

def EngineOp.removed (asid : Byte) (va : Option Nat) (o : EngineOp) : EngineOp := if o.under asid va then { o with stale := true } else o

def State.markStale (s : State) (asid : Byte) (va : Option Nat) : State :=
  ({ s with ops := s.ops.map (EngineOp.removed asid va) } : State).mapStreams (Scalar.mapAccs (Access.removed asid va))

def State.staleLeft (s : State) (asid : Byte) (va : Option Nat) : Bool :=
  let left := fun (sc : Scalar) => sc.accs.any (fun a => a.stale && a.under asid va)
  s.teams.any (fun x => left x.sc) || s.groups.any (fun g => left g.sc) || s.ops.any (fun o => o.stale && o.under asid va)

/-- One event performed: the words that it reads (09 R211). -/
def State.perform1 (s : State) (ag : Agent) (e : AccEvent) : State × List PWord :=
  match e.op with
  | .read n => (s, s.copyWords (s.copyNode ag e.spot) e.spot.loc n (s.readWords e.spot.loc n))
  | .write bs => (s.writeEvent ag e.spot bs false, [])
  | .atomic op t c cmp =>
    match s.atomicEvent ag e.spot op t c cmp with
    | (s, m) => (s, if t = .w64 then [m.lo, m.hi] else [m.lo])

/-- Events performed in order, with the words that each lane reads. -/
def State.performAll (ag : Agent) : List AccEvent → State → State × List (Nat × PWord)
  | [], s => (s, [])
  | e :: es, s =>
    let (s, ws) := s.perform1 ag e
    let (s, rest) := State.performAll ag es s
    (s, ws.map (fun w => (e.spot.lane, w)) ++ rest)

/-- The CXL.cache agent lets go of the host lines of events that have performed. -/
def State.releaseHost (s : State) (ps : List Spot) : State :=
  { s with hostLines := s.hostLines.filter (fun h => !ps.any (fun p =>
      match p.loc with
      | .mem pa => isHost pa && pa / 64 = h.line
      | _ => false)) }

/-- The words of one lane among those read. -/
def wordsOf (got : List (Nat × PWord)) (j : Nat) : List PWord := (got.filter (fun x => x.1 = j)).map (·.2)

end Sys2Proof.Machine
end

