-- ==== Sys2Proof/Machine/Barrier.lean ====
section
/-! DEFINITION. Barrier instances: their fields, arrival, byte counts, completion, release and leaving
(spec/17 R363–R369). -/

namespace Sys2Proof.Machine

/-- Whether an instance is the one that a team's name n means (17 R363). -/
def Barrier.isFor (b : Barrier) (launch : Nat) (t : TeamId) (n : BitVec 3) : Bool :=
  b.launch = launch && b.name = n && b.parts.any (fun p => p.team = t)

def State.barrier? (s : State) (t : Team) (n : BitVec 3) : Option Barrier :=
  s.barriers.find? (fun b => b.isFor t.launch t.id n)

def State.mapBarrier (s : State) (t : Team) (n : BitVec 3) (f : Barrier → Barrier) : State :=
  { s with barriers := replaceFirst (fun b => b.isFor t.launch t.id n) f s.barriers }

def Barrier.part? (b : Barrier) (t : TeamId) : Option Part := b.parts.find? (fun p => p.team = t)

def Barrier.mapPart (b : Barrier) (t : TeamId) (f : Part → Part) : Barrier :=
  { b with parts := replaceFirst (fun p => p.team = t) f b.parts }

/-- The tree's latency from completion to release (17 R365). -/
def Barrier.latency (b : Barrier) : Nat := if b.nbhd then 16 else 4

/-- Every participant has arrived and no byte is pending (17 R365). -/
def Barrier.done (b : Barrier) : Bool := !b.parts.isEmpty && b.parts.all (·.arrived) && b.pb == 0

/-- A completed phase: its status kept, the next phase begun, release due after the tree's latency (17 R365). -/
def Barrier.complete (b : Barrier) (now : Nat) : Barrier :=
  { b with
    phase := b.phase + 1, lstat := BitVec.ofBool b.pbpois ++ BitVec.ofBool b.abn, pbpois := false, abn := false,
    parts := b.parts.map (fun p => { p with arrived := false }), releaseAt := some (now + b.latency) }

/-- The completion test (17 R365). -/
def Barrier.test (b : Barrier) (now : Nat) : Barrier := if b.done then b.complete now else b

/-- An arrival; a second one in a phase has no effect (17 R369). -/
def Barrier.arrive (b : Barrier) (t : TeamId) (pc : DWord) : Barrier :=
  match b.part? t with
  | none => b
  | some p =>
    if p.arrived then b
    else b.mapPart t (fun p => { p with arrived := true, arrph := b.phase, arrPc := pc, pend := true })

/-- The predictor counts a participant's instructions from its BAR.ARR, which itself does not count (14 R317). -/
def Barrier.counts (b : Barrier) (t : TeamId) (n : Nat) : Barrier := b.mapPart t (fun p => { p with base := n })

/-- A phase completion leaves a record in the traces of the participants' cores (17 R380). -/
def State.traceBarrier (s : State) (before after : Barrier) : State :=
  if before.phase = after.phase then s
  else
    after.parts.foldl (fun s p =>
      let pc := ((s.team? p.team).map (·.sc.pc.toNat)).getD 0
      s.trace p.team 5 pc (after.name.toNat + 2 ^ 32 * before.phase.toNat)) s

/-- A change to a team's instance followed by the completion test. -/
def State.changeBarrier (s : State) (t : Team) (n : BitVec 3) (f : Barrier → Barrier) : State :=
  match s.barrier? t n with
  | none => s
  | some b =>
    let after := (f b).test s.clock
    (s.mapBarrier t n (fun _ => after)).traceBarrier b after

/-- A participant leaves its instances; an instance without participants ends (17 R366). -/
def State.leaveBarriers (s : State) (t : TeamId) : State :=
  let leave := fun (b : Barrier) => { b with parts := b.parts.filter (fun p => p.team ≠ t) }
  let go := fun (b : Barrier) => if b.parts.any (fun p => p.team = t) then (leave b).test s.clock else b
  let s' := { s with barriers := (s.barriers.map go).filter (fun b => !b.parts.isEmpty) }
  s.barriers.foldl (fun acc b => acc.traceBarrier b (go b)) s'

/-- A byte count lands at its instance: written bytes or, marked abandoned, bytes that will not be written
(17 R367). A report for an instance that has ended is discarded (R366). -/
def Barrier.land (b : Barrier) (r : ByteReport) (now : Nat) : Barrier :=
  ({ b with pb := b.pb - r.bytes, abn := b.abn || r.abandoned } : Barrier).test now

/-- The barrier instance that an operation counts its bytes into: that of its issuing team or neighbourhood. -/
def Barrier.takes (b : Barrier) (r : ByteReport) : Bool :=
  b.launch = r.launch && b.gid = r.gid && b.name = r.name && (b.nbhd || b.parts.any (fun p => p.team = r.op.team))

/-- A fresh instance of a name for a list of teams of one gang (17 R363). -/
def Barrier.fresh (launch : Nat) (gid : Word) (n : BitVec 3) (nbhd : Bool) (teams : List TeamId) : Barrier where
  launch := launch
  gid := gid
  name := n
  nbhd := nbhd
  parts := teams.map (fun t => ⟨t, false, 0, 0, false, 0⟩)
  phase := 0
  pb := 0
  pbpois := false
  abn := false
  lstat := 0
  releaseAt := none

/-- The instances that the start of a gang's teams creates (17 R363). -/
def Launch.barriers (l : Launch) (gid : Word) (teams : List TeamId) : List Barrier :=
  (List.range 8).flatMap (fun i =>
    if !l.barUsed.getLsbD i then []
    else if l.barNbhd.getLsbD i then [Barrier.fresh l.id gid (BitVec.ofNat 3 i) true teams]
    else teams.map (fun t => Barrier.fresh l.id gid (BitVec.ofNat 3 i) false [t]))

/-- The route tags that one core needs for teams of a launch on it (17 R364). -/
def Launch.tagsFor (l : Launch) (teams : Nat) : Nat :=
  let used := (List.range 8).filter (fun i => l.barUsed.getLsbD i)
  let team := (used.filter (fun i => !l.barNbhd.getLsbD i)).length
  let nbhd := (used.filter (fun i => l.barNbhd.getLsbD i)).length
  if teams = 0 then 0 else team * teams + nbhd

/-- The route tags in use on a core: one for each instance with a participant there (17 R364). -/
def State.tagsUsed (s : State) (core : Nat) : Nat :=
  (s.barriers.filter (fun b => b.parts.any (fun p => s.coreOf (.team p.team) = some core))).length

end Sys2Proof.Machine
end

