-- ==== Sys2Proof/Machine/Device.lean ====
section
/-! DEFINITION. What the IOD and the engines do for others: IOD reads and writes through a context's translations
(spec/12 R259, R266, R279), queue states in the descriptors (R259, R270, R272), and the end of an engine operation
with its status area, handle and byte counts (spec/13 R290, R293, R294). -/

namespace Sys2Proof.Machine

/-! ## The IOD -/

/-- The IOD as an agent of an address space. It runs outside every gang, with supervisor access
(DEDUCED, notes/assumptions/21). -/
def iodAgent (asid : Byte) : Agent where
  asid := asid
  sup := true
  pgpool := none
  owner := .iod
  die := 1
  gang := none
  node := none
  core := none
  nb := false
  team := none
  slot := none

/-- A virtual address as the IOD translates it for a kind of access; nothing when it does not translate or is not permitted. A leaf in
migration stalls the turn (15 R327). -/
def State.iodXlate (s : State) (asid : Byte) (va : DWord) (k : AccKind) : State × Option Nat :=
  match s.translate (iodAgent asid) va with
  | (s, .ok e pa) => (s, if e.permits k true then some pa else none)
  | (s, .page _) => (s, none)
  | (s, .stall) => ({ s with migrating := true }, none)

/-- The IOD's read of n bytes at a virtual address. -/
def State.iodRead (s : State) (asid : Byte) (va : DWord) (n : Nat) : State × Option (List Byte) :=
  match s.iodXlate asid va .read with
  | (s, some pa) => (s.devTouch pa n false, some (s.mem.readBytes pa n))
  | (s, none) => (s, none)

/-- The IOD's write at a virtual address; false when it did not translate. -/
def State.iodWrite (s : State) (asid : Byte) (va : DWord) (bs : List Byte) : State × Bool :=
  match s.iodXlate asid va .write with
  | (s, some pa) => ((s.markDirty (iodAgent asid) va none).devWrite pa bs, true)
  | (s, none) => (s, false)

/-- A turn of the IOD or of a leaf controller. One that meets a leaf in migration stalls: it has no effect, and is made again later (15 R327;
DESIGN CHOICE, notes/assumptions/111). -/
def State.unlessMigrating (s : State) (f : State → State) : State :=
  let t := f { s with migrating := false }
  if t.migrating then s else t

/-! ## The ASID table (15 R332) -/

/-- A little-endian field of a byte structure. -/
def leAt (bs : List Byte) (off n : Nat) : Nat := natOfBytes ((bs.drop off).take n)

/-- The entry of an ASID as the IOD copies it. -/
def State.readAsidEntry (s : State) (asid : Byte) : AsidCopy :=
  let pa := s.asidbase.toNat + 32 * asid.toNat
  let bs := s.mem.readBytes pa 32
  let root := leAt bs 0 8
  { asid := asid
    valid := backed pa && root.testBit 0
    clean := natBits root 1 11 == 0 && natBits root 52 12 == 0
    root := natBits root 12 40 * 4096
    dbbase := leAt bs 8 8
    dbvbase := BitVec.ofNat 64 (leAt bs 16 8)
    dblen := leAt bs 24 8 }

/-- The copy made at the first register command of an ASID. Translations and walk-cache entries of the ASID from before then go, so that a
changed entry takes effect (15 R332). DEDUCED: notes/assumptions/122. -/
def State.copyAsid (s : State) (asid : Byte) : State :=
  match s.asidCopy? asid with
  | some _ => s
  | none => { (s.invalidate asid none) with asids := s.asids ++ [s.readAsidEntry asid] }

/-- The copy is used until the last queue of the ASID has been deregistered: until none is registered and no launch that one
accepted is live (12 R261) or has its status to be written. -/
def State.dropAsids (s : State) : State :=
  { s with asids := s.asids.filter (fun a =>
      s.queues.any (fun q => q.asid = a.asid)
        || s.launches.any (fun l => l.asid = a.asid && (l.lstate == .running || s.statDue.contains l.id))) }

/-! ## Command links (14 R311, 16 R361) -/

def State.link (s : State) (cl : Nat) : CmdLink := (s.links.find? (fun k => k.cl = cl)).getD (CmdLink.reset cl)

def State.setLink (s : State) (k : CmdLink) : State :=
  { s with links := s.links.filter (fun x => x.cl ≠ k.cl) ++ [k] }

/-- A message sent with a permit; without one it waits, and none is dropped. -/
def CmdLink.sendDown (k : CmdLink) (m : LinkMsg) : CmdLink :=
  if k.downPermits = 0 || !k.downWait.isEmpty then { k with downWait := k.downWait ++ [m] }
  else { k with downPermits := k.downPermits - 1, down := k.down ++ [m] }

def CmdLink.sendUp (k : CmdLink) (m : LinkMsg) : CmdLink :=
  if k.upPermits = 0 || !k.upWait.isEmpty then { k with upWait := k.upWait ++ [m] }
  else { k with upPermits := k.upPermits - 1, up := k.up ++ [m] }

/-- The oldest message taken: its permit returns, and a waiting message uses it. -/
def CmdLink.tookDown (k : CmdLink) : CmdLink :=
  match k.downWait with
  | m :: rest => { k with down := k.down.drop 1 ++ [m], downWait := rest }
  | [] => { k with down := k.down.drop 1, downPermits := k.downPermits + 1 }

def CmdLink.tookUp (k : CmdLink) : CmdLink :=
  match k.upWait with
  | m :: rest => { k with up := k.up.drop 1 ++ [m], upWait := rest }
  | [] => { k with up := k.up.drop 1, upPermits := k.upPermits + 1 }

def State.sendDown (s : State) (cl : Nat) (m : LinkMsg) : State := s.setLink ((s.link cl).sendDown m)
def State.sendUp (s : State) (cl : Nat) (m : LinkMsg) : State := s.setLink ((s.link cl).sendUp m)

/-! ## Queues -/

/-- The STATE word of a descriptor (12 R259). -/
def Queue.stateWord (q : Queue) : Nat :=
  (match q.st with
    | .idle => 0
    | .mapped => 1
    | .unmapping => 2
    | .faulted => 3) + (if q.pend then 8 else 0) + 16 * q.code

/-- A queue changed, and its STATE written to its descriptor (12 R259). -/
def State.putQueue (s : State) (num : Nat) (f : Queue → Queue) : State :=
  let s := s.mapQueue num f
  match s.queue? num with
  | some q => s.devWrite (q.descPa + 0x24) (natBytes 4 q.stateWord)
  | none => s

/-- The slots of the signal-mapped class, and those that its queues hold: a queue keeps its slot until its state is saved
(12 R271, R273; 14 R308). DEDUCED: notes/assumptions/49. -/
def State.signalSlots (s : State) : Nat := 128 - s.rlslots
def Queue.holdsSlot (q : Queue) : Bool := q.signal && (q.st == .mapped || q.st == .unmapping)

/-- A queue takes a slot (12 R272). The tail of a run-list queue, which was not watched, is read. -/
def Queue.map (q : Queue) : Queue := { q with st := .mapped, pend := false, order := none, tailNew := q.tailNew || !q.signal }

/-- The queue that has waited longest for a slot (12 R273). -/
def State.firstWaiting (s : State) : Option Queue :=
  (s.queues.filter (fun q => q.order.isSome && q.st == .idle)).foldl (fun best q =>
    match best with
    | none => some q
    | some b => if q.order.getD 0 < b.order.getD 0 then some q else best) none

/-- The queue that replacement takes: MAPPED, signal-mapped, its last tail change the oldest (12 R272). -/
def State.oldestMapped (s : State) : Option Queue :=
  (s.queues.filter (fun q => q.signal && q.st == .mapped)).foldl (fun best q =>
    match best with
    | none => some q
    | some b => if q.lastChange < b.lastChange then some q else best) none

/-- Free slots go to the queues that wait, in order; the first that finds none maps by replacement (12 R272, R273). -/
def State.serveSlots : Nat → State → State
  | 0, s => s
  | n + 1, s =>
    match s.firstWaiting with
    | none => s
    | some q =>
      if s.signalSlots = 0 then s
      else if (s.queues.filter (·.holdsSlot)).length < s.signalSlots then State.serveSlots n (s.putQueue q.num Queue.map)
      else if s.queues.any (fun x => x.signal && x.st == .unmapping) then s
      else
        match s.oldestMapped with
        | some v => s.putQueue v.num (fun x => { x with st := .unmapping })
        | none => s

def State.serve (s : State) : State := State.serveSlots s.queues.length s

/-- A fault halts a queue's processing and frees its slot; FPOS goes to the descriptor (12 R259, R270, R272). -/
def State.faultQueue (s : State) (num code : Nat) (fpos : DWord) : State :=
  match s.queue? num with
  | none => s
  | some q =>
    ((s.putQueue num (fun q => { q with st := .faulted, pend := false, order := none, code := code, fpos := fpos })).devWrite
      (q.descPa + 0x28) (natBytes 8 fpos.toNat)).serve

/-! ## The status block -/

/-- The status block of a launch (12 R279). -/
def Launch.statusBlock (l : Launch) : List Byte :=
  let r := l.krec.getD ⟨0, 0, 0, 0, 0, 0, 0, 0, 0⟩
  let st := match l.lstate with
    | .running => 0
    | .complete => 1
    | .failed => 2
    | .saved => 0
  natBytes 4 st ++ natBytes 4 l.kills ++ natBytes 4 r.gid.toNat ++ natBytes 4 r.teamno.toNat
    ++ natBytes 4 r.tcause.toNat ++ natBytes 4 r.tdetail.toNat ++ natBytes 8 r.tpc.toNat ++ natBytes 8 r.taddr.toNat
    ++ natBytes 4 r.tlpc.toNat ++ natBytes 4 r.tlane.toNat ++ natBytes 4 l.failcode ++ natBytes 12 0
    ++ natBytes 128 r.tk0.toNat ++ natBytes 64 0

/-- The status block written again; a write that no longer translates is logged (12 R279), and one that meets a leaf in migration waits. -/
def State.writeStatus (s : State) (lid : Nat) : State :=
  match s.launch? lid with
  | none => s
  | some l =>
    if l.stat = 0 then s
    else
      let log := fun (s : State) => { s with errlog := s.errlog ++ [.statWrite lid] }
      match s.translate (iodAgent l.asid) l.stat with
      | (s, .stall) => { s with statDue := insertNew lid s.statDue }
      | (s, .ok e pa) =>
        if e.permits .write true then (s.markDirty (iodAgent l.asid) l.stat (some e)).devWrite pa l.statusBlock else log s
      | (s, .page _) => log s

/-- The status blocks that wait are tried again as time passes. -/
def State.writeDue (s : State) : State := s.statDue.foldl (fun s l => s.writeStatus l) { s with statDue := [] }

/-! ## Engine operations -/

/-- The STATE and CLASS codes of a handle (13 R290). -/
def HState.code : HState → Nat
  | .idle => 0
  | .running => 1
  | .complete => 2
  | .stopped => 3
  | .cancelled => 4

def EngClass.code : EngClass → Nat
  | .xcopy => 1
  | .xfill => 2
  | .xgath => 3
  | .swbuild => 4

/-- The TLB that an operation's accesses go through (15 R333). -/
def EngineOp.owner (o : EngineOp) : TlbOwner :=
  match o.cls with
  | .xcopy => .copyEngine o.die
  | .xfill => .copyEngine o.die
  | .xgath => .gather (coreCluster o.core)
  | .swbuild => .sward o.die

/-- The gang that forked an operation. -/
def EngineOp.agentGang (o : EngineOp) : GangId := ⟨o.id.team.asid, o.gid⟩

/-- An operation as an agent: its issuer's mode and pool at issue, its gang's versions (11 R252, 15 R331, R336). -/
def EngineOp.agent (o : EngineOp) : Agent where
  asid := o.id.team.asid
  sup := o.sup
  pgpool := some o.pgpool
  owner := o.owner
  die := o.die
  gang := some o.agentGang
  node := none
  core := none
  nb := true
  team := none
  slot := none

/-- Offsets of SCAUSE and PROG in the descriptor, and the size of PROG (13 R296, R298, R301). -/
def EngClass.statusArea : EngClass → Nat × Nat × Nat
  | .xcopy => (0x70, 0x78, 8)
  | .xfill => (0x70, 0x78, 8)
  | .xgath => (0x30, 0x38, 8)
  | .swbuild => (0x38, 0x3C, 4)

/-- A gang that an operation's access waits for, and since when (11 R255). -/
def EngineOp.stall (o : EngineOp) (g : Option GangId) (now : Nat) : EngineOp :=
  match g, o.stalled with
  | some x, some (y, t) => { o with stalled := some (x, if x = y then t else now) }
  | some x, none => { o with stalled := some (x, now) }
  | none, _ => { o with stalled := none }

/-- The final write of SCAUSE and PROG (13 R294), where the descriptor lies. -/
def EngineOp.statusEvents (o : EngineOp) (e : TlbEntry) (pa : Nat) : List AccEvent :=
  let (a, b, n) := o.cls.statusArea
  let at' := fun (off : Nat) (bs : List Byte) => (⟨⟨0, some (o.desc + BitVec.ofNat 64 off), some e, .mem (pa + off), .l1⟩, .write bs⟩ : AccEvent)
  [at' a (natBytes 4 (o.cause + 256 * o.kind.toNat)), at' b (natBytes n o.prog)]

/-- What an access of the operation to an address was checked against, when it waits since then (15 R335). -/
def EngineOp.heldSpot (o : EngineOp) (a : DWord) (write : Bool) : Option Spot :=
  (o.held.find? (fun h => h.1 = write && h.2.va = some a)).map (·.2)

/-- The operation waits with an access that has passed its checks. -/
def EngineOp.hold (o : EngineOp) (h : List (Bool × Spot)) : EngineOp := { o with held := h, stale := o.stale && h == o.held }

/-- It has none such. -/
def EngineOp.freed (o : EngineOp) : EngineOp := { o with stalled := none, held := [], stale := false }

/-- The translation of an access of an operation: the one that it was checked against, when it waits, else its TLB's or a walk's. -/
def State.opXlate (s : State) (o : EngineOp) (a : DWord) (write : Bool) : State × Xlated :=
  match o.heldSpot a write with
  | some ⟨_, _, some e, .mem pa, _⟩ => (s, .ok e pa)
  | _ => s.translate o.agent a

/-- What the final write of an operation comes to: it has been made, or omitted because the descriptor does not translate or may not be
written (13 R294), or it waits, for a gang, for the host or for a leaf in migration, with what it was checked against. -/
inductive StatusRes
  | made (s : State)
  | waits (s : State) (g : Option GangId) (held : List (Bool × Spot))

def State.writeOpStatus (s : State) (o : EngineOp) : StatusRes :=
  match s.opXlate o o.desc true with
  | (s, .page _) => .made s
  | (s, .stall) => .waits s none []
  | (s, .ok e pa) =>
    if !e.permits .write o.sup then .made s
    else
      let es := o.statusEvents e pa
      let held : List (Bool × Spot) := [(true, ⟨0, some o.desc, some e, .mem pa, .l1⟩)]
      match State.readyAll o.agent false es s false with
      | .block s (.version g _) => .waits s (some g) held
      | .block s _ => .waits s none held
      | .retry s => .waits s none held
      | .go s _ => .made ((State.performAll o.agent es s).1.releaseHost (es.map (·.spot)))

/-- The elements of a traversal (13 R297). -/
def Desc.elements : Desc → Nat
  | .copy _ _ _ _ _ ext _ _ _ _ => ext.foldl (· * ·) 1
  | .gath _ _ _ tiles _ _ _ _ => tiles
  | .sward _ _ nx _ _ _ _ _ _ => nx

/-- The bytes that an operation will never write, from its checked descriptor (13 R293). -/
def EngineOp.unwritten (o : EngineOp) : Nat :=
  match o.body with
  | some (.copy fill src dst esize ndim ext sstr dstr slvl dlvl) =>
    ((Desc.copy fill src dst esize ndim ext sstr dstr slvl dlvl).elements - o.prog) * esize
  | _ => 0

/-- A byte count of an operation on its way to its barrier, 12 cycles (13 R293, 17 R365). -/
def State.reportBytes (s : State) (o : EngineOp) (bytes : Nat) (abandoned : Bool) : State :=
  match o.count with
  | some n => { s with reports := s.reports ++
      [⟨o.id, o.launch, o.gid, n, BitVec.ofNat 64 bytes, abandoned, s.clock + 12⟩] }
  | none => s

/-- The handle of an operation takes a new state, while it still names the operation (13 R290). -/
def State.setOpHandle (s : State) (o : EngineOp) (st : HState) : State :=
  s.mapTeam o.id.team (fun t =>
    let h := t.sc.handle o.handle
    if h.seq = o.id.seq && h.st = .running then { t with sc := t.sc.setHandle o.handle { h with st := st } } else t)

/-- The operation is joined: it leaves the machine, and its leaf controller reports it (09 R221, 02 R49, 16 R361). -/
def State.joinOp (s : State) (o : OpId) : State :=
  match s.op? o with
  | some x =>
    if x.joined then { s with ops := s.ops.filter (fun y => y.id ≠ o) }
    else ({ s with ops := s.ops.filter (fun y => y.id ≠ o) } : State).sendUp (coreCluster x.core) (.done x.launch)
  | none => s

/-- The gang of a team has no other live team, and every operation it forked has ended: it has ended (11 R254). -/
def State.gangOver (s : State) (g : GangId) : Bool :=
  !(s.teams.any (fun t => t.gang = g))
    && !(s.ops.any (fun o => o.id.team.asid = g.asid && o.gid = g.gid && o.st = .running))

def Gang.finish (overs : GangId → Bool) (g : Gang) : Gang := if overs g.id then { g with ended := true } else g

/-- Gangs marked ended when their last team has retired and their operations have ended (11 R254). An unprotected or hardened
gang needs no commit and is gone. -/
def State.settleGangs (s : State) : State :=
  { s with gangs := (s.gangs.map (Gang.finish s.gangOver)).filter (fun g => !(g.ended && (!g.prot || g.hardened))) }

/-- An operation that has ended and whose team has retired joins the launch (02 R47, R49). -/
def State.joinOrphan (s : State) (o : OpId) : State := if (s.team? o.team).isSome then s else s.joinOp o

/-- What follows the final write of an operation: its handle changes, and a stop or a cancel reports the bytes it will never write
(13 R293–R295, R303; 17 R380). -/
def State.closeOp (s : State) (o : EngineOp) : State :=
  let s := if o.st = .complete then s else s.reportBytes o o.unwritten true
  let s := (s.mapOp o.id (fun _ => o)).setOpHandle o o.st
  ((s.traceAt o.core o.id.team.teamno 4 o.pc.toNat (o.id.seq.toNat + 2 ^ 48 * o.st.code)).joinOrphan o.id).settleGangs

/-- An operation ends in a state, with the cause, address and kind that R294 records, once its status has been written; until then it
runs on. -/
def State.endOp (s : State) (o : EngineOp) (st : HState) (cause : Nat) : State :=
  let addr := if cause = 6 ∨ cause = 7 ∨ cause = 8 then o.desc else o.addr
  let kind : BitVec 2 := if cause = 0 ∨ cause = 5 ∨ cause = 6 ∨ cause = 8 then 0 else if cause = 7 then 1 else o.kind
  let o := { o with cause := cause, addr := addr, kind := kind, tile := none }
  match s.writeOpStatus o with
  | .made s => s.closeOp { o.freed with st := st, ending := none }
  | .waits s g held => s.mapOp o.id (fun _ => { (o.stall g s.clock).hold held with ending := some (st, cause) })

end Sys2Proof.Machine
end

