-- ==== Sys2Proof/Machine/Shards.lean ====
section
/-! DEFINITION. The shards of bins: the entry that a start from them would use, readiness and timers (spec/02 R44, R45; spec/13 R280–R282;
spec/14 R312; spec/21 R395). -/

namespace Sys2Proof.Machine

/-- The shard's time stands still: what is left of its timer is kept, one more than the cycles (14 R324 step 1, 21 R395). -/
def Shard.freeze (now : Nat) (h : Shard) : Shard :=
  match h.frozen with
  | some _ => h
  | none =>
    { h with
      frozen := some (match h.timer with
        | some t => t - now + 1
        | none => 0)
      timer := none }

/-- The time that is left of a frozen shard's timer, in whole µs, a running one's at least 1 (21 R395). -/
def Shard.remaining (h : Shard) : Nat :=
  match h.frozen with
  | none => 0
  | some 0 => 0
  | some (r + 1) => Nat.max 1 ((r + Config.cyclesPerUs - 1) / Config.cyclesPerUs)

def State.freezeShards (s : State) (p : Shard → Bool) : State :=
  { s with shards := s.shards.map (fun h => if p h then h.freeze s.clock else h) }

/-- New starts of launches stop, and their shards and timers are frozen. DEDUCED: notes/assumptions/83. -/
def State.hold (s : State) (ls : List Nat) : State :=
  ({ s with launches := s.launches.map (fun l => if ls.contains l.id then { l with preempted := true } else l) } : State).freezeShards
    (fun h => ls.contains h.launch)

/-- The entry whose start a shard tests: the next in its rotation, or the lead team's entry of a neighbourhood launch when it
names the bin (02 R36, R45). -/
def Launch.testedEntry (l : Launch) (h : Shard) : Option Entry :=
  if l.nb then
    match l.entries.find? (fun e => e.pos = 0) with
    | some e => if e.bin = h.bin then some e else none
    | none => none
  else
    match l.entries[h.rot]? with
    | some e => if e.bin = h.bin then some e else none
    | none => none

/-- The shard is ready to start a team: a full team's worth, or at least one record with its timer expired, which a closed bin
counts as (02 R44, 13 R282). -/
def Launch.shardReady (l : Launch) (h : Shard) : Bool :=
  match l.testedEntry h, l.bin? h.bin with
  | some e, some b =>
    32 * e.n ≤ h.recs.length || (!h.recs.isEmpty && (h.expired || b.closed))
  | _, _ => false

/-- The timer of a bin in cycles from now; none when it never expires (13 R282). -/
def Bin.deadline (b : Bin) (now : Nat) : Option Nat :=
  if b.timer = 0 then none else some (now + b.timer * Config.cyclesPerUs)

/-- A shard after a change of its records: the timer runs from when it becomes non-empty, and readiness is dated
(13 R282, 14 R312): with the number seq, unless it was ready already. A frozen shard's timer stays off until it is thawed, and then runs in
full (21 R395). -/
def Launch.settled (l : Launch) (now seq : Nat) (old h : Shard) : Shard :=
  let h :=
    if h.recs.isEmpty then { h with timer := none, frozen := h.frozen.map (fun _ => 0), expired := false }
    else if old.recs.isEmpty then
      match h.frozen with
      | none => { h with timer := (l.bin? h.bin).bind (fun b => b.deadline now), expired := false }
      | some _ => { h with frozen := some (((l.bin? h.bin).bind (fun b => b.deadline 0)).elim 0 (· + 1)), expired := false }
    else h
  { h with ready := if l.shardReady h then (match h.ready with
      | some t => some t
      | none => some seq) else none }

/-- A change of one shard. -/
def State.changeShard (s : State) (lid bin die : Nat) (f : Shard → Shard) : State :=
  match s.launch? lid with
  | some l => { s.mapShard lid bin die (fun h => l.settled s.clock s.readySeq h (f h)) with readySeq := s.readySeq + 1 }
  | none => s

/-- The shards that a test picks changed at one event; they become ready together. -/
def State.changeShards (s : State) (p : Shard → Bool) (f : Shard → Shard) : State :=
  { s with
    shards := s.shards.map (fun h =>
      match s.launch? h.launch with
      | some l => if p h then l.settled s.clock s.readySeq h (f h) else h
      | none => h)
    readySeq := s.readySeq + 1 }

/-- Every shard of a bin judged again. -/
def State.settleBin (s : State) (lid bin : Nat) : State := s.changeShards (fun h => h.launch = lid && h.bin = bin) id

end Sys2Proof.Machine
end

