-- ==== Sys2Proof/Machine/Contain.lean ====
section
/-! DEFINITION. A team's start values (spec/02 R46), what a team leaves behind, and the containment of errors: killing
gangs with everything that depends on them, relaunch, and the failure of a launch (spec/11 R248, R256; spec/12 R279). -/

namespace Sys2Proof.Machine

/-! ## Start values -/

/-- The scalar registers at a team's start: s1 the argument pointer, s2 the number of records taken (02 R46). -/
def startRegs (arg : Word) (taken : Nat) : Vector PWord 64 :=
  ((Vector.replicate 64 PWord.zero).set 1 (PWord.clean arg)).set 2 (PWord.clean (BitVec.ofNat 32 taken))

/-- The lane registers v0–v3 of the lanes that hold records (02 R19, R46). -/
def startVregs (recs : List (Nat × Rec)) : SMap PWord :=
  recs.foldl (fun m (j, r) =>
    let m := smSet PWord.zero m j (PWord.clean r.w0)
    let m := smSet PWord.zero m (1024 + j) (PWord.clean r.w1)
    let m := smSet PWord.zero m (2048 + j) (PWord.clean r.w2)
    smSet PWord.zero m (3072 + j) (PWord.clean r.w3)) []

/-- The stream registers at a team's start (02 R46, 04 R91). -/
def Launch.startScalar (l : Launch) (e : Entry) (taken : Nat) : Scalar :=
  { Scalar.start with
    regs := startRegs e.arg taken
    pc := e.sbase + BitVec.ofNat 64 e.sentry
    fmt := e.fmt
    tvec := l.tvec &&& ~~~3
    pgpool := l.pgpool }

/-- A team at its start with the records it took, by lane (02 R46). Its identity and place are kept. -/
def Team.started (t : Team) (l : Launch) (e : Entry) (recs : List (Nat × Rec)) : Team :=
  { t with
    sc := l.startScalar e recs.length
    vregs := startVregs recs
    masks := (Vector.replicate 16 0).set 0 (maskOf (recs.map (·.1)))
    kv := lanesBelow (32 * t.nw) &&& ~~~(maskOf (recs.map (·.1)))
    latches := []
    seq := 0
    tlpc := 0
    tlane := 0
    tk0 := 0
    lanePc := e.lentry
    runLeft := 0
    chainPos := 0
    chainStart := 0
    pushes := 0
    chainReads := none
    chainLog := []
    begun := []
    pendTrap := none
    eventVersion := none
    eventDirty := false
    refillRecs := []
    anew := false
    instrs := 0
    xarr := none }

/-! ## Leaving a core -/

/-- A PRIV granule of a core returns to UNCL when no team is left there of a context that uses it: of one whose tables map it, or that has a
translation of it in the cluster's TLB still (09 R218; DEDUCED, notes/assumptions/22). -/
def State.releasePriv (s : State) (core : Nat) : State :=
  let asids := (s.teamsOn core).map (·.id.asid)
  let uses := fun (g : Nat) => s.tlb.any (fun e => e.owner = .cluster (coreCluster core)
    && e.into g && e.asid ∈ asids) || asids.any (fun a => (s.leaves a).any (fun f => f.maps g))
  let left := fun (x : Nat × GClass) =>
    match x.2 with
    | .priv c _ => c = core && !uses x.1
    | _ => false
  let gone := (s.classes.filter left).map (·.1)
  gone.foldl (fun s g => s.dropCopies g) { s with classes := s.classes.filter (fun x => !left x) }

/-- A team leaves the machine: its slot and registers are freed and it leaves its barrier instances
(02 R47, 17 R366). -/
def State.removeTeam (s : State) (t : TeamId) : State :=
  let core := s.coreOf (.team t)
  let s := s.leaveBarriers t
  let s := { s with teams := s.teams.filter (fun x => x.id ≠ t) }
  match core with
  | some c => s.releasePriv c
  | none => s

/-- The matrix group that a team is a member of: one of its launch, with its core among the array cores (08 R177). -/
def State.groupOfTeam (s : State) (t : Team) : Option Group :=
  s.groups.find? (fun g => g.launch = t.launch && t.seat.any (fun c => g.arrays.any (fun a => a.core = c)))

/-- A retired team is remembered while its gang may still be killed and relaunched, with its seat in its matrix group (11 R256). -/
def State.remember (s : State) (x : Team) : State :=
  let seat := (s.groupOfTeam x).bind (fun _ => x.seat)
  if s.versions x.gang then s.mapGang x.gang (fun g => { g with past := g.past ++ [{ x with place := none, savedOn := seat }] }) else s

/-- A team retires (02 R47): its leaf controller reports it, and its operations that have ended join (R49). DESIGN CHOICE: notes/assumptions/44. -/
def State.retireTeam (s : State) (t : TeamId) : State :=
  let s := match s.team? t with
    | some x => s.remember x
    | none => s
  let s := match s.team? t, s.clusterOf (.team t) with
    | some x, some cl => s.sendUp cl (.done x.launch)
    | _, _ => s
  let s := s.removeTeam t
  let ended := s.ops.filter (fun o => o.id.team = t && o.st ≠ .running)
  (ended.foldl (fun s o => s.joinOp o.id) s).settleGangs

/-! ## Gang ids -/

/-- The next gang id: the next value of the counter that no live gang holds (02 R37). -/
def nextGid (used : List Word) : Nat → Word → Word
  | 0, g => g
  | n + 1, g => if g ∈ used then nextGid used n (g + 1) else g

def State.newGid (s : State) : Word × State :=
  let used := s.gangs.map (·.id.gid)
  let g := nextGid used used.length s.gangSeq
  (g, { s with gangSeq := g + 1 })

/-! ## Killing -/

/-- The teams of a matrix group: teams of its launch on its array cores, with those that have retired from there while their gangs can still
be killed (08 R177). -/
def State.groupTeams (s : State) (x : Group) : List Team :=
  (s.teams ++ s.gangs.flatMap (·.past)).filter (fun t => t.launch = x.launch && t.seat.any (fun c => x.arrays.any (fun a => a.core = c)))

/-- The matrix groups that a gang has a team in, and the gangs of a matrix group. -/
def State.groupsOf (s : State) (g : GangId) : List Group := s.groups.filter (fun x => (s.groupTeams x).any (fun t => t.gang = g))

def State.gangsOfGroup (s : State) (x : Group) : List GangId := (s.groupTeams x).map (·.gang)

/-- A gang whose kill fails its launch, and the FAILCODE: an uncontained error, a hardened gang, an unprotected gang,
or a fourth kill (11 R256, 12 R279). -/
def Gang.failcode (g : Gang) (uncontained : Bool) : Option Nat :=
  if g.hardened then some (if uncontained then 4 else 2)
  else if !g.prot then some (if uncontained then 4 else 1)
  else if 3 ≤ g.kills then some (if uncontained then 4 else 3)
  else none

/-- A kill set under construction: the killed gangs, the failing launches with their FAILCODEs, and the gangs of those launches,
which stop without a kill of their own (11 R256, 12 R279). -/
structure KillSet where
  gangs : List GangId
  fails : List (Nat × Nat)
  stopped : List GangId
  deriving DecidableEq, Repr

/-- One widening of a kill: dependents, the gangs of shared matrix groups, and what depends on versions that a failing launch
discards (11 R256 steps 1, 2). A launch with an uncontained error fails with that code, whichever gang of it fails it; else the first gang
that the kill reached gives the code (20 R394, 12 R279). -/
def State.widenKill (s : State) (grave : List Nat) (k : KillSet) : KillSet :=
  let dependents := (s.gangs.filter (fun g => g.deps.any (· ∈ k.gangs))).map (·.id)
  let orphans := (s.gangs.filter (fun g => g.deps.any (· ∈ k.stopped) && !k.fails.any (fun f => f.1 = g.launch))).map (·.id)
  let peers := k.gangs.flatMap (fun g => (s.groupsOf g).flatMap s.gangsOfGroup)
  let gangs := (dependents ++ orphans ++ peers).foldl (fun a x => insertNew x a) k.gangs
  let fails := (gangs.filterMap s.gang?).foldl (fun fs g =>
    match g.failcode (grave.contains g.launch) with
    | some c => if fs.any (fun f => f.1 = g.launch) then fs else fs ++ [(g.launch, c)]
    | none => fs) k.fails
  ⟨gangs, fails, (s.gangs.filter (fun g => fails.any (fun f => f.1 = g.launch))).map (·.id)⟩

def State.killSet (s : State) (grave : List Nat) : Nat → KillSet → KillSet
  | 0, k => k
  | n + 1, k => State.killSet s grave n (s.widenKill grave k)

/-- The versions of the killed gangs discarded: undo copies written back, the latest first; their records and closes
removed (11 R256 step 4). -/
def State.undoGangs (s : State) (gs : List GangId) : State :=
  let mine := s.tags.filter (fun t => t.gang ∈ gs)
  let s := mine.reverse.foldl (fun s t => s.restoreTag t) s
  let live := fun (r : Rec) => !r.tag.any (· ∈ gs)
  let shard := fun (h : Shard) => { h with recs := h.recs.filter live }
  let bin := fun (b : Bin) => if b.closeTag.any (· ∈ gs) then { b with closed := false, closeTag := none } else b
  let launch := fun (l : Launch) => { l with bins := l.bins.map bin }
  let touched := fun (l : Launch) => l.bins.any (fun b => b.closeTag.any (· ∈ gs))
  let hit := fun (h : Shard) => h.recs.any (fun r => r.tag.any (· ∈ gs)) || (s.launch? h.launch).any touched
  let hits := (s.shards.filter hit).map (fun h => (h.launch, h.bin, h.die))
  ({ s with tags := s.tags.filter (fun t => t.gang ∉ gs), launches := s.launches.map launch } : State).changeShards
    (fun h => hits.contains (h.launch, h.bin, h.die)) shard

/-- Killed teams leave a collection: they count as acknowledged (14 R323). -/
def Collection.without (ids : List TeamId) (c : Collection) : Collection :=
  let keep := fun (u : UnitId) =>
    match u with
    | .team t => t ∉ ids
    | .ctrl _ => true
    | .op o => o.team ∉ ids
    | .ballast _ => true
  { c with units := c.units.filter keep, members := c.members.filter keep, told := c.told.filter keep }

/-- A matrix group of a launch that has failed: its queued operations are discarded, and it is over unless one has started, which
completes (08 R178). -/
def Group.failed (g : Group) : Option Group :=
  let arrays := g.arrays.map (fun a => { a with queue := a.queue.filter (fun o => o.started.isSome) })
  if arrays.all (fun a => a.queue.isEmpty) then none else some { g with arrays := arrays }

/-- A launch fails: its teams stop, its operations stop as cancelled ones do, its matrix groups end at once, the queue
reports it (11 R256, 12 R270, R279). DEDUCED: notes/assumptions/96. -/
def State.failLaunch (s : State) (lid code : Nat) : State :=
  match s.launch? lid with
  | none => s
  | some l =>
    if l.lstate ≠ .running then s
    else
      let s := (s.ops.filter (fun o => o.launch = lid && o.st = .running && !s.versions o.agentGang)).foldl (fun s o => s.endOp o .cancelled 8) s
      let cores := ((s.teamsOf lid).filterMap (fun t => t.place.map (·.core)))
      let ids := (s.teamsOf lid).map (·.id)
      let s := { s with
        teams := s.teams.filter (fun t => t.launch ≠ lid), ops := s.ops.filter (fun o => o.launch ≠ lid || o.ending.isSome),
        groups := s.groups.filterMap (fun (g : Group) => if g.launch = lid then g.failed else some g), barriers := s.barriers.filter (fun b => b.launch ≠ lid),
        reports := s.reports.filter (fun r => r.launch ≠ lid), shards := s.shards.filter (fun h => h.launch ≠ lid),
        dscratch := s.dscratch.filter (fun d => d.launch ≠ lid), gangs := s.gangs.filter (fun g => g.launch ≠ lid),
        savedScratch := s.savedScratch.filter (fun x => x.launch ≠ lid),
        reservations := s.reservations.filter (fun r => r.launch ≠ lid),
        waitingNb := s.waitingNb.filter (fun w => w.launch ≠ lid),
        moves := s.moves.filter (fun m => m.launch ≠ lid),
        saveOrder := s.saveOrder.filter (fun u => !ids.any (fun i => u = UnitId.team i)),
        collections := s.collections.map (Collection.without ids) }
      let s := cores.foldl (fun s c => s.releasePriv c) s
      let s := s.mapLaunch lid (fun l => { l with lstate := .failed, failcode := code })
      ((s.writeStatus lid).faultQueue l.queue 0x06 l.packet).dropAsids

/-- The next team number of a die: the next start sequence that no live team of the die holds (19 R389). -/
def nextSeq (used : List Word) (die : Nat) : Nat → BitVec 24 → BitVec 24
  | 0, q => q
  | n + 1, q => if (BitVec.ofNat 8 die ++ q) ∈ used then nextSeq used die n (q + 1) else q

def State.newTeamno (s : State) (die : Nat) : Word × State :=
  if h : die < 6 then
    let used := s.teams.map (·.id.teamno)
    let q := nextSeq used die used.length (s.startSeq.get ⟨die, h⟩)
    (BitVec.ofNat 8 die ++ q, { s with startSeq := s.startSeq.set die (q + 1) h })
  else (0, s)

/-- New team numbers for teams that start again, each beside the old one (19 R389). -/
def State.freshIds : List Team → State → List (TeamId × TeamId) × State
  | [], s => ([], s)
  | t :: ts, s =>
    let (no, s) := s.newTeamno t.die
    let (rest, s) := State.freshIds ts s
    ((t.id, ⟨t.id.asid, no⟩) :: rest, s)

/-- Records in the order of their takes. -/
def insertTake (x : Nat × Rec) : List (Nat × Rec) → List (Nat × Rec)
  | [] => [x]
  | y :: ys => if x.1 < y.1 then x :: y :: ys else y :: insertTake x ys

/-- The teams of a gang, live and retired (11 R256). -/
def State.gangTeams (s : State) (g : GangId) : List Team :=
  s.teams.filter (fun t => t.gang = g) ++ ((s.gang? g).map (·.past)).getD []

/-- The records that killed gangs took at refills go back to the heads of their shards in their original order (11 R256 step 5). -/
def State.returnRefills (s : State) (gs all : List GangId) : State :=
  let ts := gs.flatMap s.gangTeams
  let back := fun (h : Shard) =>
    (((ts.filter (fun t => t.launch = h.launch && t.die = h.die && (s.entryOf t).any (fun e => e.bin = h.bin))).flatMap
      (·.refillRecs)).filter (fun r => !r.2.tag.any (· ∈ all))).foldl (fun acc r => insertTake r acc) []
  s.changeShards (fun h => !(back h).isEmpty) (fun h => { h with recs := (back h).map (·.2) ++ h.recs })

/-- A record whose gang is gone carries its tag no more. -/
def Rec.untagged (gs : List GangId) (r : Rec) : Rec := { r with tag := r.tag.filter (· ∉ gs) }

/-- A team of a killed gang at its new start, with the records that it took at its own start, in the same lanes (11 R256 step 5). -/
def Team.again (t : Team) (l : Launch) (gid : Word) (id : TeamId) (gs : List GangId) (waits : Bool) : Team :=
  let recs := (List.range t.startRecs.length).zip (t.startRecs.map (Rec.untagged gs))
  match l.entries[t.entry]? with
  | some e =>
    { t.started l e recs with gid := gid, id := id, place := if waits then none else t.place, savedOn := t.seat, anew := waits }
  | none => t

/-- A killed gang relaunched with a new gang id: each team, retired ones too, starts again with the records it took at its own start,
in the same lanes; matrix state is reset (11 R256 steps 5, 6; DEDUCED, notes/assumptions/23). While it or its launch is being
pre-empted or waits to resume, or when a team of it has retired and left its core, it waits for placement (14 R315, R324). -/
def State.relaunchGang (s : State) (gs : List GangId) (g : GangId) : State :=
  match s.gang? g with
  | none => s
  | some x =>
    match s.launch? x.launch with
    | none => s
    | some l =>
      let (gid, s) := s.newGid
      let mine := s.gangTeams g
      let groups := s.groupsOf g
      let ids := mine.map (·.id)
      let waits := l.preempted || !x.past.isEmpty || s.collections.any (fun c => ids.any (fun i => UnitId.team i ∈ c.members))
      let left := if waits then mine.filterMap (fun t => t.place.map (·.core)) else []
      let (fresh, s) := State.freshIds mine s
      let restart := fun (t : Team) =>
        match fresh.find? (fun f => f.1 = t.id) with
        | none => t
        | some (_, id) => { (t.again l gid id gs waits) with eventDirty := !waits && s.drogue.any (fun c => c.asid = l.asid && c.raised) }
      let new := fresh.map (·.2)
      let reset := fun (a : ArrayState) => ArrayState.reset a.core
      let queued := if waits then new.map UnitId.team else
        (fresh.filter (fun f => UnitId.team f.1 ∈ s.saveOrder)).map (fun f => UnitId.team f.2)
      let s := { s with
        teams := (s.teams ++ x.past).map restart
        ops := s.ops.filter (fun o => o.agentGang ≠ g)
        reports := s.reports.filter (fun r => r.op.team ∉ ids)
        barriers := s.barriers.filter (fun b => !b.parts.any (fun p => p.team ∈ ids)) ++ l.barriers gid new
        gangs := s.gangs.filter (fun y => y.id ≠ g) ++ [⟨⟨g.asid, gid⟩, x.launch, true, false, false, [], x.kills + 1, []⟩]
        groups := s.groups.map (fun y =>
          if groups.any (fun z => z.cl = y.cl) then { y with arrays := y.arrays.map reset, sc := wakeQueue y.sc } else y)
        saveOrder := s.saveOrder.filter (fun u => !ids.any (fun i => u = UnitId.team i)) ++ queued
        reservations := s.reservations.filter (fun r => r.who ≠ .resume g)
        waitingNb := s.waitingNb.filter (fun w => w.who ≠ .resume g)
        collections := s.collections.map (Collection.without ids) }
      left.eraseDups.foldl (fun s c => s.releasePriv c) s

/-- The kill of gangs with everything that falls with them (11 R256). rec is what the kill records of the affected
launches hold; a kill after an uncontained error leaves FAILCODE 4 there, also where the launch goes on, and any other leaves none there
(12 R279, 20 R394; DEDUCED, notes/assumptions/96). -/
def State.kill (s : State) (roots : List GangId) (fails : List (Nat × Nat)) (uncontained : Bool) (rec : KillRec) :
    State :=
  let grave := if uncontained then ((roots.filterMap s.gang?).map (·.launch)).eraseDups else []
  let k := s.killSet grave (s.gangs.length + 1) ⟨roots, fails, []⟩
  let launches := ((s.gangs.filter (fun g => g.id ∈ k.gangs)).map (·.launch) ++ k.fails.map (·.1)).eraseDups
  let counts := launches.map (fun l => (l, (s.gangs.filter (fun g => g.id ∈ k.gangs && g.launch = l)).length))
  let s := s.undoGangs (k.gangs ++ k.stopped)
  let s := counts.foldl (fun s (l, n) => s.mapLaunch l (fun x => { x with
      kills := x.kills + n
      krec := some rec
      failcode := if grave.contains l then 4 else 0 })) s
  let s := k.fails.foldl (fun s (l, c) => s.failLaunch l c) s
  let again := k.gangs.filter (fun g => (s.gang? g).isSome)
  let s := s.returnRefills again (k.gangs ++ k.stopped)
  let s := again.foldl (fun s g => s.relaunchGang (k.gangs ++ k.stopped) g) s
  let s := (again.foldl (fun s g => { s with gangs := s.gangs.map (Gang.clearDep g) }) s).mapStreams
    (fun sc => (k.gangs ++ k.stopped).foldl (fun sc g => wakeVersion g sc) sc)
  let s := { s with ops := s.ops.map (fun o => (k.gangs ++ k.stopped).foldl (fun o g => o.wakeVersion g) o) }
  (launches.filter (fun l => !k.fails.any (fun f => f.1 = l))).foldl (fun s l => s.writeStatus l) s

end Sys2Proof.Machine
end

