-- ==== Sys2Proof/Machine/Ops.lean ====
section
/-! DEFINITION. The shared operations of every instruction: taking a trap and returning from one (spec/04 R95–R99),
retiring an instruction with its counters, breakpoints and steps (spec/17 R372–R379), and the frames in which the
meanings of scalar instructions are written (spec/03 R64, R77; spec/05 R101–R106). -/

namespace Sys2Proof.Machine

/-! ## Taking a trap -/

/-- The registers that both kinds of stream save into at entry, with SUP set; enter says whether the PC goes to TVEC
(04 R97 steps 1, 5, 6). DEDUCED: notes/assumptions/25. -/
def Scalar.entered (sc : Scalar) (t : Trap) (lane : Bool) (detail : Word) (resume : DWord) (enter : Bool) : Scalar :=
  { sc with
    tcause := t.cause.tcauseWord
    tdetail := detail
    taddr := t.addr
    tpc := resume
    tstat := tstatWord lane false true
    pc := if enter then sc.tvec else sc.pc
    wait := none
    yielded := none }

/-- A team at trap entry: the run is interrupted, TK0 takes k0 and k0 the faulting lanes (04 R97 steps 1–6). A lane
cause of a fetch writes TLANE as 0 (20 R393). The latches are lost (03 R75). -/
def Team.entered (x : Team) (t : Trap) (lane : Bool) (detail : Word) (tlpc : Nat) (resume : DWord) (enter : Bool) :
    Team :=
  { (x.setK 0 (if lane then t.lanes else 0)) with
    sc := x.sc.entered t lane detail resume enter
    tlpc := BitVec.ofNat 32 (if lane || t.cause.isEvent then tlpc else 0)
    tlane := BitVec.ofNat 32 (if lane && t.acc != 3 then lowestLane t.lanes else 0)
    tk0 := x.k 0
    latches := []
    runLeft := 0
    chainPos := 0
    pushes := 0
    chainReads := none
    chainLog := []
    begun := []
    xarr := none }

/-- The kill record of a team (11 R251, 20 R394). -/
def Team.killRec (x : Team) : KillRec :=
  ⟨x.gid, x.id.teamno, x.sc.tcause, x.sc.tdetail, x.sc.tpc, x.sc.taddr, x.tlpc, x.tlane, x.tk0⟩

/-- The kill record of an error of a control core (04 R98). -/
def Group.killRec (g : Group) : KillRec :=
  ⟨0x80000000 + BitVec.ofNat 32 g.cl, 0xFFFFFFFF, g.sc.tcause, g.sc.tdetail, g.sc.tpc, g.sc.taddr, 0, 0, 0⟩

/-- An uncontained error of a matrix group: its gangs are killed and its launch fails with FAILCODE 4 (04 R98). -/
def State.killGroup (s : State) (g : Group) : State :=
  s.kill (s.gangsOfGroup g) [(g.launch, 4)] true g.killRec

/-- A BKPT or STEP is no double trap (04 R98). -/
def Cause.nests : Cause → Bool
  | .bkpt _ => true
  | .step => true
  | _ => false

/-- TRAP ENTRY (04 R97). A trap in supervisor mode is a double trap and kills the gang with the registers as they stand
(R98, 20 R394); a consuming use of poison or a shadow failure writes the registers and kills the gang (11 R251,
R257). lane tells a lane cause, resume is TPC, tlpc and left the interrupted run, which an event records too (05 R107),
inChain and chpos its chain. -/
def State.trapTeam (s : State) (x : Team) (t : Trap) (lane : Bool) (resume : DWord) (tlpc left : Nat)
    (inChain : Bool) (chpos : Nat) : State :=
  if x.sc.sup && !t.cause.nests then s.kill [x.gang] [] true x.killRec
  else
    let detail := tdetailWord (if lane || t.cause.isEvent then left else 0) t.acc t.cause.tcode t.cause.sub (lane && inChain)
      (if lane then chpos else 0)
    let y := x.entered t lane detail tlpc resume (!t.cause.kills)
    let s := (s.setTeam y).trace x.id 2 resume.toNat (t.cause.tcauseWord.toNat + 2 ^ 32 * detail.toNat)
    if t.cause.kills then s.kill [x.gang] [] false y.killRec else s

/-- Trap entry of a control core: it has no lanes and no run; a double trap or consumed poison is an error of its
matrix group (04 R98). -/
def State.trapGroup (s : State) (g : Group) (t : Trap) (resume : DWord) : State :=
  if g.sc.sup && !t.cause.nests then s.killGroup g
  else
    let detail := tdetailWord 0 t.acc t.cause.tcode t.cause.sub false 0
    let h := { g with sc := g.sc.entered t false detail resume (!t.cause.kills) }
    let s := s.mapGroup g.cl (fun _ => h)
    if t.cause.kills then s.killGroup h else s

/-- A scalar cause taken by a stream, with TPC at resume (04 R97). -/
def State.takeTrap (s : State) (st : StreamId) (t : Trap) (resume : DWord) : State :=
  match st with
  | .team id =>
    match s.team? id with
    | some x => s.trapTeam x t false resume 0 0 false 0
    | none => s
  | .ctrl cl =>
    match s.group? cl with
    | some g => s.trapGroup g t resume
    | none => s

/-- A lane cause taken by a team: TLPC names the instruction or its chain's first, RUNLEFT counts from there
(03 R76, 04 R97). -/
def State.takeLaneTrap (s : State) (id : TeamId) (t : Trap) (inChain : Bool) : State :=
  match s.team? id with
  | some x =>
    s.trapTeam x t true x.sc.pc (if x.chainPos = 0 then x.lanePc else x.chainStart) (x.runLeft + x.chainPos) inChain
      x.chainPos
  | none => s

/-- RETURN FROM A TRAP (04 R99): k0 takes TK0 without lanes that are vacant by now (02 R30; DEDUCED, notes/assumptions/24), SUP
clears, and the run resumes at TLPC when RUNLEFT is not zero; a control core has no run (05 R124). -/
def Scalar.returned (sc : Scalar) : Scalar := { sc with pc := sc.tpc, tstat := tstatWord sc.laneBit false false }

def Team.returned (x : Team) : Team :=
  let y := x.setK 0 (x.tk0 &&& ~~~x.kv)
  if x.sc.runLeftField = 0 then { y with sc := x.sc.returned }
  else { y with sc := x.sc.returned, lanePc := x.tlpc.toNat, runLeft := x.sc.runLeftField }

def State.returnFromTrap (s : State) (st : StreamId) : State :=
  match st with
  | .team id => s.mapTeam id Team.returned
  | .ctrl cl => s.mapGroup cl (fun g => { g with sc := g.sc.returned })

/-! ## Debug -/

/-- The lanes of an instruction's governing mask that a lane condition holds in (17 R377). -/
def Debug.condLanes (d : Debug) (i : Fin 4) (x : Team) (u : Done) : List Nat :=
  (lanesIn u.gov x.lanes).filter (fun j => (x.v (d.condReg i) j).val.extractLsb' 0 20 == d.condVal i)

/-- Breakpoint i matches a completed instruction (17 R377). A scalar instruction has no governing mask, so a lane
condition does not hold for it. -/
def Debug.hits (d : Debug) (i : Fin 4) (x : Team) (u : Done) : Bool :=
  d.en i && d.onLane i == u.lane && (d.bp.get i).toNat == u.addr
    && (!d.lcond i || !(d.condLanes i x u).isEmpty)

/-- A chain that is abandoned: the team stands at its first instruction again (08 R204, 07 R176). -/
def Team.rewound (x : Team) : Team :=
  { x with
    lanePc := if x.chainPos = 0 then x.lanePc else x.chainStart
    runLeft := x.runLeft + x.chainPos
    chainPos := 0
    pushes := 0
    chainReads := none
    chainLog := []
    latches := []
    begun := []
    sc := { x.sc with wait := none } }

/-- A team whose waiting instruction, which has not issued, is withdrawn (07 R176, 17 R370); a SLEEP ends early (05 R125).
Inside a HOLD chain nothing is withdrawn but the arrival of an XSWAP that ends it: the chain then issues again from its start. -/
def Team.withdrawn (t : Team) : Team :=
  if t.chainPos = 0 then { t with sc := { t.sc with wait := none }, xarr := none, chainReads := none, begun := [] }
  else if t.sc.wait = some .xswap then { t.rewound with xarr := none }
  else t

/-- What a stream's own instructions change (05 R104), as it stands. -/
def Team.back (x : Team) : Back where
  regs := x.sc.regs
  pc := x.sc.pc
  fmt := x.sc.fmt
  tvec := x.sc.tvec
  pgpool := x.sc.pgpool
  tcause := x.sc.tcause
  tdetail := x.sc.tdetail
  tpc := x.sc.tpc
  taddr := x.sc.taddr
  tstat := x.sc.tstat
  vregs := x.vregs
  masks := x.masks
  tlpc := x.tlpc
  tlane := x.tlane
  tk0 := x.tk0
  lanePc := x.lanePc
  runLeft := x.runLeft

def Group.back (g : Group) : Back where
  regs := g.sc.regs
  pc := g.sc.pc
  fmt := g.sc.fmt
  tvec := g.sc.tvec
  pgpool := g.sc.pgpool
  tcause := g.sc.tcause
  tdetail := g.sc.tdetail
  tpc := g.sc.tpc
  taddr := g.sc.taddr
  tstat := g.sc.tstat
  vregs := []
  masks := Vector.replicate 16 0
  tlpc := 0
  tlane := 0
  tk0 := 0
  lanePc := 0
  runLeft := 0

/-- The same put back. -/
def Scalar.goBack (b : Back) (sc : Scalar) : Scalar :=
  { sc with
    regs := b.regs
    pc := b.pc
    fmt := b.fmt
    tvec := b.tvec
    pgpool := b.pgpool
    tcause := b.tcause
    tdetail := b.tdetail
    tpc := b.tpc
    taddr := b.taddr
    tstat := b.tstat }

def Team.goBack (b : Back) (x : Team) : Team :=
  { x with
    sc := x.sc.goBack b
    vregs := b.vregs
    masks := b.masks
    tlpc := b.tlpc
    tlane := b.tlane
    tk0 := b.tk0
    lanePc := b.lanePc
    runLeft := b.runLeft }

def Group.goBack (b : Back) (g : Group) : Group := { g with sc := g.sc.goBack b }

def State.goBack (s : State) (st : StreamId) (b : Back) : State :=
  match st with
  | .team id => s.mapTeam id (Team.goBack b)
  | .ctrl cl => s.mapGroup cl (Group.goBack b)

def State.backOf (s : State) : StreamId → Option Back
  | .team id => (s.team? id).map Team.back
  | .ctrl cl => (s.group? cl).map Group.back

/-- An instruction issues beside an access. While that can still be withdrawn, what the stream was before the first such instruction is
kept; out tells that the instruction reaches further than its stream (16 R358). DEDUCED: notes/assumptions/45. -/
def Access.keep (b : Back) (out : Bool) (a : Access) : Access :=
  if a.begun then a
  else if out then { a with beside := .other }
  else
    match a.beside with
    | .none => { a with beside := .own b }
    | .own _ => a
    | .other => a

def Scalar.keep (b : Back) (out : Bool) (sc : Scalar) : Scalar := { sc with acc := sc.acc.map (Access.keep b out) }

def State.keepBack (s : State) (st : StreamId) (out : Bool) : State :=
  match s.backOf st with
  | some b => if (s.scalar? st).any (fun sc => sc.acc.isSome) then s.mapScalar st (Scalar.keep b out) else s
  | none => s

/-- The stream as it was when its latest access issued. -/
def Access.kept (a : Access) : Option Back :=
  match a.beside with
  | .own b => some b
  | .none => none
  | .other => none

/-- A stalled access, which has performed no event, is withdrawn, with what has issued beside it: its instruction issues again (16 R358). -/
def Scalar.dropAcc (sc : Scalar) : Scalar :=
  match sc.acc with
  | some a =>
    if a.withdrawable then
      let y := (a.kept.map (fun b => sc.goBack b)).getD sc
      { y with
        acc := none
        pc := if a.lane then y.pc else a.backPc }
    else sc
  | none => sc

/-- No chain is under way. -/
def Team.unchained (x : Team) : Team :=
  { x with
    chainPos := 0
    pushes := 0
    chainReads := none
    chainLog := []
    latches := []
    begun := []
    sc := { x.sc with wait := none } }

def Team.dropAcc (x : Team) : Team :=
  match x.sc.acc with
  | some a =>
    if a.withdrawable then
      let y := (a.kept.map (fun b => x.goBack b)).getD x
      { y.unchained with
        sc := { x.sc.dropAcc with wait := none }
        lanePc := if a.lane then a.backLane else y.lanePc
        runLeft := if a.lane then a.backLeft else y.runLeft }
    else x
  | none => x

/-- A team stopped by the debugger. -/
def Team.stopped (t : Team) : Team :=
  { t.withdrawn with sc := { t.withdrawn.sc with debugStopped := true, stepping := false } }

/-- A stop by the debugger: the team, and with GRP every resident team of its launch (17 R376, R377). The stop acts at
the next boundary outside a HOLD chain. Each team that it stops is recorded on its core (17 R380). -/
def State.debugStop (s : State) (x : Team) (grp : Bool) (why pc : Nat) : State :=
  let stops := fun (t : Team) => t.id = x.id || (grp && t.launch = x.launch && t.place.isSome && !t.sc.debugStopped)
  let hit := s.teams.filter stops
  let s := { s with teams := s.teams.map (fun (t : Team) => if stops t then t.stopped else t) }
  hit.foldl (fun s t => s.trace t.id 6 (if t.id = x.id then pc else t.sc.pc.toNat) why) s

/-- The trap that delivers a stop with HOLD = 0 and SELF = 1, over the units that completed (17 R378): the matching instruction's
lanes and its position in its chain, or those of the step's last. -/
def Debug.stopTrap (d : Debug) (x : Team) (units : List Done) (hit : Option (Fin 4)) : Trap × Nat :=
  let lane := units.any (·.lane)
  match hit with
  | some i =>
    let lanes := match units.find? (d.hits i x) with
      | some u => if d.lcond i then maskOf (d.condLanes i x u) else u.gov
      | none => 0
    (⟨.bkpt (d.lcond i), 0, 0, if lane then lanes else 0⟩, units.findIdx (d.hits i x))
  | none => (⟨.step, 0, 0, if lane then (units.getLast?.map (·.gov)).getD 0 else 0⟩, units.length - 1)

/-- What stops do, when a breakpoint matches or a step ends (17 R377, R378). The stop of an LRUN is kept until the run that it has
begun has completed (04 R97 steps 2, 3; DEDUCED, notes/assumptions/104). With HOLD a team that its own trap takes to its handler stops
there. A lane stop records the position of its instruction in its
chain, and the point from which the run goes on (DESIGN CHOICE, notes/assumptions/105). -/
def State.debugAct (s : State) (x : Team) (d : Debug) (units : List Done) (hit : Option (Fin 4)) (quiet : Bool) : State :=
  let pc := ((units.getLast?).map (·.addr)).getD 0
  let unstep := fun (t : Team) => { t with sc := { t.sc with stepping := false } }
  if d.hold then s.debugStop x d.grp ((hit.map (·.val)).getD 0xFF) pc
  else if d.self && !quiet then
    let lane := units.any (·.lane)
    let (t, pos) := d.stopTrap x units hit
    if !lane && x.runLeft != 0 then
      s.mapTeam x.id (fun y => { unstep y with pendTrap := some (match hit with
        | some i => .bkpt (d.lcond i)
        | none => .step) })
    else (s.mapTeam x.id unstep).trapTeam (unstep x) t lane x.sc.pc x.lanePc x.runLeft (1 < units.length) pos
  else s.mapTeam x.id unstep

/-- What completed instructions do to the debugger: triggers, stops, and stops delivered as traps (17 R377–R379).
Nothing acts on instructions issued in supervisor mode. quiet tells that the instruction's own trap follows: it stands before a stop that
is a trap, and the recording stops after it. own tells that the instructions belong to the unit of a step, when one is being made. -/
def State.debugUnit (s : State) (id : TeamId) (units : List Done) (sup quiet own : Bool) : State :=
  match s.team? id with
  | none => s
  | some x =>
    match x.place with
    | none => s
    | some p =>
      let d := (s.core p.core).dbg
      if sup then s
      else
        let hits := (List.finRange 4).filter (fun i => units.any (d.hits i x))
        if hits.isEmpty then (if own && x.sc.stepping then s.debugAct x d units none quiet else s)
        else
          let s := s.mapCore p.core (fun c => { c with dbg := c.dbg.traceOn hits })
          let s := s.debugAct x d units hits.head? quiet
          if quiet then s else s.mapCore p.core (fun c => { c with dbg := c.dbg.traceOff hits })

/-- A stop of an LRUN is delivered once its run, and everything older, has completed. -/
def State.deliver (s : State) (id : TeamId) : State :=
  match s.team? id with
  | none => s
  | some x =>
    match x.pendTrap with
    | none => s
    | some k =>
      if x.runLeft = 0 && x.chainPos = 0 && x.sc.accs.isEmpty && !x.sc.sup then
        let y := { x with pendTrap := none }
        (s.setTeam y).trapTeam y (Trap.of (match k with
          | .bkpt l => .bkpt l
          | .step => .step)) false x.sc.pc 0 0 false 0
      else s

def State.delivered (s : State) : StreamId → State
  | .team id => s.deliver id
  | .ctrl _ => s

/-! ## Retiring -/

/-- IRET of the stream's core or control core counts one instruction (17 R372), and the predictor's count of a team
(14 R317). -/
def State.countRetired (s : State) (st : StreamId) : State :=
  match st with
  | .team id =>
    match s.coreOf st with
    | some c => (s.mapCore c (fun x => { x with iret := x.iret + 1 })).mapTeam id (fun t => { t with instrs := t.instrs + 1 })
    | none => s.mapTeam id (fun t => { t with instrs := t.instrs + 1 })
  | .ctrl cl => { s with ctrlIret := smSet 0 s.ctrlIret cl (smGet 0 s.ctrlIret cl + 1) }

/-- The stream's PC moves and its own wait is over; the wait of a lane instruction stays. -/
def Scalar.goto (sc : Scalar) (pc : DWord) : Scalar :=
  { sc with
    pc := pc &&& ~~~3
    wait := sc.wait.filter Wait.isLane
    yielded := none }

/-- The number of mask words of a governing set that are not zero: the passes an instruction issues (02 R26). -/
def passes (m : Mask) (n : Nat) : Nat := ((List.range n).filter (fun w => maskWord m w != 0)).length

/-- A scalar instruction that stood at pc has completed: it is counted as retired, and the debug block sees it (17 R372, R377). -/
def State.scalarDone (s : State) (st : StreamId) (pc : DWord) (sup quiet own : Bool) : State :=
  let s := s.countRetired st
  match st with
  | .team id => s.debugUnit id [⟨false, pc.toNat, 0⟩] sup quiet own
  | .ctrl _ => s

/-- A lane instruction has issued: its passes are counted, and those that it skipped (17 R373). -/
def State.countPasses (s : State) (id : TeamId) (nw : Nat) (gov : Mask) : State :=
  (s.countFor (.team id) 0x01 (passes gov nw)).countFor (.team id) 0x02 (nw - passes gov nw)

/-- The last lane instruction of units has completed: it is counted as retired, and the debug block sees the units when they close a chain
(17 R372, R377). -/
def State.laneDone (s : State) (id : TeamId) (units : List Done) (sup own : Bool) : State :=
  let s := s.countRetired (.team id)
  if units.isEmpty then s else (s.debugUnit id units sup false own).deliver id

/-- A scalar instruction that stood at pc has issued and completed, and the PC goes to next (05 R103, 17 R373). -/
def State.retire (s : State) (st : StreamId) (pc next : DWord) (sup quiet : Bool) : State :=
  ((s.mapScalar st (·.goto next)).countFor st 0x03 1).scalarDone st pc sup quiet true

/-! ## Accesses (09 R211, R216; 10 R233) -/

def ldExtend (w : LdW) (p : PWord) : PWord :=
  match w with
  | .i8 => { p with val := (p.val.setWidth 8).signExtend 32 }
  | .i16 => { p with val := (p.val.setWidth 16).signExtend 32 }
  | .n8 => p
  | .n16 => p
  | .b32 => p
  | .b64 => p
  | .b128 => p

/-- Words into consecutive registers of a lane. -/
def Team.setWords (x : Team) (r j : Nat) : List PWord → Team
  | [] => x
  | w :: ws => (x.setV r j w).setWords (r + 1) j ws

/-- A write to a scalar register of a stream. -/
def State.writeReg (s : State) (st : StreamId) (d : BitVec 6) (w : PWord) : State := s.mapScalar st (·.setReg d w)

def State.writePair (s : State) (st : StreamId) (d : BitVec 6) (p : PPair) : State := s.mapScalar st (·.setPair d p)

/-- The registers of each lane that a load or an atomic writes, the first n from r on (10 R230, R231). -/
def Team.putLanes (x : Team) (a : Access) (r n : Nat) (w : LdW) (gov : Mask) : Team :=
  (lanesIn gov x.lanes).foldl (fun t j => t.setWords r j (((wordsOf a.got j).map (ldExtend w)).take n)) x

/-- What an access that has performed all its events writes (10 R231, R234). -/
def State.putAccess (s : State) (st : StreamId) (a : Access) : State :=
  match a.dest, st with
  | .none, _ => s
  | .sreg d wide w, _ =>
    let ws := (wordsOf a.got 0).map (ldExtend w)
    if wide then s.writePair st d ⟨ws.getD 0 .zero, ws.getD 1 .zero⟩ else s.writeReg st d (ws.getD 0 .zero)
  | .lanes r n w, .team id => s.mapTeam id (fun x => x.putLanes a r n w ((a.units.getLast?.map (·.gov)).getD 0))
  | .lanes _ _ _, .ctrl _ => s
  | .windows, .team id => s.mapTeam id (fun x => { x with chainReads := some (a.got.map (·.2)) })
  | .windows, .ctrl _ => s

/-- The same in what is kept of the stream for the withdrawal of a younger access. -/
def State.putBack (s : State) (st : StreamId) (a : Access) : State :=
  match ((s.scalar? st).bind (·.acc)).bind (·.kept) with
  | some b =>
    match ((s.goBack st b).putAccess st a).backOf st with
    | some c => s.mapScalar st (fun sc => { sc with acc := sc.acc.map (fun y => { y with beside := .own c }) })
    | none => s
  | none => s

/-- An access is complete: it is outstanding no more, its destination is written, and its instruction retires. Reads of
constant windows belong to an instruction that has still to issue. -/
def State.accessDone (s : State) (st : StreamId) (k : Option Nat) (a : Access) : State :=
  let s := ((s.mapScalar st (·.endAcc k)).putAccess st a).putBack st a
  if a.dest = .windows then s
  else
    match st, a.lane with
    | .team id, true => s.laneDone id a.units a.sup a.stepped
    | _, _ => s.scalarDone st ((a.units.head?.map (fun u => BitVec.ofNat 64 u.addr)).getD 0) a.sup false a.stepped

/-- Events at ps have performed: the host lines go, and the turn allows as many fewer. -/
def State.eventsOver (s : State) (ps : List Spot) : State := { s.releaseHost ps with limit := s.limit.map (· - ps.length) }

/-- An outstanding access of a stream, with its progress. -/
def State.putAcc (s : State) (st : StreamId) (k : Option Nat) (a : Access) : State := s.mapScalar st (·.setAcc k a)

/-- An access that is found to be ordered is counted once (17 R373). -/
def State.orders (s : State) (st : StreamId) (a : Access) (ordered : Bool) : State :=
  if ordered && !a.ordered then s.countFor st 0x04 1 else s

/-- An access waits, which makes it ordered: for a reclassification, a commit or a host line (09 R215, R219; 11 R253). -/
def State.accWaits (s : State) (st : StreamId) (k : Option Nat) (a : Access) (w : Wait) : State :=
  (s.orders st a true).putAcc st k { a with
    wait := some w
    ordered := true }

/-- An access behind an older one of its stream that has still to reach one of its lines (09 R213). -/
def Scalar.behind (sc : Scalar) (k : Option Nat) (a : Access) : Bool :=
  let older := match k with
    | none => sc.older
    | some k => sc.older.take k
  older.any (fun b => b.events.any (fun e => a.events.any (fun f => f.spot.loc.tagLoc = e.spot.loc.tagLoc)))

/-- The next events of an access that stalls no more, at most as many as the turn allows, in order. -/
def State.performBegun (s : State) (ag : Agent) (st : StreamId) (k : Option Nat) (a : Access) : State :=
  match State.readyAll ag true a.events s false with
  | .retry s => s.putAcc st k a
  | .block s w => s.accWaits st k a w
  | .go s _ =>
    let n := s.limit.getD a.events.length
    let now := a.events.take n
    let (s, got) := State.performAll ag now s
    let s := s.eventsOver (now.map (·.spot))
    let b := { a with
      events := a.events.drop n
      got := a.got ++ got }
    if b.events.isEmpty then s.accessDone st k b else s.putAcc st k b

/-- An access whose classes have been taken: a stall on a gang's tag stands before its events (11 R253). -/
def State.performClassed (s : State) (ag : Agent) (st : StreamId) (k : Option Nat) (a : Access) : State :=
  match if a.begun then Ready.go s false else State.versionAll ag a.events s with
  | .retry s => s.putAcc st k a
  | .block s w => s.accWaits st k a w
  | .go s _ => s.performBegun ag st k { a with begun := true }

/-- An outstanding access of a stream goes on: its classes are taken, once, at its issue (09 R215), what its events wait for comes next, and
then its events. -/
def State.performSlot (s : State) (st : StreamId) (k : Option Nat) : State :=
  match s.agentOf st, s.scalar? st with
  | some ag, some sc =>
    match sc.accAt k with
    | none => s
    | some a =>
      if a.wait.isSome || sc.behind k a then s
      else
        match if a.classed then Ready.go s a.ordered else State.classAll ag a.events s a.ordered with
        | .retry s => s.putAcc st k a
        | .block s w => s.accWaits st k a w
        | .go s o =>
          (s.orders st a o).performClassed ag st k { a with
            classed := true
            ordered := o }
  | _, _ => s

/-- The latest access of a stream goes on. -/
def State.performAcc (s : State) (st : StreamId) : State := s.performSlot st none

/-- An access of an instruction that has passed its checks: the instruction has issued, and the access is outstanding until its last
event has performed. -/
def State.startAccess (s : State) (st : StreamId) (a : Access) : State := (s.mapScalar st (·.newAcc a)).performAcc st

/-! ## Scalar instructions -/

/-- What a scalar instruction comes to. -/
inductive Res
  /-- it completes and the next word follows -/
  | done (s : State)
  /-- it completes and control goes to pc -/
  | jump (s : State) (pc : DWord)
  /-- it raises a fault and has no effect; s differs only in what its checks touched -/
  | trap (s : State) (t : Trap)
  /-- it completes and then traps -/
  | after (s : State) (t : Trap)
  /-- its access has passed its checks: it issues -/
  | access (s : State) (a : Access)
  /-- it is blocked -/
  | wait (s : State) (w : Wait)
  /-- it has not issued and is tried again -/
  | retry (s : State)
  /-- s holds its effect and its retirement, or its stream is gone -/
  | gone (s : State)

/-- Something older of the stream has not completed: a run, or an access (04 R97, 05 R106). -/
def State.olderLeft (s : State) (st : StreamId) : Bool :=
  match st with
  | .team id => (s.team? id).any (fun x => x.runLeft != 0 || !x.sc.accs.isEmpty)
  | .ctrl cl => (s.group? cl).any (fun g => !g.sc.accs.isEmpty)

/-- A scalar cause is taken once nothing older of its stream is unfinished: until then its instruction has not issued (05 R106). -/
def State.scalarTrap (s : State) (st : StreamId) (t : Trap) (resume : DWord) : State :=
  if s.olderLeft st then s else s.takeTrap st t resume

/-- The recording of a stream's core stops after the trap of its instruction, when that is a stop source (17 R379). -/
def State.untrace (t s : State) (st : StreamId) : State :=
  match st with
  | .team id =>
    match s.team? id with
    | some x => t.endTrace x
    | none => t
  | .ctrl _ => t

/-- The state that a scalar instruction of a stream leaves. -/
def State.finish (st : StreamId) (sc : Scalar) : Res → State
  | .done s => s.retire st sc.pc (sc.pc + 4) sc.sup false
  | .jump s pc => s.retire st sc.pc pc sc.sup false
  | .trap s t => s.scalarTrap st t sc.pc
  | .after s t => if s.olderLeft st then s else ((s.retire st sc.pc (sc.pc + 4) sc.sup true).takeTrap st t (sc.pc + 4)).untrace s st
  | .access s a => ((s.mapScalar st (·.goto (sc.pc + 4))).countFor st 0x03 1).startAccess st a
  | .wait s w => s.block st w
  | .retry s => s.unblock st
  | .gone s => s

abbrev Out := Host.Outcome State Fault Refusal

/-- A fault of cause c, without an address. -/
def Res.fault (s : State) (c : Cause) : Res := .trap s (Trap.of c)

/-- An instruction for teams and control cores; sup marks one for supervisor mode only (03 R64, R77). -/
def scalarInstr (i : Instr) (sup : Bool) (body : StreamId → Scalar → State → Res) (s : State) : Out :=
  match s.cur with
  | none => .fault .noStream
  | some st =>
    match s.scalar? st with
    | none => .fault .noStream
    | some sc =>
      .next (State.finish st sc
        (if scalarLegal i && s.offered i && (!sup || sc.sup) then body st sc s else Res.fault s .illegal))

/-- An instruction that only teams issue (03 R64). -/
def teamInstr (i : Instr) (sup : Bool) (body : Team → State → Res) (s : State) : Out :=
  scalarInstr i sup (fun st _ s =>
    match st with
    | .team id =>
      match s.team? id with
      | some x => body x s
      | none => .gone s
    | .ctrl _ => Res.fault s .illegal) s

/-- An instruction that only control cores issue (03 R64). -/
def ctrlInstr (i : Instr) (body : Group → State → Res) (s : State) : Out :=
  scalarInstr i false (fun st _ s =>
    match st with
    | .team _ => Res.fault s .illegal
    | .ctrl cl =>
      match s.group? cl with
      | some g => body g s
      | none => .gone s) s

/-! ## Events pending -/

/-- The event that a team takes at its next boundary: VERSION_FULL before DIRTY_BUDGET (04 R95, R96). -/
def Team.event? (x : Team) : Option Cause :=
  match x.eventVersion with
  | some sub => some (.versionFull sub)
  | none => if x.eventDirty then some .dirtyBudget else none

/-- TSTAT as software reads it: EVPEND while an event is held in supervisor mode (04 R94). -/
def Team.tstat (x : Team) : Word := tstatWord x.sc.laneBit (x.sc.sup && x.event?.isSome) x.sc.sup

end Sys2Proof.Machine
end

