-- ==== Sys2Proof/Machine/Operands.lean ====
section
/-! DEFINITION. Operands and the frame of lane instructions: every source form (spec/03 R69–R71, spec/07 R146, R149),
the decode checks that depend on the state (03 R74, R75, R77), destinations and latches (03 R67, R73), HOLD chains
(R74–R76) and the four steps of a lane instruction (07 R145). -/

namespace Sys2Proof

/-- A 32-bit word as an operand: its high word is zero and clear (03 R73). -/
def PPair.ofWord (w : PWord) : PPair := ⟨w, PWord.zero⟩

end Sys2Proof

namespace Sys2Proof.Machine

/-! ## Sources -/

/-- A source of lane j; win is the value of a constant-window source (03 R69–R71, R73). DEDUCED: notes/assumptions/29. -/
def Team.source (x : Team) (lits : List Word) (win : PPair) (u : SrcUse) (s : Src) (j : Nat) : PPair :=
  if u = .unused then PPair.zero
  else
    match s with
    | .vreg i => if u.ty.wide then x.vPair i.toNat j else .ofWord (x.v i.toNat j)
    | .latch l => if u.ty.wide then x.latch l.toNat j else .ofWord (x.latch l.toNat j).lo
    | .sreg i => if u.ty.wide then x.sc.pair i else .ofWord (x.sc.reg i)
    | .kreg k => .ofWord (.clean (Word.ofBool ((x.k k).getLsbD j)))
    | .cwin _ _ => win
    | .imm p => .ofVal (immValue u.ty p) false
    | .lit i =>
      ⟨.clean (lits.getD i.toNat 0), if u.ty.wide then .clean (lits.getD (i.toNat + 1) 0) else PWord.zero⟩

/-! ## Constant windows -/

/-- A read of a constant window: its window, word offset and width (10 R241). -/
structure WinRef where
  win : BitVec 3
  off : Nat
  wide : Bool
  deriving DecidableEq, Repr

def WinRef.words (r : WinRef) : Nat := if r.wide then 2 else 1

/-- The address of a window word (10 R241). -/
def Launch.windowVa (l : Launch) (win : BitVec 3) (off : Nat) : DWord :=
  (l.windows.get ⟨win.toNat, win.isLt⟩).base + BitVec.ofNat 64 (4 * off)

def Launch.windowLen (l : Launch) (win : BitVec 3) : Nat := (l.windows.get ⟨win.toNat, win.isLt⟩).len

/-- ALIGN and BOUNDS of a window reference (03 R69, 10 R242). -/
def WinRef.check (r : WinRef) (l : Launch) : Option Cause :=
  if r.wide && r.off % 2 == 1 then some (.align false)
  else if l.windowLen r.win < r.off + r.words then some .boundsWindow
  else none

/-- Window references resolved to the spots they read, or the trap of the first that faults, or the stall of a leaf in migration, with
those before it. -/
def State.windowSpots (ag : Agent) (l : Launch) : List WinRef → State → State × List (Spot × Nat) × Option (Option Trap)
  | [], s => (s, [], none)
  | r :: rs, s =>
    let va := l.windowVa r.win r.off
    match r.check l with
    | some c => (s, [], some (some ⟨c, 0, va, 0⟩))
    | none =>
      match s.translate ag va with
      | (s, .page sub) => (s, [], some (some ⟨.page sub, 0, va, 0⟩))
      | (s, .stall) => (s, [], some none)
      | (s, .ok e pa) =>
        if e.permits .read ag.sup then
          let (s, ps, t) := State.windowSpots ag l rs s
          (s, (⟨0, some va, some e, .mem pa, .const⟩, 4 * r.words) :: ps, t)
        else (s, [], some (some ⟨.perm, 0, va, 0⟩))

/-- The read events of windows. -/
def windowEvents (ps : List (Spot × Nat)) : List AccEvent := ps.map (fun p => ⟨p.1, .read p.2⟩)

/-- The window references of a lane instruction's sources, in operand order. -/
def LaneSig.windows (g : LaneSig) (x : LaneArgs) : List WinRef :=
  [(g.a, x.a), (g.b, x.b), (g.c, x.c)].filterMap (fun p =>
    match p.2 with
    | .cwin w o => some ⟨w, o.toNat, p.1.ty.wide⟩
    | _ => none)

/-- A value made of the words that a reference read. -/
def windowValue (wide : Bool) (ws : List PWord) : PPair :=
  if wide then ⟨ws.getD 0 .zero, ws.getD 1 .zero⟩ else .ofWord (ws.getD 0 .zero)

/-! ## What an instruction runs with -/

/-- A lane instruction at its issue: its team, where it runs, its launch, its fields, its governed lanes ascending, and
the values of its constant-window sources. -/
structure LaneCtx where
  x : Team
  place : Placement
  l : Launch
  e : Entry
  ag : Agent
  sig : LaneSig
  args : LaneArgs
  g : List Nat
  wa : PPair
  wb : PPair
  wc : PPair

def LaneCtx.id (c : LaneCtx) : TeamId := c.x.id
def LaneCtx.st (c : LaneCtx) : StreamId := .team c.x.id

/-- The governing set as a mask: the lanes of ks, none of them vacant (02 R30, 07 R145). -/
def Team.governed (x : Team) (ks : BitVec 4) : Mask := x.k ks &&& ~~~x.kv

def LaneCtx.gov (c : LaneCtx) : Mask := c.x.governed c.args.ks

/-- The sources of a lane (07 R145). -/
def LaneCtx.a (c : LaneCtx) (j : Nat) : PPair := c.x.source c.args.lits c.wa c.sig.a c.args.a j
def LaneCtx.b (c : LaneCtx) (j : Nat) : PPair := c.x.source c.args.lits c.wb c.sig.b c.args.b j
def LaneCtx.c (c : LaneCtx) (j : Nat) : PPair := c.x.source c.args.lits c.wc c.sig.c c.args.c j

/-- Some source word that lane j reads is poisoned (07 R148). -/
def LaneCtx.poison (c : LaneCtx) (j : Nat) : Bool := (c.a j).poison || (c.b j).poison || (c.c j).poison

/-- The rounding mode of an instruction: RM, or FMT.RND when it is 000 (07 R147). -/
def roundMode (rm : BitVec 3) (fmt : Word) : BitVec 3 := if rm = 0 then fmt.extractLsb' 0 3 else rm

def LaneCtx.mode (c : LaneCtx) : BitVec 3 := roundMode c.args.rm c.x.sc.fmt

/-- An instruction that reads no operand because its governing set is empty (07 R145); a feed still reads its control word,
since it may publish (08 R202). -/
def LaneCtx.idle (c : LaneCtx) (i : Instr) : Bool :=
  match i with
  | .mfeedA _ => false
  | .mfeedB _ => false
  | _ => c.g.isEmpty

/-- A trap of the whole instruction, shown by every governed lane (04 R96). -/
def LaneCtx.trapAll (c : LaneCtx) (cause : Cause) : Trap := ⟨cause, 0, 0, c.gov⟩

/-- The trap taken among the causes of lanes: the highest cause of 04 R96, with the lanes that show it; the kind and the
address of the lowest of them. -/
def chooseTrap (fs : List (Nat × Trap)) : Option Trap :=
  match (fs.map (fun f => f.2.cause.rank)).min? with
  | none => none
  | some r =>
    let win := fs.filter (fun f => f.2.cause.rank = r)
    win.head?.map (fun f => { f.2 with lanes := maskOf (win.map (·.1)) })

/-- What the body of a lane instruction comes to. -/
inductive LaneRes
  /-- every governed lane gets its result -/
  | write (s : State) (r : Nat → PPair)
  /-- the destination mask register is written whole (07 R164) -/
  | mask (s : State) (m : Mask)
  /-- it completes; what it wrote is in s -/
  | done (s : State)
  /-- its access has passed its checks: it issues -/
  | access (s : State) (a : Access)
  /-- the reads of its constant windows are outstanding: it has not issued -/
  | pending (s : State)
  | trap (s : State) (t : Trap)
  | wait (s : State) (w : Wait)
  | retry (s : State)
  /-- its chain is abandoned and stands at its first instruction (08 R204) -/
  | again (s : State)

/-! ## Checks on the team's state -/

/-- A register operand at or above the allotment (02 R24; 03 R77 step 4). -/
def quotaFault (x : Team) (g : LaneSig) (a : LaneArgs) : Bool :=
  let src := fun (u : SrcUse) (s : Src) =>
    match s with
    | .vreg i => u ≠ .unused && x.alloc < i.toNat + u.ty.regs
    | _ => false
  src g.a a.a || src g.b a.b || src g.c a.c || (a.dk == .reg && x.alloc < a.di.toNat + g.dst.regs)

/-- The chain is too long or reaches past its run (03 R74; R77 step 5). -/
def chainFault (x : Team) (a : LaneArgs) : Bool := a.hold && (15 ≤ x.chainPos || x.runLeft ≤ 1)

/-- A latch read that fewer results of the chain precede (03 R75; R77 step 6). -/
def staleFault (x : Team) (a : LaneArgs) : Bool :=
  let src := fun (s : Src) =>
    match s with
    | .latch i => x.pushes < i.toNat + 1
    | _ => false
  src a.a || src a.b || src a.c

/-- The team runs on an array core of a live matrix group of its own launch (08 R202). -/
def State.arrayOf (s : State) (x : Team) : Option (Nat × Nat) :=
  match x.place with
  | none => none
  | some p =>
    match s.groups.find? (fun g => g.launch = x.launch && g.placed && g.arrays.any (fun a => a.core = p.core)) with
    | some g => (g.arrays.findIdx? (fun a => a.core = p.core)).map (fun i => (g.cl, i))
    | none => none

/-- The role check of lane instructions (02 R32; 08 R202, R203; 03 R77 step 3). -/
def roleFault (s : State) (x : Team) : Instr → Bool
  | .mfeedA _ => x.role != .feed || (s.arrayOf x).isNone
  | .mfeedB _ => x.role != .feed || (s.arrayOf x).isNone
  | .mdrain _ => x.role != .drain || (s.arrayOf x).isNone
  | _ => false

/-! ## Phases of chains -/

/-- The control word of a feed or drain at the start of its chain (08 R204); ws are its window words. -/
def controlWord (x : Team) (a : LaneArgs) (ws : List PWord) : Word :=
  (x.source a.lits (windowValue false ws) .uniform a.b 0).lo.val

/-- Bank and accumulator phases of an array core. -/
def ArrayState.abFull (a : ArrayState) (b : BitVec 2) : Bool := (a.ab.get ⟨b.toNat, b.isLt⟩).full
def ArrayState.bbFull (a : ArrayState) (b : BitVec 2) : Bool := (a.bb.get ⟨b.toNat, b.isLt⟩).full
def ArrayState.accDrain (a : ArrayState) (b : BitVec 2) : Bool := (a.acc.get ⟨b.toNat, b.isLt⟩).drain

def State.arrayAt (s : State) (k : Nat × Nat) : Option ArrayState := (s.group? k.1).bind (fun g => g.array? k.2)

/-- The bank or accumulator that a feed or drain names is in the phase it needs (08 R185, R186). -/
def phaseReady (s : State) (x : Team) (i : Instr) (ctl : Word) : Bool :=
  match (s.arrayOf x).bind s.arrayAt with
  | none => true
  | some a =>
    match i with
    | .mfeedA _ => !a.abFull (ctl.extractLsb' 12 2)
    | .mfeedB _ => !a.bbFull (ctl.extractLsb' 12 2)
    | .mdrain _ => a.accDrain (ctl.extractLsb' 13 2)
    | _ => true

/-- Every feed and drain of a chain finds its phase (08 R204); ws are the window words of the members in order. -/
def chainReady (s : State) (x : Team) : List Instr → List PWord → Bool
  | [], _ => true
  | i :: is, ws =>
    match laneSig i with
    | some (g, a) =>
      let n := ((g.windows a).map WinRef.words).sum
      phaseReady s x i (controlWord x a ws) && chainReady s x is (ws.drop n)
    | none => true

/-! ## The frame -/

/-- The instructions of a chain after its first, from the code as it stands: none without HOLD (03 R74), and none known while a leaf that
holds them is in migration (15 R327). -/
def State.chainRest (s : State) (c : LaneCtx) : State × Option (List Instr) :=
  if c.args.hold && c.x.chainPos = 0 then State.chainFrom c.ag c.e (c.x.runLeft - 1) (c.x.lanePc + laneWordCount c.args) s
  else (s, some [])

/-- The references to windows of instructions, in member order. -/
def windowsOf (is : List Instr) : List WinRef :=
  is.flatMap (fun m =>
    match laneSig m with
    | some (g, a) => g.windows a
    | none => [])

/-- The number of window words that an instruction reads. -/
def LaneCtx.need (c : LaneCtx) : Nat := ((c.sig.windows c.args).map WinRef.words).sum

/-- The access that reads windows for the instruction of a context and the chain that it starts. -/
def LaneCtx.windowAccess (c : LaneCtx) (ps : List (Spot × Nat)) : Access where
  lane := true
  kind := .read
  events := windowEvents ps
  classed := false
  ordered := false
  begun := false
  stale := false
  stepped := c.x.sc.stepping
  got := []
  dest := .windows
  wait := none
  units := []
  sup := c.x.sc.sup
  backPc := c.x.sc.pc
  backLane := if c.x.chainPos = 0 then c.x.lanePc else c.x.chainStart
  backLeft := c.x.runLeft + c.x.chainPos
  beside := .none

/-- What the window words of an instruction come to. -/
inductive WinRead
  | ok (s : State) (ws : List PWord)
  | pending (s : State)
  | retry (s : State)

/-- Windows read by an access of their own. Its words are there when it has performed within this turn; then the team holds them. -/
def State.readWindows (s : State) (c : LaneCtx) (ps : List (Spot × Nat)) : WinRead :=
  if ps.isEmpty then .ok s []
  else
    let s := s.startAccess c.st (c.windowAccess ps)
    match s.team? c.id with
    | some y => if y.sc.acc.isSome then .pending s else .ok s (y.chainReads.getD [])
    | none => .pending s

/-- The windows of references are read up to the first that faults; while a leaf of one of them is in migration none is (15 R327). -/
def State.readRefs (s : State) (c : LaneCtx) (own rest : List WinRef) : WinRead :=
  match State.windowSpots c.ag c.l own s with
  | (s, _, some none) => .retry s
  | (s, ps, some (some _)) => s.readWindows c ps
  | (s, ps, none) =>
    match State.windowSpots c.ag c.l rest s with
    | (s, _, some none) => .retry s
    | (s, qs, _) => s.readWindows c (ps ++ qs)

/-- The window words of a chain's members, read before its first instruction issues, in member order (07 R149). A reference that
faults ends the reading: its member raises the fault. A first member with an empty governing set raises none: where its windows
cannot be read they count as zero words, which it does not use. DEDUCED: notes/assumptions/36. -/
def State.startChain (s : State) (c : LaneCtx) (i : Instr) : WinRead :=
  match s.chainRest c with
  | (s, none) => .retry s
  | (s, some rest) =>
    let own := c.sig.windows c.args
    if c.idle i then
      if rest.isEmpty then .ok s (List.replicate c.need PWord.zero)
      else
        match State.windowSpots c.ag c.l own s with
        | (s, _, some (some _)) =>
          match s.readRefs c [] (windowsOf rest) with
          | .ok s ws => .ok s (List.replicate c.need PWord.zero ++ ws)
          | .pending s => .pending s
          | .retry s => .retry s
        | (s, _, _) => s.readRefs c own (windowsOf rest)
    else s.readRefs c own (windowsOf rest)

/-- The window sources of an instruction from words in operand order. -/
def LaneCtx.withWindows (c : LaneCtx) (ws : List PWord) : LaneCtx :=
  let take := fun (u : SrcUse) (s : Src) (ws : List PWord) =>
    match s with
    | .cwin _ _ => (windowValue u.ty.wide ws, ws.drop (if u.ty.wide then 2 else 1))
    | _ => (PPair.zero, ws)
  let (wa, ws) := take c.sig.a c.args.a ws
  let (wb, ws) := take c.sig.b c.args.b ws
  let (wc, _) := take c.sig.c c.args.c ws
  { c with wa := wa, wb := wb, wc := wc }

/-- The destination and latches of one lane (03 R67, R73). -/
def Team.writeLane (x : Team) (g : LaneSig) (a : LaneArgs) (j : Nat) (r : PPair) : Team :=
  match a.dk with
  | .reg =>
    let y := if g.dst = .w64 then x.setVPair a.di.toNat j r else x.setV a.di.toNat j r.lo
    y.pushLatch j (if g.dst = .w64 then r else .ofWord r.lo)
  | .latch => x.pushLatch j (if g.dst = .w64 then r else .ofWord r.lo)
  | .mask => x
  | .none => x

/-- A lane instruction has issued with all that it reads: the lane PC and the run advance, a chain goes on or ends, and at its end the
latches are lost (03 R74, R75). need is the number of window words that it has used. -/
def Team.laneRetired (x : Team) (a : LaneArgs) (gov : Mask) (need : Nat) : Team :=
  let y := { x with
    lanePc := x.lanePc + laneWordCount a
    runLeft := x.runLeft - 1
    begun := []
    sc := { x.sc with wait := none, yielded := none } }
  if a.hold then
    { y with
      chainStart := if x.chainPos = 0 then x.lanePc else x.chainStart
      chainPos := x.chainPos + 1
      pushes := x.pushes + (if a.dk = .reg ∨ a.dk = .latch then 1 else 0)
      chainReads := x.chainReads.map (fun ws => ws.drop need)
      chainLog := x.chainLog ++ [(x.lanePc, gov)] }
  else
    { y with
      chainPos := 0
      pushes := 0
      chainReads := none
      chainLog := []
      latches := [] }

/-- The members of a chain as breakpoints see them, with their governing masks. -/
def Team.chainUnits (x : Team) (gov : Mask) : List Done :=
  x.chainLog.map (fun m => ⟨true, m.1, m.2⟩) ++ [⟨true, x.lanePc, gov⟩]

/-- The state after a lane instruction of a team that completed; x is the team as it stood at issue, gov its governing
set. -/
def State.retireLane (s : State) (x : Team) (a : LaneArgs) (gov : Mask) (need : Nat) : State :=
  ((s.mapTeam x.id (fun t => t.laneRetired a gov need)).countPasses x.id x.nw gov).laneDone x.id
    (if a.hold then [] else x.chainUnits gov) x.sc.sup true

/-- The governed lanes' results written, in ascending order (07 R145). -/
def State.writeLanes (s : State) (c : LaneCtx) (r : Nat → PPair) : State :=
  s.mapTeam c.id (fun t => c.g.foldl (fun t j => t.writeLane c.sig c.args j (r j)) t)

/-- The access of a lane memory instruction that has passed its checks, which ends its chain (03 R74). -/
def LaneCtx.access (c : LaneCtx) (k : AccKind) (events : List AccEvent) (dest : AccDest) : Access where
  lane := true
  kind := k
  events := events
  classed := false
  ordered := false
  begun := false
  stale := false
  stepped := c.x.sc.stepping
  got := []
  dest := dest
  wait := none
  units := c.x.chainUnits c.gov
  sup := c.x.sc.sup
  backPc := c.x.sc.pc
  backLane := if c.x.chainPos = 0 then c.x.lanePc else c.x.chainStart
  backLeft := c.x.runLeft + c.x.chainPos
  beside := .none

/-- A lane cause of an instruction is taken; while an older access of the team is outstanding it does not issue (04 R97). -/
def State.laneTrap (s : State) (c : LaneCtx) (t : Trap) : State :=
  if !c.x.sc.accs.isEmpty then s else s.takeLaneTrap c.id t (c.args.hold || c.x.chainPos != 0)

/-- The state that a lane instruction leaves. -/
def State.finishLane (c : LaneCtx) : LaneRes → State
  | .write s r => (s.writeLanes c r).retireLane c.x c.args c.gov c.need
  | .mask s m => (s.mapTeam c.id (fun t => t.setK (c.args.di.extractLsb' 0 4) m)).retireLane c.x c.args c.gov c.need
  | .done s => s.retireLane c.x c.args c.gov c.need
  | .access s a => ((s.mapTeam c.id (fun t => t.laneRetired c.args c.gov c.need)).countPasses c.id c.x.nw c.gov).startAccess c.st a
  | .pending s => s
  | .trap s t => s.laneTrap c t
  | .wait s w => s.block c.st w
  | .retry s => s.unblock c.st
  | .again s => s.mapTeam c.id Team.rewound

/-- The traps of the windows of one instruction that R96 ranks above PAGE, first in operand order of the highest. DEDUCED: notes/assumptions/35. -/
def LaneCtx.windowFault (c : LaneCtx) : Option Trap :=
  chooseTrap ((c.sig.windows c.args).filterMap (fun r =>
    (r.check c.l).map (fun k => (0, ⟨k, 0, c.l.windowVa r.win r.off, 0⟩))))

/-- PAGE and PERM of the windows of one instruction, which every governed lane shows. -/
def LaneCtx.windowPages (c : LaneCtx) (s : State) : List (Nat × Trap) :=
  (c.sig.windows c.args).flatMap (fun r =>
    match State.windowSpots c.ag c.l [r] s with
    | (_, _, some (some t)) => c.g.map (fun j => (j, t))
    | _ => [])

/-- The window words of an instruction: those that its chain read before its first instruction, or those read now
(07 R149). -/
def State.operandWords (s : State) (c : LaneCtx) (i : Instr) : WinRead :=
  match c.x.chainReads with
  | some ws => .ok s ws
  | none => s.startChain c i

/-- The causes that lanes show before all the words of their instruction's windows are known, from those that are known, and whether a leaf is
in migration. -/
abbrev Early := LaneCtx → List PWord → State → List (Nat × Trap) × Bool

/-- A chain that starts finds every phase that it needs, or waits for them with its window words (08 R204). -/
def State.chainOpen (s : State) (c : LaneCtx) (i : Instr) (ws : List PWord) : Bool :=
  !c.args.hold || c.x.chainPos != 0 || chainReady s c.x (i :: ((s.chainRest c).2).getD []) ws

/-- The instruction with its constant-window sources read. Where a window cannot be read, its PAGE or PERM counts with the causes that
the lanes show already, and the highest is taken (04 R96; 03 R77 step 7; 07 R149). The team holds the words until the instruction
retires. -/
def State.withOperands (s : State) (c : LaneCtx) (i : Instr) (early : Early) (body : LaneCtx → State → LaneRes) : LaneRes :=
  match if c.idle i then none else c.windowFault with
  | some t => .trap s { t with lanes := c.gov }
  | none =>
    match s.operandWords c i with
    | .pending s => .pending s
    | .retry s => .retry s
    | .ok s ws =>
      let hold := fun (s : State) (ws : List PWord) => s.mapTeam c.id (fun t => { t with chainReads := some ws })
      if c.idle i || c.need ≤ ws.length then
        if s.chainOpen c i ws then body (c.withWindows ws) (hold s ws) else .wait (hold s ws) .chainPhase
      else
        match early c ws s, State.windowSpots c.ag c.l (c.sig.windows c.args) s with
        | (fs, stall), (s, ps, stop) =>
          match chooseTrap (c.windowPages s ++ fs) with
          | some t => if stall then .retry s else .trap s t
          | none =>
            if stall || stop.isSome then .retry s
            else
              match s.readWindows c ps with
              | .pending s => .pending s
              | .retry s => .retry s
              | .ok s own => body (c.withWindows own) (hold s own)

/-- Steps 2 to 6 of the decode checks (03 R77): the trap of the first that fails. -/
def laneCheck (s : State) (x : Team) (i : Instr) (g : LaneSig) (a : LaneArgs) : Option Cause :=
  if !laneLegal i || !s.offered i then some .illegal
  else if roleFault s x i then some .role
  else if quotaFault x g a then some .quota
  else if chainFault x a then some .latchChain
  else if staleFault x a then some .latchStale
  else none

/-- What a lane instruction runs with: the team of the current stream, placed, with its launch and entry. -/
def State.laneCtx (s : State) (i : Instr) : Option LaneCtx :=
  match s.cur, laneSig i with
  | some (.team id), some (g, a) =>
    match s.team? id with
    | some x =>
      match x.place, s.launch? x.launch with
      | some p, some l =>
        match l.entries[x.entry]? with
        | some e => some ⟨x, p, l, e, x.agent l p.core, g, a, lanesIn (x.governed a.ks) x.lanes, .zero, .zero, .zero⟩
        | none => none
      | _, _ => none
    | none => none
  | _, _ => none

/-- A lane instruction (07 R145): decode checks, operands, and its body. early gives the causes that need no window word. -/
def laneInstrWith (i : Instr) (early : Early) (body : LaneCtx → State → LaneRes) (s : State) :
    Out :=
  match s.laneCtx i with
  | none => .fault .noStream
  | some c =>
    .next (State.finishLane c
      (match laneCheck s c.x i c.sig c.args with
       | some k => .trap s (c.trapAll k)
       | none => s.withOperands c i early body))

def laneInstr (i : Instr) (body : LaneCtx → State → LaneRes) (s : State) : Out :=
  laneInstrWith i (fun _ _ _ => ([], false)) body s

/-! ## Elementwise results -/

/-- A value of a 32- or 64-bit destination with one poison bit. -/
def dstValue (d : DstUse) (v : DWord) (q : Bool) : PPair :=
  if d = .w64 then .ofVal v q else .ofWord ⟨v.setWidth 32, q⟩

/-- An elementwise instruction: each result word depends on every source word of its lane (07 R148). -/
def elementwise (f : DWord → DWord → DWord → DWord) (c : LaneCtx) (s : State) : LaneRes :=
  .write s (fun j => dstValue c.sig.dst (f (c.a j).val (c.b j).val (c.c j).val) (c.poison j))

/-- The lanes that consume a poisoned word, as causes (11 R250). -/
def poisoned (c : LaneCtx) (f : Nat → Bool) : List (Nat × Trap) :=
  (c.g.filter f).map (fun j => (j, Trap.of .poison))

end Sys2Proof.Machine
end

