-- ==== Sys2Proof/Machine/Flags.lean ====
section
/-! DEFINITION. Relations, conditions and bit counts: what compares write and branches test (spec/05 R108, R111–R113,
spec/07 R161, R164), and the status words that instructions return (spec/08 R200, spec/13 R303, spec/17 R369). -/

namespace Sys2Proof.Machine

/-! ## Bit counts -/

/-- Leading zero bits of a w-bit value (05 R108, 07 R161). -/
def leadingZeros {w : Nat} (x : BitVec w) : Nat := ((List.range w).reverse.takeWhile (fun i => !x.getLsbD i)).length

/-- Trailing zero bits. -/
def trailingZeros {w : Nat} (x : BitVec w) : Nat := ((List.range w).takeWhile (fun i => !x.getLsbD i)).length

/-- Set bits. -/
def popCount {w : Nat} (x : BitVec w) : Nat := ((List.range w).filter (fun i => x.getLsbD i)).length

/-! ## Relations -/

/-- A relation of ICMP (07 R164). -/
def irelHolds {w : Nat} (r : IRel) (signed : Bool) (a b : BitVec w) : Bool :=
  match r with
  | .eq => a == b
  | .ne => a != b
  | .lt => lesser signed a b
  | .le => !lesser signed b a
  | .gt => lesser signed b a
  | .ge => !lesser signed a b

/-! ## Conditions of branches -/

/-- The conditions of the scalar branches on a register read signed (05 R112). -/
inductive Cond | eqz | nez | ltz | gez | gtz | lez
  deriving DecidableEq, Repr

def Cond.holds (c : Cond) (w : Word) : Bool :=
  match c with
  | .eqz => w == 0
  | .nez => w != 0
  | .ltz => w.slt 0
  | .gez => !w.slt 0
  | .gtz => BitVec.slt 0 w
  | .lez => !BitVec.slt 0 w

/-! ## Status words -/

/-- STATE in bits [2:0] and CLASS in bits [6:3], as HTEST returns them (13 R303); zero for an idle handle. -/
def Handle.word (h : Handle) : Word :=
  if h.st = .idle then 0 else BitVec.ofNat 32 (h.st.code + 8 * h.cls.code)

/-- The status of an array core that MBANK returns (08 R200). -/
def ArrayState.word (a : ArrayState) : Word :=
  let bits := fun (f : Fin 4 → Bool) => ((List.finRange 4).map (fun i => if f i then 2 ^ i.val else 0)).sum
  BitVec.ofNat 32
    (bits (fun i => (a.ab.get i).full) + 2 ^ 4 * bits (fun i => (a.bb.get i).full)
      + 2 ^ 8 * bits (fun i => (a.acc.get i).drain) + 2 ^ 12 * bits (fun i => (a.bb.get i).z)
      + 2 ^ 16 * bits (fun i => (a.acc.get i).elems.any (fun e => e.2.poison)) + 2 ^ 20 * a.queue.length)

end Sys2Proof.Machine
end

