-- ==== Sys2Proof/Machine/Float.lean ====
section
/-! DEFINITION. Floating-point arithmetic: encodings and their exact values (spec/06 R127–R129), rounding, overflow, the
sign of zero and flushing (R134–R138), the operations and special functions (spec/07 R151–R158), and the shadow check
(spec/06 R143, R144). Numbers are (−1)^neg · m · 2^e with m a natural number and e an integer. -/

namespace Sys2Proof.Machine

/-! ## Formats -/

inductive FK | f64 | f32 | f16 | bf16 | e4m3 | e5m2
  deriving DecidableEq, Repr

/-- Fraction bits, exponent bits and bias (06 R127). -/
def FK.fbits : FK → Nat
  | .f64 => 52
  | .f32 => 23
  | .f16 => 10
  | .bf16 => 7
  | .e4m3 => 3
  | .e5m2 => 2

def FK.ebits : FK → Nat
  | .f64 => 11
  | .f32 => 8
  | .f16 => 5
  | .bf16 => 8
  | .e4m3 => 4
  | .e5m2 => 5

def FK.bias (k : FK) : Nat := 2 ^ (k.ebits - 1) - 1

/-- The exponent of the smallest normal value. -/
def FK.emin (k : FK) : Int := 1 - k.bias

def FK.signBit (k : FK) : Nat := 2 ^ (k.ebits + k.fbits)

/-- Canonical NaN (06 R127). -/
def FK.nan : FK → Nat
  | .f64 => 0x7FF8000000000000
  | .f32 => 0x7FC00000
  | .f16 => 0x7E00
  | .bf16 => 0x7FC0
  | .e4m3 => 0x7F
  | .e5m2 => 0x7E

/-- The largest finite value, as an encoding (06 R127). -/
def FK.max : FK → Nat
  | .f64 => 0x7FEFFFFFFFFFFFFF
  | .f32 => 0x7F7FFFFF
  | .f16 => 0x7BFF
  | .bf16 => 0x7F7F
  | .e4m3 => 0x7E
  | .e5m2 => 0x7B

def FK.signed (k : FK) (neg : Bool) (x : Nat) : Nat := if neg then k.signBit + x else x

/-- Infinity; E4M3 has none and holds its NaN there (06 R128, R135, R138). -/
def FK.inf (k : FK) (neg : Bool) : Nat :=
  if k = .e4m3 then k.nan else k.signed neg ((2 ^ k.ebits - 1) * 2 ^ k.fbits)

/-- The flush bit of a format in FMT (06 R137, 04 R89); FP8 formats are never flushed. -/
def FK.ftz (k : FK) (fmt : Word) : Bool :=
  match k with
  | .f64 => fmt.getLsbD 5
  | .f32 => fmt.getLsbD 3
  | .f16 => fmt.getLsbD 4
  | .bf16 => fmt.getLsbD 4
  | .e4m3 => false
  | .e5m2 => false

/-! ## Values -/

/-- The value of an encoding: zero has m = 0. -/
inductive FV
  | nan
  | inf (neg : Bool)
  | num (neg : Bool) (m : Nat) (e : Int)
  deriving DecidableEq, Repr

def FK.frac (k : FK) (x : Nat) : Nat := x % 2 ^ k.fbits
def FK.expo (k : FK) (x : Nat) : Nat := x / 2 ^ k.fbits % 2 ^ k.ebits
def FK.neg (k : FK) (x : Nat) : Bool := x / k.signBit % 2 == 1

/-- An encoding's value (06 R128, R129). -/
def FK.value (k : FK) (x : Nat) : FV :=
  let f := k.frac x
  let e := k.expo x
  if e = 2 ^ k.ebits - 1 ∧ (k ≠ .e4m3 ∨ f = 7) then (if f = 0 then .inf (k.neg x) else .nan)
  else if e = 0 then .num (k.neg x) f (k.emin - k.fbits)
  else .num (k.neg x) (2 ^ k.fbits + f) (e - k.bias - k.fbits)

/-- An input operand: a subnormal encoding is read as zero of its sign when the format's flush bit is set (06 R137). -/
def FK.input (k : FK) (fmt : Word) (x : Nat) : FV :=
  if k.ftz fmt ∧ k.expo x = 0 then .num (k.neg x) 0 0 else k.value x

/-! ## Rounding -/

/-- Rounding modes (06 R134, 04 R89): codes 0 and 1 are RNE. -/
inductive Mode | rne | rtz | rdn | rup
  deriving DecidableEq, Repr

def Mode.ofCode (c : BitVec 3) : Mode :=
  if c = 2 then .rtz else if c = 3 then .rdn else if c = 4 then .rup else .rne

/-- m / 2^d rounded to an integer in a mode; sticky adds a part below the last bit of m (06 R134). -/
def roundShift (mode : Mode) (neg sticky : Bool) (m d : Nat) : Nat :=
  let fl := m / 2 ^ d
  let r := 4 * (m % 2 ^ d) + (if sticky then 1 else 0)
  let half := 2 * 2 ^ d
  let up : Bool := match mode with
    | .rne => half < r || (r == half && fl % 2 == 1)
    | .rtz => false
    | .rdn => neg && r != 0
    | .rup => !neg && r != 0
  if up then fl + 1 else fl

/-- The number of bits of a natural number. -/
def bitLength (m : Nat) : Nat := if m = 0 then 0 else m.log2 + 1

/-- m · 2^e, plus a smaller part when sticky, rounded to p bits with the quantum no smaller than 2^qmin when one is
given: the integer multiple and the quantum's exponent. -/
def roundTo (p : Nat) (qmin : Option Int) (mode : Mode) (neg : Bool) (m : Nat) (e : Int) (sticky : Bool) : Nat × Int :=
  let top : Int := e + bitLength m
  let q := match qmin with
    | some z => max (top - p) z
    | none => top - p
  if q ≤ e then (m * 2 ^ (e - q).toNat, q) else (roundShift mode neg sticky m (q - e).toNat, q)

/-- A comparison of m · 2^e with n · 2^f. -/
def magLt (m : Nat) (e : Int) (n : Nat) (f : Int) : Bool :=
  if e ≤ f then m < n * 2 ^ (f - e).toNat else m * 2 ^ (e - f).toNat < n

/-- The encoding of r · 2^q, a value of the format. -/
def FK.encode (k : FK) (neg : Bool) (r : Nat) (q : Int) : Nat :=
  let (r, q) := if r = 2 ^ (k.fbits + 1) then (2 ^ k.fbits, q + 1) else (r, q)
  k.signed neg (if r < 2 ^ k.fbits then r else ((q + k.fbits + k.bias).toNat * 2 ^ k.fbits + (r - 2 ^ k.fbits)))

/-- The result of an overflow; sat is FMT.F8SAT, which only conversions to FP8 heed (06 R135, R138). -/
def FK.overflow (k : FK) (mode : Mode) (neg sat : Bool) : Nat :=
  let inf := match mode with
    | .rne => true
    | .rtz => false
    | .rdn => neg
    | .rup => !neg
  if sat && (k == .e4m3 || k == .e5m2) then k.signed neg k.max
  else if inf then k.inf neg else k.signed neg k.max

/-- An exact result before rounding: sticky marks a magnitude a little above m · 2^e, which then has bits to spare. -/
inductive Exact
  | nan
  | inf (neg : Bool)
  | zero (neg : Bool)
  | fin (neg : Bool) (m : Nat) (e : Int) (sticky : Bool)
  deriving DecidableEq, Repr

/-- How results of a format are made: mode, flush bit and FP8 saturation. -/
structure Env where
  mode : Mode
  fmt : Word
  sat : Bool
  deriving DecidableEq, Repr

/-- rnd and flush_out: an exact result as an encoding (06 R134–R138). -/
def FK.round (k : FK) (v : Env) (x : Exact) : Nat :=
  match x with
  | .nan => k.nan
  | .inf neg => if v.sat && (k == .e4m3 || k == .e5m2) then k.signed neg k.max else k.inf neg
  | .zero neg => k.signed neg 0
  | .fin neg m e sticky =>
    let p := k.fbits + 1
    let (ru, qu) := roundTo p none v.mode neg m e sticky
    if k.ftz v.fmt && magLt ru qu 1 k.emin then k.signed neg 0
    else
      let (r, q) := roundTo p (some (k.emin - k.fbits)) v.mode neg m e sticky
      let big := match k.value k.max with
        | .num _ mm me => magLt mm me r q
        | .inf _ => false
        | .nan => false
      if big then k.overflow v.mode neg v.sat else k.encode neg r q

/-! ## Exact operations -/

/-- A signed number as an integer multiple of 2^e. -/
def signedMag (neg : Bool) (m : Nat) : Int := if neg then -(m : Int) else m

def Exact.ofInt (i : Int) (e : Int) : Exact := .fin (i < 0) i.natAbs e false

/-- The value of an encoding as an exact result. -/
def FV.exact : FV → Exact
  | .nan => .nan
  | .inf n => .inf n
  | .num n m e => if m = 0 then .zero n else .fin n m e false

def FV.negate : FV → FV
  | .nan => .nan
  | .inf n => .inf (!n)
  | .num n m e => .num (!n) m e

/-- An exact product as a value (06 R136). -/
def FV.mul : FV → FV → FV
  | .nan, _ => .nan
  | _, .nan => .nan
  | .inf a, .inf b => .inf (a != b)
  | .inf a, .num b m _ => if m = 0 then .nan else .inf (a != b)
  | .num a m _, .inf b => if m = 0 then .nan else .inf (a != b)
  | .num a m e, .num b n f => .num (a != b) (m * n) (e + f)

/-- An exact sum, with the sign of an exact zero (06 R136). A sum of two zeros of like sign, which R136 does not list, keeps their sign in
every mode. DESIGN CHOICE: notes/assumptions/123. -/
def FV.add (mode : Mode) : FV → FV → Exact
  | .nan, _ => .nan
  | _, .nan => .nan
  | .inf a, .inf b => if a = b then .inf a else .nan
  | .inf a, .num _ _ _ => .inf a
  | .num _ _ _, .inf b => .inf b
  | .num a m e, .num b n f =>
    let g := min e f
    let i := signedMag a (m * 2 ^ (e - g).toNat) + signedMag b (n * 2 ^ (f - g).toNat)
    if i = 0 then .zero (if a = b ∧ m = 0 ∧ n = 0 then a else mode == .rdn) else .ofInt i g

/-- The five operations of 07 R151. -/
inductive FOp | add | sub | mul | fma | fms
  deriving DecidableEq, Repr

def FOp.exact (o : FOp) (mode : Mode) (a b c : FV) : Exact :=
  match o with
  | .add => a.add mode b
  | .sub => a.add mode b.negate
  | .mul => (a.mul b).exact
  | .fma => (a.mul b).add mode c
  | .fms => (a.mul b).add mode c.negate

/-- An operation on encodings of one format (07 R151). -/
def FK.arith (k : FK) (o : FOp) (v : Env) (a b c : Nat) : Nat :=
  k.round v (o.exact v.mode (k.input v.fmt a) (k.input v.fmt b) (k.input v.fmt c))

/-! ## Order -/

/-- A total comparison of numbers that are not NaN, by value. -/
def FV.lt : FV → FV → Bool
  | .nan, _ => false
  | _, .nan => false
  | .inf a, .inf b => a && !b
  | .inf a, .num _ _ _ => a
  | .num _ _ _, .inf b => !b
  | .num a m e, .num b n f =>
    let g := min e f
    signedMag a (m * 2 ^ (e - g).toNat) < signedMag b (n * 2 ^ (f - g).toNat)

def FV.isNan : FV → Bool
  | .nan => true
  | .inf _ => false
  | .num _ _ _ => false

/-- The operand after flush_in, as an encoding. -/
def FK.flushed (k : FK) (fmt : Word) (x : Nat) : Nat :=
  if k.ftz fmt ∧ k.expo x = 0 then k.signed (k.neg x) 0 else x

/-- a is chosen before b: the lesser, with −0 below +0 (07 R152). -/
def FK.below (k : FK) (a b : Nat) : Bool :=
  (k.value a).lt (k.value b) || (!(k.value b).lt (k.value a) && k.neg a && !k.neg b)

/-- minimumNumber and maximumNumber (07 R152). -/
def FK.minmax (k : FK) (max : Bool) (fmt : Word) (a b : Nat) : Nat :=
  let x := k.flushed fmt a
  let y := k.flushed fmt b
  if (k.value x).isNan then (if (k.value y).isNan then k.nan else y)
  else if (k.value y).isNan then x
  else if max then (if k.below x y then y else x) else (if k.below y x then y else x)

/-- A relation of FCMP after flush_in (07 R164). -/
def frelHolds (r : FRel) (a b : FV) : Bool :=
  let nan := a.isNan || b.isNan
  match r with
  | .eq => !nan && !a.lt b && !b.lt a
  | .ne => nan || a.lt b || b.lt a
  | .lt => !nan && a.lt b
  | .le => !nan && !b.lt a
  | .gt => !nan && b.lt a
  | .ge => !nan && !a.lt b
  | .un => nan
  | .or => !nan

/-- The class bit of an encoding, unflushed (07 R155). -/
def FK.classWord (k : FK) (x : Nat) : Nat :=
  match k.value x with
  | .nan => 2 ^ 8
  | .inf true => 2 ^ 0
  | .inf false => 2 ^ 7
  | .num n m _ =>
    if m = 0 then (if n then 2 ^ 3 else 2 ^ 4)
    else if k.expo x = 0 then (if n then 2 ^ 2 else 2 ^ 5)
    else if n then 2 ^ 1 else 2 ^ 6

/-- FABS and FNEG (07 R153). -/
def FK.sign (k : FK) (negate : Bool) (fmt : Word) (a : Nat) : Nat :=
  let x := k.flushed fmt a
  if (k.value x).isNan then k.nan
  else if negate then k.signed (!k.neg x) (x % k.signBit) else x % k.signBit

/-- A number rounded to an integer in a mode: its magnitude. -/
def roundInt (mode : Mode) (neg : Bool) (m : Nat) (e : Int) : Nat :=
  if 0 ≤ e then m * 2 ^ e.toNat else roundShift mode neg false m (-e).toNat

/-- FRINT (07 R154). -/
def FK.rint (k : FK) (v : Env) (a : Nat) : Nat :=
  match k.input v.fmt a with
  | .nan => k.nan
  | .inf n => k.inf n
  | .num n m e =>
    if 0 ≤ e then k.flushed v.fmt a
    else
      let i := roundInt v.mode n m e
      if i = 0 then k.signed n 0
      else
        let (r, q) := roundTo (k.fbits + 1) none .rtz n i 0 false
        k.encode n r q

/-! ## Division and square root (07 R156) -/

/-- The integer square root, bit by bit from bit n. -/
def isqrtFrom : Nat → Nat → Nat → Nat
  | 0, x, r => if (r + 1) * (r + 1) ≤ x then r + 1 else r
  | n + 1, x, r =>
    let t := r + 2 ^ (n + 1)
    isqrtFrom n x (if t * t ≤ x then t else r)

/-- ⌊√x⌋. -/
def isqrt (x : Nat) : Nat := isqrtFrom (bitLength x / 2 + 1) x 0

/-- An exact quotient to 140 bits and a sticky part. -/
def FV.div : FV → FV → Exact
  | .nan, _ => .nan
  | _, .nan => .nan
  | .inf _, .inf _ => .nan
  | .inf a, .num b _ _ => .inf (a != b)
  | .num a _ _, .inf b => .zero (a != b)
  | .num a m e, .num b n f =>
    if n = 0 then (if m = 0 then .nan else .inf (a != b))
    else if m = 0 then .zero (a != b)
    else
      let x := m * 2 ^ 140
      .fin (a != b) (x / n) (e - f - 140) (x % n ≠ 0)

/-- The square root of a value, or of its reciprocal: m · 2^e with e even is scaled to an integer of at least 160
bits. -/
def FV.sqrt (recip : Bool) : FV → Exact
  | .nan => .nan
  | .inf n => if n then .nan else if recip then .zero false else .inf false
  | .num n m e =>
    if m = 0 then (if recip then .inf n else .zero n)
    else if n then .nan
    else
      let (m, e) := if e % 2 = 0 then (m, e) else (2 * m, e - 1)
      if recip then
        let r := isqrt (2 ^ 400 / m)
        .fin false r (-200 - e / 2) (r * r * m ≠ 2 ^ 400)
      else
        let x := m * 2 ^ 160
        let r := isqrt x
        .fin false r (e / 2 - 80) (r * r ≠ x)

/-! ## Special functions (07 R156–R158; DEDUCED, notes/assumptions/8) -/

/-- The fixed point of the special functions: 256 bits below the point. -/
def one : Nat := 2 ^ 256

/-- π and ln 2 in fixed point, rounded down. -/
def piFixed : Nat := 0x3243f6a8885a308d313198a2e03707344a4093822299f31d0082efa98ec4e6c89
def ln2Fixed : Nat := 0xb17217f7d1cf79abc9e3b39803f2f6af40f343267298b62d8a0d175b8baafa2b

/-- The terms of e^x from the k-th on, in fixed point. -/
def expTerms : Nat → Nat → Nat → Nat → Nat
  | 0, _, _, _ => 0
  | fuel + 1, x, t, k => t + expTerms fuel x (t * x / one / (k + 1)) (k + 1)

/-- 2^f for f in [0, 1), in fixed point. -/
def exp2Fixed (f : Nat) : Nat := expTerms 80 (f * ln2Fixed / one) one 0

/-- The sum of z^(2k+1)/(2k+1) from a term on. -/
def atanhTerms : Nat → Nat → Nat → Nat → Nat
  | 0, _, _, _ => 0
  | fuel + 1, z2, t, k => t / (2 * k + 1) + atanhTerms fuel z2 (t * z2 / one) (k + 1)

/-- log2 of x in [1, 2), in fixed point. -/
def log2Fixed (x : Nat) : Nat :=
  let z := (x - one) * one / (x + one)
  2 * atanhTerms 90 (z * z / one) z 0 * one / ln2Fixed

/-- An alternating series of sine or cosine: terms t · x² / ((k+1)(k+2)), as positive and negative sums. -/
def altTerms : Nat → Nat → Nat → Nat → Nat × Nat
  | 0, _, _, _ => (0, 0)
  | fuel + 1, x2, t, k =>
    let (p, n) := altTerms fuel x2 (t * x2 / one / ((k + 1) * (k + 2))) (k + 2)
    (t + n, p)

/-- sin and cos of 2π·u for u in [0, 1/4), in fixed point. -/
def sinFixed (u : Nat) : Nat :=
  let x := 2 * u * piFixed / one
  let (p, n) := altTerms 45 (x * x / one) x 1
  p - n

def cosFixed (u : Nat) : Nat :=
  let x := 2 * u * piFixed / one
  let (p, n) := altTerms 45 (x * x / one) one 0
  p - n

/-- 2^a (07 R156, R157). -/
def FV.exp2 : FV → Exact
  | .nan => .nan
  | .inf n => if n then .zero false else .inf false
  | .num n m e =>
    if m = 0 then .fin false 1 0 false
    else if !magLt m e 1 9 then (if n then .zero false else .inf false)
    else
      let mag : Int := if 0 ≤ e then m * 2 ^ e.toNat * one else m * one / 2 ^ (-e).toNat
      let exactly := 0 ≤ e ∨ m * one % 2 ^ (-e).toNat = 0
      let fixed : Int := if n then -(mag + (if exactly then 0 else 1)) else mag
      let k := fixed / one
      let f := (fixed % one).toNat
      if f = 0 ∧ exactly then .fin false 1 k false
      else .fin false (exp2Fixed f) (k - 256) true

/-- log2 a (07 R156, R157). -/
def FV.log2 : FV → Exact
  | .nan => .nan
  | .inf n => if n then .nan else .inf false
  | .num n m e =>
    if m = 0 then .inf true
    else if n then .nan
    else
      let l := m.log2
      let k : Int := e + l
      if m = 2 ^ l then (if k = 0 then .zero false else .ofInt k 0)
      else
        let v : Int := k * one + log2Fixed (m * one / 2 ^ l)
        .fin (v < 0) v.natAbs (-256) true

/-- sin or cos of 2π·a, the argument reduced exactly modulo 1 (07 R156, R157). -/
def FV.turns (cos : Bool) : FV → Exact
  | .nan => .nan
  | .inf _ => .nan
  | .num n m e =>
    if m = 0 then (if cos then .fin false 1 0 false else .zero n)
    else
      let u := (if 0 ≤ e + 256 then m * 2 ^ (e + 256).toNat else m / 2 ^ (-(e + 256)).toNat) % one
      let quad := u / 2 ^ 254
      let r := u % 2 ^ 254
      let useCos := (quad % 2 = 1) != cos
      let neg := if cos then quad = 1 ∨ quad = 2 else (2 ≤ quad) != n
      if r = 0 then (if useCos then .fin neg 1 0 false else .zero false)
      else .fin neg (if useCos then cosFixed r else sinFixed r) (-256) true

/-! ## Sums of many operands (07 R169) -/

/-- The least exponent among finite values. -/
def leastExponent (xs : List FV) : Int :=
  xs.foldl (fun (g : Int) x =>
    match x with
    | .num _ _ e => min g e
    | .inf _ => g
    | .nan => g) 0

/-- The exact sum of many values, rounded once: NaN and infinities first, then the sign of an exact zero. -/
def FK.sum (k : FK) (v : Env) (xs : List FV) : Nat :=
  let g := leastExponent xs
  let posInf := xs.any (· == .inf false)
  let negInf := xs.any (· == .inf true)
  if xs.any FV.isNan || (posInf && negInf) then k.nan
  else if posInf then k.inf false
  else if negInf then k.inf true
  else
    let i := xs.foldl (fun (t : Int) x =>
      match x with
      | .num n m e => t + signedMag n (m * 2 ^ (e - g).toNat)
      | .inf _ => t
      | .nan => t) 0
    let allNegZero := xs.all (fun x =>
      match x with
      | .num n m _ => n && m == 0
      | .inf _ => false
      | .nan => false)
    k.round v (if i = 0 then .zero ((allNegZero && !xs.isEmpty) || v.mode == .rdn) else .ofInt i g)

/-! ## Conversions (06 R138–R140, 07 R159) -/

/-- The floating-point kind of a conversion format. -/
def fmtFK : Fmt → Option FK
  | .f32 => some .f32
  | .f64 => some .f64
  | .f16 => some .f16
  | .bf16 => some .bf16
  | .e4m3 => some .e4m3
  | .e5m2 => some .e5m2
  | .i8 => none
  | .i16 => none
  | .i32 => none
  | .i64 => none
  | .n8 => none
  | .n16 => none
  | .n32 => none
  | .n64 => none

/-- Width and signedness of an integer conversion format. -/
def fmtInt : Fmt → Nat × Bool
  | .i8 => (8, true)
  | .i16 => (16, true)
  | .i32 => (32, true)
  | .i64 => (64, true)
  | .n8 => (8, false)
  | .n16 => (16, false)
  | .n32 => (32, false)
  | .n64 => (64, false)
  | .f32 => (32, false)
  | .f64 => (64, false)
  | .f16 => (16, false)
  | .bf16 => (16, false)
  | .e4m3 => (8, false)
  | .e5m2 => (8, false)

/-- The integer that a source of a format holds (06 R126). -/
def fmtIntValue (f : Fmt) (x : Nat) : Int :=
  let (w, signed) := fmtInt f
  if signed then (BitVec.ofNat w x).toInt else (x % 2 ^ w : Nat)

/-- An integer saturated to a format's range, and placed in a register or pair: sign- or zero-extended to 32 bits, or 64
bits wide (06 R126, R139, R140). -/
def fmtPutInt (f : Fmt) (i : Int) : DWord :=
  let (w, signed) := fmtInt f
  let lo : Int := if signed then -(2 ^ (w - 1) : Nat) else 0
  let hi : Int := if signed then (2 ^ (w - 1) : Nat) - 1 else (2 ^ w : Nat) - 1
  let v := if i < lo then lo else if hi < i then hi else i
  if w = 64 then BitVec.ofInt 64 v else (BitVec.ofInt 32 v).setWidth 64

/-- A conversion: the source pattern to the destination pattern (07 R159). The integer 0 becomes +0 in every mode, where R136 and R139 name no
sign. DESIGN CHOICE: notes/assumptions/123. -/
def convert (dst src : Fmt) (v : Env) (x : DWord) : DWord :=
  match fmtFK src with
  | some ks =>
    let a := ks.input v.fmt (x.toNat % (2 * ks.signBit))
    match fmtFK dst with
    | some kd => BitVec.ofNat 64 (kd.round v a.exact)
    | none =>
      match a with
      | .nan => 0
      | .inf n => fmtPutInt dst (if n then -(2 ^ 64 : Nat) else (2 ^ 64 : Nat))
      | .num n m e => fmtPutInt dst (signedMag n (roundInt v.mode n m e))
  | none =>
    let i := fmtIntValue src x.toNat
    match fmtFK dst with
    | some kd => BitVec.ofNat 64 (kd.round v (if i = 0 then .zero false else .ofInt i 0))
    | none => fmtPutInt dst i

/-! ## The shadow check (06 R143, R144) -/

/-- A signed dyadic number i · 2^e. -/
structure Dyad where
  i : Int
  e : Int
  deriving DecidableEq, Repr

def Dyad.le (a b : Dyad) : Bool :=
  let g := min a.e b.e
  a.i * 2 ^ (a.e - g).toNat ≤ b.i * 2 ^ (b.e - g).toNat

def Dyad.add (a b : Dyad) : Dyad :=
  let g := min a.e b.e
  ⟨a.i * 2 ^ (a.e - g).toNat + b.i * 2 ^ (b.e - g).toNat, g⟩

def Dyad.mul (a b : Dyad) : Dyad := ⟨a.i * b.i, a.e + b.e⟩
def Dyad.neg (a : Dyad) : Dyad := ⟨-a.i, a.e⟩

/-- A bound rounded to 11 significant bits, downward or upward, with the destination's least exponent: its quantum is no smaller than that
of the destination's subnormals (R143 step 2). -/
def Dyad.outward (k : FK) (a : Dyad) (up : Bool) : Dyad :=
  let (r, q) := roundTo 11 (some (k.emin - k.fbits)) (if up then .rup else .rdn) (a.i < 0) a.i.natAbs a.e false
  ⟨signedMag (a.i < 0) r, q⟩

/-- An interval of values. -/
structure Span where
  lo : Dyad
  hi : Dyad
  deriving DecidableEq, Repr

/-- An operand truncated to 11 significant bits, with one unit of its last place (R143 step 1). Zero has no last place: its interval is [0, 0].
DESIGN CHOICE: notes/assumptions/123. -/
def FV.span : FV → Span
  | .nan => ⟨⟨0, 0⟩, ⟨0, 0⟩⟩
  | .inf _ => ⟨⟨0, 0⟩, ⟨0, 0⟩⟩
  | .num n m e =>
    let l := bitLength m
    if m = 0 then ⟨⟨0, 0⟩, ⟨0, 0⟩⟩
    else
      let (t, q) : Nat × Int := if l ≤ 11 then (m * 2 ^ (11 - l), e - (11 - l : Nat)) else (m / 2 ^ (l - 11), e + (l - 11 : Nat))
      if n then ⟨⟨-(t + 1 : Nat), q⟩, ⟨-(t : Nat), q⟩⟩ else ⟨⟨t, q⟩, ⟨(t + 1 : Nat), q⟩⟩

def Span.add (a b : Span) : Span := ⟨a.lo.add b.lo, a.hi.add b.hi⟩
def Span.neg (a : Span) : Span := ⟨a.hi.neg, a.lo.neg⟩

def Span.mul (a b : Span) : Span :=
  let ps := [a.lo.mul b.lo, a.lo.mul b.hi, a.hi.mul b.lo, a.hi.mul b.hi]
  ⟨ps.foldl (fun x y => if y.le x then y else x) (a.lo.mul b.lo), ps.foldl (fun x y => if x.le y then y else x) (a.lo.mul b.lo)⟩

def Span.outward (k : FK) (a : Span) : Span := ⟨a.lo.outward k false, a.hi.outward k true⟩

/-- The interval of an operation over operand intervals (R143 step 2). -/
def FOp.span (o : FOp) (k : FK) (a b c : FV) : Span :=
  match o with
  | .add => (a.span.add b.span).outward k
  | .sub => (a.span.add b.span.neg).outward k
  | .mul => (a.span.mul b.span).outward k
  | .fma => ((a.span.mul b.span).add c.span).outward k
  | .fms => ((a.span.mul b.span).add c.span.neg).outward k

/-- The results that pass where an infinity is predicted: an infinity that the destination has, and what R138 gives for it. -/
def FK.infResults (k : FK) (v : Env) (n : Bool) : List Nat :=
  match k with
  | .e4m3 => [k.round v (.inf n)]
  | .e5m2 => [k.inf n, k.round v (.inf n)]
  | .f64 => [k.inf n]
  | .f32 => [k.inf n]
  | .f16 => [k.inf n]
  | .bf16 => [k.inf n]

/-- A main result passes the check of R144; x is the exact result, which gives the class prediction, and sp the shadow's
interval. -/
def FK.passes (k : FK) (v : Env) (x : Exact) (sp : Span) (r : Nat) : Bool :=
  match x with
  | .nan => r == k.nan
  | .inf n => (k.infResults v n).contains r
  | _ =>
    let zero : Dyad := ⟨0, 0⟩
    let biggest : Dyad := match k.value k.max with
      | .num _ m e => ⟨m, e⟩
      | .inf _ => zero
      | .nan => zero
    let least : Dyad := ⟨1, k.emin⟩
    let isZero := r % k.signBit == 0
    let inSpan := match k.value r with
      | .num n m e => sp.lo.le ⟨signedMag n m, e⟩ && Dyad.le ⟨signedMag n m, e⟩ sp.hi
      | .inf _ => false
      | .nan => false
    let meetsSub := !(least.le sp.lo) && !(sp.hi.le least.neg)
    let overflows := fun (n : Bool) => r == k.overflow v.mode n false || r == k.overflow v.mode n v.sat
    inSpan || (!(sp.hi.le biggest) && overflows false) || (!(biggest.neg.le sp.lo) && overflows true)
      || (sp.lo.le zero && zero.le sp.hi && isZero)
      || (k.ftz v.fmt && meetsSub && isZero)

end Sys2Proof.Machine
end

