-- ==== Sys2Proof/Machine/LaneArith.lean ====
section
/-! DEFINITION. Lane arithmetic: floating point, special functions, conversions, integers, bits and compares (spec/07
R151–R164), with the shadow check of the lane units (spec/06 R143, R144; spec/11 R257). -/

namespace Sys2Proof.Machine

/-! ## Types -/

/-- A function on the elements of a floating-point type, applied to both halves of a packed pair (07 R151). -/
def onFloat (t : FTy) (f : FK → Nat → Nat → Nat → Nat) (a b c : DWord) : DWord :=
  let half := fun (k : FK) (i : Nat) =>
    BitVec.ofNat 16 (f k (a.extractLsb' (16 * i) 16).toNat (b.extractLsb' (16 * i) 16).toNat (c.extractLsb' (16 * i) 16).toNat)
  match t with
  | .f32 => BitVec.ofNat 64 (f .f32 (a.setWidth 32).toNat (b.setWidth 32).toNat (c.setWidth 32).toNat)
  | .f64 => BitVec.ofNat 64 (f .f64 a.toNat b.toNat c.toNat)
  | .f16 => (half .f16 1 ++ half .f16 0).setWidth 64
  | .bf16 => (half .bf16 1 ++ half .bf16 0).setWidth 64

def dtyFTy : DTy → FTy
  | .f32 => .f32
  | .f64 => .f64

def dtyFK : DTy → FK
  | .f32 => .f32
  | .f64 => .f64

/-- The low bits of an operand that a kind reads. -/
def FK.bitsOf (k : FK) (x : DWord) : Nat := x.toNat % (2 * k.signBit)

/-- A function on integers of a type's width; the flag tells a signed type. -/
def onInt (t : ITy) (f : {w : Nat} → Bool → BitVec w → BitVec w → BitVec w → BitVec w) (a b c : DWord) : DWord :=
  match t with
  | .i32 => (f true (a.setWidth 32) (b.setWidth 32) (c.setWidth 32)).setWidth 64
  | .n32 => (f false (a.setWidth 32) (b.setWidth 32) (c.setWidth 32)).setWidth 64
  | .i64 => f true a b c
  | .n64 => f false a b c

/-- A function on raw bits of a width. -/
def onBits (t : Wd) (f : {w : Nat} → BitVec w → BitVec w → BitVec w) (a b : DWord) : DWord :=
  match t with
  | .w32 => (f (a.setWidth 32) (b.setWidth 32)).setWidth 64
  | .w64 => f a b

/-- A function on raw bits with a 32-bit count or field source. -/
def onCount (t : Wd) (f : {w : Nat} → BitVec w → Nat → BitVec w) (a b : DWord) : DWord :=
  match t with
  | .w32 => (f (a.setWidth 32) (b.setWidth 32).toNat).setWidth 64
  | .w64 => f a (b.setWidth 32).toNat

/-! ## Rounding environment and shadow -/

/-- How an instruction rounds (07 R147); F8SAT has an effect on conversions to FP8 only (06 R138). -/
def LaneCtx.env (c : LaneCtx) : Env := ⟨Mode.ofCode c.mode, c.x.sc.fmt, c.x.sc.fmt.getLsbD 6⟩

/-- The environment of the six functions that always round to nearest even (07 R156). -/
def LaneCtx.envRne (c : LaneCtx) : Env := ⟨.rne, c.x.sc.fmt, false⟩

/-- The bits that a defective lane unit has wrong in a result of lane j (DESIGN CHOICE, notes/assumptions/9). -/
def State.laneFlip (s : State) (core j : Nat) : Word :=
  s.defects.foldl (fun w d =>
    if d.core = core ∧ ¬d.array ∧ d.quadrant = j / 32 % 4 ∧ d.column = j % 32 then w ^^^ d.flip else w) 0

/-- A SHADOW trap recorded once against each lane unit, of a quadrant and a lane column, that computed a failing lane (11 R257, 02 R23). -/
def State.recordLanes (s : State) (core : Nat) (lanes : List Nat) : State :=
  let units := lanes.foldl (fun us j => if us.contains (j % 128) then us else us ++ [j % 128]) []
  s.mapCore core (fun x => { x with shadow := x.shadow ++ units.map (fun u => ⟨false, u / 32, u % 32, s.clock⟩) })

/-- Results of a shadow-checked instruction: r is the result of each lane, ok the check of R144 on what the unit delivers. Only lanes
whose unit has a defect are checked: a correct result never traps (DESIGN CHOICE, notes/assumptions/9). -/
def shadowed (c : LaneCtx) (s : State) (r : Nat → DWord) (ok : Nat → DWord → Bool) : LaneRes :=
  let out := fun (j : Nat) => r j ^^^ (s.laneFlip c.place.core j).setWidth 64
  let bad := c.g.filter (fun j => s.laneFlip c.place.core j != 0 && !ok j (out j))
  if bad.isEmpty then .write s (fun j => dstValue c.sig.dst (out j) (c.poison j))
  else .trap (s.recordLanes c.place.core bad) ⟨.shadow, 0, 0, maskOf bad⟩

/-- FADD to FFMS (07 R151). -/
def floatOp (o : FOp) (t : FTy) (c : LaneCtx) (s : State) : LaneRes :=
  let v := c.env
  let r := fun (j : Nat) => onFloat t (fun k x y z => k.arith o v x y z) (c.a j).val (c.b j).val (c.c j).val
  let check := fun (k : FK) (j : Nat) (x : DWord) =>
    let a := k.input v.fmt (k.bitsOf (c.a j).val)
    let b := k.input v.fmt (k.bitsOf (c.b j).val)
    let d := k.input v.fmt (k.bitsOf (c.c j).val)
    k.passes v (o.exact v.mode a b d) (o.span k a b d) (k.bitsOf x)
  match t with
  | .f32 => shadowed c s r (check .f32)
  | .f64 => shadowed c s r (check .f64)
  | .f16 => .write s (fun j => dstValue c.sig.dst (r j) (c.poison j))
  | .bf16 => .write s (fun j => dstValue c.sig.dst (r j) (c.poison j))

/-- A function of class 0x2: an exact value rounded once (07 R156). -/
def special (t : DTy) (v : LaneCtx → Env) (f : FV → FV → Exact) (c : LaneCtx) (s : State) : LaneRes :=
  elementwise (fun a b _ => onFloat (dtyFTy t) (fun k x y _ =>
    k.round (v c) (f (k.input (v c).fmt x) (k.input (v c).fmt y))) a b 0) c s

/-- A compare (07 R164): poisoned operands are consumed, then the mask is written whole. -/
def compare (rel : DWord → DWord → Bool) (c : LaneCtx) (s : State) : LaneRes :=
  match chooseTrap (poisoned c c.poison) with
  | some t => .trap s t
  | none => .mask s (maskOf (c.g.filter (fun j => rel (c.a j).val (c.b j).val)))

/-! ## Integer and bit operations -/

/-- The high half of a product (07 R160). -/
def mulHigh {w : Nat} (signed : Bool) (a b : BitVec w) : BitVec w :=
  if signed then BitVec.ofInt w (a.toInt * b.toInt / (2 ^ w : Nat)) else BitVec.ofNat w (a.toNat * b.toNat / 2 ^ w)

/-- An exact sum or difference saturated to the range of its type (07 R160). -/
def saturate {w : Nat} (signed : Bool) (i : Int) : BitVec w :=
  let lo : Int := if signed then -(2 ^ (w - 1) : Nat) else 0
  let hi : Int := if signed then (2 ^ (w - 1) : Nat) - 1 else (2 ^ w : Nat) - 1
  BitVec.ofInt w (if i < lo then lo else if hi < i then hi else i)

def intValue {w : Nat} (signed : Bool) (a : BitVec w) : Int := if signed then a.toInt else a.toNat

/-- Shifts by counts that may reach the width (07 R161). -/
def shiftL {w : Nat} (a : BitVec w) (n : Nat) : BitVec w := if w ≤ n then 0 else a <<< n
def shiftR {w : Nat} (a : BitVec w) (n : Nat) : BitVec w := if w ≤ n then 0 else a >>> n
def shiftA {w : Nat} (a : BitVec w) (n : Nat) : BitVec w := a.sshiftRight (if w ≤ n then w else n)

/-- A bit field of BFE and BFI: its position and effective length (07 R162). -/
def fieldOf (w b : Nat) : Nat × Nat :=
  let pos := b % 256
  let len := b / 256 % 256
  (pos, if pos < w then min len (w - pos) else 0)

def bfe {w : Nat} (a : BitVec w) (b : Nat) : BitVec w :=
  let (pos, len) := fieldOf w b
  BitVec.ofNat w (natBits a.toNat pos len)

def bfi {w : Nat} (a c : BitVec w) (b : Nat) : BitVec w :=
  let (pos, len) := fieldOf w b
  let mask : BitVec w := BitVec.ofNat w ((2 ^ len - 1) * 2 ^ pos)
  (c &&& ~~~mask) ||| ((a <<< pos) &&& mask)

def reverseBits {w : Nat} (a : BitVec w) : BitVec w :=
  BitVec.ofNat w (((List.range w).filter a.getLsbD).map (fun i => 2 ^ (w - 1 - i))).sum

/-! ## Class 0x1 (07 R151–R155) -/

/-- FADD. -/
def execFadd (t : FTy) (x : LaneArgs) (s : State) : Out :=
  laneInstr (.fadd t x) (floatOp .add t) s

/-- FSUB. -/
def execFsub (t : FTy) (x : LaneArgs) (s : State) : Out :=
  laneInstr (.fsub t x) (floatOp .sub t) s

/-- FMUL. -/
def execFmul (t : FTy) (x : LaneArgs) (s : State) : Out :=
  laneInstr (.fmul t x) (floatOp .mul t) s

/-- FFMA. -/
def execFfma (t : FTy) (x : LaneArgs) (s : State) : Out :=
  laneInstr (.ffma t x) (floatOp .fma t) s

/-- FFMS. -/
def execFfms (t : FTy) (x : LaneArgs) (s : State) : Out :=
  laneInstr (.ffms t x) (floatOp .fms t) s

/-- FMIN. -/
def execFmin (t : FTy) (x : LaneArgs) (s : State) : Out :=
  laneInstr (.fmin t x) (fun c =>
    elementwise (onFloat t (fun k a b _ => k.minmax false c.x.sc.fmt a b)) c) s

/-- FMAX. -/
def execFmax (t : FTy) (x : LaneArgs) (s : State) : Out :=
  laneInstr (.fmax t x) (fun c =>
    elementwise (onFloat t (fun k a b _ => k.minmax true c.x.sc.fmt a b)) c) s

/-- FABS. -/
def execFabs (t : FTy) (x : LaneArgs) (s : State) : Out :=
  laneInstr (.fabs t x) (fun c =>
    elementwise (onFloat t (fun k a _ _ => k.sign false c.x.sc.fmt a)) c) s

/-- FNEG. -/
def execFneg (t : FTy) (x : LaneArgs) (s : State) : Out :=
  laneInstr (.fneg t x) (fun c =>
    elementwise (onFloat t (fun k a _ _ => k.sign true c.x.sc.fmt a)) c) s

/-- FRINT. -/
def execFrint (t : FTy) (x : LaneArgs) (s : State) : Out :=
  laneInstr (.frint t x) (fun c => elementwise (onFloat t (fun k a _ _ => k.rint c.env a)) c) s

/-- FCLASS. -/
def execFclass (t : FTy) (x : LaneArgs) (s : State) : Out :=
  laneInstr (.fclass t x) (elementwise (onFloat t (fun k a _ _ => k.classWord a))) s

/-! ## Class 0x2 (07 R156, R157) -/

/-- FRCP. -/
def execFrcp (t : DTy) (x : LaneArgs) (s : State) : Out :=
  laneInstr (.frcp t x) (special t LaneCtx.envRne (fun a _ => (FV.num false 1 0).div a)) s

/-- FRSQ. -/
def execFrsq (t : DTy) (x : LaneArgs) (s : State) : Out :=
  laneInstr (.frsq t x) (special t LaneCtx.envRne (fun a _ => a.sqrt true)) s

/-- FSQRT. -/
def execFsqrt (t : DTy) (x : LaneArgs) (s : State) : Out :=
  laneInstr (.fsqrt t x) (special t LaneCtx.env (fun a _ => a.sqrt false)) s

/-- FDIV. -/
def execFdiv (t : DTy) (x : LaneArgs) (s : State) : Out :=
  laneInstr (.fdiv t x) (special t LaneCtx.env (fun a b => a.div b)) s

/-- FEXP2. -/
def execFexp2 (x : LaneArgs) (s : State) : Out :=
  laneInstr (.fexp2 x) (special .f32 LaneCtx.envRne (fun a _ => a.exp2)) s

/-- FLOG2. -/
def execFlog2 (x : LaneArgs) (s : State) : Out :=
  laneInstr (.flog2 x) (special .f32 LaneCtx.envRne (fun a _ => a.log2)) s

/-- FSINT. -/
def execFsint (x : LaneArgs) (s : State) : Out :=
  laneInstr (.fsint x) (special .f32 LaneCtx.envRne (fun a _ => a.turns false)) s

/-- FCOST. -/
def execFcost (x : LaneArgs) (s : State) : Out :=
  laneInstr (.fcost x) (special .f32 LaneCtx.envRne (fun a _ => a.turns true)) s

/-! ## Class 0x3 (07 R159) -/

/-- CVT: conversions between floating-point formats are shadow-checked (06 R143). -/
def execCvt (dst src : Fmt) (x : LaneArgs) (s : State) : Out :=
  laneInstr (.cvt dst src x) (fun c s =>
    let v := c.env
    match fmtFK dst, fmtFK src with
    | some kd, some ks =>
      shadowed c s (fun j => convert dst src v (c.a j).val) (fun j r =>
        let a := ks.input v.fmt (ks.bitsOf (c.a j).val)
        kd.passes v a.exact (a.span.outward kd) (kd.bitsOf r))
    | _, _ => elementwise (fun a _ _ => convert dst src v a) c s) s

/-! ## Class 0x4 (07 R160) -/

/-- IADD. -/
def execIadd (t : ITy) (x : LaneArgs) (s : State) : Out :=
  laneInstr (.iadd t x) (elementwise (onInt t (fun _ a b _ => a + b))) s

/-- ISUB. -/
def execIsub (t : ITy) (x : LaneArgs) (s : State) : Out :=
  laneInstr (.isub t x) (elementwise (onInt t (fun _ a b _ => a - b))) s

/-- IMUL. -/
def execImul (t : ITy) (x : LaneArgs) (s : State) : Out :=
  laneInstr (.imul t x) (elementwise (onInt t (fun _ a b _ => a * b))) s

/-- IMULH. -/
def execImulh (t : ITy) (x : LaneArgs) (s : State) : Out :=
  laneInstr (.imulh t x) (elementwise (onInt t (fun g a b _ => mulHigh g a b))) s

/-- IMAD. -/
def execImad (t : ITy) (x : LaneArgs) (s : State) : Out :=
  laneInstr (.imad t x) (elementwise (onInt t (fun _ a b d => a * b + d))) s

/-- IMIN. -/
def execImin (t : ITy) (x : LaneArgs) (s : State) : Out :=
  laneInstr (.imin t x) (elementwise (onInt t (fun g a b _ => minOf g a b))) s

/-- IMAX. -/
def execImax (t : ITy) (x : LaneArgs) (s : State) : Out :=
  laneInstr (.imax t x) (elementwise (onInt t (fun g a b _ => maxOf g a b))) s

/-- IADDS. -/
def execIadds (t : ITy) (x : LaneArgs) (s : State) : Out :=
  laneInstr (.iadds t x) (elementwise (onInt t (fun g a b _ => saturate g (intValue g a + intValue g b)))) s

/-- ISUBS. -/
def execIsubs (t : ITy) (x : LaneArgs) (s : State) : Out :=
  laneInstr (.isubs t x) (elementwise (onInt t (fun g a b _ => saturate g (intValue g a - intValue g b)))) s

/-- IABS: the most negative value gives itself. -/
def execIabs (t : Wd) (x : LaneArgs) (s : State) : Out :=
  laneInstr (.iabs t x) (elementwise (fun a _ _ => onBits t (fun a _ => if a.msb then -a else a) a 0)) s

/-- INEG. -/
def execIneg (t : Wd) (x : LaneArgs) (s : State) : Out :=
  laneInstr (.ineg t x) (elementwise (fun a _ _ => onBits t (fun a _ => -a) a 0)) s

/-! ## Class 0x5 (07 R161–R163) -/

/-- AND. -/
def execLaneAnd (t : Wd) (x : LaneArgs) (s : State) : Out :=
  laneInstr (.laneAnd t x) (elementwise (fun a b _ => onBits t (fun a b => a &&& b) a b)) s

/-- OR. -/
def execLaneOr (t : Wd) (x : LaneArgs) (s : State) : Out :=
  laneInstr (.laneOr t x) (elementwise (fun a b _ => onBits t (fun a b => a ||| b) a b)) s

/-- XOR. -/
def execLaneXor (t : Wd) (x : LaneArgs) (s : State) : Out :=
  laneInstr (.laneXor t x) (elementwise (fun a b _ => onBits t (fun a b => a ^^^ b) a b)) s

/-- ANDN. -/
def execLaneAndn (t : Wd) (x : LaneArgs) (s : State) : Out :=
  laneInstr (.laneAndn t x) (elementwise (fun a b _ => onBits t (fun a b => a &&& ~~~b) a b)) s

/-- NOT. -/
def execNot (t : Wd) (x : LaneArgs) (s : State) : Out :=
  laneInstr (.not t x) (elementwise (fun a _ _ => onBits t (fun a _ => ~~~a) a 0)) s

/-- SHL. -/
def execLaneShl (t : Wd) (x : LaneArgs) (s : State) : Out :=
  laneInstr (.laneShl t x) (elementwise (fun a b _ => onCount t (fun a n => shiftL a n) a b)) s

/-- SHR. -/
def execLaneShr (t : Wd) (x : LaneArgs) (s : State) : Out :=
  laneInstr (.laneShr t x) (elementwise (fun a b _ => onCount t (fun a n => shiftR a n) a b)) s

/-- SRA. -/
def execLaneSra (t : Wd) (x : LaneArgs) (s : State) : Out :=
  laneInstr (.laneSra t x) (elementwise (fun a b _ => onCount t (fun a n => shiftA a n) a b)) s

/-- ROL. -/
def execRol (t : Wd) (x : LaneArgs) (s : State) : Out :=
  laneInstr (.rol t x) (elementwise (fun a b _ => onCount t (fun a n => a.rotateLeft n) a b)) s

/-- ROR. -/
def execRor (t : Wd) (x : LaneArgs) (s : State) : Out :=
  laneInstr (.ror t x) (elementwise (fun a b _ => onCount t (fun a n => a.rotateRight n) a b)) s

/-- BFE. -/
def execBfe (t : Wd) (x : LaneArgs) (s : State) : Out :=
  laneInstr (.bfe t x) (elementwise (fun a b _ => onCount t (fun a n => bfe a n) a b)) s

/-- CLZ. -/
def execLaneClz (t : Wd) (x : LaneArgs) (s : State) : Out :=
  laneInstr (.laneClz t x) (elementwise (fun a _ _ => onBits t (fun {w} a _ => BitVec.ofNat w (leadingZeros a)) a 0)) s

/-- CTZ. -/
def execLaneCtz (t : Wd) (x : LaneArgs) (s : State) : Out :=
  laneInstr (.laneCtz t x) (elementwise (fun a _ _ => onBits t (fun {w} a _ => BitVec.ofNat w (trailingZeros a)) a 0)) s

/-- POPC. -/
def execLanePopc (t : Wd) (x : LaneArgs) (s : State) : Out :=
  laneInstr (.lanePopc t x) (elementwise (fun a _ _ => onBits t (fun {w} a _ => BitVec.ofNat w (popCount a)) a 0)) s

/-- BREV. -/
def execBrev (t : Wd) (x : LaneArgs) (s : State) : Out :=
  laneInstr (.brev t x) (elementwise (fun a _ _ => onBits t (fun a _ => reverseBits a) a 0)) s

/-- BFI: c with the field replaced by the low bits of a. -/
def execBfi (t : Wd) (x : LaneArgs) (s : State) : Out :=
  laneInstr (.bfi t x) (elementwise (fun a b d => onBits t (fun a d => bfi a d (b.setWidth 32).toNat) a d)) s

/-- MOV: each word with its own poison bit (03 R73). -/
def execMov (t : Wd) (x : LaneArgs) (s : State) : Out :=
  laneInstr (.mov t x) (fun c s => .write s c.a) s

/-- SEL: the selected source alone, with its poison (07 R148, R163). DEDUCED: notes/assumptions/102. -/
def execSel (t : Wd) (x : LaneArgs) (s : State) : Out :=
  laneInstr (.sel t x) (fun c s => .write s (fun j => if (c.c j).lo.val = 0 then c.b j else c.a j)) s

/-! ## Classes 0x6 and 0x7 (07 R164) -/

/-- FCMP. -/
def execFcmp (r : FRel) (t : DTy) (x : LaneArgs) (s : State) : Out :=
  laneInstr (.fcmp r t x) (fun c => compare (fun a b =>
    let k := dtyFK t
    frelHolds r (k.input c.x.sc.fmt (k.bitsOf a)) (k.input c.x.sc.fmt (k.bitsOf b))) c) s

/-- ICMP. -/
def execIcmp (r : IRel) (t : ITy) (x : LaneArgs) (s : State) : Out :=
  laneInstr (.icmp r t x) (compare (fun a b =>
    match t with
    | .i32 => irelHolds r true (a.setWidth 32) (b.setWidth 32)
    | .n32 => irelHolds r false (a.setWidth 32) (b.setWidth 32)
    | .i64 => irelHolds r true a b
    | .n64 => irelHolds r false a b)) s

end Sys2Proof.Machine
end

