-- ==== Sys2Proof/Machine/Turn.lean ====
section
/-! DEFINITION. A turn of the module: which agent moves next, issue of a stream's next instruction, and the passing of
time (spec/02 R52, spec/05 R103–R107; DESIGN CHOICE, notes/assumptions/2, 3, 4). -/

namespace Sys2Proof.Machine

/-- A step of the module: what no instruction word encodes. -/
def isStep (i : Instr) : Bool := (encode i).isEmpty

/-! ## Time -/

/-- The cycle count of a waiting XSWAP, which runs only while both teams are resident and the partner is in user mode and
not stopped by the debugger (07 R175). -/
def State.partnerOf (s : State) (x : Team) (pair : BitVec 6) : Option Team :=
  match (s.launch? x.launch).bind (fun l => l.pairs[pair.toNat]?) with
  | none => none
  | some p =>
    let at' := fun (pos ix : Nat) => s.teams.find? (fun t => t.launch = x.launch && t.gid = x.gid && t.pos = pos && t.tix = ix)
    if x.pos = p.posA && x.tix = p.ixA then at' p.posB p.ixB
    else if x.pos = p.posB && x.tix = p.ixB then at' p.posA p.ixA
    else none

def State.xswapCounts (s : State) (x : Team) : Bool :=
  match x.xarr with
  | none => false
  | some a =>
    match s.partnerOf x a.pair with
    | none => false
    | some y => x.place.isSome && y.place.isSome && !y.sc.sup && !y.sc.debugStopped

def XArrival.later (n : Nat) (a : XArrival) : XArrival := { a with waited := a.waited + n }

/-- The wait is for an ordered access of the stream's next instruction (17 R373). -/
def Wait.isAccess : Wait → Bool
  | .cxl _ => true
  | .reclass _ => true
  | .version _ _ => true
  | .inval _ => true
  | .declass _ => true
  | .barWait _ => false
  | .hwait _ => false
  | .command _ => false
  | .refillW => false
  | .sleep _ => false
  | .phase => false
  | .chainPhase => false
  | .xswap => false
  | .spawn => false
  | .matrixQueue => false

def Wait.isBarrier : Wait → Bool
  | .barWait _ => true
  | .cxl _ => false
  | .reclass _ => false
  | .version _ _ => false
  | .inval _ => false
  | .declass _ => false
  | .hwait _ => false
  | .command _ => false
  | .refillW => false
  | .sleep _ => false
  | .phase => false
  | .chainPhase => false
  | .xswap => false
  | .spawn => false
  | .matrixQueue => false

/-- A stream has an ordered access outstanding, or its next instruction waits as one (17 R373). -/
def Scalar.onOrdered (sc : Scalar) : Bool := sc.wait.any Wait.isAccess || sc.accs.any (fun a => !a.overlaps)

/-- The cycles that a team is counted for while n pass (17 R373). -/
def State.countCycles (s : State) (n : Nat) (t : Team) : State :=
  let s := if t.sc.onOrdered then s.countFor (.team t.id) 0x05 n else s
  if t.sc.wait.any Wait.isBarrier then s.countFor (.team t.id) 0x09 n else s

/-- n cycles pass: CYC, the waits that count cycles, XSWAP's time-out, and status writes that waited. -/
def State.elapse (s : State) (n : Nat) : State :=
  let s := (s.teams.foldl (State.countCycles · n) s).writeDue
  { s with
    clock := s.clock + n
    teams := s.teams.map (fun t => if s.xswapCounts t then { t with xarr := t.xarr.map (XArrival.later n) } else t) }

/-! ## Ready streams (14 R316) -/

/-- An event is taken before the next unit of a team in user mode, outside a HOLD chain, or in one that ends with an XSWAP that waits
(07 R176), once what is older has performed (04 R96). -/
def Team.takesEvent (x : Team) : Bool :=
  !x.sc.sup && (x.chainPos == 0 || x.sc.wait == some .xswap) && x.sc.accs.isEmpty && x.event?.isSome

/-- No stop by the debugger or by pre-emption acts on a team (14 R320, 17 R377). -/
def State.unstopped (s : State) (x : Team) : Bool := s.resident (.team x.id) && !x.sc.debugStopped && !s.stopping (.team x.id)

/-- A stop of the instruction at an address would be delivered as a trap: it issues once everything older has completed (05 R106,
17 R378). -/
def State.stopsAt (s : State) (x : Team) (lane : Bool) (addr : Nat) : Bool :=
  match x.place with
  | none => false
  | some p =>
    let d := (s.core p.core).dbg
    !x.sc.sup && !d.hold && d.self
      && (x.sc.stepping || (List.finRange 4).any (fun i => d.en i && d.onLane i == lane && (d.bp.get i).toNat == addr))

/-- An outstanding access of a team is to be followed by a stop before anything younger issues. -/
def State.stopPends (s : State) (x : Team) : Bool :=
  x.sc.accs.any (fun a => (x.sc.stepping && a.stepped) || a.units.any (fun u => s.stopsAt x u.lane u.addr))

/-- The core has received a drain that it has not acknowledged: its teams issue no memory instruction (09 R219 step 3). -/
def State.draining (s : State) (core : Nat) : Bool := s.reclass.any (fun r => r.undrained.contains core)

/-- The governing-mask field of a W0 (03 R67). -/
def ksField (ws : List Word) : BitVec 4 := (ws.getD 0 0).extractLsb' 6 4

/-- The HOLD bit of a W2 (03 R67). -/
def holdBit (ws : List Word) : Bool := (ws.getD 2 0).getLsbD 0

/-- The quadrants that hold words of a team (02 R23). -/
def Team.quadrants (x : Team) : List Nat := List.range (Nat.min x.nw 4)

/-- The quadrants on which an instruction with a governing set issues passes (02 R26). -/
def Team.passQuads (x : Team) (gov : Mask) : List Nat :=
  x.quadrants.filter (fun q => (List.range x.nw).any (fun w => w % 4 == q && maskWord gov w != 0))

/-- A team's next lane instruction as its quadrants see it: those on which it issues a pass, and whether it holds. -/
structure LaneNext where
  quads : List Nat
  hold : Bool
  deriving DecidableEq, Repr

/-- A lane instruction waits for what is older in its team: an outstanding ordered access, before it accesses memory (09 R216), or any, before
an XSWAP (DEDUCED, notes/assumptions/106); a register that an access will write; the words of its windows; or a drain of its core. -/
def State.laneWaits (s : State) (x : Team) (i : Instr) (g : LaneSig) (a : LaneArgs) : Bool :=
  let accs := x.sc.accs
  let memory := laneMemory i || (x.chainReads.isNone && !(g.windows a).isEmpty)
  let swap := match i with
    | .xswap _ _ => true
    | _ => false
  accs.any (fun c => c.dest == .windows || c.pends g a || (memory && !c.overlaps) || swap)
    || (memory && !swap && x.place.any (fun p => s.draining p.core)) || (!accs.isEmpty && s.stopsAt x true x.lanePc)

/-- A team's next lane instruction, when nothing but a phase can hold it up: the team neither waits (02 R52) nor is stopped outside a chain. -/
def State.laneOpen (s : State) (x : Team) : Option LaneNext :=
  if x.runLeft = 0 || x.sc.wait.isSome || s.stopPends x
      || !(s.unstopped x || (s.resident (.team x.id) && x.chainPos != 0)) then none
  else if x.takesEvent then some ⟨[], false⟩
  else
    match s.agentOf (.team x.id), s.entryOf x with
    | some ag, some e =>
      let fault : Option LaneNext := if x.sc.accs.isEmpty then some ⟨[], false⟩ else none
      match s.fetchLane ag e x.lanePc with
      | .retry _ => none
      | .trap _ _ => fault
      | .ok _ ws =>
        match decodeLane ws with
        | .error _ => fault
        | .ok (i, _) =>
          match laneSig i with
          | none => fault
          | some (g, a) => if s.laneWaits x i g a then none else some ⟨x.passQuads (x.governed a.ks), a.hold⟩
    | _, _ => none

/-- The instruction at a team's lane PC, as its words stand. -/
def State.laneInstrAt (s : State) (x : Team) : Option (Instr × LaneCtx) :=
  match s.agentOf (.team x.id), s.entryOf x with
  | some ag, some e =>
    match s.fetchLane ag e x.lanePc with
    | .ok _ ws =>
      match decodeLane ws with
      | .ok (i, _) => (({ s with cur := some (.team x.id) } : State).laneCtx i).map (fun c => (i, c))
      | .error _ => none
    | .trap _ _ => none
    | .retry _ => none
  | _, _ => none

/-- The phase that a feed or drain, or a chain that starts, waits for before it issues (02 R52, 08 R187, R204), where no window word has to
be read to know it. An instruction that its checks stop waits for none. -/
def State.phaseWait (s : State) (x : Team) : Option Wait :=
  match if x.chainPos = 0 then s.laneInstrAt x else none with
  | none => none
  | some (i, c) =>
    if (laneCheck s x i c.sig c.args).isSome || c.idle i then none
    else
      match s.chainRest c with
      | (_, none) => none
      | (_, some rest) =>
        if !(windowsOf (i :: rest)).isEmpty || (c.b 0).lo.poison then none
        else if c.args.hold then (if chainReady s x (i :: rest) [] then none else some .chainPhase)
        else if phaseReady s x i (controlWord x c.args []) then none
        else some .phase

/-- A team is ready to issue its next lane instruction: it is not blocked, and its sources are available (14 R316). -/
def State.laneReady (s : State) (x : Team) : Option LaneNext :=
  if !x.takesEvent && (s.phaseWait x).isSome then none else s.laneOpen x

/-- A team begins to wait for a phase. -/
def State.parkTeam (s : State) (x : Team) : State :=
  match s.laneOpen x, s.phaseWait x with
  | some _, some w =>
    if x.takesEvent then s
    else s.mapTeam x.id (fun y => { y with
      chainReads := if w = .chainPhase then some [] else y.chainReads
      sc := { y.sc with wait := some w } })
  | _, _ => s

/-- A scalar instruction may issue beside the runs and the accesses that are unfinished (05 R105, R106; 09 R216). -/
def State.scalarMay (s : State) (x : Team) (ag : Agent) (e : Entry) (i : Instr) : Bool :=
  let accs := x.sc.accs
  let clear := !(scalarReads i ++ scalarWrites i).any (fun r => accs.any (·.writesS r))
  let older := x.runLeft != 0 || !accs.isEmpty
  !(older && s.stopsAt x false x.sc.pc.toNat) &&
    match runRow i with
    | .free => clear && (x.runLeft == 0 || !(scalarWrites i).any (fun r => State.runReads ag e r x.runLeft x.lanePc s))
    | .runDone => clear && x.runLeft == 0 && !accs.any (·.lane)
    | .issued => clear && x.runLeft == 0
    | .access => clear && x.runLeft == 0 && !accs.any (fun c => c.lane || !c.overlaps) && !x.place.any (fun p => s.draining p.core)
    | .memory => x.runLeft == 0 && accs.isEmpty

/-- A TLBINV or ATINV that has removed its translations may complete: what was checked against them has performed (15 R341). -/
def Wait.invalOver (w : Wait) (s : State) (asid : Byte) : Bool :=
  match w with
  | .inval va => !s.staleLeft asid va
  | _ => false

/-- A team's scalar stream is ready to issue. -/
def State.scalarReady (s : State) (x : Team) : Bool :=
  let older := x.runLeft != 0 || !x.sc.accs.isEmpty
  if !s.unstopped x || !x.sc.wait.all (fun w => w.isLane || w.invalOver s x.id.asid) || (x.pendTrap.isSome && !x.sc.sup) || s.stopPends x || x.chainPos != 0 && x.sc.stepping
      || (x.sc.stepping && x.runLeft != 0) then false
  else if x.takesEvent then x.runLeft == 0
  else
    match s.agentOf (.team x.id), s.entryOf x with
    | some ag, some e =>
      match s.fetchScalar (.team x.id) ag x.sc.pc with
      | .retry _ => false
      | .trap _ _ => !older
      | .ok _ w =>
        match decodeScalar w with
        | .error _ => !older
        | .ok i => s.scalarMay x ag e i
    | _, _ => false

/-- A control core is ready to issue: its accesses are all ordered (09 R215). -/
def State.ctrlReady (s : State) (g : Group) : Bool :=
  if !s.resident (.ctrl g.cl) || s.stopping (.ctrl g.cl) || g.sc.wait.isSome then false
  else
    match s.agentOf (.ctrl g.cl) with
    | none => false
    | some ag =>
      if g.sc.accs.isEmpty then true
      else
        match s.fetchScalar (.ctrl g.cl) ag g.sc.pc with
        | .retry _ => false
        | .trap _ _ => false
        | .ok _ w =>
          match decodeScalar w with
          | .error _ => false
          | .ok i =>
            runRow i != .memory && runRow i != .access && !(scalarReads i ++ scalarWrites i).any (fun r => g.sc.accs.any (·.writesS r))

/-! ## The choice (14 R316, 05 R125) -/

/-- The teams on a core by slot. -/
def State.bySlot (s : State) (core : Nat) : List Team :=
  (List.range 16).filterMap (fun k => s.teams.find? (fun t => t.place = some ⟨core, k⟩))

/-- A team may be chosen: it has not yielded, or no other team of the core can issue, or 64 cycles have passed (05 R125). -/
def State.mayGo (s : State) (core : Nat) (x : Team) : Bool :=
  match x.sc.yielded with
  | none => true
  | some t => t + 64 ≤ s.clock
      || !(s.bySlot core).any (fun y => y.id != x.id && y.sc.yielded.isNone && ((s.laneReady y).isSome || s.scalarReady y))

/-- The choice of an issue opportunity among ready teams, which stand by slot: the favoured team while it has had fewer than 32 of the
last 64 opportunities as such, else the team that has been ready longest without a choice. DESIGN CHOICE: notes/assumptions/107. -/
def Chooser.choose (c : Chooser) (fav : Option TeamId) (ready : List TeamId) : Option TeamId × Chooser :=
  let order := c.waiting.filter (fun t => ready.contains t) ++ ready.filter (fun t => !c.waiting.contains t)
  let byFav := fav.any (fun t => ready.contains t) && (c.grants.filter (fun g => g == fav)).length < 32
  let t := if byFav then fav else order.head?
  (t, ⟨order.filter (fun u => some u != t), ((if byFav then fav else none) :: c.grants).take 64⟩)

/-- A choice made on a quadrant, and its grant counted (17 R373). -/
def State.chooseQuad (s : State) (core q : Nat) (ready : List TeamId) : Option TeamId × State :=
  if h : q < 4 then
    let fav := s.favoured core q
    let (t, c) := ((s.core core).quads.get ⟨q, h⟩).choose fav ready
    let s := s.mapCore core (fun x => { x with quads := x.quads.set q c h })
    (t, match t with
      | some id => if fav = some id then s.countFor (.team id) 0x0C 1 else s
      | none => s)
  else (none, s)

def State.choosePipe (s : State) (core : Nat) (ready : List TeamId) : Option TeamId × State :=
  let fav := s.favoured core 0
  let (t, c) := (s.core core).pipes.choose fav ready
  let s := s.mapCore core (fun x => { x with pipes := c })
  (t, match t with
    | some id => if fav = some id then s.countFor (.team id) 0x0C 1 else s
    | none => s)

/-! ## Issue -/

/-- The next lane instruction of a team: what to execute, or the state after a fetch fault or an undecodable word. An undecodable word
with HOLD set counts as in a chain (DEDUCED, notes/assumptions/108). -/
def State.issueLane (s : State) (x : Team) (e : Entry) (ag : Agent) : State × Option Instr :=
  match s.fetchLane ag e x.lanePc with
  | .trap s t => (s.takeLaneTrap x.id { t with lanes := x.k 0 } (x.chainPos != 0), none)
  | .retry s => (s, none)
  | .ok s ws =>
    match decodeLane ws with
    | .ok (i, _) => (s, some i)
    | .error _ =>
      (s.takeLaneTrap x.id ⟨.illegal, 0, 0, x.governed (ksField ws)⟩ (x.chainPos != 0 || holdBit ws), none)

/-- The next scalar instruction of a stream. -/
def State.issueScalar (s : State) (st : StreamId) (ag : Agent) (pc : DWord) : State × Option Instr :=
  match s.fetchScalar st ag pc with
  | .trap s t => (s.scalarTrap st t pc, none)
  | .retry s => (s, none)
  | .ok s w =>
    match decodeScalar w with
    | .ok i => (s, some i)
    | .error _ => (s.scalarTrap st (Trap.of .illegal) pc, none)

/-- The instruction changes more than its own stream and the counts: it cannot issue a second time. -/
def reachesOut : Instr → Bool
  | .mfeedA _ | .mfeedB _ | .mdrain _ | .xswap _ _ => true
  | .mzero _ _ | .mma _ _ _ _ _ _ _ _ | .mmaq _ _ _ _ _ _ _ _ | .mmas _ _ _ _ _ _ _ _ => true
  | _ => false

/-- What issues beside an access that can still be withdrawn leaves the stream known as it was (16 R358). -/
def State.beside (st : StreamId) (r : State × Option Instr) : State × Option Instr :=
  (match r.2 with
    | some i => r.1.keepBack st (reachesOut i)
    | none => r.1, r.2)

/-- A team's pending event, or its next lane instruction, or its next scalar instruction, with its stream made current (04 R96;
05 R104, R107). -/
def State.issueTeam (s : State) (x : Team) (lane : Bool) : State × Option Instr :=
  let s := { s with cur := some (.team x.id) }
  match s.agentOf (.team x.id), s.entryOf x with
  | some ag, some e =>
    if x.takesEvent then (s, some (.eventEntry x.id))
    else State.beside (.team x.id) (if lane then s.issueLane x e ag else s.issueScalar (.team x.id) ag x.sc.pc)
  | _, _ => (s, none)

/-- Another team's chain holds a quadrant that an instruction needs (03 R74). -/
def State.chainBlocks (s : State) (core : Nat) (x : Team) (n : LaneNext) : Bool :=
  let need := if n.hold then x.quadrants else n.quads
  (s.bySlot core).any (fun y => y.id != x.id && y.chainPos != 0 && y.quadrants.any (fun q => need.contains q))

/-- The teams on a core that hold words of a quadrant, by slot. -/
def State.quadTeams (s : State) (core q : Nat) : List Team := (s.bySlot core).filter (fun t => t.quadrants.contains q)

/-- Those that are ready, with their next lane instructions. -/
def State.quadReady (s : State) (core q : Nat) : List (Team × LaneNext) :=
  (s.quadTeams core q).filterMap (fun t => (s.laneReady t).map (fun n => (t, n)))

/-- Every quadrant that a team's next lane instruction needs has chosen it. -/
def State.laneGoes (s : State) (core : Nat) (r : Team × LaneNext) : Bool :=
  r.2.quads.all (fun q => r.1.begun.contains q) && !s.chainBlocks core r.1 r.2

/-- The teams that a quadrant chooses among. -/
def State.quadCan (s : State) (core q : Nat) : List (Team × LaneNext) :=
  (s.quadReady core q).filter (fun r => r.2.quads.contains q && !r.1.begun.contains q && s.mayGo core r.1)

/-- A quadrant has chosen a team. -/
def Team.begins (q : Nat) (x : Team) : Team := { x with begun := insertNew q x.begun }

/-- A quadrant's issue opportunity (14 R316). A chain that is under way goes on, and an instruction that every quadrant it needs has
chosen issues, without a choice (02 R26, 03 R74), but not before teams that have not yielded (05 R125). Otherwise the quadrant chooses,
and the instruction issues when no other quadrant has still to choose it. A team whose next instruction waits for a phase begins to wait,
which takes no choice. DESIGN CHOICE: notes/assumptions/107. -/
def State.quadTurn (s : State) (core q : Nat) : State × Option Instr :=
  match (s.quadTeams core q).find? (fun t => t.chainPos != 0) with
  | some x => if (s.laneReady x).isSome then s.issueTeam x true else (s, none)
  | none =>
    let s := (s.quadTeams core q).foldl State.parkTeam s
    match (s.quadReady core q).find? (fun r => s.laneGoes core r && s.mayGo core r.1) with
    | some r => s.issueTeam r.1 true
    | none =>
      match s.chooseQuad core q ((s.quadCan core q).map (·.1.id)) with
      | (none, t) => (t, none)
      | (some id, t) =>
        let t := t.mapTeam id (Team.begins q)
        match (s.quadCan core q).find? (fun r => r.1.id = id), t.team? id with
        | some r, some x => if t.laneGoes core (x, r.2) then t.issueTeam x true else (t, none)
        | _, _ => (t, none)

/-- The teams that a scalar pipe chooses among. -/
def State.pipeCan (s : State) (core : Nat) : List Team :=
  (s.bySlot core).filter (fun t => s.scalarReady t && s.mayGo core t)

/-- A scalar pipe's issue opportunity (14 R316). -/
def State.pipeTurn (s : State) (core : Nat) : State × Option Instr :=
  match s.choosePipe core ((s.pipeCan core).map (·.id)) with
  | (none, s) => (s, none)
  | (some id, s) =>
    match s.team? id with
    | some x => s.issueTeam x false
    | none => (s, none)

/-- A control core's opportunity. -/
def State.ctrlTurn (s : State) (cl : Nat) : State × Option Instr :=
  match s.group? cl, s.agentOf (.ctrl cl) with
  | some g, some ag =>
    if s.ctrlReady g then State.beside (.ctrl cl) (({ s with cur := some (.ctrl cl) } : State).issueScalar (.ctrl cl) ag g.sc.pc)
    else (s, none)
  | _, _ => (s, none)

def State.portTurn (s : State) : Port → State × Option Instr
  | .quad core q => s.quadTurn core q
  | .pipe core => s.pipeTurn core
  | .ctrl cl => s.ctrlTurn cl

/-! ## Turns -/

/-- The outstanding accesses of a stream, by their places. -/
def Scalar.slots (sc : Scalar) : List (Option Nat) := (List.range sc.older.length).map some ++ (if sc.acc.isSome then [none] else [])

/-- An access of the stream waits for nothing but its events. -/
def Scalar.movable (sc : Scalar) (k : Option Nat) : Bool := (sc.accAt k).any (fun a => a.wait.isNone && !sc.behind k a)

/-- The oldest access of a stream that can go on. -/
def State.nextAcc (s : State) (st : StreamId) : Option (Option Nat) := (s.scalar? st).bind (fun sc => sc.slots.find? sc.movable)

/-- An access of a stream goes on; a stop that waited for it may then be delivered. -/
def State.perform (s : State) (st : StreamId) (k : Option Nat) : State := (s.performSlot st k).delivered st

/-- A stream can move: one of its accesses can go on, or it is ready to issue. -/
def State.canIssue (s : State) (st : StreamId) : Bool :=
  (s.nextAcc st).isSome ||
    match st with
    | .team id => (s.team? id).any (fun x => (s.laneReady x).isSome || s.scalarReady x)
    | .ctrl cl => (s.group? cl).any s.ctrlReady

/-- The next move of a stream that can move: the rest of its oldest access that can go on; an opportunity of the first quadrant that has still to choose its
lane instruction; or one of a scalar pipe. -/
def State.goOn (s : State) (st : StreamId) : State × Option Instr :=
  match s.nextAcc st with
  | some k => (s.perform st k, none)
  | none =>
    match st with
    | .ctrl cl => s.ctrlTurn cl
    | .team id =>
      match s.team? id with
      | none => (s, none)
      | some x =>
        match x.place, s.laneReady x with
        | some p, some n => s.quadTurn p.core ((n.quads.find? (fun q => !x.begun.contains q)).getD 0)
        | some p, none => s.pipeTurn p.core
        | none, _ => (s, none)

/-- The host stores to its own memory: the module's CXL.cache agent loses the lines (10 R243, 15 R325). -/
def State.hostStore (s : State) (pa : Nat) (bs : List Byte) : State :=
  if isHost pa && isHost (pa + bs.length - 1) then
    ({ s with hostLines := s.hostLines.filter (fun h => !(h.ready && pa / 64 ≤ h.line && h.line ≤ (pa + bs.length - 1) / 64)) } : State).locWrite
      (.mem pa) bs false
  else s

/-- The L2 slice of a line writes it back to its stack and drops it: each sector that holds a poisoned word is stored as poisoned, and its
next fill sets the bits of all eight words. A line that an L1 holds, or that a version stands on, keeps the bits that it has there
(11 R249). DEDUCED: notes/assumptions/26. -/
def State.l2Evict (s : State) (line : Nat) : State :=
  if !isDevice (128 * line) || s.l1.any (fun x => x.line = line) || s.tags.any (fun t => t.loc = .mem line) then s
  else
    { s with poison := (List.range 4).foldl (fun p k =>
        if (List.range 8).any (fun w => smGet false p (32 * line + 8 * k + w)) then smSetList false p (32 * line + 8 * k) (List.replicate 8 true)
        else p) s.poison }

/-- A firmware image is put into the flash store, where it waits to be verified (18 R385). -/
def State.flashImage (s : State) (leaf : Bool) (image : List Byte) : State :=
  { s with firmware := if leaf then { s.firmware with leafNew := some image } else { s.firmware with iodNew := some image } }

/-- The head of the agenda is taken; with none, the current stream goes on, or a cycle passes. DESIGN CHOICE: notes/assumptions/100. -/
def State.turn (s : State) : State × Option Instr :=
  match s.agenda with
  | .issue p lim :: rest => ({ s with agenda := rest, limit := lim } : State).portTurn p
  | .perform st lim :: rest => (({ s with agenda := rest, limit := lim } : State).perform st none, none)
  | .performOlder st k lim :: rest => (({ s with agenda := rest, limit := lim } : State).perform st (some k), none)
  | .event i :: rest => ({ s with agenda := rest, limit := none }, if isStep i then some i else none)
  | .elapse n :: rest => ({ s with agenda := rest, limit := none }.elapse n, none)
  | .hostStore pa bs :: rest => ({ s with agenda := rest, limit := none }.hostStore pa bs, none)
  | .l2Evict line :: rest => ({ s with agenda := rest, limit := none }.l2Evict line, none)
  | .flashImage leaf bs :: rest => ({ s with agenda := rest, limit := none }.flashImage leaf bs, none)
  | [] =>
    let s := { s with limit := none }
    match s.cur with
    | some st => if s.canIssue st then s.goOn st else (s.elapse 1, none)
    | none => (s.elapse 1, none)

end Sys2Proof.Machine
end

