-- ==== Sys2Proof/Machine/LaneTeam.lean ====
section
/-! DEFINITION. Team operations and XSWAP (spec/07 R165–R176). -/

namespace Sys2Proof.Machine

/-! ## Moves between lanes -/

/-- SHFL: the value of a source lane of the governing set, or the lane's own; a poisoned B word is consumed (07 R148,
R166). -/
def shuffle (pick : Nat → Nat → Option Nat) (c : LaneCtx) (s : State) : LaneRes :=
  match chooseTrap (poisoned c (fun j => (c.b j).poison)) with
  | some t => .trap s t
  | none =>
    .write s (fun j =>
      match pick j (c.b j).lo.val.toNat with
      | some i => if i ∈ c.g then c.a i else c.a j
      | none => c.a j)

/-- SHFL.IDX. -/
def execShflIdx (t : Wd) (x : LaneArgs) (s : State) : Out :=
  laneInstr (.shflIdx t x) (shuffle (fun _ b => some b)) s

/-- SHFL.XOR. -/
def execShflXor (t : Wd) (x : LaneArgs) (s : State) : Out :=
  laneInstr (.shflXor t x) (shuffle (fun j b => some (j ^^^ b))) s

/-- SHFL.UP. -/
def execShflUp (t : Wd) (x : LaneArgs) (s : State) : Out :=
  laneInstr (.shflUp t x) (shuffle (fun j b => if j < b then none else some (j - b))) s

/-- SHFL.DOWN. -/
def execShflDown (t : Wd) (x : LaneArgs) (s : State) : Out :=
  laneInstr (.shflDown t x) (shuffle (fun j b => some (j + b))) s

/-- BCAST: one lane's value to every governed lane (07 R167). -/
def execBcast (t : Wd) (x : LaneArgs) (s : State) : Out :=
  laneInstr (.bcast t x) (fun c s =>
    match chooseTrap (poisoned c (fun _ => (c.b 0).poison)) with
    | some t => .trap s t
    | none =>
      let b := (c.b 0).lo.val
      let src := if b = 0xFFFFFFFF then c.g.head?.getD 0 else b.toNat
      .write s (fun j => if src ∈ c.g then c.a src else c.a j)) s

/-- LIDX: the lane's index (07 R168). -/
def execLidx (x : LaneArgs) (s : State) : Out :=
  laneInstr (.lidx x) (fun _ s => .write s (fun j => .ofWord (.clean (BitVec.ofNat 32 j)))) s

/-! ## Reductions and scans -/

/-- Integers of a list of operands combined modulo 2^w. -/
def foldBits (wide : Bool) (f : {w : Nat} → BitVec w → BitVec w → BitVec w) (z : DWord) (xs : List DWord) : DWord :=
  if wide then xs.foldl f z
  else (xs.foldl (fun (r : Word) x => f r (x.setWidth 32)) (z.setWidth 32)).setWidth 64

/-- The least or greatest of a list, none of which is empty. -/
def foldMinMax (max : Bool) (t : RTy) (fmt : Word) (xs : List DWord) : DWord :=
  let pick := fun (signed : Bool) {w : Nat} (a b : BitVec w) => if max then maxOf signed a b else minOf signed a b
  let z := xs.head?.getD 0
  let fp := fun (k : FK) =>
    BitVec.ofNat 64 (xs.foldl (fun r x => k.minmax max fmt r (k.bitsOf x)) (k.minmax max fmt (k.bitsOf z) (k.bitsOf z)))
  match t with
  | .i32 => foldBits false (fun a b => pick true a b) z xs
  | .n32 => foldBits false (fun a b => pick false a b) z xs
  | .i64 => foldBits true (fun a b => pick true a b) z xs
  | .n64 => foldBits true (fun a b => pick false a b) z xs
  | .f32 => fp .f32
  | .f64 => fp .f64

/-- The sum of a list; an empty one is zero (07 R169, R170). -/
def foldSum (t : RTy) (v : Env) (xs : List DWord) : DWord :=
  let fp := fun (k : FK) =>
    if xs.isEmpty then 0 else BitVec.ofNat 64 (k.sum v (xs.map (fun x => k.input v.fmt (k.bitsOf x))))
  match t with
  | .i32 => foldBits false (fun a b => a + b) 0 xs
  | .n32 => foldBits false (fun a b => a + b) 0 xs
  | .i64 => foldBits true (fun a b => a + b) 0 xs
  | .n64 => foldBits true (fun a b => a + b) 0 xs
  | .f32 => fp .f32
  | .f64 => fp .f64

/-- A value that each governed lane gets from the lanes of a subset; it depends on all their words (07 R148). -/
def overLanes (part : Nat → Nat → Bool) (f : List DWord → DWord) (c : LaneCtx) (s : State) : LaneRes :=
  .write s (fun j =>
    let ls := c.g.filter (fun i => part i j)
    dstValue c.sig.dst (f (ls.map (fun i => (c.a i).val))) (ls.any (fun i => (c.a i).poison)))

/-- RED.ADD (07 R169). -/
def execRedAdd (t : RTy) (x : LaneArgs) (s : State) : Out :=
  laneInstr (.redAdd t x) (fun c => overLanes (fun _ _ => true) (foldSum t c.env) c) s

/-- RED.MIN. -/
def execRedMin (t : RTy) (x : LaneArgs) (s : State) : Out :=
  laneInstr (.redMin t x) (fun c => overLanes (fun _ _ => true) (foldMinMax false t c.x.sc.fmt) c) s

/-- RED.MAX. -/
def execRedMax (t : RTy) (x : LaneArgs) (s : State) : Out :=
  laneInstr (.redMax t x) (fun c => overLanes (fun _ _ => true) (foldMinMax true t c.x.sc.fmt) c) s

/-- RED.AND. -/
def execRedAnd (t : Wd) (x : LaneArgs) (s : State) : Out :=
  laneInstr (.redAnd t x) (overLanes (fun _ _ => true) (foldBits (t == .w64) (fun a b => a &&& b) (-1))) s

/-- RED.OR. -/
def execRedOr (t : Wd) (x : LaneArgs) (s : State) : Out :=
  laneInstr (.redOr t x) (overLanes (fun _ _ => true) (foldBits (t == .w64) (fun a b => a ||| b) 0)) s

/-- SCAN.ADD: over the governed lanes up to and with the lane (07 R170). -/
def execScanAdd (t : RTy) (x : LaneArgs) (s : State) : Out :=
  laneInstr (.scanAdd t x) (fun c => overLanes (fun i j => i ≤ j) (foldSum t c.env) c) s

/-- SCAN.ADDX: over the governed lanes below the lane. -/
def execScanAddx (t : RTy) (x : LaneArgs) (s : State) : Out :=
  laneInstr (.scanAddx t x) (fun c => overLanes (fun i j => i < j) (foldSum t c.env) c) s

/-- SCAN.MAX. -/
def execScanMax (t : RTy) (x : LaneArgs) (s : State) : Out :=
  laneInstr (.scanMax t x) (fun c => overLanes (fun i j => i ≤ j) (foldMinMax true t c.x.sc.fmt) c) s

/-! ## XSWAP (07 R171–R176) -/

/-- The pair number of an XSWAP. -/
def pairOf (a : LaneArgs) : BitVec 6 :=
  match a.b with
  | .imm p => p.setWidth 6
  | _ => 0

/-- SLOT: the pair is not declared, the team is no member, or its partner has retired (07 R175). -/
def slotFault (c : LaneCtx) (s : State) : Option Trap :=
  if (s.partnerOf c.x (pairOf c.args)).isNone then some (c.trapAll .slot) else none

/-- The arrival of an XSWAP that passed its checks (07 R173). -/
def arrivalOf (t : Wd) (c : LaneCtx) : XArrival where
  pair := pairOf c.args
  wide := t
  args := c.args
  g := c.gov
  src := c.g.foldl (fun m j => smSet PPair.zero m j (c.a j)) []
  waited := 0

/-- SLOT is known without the words of a window. -/
def slotEarly (c : LaneCtx) (_ : List PWord) (s : State) : List (Nat × Trap) × Bool :=
  (if (slotFault c s).isSome then c.g.map (fun j => (j, Trap.of .slot)) else [], false)

def Team.arrived (a : XArrival) (x : Team) : Team := { x with xarr := some a }

/-- XSWAP: it arrives and waits; a partner that arrived with the other width traps SLOT with it (07 R173, R175). -/
def execXswap (t : Wd) (x : LaneArgs) (s : State) : Out :=
  laneInstrWith (.xswap t x) slotEarly (fun c s =>
    match slotFault c s, s.partnerOf c.x (pairOf c.args) with
    | some f, _ => .trap s f
    | none, none => .trap s (c.trapAll .slot)
    | none, some y =>
      match y.xarr with
      | some b =>
        if b.pair = pairOf c.args && b.wide != t then
          .trap (s.takeLaneTrap y.id ⟨.slot, 0, 0, b.g⟩ (y.chainPos != 0)) (c.trapAll .slot)
        else .wait (s.mapTeam c.id (Team.arrived (arrivalOf t c))) .xswap
      | none => .wait (s.mapTeam c.id (Team.arrived (arrivalOf t c))) .xswap) s

/-- What a team writes at an exchange: the partner's words where both sets have the lane, else its own (07 R173). -/
def exchanged (a b : XArrival) (j : Nat) : PPair :=
  if b.g.getLsbD j then smGet PPair.zero b.src j else smGet PPair.zero a.src j

/-- A team's side of an exchange: its lanes written and its instruction retired. -/
def State.exchangeSide (s : State) (x : Team) (a b : XArrival) : State :=
  let sig : LaneSig := sigT a.wide.srcTy .unused .unused false
  let write := fun (t : Team) =>
    (lanesIn a.g x.lanes).foldl (fun t j => t.writeLane sig a.args j (exchanged a b j)) { t with xarr := none }
  (s.mapTeam x.id write).retireLane x a.args a.g 0

/-- XSWAP_EXCHANGE: both partners have arrived on the pair; both write back together (07 R173, R174). Without a partner
that has arrived nothing happens. -/
def execXswapExchange (t : TeamId) (s : State) : Out :=
  match s.team? t with
  | none => .next s
  | some x =>
    match x.xarr with
    | none => .next s
    | some a =>
      match s.partnerOf x a.pair with
      | none => .next s
      | some y =>
        match y.xarr with
        | none => .next s
        | some b =>
          if b.pair = a.pair && b.wide == a.wide then .next ((s.exchangeSide x a b).exchangeSide y b a) else .next s

/-- XSWAP_TIMEOUT: 2^20 counted cycles without the partner's arrival (07 R175). -/
def execXswapTimeout (t : TeamId) (s : State) : Out :=
  match s.team? t with
  | none => .next s
  | some x =>
    match x.xarr with
    | none => .next s
    | some a =>
      let met := match s.partnerOf x a.pair with
        | some y => y.xarr.any (fun b => b.pair = a.pair)
        | none => false
      if 2 ^ 20 ≤ a.waited && !met then .next (s.takeLaneTrap t ⟨.xswapTimeout, 0, 0, a.g⟩ (x.chainPos != 0)) else .next s

/-- Waiting partners of teams that have retired trap SLOT at once (07 R175). -/
def State.slotOrphans (s : State) : State :=
  s.teams.foldl (fun acc x =>
    match x.xarr with
    | some a => if (acc.partnerOf x a.pair).isNone then acc.takeLaneTrap x.id ⟨.slot, 0, 0, a.g⟩ (x.chainPos != 0) else acc
    | none => acc) s

end Sys2Proof.Machine
end

