-- ==== Sys2Proof/Machine/Bins.lean ====
section
/-! DEFINITION. Bins and their shards: readiness and timers (spec/02 R44, R45; spec/13 R280–R283), SPAWN and BINCLOSE
(R284, R285), EXIT, REFILL and REFILL.W (R286–R289), with the version rules of records and closes (spec/11 R252, R253). -/

namespace Sys2Proof.Machine

/-! ## Shards -/

/-- Records that one die's bin store holds, and its room (13 R283). -/
def State.storeUsed (s : State) (die : Nat) : Nat := ((s.shards.filter (fun h => h.die = die)).map (fun h => h.recs.length)).sum
def State.storeFull (s : State) (die : Nat) : Bool := 2 ^ 24 ≤ s.storeUsed die

def Shard.append (r : Rec) (h : Shard) : Shard := { h with recs := h.recs ++ [r] }

/-- The tag of a gang's append or close: its own while it writes versions (11 R252). -/
def State.tagOf (s : State) (g : GangId) : Option GangId := if s.versions g then some g else none

/-! ## Version rules (11 R253) -/

/-- A gang meets a tag: a protected gang becomes dependent on its owner, any other waits for the owner's commit. -/
def State.meetTag (s : State) (g : GangId) (tag : Option GangId) : Except GangId State :=
  match tag with
  | none => .ok s
  | some x => if x = g then .ok s else if s.versions g then .ok (addDep g x s) else .error x

/-- A gang meets the tags of records in order. -/
def State.meetTags (g : GangId) : List Rec → State → Except GangId State
  | [], s => .ok s
  | r :: rs, s =>
    match s.meetTag g r.tag with
    | .ok s => State.meetTags g rs s
    | .error x => .error x

/-- The window over which takes are counted, 200 µs (13 R304). -/
def takeWindow : Nat := 200 * Config.cyclesPerUs

/-- A shard after n records have left its head. -/
def Shard.take (now n : Nat) (h : Shard) : Shard :=
  { h with recs := h.recs.drop n, takes := h.takes.filter (fun t => now < t.1 + takeWindow) ++ [(now, n)] }

/-- At most n records taken from the head of a shard at one event by a gang, or the gang whose commit the take waits for
(02 R50, 11 R253, 13 R288). -/
def State.takeRecs (s : State) (lid bin die n : Nat) (g : GangId) : Except GangId (State × List Rec) :=
  match s.shard? lid bin die with
  | none => .ok (s, [])
  | some h =>
    let recs := h.recs.take n
    match State.meetTags g recs s with
    | .error x => .error x
    | .ok s => .ok ({ s.changeShard lid bin die (Shard.take s.clock recs.length) with takeSeq := s.takeSeq + 1 }, recs)

/-! ## SPAWN and BINCLOSE (13 R285) -/

/-- An append of one record to a shard. -/
def State.appendRec (s : State) (lid bin die : Nat) (r : Rec) : State := s.changeShard lid bin die (Shard.append r)

def Bin.close (tag : Option GangId) (b : Bin) : Bin := if b.closed then b else { b with closed := true, closeTag := tag }

/-- SPAWN. -/
def execSpawn (d a : BitVec 6) (s : State) : Out :=
  teamInstr (.spawn d a) false (fun x s =>
    let ix := x.sc.reg a
    let w := fun (i : Nat) => x.sc.reg (d + BitVec.ofNat 6 i)
    match (s.launch? x.launch).bind (fun l => l.bin? ix.val.toNat) with
    | none => .trap s ⟨.boundsAperture, 1, ix.val.setWidth 64, 0⟩
    | some b =>
      if b.closed then
        match s.meetTag x.gang b.closeTag with
        | .error o => .wait s (.version o s.clock)
        | .ok s => .trap s ⟨.perm, 1, ix.val.setWidth 64, 0⟩
      else if ix.poison || (List.range 4).any (fun i => (w i).poison) then .trap s ⟨.poison, 1, 0, 0⟩
      else if s.storeFull x.die then .wait s .spawn
      else
        let r : Rec := ⟨(w 0).val, (w 1).val, (w 2).val, (w 3).val, s.tagOf x.gang⟩
        .done ((s.appendRec x.launch ix.val.toNat x.die r).countFor (.team x.id) 0x04 1)) s

/-- BINCLOSE. -/
def execBinclose (a : BitVec 6) (s : State) : Out :=
  teamInstr (.binclose a) false (fun x s =>
    let ix := x.sc.reg a
    match (s.launch? x.launch).bind (fun l => l.bin? ix.val.toNat) with
    | none => .trap s ⟨.boundsAperture, 1, ix.val.setWidth 64, 0⟩
    | some b =>
      if ix.poison then .trap s ⟨.poison, 1, 0, 0⟩
      else
        match (if b.closed then s.meetTag x.gang b.closeTag else .ok s) with
        | .error o => .wait s (.version o s.clock)
        | .ok s =>
          let s := s.mapLaunch x.launch (fun l => l.mapBin ix.val.toNat (Bin.close (s.tagOf x.gang)))
          .done ((s.settleBin x.launch ix.val.toNat).countFor (.team x.id) 0x04 1)) s

/-! ## EXIT -/

/-- Lanes vacated (13 R287). -/
def Team.vacate (m : Mask) (x : Team) : Team :=
  { x with masks := x.masks.map (fun k => k &&& ~~~m), kv := x.kv ||| m }

/-- EXIT. -/
def execExit (a : BitVec 4) (s : State) : Out :=
  teamInstr (.exit a) false (fun x s =>
    let m := x.k a
    .done ((s.mapTeam x.id (Team.vacate m)).countFor (.team x.id) 0x0B (lanesIn m x.lanes).length)) s

/-! ## REFILL and REFILL.W (13 R288, R289) -/

/-- One lane filled with a record: v0–v3 from it, every other lane register zero (R288). -/
def Team.fillLane (x : Team) (j : Nat) (r : Rec) : Team :=
  let x := { x with vregs := x.vregs.filter (fun v => v.1 % 1024 ≠ j) }
  (((x.setV 0 j (.clean r.w0)).setV 1 j (.clean r.w1)).setV 2 j (.clean r.w2)).setV 3 j (.clean r.w3)

/-- The records of the n-th take into the lowest vacant lanes, which join k0 and kd. -/
def Team.refilled (d : BitVec 4) (n : Nat) (recs : List Rec) (x : Team) : Team :=
  let lanes := (lanesIn x.kv x.lanes).take recs.length
  let m := maskOf lanes
  let y := (lanes.zip recs).foldl (fun x p => x.fillLane p.1 p.2) x
  let y := { y with kv := y.kv &&& ~~~m, refillRecs := y.refillRecs ++ recs.map (fun r => (n, r)) }
  let y := y.setK 0 (y.k 0 ||| m)
  y.setK d (y.k d ||| m)

/-- A team retires at a refill point: its instruction is counted and seen by the trace triggers, the team leaves, and waiting partners of
its pairs learn of it (02 R47, 07 R175, 17 R379). -/
def State.retireAtRefill (s : State) (x : Team) : State :=
  let s := (((s.beginTrace x).countRetired (.team x.id)).countFor (.team x.id) 0x03 1).retireTeam x.id
  (s.endTrace x).slotOrphans

/-- A take of REFILL, or of REFILL.W when block is set. -/
def refill (block : Bool) (d : BitVec 4) (r : BitVec 6) (x : Team) (s : State) : Res :=
  let st := StreamId.team x.id
  let vacant := x.kv &&& x.full
  if vacant = 0 then .done (s.writeReg st r (.clean 0))
  else
    match s.entryOf x, s.launch? x.launch with
    | some e, some l =>
      match s.takeRecs x.launch e.bin x.die (lanesIn vacant x.lanes).length x.gang with
      | .error o => .wait s (.version o s.clock)
      | .ok (s', recs) =>
        if recs.isEmpty then
          match l.bin? e.bin with
          | none => .done (s.writeReg st r (.clean 0))
          | some b =>
            if b.closed then
              match s.meetTag x.gang b.closeTag with
              | .error o => .wait s (.version o s.clock)
              | .ok s =>
                if vacant = x.full then .gone (s.retireAtRefill x)
                else .done ((s.writeReg st r (.clean 0)).countFor st 0x04 1)
            else if block then .wait s .refillW
            else .done ((s.writeReg st r (.clean 0)).countFor st 0x04 1)
        else
          let n := recs.length
          .done ((((s'.mapTeam x.id (Team.refilled d s'.takeSeq recs)).writeReg st r (.clean (BitVec.ofNat 32 n))).countFor st 0x04 1).countFor
            st 0x0A n)
    | _, _ => Res.fault s .illegal

/-- REFILL. -/
def execRefill (d : BitVec 4) (r : BitVec 6) (s : State) : Out := teamInstr (.refill d r) false (refill false d r) s

/-- REFILL.W. -/
def execRefillW (d : BitVec 4) (r : BitVec 6) (s : State) : Out := teamInstr (.refillW d r) false (refill true d r) s

/-! ## Waiting instructions -/

/-- The scalar instruction that a stream waits at, as its word stands. -/
def State.scalarInstrAt (s : State) (st : StreamId) : Option Instr :=
  match s.agentOf st, s.scalar? st with
  | some ag, some sc =>
    match s.fetchScalar st ag sc.pc with
    | .ok _ w =>
      match decodeScalar w with
      | .ok i => some i
      | .error _ => none
    | .trap _ _ => none
    | .retry _ => none
  | _, _ => none

/-- The state in which a waiting stream tries its instruction again. -/
def State.retrying (s : State) (st : StreamId) : State := { s.unblock st with cur := some st }

/-- A record is present in a waiting team's shard, or its bin is closed. -/
def State.refillReady (s : State) (x : Team) : Bool :=
  match s.entryOf x, s.launch? x.launch with
  | some e, some l =>
    (s.shard? x.launch e.bin x.die).any (fun h => !h.recs.isEmpty) || (l.bin? e.bin).any (·.closed)
  | _, _ => false

/-- REFILL_W_TAKE: a waiting REFILL.W takes again (13 R289). -/
def execRefillWTake (t : TeamId) (s : State) : Out :=
  match s.team? t with
  | none => .next s
  | some x =>
    if x.sc.wait = some .refillW && s.refillReady x && !s.stopping (.team t) then
      match s.scalarInstrAt (.team t) with
      | some (.refillW d r) => execRefillW d r (s.retrying (.team t))
      | _ => .next s
    else .next s

/-- SHARD_TIMER_EXPIRY: a timer has run out with a record present (13 R282). -/
def execShardTimerExpiry (l bin die : Nat) (s : State) : Out :=
  match s.shard? l bin die with
  | some h =>
    if h.frozen.isNone && h.timer.any (· ≤ s.clock) && !h.recs.isEmpty then
      .next (s.changeShard l bin die (fun h => { h with timer := none, expired := true }))
    else .next s
  | none => .next s

end Sys2Proof.Machine
end

