-- ==== Sys2Proof/Machine/Barriers.lean ====
section
/-! DEFINITION. BAR.ARR, BAR.WAIT and BAR.EXP, byte counts that land, and the release of waiting participants
(spec/17 R363–R370). -/

namespace Sys2Proof.Machine

/-- A barrier instruction on the team's instance of a name in use (17 R370). -/
def barInstr (i : Instr) (n : BitVec 3) (body : Team → Barrier → State → Res) (s : State) : Out :=
  teamInstr i false (fun x s =>
    if !(s.launch? x.launch).any (fun l => l.barUsed.getLsbD n.toNat) then Res.fault s .illegal
    else
      match s.barrier? x n with
      | some b => body x b s
      | none => Res.fault s .illegal) s

/-- BAR.ARR; the predictor counts from the instruction after it (17 R369, 14 R317). -/
def execBarArr (n : BitVec 3) (s : State) : Out :=
  barInstr (.barArr n) n (fun x _ s =>
    .done ((s.beginTrace x).changeBarrier x n (fun b => (b.counts x.id (x.instrs + 1)).arrive x.id x.sc.pc))) s

/-- BAR.EXP: the count enters PB; a poisoned one marks the phase (17 R369). -/
def execBarExp (a : BitVec 6) (n : BitVec 3) (s : State) : Out :=
  barInstr (.barExp a n) n (fun x _ s =>
    let p := x.sc.pair a
    .done ((s.beginTrace x).changeBarrier x n (fun b => { b with pb := b.pb + p.val, pbpois := b.pbpois || p.poison }))) s

/-! ## Joins by a barrier (17 R368) -/

/-- Every byte count of an operation landed in one phase of an instance and none is on its way. -/
def State.countedIn (s : State) (b : Barrier) (phase : Word) (o : EngineOp) : Bool :=
  o.st != .running && !o.joined && o.launch = b.launch && o.gid = b.gid && o.count = some b.name
    && (b.nbhd || b.parts.any (fun p => p.team = o.id.team))
    && !o.phases.isEmpty && o.phases.all (· == phase) && !s.reports.any (fun r => r.op = o.id)

/-- An operation joined while its handle may still name it: a stopped one is kept for the trap that finds it (13 R303). -/
def State.joinKept (s : State) (o : OpId) : State :=
  match s.op? o with
  | some x =>
    if x.st = .stopped && !x.joined then
      (s.mapOp o (fun x => { x with joined := true })).sendUp (coreCluster x.core) (.done x.launch)
    else s.joinOp o
  | none => s

/-- The operations whose bytes drained in a phase are joined by the wait that returns on it. -/
def State.joinCounted (s : State) (b : Barrier) (phase : Word) : State :=
  (s.ops.filter (s.countedIn b phase)).foldl (fun s o => s.joinKept o.id) s

/-! ## Waiting -/

/-- LSTAT as a status word, poisoned when its PBPOIS is set (17 R369). -/
def Barrier.status (b : Barrier) : PWord := ⟨b.lstat.setWidth 32, b.lstat.getLsbD 1⟩

/-- BAR.WAIT returns on a completed phase. -/
def State.returnWait (s : State) (x : Team) (d : BitVec 6) (n : BitVec 3) (b : Barrier) (p : Part) : State :=
  ((s.joinCounted b p.arrph).mapBarrier x n (fun b => b.mapPart x.id (fun p => { p with pend := false }))).writeReg (.team x.id)
    d b.status

/-- BAR.WAIT (17 R369). -/
def execBarWait (d : BitVec 6) (n : BitVec 3) (s : State) : Out :=
  barInstr (.barWait d n) n (fun x b s =>
    match b.part? x.id with
    | none => Res.fault s .illegal
    | some p =>
      if !p.pend then .done (s.writeReg (.team x.id) d (.clean 0))
      else if p.arrph = b.phase then .wait s (.barWait n)
      else .done (s.returnWait x d n b p)) s

/-- A participant of an instance that waits on a completed phase is released (17 R365). -/
def State.releasePart (s : State) (n : BitVec 3) (b : Barrier) (p : Part) : State :=
  match s.team? p.team with
  | none => s
  | some y =>
    if y.sc.wait = some (.barWait n) && p.pend && p.arrph != b.phase then
      match s.scalarInstrAt (.team y.id) with
      | some (.barWait d _) =>
        ((s.returnWait y d n b p)).retire (.team y.id) y.sc.pc (y.sc.pc + 4) y.sc.sup false
      | _ => s
    else s

/-- BAR_WAIT_RELEASE: after the tree's latency every waiting participant of a waiting team's instance is released (17 R365). -/
def execBarWaitRelease (t : TeamId) (s : State) : Out :=
  match s.team? t with
  | none => .next s
  | some x =>
    match x.sc.wait with
    | some (.barWait n) =>
      match s.barrier? x n with
      | none => .next s
      | some b =>
        if b.releaseAt.any (· ≤ s.clock) && (b.part? t).any (fun p => p.arrph != b.phase) then
          .next (b.parts.foldl (fun s p => s.releasePart n b p) s)
        else .next s
    | _ => .next s

/-- A byte count lands at its instance, and the phase may complete (17 R365, R367). A count for an instance that has ended is discarded
(R366). -/
def State.landReport (s : State) (r : ByteReport) : State :=
  let s := { s with reports := s.reports.erase r }
  match s.barriers.find? (fun b => b.takes r) with
  | none => s
  | some b =>
    let after := b.land r s.clock
    let s := s.mapOp r.op (fun x => { x with phases := insertNew b.phase x.phases })
    ({ s with barriers := replaceFirst (fun b => b.takes r) (fun _ => after) s.barriers } : State).traceBarrier b after

/-- BAR_BYTE_REPORT: the oldest byte count of an operation lands once it has arrived. -/
def execBarByteReport (o : OpId) (s : State) : Out :=
  match s.reports.find? (fun r => r.op = o) with
  | none => .next s
  | some r => if r.due ≤ s.clock then .next (s.landReport r) else .next s

end Sys2Proof.Machine
end

