-- ==== Sys2Proof/Machine/Matrix.lean ====
section
/-! DEFINITION. Matrix state and matrix instructions: groups (spec/08 R177, R178), banks and accumulators (R179–R187),
operation queues (R188, R196–R200), the operations themselves (R190–R195), feeds, drains and QMX (R201–R205; spec/06
R142). -/

namespace Sys2Proof.Machine

/-! ## Words of banks (08 R179) -/

/-- The reset value of a word of an A or a B bank. -/
def bankReset (isB : Bool) (w : Nat) : PWord :=
  if isB then (if w < 2048 then PWord.zero else if w < 2112 then .clean 0x7F7F7F7F else .clean 0x3F803F80)
  else if w < 1024 then PWord.zero else .clean 0x7F7F7F7F

def bankSize (isB : Bool) : Nat := if isB then 2240 else 1056

/-- The data words that stand before a bank's scale words. -/
def bankData (isB : Bool) : Nat := if isB then 2048 else 1024

def Bank.word (k : Bank) (isB : Bool) (w : Nat) : PWord := smGet (bankReset isB w) k.words w

def Bank.setWord (k : Bank) (isB : Bool) (w : Nat) (x : PWord) : Bank :=
  { k with words := smSet (bankReset isB w) k.words w x }

/-- A bank written word by word from an offset; words beyond its end are dropped (08 R202). -/
def Bank.fill (k : Bank) (isB : Bool) (ws : List (Nat × PWord)) : Bank :=
  ws.foldl (fun k w => if w.1 < bankSize isB then k.setWord isB w.1 w.2 else k) k

/-- A bank published: FULL, with the Z bit of a B bank (08 R185, R193). -/
def Bank.publish (k : Bank) (isB : Bool) : Bank :=
  { k with full := true, z := isB && k.words.all (fun w => 2048 ≤ w.1 || w.2.val &&& 0x7FFF7FFF == 0) }

/-- A bank released: EMPTY, its scale words at their reset values, Z clear, its data kept (08 R185). -/
def Bank.release (k : Bank) (isB : Bool) : Bank :=
  { words := k.words.filter (fun w => w.1 < bankData isB), full := false, z := false }

def Acc.elem (a : Acc) (e : Nat) : PWord := smGet PWord.zero a.elems e

/-! ## Banks of an array core -/

def ArrayState.bank (a : ArrayState) (isB : Bool) (b : BitVec 2) : Bank :=
  if isB then a.bb.get ⟨b.toNat, b.isLt⟩ else a.ab.get ⟨b.toNat, b.isLt⟩

def ArrayState.setBank (a : ArrayState) (isB : Bool) (b : BitVec 2) (k : Bank) : ArrayState :=
  if isB then { a with bb := a.bb.set b.toNat k b.isLt } else { a with ab := a.ab.set b.toNat k b.isLt }

def ArrayState.accOf (a : ArrayState) (c : BitVec 2) : Acc := a.acc.get ⟨c.toNat, c.isLt⟩

def ArrayState.setAcc (a : ArrayState) (c : BitVec 2) (x : Acc) : ArrayState :=
  { a with acc := a.acc.set c.toNat x c.isLt }

def State.mapArrayAt (s : State) (cl ix : Nat) (f : ArrayState → ArrayState) : State :=
  s.mapGroup cl (fun g => g.mapArray ix f)

/-! ## Operand formats (08 R184, R190) -/

def amtCode (fmt : Word) : Nat := (fmt.extractLsb' 8 4).toNat
def bmtCode (fmt : Word) : Nat := (fmt.extractLsb' 12 4).toNat

/-- The floating-point format of AFMT or BFMT codes 0 to 3. -/
def matrixFK (code : Nat) : FK :=
  match code with
  | 0 => .bf16
  | 1 => .f16
  | 2 => .e4m3
  | _ => .e5m2

/-- The combination of form, AFMT and BFMT is one of the table of 08 R190, and ACCF and WGRP are 0. -/
def formatLegal (form : MxForm) (fmt : Word) : Bool :=
  let a := amtCode fmt
  let b := bmtCode fmt
  let both16 := a ≤ 1 && b ≤ 1
  let both8 := 2 ≤ a && a ≤ 3 && 2 ≤ b && b ≤ 3
  fmt.extractLsb' 16 8 == 0 &&
    match form with
    | .mzero => true
    | .mma => both16 || both8
    | .mmaq => a ≤ 3 && 4 ≤ b && b ≤ 6
    | .mmas => both16

/-- K of an operation: 64 for an 8-bit A operand, else 32 (08 R190). -/
def kOf (fmt : Word) : Nat := if 2 ≤ amtCode fmt then 64 else 32

/-! ## Operand values (08 R180–R182, R191) -/

/-- Bits [lo + n − 1 : lo] of a word. -/
def wordBits (w : Word) (lo n : Nat) : Nat := natBits w.toNat lo n

/-- An element multiplied by its E8M0 block scale (08 R191). -/
def FV.scaled (v : FV) (scale : Nat) : FV :=
  if scale = 0xFF then .nan
  else
    match v with
    | .num n m e => .num n m (e + (scale : Int) - 127)
    | .inf n => .inf n
    | .nan => .nan

/-- Element k of the row or column that starts at a word, in a 16- or 8-bit floating-point format. -/
def Bank.floatAt (k : Bank) (isB : Bool) (fk : FK) (line e : Nat) : FV :=
  let base := 16 * line
  match fk with
  | .bf16 => FK.value .bf16 (wordBits (k.word isB (base + e / 2)).val (16 * (e % 2)) 16)
  | .f16 => FK.value .f16 (wordBits (k.word isB (base + e / 2)).val (16 * (e % 2)) 16)
  | .e4m3 => FK.value .e4m3 (wordBits (k.word isB (base + e / 4)).val (8 * (e % 4)) 8)
  | .e5m2 => FK.value .e5m2 (wordBits (k.word isB (base + e / 4)).val (8 * (e % 4)) 8)
  | .f32 => .nan
  | .f64 => .nan

/-- The MX scale of a row or column and block (08 R182). -/
def Bank.mxScale (k : Bank) (isB : Bool) (line blk : Nat) : Nat :=
  let i := 2 * line + blk
  wordBits (k.word isB (bankData isB + i / 4)).val (8 * (i % 4)) 8

/-- An element of A, or of B in MMA and MMAS, with its MX scale (08 R191). -/
def Bank.element (k : Bank) (isB : Bool) (code line e : Nat) : FV :=
  let v := k.floatAt isB (matrixFK code) line e
  if 2 ≤ code then v.scaled (k.mxScale isB line (e / 32)) else v

/-- A two's complement code of n bits. -/
def signedCode (x n : Nat) : Int := if 2 ^ (n - 1) ≤ x then (x : Int) - 2 ^ n else x

/-- The weight code of column n at k (08 R181): INT8, INT4 or INT3. -/
def Bank.weightCode (b : Bank) (code n k : Nat) : Int :=
  let w := fun (p : Nat) => (b.word true (16 * n + p)).val
  if code = 4 then signedCode (wordBits (w (k / 4)) (8 * (k % 4)) 8) 8
  else if code = 5 then signedCode (wordBits (w (k / 8)) (4 * (k % 8)) 4) 4
  else
    let blk := k / 32
    let bits := (w (3 * blk)).toNat + 2 ^ 32 * (w (3 * blk + 1)).toNat + 2 ^ 64 * (w (3 * blk + 2)).toNat
    signedCode (natBits bits (3 * (k % 32)) 3) 3

/-- The group scale of a column and block (08 R182). -/
def Bank.weightScale (b : Bank) (n blk : Nat) : FV :=
  FK.value .bf16 (wordBits (b.word true (2112 + n)).val (16 * blk) 16)

/-- A weight q·s (06 R133). -/
def Bank.weight (b : Bank) (code n k : Nat) : FV :=
  let q := b.weightCode code n k
  (FV.num (q < 0) q.natAbs 0).mul (b.weightScale n (k / 32))

/-- Row i of A and column n of B as an operation reads them. -/
def rowOf (a : Bank) (fmt : Word) (i : Nat) : List FV :=
  (List.range (kOf fmt)).map (fun k => a.element false (amtCode fmt) i k)

def columnOf (b : Bank) (form : MxForm) (fmt : Word) (n : Nat) : List FV :=
  (List.range (kOf fmt)).map (fun k =>
    if form = .mmaq then b.weight (bmtCode fmt) n k else b.element true (bmtCode fmt) n k)

/-! ## Poison of operands (08 R183) -/

/-- The data words of a column that an operation reads (08 R181). -/
def columnWords (code k : Nat) : Nat :=
  if code ≤ 1 then k / 2 else if code ≤ 4 then k / 4 else if code = 5 then k / 8 else 3 * (k / 32)

/-- Some word that the operation reads for row i of A is poisoned. -/
def rowPoison (a : Bank) (fmt : Word) (i : Nat) : Bool :=
  (List.range 16).any (fun p => (a.word false (16 * i + p)).poison)
    || (2 ≤ amtCode fmt && (a.word false (1024 + i / 2)).poison)

/-- Some word that the operation reads for column n of B is poisoned. -/
def columnPoison (b : Bank) (form : MxForm) (fmt : Word) (n : Nat) : Bool :=
  (List.range (columnWords (bmtCode fmt) (kOf fmt))).any (fun p => (b.word true (16 * n + p)).poison)
    || (if form = .mmaq then (b.word true (2112 + n)).poison
        else 2 ≤ bmtCode fmt && (b.word true (2048 + n / 2)).poison)

/-! ## Accumulation (08 R192) -/

/-- The products of an element, block by block. -/
def products (row col : List FV) : List FV := List.zipWith FV.mul row col

/-- An accumulator element after the blocks of an operation: each block is one exact sum rounded once. -/
def accumulate (mode : Mode) (terms : List FV) (blocks : Nat) (x : Nat) : Nat :=
  (List.range blocks).foldl (fun x b =>
    FK.sum .f32 ⟨mode, 0, false⟩ (FK.value .f32 x :: (terms.drop (32 * b)).take 32)) x

/-! ## Shadow accumulators (08 R195) -/

/-- A number truncated toward zero, or rounded up in magnitude, to 8 significant bits. -/
def FV.to8 (up : Bool) : FV → FV
  | .num n m e =>
    let d := bitLength m - 8
    .num n ((if up then m + 2 ^ d - 1 else m) / 2 ^ d) (e + d)
  | .inf n => .inf n
  | .nan => .nan

def FV.dyad : FV → Dyad
  | .num n m e => ⟨signedMag n m, e⟩
  | .inf _ => ⟨0, 0⟩
  | .nan => ⟨0, 0⟩

def FV.magnitude : FV → FV
  | .num _ m e => .num false m e
  | .inf _ => .inf false
  | .nan => .nan

def dyadSum (xs : List Dyad) : Dyad := xs.foldl Dyad.add ⟨0, 0⟩

/-- The class that the shadow predicts for an element: NaN, an infinity, or finite (R195 step 2). -/
def predicted (xs : List FV) : Option FV :=
  let pos := xs.any (· == .inf false)
  let neg := xs.any (· == .inf true)
  if xs.any FV.isNan || (pos && neg) then some .nan
  else if pos then some (.inf false)
  else if neg then some (.inf true)
  else none

/-- One element of a column as its shadow sees it: the old value, the truncated products, the value the array delivers. -/
structure ShadowElem where
  old : FV
  cls : Option FV
  terms : List FV
  new : Nat

def ShadowElem.total (x : ShadowElem) : Dyad := dyadSum ((x.old.to8 false :: x.terms).map FV.dyad)

/-- The sum of an element's magnitudes, each rounded up to 8 significant bits. -/
def ShadowElem.mags (x : ShadowElem) : Dyad :=
  dyadSum ((x.old.to8 false :: x.terms).map (fun v => (v.magnitude.to8 true).dyad))

/-- The delivered value is an overflow that the prediction admits. -/
def ShadowElem.admitted (x : ShadowElem) : Bool :=
  x.cls.isNone && !x.mags.le ⟨1, 127⟩ && (x.new % 2 ^ 31 == 0x7F800000 || x.new % 2 ^ 31 == 0x7F7FFFFF)

/-- The delivered value has the predicted class. -/
def ShadowElem.classOk (x : ShadowElem) : Bool :=
  match x.cls, FK.value .f32 x.new with
  | some p, v => p == v
  | none, .num _ _ _ => true
  | none, .inf _ => x.admitted
  | none, .nan => false

/-- The test of a column (R195). DEDUCED: notes/assumptions/38. -/
def columnPasses (xs : List ShadowElem) : Bool :=
  let fin := xs.filter (fun x => x.cls.isNone && !x.admitted)
  let diff := (dyadSum (fin.map (fun x => (FK.value .f32 x.new).dyad))).add (dyadSum (fin.map (·.total))).neg
  let bound := ((dyadSum (fin.map (·.mags))).mul ⟨1, -5⟩).add ⟨1, -140⟩
  xs.all (·.classOk) && diff.le bound && diff.neg.le bound

/-! ## Performing an operation (08 R193, R198) -/

/-- The bits that a defective array column has wrong (DESIGN CHOICE, notes/assumptions/9). -/
def State.columnFlip (s : State) (core q n : Nat) : Word :=
  s.defects.foldl (fun w d =>
    if d.core = core ∧ d.array ∧ d.quadrant = q ∧ d.column = n then w ^^^ d.flip else w) 0

/-- What an operation reads, once for all elements. -/
structure MxRead where
  rows : List (List FV × Bool)
  cols : List (List FV × Bool)

def MxOp.read (o : MxOp) (a : ArrayState) : MxRead where
  rows := (List.range 64).map (fun i => (rowOf (a.bank false o.abank) o.fmt i, rowPoison (a.bank false o.abank) o.fmt i))
  cols := (List.range 128).map (fun n =>
    (columnOf (a.bank true o.bbank) o.form o.fmt n, columnPoison (a.bank true o.bbank) o.form o.fmt n))

def MxRead.row (r : MxRead) (i : Nat) : List FV × Bool := r.rows.getD i ([], false)
def MxRead.col (r : MxRead) (n : Nat) : List FV × Bool := r.cols.getD n ([], false)

def MxOp.mode (o : MxOp) : Mode := Mode.ofCode (if o.rm = 0 then o.fmt.extractLsb' 0 3 else o.rm)

/-- The value that the array delivers for element (i, n). -/
def MxOp.deliver (o : MxOp) (s : State) (core : Nat) (acc : Acc) (r : MxRead) (i n : Nat) : Word :=
  BitVec.ofNat 32 (accumulate o.mode (products (r.row i).1 (r.col n).1) (kOf o.fmt / 32) (acc.elem (128 * i + n)).val.toNat)
    ^^^ s.columnFlip core (i / 16) n

/-- A column of the array fails its shadow check. A correct result always passes (R195), so only columns with a defect are
tried. -/
def MxOp.columnFails (o : MxOp) (s : State) (core : Nat) (acc : Acc) (r : MxRead) (q n : Nat) : Bool :=
  s.columnFlip core q n != 0 &&
    !columnPasses ((List.range 16).map (fun k =>
      let i := 16 * q + k
      let old := FK.value .f32 (acc.elem (128 * i + n)).val.toNat
      let full := products (r.row i).1 (r.col n).1
      let cut := products ((r.row i).1.map (FV.to8 false)) ((r.col n).1.map (FV.to8 false))
      ⟨old, predicted (old :: full), cut, (o.deliver s core acc r i n).toNat⟩))

/-- The accumulator after an operation that performs its blocks. -/
def MxOp.result (o : MxOp) (s : State) (core : Nat) (acc : Acc) (r : MxRead) (bad : List (Nat × Nat)) : SMap PWord :=
  (List.range 8192).filterMap (fun e =>
    let i := e / 128
    let n := e % 128
    let w : PWord := ⟨o.deliver s core acc r i n,
      (acc.elem e).poison || (r.row i).2 || (r.col n).2 || (i / 16, n) ∈ bad⟩
    if w = PWord.zero then none else some (e, w))

/-- Columns that fail, each recorded against its unit (08 R195, 11 R257). -/
def State.recordColumns (s : State) (core : Nat) (bad : List (Nat × Nat)) : State :=
  s.mapCore core (fun x => { x with shadow := x.shadow ++ bad.map (fun b => ⟨true, b.1, b.2, s.clock⟩) })

/-- The releases and the hand-over at an operation's completion (08 R185, R186). -/
def MxOp.releases (o : MxOp) (a : ArrayState) : ArrayState :=
  let a := if o.ra then a.setBank false o.abank ((a.bank false o.abank).release false) else a
  let a := if o.rb then a.setBank true o.bbank ((a.bank true o.bbank).release true) else a
  if o.rc then a.setAcc o.acc { a.accOf o.acc with drain := true } else a

/-- The operation skips its block: an MMAS whose B bank has Z = 1 (08 R193). -/
def MxOp.skips (o : MxOp) (a : ArrayState) : Bool := o.form = .mmas && (a.bank true o.bbank).z

/-- An operation's effect at its completion. -/
def State.performMx (s : State) (cl ix : Nat) (a : ArrayState) (o : MxOp) : State :=
  if o.form = .mzero then s.mapArrayAt cl ix (fun a => a.setAcc o.acc { a.accOf o.acc with elems := [] })
  else if o.skips a then s.mapArrayAt cl ix o.releases
  else
    let acc := a.accOf o.acc
    let r := o.read a
    let bad := ((List.range 4).flatMap (fun q => (List.range 128).map (fun n => (q, n)))).filter
      (fun b => o.columnFails s a.core acc r b.1 b.2)
    let s' := s.mapArrayAt cl ix (fun a => o.releases (a.setAcc o.acc { acc with elems := o.result s a.core acc r bad }))
    if bad.isEmpty then s' else s'.recordColumns a.core bad

/-! ## Queues (08 R188) -/

/-- Operations outstanding over all queues of a control core. -/
def Group.outstanding (g : Group) : Nat := (g.arrays.map (fun a => a.queue.length)).sum

/-- The position that an operation issued to a queue takes there (17 R375). -/
def Group.queued (g : Group) (c : BitVec 2) : Nat := ((g.array? c.toNat).map (fun a => a.queue.length)).getD 0

def ArrayState.enqueue (o : MxOp) (a : ArrayState) : ArrayState := { a with queue := a.queue ++ [o] }

/-- An operation queued: the checks of 08 R199, and the wait for room. -/
def queueMx (i : Instr) (c : BitVec 2) (form : MxForm) (op : Group → MxOp) (s : State) : Out :=
  ctrlInstr i (fun g s =>
    if !formatLegal form g.sc.fmt then Res.fault s .illegal
    else if g.arrays.length ≤ c.toNat then Res.fault s .quota
    else if 8 ≤ g.outstanding then .wait s .matrixQueue
    else .done (s.mapArrayAt g.cl c.toNat (ArrayState.enqueue (op g)))) s

/-- The word of a matrix instruction. -/
def mxWord (i : Instr) : Word := (encodeScalar i).getD 0

/-- MZERO has no formats or banks to check (08 R197). -/
def execMzero (c a : BitVec 2) (s : State) : Out :=
  ctrlInstr (.mzero c a) (fun g s =>
    if g.arrays.length ≤ c.toNat then Res.fault s .quota
    else if 8 ≤ g.outstanding then .wait s .matrixQueue
    else .done (s.mapArrayAt g.cl c.toNat (ArrayState.enqueue
      ⟨.mzero, mxWord (.mzero c a), a, 0, 0, false, false, false, 0, g.sc.fmt, none, g.sc.pc, g.queued c⟩))) s

/-- MMA (08 R198). -/
def execMma (c a p q : BitVec 2) (x y z : BitVec 1) (m : BitVec 3) (s : State) : Out :=
  queueMx (.mma c a p q x y z m) c .mma (fun g =>
    ⟨.mma, mxWord (.mma c a p q x y z m), a, p, q, x == 1, y == 1, z == 1, m, g.sc.fmt, none, g.sc.pc, g.queued c⟩) s

/-- MMAQ (08 R198). -/
def execMmaq (c a p q : BitVec 2) (x y z : BitVec 1) (m : BitVec 3) (s : State) : Out :=
  queueMx (.mmaq c a p q x y z m) c .mmaq (fun g =>
    ⟨.mmaq, mxWord (.mmaq c a p q x y z m), a, p, q, x == 1, y == 1, z == 1, m, g.sc.fmt, none, g.sc.pc, g.queued c⟩) s

/-- MMAS (08 R193, R198). -/
def execMmas (c a p q : BitVec 2) (x y z : BitVec 1) (m : BitVec 3) (s : State) : Out :=
  queueMx (.mmas c a p q x y z m) c .mmas (fun g =>
    ⟨.mmas, mxWord (.mmas c a p q x y z m), a, p, q, x == 1, y == 1, z == 1, m, g.sc.fmt, none, g.sc.pc, g.queued c⟩) s

/-- MBANK (08 R200). -/
def execMbank (c : BitVec 2) (d : BitVec 6) (s : State) : Out :=
  ctrlInstr (.mbank c d) (fun g s =>
    match g.array? c.toNat with
    | some a => .done (s.writeReg (.ctrl g.cl) d (.clean a.word))
    | none => Res.fault s .quota) s

/-- The head operation of a queue can start: its banks FULL and its accumulator ARRAY (08 R188). -/
def ArrayState.ready (a : ArrayState) (o : MxOp) : Bool :=
  !a.accDrain o.acc && (o.form == .mzero || (a.abFull o.abank && a.bbFull o.bbank))

def MxOp.start (now : Nat) (o : MxOp) : MxOp := { o with started := some now }

/-- MATRIX_OP_START: the head of a queue starts; a control core that is being stopped starts none (08 R188, R189). -/
def execMatrixOpStart (cl ix : Nat) (s : State) : Out :=
  match (s.arrayAt (cl, ix)), (s.group? cl).any (·.placed) && !s.stopping (.ctrl cl) with
  | some a, true =>
    match a.queue with
    | o :: rest =>
      if o.started.isNone && a.ready o then
        .next (s.mapArrayAt cl ix (fun a => { a with queue := o.start s.clock :: rest }))
      else .next s
    | [] => .next s
  | _, _ => .next s

/-- The cycles from an operation's start to its completion (08 R188). -/
def MxForm.cycles : MxForm → Nat
  | .mzero => 4
  | .mma => 32
  | .mmaq => 32
  | .mmas => 32

/-- The matrix group of a failed launch is over once its last started operation has completed (08 R178). -/
def State.dropFailed (s : State) (cl : Nat) : State :=
  match s.group? cl with
  | some g =>
    if (s.launch? g.launch).any (fun l => l.lstate == .failed) && g.failed.isNone then
      { s with groups := s.groups.filter (fun x => x.cl ≠ cl) }
    else s
  | none => s

/-- MATRIX_OP_COMPLETE: the running operation completes: its effect, its releases and the next place in the queue
(08 R185, R186, R198). -/
def execMatrixOpComplete (cl ix : Nat) (s : State) : Out :=
  match s.arrayAt (cl, ix) with
  | some a =>
    match a.queue with
    | o :: rest =>
      match o.started with
      | some t =>
        if t + o.form.cycles ≤ s.clock then
          .next ((((s.performMx cl ix a o).mapArrayAt cl ix (fun a => { a with queue := rest })).mapScalar (.ctrl cl) wakeQueue).dropFailed cl)
        else .next s
      | none => .next s
    | [] => .next s
  | none => .next s

/-! ## Feeds and drains (08 R201–R204) -/

/-- A feed or drain that does not find its phase: alone it waits; in a chain the chain is abandoned (08 R204). -/
def phaseWait (c : LaneCtx) (s : State) : LaneRes :=
  if c.args.hold || c.x.chainPos != 0 then .again s else .wait s .phase

/-- The words that a feed writes: lane j's at offset o + j. -/
def LaneCtx.feedWords (c : LaneCtx) (o : Nat) : List (Nat × PWord) := c.g.map (fun j => (o + j, .clean (c.a j).lo.val))

/-- MFEED (08 R202). DEDUCED: notes/assumptions/37. -/
def feed (isB : Bool) (c : LaneCtx) (s : State) : LaneRes :=
  match chooseTrap (poisoned c (fun j => (c.a j).poison)) with
  | some t => .trap s t
  | none =>
    let ctl := (c.b 0).lo.val
    let b := ctl.extractLsb' 12 2
    match s.arrayOf c.x with
    | none => .trap s (c.trapAll .role)
    | some (cl, ix) =>
      match s.arrayAt (cl, ix) with
      | none => .trap s (c.trapAll .role)
      | some a =>
        if (a.bank isB b).full then phaseWait c s
        else
          let k := (a.bank isB b).fill isB (c.feedWords (ctl.extractLsb' 0 12).toNat)
          .done (s.mapArrayAt cl ix (fun a => a.setBank isB b (if ctl.getLsbD 14 then k.publish isB else k)))

/-- MFEED.A. -/
def execMfeedA (x : LaneArgs) (s : State) : Out := laneInstr (.mfeedA x) (feed false) s

/-- MFEED.B. -/
def execMfeedB (x : LaneArgs) (s : State) : Out := laneInstr (.mfeedB x) (feed true) s

/-- MDRAIN (08 R203). With an empty governing set it has no effect (07 R145). -/
def execMdrain (x : LaneArgs) (s : State) : Out :=
  laneInstr (.mdrain x) (fun c s =>
    if c.g.isEmpty then .done s
    else if (c.b 0).lo.poison then .trap s (c.trapAll .poison)
    else
      let ctl := (c.b 0).lo.val
      let o := (ctl.extractLsb' 0 13).toNat
      let b := ctl.extractLsb' 13 2
      match s.arrayOf c.x with
      | none => .trap s (c.trapAll .role)
      | some (cl, ix) =>
        match s.arrayAt (cl, ix) with
        | none => .trap s (c.trapAll .role)
        | some a =>
          let acc := a.accOf b
          if !acc.drain then phaseWait c s
          else
            let s := if ctl.getLsbD 15 then s.mapArrayAt cl ix (fun a => a.setAcc b { acc with drain := false }) else s
            .write s (fun j => .ofWord (if o + j < 8192 then acc.elem (o + j) else PWord.zero))) s

/-- CHAIN_PHASE_START: a waiting chain finds every phase it needs and issues next; its window words stay as they were read
(08 R204). -/
def execChainPhaseStart (t : TeamId) (s : State) : Out :=
  match s.team? t with
  | none => .next s
  | some x =>
    match x.sc.wait, x.chainReads, s.laneInstrAt x with
    | some .chainPhase, some ws, some (i, c) =>
      match (State.chainFrom c.ag c.e (x.runLeft - 1) (x.lanePc + laneWordCount c.args) s).2 with
      | some rest => if !s.stopping (.team t) && chainReady s x (i :: rest) ws then .next (s.unblock (.team t)) else .next s
      | none => .next s
    | _, _, _ => .next s

/-- BANK_PHASE_PERFORM: a waiting feed or drain finds its phase and performs (08 R187). -/
def execBankPhasePerform (t : TeamId) (s : State) : Out :=
  match s.team? t with
  | none => .next s
  | some x =>
    match x.sc.wait, s.laneInstrAt x with
    | some .phase, some (i, c) =>
      if !s.stopping (.team t) && phaseReady s x i (controlWord x c.args (x.chainReads.getD [])) then
        let s' := { s.unblock (.team t) with cur := some (.team t) }
        match i with
        | .mfeedA a => execMfeedA a s'
        | .mfeedB a => execMfeedB a s'
        | .mdrain a => execMdrain a s'
        | _ => .next s
      else .next s
    | _, _ => .next s

/-! ## QMX (08 R205, 06 R142) -/

/-- The scale of a block from the magnitude of its largest value: floor(log2 amax) − emax + 127, kept in 0 to 254. -/
def blockScale (emax : Int) (amax : FV) : Nat :=
  match amax with
  | .num _ m e => if m = 0 then 0 else (max 0 (min 254 (e + bitLength m - 1 - emax + 127))).toNat
  | .inf _ => 0xFF
  | .nan => 0xFF

/-- A block quantised: its scale, and the element of each value (06 R142). -/
def quantise (k : FK) (emax : Int) (xs : List FV) : Nat × (FV → Nat) :=
  let scale :=
    if xs.any (fun x =>
      match x with
      | .num _ _ _ => false
      | .inf _ => true
      | .nan => true) then 0xFF
    else blockScale emax (xs.foldl (fun m x => if m.lt x.magnitude then x.magnitude else m) (.num false 0 0))
  (scale, fun x =>
    match x with
    | .num n m e =>
      if scale = 0xFF then k.nan
      else k.round ⟨.rne, 0, true⟩ (if m = 0 then .zero n else .fin n m (e + 127 - (scale : Int)) false)
    | .inf _ => k.nan
    | .nan => k.nan)

def MxTy.fk : MxTy → FK
  | .e4m3 => .e4m3
  | .e5m2 => .e5m2

def MxTy.emax : MxTy → Int
  | .e4m3 => 8
  | .e5m2 => 15

/-- QMX: each mask word of the governing set is a block; a poisoned value poisons its whole block. -/
def execQmx (t : MxTy) (x : LaneArgs) (s : State) : Out :=
  laneInstr (.qmx t x) (fun c s =>
    let value := fun (j : Nat) => FK.input .f32 c.x.sc.fmt (c.a j).lo.val.toNat
    let block := fun (w : Nat) => c.g.filter (fun j => j / 32 = w)
    let done := (List.range c.x.nw).map (fun w =>
      (quantise (MxTy.fk t) (MxTy.emax t) ((block w).map value), (block w).any (fun j => (c.a j).poison)))
    .write s (fun j =>
      match done[j / 32]? with
      | some ((scale, q), p) => .ofWord ⟨BitVec.ofNat 32 (q (value j) + 256 * scale), p⟩
      | none => PPair.zero)) s

/-! ## Groups (08 R177, R178) -/

/-- The clusters that a launch may use: of its dies and its partition's, set in CLMASK (14 R309, R311). -/
def State.launchClusters (s : State) (l : Launch) : List Nat :=
  (List.range 54).filter (fun cl =>
    match (if h : l.part < 8 then some (s.partitions.get ⟨l.part, h⟩) else none) with
    | some p => l.diemask.testBit (cl / 9) && p.pdies.testBit (cl / 9) && p.clmask.testBit cl
    | none => false)

/-- The clusters on which a launch forms matrix groups, as they are at its acceptance (08 R178). -/
def State.candClusters (s : State) (l : Launch) : List Nat :=
  if l.arrays = 0 then []
  else (s.launchClusters l).filter (fun cl => l.arrays ≤ (s.clusterCores cl).length && !s.noMatrix.contains cl)

/-- The control core of a cluster can take a group of a launch that is not being pre-empted: it serves none, and the cluster has matrix
service and enough active cores (08 R177, R178; 14 R324; 16 R346). -/
def State.canForm (s : State) (l : Launch) (cl : Nat) : Bool :=
  l.arrays != 0 && l.lstate == .running && !l.preempted && !(s.clusterCores cl).any s.clearing && !l.formed.contains cl && l.cands.contains cl
    && !s.noMatrix.contains cl && l.arrays ≤ (s.clusterCores cl).length && (s.group? cl).isNone

/-- The registers of a control core at its group's start (08 R178, 04 R91). -/
def Launch.ctrlScalar (l : Launch) (cl : Nat) : Scalar :=
  { Scalar.start with
    regs := ((Vector.replicate 64 PWord.zero).set 1 (.clean l.ccarg)).set 2 (.clean (BitVec.ofNat 32 cl))
    pc := l.ccsbase + BitVec.ofNat 64 l.ccentry
    fmt := l.ccfmt
    tvec := l.tvec &&& ~~~3
    pgpool := l.pgpool }

/-- A matrix group formed on a cluster: the control core starts with the cluster's first active cores as its array cores. -/
def State.formGroup (s : State) (l : Launch) (cl : Nat) : State :=
  if s.canForm l cl then
    let cores := (s.clusterCores cl).take l.arrays
    let g : Group := ⟨cl, l.id, l.ctrlScalar cl, cores.map ArrayState.reset, true⟩
    ({ s with groups := s.groups ++ [g] } : State).mapLaunch l.id (fun x => { x with formed := x.formed ++ [cl] })
  else s

/-- MATRIX_GROUP_FORM (08 R178). -/
def execMatrixGroupForm (l cl : Nat) (s : State) : Out :=
  match s.launch? l with
  | some x => .next (s.formGroup x cl)
  | none => .next s

/-- The work of a group is done (08 R178): no team on its array cores, the shards of its feeds' and drains' bins drained and
closed, its queues empty. DEDUCED: notes/assumptions/97. -/
def State.groupDone (s : State) (g : Group) (l : Launch) : Bool :=
  let bins := (l.entries.filter (fun e => e.role != .vector)).map (·.bin)
  g.placed && !(s.teams.any (fun t => t.launch = g.launch && t.place.any (fun p => g.arrays.any (fun a => a.core = p.core))))
    && bins.all (fun b => (l.bin? b).any (·.closed)
      && s.shards.all (fun h => !(h.launch = g.launch && h.bin = b && h.die = g.cl / 9) || h.recs.isEmpty))
    && g.arrays.all (fun a => a.queue.isEmpty)

/-- MATRIX_GROUP_END: the control core is stopped and freed (08 R178). -/
def execMatrixGroupEnd (cl : Nat) (s : State) : Out :=
  match s.group? cl with
  | some g =>
    match s.launch? g.launch with
    | some l => .next (if s.groupDone g l then { s with groups := s.groups.filter (fun x => x.cl ≠ cl) } else s)
    | none => .next s
  | none => .next s

end Sys2Proof.Machine
end

