-- ==== Sys2Proof/Machine/Memory.lean ====
section
/-! DEFINITION. Memory accesses of instructions: address formation (spec/10 R227, R228), levels and their ranges
(spec/09 R206, R207), alignment, bounds and permission checks (spec/10 R229, R232), and the read, write and atomic events
(spec/10 R231, R236). -/

namespace Sys2Proof.Machine

/-! ## Levels -/

/-- The core at another position of a team's neighbourhood rectangle (02 R35). -/
def windowCore (core pos cols q : Nat) : Nat := core + 6 * (q / cols) + q % cols - 6 * (pos / cols) - pos % cols

/-- Where a level leads an address, before translation. -/
inductive Reach
  | va (a : DWord)
  | loc (l : Loc)
  | bounds
  deriving DecidableEq, Repr

/-- S, the launch's scratchpad bytes on a core, and D, its die-scratchpad bytes (09 R206, 14 R310, 12 R275). -/
def Launch.spBytes (l : Launch) : Nat := 1024 * l.spq
def Launch.dscrBytes (l : Launch) : Nat := l.dscr

/-- A lane's slice address (09 R207). -/
def Launch.sliceVa (l : Launch) (blk lane : Nat) : DWord :=
  l.pbase + BitVec.ofNat 64 (blk * 1024 * l.psize + lane * l.psize)

/-- A team's access at a level (09 R206, R207); off is the offset, or the address at .G. -/
def Team.reach (x : Team) (l : Launch) (core lane : Nat) (lv : Level) (off : DWord) (width : Nat) : Reach :=
  let n := off.toNat
  match lv with
  | .g => .va off
  | .p => if l.psize < n + width then .bounds else .va (l.sliceVa x.blk lane + off)
  | .s => if n < l.spBytes then .loc (.scratch core n) else .bounds
  | .n =>
    if l.nb ∧ n < l.rows * l.cols * l.spBytes then
      .loc (.scratch (windowCore core x.pos l.cols (n / l.spBytes)) (n % l.spBytes))
    else .bounds
  | .d => if n < l.dscrBytes then .loc (.dscratch l.id (core / 36) n) else .bounds

/-- A control core's access: it has the levels .D and .G (10 R240). -/
def ctrlReach (l : Launch) (cl : Nat) (lv : Level) (off : DWord) : Reach :=
  match lv with
  | .g => .va off
  | .d => if off.toNat < l.dscrBytes then .loc (.dscratch l.id (cl / 9) off.toNat) else .bounds
  | .p => .bounds
  | .s => .bounds
  | .n => .bounds

/-! ## Checks of one access -/

/-- An access checked: where it goes, its fault, or a leaf in migration. -/
inductive Checked
  | spot (p : Spot)
  | fault (t : Trap)
  | stall
  deriving DecidableEq, Repr

/-- The checks of one access at an offset or address: alignment, range, translation, permission (10 R229, R232). atom
marks an atomic, which goes to the slice when the leaf does not place it near (10 R237). -/
def State.check (s : State) (ag : Agent) (k : AccKind) (atom : Bool) (lane : Nat) (r : Reach) (off : DWord) (width : Nat) :
    State × Checked :=
  if off.toNat % width ≠ 0 then (s, .fault ⟨.align true, k.code, off, 0⟩)
  else
    match r with
    | .bounds => (s, .fault ⟨.boundsAperture, k.code, off, 0⟩)
    | .loc l => (s, .spot ⟨lane, none, none, l, .l1⟩)
    | .va a =>
      match s.translate ag a with
      | (s, .page sub) => (s, .fault ⟨.page sub, k.code, a, 0⟩)
      | (s, .stall) => (s, .stall)
      | (s, .ok e pa) =>
        if e.permits k ag.sup then (s, .spot ⟨lane, some a, some e, .mem pa, if atom && e.apl != 0 then .slice else .l1⟩)
        else (s, .fault ⟨.perm, k.code, a, 0⟩)

/-! ## Events -/

/-- The bytes of a load and of a store (10 R230). -/
def ldBytes : LdW → Nat
  | .n8 => 1
  | .i8 => 1
  | .n16 => 2
  | .i16 => 2
  | .b32 => 4
  | .b64 => 8
  | .b128 => 16

def stBytes : StW → Nat
  | .b8 => 1
  | .b16 => 2
  | .b32 => 4
  | .b64 => 8
  | .b128 => 16

/-- A spot n bytes further on. -/
def Spot.add (p : Spot) (n : Nat) : Spot := { p with va := p.va.map (· + BitVec.ofNat 64 n), loc := p.loc.add n }

/-- The events of a lane's access: one, or two of 8 bytes for one of 128 bits (09 R211). -/
def Spot.events (p : Spot) (ops : List EvOp) : List AccEvent := ops.zipIdx.map (fun o => ⟨p.add (8 * o.2), o.1⟩)

/-- The read of a load width, the low eight bytes first. -/
def ldReads (w : LdW) : List EvOp := if w = .b128 then [.read 8, .read 8] else [.read (ldBytes w)]

/-! ## Scalar accesses -/

/-- Where a scalar access of a stream goes; nothing for a level that the stream does not have (10 R228, R240). -/
def State.scalarReach (s : State) (st : StreamId) (l : Launch) (lv : Level) (off : DWord) (width : Nat) : Option Reach :=
  match st with
  | .team id =>
    match s.team? id, s.coreOf st with
    | some x, some core => some (x.reach l core 0 lv off width)
    | _, _ => none
  | .ctrl cl =>
    match lv with
    | .d => some (ctrlReach l cl lv off)
    | .g => some (ctrlReach l cl lv off)
    | .s => none
    | .n => none
    | .p => none

/-- The access of a scalar memory instruction that has passed its checks. -/
def Scalar.access (sc : Scalar) (k : AccKind) (e : AccEvent) (dest : AccDest) : Access where
  lane := false
  kind := k
  events := [e]
  classed := false
  ordered := false
  begun := false
  stale := false
  stepped := sc.stepping
  got := []
  dest := dest
  wait := none
  units := [⟨false, sc.pc.toNat, 0⟩]
  sup := sc.sup
  backPc := sc.pc
  backLane := 0
  backLeft := 0
  beside := .none

/-- A scalar access of one event (10 R240): its checks, what poison it consumes, and its issue. -/
def State.scalarAccess (s : State) (st : StreamId) (sc : Scalar) (k : AccKind) (lv : Level) (off : DWord) (width : Nat)
    (poison : Bool) (op : EvOp) (dest : AccDest) : Res :=
  match s.agentOf st, s.launchOf st with
  | some ag, some l =>
    match s.scalarReach st l lv off width with
    | none => Res.fault s .illegal
    | some r =>
      match s.check ag k (k == .atomic) 0 r off width with
      | (s, .fault t) => .trap s t
      | (s, .stall) => .retry s
      | (s, .spot p) => if poison then .trap s ⟨.poison, k.code, off, 0⟩ else .access s (sc.access k ⟨p, op⟩ dest)
  | _, _ => Res.fault s .illegal

/-- The address of SLD and SST (10 R228), with its poison: words read at the level's width. -/
def Scalar.address (sc : Scalar) (a b : BitVec 6) (lv : Level) : DWord × Bool :=
  match lv with
  | .g => ((sc.base64 a).val + (sc.reg b).val.signExtend 64, (sc.base64 a).poison || (sc.reg b).poison)
  | .p => (((sc.reg a).val + (sc.reg b).val).setWidth 64, (sc.reg a).poison || (sc.reg b).poison)
  | .s => (((sc.reg a).val + (sc.reg b).val).setWidth 64, (sc.reg a).poison || (sc.reg b).poison)
  | .n => (((sc.reg a).val + (sc.reg b).val).setWidth 64, (sc.reg a).poison || (sc.reg b).poison)
  | .d => (((sc.reg a).val + (sc.reg b).val).setWidth 64, (sc.reg a).poison || (sc.reg b).poison)

/-! ## Lane accesses -/

/-- The checks of every governed lane in ascending order: the faults, and the spots of lanes without one. -/
def State.checkLanes (c : LaneCtx) (k : AccKind) (atom : Bool) (lv : Level) (width : Nat) (off : Nat → DWord) :
    List Nat → State → State × List (Nat × Trap) × List Spot × Bool
  | [], s => (s, [], [], false)
  | j :: js, s =>
    match s.check c.ag k atom j (c.x.reach c.l c.place.core j lv (off j) width) (off j) width with
    | (s, .fault t) =>
      let (s, fs, ps, q) := State.checkLanes c k atom lv width off js s
      (s, (j, t) :: fs, ps, q)
    | (s, .stall) =>
      let (s, fs, ps, _) := State.checkLanes c k atom lv width off js s
      (s, fs, ps, true)
    | (s, .spot p) =>
      let (s, fs, ps, q) := State.checkLanes c k atom lv width off js s
      (s, fs, p :: ps, q)

/-- The address of a lane (10 R227). -/
def LaneCtx.address (c : LaneCtx) (lv : Level) (j : Nat) : DWord :=
  match lv with
  | .g => (c.a j).val + (c.b j).lo.val.signExtend 64
  | .p => ((c.a j).lo.val + (c.b j).lo.val).setWidth 64
  | .s => ((c.a j).lo.val + (c.b j).lo.val).setWidth 64
  | .n => ((c.a j).lo.val + (c.b j).lo.val).setWidth 64
  | .d => ((c.a j).lo.val + (c.b j).lo.val).setWidth 64

/-- A lane memory instruction (10 R231, R233): the checks of every lane, and its issue. ops are the events of a lane, and consumed
tells the lanes that consume a poisoned word. While a lane's leaf is in migration the access stalls: no lane's cause is taken before
every lane's is known. -/
def State.laneAccess (s : State) (c : LaneCtx) (k : AccKind) (lv : Level) (width : Nat) (off : Nat → DWord)
    (consumed : Nat → Bool) (ops : Nat → List EvOp) (dest : AccDest) : LaneRes :=
  match State.checkLanes c k (k == .atomic) lv width off c.g s with
  | (s, fs, ps, stall) =>
    let late := (c.g.filter (fun j => consumed j && !fs.any (fun f => f.1 = j))).map
      (fun j => (j, (⟨.poison, k.code, off j, 0⟩ : Trap)))
    if stall then .retry s
    else
      match chooseTrap (fs ++ late) with
      | some t => .trap s t
      | none => .access s (c.access k (ps.flatMap (fun p => p.events (ops p.lane))) dest)

/-- The window words that the lanes' addresses need: those of operands a and b, which stand before those of c. -/
def LaneCtx.addressWords (c : LaneCtx) : Nat :=
  ((({ c.sig with c := .unused } : LaneSig).windows { c.args with c := .imm 0 }).map WinRef.words).sum

/-- The causes that the lanes' addresses show, where the window words that they need are known (03 R77 step 7, 04 R96). -/
def LaneCtx.early (k : AccKind) (lv : Level) (width : Nat) (off : LaneCtx → Nat → DWord) (c : LaneCtx) (ws : List PWord) (s : State) :
    List (Nat × Trap) × Bool :=
  if c.addressWords ≤ ws.length then
    let c := c.withWindows ws
    match State.checkLanes c k (k == .atomic) lv width (off c) c.g s with
    | (_, fs, _, stall) => (fs, stall)
  else ([], false)

/-- The registers of each lane that a load or an atomic writes. -/
def LaneCtx.regDest (c : LaneCtx) (n : Nat) (w : LdW) : AccDest :=
  match c.args.dk with
  | .reg => .lanes c.args.di.toNat n w
  | .latch => .none
  | .mask => .none
  | .none => .none

/-- The load width whose registers a value of a width takes. -/
def wdLoad (t : Wd) : LdW := if t = .w64 then .b64 else .b32

end Sys2Proof.Machine
end

