-- ==== Sys2Proof/Machine/Engines.lean ====
section
/-! DEFINITION. Engine operations and their handles (spec/13 R290–R295, R303), the copy engine (R296, R297), the gather unit
(R298, R299), the Sward engine (R301, R302), and faults resolved by leaf controllers (spec/15 R336–R338). -/

namespace Sys2Proof.Machine

/-! ## Handles (13 R292, R303) -/

/-- The operation that a handle of a team names. -/
def Team.opId (x : Team) (h : BitVec 4) : OpId := ⟨x.id, (x.sc.handle h).seq⟩

/-- The trap of an instruction that finds a stopped operation: POISON for SCAUSE 5, else ENGINE (11 R251, 13 R303). -/
def State.stoppedTrap (s : State) (x : Team) (h : BitVec 4) : Trap :=
  match s.op? (x.opId h) with
  | some o =>
    if o.cause = 5 then ⟨.poison, 0, o.addr, 0⟩ else ⟨.engine o.cls.code, o.kind.toNat, o.addr, 0⟩
  | none => ⟨.engine (x.sc.handle h).cls.code, 0, 0, 0⟩

/-- The stopped operation of a handle has SCAUSE 5. -/
def State.stoppedByPoison (s : State) (x : Team) (h : BitVec 4) : Bool := (s.op? (x.opId h)).any (fun o => o.cause = 5)

/-- A handle becomes idle and its operation is joined. -/
def State.freeHandle (s : State) (x : Team) (h : BitVec 4) : State :=
  (s.joinOp (x.opId h)).mapScalar (.team x.id) (fun sc => sc.setHandle h Handle.idle)

/-- An instruction on a handle, whose handles are always idle on a control core (13 R290, R303). -/
def handleInstr (i : Instr) (idle : StreamId → State → State) (body : Team → State → Res) (s : State) : Out :=
  scalarInstr i false (fun st _ s =>
    match st with
    | .ctrl _ => .done (idle st s)
    | .team id =>
      match s.team? id with
      | some x => body x s
      | none => .gone s) s

/-- HWAIT. -/
def execHwait (h : BitVec 4) (s : State) : Out :=
  handleInstr (.hwait h) (fun _ s => s) (fun x s =>
    match (x.sc.handle h).st with
    | .idle => .done s
    | .running => .wait s (.hwait h)
    | .complete => .done (s.freeHandle x h)
    | .cancelled => .done (s.freeHandle x h)
    | .stopped => .trap s (s.stoppedTrap x h)) s

/-- HTEST: a state of 2, 3 or 4 joins, and the handle keeps what it holds. -/
def execHtest (h : BitVec 4) (r : BitVec 6) (s : State) : Out :=
  handleInstr (.htest h r) (fun st s => s.writeReg st r (.clean 0)) (fun x s =>
    let w := PWord.clean (x.sc.handle h).word
    match (x.sc.handle h).st with
    | .idle => .done (s.writeReg (.team x.id) r w)
    | .running => .done (s.writeReg (.team x.id) r w)
    | .complete => .done ((s.joinOp (x.opId h)).writeReg (.team x.id) r w)
    | .cancelled => .done ((s.joinOp (x.opId h)).writeReg (.team x.id) r w)
    | .stopped =>
      if s.stoppedByPoison x h then .trap s (s.stoppedTrap x h)
      else .done ((s.joinKept (x.opId h)).writeReg (.team x.id) r w)) s

/-- HCANCEL: a running operation stops at its next boundary; a stopped one is discarded without a join. -/
def execHcancel (h : BitVec 4) (s : State) : Out :=
  handleInstr (.hcancel h) (fun _ s => s) (fun x s =>
    match (x.sc.handle h).st with
    | .idle => .done s
    | .complete => .done s
    | .cancelled => .done s
    | .running => .done (s.mapOp (x.opId h) (fun o => { o with cancel := true }))
    | .stopped =>
      if s.stoppedByPoison x h then .trap s (s.stoppedTrap x h)
      else .done (s.freeHandle x h)) s

/-! ## Engine commands (13 R291, R292) -/

/-- The storage of the neighbourhood or core that a team's offsets name at issue; the descriptor's levels choose from it
(R296). -/
def Team.homeStorage (x : Team) (l : Launch) (core : Nat) : Storage :=
  if l.nb then .window ((List.range (l.rows * l.cols)).map (windowCore core x.pos l.cols)) else .scratch core

/-- A fresh operation (R290, R292). DEDUCED: notes/assumptions/41. -/
def Team.newOp (x : Team) (l : Launch) (core : Nat) (h : BitVec 4) (cls : EngClass) (desc : DWord)
    (count : Option (BitVec 3)) : EngineOp where
  id := ⟨x.id, x.seq + 1⟩
  handle := h
  cls := cls
  gid := x.gid
  launch := x.launch
  die := core / 36
  core := core
  src := x.homeStorage l core
  dst := x.homeStorage l core
  pc := x.sc.pc
  desc := desc
  pgpool := x.sc.pgpool
  sup := x.sc.sup
  count := count
  body := none
  prog := 0
  st := .running
  cause := 0
  addr := 0
  kind := 0
  fault := false
  cancel := false
  tile := none
  appendWait := false
  joined := false
  phases := []
  stalled := none
  ending := none
  pos := x.pos
  arr := none
  held := []
  stale := false

/-- The fork: the operation starts and the handle names it (R292 step 4). -/
def State.fork (s : State) (x : Team) (o : EngineOp) : State :=
  let s := { s with ops := s.ops ++ [o] }
  let s := s.mapTeam x.id (fun t =>
    { t with seq := o.id.seq, sc := t.sc.setHandle o.handle ⟨.running, o.cls, o.id.seq⟩ })
  ((s.beginTrace x).trace x.id 3 o.pc.toNat o.id.seq.toNat).countFor (.team x.id) 0x04 1

/-- The alignment of a descriptor (R291). -/
def EngClass.align : EngClass → Nat
  | .xcopy => 128
  | .xfill => 128
  | .xgath => 64
  | .swbuild => 64

/-- An engine command: its issue checks, the operation that its handle still names, and the fork (R292). DEDUCED: notes/assumptions/40. -/
def forkInstr (i : Instr) (cls : EngClass) (h : BitVec 4) (a : BitVec 6) (count : Option (BitVec 3))
    (role : Team → State → Bool) (s : State) : Out :=
  teamInstr i false (fun x s =>
    match s.launch? x.launch, x.place with
    | some l, some p =>
      let d := x.sc.pair a
      let h0 := x.sc.handle h
      if count.any (fun n => !l.barUsed.getLsbD n.toNat) then Res.fault s .illegal
      else if !role x s then Res.fault s .role
      else if d.val.toNat % cls.align ≠ 0 then .trap s ⟨.align true, 0, d.val, 0⟩
      else if d.poison then .trap s ⟨.poison, 0, d.val, 0⟩
      else
        let go := fun (s : State) => Res.done (s.fork x { x.newOp l p.core h cls d.val count with arr := s.arrayOf x })
        match h0.st with
        | .idle => go s
        | .running => .wait s (.command h)
        | .complete => go (s.joinOp (x.opId h))
        | .cancelled => go (s.joinOp (x.opId h))
        | .stopped =>
          if (s.op? (x.opId h)).all (·.joined) then go (s.joinOp (x.opId h))
          else .trap s (s.stoppedTrap x h)
    | _, _ => Res.fault s .illegal) s

/-- XCOPY (R291, R296). -/
def execXcopy (h : BitVec 4) (a : BitVec 6) (c : BitVec 1) (n : BitVec 3) (s : State) : Out :=
  forkInstr (.xcopy h a c n) .xcopy h a (if c = 1 then some n else none) (fun _ _ => true) s

/-- XFILL (R291, R296). -/
def execXfill (h : BitVec 4) (a : BitVec 6) (c : BitVec 1) (n : BitVec 3) (s : State) : Out :=
  forkInstr (.xfill h a c n) .xfill h a (if c = 1 then some n else none) (fun _ _ => true) s

/-- XGATH: FEED teams on an array core of a live group (R292). -/
def execXgath (h : BitVec 4) (a : BitVec 6) (s : State) : Out :=
  forkInstr (.xgath h a) .xgath h a none (fun x s => x.role == .feed && (s.arrayOf x).isSome) s

/-- SWBUILD: FEED teams (R292). -/
def execSwbuild (h : BitVec 4) (a : BitVec 6) (s : State) : Out :=
  forkInstr (.swbuild h a) .swbuild h a none (fun x _ => x.role == .feed) s

/-- HWAIT_RETURN: a blocked HWAIT or engine command finds its operation ended and goes on or traps (13 R292, R303). -/
def execHwaitReturn (t : TeamId) (s : State) : Out :=
  match s.team? t with
  | none => .next s
  | some x =>
    let ended := fun (h : BitVec 4) => (x.sc.handle h).st != .running && !s.stopping (.team t)
    match x.sc.wait, s.scalarInstrAt (.team t) with
    | some (.hwait h), some (.hwait h') =>
      if ended h then execHwait h' (s.retrying (.team t)) else .next s
    | some (.command h), some (.xcopy h' a c n) =>
      if ended h then execXcopy h' a c n (s.retrying (.team t)) else .next s
    | some (.command h), some (.xfill h' a c n) =>
      if ended h then execXfill h' a c n (s.retrying (.team t)) else .next s
    | some (.command h), some (.xgath h' a) =>
      if ended h then execXgath h' a (s.retrying (.team t)) else .next s
    | some (.command h), some (.swbuild h' a) =>
      if ended h then execSwbuild h' a (s.retrying (.team t)) else .next s
    | _, _ => .next s

/-! ## Accesses of an operation -/

/-- Why an access of an operation does not go through: a stop, a fault that its leaf controller is asked to resolve, or
another agent's turn. -/
inductive EngStop
  | stop (cause : Nat) (addr : DWord) (kind : BitVec 2)
  | fault (cause : Nat) (addr : DWord) (kind : BitVec 2)
  | stall (gang : Option GangId) (held : List (Bool × Spot))

/-- A stall with all that its unit of work was checked against. -/
def EngStop.withHeld (held : List (Bool × Spot)) : EngStop → EngStop
  | .stall g _ => .stall g held
  | .stop c a k => .stop c a k
  | .fault c a k => .fault c a k

/-- What a part of an operation comes to. -/
abbrev EngRes (α : Type) := State × Except EngStop α

/-- The access kind as TDETAIL.ACC has it. -/
def kindBits (write : Bool) : BitVec 2 := if write then 1 else 0

/-- Where an element goes (R296, R297): alignment, range, translation and permission. -/
def State.engineSpot (s : State) (o : EngineOp) (l : Launch) (st : Storage) (a : DWord) (size : Nat) (write : Bool) :
    EngRes Spot :=
  let k := kindBits write
  let bounds := fun (ok : Bool) (loc : Loc) =>
    if ok then ((s, .ok ⟨0, none, none, loc, .l1⟩) : EngRes Spot) else (s, .error (.stop 3 a k))
  if a.toNat % size ≠ 0 then (s, .error (.stop 4 a k))
  else
    match st with
    | .scratch c => bounds (a.toNat < l.spBytes) (.scratch c a.toNat)
    | .window cs =>
      bounds (a.toNat < cs.length * l.spBytes) (.scratch (cs.getD (a.toNat / l.spBytes) 0) (a.toNat % l.spBytes))
    | .dscratch d => bounds (a.toNat < l.dscrBytes) (.dscratch l.id d a.toNat)
    | .global =>
      match s.opXlate o a write with
      | (s, .page _) => (s, .error (.fault 1 a k))
      | (s, .stall) => (s, .error (.stall none []))
      | (s, .ok e pa) =>
        if e.permits (if write then .write else .read) o.sup then (s, .ok ⟨0, some a, some e, .mem pa, .l1⟩)
        else (s, .error (.fault 2 a k))

/-- Spots made ready for one kind of access. -/
def State.engineReady (s : State) (o : EngineOp) (write : Bool) (ps : List Spot) : EngRes Unit :=
  let op : EvOp := if write then .write [] else .read 0
  match State.readyAll o.agent false (ps.map (fun p => ⟨p, op⟩)) s false with
  | .go s _ => (s, .ok ())
  | .block s (.version g _) => (s, .error (.stall (some g) (ps.map (fun p => (write, p)))))
  | .block s _ => (s, .error (.stall none (ps.map (fun p => (write, p)))))
  | .retry s => (s, .error (.stall none (ps.map (fun p => (write, p)))))

/-- One word read by an operation from global memory (R299, R302). -/
def State.engineWord (s : State) (o : EngineOp) (l : Launch) (a : DWord) (size : Nat) : EngRes PWord :=
  match s.engineSpot o l .global a size false with
  | (s, .error e) => (s, .error e)
  | (s, .ok p) =>
    match s.engineReady o false [p] with
    | (s, .error e) => (s, .error e)
    | (s, .ok ()) => ((s.releaseHost [p]), .ok ((s.readWords p.loc size).getD 0 .zero))

/-- Consecutive words read in order. -/
def State.engineWords (o : EngineOp) (l : Launch) (size : Nat) : List DWord → State → EngRes (List PWord)
  | [], s => (s, .ok [])
  | a :: as, s =>
    match s.engineWord o l a size with
    | (s, .error e) => (s, .error e)
    | (s, .ok w) =>
      match State.engineWords o l size as s with
      | (s, .error e) => (s, .error e)
      | (s, .ok ws) => (s, .ok (w :: ws))

/-- The state after a part of an operation did not go through (R294, R295). -/
def State.engineStop (s : State) (o : EngineOp) : EngStop → State
  | .stop c a k => s.endOp { o with addr := a, kind := k } .stopped c
  | .fault c a k => s.mapOp o.id (fun _ => { o.freed with fault := true, cause := c, addr := a, kind := k })
  | .stall g held => s.mapOp o.id (fun _ => (o.stall g s.clock).hold held)

/-! ## Descriptors (R296, R298, R301) -/

def EngClass.size : EngClass → Nat
  | .xcopy => 128
  | .xfill => 128
  | .xgath => 64
  | .swbuild => 64

/-- The n-byte field at an offset of a descriptor's words. -/
def descField (ws : List PWord) (off n : Nat) : Nat :=
  natOfBytes (((ws.flatMap (fun w => natBytes 4 w.val.toNat)).drop off).take n)

def levelOfCode (c : Nat) : Option Level :=
  match c with
  | 1 => some .s
  | 2 => some .n
  | 3 => some .d
  | 4 => some .g
  | _ => none

/-- A copy or fill descriptor as its fields say; nothing on a DESCRIPTOR fault (R296). -/
def copyDesc (fill : Bool) (ws : List PWord) : Option Desc :=
  let cfg := descField ws 0x10 4
  let code := natBits cfg 0 3
  let ndim := natBits cfg 3 3
  let ext := (List.range ndim).map (fun d => descField ws (0x18 + 4 * d) 4)
  let strides := fun (base : Nat) => (List.range 4).map (fun d => BitVec.ofNat 64 (descField ws (base + 8 * d) 8))
  let reserved := natBits cfg 12 20 + descField ws 0x14 4 + descField ws 0x2C 4 + descField ws 0x74 4
  if reserved ≠ 0 ∨ 4 < code ∨ (fill ∧ code = 4) ∨ ndim = 0 ∨ 5 < ndim ∨ ext.any (· == 0) then none
  else
    match levelOfCode (natBits cfg 9 3), (if fill then some .g else levelOfCode (natBits cfg 6 3)) with
    | some dl, some sl =>
      some (.copy fill (BitVec.ofNat 64 (descField ws 0 8)) (BitVec.ofNat 64 (descField ws 8 8)) (2 ^ code) ndim ext
        (strides 0x30) (strides 0x50) sl dl)
    | _, _ => none

/-- A gather descriptor (R298). DEDUCED: notes/assumptions/39. -/
def gathDesc (ws : List PWord) : Option Desc :=
  let cfg := descField ws 0x18 4
  let b0 := natBits cfg 8 2
  let nb := natBits cfg 10 2 + 1
  if natBits cfg 6 2 + natBits cfg 12 20 + descField ws 0x24 4 + descField ws 0x28 8 + descField ws 0x34 4 ≠ 0 ∨ 4 < b0 + nb then none
  else
    some (.gath (BitVec.ofNat 64 (descField ws 0 8)) (BitVec.ofNat 64 (descField ws 8 8)) (BitVec.ofNat 64 (descField ws 0x10 8))
      (natBits cfg 0 6 + 1) b0 nb (descField ws 0x1C 4) (descField ws 0x20 4))

/-- A Sward descriptor (R301); slabs are first row and rows by die. DEDUCED: notes/assumptions/42. -/
def swardDesc (nbin : Nat) (ws : List PWord) : Option Desc :=
  let nx := descField ws 0x10 2
  let ny := descField ws 0x12 2
  let cfg := descField ws 0x14 4
  let slabs := (List.range 6).map (fun d => (descField ws (0x20 + 4 * d) 2, descField ws (0x22 + 4 * d) 2))
  let hbase := descField ws 8 8
  if nx = 0 ∨ ny = 0 ∨ natBits cfg 8 24 ≠ 0 ∨ nbin ≤ natBits cfg 2 6 ∨ 2 ^ 48 ≤ hbase
      ∨ slabs.any (fun b => b.2 != 0 && ny < b.1 + b.2) then none
  else
    some (.sward (BitVec.ofNat 64 (descField ws 0 8)) (BitVec.ofNat 64 hbase) nx ny (natBits cfg 0 2) (natBits cfg 2 6)
      (BitVec.ofNat 32 (descField ws 0x18 4)) (BitVec.ofNat 32 (descField ws 0x1C 4)) slabs)

def EngClass.parse (c : EngClass) (l : Launch) (ws : List PWord) : Option Desc :=
  match c with
  | .xcopy => copyDesc false ws
  | .xfill => copyDesc true ws
  | .xgath => gathDesc ws
  | .swbuild => swardDesc l.bins.length ws

/-- The scratchpad, the window and the die scratchpad that a storage names; that of a position of a window. -/
def Storage.scratchAt (pos : Nat) : Storage → Option Storage
  | .scratch c => some (.scratch c)
  | .window cs => cs[pos]?.map .scratch
  | .dscratch _ => none
  | .global => none

def Storage.windowOf : Storage → Option Storage
  | .window cs => some (.window cs)
  | .scratch _ => none
  | .dscratch _ => none
  | .global => none

def Storage.dieOf : Storage → Option Storage
  | .dscratch d => some (.dscratch d)
  | .window _ => none
  | .scratch _ => none
  | .global => none

/-- The storage that a level names for an operation (R296), from that which its source and destination keep: the issuer's before the
descriptor is read, and the named one of each after, wherever its contents stand by then. -/
def EngineOp.storageAt (o : EngineOp) (lv : Level) : Storage :=
  match lv with
  | .s => ((o.dst.scratchAt o.pos).or (o.src.scratchAt o.pos)).getD (.scratch o.core)
  | .n => (o.dst.windowOf.or o.src.windowOf).getD (.window [])
  | .d => (o.dst.dieOf.or o.src.dieOf).getD (.dscratch o.die)
  | .g => .global
  | .p => .global

/-- An operation with its checked descriptor, beginning at PROG (R294). -/
def EngineOp.described (o : EngineOp) (ws : List PWord) (d : Desc) : EngineOp :=
  let (_, at', n) := o.cls.statusArea
  let o := { o.freed with body := some d, prog := Nat.max o.prog (descField ws at' n) }
  match d with
  | .copy _ _ _ _ _ _ _ _ sl dl => { o with src := o.storageAt sl, dst := o.storageAt dl }
  | .gath _ _ _ _ _ _ _ _ => { o with src := .global, dst := .global }
  | .sward _ _ _ _ _ _ _ _ _ => { o with src := .global, dst := .global }

/-- The units of work of a whole operation: elements, tiles, tile indices of the die's slab. -/
def EngineOp.total (o : EngineOp) : Nat :=
  match o.body with
  | some (.sward _ _ nx _ _ _ _ _ slabs) => nx * (slabs.getD o.die (0, 0)).2
  | some (.copy f s d e n ext ss ds sl dl) => (Desc.copy f s d e n ext ss ds sl dl).elements
  | some (.gath _ _ _ tiles _ _ _ _) => tiles
  | none => 0

/-- The operation ends when nothing is left to do. -/
def State.endIfDone (s : State) (o : EngineOp) : State :=
  if o.total ≤ o.prog then s.endOp o .complete 0 else s.mapOp o.id (fun _ => o)

/-- The bin's last Sward build is remembered for Ballast (R305). -/
def State.noteBuild (s : State) (o : EngineOp) : State :=
  match o.body with
  | some (.sward _ _ _ _ _ bin _ _ _) => s.mapLaunch o.launch (fun l => l.mapBin bin (fun b => { b with lastBuild := some o.desc }))
  | _ => s

/-- The first events of an operation read its descriptor (R292, R294). -/
def State.readDesc (s : State) (o : EngineOp) (l : Launch) : State :=
  let addrs := (List.range (o.cls.size / 4)).map (fun i => o.desc + BitVec.ofNat 64 (4 * i))
  match State.engineWords o l 4 addrs s with
  | (s, .error e) => s.engineStop o e
  | (s, .ok ws) =>
    match ws.findIdx? (·.poison) with
    | some i => s.endOp { o with addr := o.desc + BitVec.ofNat 64 (4 * i), kind := 0 } .stopped 5
    | none =>
      match o.cls.parse l ws with
      | none => s.endOp o .stopped 6
      | some d =>
        let o := o.described ws d
        (s.noteBuild o).endIfDone o

/-! ## The frame of a unit of work -/

/-- An operation is inside a unit of its work: its final write, or the append of a tile index of a Sward operation, has still to perform. A
Drogue freeze withdraws a stalled access (16 R358). -/
def EngineOp.midTile (drogue : Bool) (o : EngineOp) : Bool :=
  (o.ending.isSome && !drogue) || (o.cls == .swbuild && (o.appendWait || (o.stalled.isSome && !drogue)))

/-- An operation takes its next turn: the final write that it waits for, of a failed launch too; a cancel, which ends it at this boundary
(R295, R303; 14 R320); the reading of its descriptor; its end, when nothing is left of its work; or its work. It does nothing while it waits
for its leaf controller. -/
def State.engineStep (s : State) (x : EngineOp) (work : EngineOp → Launch → State → State) : State :=
  match x.ending with
  | some (st, cause) => s.endOp x st cause
  | none =>
    if x.cancel then s.endOp { x with fault := false } .cancelled 8
    else if x.fault then s
    else
      match s.launch? x.launch with
      | none => s
      | some l => if x.body.isNone then s.readDesc x l else if x.total ≤ x.prog then s.endIfDone x else work x l s

/-- A pre-emption waits for the operation to finish the unit that it is inside, or to end as it was cancelled (14 R320). -/
def State.owed (s : State) (o : EngineOp) : Bool :=
  s.collections.any (fun c => c.units.contains (.op o.id)) && (o.midTile false || o.cancel)

/-- The turn of an operation of a class: nothing while it is stopped by pre-emption, which lets it finish the unit that it is inside and
lets a cancelled one end (13 R303; 14 R320). -/
def engineTurn (cls : EngClass → Bool) (o : OpId) (work : EngineOp → Launch → State → State) (s : State) : Out :=
  match s.op? o with
  | none => .next s
  | some x =>
    let goes := s.opGoes x || s.owed x || (x.ending.isSome && (s.launch? x.launch).all (fun l => l.lstate != .running))
    if !cls x.cls || x.st != .running || (s.stopping (.op o) && !x.midTile false && !x.cancel) || !goes then .next s
    else .next (s.engineStep x work)

/-! ## The copy engine (R297) -/

/-- The coordinates of an element: its index in each dimension, the first running fastest. -/
def coordsOf : List Nat → Nat → List Nat
  | [], _ => []
  | e :: es, i => i % e :: coordsOf es (i / e)

/-- The address of an element. -/
def elementAddr (base : DWord) (esize : Nat) (strides : List DWord) (ext : List Nat) (i : Nat) : DWord :=
  match coordsOf ext i with
  | [] => base
  | c :: cs =>
    (cs.zip strides).foldl (fun a p => a + BitVec.ofNat 64 p.1 * p.2) (base + BitVec.ofNat 64 (c * esize))

/-- The elements of the line-run at an index: those that follow in traversal order with all destination bytes in one line. -/
def runFrom (dst : Nat → DWord) (esize line : Nat) : Nat → Nat → List Nat
  | 0, _ => []
  | n + 1, i =>
    let a := (dst i).toNat
    if a / 128 = line ∧ (a + esize - 1) / 128 = line then i :: runFrom dst esize line n (i + 1) else []

/-- The spots of a run's elements, source and destination. -/
def State.runSpots (o : EngineOp) (l : Launch) (esize : Nat) (src : Option (Nat → DWord)) (dst : Nat → DWord) :
    List Nat → State → EngRes (List (Option Spot × Spot))
  | [], s => (s, .ok [])
  | i :: is, s =>
    let first : EngRes (Option Spot) := match src with
      | none => (s, .ok none)
      | some f =>
        match s.engineSpot o l o.src (f i) esize false with
        | (s, .ok p) => (s, .ok (some p))
        | (s, .error e) => (s, .error e)
    match first with
    | (s, .error e) => (s, .error e)
    | (s, .ok a) =>
      match s.engineSpot o l o.dst (dst i) esize true with
      | (s, .error e) => (s, .error e)
      | (s, .ok b) =>
        match State.runSpots o l esize src dst is s with
        | (s, .error e) => (s, .error e)
        | (s, .ok ps) => (s, .ok ((a, b) :: ps))

/-- The bytes of an element with the poison of the words they lie in. -/
def State.elementBytes (s : State) (p : Spot) (esize : Nat) : List (Byte × Bool) :=
  let err := s.hostErr p.loc
  (List.range esize).map (fun k => ((s.locBytes (p.loc.add k) 1).getD 0 0, err || s.locPoison (p.loc.add k) 1))

/-- Offset of a location in its line, and the line's start. -/
def Loc.lineOffset : Loc → Nat
  | .mem pa => pa % 128
  | .scratch _ o => o % 128
  | .dscratch _ _ o => o % 128

def Loc.lineStart (l : Loc) : Loc := l.tagLoc.base

/-- The write event of a line-run: bytes at offsets of one line, a word written whole taking the poison of its data
(11 R249). -/
def State.lineWrite (s : State) (l : Loc) (cells : SMap (Byte × Bool)) : State :=
  (List.range 32).foldl (fun s w =>
    let own := cells.filter (fun c => c.1 / 4 = w)
    let q := own.any (fun c => c.2.2)
    if own.length = 4 then s.locWrite (l.add (4 * w)) (own.map (fun c => c.2.1)) q
    else own.foldl (fun s c => s.locWrite (l.add c.1) [c.2.1] c.2.2) s) s

/-- The line's write event with the marks and the error log that go with a write (15 R339, 10 R243). -/
def State.runWrite (s : State) (o : EngineOp) (p : Spot) (cells : SMap (Byte × Bool)) : State :=
  let s := match p.va with
    | some va => s.markDirty o.agent va p.tr
    | none => s
  if s.hostErr p.loc then
    match p.loc with
    | .mem pa => { s with errlog := s.errlog ++ [.hostWrite pa] }
    | .scratch _ _ => s
    | .dscratch _ _ _ => s
  else s.lineWrite p.loc.lineStart cells

/-- The bytes of a run in traversal order: a later write to a byte is left. -/
def runCells (ps : List (Nat × List (Byte × Bool))) : SMap (Byte × Bool) :=
  ps.foldl (fun m p =>
    ((List.range p.2.length).zip p.2).foldl (fun m (k, b) =>
      (m.filter (fun c => c.1 < p.1 + k)) ++ [(p.1 + k, b)] ++ (m.filter (fun c => p.1 + k < c.1))) m) []

/-- One line-run of a copy or a fill (R297). -/
def copyRun (o : EngineOp) (l : Launch) (s : State) : State :=
  match o.body with
  | some (.copy fill src dst esize _ ext sstr dstr _ _) =>
    let dest := elementAddr dst esize dstr ext
    let from' : Option (Nat → DWord) := if fill then none else some (elementAddr src esize sstr ext)
    let run := runFrom dest esize ((dest o.prog).toNat / 128) (o.total - o.prog) o.prog
    let run := if run.isEmpty then [o.prog] else run
    match State.runSpots o l esize from' dest run s with
    | (s, .error e) => s.engineStop o e
    | (s, .ok ps) =>
      let reads := ps.filterMap (·.1)
      let lines := reads.foldl (fun acc p => if acc.any (fun q => q.loc.tagLoc = p.loc.tagLoc) then acc else acc ++ [p]) []
      let held := reads.map (fun p => (false, p)) ++ ps.map (fun p => (true, p.2))
      match s.engineReady o false lines with
      | (s, .error e) => s.engineStop o (e.withHeld held)
      | (s, .ok ()) =>
        match s.engineReady o true ((ps.map (·.2)).take 1) with
        | (s, .error e) => s.engineStop o (e.withHeld held)
        | (s, .ok ()) =>
          let pattern := (natBytes esize src.toNat).map (fun b => (b, false))
          let cells := runCells (ps.map (fun p =>
            (p.2.loc.lineOffset, match p.1 with
              | some q => s.elementBytes q esize
              | none => pattern)))
          match ps.head? with
          | none => s
          | some p =>
            let s := (s.runWrite o p.2 cells).releaseHost (lines ++ [p.2])
            let o := { o.freed with prog := o.prog + ps.length }
            (s.reportBytes o (ps.length * esize) false).endIfDone o
  | _ => s

/-- COPY_LINE_RUN. -/
def execCopyLineRun (o : OpId) (s : State) : Out := engineTurn (fun c => c == .xcopy || c == .xfill) o copyRun s

/-! ## The gather unit (R299) -/

/-- A half of a tile's word, by 2·word + half. -/
abbrev TileHalves := List (Nat × PWord)

/-- The entries of one row of the tile, from entry e on. -/
def State.gatherRow (o : EngineOp) (l : Launch) (colidx vals : DWord) (n0 i : Nat) :
    Nat → Nat → TileHalves → State → EngRes TileHalves
  | 0, _, t, s => (s, .ok t)
  | n + 1, e, t, s =>
    let ca := colidx + BitVec.ofNat 64 (4 * e)
    match s.engineWord o l ca 4 with
    | (s, .error x) => (s, .error x)
    | (s, .ok c) =>
      if c.poison then (s, .error (.stop 5 ca 0))
      else if n0 ≤ c.val.toNat ∧ c.val.toNat < n0 + 128 then
        match s.engineWord o l (vals + BitVec.ofNat 64 (2 * e)) 2 with
        | (s, .error x) => (s, .error x)
        | (s, .ok v) =>
          let key := 2 * (16 * (c.val.toNat - n0) + i / 2) + i % 2
          State.gatherRow o l colidx vals n0 i n (e + 1) (t.filter (fun x => x.1 ≠ key) ++ [(key, v)]) s
      else State.gatherRow o l colidx vals n0 i n (e + 1) t s

/-- The rows of a tile from row i on. -/
def State.gatherRows (o : EngineOp) (l : Launch) (rowptr colidx vals : DWord) (kb n0 : Nat) :
    Nat → Nat → TileHalves → State → EngRes TileHalves
  | 0, _, t, s => (s, .ok t)
  | n + 1, i, t, s =>
    let pa := rowptr + BitVec.ofNat 64 (4 * (32 * kb + i))
    match State.engineWords o l 4 [pa, pa + 4] s with
    | (s, .error x) => (s, .error x)
    | (s, .ok ws) =>
      match ws with
      | [a, b] =>
        if a.poison then (s, .error (.stop 5 pa 0))
        else if b.poison then (s, .error (.stop 5 (pa + 4) 0))
        else
          match State.gatherRow o l colidx vals n0 i (b.val.toNat - a.val.toNat) a.val.toNat t s with
          | (s, .error x) => (s, .error x)
          | (s, .ok t) => State.gatherRows o l rowptr colidx vals kb n0 n (i + 1) t s
      | _ => (s, .ok t)

/-- The data words of a B bank that a tile's halves make; a poisoned value poisons its word. -/
def tileWords (t : TileHalves) : SMap PWord :=
  (List.range 2048).filterMap (fun w =>
    let half := fun (h : Nat) => ((t.find? (fun x => x.1 = 2 * w + h)).map (·.2)).getD PWord.zero
    let x : PWord := ⟨(half 1).val.setWidth 16 ++ (half 0).val.setWidth 16, (half 0).poison || (half 1).poison⟩
    if x = PWord.zero then none else some (w, x))

/-- GATHER_TILE: the tile at PROG assembled. -/
def execGatherTile (o : OpId) (s : State) : Out :=
  engineTurn (· == .xgath) o (fun o l s =>
    match o.body, o.tile with
    | some (.gath rowptr colidx vals _ _ _ kb0 n0), none =>
      match State.gatherRows o l rowptr colidx vals (kb0 + o.prog) n0 32 0 [] s with
      | (s, .error e) => s.engineStop o e
      | (s, .ok t) => s.mapOp o.id (fun _ => { o.freed with tile := some (tileWords t) })
    | _, _ => s) s

/-- The array core on which an operation was issued: where its team is resident, or, when that has retired, where its group's array of that
index is by now (R299). -/
def State.opArray (s : State) (o : EngineOp) : Option (Nat × Nat) :=
  match s.team? o.id.team with
  | some x => s.arrayOf x
  | none => o.arr.filter (fun k => (s.group? k.1).any (fun g => g.launch = o.launch && g.placed && k.2 < g.arrays.length))

/-- A B bank with its data words replaced and published (R299, 08 R187, R193). -/
def Bank.gathered (k : Bank) (t : SMap PWord) : Bank :=
  ({ k with words := t ++ k.words.filter (fun (w : Nat × PWord) => 2048 ≤ w.1) } : Bank).publish true

/-- A tile that has been read goes to its bank, when that is EMPTY, and is published. -/
def State.writeTile (s : State) (o : EngineOp) : State :=
  match o.body, o.tile, s.opArray o with
  | some (.gath _ _ _ _ b0 nb _ _), some t, some (cl, ix) =>
    let b := BitVec.ofNat 2 (b0 + o.prog % nb)
    match s.arrayAt (cl, ix) with
    | some a =>
      if (a.bank true b).full then s
      else
        let s := s.mapArrayAt cl ix (fun a => a.setBank true b ((a.bank true b).gathered t))
        s.endIfDone { o with prog := o.prog + 1, tile := none }
    | none => s
  | _, _, _ => s

/-- GATHER_WRITE. -/
def execGatherWrite (o : OpId) (s : State) : Out := engineTurn (· == .xgath) o (fun o _ s => s.writeTile o) s

/-! ## The Sward engine (R302) -/

/-- Tile (x, y) is marked, by the bitmap words of the row. -/
def markedIn (words : SMap PWord) (nx x y : Nat) : Bool :=
  let i := y * nx + x
  (smGet PWord.zero words (i / 32)).val.getLsbD (i % 32)

/-- Rows or columns within r of a place, clipped to the grid. -/
def within (r n at' : Nat) : List Nat := (List.range n).filter (fun i => at' ≤ i + r && i ≤ at' + r)

/-- The bitmap words that hold the tiles of a row's neighbours. -/
def rowWords (nx ny r y : Nat) : List Nat :=
  let rows := within r ny y
  match rows.head?, rows.getLast? with
  | some a, some b => (List.range ((b * nx + nx - 1) / 32 + 1)).filter (fun w => a * nx / 32 ≤ w)
  | _, _ => []

/-- The record of a tile (R302). -/
def swardRecord (hbase : DWord) (tstride user : Word) (nx x y : Nat) (self : Bool) (tag : Option GangId) : Rec :=
  let i := y * nx + x
  ⟨BitVec.ofNat 32 (x + 65536 * y), BitVec.ofNat 32 i,
    BitVec.ofNat 32 (natBits (hbase.toNat + i * tstride.toNat) 16 32),
    (user &&& 0xFFFFFFFE) ||| Word.ofBool self, tag⟩

/-- The words of a row read at its start, or kept from it. -/
def State.swardRow (s : State) (o : EngineOp) (l : Launch) (bmap : DWord) (ns : List Nat) : EngRes (SMap PWord) :=
  match o.tile with
  | some m => (s, .ok m)
  | none =>
    let addr := fun (w : Nat) => bmap + BitVec.ofNat 64 (4 * w)
    match State.engineWords o l 4 (ns.map addr) s with
    | (s, .error e) => (s, .error e)
    | (s, .ok ws) =>
      match (ns.zip ws).find? (fun p => p.2.poison) with
      | some p => (s, .error (.stop 5 (addr p.1) 0))
      | none => (s, .ok (ns.zip ws))

/-- The step to the next tile index; the row's words go at its end. -/
def EngineOp.nextTile (o : EngineOp) (nx : Nat) (m : SMap PWord) : EngineOp :=
  { o with prog := o.prog + 1, tile := if (o.prog + 1) % nx = 0 then none else some m, appendWait := false, stalled := none, held := [], stale := false }

/-- One tile index of a build: the row's words are read at its first tile, and a marked neighbour makes a record. -/
def swardStep (o : EngineOp) (l : Launch) (s : State) : State :=
  match o.body with
  | some (.sward bmap hbase nx ny r bin tstride user slabs) =>
    let y := (slabs.getD o.die (0, 0)).1 + o.prog / nx
    let x := o.prog % nx
    match s.swardRow o l bmap (rowWords nx ny r y) with
    | (s, .error e) => s.engineStop o e
    | (s, .ok m) =>
      if !(within r ny y).any (fun v => (within r nx x).any (fun u => markedIn m nx u v)) then s.endIfDone (o.nextTile nx m)
      else
        match l.bin? bin with
        | none => s.endOp o .stopped 6
        | some b =>
          if b.closed then
            match s.meetTag o.agentGang b.closeTag with
            | .error g => s.engineStop { o with tile := some m } (.stall (some g) [])
            | .ok s => s.endOp o .stopped 7
          else if s.storeFull o.die then s.mapOp o.id (fun _ => { o with tile := some m, appendWait := true })
          else
            let rec' := swardRecord hbase tstride user nx x y (markedIn m nx x y) (s.tagOf o.agentGang)
            (s.appendRec o.launch bin o.die rec').endIfDone (o.nextTile nx m)
  | _ => s

/-- SWARD_TILE: one tile index; an operation that waits for room in the bin store does nothing. -/
def execSwardTile (o : OpId) (s : State) : Out :=
  engineTurn (· == .swbuild) o (fun o l s => if o.appendWait then s else swardStep o l s) s

/-- SPAWN_APPEND: room has been freed in a full bin store, and a waiting append performs (R283). -/
def execSpawnAppend (w : AppendWaiter) (s : State) : Out :=
  match w with
  | .team t =>
    match s.team? t with
    | none => .next s
    | some x =>
      if x.sc.wait = some .spawn && !s.storeFull x.die && !s.stopping (.team t) then
        match s.scalarInstrAt (.team t) with
        | some (.spawn d a) => execSpawn d a (s.retrying (.team t))
        | _ => .next s
      else .next s
  | .op o => engineTurn (· == .swbuild) o (fun o l s => if o.appendWait && !s.storeFull o.die then swardStep o l s else s) s

/-! ## Faults resolved by a leaf controller (15 R336–R338) -/

/-- An operation's leaf controller as an agent: supervisor; its accesses are the operation's (11 R253). -/
def EngineOp.leafAgent (o : EngineOp) : Agent := { o.agent with sup := true }

/-- Why an access of a leaf controller does not go through: it faults, or it waits, for a gang's commit or for another agent. -/
inductive LeafStop
  | failed
  | waits (g : Option GangId)
  deriving DecidableEq, Repr

abbrev LeafRes (α : Type) := State × Except LeafStop α

/-- The check of a leaf controller's access, and all that it does or waits for before its event: it is an ordinary access (15 R337). -/
def State.leafSpot (s : State) (ag : Agent) (k : AccKind) (va : DWord) : LeafRes Spot :=
  match s.translate ag va with
  | (s, .page _) => (s, .error .failed)
  | (s, .stall) => (s, .error (.waits none))
  | (s, .ok e pa) =>
    let p : Spot := ⟨0, some va, some e, .mem pa, .l1⟩
    if !e.permits k true then (s, .error .failed)
    else
      match s.ready ag false (k == .write) (k == .write) p with
      | .go s _ => (s, .ok p)
      | .block s (.version g _) => (s, .error (.waits (some g)))
      | .block s _ => (s, .error (.waits none))
      | .retry s => (s, .error (.waits none))

/-- A leaf controller's read of n bytes, and its write, at a virtual address. -/
def State.leafRead (s : State) (ag : Agent) (va : DWord) (n : Nat) : LeafRes Nat :=
  match s.leafSpot ag .read va with
  | (s, .error e) => (s, .error e)
  | (s, .ok p) =>
    if s.hostErr p.loc || s.locPoison p.loc n then (s.releaseHost [p], .error .failed)
    else (s.releaseHost [p], .ok (natOfBytes (s.locBytes p.loc n)))

def State.leafWrite (s : State) (ag : Agent) (va : DWord) (bs : List Byte) : LeafRes Unit :=
  match s.leafSpot ag .write va with
  | (s, .error e) => (s, .error e)
  | (s, .ok p) => ((s.writeEvent ag p bs false).releaseHost [p], .ok ())

/-- The fields of a first-touch pool: COUNT, TAKE, FTBASE, FTLEN, FTPTE, PTEBITS (15 R336). -/
def State.readPool (s : State) (ag : Agent) (pool : DWord) : LeafRes (List Nat) :=
  [(0x00, 4), (0x04, 4), (0x08, 8), (0x10, 4), (0x18, 8), (0x20, 4)].foldl (fun (acc : LeafRes (List Nat)) f =>
    match acc with
    | (s, .error e) => (s, .error e)
    | (s, .ok vs) =>
      match s.leafRead ag (pool + BitVec.ofNat 64 f.1) f.2 with
      | (s, .ok v) => (s, .ok (vs ++ [v]))
      | (s, .error e) => (s, .error e)) (s, .ok [])

/-- What a resolution comes to. -/
inductive Resolved | mapped | locked
  deriving DecidableEq, Repr

/-- The taking of an entry of the pool for a page whose entry e is locked: with none left, e is restored (15 R337). -/
def State.takeFromPool (s : State) (ag : Agent) (pool p : DWord) (e count take bits : Nat) : LeafRes Resolved :=
  match s.leafWrite ag (pool + 4) (natBytes 4 (take + 1)) with
  | (s, .error x) => (s, .error x)
  | (s, .ok ()) =>
    if count ≤ take then
      match s.leafWrite ag p (natBytes 8 e) with
      | (s, .error x) => (s, .error x)
      | (s, .ok ()) => (s, .error .failed)
    else
      match s.leafRead ag (pool + BitVec.ofNat 64 (0x40 + 4 * take)) 4 with
      | (s, .error x) => (s, .error x)
      | (s, .ok entry) =>
        match s.leafWrite ag p (natBytes 8 (entry * 65536 + bits * 4 + 3)) with
        | (s, .ok ()) => (s, .ok .mapped)
        | (s, .error x) => (s, .error x)

/-- The protocol of 15 R337 for one address, its accesses made one after another; the CAS that locks the entry clears FT. -/
def State.firstTouch (s : State) (ag : Agent) (pool va : DWord) : LeafRes Resolved :=
  match s.readPool ag pool with
  | (s, .ok [count, take, base, len, pte, bits]) =>
    let g := (va.toNat - base) / 65536
    if va.toNat < base ∨ len ≤ g then (s, .error .failed)
    else
      let p := BitVec.ofNat 64 (pte + 8 * g)
      match s.leafRead ag p 8 with
      | (s, .error x) => (s, .error x)
      | (s, .ok e) =>
        if e.testBit 0 then (s, .ok .mapped)
        else if !e.testBit 11 then (s, .ok .locked)
        else
          match s.leafWrite ag p (natBytes 8 (e - 2 ^ 11)) with
          | (s, .ok ()) => s.takeFromPool ag pool p e count take bits
          | (s, .error x) => (s, .error x)
  | (s, .ok _) => (s, .error .failed)
  | (s, .error x) => (s, .error x)

/-- An operation that its leaf controller cannot help stops, and the leaf reports it (15 R338, 16 R361). -/
def State.unresolved (s : State) (o : EngineOp) : State :=
  (s.endOp { o with fault := false } .stopped o.cause).sendUp (coreCluster o.core) (.efault o.id)

/-- The resolution of an operation's fault: a page of the first-touch region is mapped and the operation goes on; any other fault stops
it; an entry that another handler has locked is tried again (15 R337, R338). A resolution whose access waits has no effect, and is made again
later (DESIGN CHOICE, notes/assumptions/111). -/
def State.resolve (s0 : State) (x : EngineOp) : State :=
  let k : AccKind := if x.kind = 1 then .write else .read
  let on := fun (s : State) => s.mapOp x.id (fun y => { y.freed with fault := false, cause := 0 })
  match s0.translate x.agent x.addr with
  | (s, .ok e _) => if e.permits k x.sup then on s else s.unresolved { x with cause := 2 }
  | (s, .stall) => s
  | (s, .page sub) =>
    let (s, found) := s.walk x.agent.asid x.die (va57 x.addr)
    if sub ≠ 0 ∨ !canonical x.addr ∨ (found ≠ .absent 0 true ∧ found ≠ .absent 0 false) then s.unresolved x
    else
      match s.firstTouch x.leafAgent x.pgpool x.addr with
      | (s, .ok .mapped) => on s
      | (s, .ok .locked) => s
      | (_, .error (.waits g)) => s0.mapOp x.id (fun y => y.stall g s0.clock)
      | (s, .error .failed) => s.unresolved x

/-- LEAF_FAULT_RESOLVE. DESIGN CHOICE: notes/assumptions/43. -/
def execLeafFaultResolve (o : OpId) (s : State) : Out :=
  match s.op? o with
  | none => .next s
  | some x =>
    if !x.fault || s.stopping (.op o) || !s.opGoes x then .next s
    else .next (s.resolve x)

end Sys2Proof.Machine
end

