-- ==== Sys2Proof/Machine/Events.lean ====
section
/-! DEFINITION. What happens to streams between their instructions: pending events (spec/04 R96), the end of a SLEEP
(spec/05 R125), stall samples (spec/17 R375) and the commands of the debug block (R376–R378). -/

namespace Sys2Proof.Machine

/-! ## Events and SLEEP -/

/-- The event that a team takes is no longer pending (04 R96). -/
def Team.eventTaken (x : Team) : Team :=
  match x.eventVersion with
  | some _ => { x with eventVersion := none }
  | none => { x with eventDirty := false }

/-- EVENT_ENTRY: a team in user mode takes its pending event at an instruction boundary outside a HOLD chain. A wait at that
boundary is withdrawn, and its instruction issues again after the handler (04 R96, R97; 05 R125). -/
def execEventEntry (t : TeamId) (s : State) : Out :=
  match s.team? t with
  | none => .next s
  | some x =>
    match x.event? with
    | none => .next s
    | some c =>
      if s.resident (.team t) && x.takesEvent && !x.sc.debugStopped && !s.stopping (.team t) then
        let y := x.withdrawn.eventTaken
        .next ((s.setTeam y).trapTeam y (Trap.of c) false y.sc.pc y.lanePc y.runLeft false 0)
      else .next s

/-- SLEEP_END: the cycles of a SLEEP have passed (05 R125). -/
def execSleepEnd (st : StreamId) (s : State) : Out :=
  match (s.scalar? st).bind (·.wait) with
  | some (.sleep till) => .next (if till ≤ s.clock then s.unblock st else s)
  | _ => .next s

/-! ## Stall samples (17 R375) -/

/-- SMPL.EN and the interval in cycles. -/
def Debug.sampling (d : Debug) : Bool := d.smpl.getLsbD 0
def Debug.sampleEvery (d : Debug) : Nat := 2 ^ (8 + (d.smpl.extractLsb' 1 4).toNat)

/-- The resident team that a sample describes: the first from a slot on, round robin. -/
def State.sampledTeam (s : State) (core slot : Nat) : Option (Team × Nat) :=
  ((List.range 16).map (fun i => (slot + i) % 16)).findSome? (fun k =>
    (s.teams.find? (fun t => t.place = some ⟨core, k⟩)).map (fun t => (t, k)))

/-- The SEQ that a handle names, as a producer field. -/
def Team.handleSeq (x : Team) (h : BitVec 4) : Nat := (x.sc.handle h).seq.toNat

/-- The place of a team's next instruction: scalar PC or lane offset. -/
def Team.here (x : Team) : Nat := if x.runLeft = 0 then x.sc.pc.toNat else x.lanePc

/-- The place of an outstanding access (17 R375): its instruction, or the one that reads constant windows. -/
def Access.place (a : Access) (x : Team) : Nat := (a.units.getLast?.map (·.addr)).getD x.here

/-- The team's next instruction reads or writes what an outstanding access is to write. -/
def State.sourcePends (s : State) (x : Team) (a : Access) : Bool :=
  if x.runLeft != 0 then (s.laneInstrAt x).any (fun i => a.pends i.2.sig i.2.args)
  else (s.scalarInstrAt (.team x.id)).any (fun i => (scalarReads i ++ scalarWrites i).any a.writesS)

/-- The reason that a team waits and its producer. Any access that holds the team up counts as ordered. DESIGN CHOICE: notes/assumptions/46. -/
def State.stallReason (s : State) (x : Team) : Nat × Nat :=
  if x.sc.debugStopped then (10, 0)
  else
    match x.sc.wait with
    | none =>
      if x.runLeft != 0 && (s.laneOpen x).isSome && (s.phaseWait x).isSome then (6, 0)
      else if x.sc.accs.isEmpty then (if s.cur = some (.team x.id) then 0 else 9, 0)
      else if (s.laneReady x).isSome || s.scalarReady x then (9, 0)
      else
        match x.sc.accs.find? (s.sourcePends x), x.sc.accs.find? (fun a => !a.overlaps), x.sc.accs.head? with
        | some a, _, _ => (2, a.place x)
        | none, some a, _ => (1, a.place x)
        | none, none, some a => (1, a.place x)
        | none, none, none => (9, 0)
    | some (.hwait h) => (3, x.handleSeq h)
    | some (.command h) => (3, x.handleSeq h)
    | some (.barWait n) => (4, (((s.barrier? x n).bind (fun b => b.part? x.id)).map (fun p => p.arrPc.toNat)).getD 0)
    | some .refillW => (5, 0)
    | some (.sleep _) => (8, 0)
    | some .phase => (6, 0)
    | some .chainPhase => (6, 0)
    | some .xswap => (7, 0)
    | some .spawn => (Config.storeStallReason.toNat, 0)
    | some (.reclass _) => (1, x.here)
    | some (.version _ _) => (1, x.here)
    | some (.cxl _) => (1, x.here)
    | some (.inval _) => (1, x.here)
    | some (.declass _) => (1, x.here)
    | some .matrixQueue => (9, 0)

/-- The sample record of a team (17 R380). -/
def State.writeSample (s : State) (core : Nat) (x : Team) : State :=
  let (why, producer) := s.stallReason x
  let arg := why + 256 * (producer % 2 ^ 56)
  if x.runLeft = 0 then s.traceWrite core x.id.teamno 1 x.sc.pc.toNat arg
  else s.traceWrite core x.id.teamno (1 + 256 * (Config.laneSampleFlag x.lanePc).toNat) (Config.laneSamplePc x.lanePc).toNat arg

/-- STALL_SAMPLE: the sample that is due on a core. -/
def execStallSample (core : Nat) (s : State) : Out :=
  let c := s.core core
  if c.dbg.sampling && c.nextSample ≤ s.clock then
    let s := s.mapCore core (fun c => { c with nextSample := c.nextSample + c.dbg.sampleEvery })
    match s.sampledTeam core c.sampleSlot with
    | some (x, k) => .next ((s.mapCore core (fun c => { c with sampleSlot := (k + 1) % 16 })).writeSample core x)
    | none => .next s
  else .next s

/-! ## Debug commands (17 R376–R378) -/

/-- The team that a core's debug block names: DTEAM in the ASID that DASID gives, resident on the core. -/
def State.debugTarget (s : State) (core : Nat) : Option Team :=
  let d := (s.core core).dbg
  (s.team? ⟨d.dasid, d.dteam⟩).filter (fun x => x.place.any (fun p => p.core = core))

/-- DCMD_STOP. DEDUCED: notes/assumptions/47. -/
def execDcmdStop (core : Nat) (s : State) : Out :=
  match s.debugTarget core with
  | some x => .next (if x.sc.debugStopped then s else s.debugStop x (s.core core).dbg.grp 0xFF x.sc.pc.toNat)
  | none => .next s

/-- DCMD_RESUME. -/
def execDcmdResume (core : Nat) (s : State) : Out :=
  match s.debugTarget core with
  | some x => .next (s.mapScalar (.team x.id) (fun sc => { sc with debugStopped := false, stepping := false }))
  | none => .next s

/-- DCMD_STEP: the stopped team goes on for one unit; with HOLD and SELF clear a step has no effect (17 R377, R378). -/
def execDcmdStep (core : Nat) (s : State) : Out :=
  match s.debugTarget core with
  | some x =>
    let d := (s.core core).dbg
    if x.sc.debugStopped && (d.hold || d.self) then
      .next (s.mapScalar (.team x.id) (fun sc => { sc with debugStopped := false, stepping := true }))
    else .next s
  | none => .next s

end Sys2Proof.Machine
end

