-- ==== Sys2Proof/Machine/Queues.lean ====
section
/-! DEFINITION. Host queues: registration, deregistration and clear fault (spec/12 R259–R262), tails (R260, R263), slots and
states (R271–R273), the run list (R274), and packets but for LAUNCH (R264–R270). -/

namespace Sys2Proof.Machine

/-! ## The run list (12 R274) -/

/-- The processes that own run-list queues, in the order of their first registration. DEDUCED: notes/assumptions/54. -/
def State.processes (s : State) : List Word := ((s.queues.filter (fun q => !q.signal)).map (·.proc)).eraseDups

/-- The process holds the current turn, which it does always when the run list has no other; while a turn ends, none holds it. -/
def State.holdsTurn (s : State) (p : Word) : Bool := s.turnNext.isNone && (s.turnProc = some p || s.processes.all (· = p))

/-- The live launches of a process, those among them whose queue has been removed. -/
def State.launchesOfProcess (s : State) (p : Word) : List Launch :=
  s.launches.filter (fun l => l.lstate == .running && l.proc = some p)

/-- The leaf controllers that took a launch are asked to resume it (16 R361). -/
def State.resumeLaunch (s : State) (l : Launch) : State :=
  l.noted.foldl (fun s cl => s.sendDown cl (.resume l.id)) s

/-- A process's turn begins: its queues are mapped and its pre-empted launches resumed. -/
def State.beginTurn (s : State) (p : Word) : State :=
  let s := { s with turnProc := some p, turnStart := s.clock, turnNext := none }
  let s := (s.queues.filter (fun q => !q.signal && q.proc = p && q.st == .idle)).foldl (fun s q => s.putQueue q.num Queue.map) s
  ((s.launchesOfProcess p).filter (·.preempted)).foldl (fun s l => s.resumeLaunch l) s

/-- The next turn begins once the queues of the last are unmapped and its launches pre-empted; a process that owns no queue any
more gives its turn up, and the first that owns one takes its place. -/
def State.settleTurn (s : State) : State :=
  match s.turnNext with
  | some p =>
    let unmapped := s.queues.all (fun q => q.signal || !(q.st == .mapped || q.st == .unmapping))
    let collected := s.collections.all (fun c => !c.purposes.contains .turnEnd)
    if !(unmapped && collected) then s
    else if p ∈ s.processes then s.beginTurn p
    else
      match s.processes.head? with
      | some q => s.beginTurn q
      | none => { s with turnProc := none, turnNext := none }
  | none =>
    match s.turnProc with
    | none => s
    | some p =>
      if p ∈ s.processes then s
      else
        match s.processes.head? with
        | some q => s.beginTurn q
        | none => { s with turnProc := none }

/-! ## QCMD (12 R261, R262) -/

/-- QSTAT when a command completes. -/
def State.qcmdDone (s : State) (code : Nat) : State :=
  { s with qstat := BitVec.ofNat 32 (256 * code + if code = 0 then 0 else 2) }

/-- The address of a queue's descriptor, and whether it can be read. -/
def State.descPa (s : State) (q : Nat) : Nat := s.qtbase.toNat + 64 * q
def State.descReadable (s : State) (q : Nat) : Bool := backed (s.descPa q) && backed (s.descPa q + 63)

/-- The queue that a descriptor describes, IDLE. -/
def queueOf (num pa : Nat) (bs : List Byte) (now : Nat) : Queue where
  num := num
  ring := BitVec.ofNat 64 (leAt bs 0 8)
  log2sz := natBits (leAt bs 8 4) 0 5
  signal := (leAt bs 8 4).testBit 5
  asid := BitVec.ofNat 8 (natBits (leAt bs 8 4) 7 8)
  part := natBits (leAt bs 8 4) 15 3
  proc := BitVec.ofNat 32 (leAt bs 0x0C 4)
  taila := BitVec.ofNat 64 (leAt bs 0x10 8)
  heada := BitVec.ofNat 64 (leAt bs 0x18 8)
  timeout := leAt bs 0x20 4
  descPa := pa
  st := .idle
  pend := false
  code := 0
  fpos := 0
  read := 0
  tail := 0
  ibs := []
  cur := none
  stall := false
  lastChange := now
  order := none
  dereg := false
  tailPa := 0
  tailNew := true

/-- A host-written field of a descriptor is out of range (code 0x07). -/
def descBad (bs : List Byte) (q : Queue) : Bool :=
  let ctl := leAt bs 8 4
  !ctl.testBit 6 || natBits ctl 18 14 != 0 || q.log2sz < 4 || 20 < q.log2sz || q.ring.toNat % 4096 != 0
    || q.taila.toNat % 8 != 0 || q.heada.toNat % 8 != 0

def State.partition (s : State) (p : Nat) : Partition := if h : p < 8 then s.partitions.get ⟨p, h⟩ else Partition.reset false

/-- A removed queue exists on while a launch that it accepted is live (R261). A launch of a removed queue names the number of the queue and
65,536 more. -/
def State.departing (s : State) (num : Nat) : Bool := s.launches.any (fun l => l.queue = num + 65536 && l.lstate == .running)

/-- The first code of R261 that refuses a register command before its translations are tried. -/
def State.registerRefusal (s : State) (num : Nat) (bs : List Byte) (q : Queue) : Option Nat :=
  let there := num < s.qtsize.toNat && s.descReadable num
  let mine := (s.queues.filter (fun x => !x.signal && x.proc = q.proc)).length
  if !s.feature 0 then some 0x01
  else if there && !q.signal && s.rlslots ≤ mine then some 0x02
  else if there && !(s.partition q.part).valid then some 0x03
  else if !s.up then some 0x04
  else if s.qtsize.toNat ≤ num then some 0x06
  else if there && descBad bs q then some 0x07
  else if (s.queue? num).isSome || s.departing num then some 0x08
  else if !there then some 0x09
  else none

/-- The translations and the count at HEADA (code 0x09), with the place of the tail. -/
def State.registerReads (s : State) (q : Queue) : State × Option (Nat × Nat) :=
  let s := s.copyAsid q.asid
  match s.iodXlate q.asid q.taila .read with
  | (s, none) => (s, none)
  | (s, some tail) =>
    match s.iodXlate q.asid q.heada .write with
    | (s, none) => (s, none)
    | (s, some _) =>
      match s.iodRead q.asid q.heada 8 with
      | (s, some bs) => (s, some (tail, natOfBytes bs))
      | (s, none) => (s, none)

/-- A registered queue enters the table; a run-list queue of the process whose turn it is is MAPPED (12 R272). -/
def State.addQueue (s : State) (q : Queue) : State :=
  let turn := !q.signal && s.holdsTurn q.proc
  let s := { s with queues := s.queues ++ [q], mstate := 1 }
  let s := if turn && s.turnProc != some q.proc then { s with turnProc := some q.proc, turnStart := s.clock, turnNext := none } else s
  s.putQueue q.num (fun q => if turn then q.map else q)

/-- QCMD register; one that meets a leaf in migration leaves BUSY set and is carried on later (15 R327). DEDUCED: notes/assumptions/57. -/
def State.register (s : State) (num : Nat) : State :=
  let s := { s with migrating := false, qcmdDue := none }
  let s0 := if s.descReadable num then s.devTouch (s.descPa num) 64 false else s
  let bs := s0.mem.readBytes (s0.descPa num) 64
  let q := queueOf num (s0.descPa num) bs s0.clock
  match s0.registerRefusal num bs q with
  | some code => s.qcmdDone code
  | none =>
    match s0.registerReads q with
    | (s1, some (tail, head)) =>
      (s1.addQueue { q with read := BitVec.ofNat 64 head, tail := BitVec.ofNat 64 head, tailPa := tail }).qcmdDone 0
    | (s1, none) => if s1.migrating then { s with qstat := 1, qcmdDue := some num } else s.qcmdDone 0x09

/-- A launch whose queue is removed. DEDUCED: notes/assumptions/56. -/
def Launch.detach (num : Nat) (l : Launch) : Launch := if l.queue = num then { l with queue := num + 65536 } else l

/-- The launches of a process that owns no run-list queue any more have no turn to wait for: they go on. DEDUCED: notes/assumptions/56. -/
def State.releaseProcess (s : State) (q : Queue) : State :=
  if q.signal || q.proc ∈ s.processes then s
  else ((s.launchesOfProcess q.proc).filter (·.preempted)).foldl (fun s l => s.resumeLaunch l) s

/-- A removed queue: its launches run on and no longer name a queue (a number of 65,536 or more names none); its slot is free
(12 R272). -/
def State.removeQueue (s : State) (num : Nat) : State :=
  match s.queue? num with
  | none => s
  | some q =>
    let s := s.devWrite (q.descPa + 0x24) (natBytes 4 0)
    let s := { s with
      queues := s.queues.filter (fun x => x.num ≠ num)
      launches := s.launches.map (Launch.detach num) }
    (s.releaseProcess q).serve.dropAsids.settleTurn

/-- The codes that deregister and clear fault share. -/
def State.qcmdRefusal (s : State) (num : Nat) (ok : Queue → Bool) : Option Nat :=
  if !s.up then some 0x04
  else if s.qtsize.toNat ≤ num then some 0x06
  else if (s.queue? num).any ok then none
  else some 0x08

/-- QCMD deregister (12 R272). -/
def State.deregister (s : State) (num : Nat) : State :=
  match s.qcmdRefusal num (fun q => !q.dereg), s.queue? num with
  | some code, _ => s.qcmdDone code
  | none, none => s.qcmdDone 0x08
  | none, some q =>
    let s :=
      match q.st with
      | .mapped => s.putQueue num (fun q => { q with st := .unmapping, dereg := true })
      | .unmapping => s.putQueue num (fun q => { q with dereg := true, pend := false, order := none })
      | .idle => s.removeQueue num
      | .faulted => s.removeQueue num
    s.qcmdDone 0

/-- QCMD clear fault (12 R261, R272): processing resumes once the tail is next found changed. A re-read that was due for a change during the
fault counts as made before the command. DEDUCED: notes/assumptions/52. DESIGN CHOICE: notes/assumptions/126. -/
def State.clearFault (s : State) (num : Nat) : State :=
  match s.qcmdRefusal num (fun q => q.st == .faulted), s.queue? num with
  | some code, _ => s.qcmdDone code
  | none, none => s.qcmdDone 0x08
  | none, some q =>
    let turn := !q.signal && s.holdsTurn q.proc
    (s.putQueue num (fun q =>
      { q with st := if turn then .mapped else .idle, code := 0, stall := true, tailNew := false })).qcmdDone 0

/-- A command written to QCMD while another is running is ignored (12 R261). DESIGN CHOICE: notes/assumptions/55. -/
def State.qcmd (s : State) (f : State → State) : Out := .next (if s.qstat.getLsbD 0 then s else f s)

/-- QCMD_REGISTER, or the rest of one that waits. -/
def execQcmdRegister (q : Half) (s : State) : Out :=
  match s.qcmdDue with
  | some num => .next (s.register num)
  | none => s.qcmd (fun s => s.register q.toNat)

/-- QCMD_DEREGISTER. -/
def execQcmdDeregister (q : Half) (s : State) : Out := s.qcmd (fun s => s.deregister q.toNat)

/-- QCMD_CLEAR_FAULT. -/
def execQcmdClearFault (q : Half) (s : State) : Out := s.qcmd (fun s => s.clearFault q.toNat)

/-! ## Tails and slots (12 R260, R263, R271–R273) -/

/-- The slot of the next ring packet. -/
def Queue.slotAddr (q : Queue) : DWord := q.ring + BitVec.ofNat 64 (64 * (q.read.toNat % 2 ^ q.log2sz))

/-- The head count: packets read and started; a call in progress has not been passed (R264). -/
def Queue.head (q : Queue) : Nat := q.read.toNat - (if q.cur.isSome || !q.ibs.isEmpty then 1 else 0)

/-- The tail found changed (R272, R273). -/
def State.tailChanged (s : State) (q : Queue) (v : Nat) : State :=
  let now := s.clock
  let seen := fun (x : Queue) => { x with tail := BitVec.ofNat 64 v, lastChange := now, stall := false }
  match q.st with
  | .idle =>
    let n := s.nextOrder
    let s := { s with nextOrder := n + 1 }
    (s.putQueue q.num (fun x =>
      { seen x with order := some (x.order.getD n), pend := s.signalSlots = 0 })).serve
  | .unmapping =>
    let n := s.nextOrder
    let s := { s with nextOrder := n + 1 }
    s.putQueue q.num (fun x => { seen x with pend := true, order := if x.pend then x.order else some n })
  | .mapped => s.mapQueue q.num seen
  | .faulted => s

/-- The IOD reads a tail again. -/
def State.rereadTail (s : State) (q : Queue) : State :=
  match s.iodXlate q.asid q.taila .read with
  | (s, none) => s.faultQueue q.num 0x07 q.slotAddr
  | (s, some pa) =>
    let s := (s.devTouch pa 8 false).mapQueue q.num (fun q => { q with tailPa := pa, tailNew := false })
    let v := s.memNat pa 8
    if v < q.read.toNat || q.head + 2 ^ q.log2sz < v then s.faultQueue q.num 0x02 q.slotAddr else s.tailChanged q v

/-- TAIL_REREAD: the line of a watched tail has been invalidated, or was not read yet, and the IOD reads the tail. A FAULTED queue takes no
notice of what it reads. PRESUMED: notes/assumptions/48. -/
def execTailReread (num : Nat) (s : State) : Out :=
  match s.queue? num with
  | none => .next s
  | some q =>
    if !q.watched || !q.tailNew || q.dereg then .next s
    else if q.st == .faulted then .next (s.mapQueue num (fun q => { q with tailNew := false }))
    else .next (s.unlessMigrating (fun s => s.rereadTail q))

/-- QUEUE_IDLE_TIMEOUT (R272). -/
def execQueueIdleTimeout (num : Nat) (s : State) : Out :=
  match s.queue? num with
  | none => .next s
  | some q =>
    let us := if q.timeout = 0 then 2000 else q.timeout
    if q.signal && q.st == .mapped && q.read = q.tail && q.cur.isNone && q.ibs.isEmpty
        && q.lastChange + us * Config.cyclesPerUs ≤ s.clock then
      .next (s.putQueue num (fun q => { q with st := .unmapping }))
    else .next s

/-- The copy of the processing state in the descriptor (R259). -/
def State.saveCopy (s : State) (q : Queue) : State :=
  { s.devWrite (q.descPa + 0x30) ((List.range 16).map (Config.savedQueueByte s.freeCount)) with freeCount := s.freeCount + 1 }

/-- QUEUE_UNMAP_COMPLETE (R272, R273). -/
def execQueueUnmapComplete (num : Nat) (s : State) : Out :=
  match s.queue? num with
  | none => .next s
  | some q =>
    if q.dereg then .next (s.removeQueue num)
    else if q.st != .unmapping then .next s
    else
      let turn := !q.signal && s.holdsTurn q.proc
      let s := (s.saveCopy q).putQueue num (fun q =>
        if turn then q.map else { q with st := .idle, pend := false, order := if q.signal then q.order else none })
      .next s.serve.settleTurn

/-! ## Packets (12 R264–R270) -/

/-- The next packet of a queue, read unless it was read before; an error is the address that did not translate. DEDUCED: notes/assumptions/50. -/
def State.nextPacket (s : State) (q : Queue) : State × Option (Except DWord (DWord × List Byte)) :=
  match q.cur with
  | some p => (s, some (.ok p))
  | none =>
    let there : Option (DWord × Bool) :=
      match q.ibs.getLast? with
      | some b => some (b.base + BitVec.ofNat 64 (64 * b.next), false)
      | none => if q.read.toNat < q.tail.toNat then some (q.slotAddr, true) else none
    match there with
    | none => (s, none)
    | some (pos, ring) =>
      match s.iodRead q.asid pos 64 with
      | (s, none) => (s, some (.error pos))
      | (s, some bs) =>
        (s.mapQueue q.num (fun q => { q with cur := some (pos, bs), read := if ring then q.read + 1 else q.read }),
          some (.ok (pos, bs)))

/-- Fields of word 0 (R265). -/
def packetType (bs : List Byte) : Nat := leAt bs 0 1
def packetBarrier (bs : List Byte) : Bool := (leAt bs 0 4).testBit 8
def packetCond (bs : List Byte) : Nat := natBits (leAt bs 0 4) 9 2
def packetW64 (bs : List Byte) : Bool := (leAt bs 0 4).testBit 11

/-- The byte after the last one that a packet of a type lists; nothing for a type not listed (R266). -/
def packetEnd (type : Nat) : Option Nat :=
  if type = 1 then some 8
  else if type = 2 then some 0x20
  else if type = 3 then some 0x18
  else if type = 4 then some 0x20
  else if type = 5 then some 0x18
  else if type = 6 then some 0x38
  else none

/-- A packet whose form R265 or R266 refuses: BAD_PACKET. -/
def packetBad (bs : List Byte) : Bool :=
  let n := if packetW64 bs then 8 else 4
  match packetEnd (packetType bs) with
  | none => true
  | some stop =>
    natBits (leAt bs 0 4) 12 20 != 0 || leAt bs 4 4 != 0 || leAt bs stop (64 - stop) != 0
      || (packetType bs == 2 && (leAt bs 8 8 % 256 != 0 || leAt bs 0x10 8 % 8 != 0))
      || (packetType bs == 3 && (leAt bs 8 8 % 64 != 0 || leAt bs 0x10 8 == 0 || 65536 < leAt bs 0x10 8))
      || ((packetType bs == 4 || packetType bs == 5) && leAt bs 8 8 % n != 0)
      || ((packetType bs == 4 || packetType bs == 5) && n == 4 && leAt bs 0x14 4 != 0)
      || (packetType bs == 4 && n == 4 && leAt bs 0x1C 4 != 0)
      || (packetType bs == 6 && (leAt bs 8 8 % 8 != 0 || leAt bs 0x18 8 % 8 != 0 || leAt bs 0x28 8 % 8 != 0))

/-- What the start of a packet comes to. -/
inductive PacketRes
  | started (s : State)
  | call (s : State) (b : IbPos)
  | waits (s : State)
  | faults (s : State) (code : Nat)

/-- A packet that faults is not passed and is read again (R264, R270). -/
def State.faultPacket (s : State) (num code : Nat) (pos : DWord) : State :=
  (s.mapQueue num (fun q => { q with cur := none, read := if q.ibs.isEmpty then q.read - 1 else q.read })).faultQueue num code pos

/-- Buffers whose last packet has started are left (R269). -/
def popFinished : List IbPos → List IbPos
  | [] => []
  | b :: rest => match popFinished rest with
    | [] => if b.count ≤ b.next then [] else [b]
    | r :: rs => b :: r :: rs

def IbPos.step (b : IbPos) : IbPos := { b with next := b.next + 1 }

/-- The innermost buffer past its packet. -/
def stepLast : List IbPos → List IbPos
  | [] => []
  | [b] => [b.step]
  | b :: rest => b :: stepLast rest

/-- A packet has started: the position passes it, and the head count is written when a ring packet is passed (R264). DEDUCED: notes/assumptions/51. -/
def State.packetStarted (s : State) (num : Nat) : State :=
  let s := s.mapQueue num (fun q => { q with cur := none, ibs := popFinished (stepLast q.ibs) })
  match s.queue? num with
  | some q => if q.ibs.isEmpty then (s.iodWrite q.asid q.heada (natBytes 8 q.read.toNat)).1 else s
  | none => s

/-- A call has started: its buffer is active (R269). -/
def State.packetCalled (s : State) (num : Nat) (b : IbPos) : State :=
  s.mapQueue num (fun q => { q with cur := none, ibs := stepLast q.ibs ++ [b] })

/-- A launch is over: completed, or failed with its operations and groups stopped (11 R256). One saved into an image is neither (R265). -/
def State.launchOver (s : State) (l : Launch) : Bool :=
  match l.lstate with
  | .running => false
  | .saved => false
  | .complete => true
  | .failed => !s.ops.any (fun o => o.launch = l.id && o.st == .running) && !s.groups.any (fun g => g.launch = l.id)

/-- A BARRIER packet waits for the launches started before it in its queue; one saved into an image has neither completed nor
failed (R265). -/
def State.barrierHolds (s : State) (num : Nat) (bs : List Byte) : Bool :=
  packetBarrier bs && s.launches.any (fun l => l.queue = num && !s.launchOver l)

/-- What starting a packet comes to. -/
def State.startPacket (types : List Nat) (body : Queue → DWord → List Byte → State → PacketRes) (q : Queue) (s : State) : State :=
  match s.nextPacket q with
  | (s', none) => if s'.migrating then s' else s
  | (s', some (.error pos)) => s'.faultQueue q.num 0x07 pos
  | (s', some (.ok (pos, bs))) =>
    if packetBad bs then s'.faultPacket q.num 0x01 pos
    else if !types.contains (packetType bs) then s
    else if s'.barrierHolds q.num bs then s'
    else
      match body q pos bs s' with
      | .started s => s.packetStarted q.num
      | .call s b => s.packetCalled q.num b
      | .waits s => s
      | .faults s code => s.faultPacket q.num code pos

/-- The next packet of a queue starts, when it is of the wanted types. After supply loss none does (16 R358). -/
def packetStart (types : List Nat) (num : Nat) (body : Queue → DWord → List Byte → State → PacketRes) (s : State) : Out :=
  match s.queue? num with
  | none => .next s
  | some q =>
    if q.st != .mapped || q.stall || s.supply != .on then .next s
    else .next (s.unlessMigrating (State.startPacket types body q))

/-- NOP_PACKET. -/
def execNopPacket (q : Nat) (s : State) : Out := packetStart [1] q (fun _ _ _ s => .started s) s

/-- IB_CALL (R269). -/
def execIbCall (q : Nat) (s : State) : Out :=
  packetStart [3] q (fun x _ bs s =>
    if 4 ≤ x.ibs.length then .faults s 0x03
    else .call s ⟨BitVec.ofNat 64 (leAt bs 8 8), leAt bs 0x10 8, 0⟩) s

/-- WRITE_VALUE (R266). -/
def execWriteValue (q : Nat) (s : State) : Out :=
  packetStart [5] q (fun x _ bs s =>
    match s.iodWrite x.asid (BitVec.ofNat 64 (leAt bs 8 8)) ((bs.drop 0x10).take (if packetW64 bs then 8 else 4)) with
    | (s, true) => .started s
    | (s, false) => .faults s 0x07) s

/-- The relation of WAIT_VALUE (R267). -/
def waitHolds (cond m value : Nat) : Bool :=
  if cond = 0 then m == value else if cond = 1 then m != value else if cond = 2 then value ≤ m else m < value

/-- The condition of WAIT_VALUE read. -/
def waitValueBody (q : Queue) (bs : List Byte) (s : State) : PacketRes :=
  let n := if packetW64 bs then 8 else 4
  match s.iodRead q.asid (BitVec.ofNat 64 (leAt bs 8 8)) n with
  | (s, none) => .faults s 0x07
  | (s, some m) =>
    if waitHolds (packetCond bs) (natOfBytes m &&& leAt bs 0x18 n) (leAt bs 0x10 n) then .started s else .waits s

/-- The conditions of BARRIER_AND read: each used location is at least its value. -/
def barrierAndReads (q : Queue) (bs : List Byte) : List Nat → State → Bool → PacketRes
  | [], s, ok => if ok then .started s else .waits s
  | off :: rest, s, ok =>
    if leAt bs off 8 = 0 then barrierAndReads q bs rest s ok
    else
      match s.iodRead q.asid (BitVec.ofNat 64 (leAt bs off 8)) 8 with
      | (s, none) => .faults s 0x07
      | (s, some m) => barrierAndReads q bs rest s (ok && leAt bs (off + 8) 8 ≤ natOfBytes m)

/-- BARRIER_AND, a feature of its own (R262). -/
def barrierAndBody (q : Queue) (bs : List Byte) (s : State) : PacketRes :=
  if s.feature 9 then barrierAndReads q bs [8, 0x18, 0x28] s true else .faults s 0x04

/-- WAIT_VALUE. -/
def execWaitValue (q : Nat) (s : State) : Out := packetStart [4] q (fun x _ bs s => waitValueBody x bs s) s

/-- BARRIER_AND. -/
def execBarrierAnd (q : Nat) (s : State) : Out := packetStart [6] q (fun x _ bs s => barrierAndBody x bs s) s

/-- WAIT_REREAD: a write to a watched line makes the IOD read an unsatisfied condition again (R267). -/
def execWaitReread (q : Nat) (s : State) : Out :=
  if (s.queue? q).any (fun x => x.cur.isSome) then
    packetStart [4, 6] q (fun x _ bs s => if packetType bs = 4 then waitValueBody x bs s else barrierAndBody x bs s) s
  else .next s

end Sys2Proof.Machine
end

