-- ==== Sys2Proof/Machine/Launches.lean ====
section
/-! DEFINITION. Launches: the record and its tables (spec/12 R275–R277), their checks (R278 with spec/02 R25, R39, R40, R34;
spec/07 R172; spec/14 R309, R310; spec/17 R364), the dealing of initial records (spec/13 R281), acceptance (R278, R279; 14 R311)
and completion (12 R268; 02 R49), with the messages LNOTE, EFAULT and DONE (spec/16 R361). -/

namespace Sys2Proof.Machine

/-! ## Reading tables -/

/-- A read of n bytes that may cross granules, in order of their granules. -/
def State.iodReadLong (asid : Byte) : Nat → DWord → Nat → State → State × Option (List Byte)
  | 0, _, _, s => (s, some [])
  | fuel + 1, va, n, s =>
    if n = 0 then (s, some [])
    else
      let k := Nat.min n (65536 - va.toNat % 65536)
      match s.iodRead asid va k with
      | (s, none) => (s, none)
      | (s, some bs) =>
        match State.iodReadLong asid fuel (va + BitVec.ofNat 64 k) (n - k) s with
        | (s, none) => (s, none)
        | (s, some rest) => (s, some (bs ++ rest))

def State.iodTable (s : State) (asid : Byte) (va : DWord) (n : Nat) : State × Option (List Byte) :=
  s.iodReadLong asid (n / 65536 + 2) va n

/-! ## The record (12 R275) -/

/-- The counts of the header: NENT, NBIN, NHIER and NXS. -/
def recNent (r : List Byte) : Nat := leAt r 2 1
def recNbin (r : List Byte) : Nat := leAt r 1 1
def recNhier (r : List Byte) : Nat := natBits (leAt r 0 1) 4 4
def recNxs (r : List Byte) : Nat := leAt r 0x38 4

/-- The counts are in their ranges. -/
def recCountsOk (r : List Byte) : Bool :=
  1 ≤ recNent r && recNent r ≤ 64 && 1 ≤ recNbin r && recNbin r ≤ 64 && 1 ≤ recNhier r && recNhier r ≤ 8 && recNxs r ≤ 64

/-- Every byte and bit that the table does not list is zero. -/
def recReservedOk (r : List Byte) : Bool :=
  natBits (leAt r 0 4) 0 4 == 0
    && natBits (leAt r 4 4) 2 6 == 0 && natBits (leAt r 4 4) 16 6 == 0 && natBits (leAt r 4 4) 31 1 == 0
    && natBits (leAt r 8 4) 16 16 == 0
    && natBits (leAt r 0x0C 4) 13 3 == 0 && natBits (leAt r 0x0C 4) 23 9 == 0
    && natBits (leAt r 0x10 4) 29 3 == 0 && natBits (leAt r 0x14 4) 19 13 == 0
    && (List.range 8).all (fun i => if i < recNhier r
      then !(leAt r (0x18 + i) 1).testBit 7 && !(leAt r (0x18 + i) 1).testBit 3 else leAt r (0x18 + i) 1 == 0)
    && leAt r 0x3C 4 == 0 && leAt r 0x78 8 == 0 && leAt r 0xC0 64 == 0

/-- The codes of a hierarchy level. -/
def hwDom? (n : Nat) : Option HwDom := [HwDom.lane, .team, .core, .nbhd, .cluster, .die, .device][n]?
def shDom? (n : Nat) : Option ShDom := [ShDom.priv, .scratch, .window, .dscratch, .global][n]?

def HwDom.code : HwDom → Nat
  | .lane => 0
  | .team => 1
  | .core => 2
  | .nbhd => 3
  | .cluster => 4
  | .die => 5
  | .device => 6

/-- The declared levels; nothing when a code is out of range. -/
def recHier (r : List Byte) : Option (List (HwDom × ShDom)) :=
  (List.range (recNhier r)).mapM (fun i =>
    let b := leAt r (0x18 + i) 1
    match hwDom? (natBits b 4 3), shDom? (natBits b 0 3) with
    | some h, some d => some (h, d)
    | _, _ => none)

/-- The sharing domains permitted for a hardware domain (02 R40). -/
def sharePermits (h : HwDom) (d : ShDom) : Bool :=
  match h, d with
  | .lane, _ => true
  | .team, .priv => false
  | .team, _ => true
  | .core, .priv => false
  | .core, _ => true
  | .nbhd, .priv => false
  | .nbhd, .scratch => false
  | .nbhd, _ => true
  | .cluster, .dscratch => true
  | .cluster, .global => true
  | .cluster, _ => false
  | .die, .dscratch => true
  | .die, .global => true
  | .die, _ => false
  | .device, .global => true
  | .device, _ => false

def widens : List Nat → Bool
  | a :: b :: rest => a < b && widens (b :: rest)
  | _ => true

/-- The hierarchy rules (02 R39, R40). -/
def hierOk (nb : Bool) (dscr : Nat) (h : List (HwDom × ShDom)) : Bool :=
  let hw := h.map (·.1)
  hw.head? == some .lane && widens (hw.map HwDom.code) && !(hw.contains .nbhd && hw.contains .cluster)
    && hw.contains .nbhd == nb
    && h.all (fun x => sharePermits x.1 x.2 && (x.2 != .window || nb) && (x.2 != .dscratch || dscr != 0))

/-- The eight shapes (02 R34). -/
def shapeOk (rows cols : Nat) : Bool :=
  [(1, 1), (1, 2), (2, 1), (1, 3), (3, 1), (2, 2), (2, 3), (3, 2)].contains (rows, cols)

/-- The scratchpad of a carve-out code in KiB (09 R208). -/
def carveKib (code : Nat) : Nat := 128 + 64 * code

/-- An entry, and whether its form is in range (12 R276). -/
def parseEntry (e : List Byte) : Entry :=
  let g := leAt e 0x30 4
  { sbase := BitVec.ofNat 64 (leAt e 0 8)
    lbase := BitVec.ofNat 64 (leAt e 8 8)
    hbmap := BitVec.ofNat 64 (leAt e 0x10 8)
    slen := leAt e 0x18 4
    llen := leAt e 0x1C 4
    sentry := leAt e 0x20 4
    lentry := leAt e 0x24 4
    arg := BitVec.ofNat 32 (leAt e 0x28 4)
    fmt := BitVec.ofNat 32 (leAt e 0x2C 4)
    n := natBits g 0 5 + 1
    alloc := 8 * (natBits g 5 5 + 1)
    role := if natBits g 10 2 = 1 then .feed else if natBits g 10 2 = 2 then .drain else .vector
    pos := natBits g 12 3
    tix := natBits g 15 2
    bin := natBits g 24 8 }

/-- The register bytes of a team, and the most that one quadrant holds of it (02 R24, R25). -/
def Entry.regBytes (e : Entry) : Nat := 32 * e.n * e.alloc * 4
def Entry.quadrantBytes (e : Entry) : Nat := (e.n + 3) / 4 * 32 * e.alloc * 4

/-- An entry passes the checks of R278 but for quotas; e is its bytes. -/
def entryOk (int3 nb : Bool) (positions nbin : Nat) (e : List Byte) : Bool :=
  let x := parseEntry e
  let g := leAt e 0x30 4
  natBits g 17 7 == 0 && leAt e 0x34 12 == 0 && natBits g 10 2 != 3
    && 1 ≤ x.llen && x.llen ≤ 262143 && x.sbase.toNat % 128 == 0 && x.lbase.toNat % 128 == 0
    && x.sentry % 4 == 0 && x.sentry < 4 * x.slen && x.lentry < x.llen && x.bin < nbin
    && fmtLegal int3 x.fmt && x.quadrantBytes ≤ 131072
    && (if nb then x.pos < positions else x.pos == 0 && x.tix == 0)

/-- A bin (12 R277). -/
def parseBin (b : List Byte) : Bin :=
  let c := leAt b 0x0C 4
  { records := BitVec.ofNat 64 (leAt b 0 8)
    count := leAt b 8 4
    home := c.testBit 1
    homeWord := natBits c 2 2
    ballast := c.testBit 4
    timer := natBits c 16 16
    closed := c.testBit 0
    closeTag := none
    lastBuild := none }

def binOk (ballast : Bool) (b : List Byte) : Bool :=
  leAt b 0 8 % 16 == 0 && natBits (leAt b 0x0C 4) 5 11 == 0 && leAt b 0x10 16 == 0 && (ballast || !(parseBin b).ballast)

/-- An XSWAP pair (12 R277). -/
def pairOfWord (w : Nat) : XPair where
  first := natBits w 26 6
  count := natBits w 20 6 + 1
  posA := natBits w 17 3
  ixA := natBits w 15 2
  posB := natBits w 12 3
  ixB := natBits w 10 2

/-- The slot ranges of two pairs are apart. -/
def XPair.apart (p q : XPair) : Bool := p.first + p.count ≤ q.first || q.first + q.count ≤ p.first

def allApart : List XPair → Bool
  | [] => true
  | p :: rest => rest.all p.apart && allApart rest

/-- The rules of a pair (07 R172). -/
def pairOk (entries : List Entry) (p : XPair) : Bool :=
  match entries.find? (fun e => e.pos = p.posA && e.tix = p.ixA), entries.find? (fun e => e.pos = p.posB && e.tix = p.ixB) with
  | some a, some b => a.pos != b.pos && a.n == b.n && p.first + p.count ≤ 64
  | _, _ => false

/-! ## The whole launch -/

/-- A launch as its record and tables describe it; id, queue and the rest come from the packet. -/
def parseLaunch (id queue : Nat) (asid : Byte) (part : Nat) (packet caddr cval : DWord) (raw : List Byte) : Launch :=
  let r := raw.take 256
  let f := leAt r 4 4
  let q0 := leAt r 0x10 4
  let q1 := leAt r 0x14 4
  let nent := recNent r
  let nbin := recNbin r
  let ents := raw.drop 256
  let bins := ents.drop (64 * nent)
  let xs := bins.drop (32 * nbin)
  { id := id
    queue := queue
    proc := none
    asid := asid
    part := part
    packet := packet
    caddr := caddr
    cval := cval
    raw := raw
    nb := f.testBit 0
    relaunch := f.testBit 1
    rows := natBits f 10 2
    cols := natBits f 8 2
    carve := natBits f 12 2
    dscr := if natBits f 14 2 = 0 then 0 else 2 ^ (22 + natBits f 14 2)
    diemask := natBits f 22 6
    arrays := natBits f 28 3
    barUsed := BitVec.ofNat 8 (leAt r 8 1)
    barNbhd := BitVec.ofNat 8 (leAt r 9 1)
    psize := natBits (leAt r 0x0C 4) 0 13
    vbudget := if natBits (leAt r 0x0C 4) 16 7 = 0 then 16 else natBits (leAt r 0x0C 4) 16 7
    teamq := natBits q0 0 16
    nbq := natBits q0 16 8
    slotq := natBits q0 24 5
    regq := natBits q1 0 10
    spq := natBits q1 10 9
    hier := (recHier r).getD []
    entries := (List.range nent).map (fun i => parseEntry ((ents.drop (64 * i)).take 64))
    bins := (List.range nbin).map (fun i => parseBin ((bins.drop (32 * i)).take 32))
    pairs := (List.range (recNxs r)).map (fun i => pairOfWord (leAt xs (4 * i) 4))
    pbase := BitVec.ofNat 64 (leAt r 0x40 8)
    tvec := BitVec.ofNat 64 (leAt r 0x48 8)
    pgpool := BitVec.ofNat 64 (leAt r 0x50 8)
    stat := BitVec.ofNat 64 (leAt r 0x58 8)
    ccsbase := BitVec.ofNat 64 (leAt r 0x60 8)
    ccslen := leAt r 0x68 4
    ccentry := leAt r 0x6C 4
    ccfmt := BitVec.ofNat 32 (leAt r 0x70 4)
    ccarg := BitVec.ofNat 32 (leAt r 0x74 4)
    windows := Vector.ofFn (fun i =>
      let w := leAt r (0x80 + 8 * i.val) 8
      ⟨BitVec.ofNat 64 (natBits w 0 46 * 2048), natBits w 46 18⟩)
    lstate := .running
    kills := 0
    failcode := 0
    krec := none
    noted := []
    cands := []
    formed := []
    preempted := false
    doneSeen := 0 }

/-- Every position has a team, and no two entries share a position and index (12 R278). -/
def Launch.positionsOk (l : Launch) : Bool :=
  !l.nb || ((List.range (l.rows * l.cols)).all (fun p => l.entries.any (fun e => e.pos = p))
    && (l.entries.map (fun e => (e.pos, e.tix))).eraseDups.length == l.entries.length)

/-- The route tags of each position fit (17 R364). -/
def Launch.routeTagsOk (l : Launch) : Bool :=
  !l.nb || (List.range (l.rows * l.cols)).all (fun p => l.tagsFor (l.entries.filter (fun e => e.pos = p)).length ≤ 8)

/-- The quota fields and the placement that no start could satisfy (14 R309, R310); part is the launch's partition entry. -/
def Launch.quotasOk (l : Launch) (p : Partition) : Bool :=
  l.entries.all (fun e => e.regBytes ≤ Nat.min l.regq p.regcap * 1024)
    && (List.range 6).any (fun d => l.diemask.testBit d && p.pdies.testBit d)
    && (List.range 54).any (fun c => l.diemask.testBit (c / 9) && p.pdies.testBit (c / 9) && p.clmask.testBit c)

/-- The checks of R278 but for those quotas that R354 waives. -/
def State.launchOk (s : State) (l : Launch) : Bool :=
  let r := l.raw.take 256
  let ents := l.raw.drop 256
  let bins := ents.drop (64 * l.entries.length)
  let xs := bins.drop (32 * l.bins.length)
  let int3 := s.feature 2
  leAt r 3 1 == 1 && recCountsOk r && recReservedOk r
    && (match recHier r with
      | some h => hierOk l.nb l.dscr h
      | none => false)
    && (if l.nb then shapeOk l.rows l.cols else l.rows == 1 && l.cols == 1)
    && l.diemask != 0 && l.arrays ≤ 4 && natBits (leAt r 0x0C 4) 16 7 ≤ 64
    && l.psize % 16 == 0 && l.psize ≤ 4096 && l.pbase.toNat % 65536 == 0
    && l.teamq != 0 && 1 ≤ l.slotq && l.slotq ≤ 16 && 1 ≤ l.regq && l.regq ≤ 512
    && (!l.nb || (l.nbq != 0 && l.spq != 0)) && l.spq ≤ carveKib l.carve
    && l.stat.toNat % 256 == 0 && (l.arrays == 0 || l.ccsbase.toNat % 128 == 0)
    && (List.range 8).all (fun i => natBits (leAt r (0x80 + 8 * i) 8) 46 18 ≤ 131072)
    && (l.nb || (l.barUsed &&& l.barNbhd) == 0) && fmtLegal int3 l.ccfmt
    && (l.arrays == 0 || s.feature 1) && (!l.relaunch || s.feature 6) && (recNxs r == 0 || (s.feature 8 && l.nb))
    && (List.range l.entries.length).all (fun i =>
      entryOk int3 l.nb (l.rows * l.cols) l.bins.length ((ents.drop (64 * i)).take 64))
    && (List.range l.bins.length).all (fun i => binOk (s.feature 5) ((bins.drop (32 * i)).take 32))
    && (List.range (recNxs r)).all (fun i => natBits (leAt xs (4 * i) 4) 0 10 == 0)
    && l.pairs.all (pairOk l.entries) && allApart l.pairs && l.positionsOk && l.routeTagsOk

/-! ## Initial records (13 R281) -/

/-- The dies of DIEMASK, ascending. -/
def Launch.dies (l : Launch) : List Nat := (List.range 6).filter l.diemask.testBit

/-- The die of a record's rank: the first rank r with i < floor((r + 1)·N/D). -/
def rankDie (dies : List Nat) (n i : Nat) : Nat :=
  dies.getD (((List.range dies.length).find? (fun r => i < (r + 1) * n / dies.length)).getD 0) 0

/-- The die that holds the home granule of a record, when it translates to device memory. -/
def State.homeDie (s : State) (asid : Byte) (word : Word) : State × Option Nat :=
  match s.translate (iodAgent asid) (word.setWidth 64 <<< 16) with
  | (s, .ok _ pa) => (s, if isDevice pa then some (dieOfPa pa) else none)
  | (s, .page _) => (s, none)
  | (s, .stall) => ({ s with migrating := true }, none)

/-- Records of a table of bytes. -/
def recsOf : Nat → List Byte → List Rec
  | 0, _ => []
  | n + 1, bs =>
    let w := fun (i : Nat) => BitVec.ofNat 32 (leAt bs (4 * i) 4)
    ⟨w 0, w 1, w 2, w 3, none⟩ :: recsOf n (bs.drop 16)

/-- A word of a record. -/
def Rec.word (r : Rec) (i : Nat) : Word := if i = 0 then r.w0 else if i = 1 then r.w1 else if i = 2 then r.w2 else r.w3

/-- The die of every record of a bin, in order. -/
def State.dealDies (l : Launch) (b : Bin) (n : Nat) : List Rec → Nat → State → State × List (Nat × Rec)
  | [], _, s => (s, [])
  | r :: rs, i, s =>
    let (s, home) := if b.home then s.homeDie l.asid (r.word b.homeWord) else (s, none)
    let die := match home with
      | some d => if d ∈ l.dies then d else rankDie l.dies n i
      | none => rankDie l.dies n i
    let (s, rest) := State.dealDies l b n rs (i + 1) s
    (s, (die, r) :: rest)

/-- The shards of a bin at acceptance (13 R280–R282, 02 R45). -/
def Launch.shardsOf (l : Launch) (now seq bin : Nat) (dealt : List (Nat × Rec)) : List Shard :=
  l.dies.map (fun d =>
    let rot := ((List.range l.entries.length).find? (fun i => (l.entries[i]?).any (fun e => e.bin = bin))).getD 0
    let empty : Shard :=
      { launch := l.id, bin := bin, die := d, recs := [], timer := none, frozen := none, expired := false, ready := none,
        rot := rot, takes := [] }
    l.settled now seq empty { empty with recs := (dealt.filter (fun x => x.1 = d)).map (·.2) })

/-- The initial records of every bin read; nothing when a table does not translate. -/
def State.readBins (l : Launch) : List Bin → State → State × Option (List (List Rec))
  | [], s => (s, some [])
  | b :: bs, s =>
    match s.iodTable l.asid b.records (16 * b.count) with
    | (s, none) => (s, none)
    | (s, some bytes) =>
      match State.readBins l bs s with
      | (s, none) => (s, none)
      | (s, some rest) => (s, some (recsOf b.count bytes :: rest))

/-- Records dealt to the shards of every bin. -/
def State.dealAll (l : Launch) : Nat → List (Bin × List Rec) → State → State
  | _, [], s => s
  | i, (b, rs) :: rest, s =>
    let (s, dealt) := State.dealDies l b rs.length rs 0 s
    State.dealAll l (i + 1) rest { s with shards := s.shards ++ l.shardsOf s.clock s.readySeq i dealt, readySeq := s.readySeq + 1 }

/-! ## Acceptance (12 R278, R279; 14 R311; 08 R178) -/

/-- What reading a launch comes to. -/
inductive Accepted
  | ok (s : State) (l : Launch) (recs : List (List Rec))
  | refused (s : State) (code : Nat)

/-- The record, its tables and its initial records are copied and checked (R278), and STAT is tried (R279). -/
def State.readLaunch (s : State) (q : Queue) (pos : DWord) (record caddr cval : DWord) : Accepted :=
  if !(s.asidCopy? q.asid).any (fun a => a.valid && a.clean) then .refused s 0x07
  else
    match s.iodRead q.asid record 256 with
    | (s, none) => .refused s 0x07
    | (s, some r) =>
      if !recCountsOk r then .refused s 0x05
      else
        match s.iodTable q.asid (BitVec.ofNat 64 (leAt r 0x20 8)) (64 * recNent r) with
        | (s, none) => .refused s 0x07
        | (s, some ents) =>
          match s.iodTable q.asid (BitVec.ofNat 64 (leAt r 0x28 8)) (32 * recNbin r) with
          | (s, none) => .refused s 0x07
          | (s, some bins) =>
            match s.iodTable q.asid (BitVec.ofNat 64 (leAt r 0x30 8)) (4 * recNxs r) with
            | (s, none) => .refused s 0x07
            | (s, some xs) =>
              let l := { (parseLaunch s.nextLaunch q.num q.asid q.part pos caddr cval (r ++ ents ++ bins ++ xs)) with proc := q.runProc }
              if !(s.launchOk l && l.quotasOk (s.partition q.part)) then .refused s 0x05
              else
                match (if l.stat = 0 then (s, some 0) else s.iodXlate q.asid l.stat .write) with
                | (s, none) => .refused s 0x07
                | (s, some _) =>
                  match s.readBins l l.bins with
                  | (s, none) => .refused s 0x07
                  | (s, some recs) => .ok s l recs

/-- A launch that is accepted while its context is being saved is held as the context's others are (14 R324, 21 R395). -/
def State.joinFreeze (s : State) (l : Launch) : State :=
  let saving := fun (c : Collection) => c.purposes.contains (.freeze l.asid) || c.purposes.contains .drogue
  if s.collections.any saving then
    ({ s with collections := s.collections.map (fun c => if saving c then { c with launches := c.launches ++ [l.id] } else c) } : State).hold
      [l.id]
  else s

/-- An accepted launch joins the module: its status block is zeroed, its records dealt, its matrix groups formed and its leaf
controllers told. -/
def State.acceptLaunch (s : State) (l : Launch) (recs : List (List Rec)) : State :=
  let l := { l with cands := s.candClusters l }
  let s := { s with launches := s.launches ++ [l], nextLaunch := l.id + 1 }
  let s := s.writeStatus l.id
  let s := (s.dealAll l 0 (l.bins.zip recs)).joinFreeze l
  let s := (s.launchClusters l).foldl (fun s cl => s.sendDown cl (.lnote l.id)) s
  (s.launchClusters l).foldl (fun s cl => match s.launch? l.id with
    | some l => s.formGroup l cl
    | none => s) s

/-- LAUNCH (12 R266, R278). -/
def execLaunch (q : Nat) (s : State) : Out :=
  packetStart [2] q (fun x pos bs s =>
    match s.readLaunch x pos (BitVec.ofNat 64 (leAt bs 8 8)) (BitVec.ofNat 64 (leAt bs 0x10 8)) (BitVec.ofNat 64 (leAt bs 0x18 8)) with
    | .ok s l recs => .started (s.acceptLaunch l recs)
    | .refused s code => .faults s code) s

/-! ## Messages (16 R361, 14 R311) -/

/-- LNOTE: a leaf controller takes a launch. -/
def execLnote (cl : Nat) (s : State) : Out :=
  match (s.link cl).down.head? with
  | some (.lnote l) =>
    .next ((s.setLink (s.link cl).tookDown).mapLaunch l (fun x => { x with noted := insertNew cl x.noted }))
  | _ => .next s

/-- Every leaf controller that the launch was sent to has taken it (14 R311). -/
def State.allNoted (s : State) (l : Nat) : Bool :=
  !s.links.any (fun k => k.down.contains (.lnote l) || k.downWait.contains (.lnote l))

/-- EFAULT: the IOD takes the report of an engine fault (15 R338). -/
def execEfault (cl : Nat) (s : State) : Out :=
  match (s.link cl).up.head? with
  | some (.efault _) => .next (s.setLink (s.link cl).tookUp)
  | _ => .next s

/-- DONE: the IOD takes a report of teams retired and operations joined (02 R49). -/
def execDone (cl : Nat) (s : State) : Out :=
  match (s.link cl).up.head? with
  | some (.done l) =>
    .next ((s.setLink (s.link cl).tookUp).mapLaunch l (fun x => { x with doneSeen := x.doneSeen + 1 }))
  | _ => .next s

/-! ## Completion (02 R49, 12 R268, R279) -/

/-- Records from which a team of the launch could still start. -/
def State.startsLeft (s : State) (l : Launch) : Bool :=
  s.shards.any (fun h => h.launch = l.id && !h.recs.isEmpty
    && l.entries.any (fun e => e.bin = h.bin && (!l.nb || (e.pos = 0 && l.entries.find? (fun x => x.pos = 0) = some e))))

/-- Every report of the launch has reached the IOD. -/
def State.reportsIn (s : State) (l : Nat) : Bool :=
  !s.links.any (fun k => k.up.contains (.done l) || k.upWait.contains (.done l))

/-- The launch has completed: bins closed and nothing left to start, teams retired, operations ended, groups ended, gangs
committed (02 R48, R49; 11 R254). -/
def State.launchDone (s : State) (l : Launch) : Bool :=
  l.lstate == .running && l.bins.all (·.closed) && !s.startsLeft l && s.allNoted l.id && s.reportsIn l.id
    && !s.teams.any (fun t => t.launch = l.id) && !s.ops.any (fun o => o.launch = l.id && o.st == .running)
    && !s.groups.any (fun g => g.launch = l.id) && !s.gangs.any (fun g => g.launch = l.id)

/-- What a launch leaves when it is over. -/
def State.clearLaunch (s : State) (l : Nat) : State :=
  { s with
    ops := s.ops.filter (fun o => o.launch ≠ l)
    barriers := s.barriers.filter (fun b => b.launch ≠ l)
    reports := s.reports.filter (fun r => r.launch ≠ l)
    shards := s.shards.filter (fun h => h.launch ≠ l)
    dscratch := s.dscratch.filter (fun d => d.launch ≠ l)
    savedScratch := s.savedScratch.filter (fun x => x.launch ≠ l)
    reservations := s.reservations.filter (fun r => r.launch ≠ l)
    waitingNb := s.waitingNb.filter (fun w => w.launch ≠ l)
    moves := s.moves.filter (fun m => m.launch ≠ l) }

/-- A launch that is over: LSTATE is written and then CVAL; a CADDR that no longer translates faults the queue with ACCESS. A status that
waits holds the completion up. -/
def State.completeLaunch (s : State) (lid : Nat) (l : Launch) : State :=
  let s := (s.mapLaunch lid (fun l => { l with lstate := .complete })).writeStatus lid
  let s := if s.statDue.contains lid then { s with migrating := true } else s
  let s :=
    if l.caddr = 0 then s
    else
      match s.iodWrite l.asid l.caddr (natBytes 8 l.cval.toNat) with
      | (s, true) => s
      | (s, false) => s.faultQueue l.queue 0x07 l.packet
  (s.clearLaunch lid).dropAsids

/-- LAUNCH_COMPLETION. DEDUCED: notes/assumptions/65. -/
def execLaunchCompletion (lid : Nat) (s : State) : Out :=
  match s.launch? lid with
  | none => .next s
  | some l => .next (if s.launchDone l then s.unlessMigrating (fun s => s.completeLaunch lid l) else s)

end Sys2Proof.Machine
end

