-- ==== Sys2Proof/Machine/Ballast.lean ====
section
/-! DEFINITION. Ballast: what it measures, record transfers, slab re-splits and granule migrations (spec/13 R304–R306; spec/01 R9). -/

namespace Sys2Proof.Machine

/-! ## Measuring (R304) -/

/-- The compute dies that a link joins (01 R9). -/
def linked (d e : Nat) : Bool :=
  (d / 3 == e / 3 && (d + 1 == e || e + 1 == d)) || (d % 3 == e % 3 && d / 3 != e / 3)

/-- Takes from a shard over the last 200 µs. -/
def Shard.takeCount (now : Nat) (h : Shard) : Nat := ((h.takes.filter (fun t => now < t.1 + takeWindow)).map (·.2)).sum

/-- The largest team size of the entries that use a bin. -/
def Launch.largestTeam (l : Launch) (bin : Nat) : Nat :=
  (l.entries.filter (fun e => e.bin = bin)).foldl (fun m e => Nat.max m (32 * e.n)) 0

/-- Both conditions of R304 hold for a move from d to e. -/
def Launch.unbalanced (l : Launch) (now : Nat) (d e : Shard) : Bool :=
  2 * l.largestTeam d.bin ≤ d.recs.length
    && 2 * (e.recs.length * (d.takeCount now + 1)) < d.recs.length * (e.takeCount now + 1)

/-- A move of a bin between two dies is in flight. -/
def State.moving (s : State) (l bin d e : Nat) : Bool :=
  s.moves.any (fun m => m.launch = l && m.bin = bin && ((m.src = d && m.dst = e) || (m.src = e && m.dst = d)))

/-- The move from one shard to another begins when R304 calls for it. -/
def State.tryMove (s : State) (d e : Shard) : State :=
  match s.launch? d.launch with
  | none => s
  | some l =>
    let ok := l.lstate == .running && !l.preempted && (l.bin? d.bin).any (·.ballast) && linked d.die e.die
      && !s.moving l.id d.bin d.die e.die && l.unbalanced s.clock d e && !s.stopping (.ballast d.die)
    if ok then { s with moves := s.moves ++ [⟨l.id, d.bin, d.die, e.die, none, false, []⟩] } else s

/-- BALLAST_MEASURE: every 50 µs. -/
def execBallastMeasure (s : State) : Out :=
  if s.clock % (50 * Config.cyclesPerUs) != 0 then .next s
  else
    .next (s.shards.foldl (fun s d =>
      (s.shards.filter (fun e => e.launch = d.launch && e.bin = d.bin)).foldl (fun s e => s.tryMove d e) s) s)

/-! ## A move (R305) -/

/-- The move of a bin from one die to another. -/
def State.move? (s : State) (l bin d e : Nat) : Option BallastMove :=
  s.moves.find? (fun m => m.launch = l && m.bin = bin && m.src = d && m.dst = e)

def BallastMove.same (m x : BallastMove) : Bool := x.launch = m.launch && x.bin = m.bin && x.src = m.src && x.dst = m.dst

/-- A move after one of its steps: it is over when nothing is left of it. -/
def State.putMove (s : State) (m : BallastMove) : State :=
  if m.moved.isSome && !m.split && m.homes.isEmpty then { s with moves := s.moves.filter (fun x => !m.same x) }
  else { s with moves := replaceFirst m.same (fun _ => m) s.moves }

/-- A step of a move may run: no pre-emption has reached Ballast on the die, and the launch runs (14 R320, R324). -/
def State.moveGoes (s : State) (m : BallastMove) : Bool :=
  !s.stopping (.ballast m.src) && (s.launch? m.launch).any (fun l => l.lstate == .running && !l.preempted)

/-- The records at the tail of a shard that no uncommitted gang has tagged, at most k of them. -/
def Shard.movable (h : Shard) (k : Nat) : List Rec := ((h.recs.reverse.takeWhile (fun r => r.tag.isNone)).take k).reverse

def Shard.dropTail (n : Nat) (h : Shard) : Shard := { h with recs := h.recs.take (h.recs.length - n) }
def Shard.appendAll (rs : List Rec) (h : Shard) : Shard := { h with recs := h.recs ++ rs }

/-- BALLAST_RECORD_TRANSFER: at one event, records leave the tail of one shard for the tail of the other. DEDUCED: notes/assumptions/67. -/
def execBallastRecordTransfer (l bin d e : Nat) (s : State) : Out :=
  match s.move? l bin d e, s.shard? l bin d, s.shard? l bin e, (s.launch? l).bind (fun x => x.bin? bin) with
  | some m, some hd, some he, some b =>
    if m.moved.isNone && s.moveGoes m && hd.frozen.isNone && he.frozen.isNone then
      let room := 2 ^ 24 - s.storeUsed e
      let rs := hd.movable (Nat.min (Nat.min 256 ((hd.recs.length - he.recs.length) / 2)) room)
      let s := (s.changeShard l bin d (Shard.dropTail rs.length)).changeShard l bin e (Shard.appendAll rs)
      let homes := if b.home then (rs.map (fun r => r.word b.homeWord)).eraseDups else []
      .next (s.putMove { m with moved := some rs.length, split := b.lastBuild.isSome && !rs.isEmpty, homes := homes })
    else .next s
  | _, _, _, _ => .next s

/-- Ballast as an agent of a launch's address space: outside every gang, with supervisor access. -/
def ballastAgent (asid : Byte) (die : Nat) : Agent where
  asid := asid
  sup := true
  pgpool := none
  owner := .sward die
  die := die
  gang := none
  node := none
  core := none
  nb := false
  team := none
  slot := none

/-- The two slabs of a descriptor after n boundary rows have passed from the first to the second; nothing when they are not adjacent.
A slab is its first row and its number of rows (R301). -/
def resplit (n : Nat) (d e : Nat × Nat) : Option ((Nat × Nat) × (Nat × Nat)) :=
  let n := Nat.min n d.2
  if d.1 + d.2 = e.1 then some ((d.1, d.2 - n), (e.1 - n, e.2 + n))
  else if e.1 + e.2 = d.1 then some ((d.1 + n, d.2 - n), (e.1, e.2 + n))
  else none

def slabOf (w : Nat) : Nat × Nat := (w % 65536, w / 65536)
def slabWord (x : Nat × Nat) : List Byte := natBytes 2 x.1 ++ natBytes 2 x.2

/-- The slabs of a descriptor in memory re-split, by two write events. -/
def State.resplitAt (s : State) (m : BallastMove) (pa n : Nat) : State :=
  let nx := s.memNat (pa + 0x10) 2
  match resplit (if nx = 0 then 0 else n / nx) (slabOf (s.memNat (pa + 0x20 + 4 * m.src) 4)) (slabOf (s.memNat (pa + 0x20 + 4 * m.dst) 4)) with
  | some (x, y) => (s.devWrite (pa + 0x20 + 4 * m.src) (slabWord x)).devWrite (pa + 0x20 + 4 * m.dst) (slabWord y)
  | none => s

/-- BALLAST_SLAB_RESPLIT: a descriptor that cannot be read and written is left alone; one that a gang has tagged is waited for. -/
def execBallastSlabResplit (l bin d e : Nat) (s : State) : Out :=
  match s.move? l bin d e, s.launch? l with
  | some m, some x =>
    match m.moved, (x.bin? bin).bind (·.lastBuild) with
    | some n, some va =>
      if !m.split || !s.moveGoes m then .next s
      else
        let done := fun (s : State) => s.putMove { m with split := false }
        let ag := ballastAgent x.asid d
        match s.translate ag va with
        | (s, .ok t pa) =>
          if !t.permits .read true || !t.permits .write true || s.locPoison (.mem pa) 64 then .next (done s)
          else if (s.topTag (Loc.mem pa).tagLoc).isSome || s.lineBusy (lineOf pa) then .next s
          else .next (done ((s.markDirty ag va none).resplitAt m pa n))
        | (s, .page _) => .next (done s)
        | (s, .stall) => .next s
    | _, _ => .next s
  | _, _ => .next s

/-! ## Migration (R305 step 3, R306) -/

/-- The first free granule of a die in a launch's pool, and where its entry stands (15 R336). -/
def State.freeGranule (s : State) (l : Launch) (die : Nat) : Option (Nat × Nat) :=
  match s.translate (ballastAgent l.asid die) l.pgpool with
  | (_, .ok t pa) =>
    if !t.permits .read true || !t.permits .write true then none
    else
      let n := Nat.min (s.memNat pa 4) ((65536 - 0x40) / 4)
      let at' := fun (i : Nat) => pa + 0x40 + 4 * i
      ((List.range n).filter (fun i => s.memNat (pa + 4) 4 ≤ i)).findSome? (fun i =>
        let g := s.memNat (at' i) 4
        if isDevice (g * 65536) && dieOfPa (g * 65536) = die && !s.deadStacks.contains (stackOf (g * 65536)) && (s.mappings g).isEmpty then
          some (g, at' i) else none)
  | (_, .page _) => none
  | (_, .stall) => none

def VTag.moved (a b : Nat) (t : VTag) : VTag :=
  match t.loc with
  | .mem l => if l / 512 = a then { t with loc := .mem (512 * b + l % 512) } else t
  | .scratch _ _ => t
  | .dscratch _ _ _ => t

/-- A granule's bytes and poison stand at another granule, and it reads as zero; versions go with their lines. -/
def State.copyGranule (s : State) (a b : Nat) : State :=
  let bytes := s.mem.readBytes (65536 * a) 65536
  let marks := (List.range 16384).map (fun i => smGet false s.poison (16384 * a + i))
  { s with
    mem := (s.mem.writeBytes (65536 * b) bytes).writeBytes (65536 * a) (List.replicate 65536 0)
    poison := smSetList false (smSetList false s.poison (16384 * b) marks) (16384 * a) (List.replicate 16384 false)
    tags := s.tags.map (VTag.moved a b) }

/-- The steps of R306 for a granule: drained and copied, its leaf rewritten with its other bits kept, its page invalidated everywhere,
its class UNCL. The old granule takes the place of the new one in the pool. DEDUCED: notes/assumptions/68. -/
def State.migrate (s : State) (f : Leaf) (new entry : Nat) : State :=
  let old := granuleOf (pteFrame f.e)
  let lines := (List.range 512).map (· + 512 * old)
  let s := lines.foldl (fun s l => s.cohHomeWrite l) s
  let s := (s.copyGranule old new).invalidate f.asid (some f.va)
  let s := { s with mem := (s.mem.writeBytes f.pte (natBytes 8 (f.e % 65536 + 65536 * new))).writeBytes entry (natBytes 4 old) }
  (s.setClass old .uncl).setClass new .uncl

/-- The granule can be migrated: a 64 KiB page of device memory on the die, mapped once, with nothing open on it. -/
def State.migratable (s : State) (f : Leaf) (die : Nat) : Bool :=
  let g := granuleOf (pteFrame f.e)
  f.level = 0 && isDevice (pteFrame f.e) && dieOfPa (pteFrame f.e) = die && (s.mappings g).length = 1

/-- A granule that cannot be drained yet: a reclassification or a transaction is open on it, or an access that was checked has events to
perform there (R306 steps 1, 2). -/
def State.granuleBusy (s : State) (g : Nat) : Bool :=
  let there := fun (a : Access) => a.events.any (fun e => match e.spot.loc with
    | .mem pa => granuleOf pa = g
    | .scratch _ _ => false
    | .dscratch _ _ _ => false)
  s.reclass.any (fun r => r.gran = g) || (List.range 512).any (fun i => s.lineBusy (512 * g + i))
    || s.teams.any (fun t => t.sc.accs.any there) || s.groups.any (fun x => x.sc.accs.any there)

/-- The leaf of the next home granule of a move. -/
def State.nextHome (s : State) (m : BallastMove) (x : Launch) : Option (Leaf × List Word) :=
  match m.homes with
  | [] => none
  | w :: rest =>
    let va := w.toNat * 65536
    ((s.leaves x.asid).find? (fun f => f.va ≤ va && va < f.va + 2 ^ levelShift f.level)).map (fun f => (f, rest))

/-- The next home granule of a move is migrated or skipped; one that cannot be drained yet is waited for. -/
def State.migrateHome (s : State) (m : BallastMove) (x : Launch) : State :=
  match s.nextHome m x with
  | none => s.putMove { m with homes := m.homes.drop 1 }
  | some (f, rest) =>
    if s.granuleBusy (granuleOf (pteFrame f.e)) then s
    else
      match s.freeGranule x m.dst with
      | some (new, entry) =>
        if s.migratable f m.src then (s.migrate f new entry).putMove { m with homes := rest } else s.putMove { m with homes := rest }
      | none => s.putMove { m with homes := rest }

/-- A move is at its page migrations. -/
def State.movesPages (s : State) (m : BallastMove) : Bool := m.moved.isSome && !m.split && !m.homes.isEmpty && s.moveGoes m

end Sys2Proof.Machine
end

