-- ==== Sys2Proof/Machine/Coherence.lean ====
section
/-! DEFINITION. The coherence protocol message by message: requests, forwards, invalidations, answers and write-backs, each taken as a
step (spec/09 R222–R224, R226). Memory itself is held once (DESIGN CHOICE, notes/assumptions/5). -/

namespace Sys2Proof.Machine

/-- An L1 of the module: an active core's, or a control core's. -/
def State.isL1 (s : State) (node : Nat) : Bool := s.isActive node || (216 ≤ node && node < 270)

/-- The L1s of a cluster (09 R223). -/
def State.l1sOf (s : State) (cl : Nat) : List Nat := s.clusterCores cl ++ [ctrlNode cl]

def State.l1sOfAll (s : State) (cls : List Nat) : List Nat := (cls.flatMap s.l1sOf).eraseDups

def State.send (s : State) (ms : List CohMsg) : State := { s with net := s.net ++ ms }
def State.unsend (s : State) (m : CohMsg) : State := { s with net := s.net.erase m }

/-- A grant for a line that its requester has not completed: what comes later on the same path waits behind it (01 R10). -/
def State.filling (s : State) (node line : Nat) : Bool :=
  s.net.any (fun m => match m with
    | .grant d l _ _ _ => d = node && l = line
    | .data d l => d = node && l = line
    | .fwd _ _ _ _ => false
    | .inv _ _ => false
    | .binv _ _ => false
    | .ackHome _ _ _ _ => false
    | .wbd _ _ => false
    | .wbAck _ _ => false)

/-! ## The home -/

/-- The entry when a transaction ends (09 R224, R226). -/
def DirEntry.done (e : DirEntry) (t : Txn) : DirEntry :=
  let add := fun (e : DirEntry) => { e with shr := insertNew (nodeCluster t.node) e.shr }
  let e := { e with busy := none }
  if t.evict then { e with st := .i, owner := none, shr := [] }
  else
    match t.req, e.st, e.owner with
    | .rdS, .i, _ => { e with st := .e, owner := some t.node }
    | .rdS, .e, some o => add (e.afterRead t.dirty o)
    | .rdS, .m, some o => add (e.afterRead t.dirty o)
    | .rdS, .o, some o => add (e.afterRead t.dirty o)
    | .rdS, _, _ => add e
    | .rdX, _, _ => { e with st := .m, owner := some t.node, shr := [] }
    | .upg, _, _ => { e with st := .m, owner := some t.node, shr := [] }

/-- The state that the requester takes with its grant. -/
def Txn.grants (t : Txn) (e : DirEntry) : L1St :=
  match t.req with
  | .rdS => if e.st = .i then .e else .s
  | .rdX => .m
  | .upg => .m

/-- A transaction whose answers are all in ends: Data from L2 where the home supplies it, and the grant; BUSY is clear. -/
def State.endTxn (s : State) (e : DirEntry) (t : Txn) : State :=
  let s := s.setDir (e.done t)
  if t.evict then s
  else
    let data := if t.fromMem && !t.hasData then [CohMsg.data t.node e.line] else []
    s.send (data ++ [.grant t.node e.line (t.grants e) false t.hasData])

/-- A transaction as its request opens it, and the messages that the home sends (09 R224). -/
def State.openTxn (s : State) (e : DirEntry) (req : CohReq) (node : Nat) : Txn × List CohMsg :=
  let invs := fun (skip : List Nat) => (s.l1sOfAll e.shr).filter (fun n => n ∉ skip)
  let own := (s.l1St node e.line == some .s && e.st = .s) || (s.l1St node e.line == some .o && e.owner = some node && e.st = .o)
  match req, e.owner with
  | .rdS, some o =>
    if e.st = .s then (⟨false, req, node, [], true, false, false⟩, [])
    else (⟨false, req, node, [o], false, false, false⟩, [.fwd o e.line node false])
  | .rdS, none => (⟨false, req, node, [], true, false, false⟩, [])
  | _, owner =>
    if req = .upg && own then
      let ns := invs [node]
      (⟨false, .upg, node, ns, false, true, false⟩, ns.map (CohMsg.inv · e.line))
    else
      match owner with
      | some o =>
        let ns := invs [o]
        (⟨false, .rdX, node, o :: ns, false, false, false⟩, .fwd o e.line node true :: ns.map (CohMsg.inv · e.line))
      | none =>
        let ns := invs []
        (⟨false, .rdX, node, ns, true, false, false⟩, ns.map (CohMsg.inv · e.line))

/-- A request at a home with no transaction open on the line. -/
def State.startTxn (s : State) (line : Nat) (req : CohReq) (node : Nat) : State :=
  let e := s.dirEntry line
  let (t, ms) := s.openTxn e req node
  if t.awaiting = [] then (s.send ms).endTxn e t else (s.setDir { e with busy := some t }).send ms

/-- Requests that waited are started, in arrival order, until one stays open. -/
def State.startWaiting (line : Nat) : Nat → State → State
  | 0, s => s
  | n + 1, s =>
    let e := s.dirEntry line
    match e.busy, e.waiting with
    | none, (req, node) :: rest => State.startWaiting line n ((s.setDir { e with waiting := rest }).startTxn line req node)
    | _, _ => s

/-! ## Room in the snoop filter (R226) -/

/-- The L1s that an entry may name: OWNER and the L1s of the clusters in SHR. -/
def State.holders (s : State) (e : DirEntry) : List Nat := (e.owner.toList ++ s.l1sOfAll e.shr).eraseDups

/-- The eviction of an entry begins: BInv to every holder. -/
def State.startEvict (s : State) (line : Nat) : State :=
  let e := s.dirEntry line
  let hs := s.holders e
  if s.lineBusy line || e.st = .i || hs = [] then s
  else (s.setDir { e with busy := some ⟨true, .rdS, 0, hs, false, false, false⟩ }).send (hs.map (CohMsg.binv · line))

/-- The lines of a set whose requests wait for an entry. -/
def State.pendingLines (s : State) (set : Nat × Nat) : List Nat :=
  (s.dir.filter (fun e => e.st == .i && e.busy.isNone && !e.waiting.isEmpty && filterSet e.line = set)).map (·.line)

/-- A request that waits for an entry goes on when there is room; else one entry of the set is evicted at a time. -/
def State.letIn (s : State) (line : Nat) : State :=
  if !s.filterFull line then State.startWaiting line (s.dirEntry line).waiting.length s
  else if s.dir.any (fun e => filterSet e.line = filterSet line && e.busy.any (·.evict)) then s
  else
    match s.filterVictim line with
    | some v => s.startEvict v
    | none => s

def State.letInAll (s : State) (line : Nat) : State := (s.pendingLines (filterSet line)).foldl (fun s l => s.letIn l) s

/-- An answer to the open transaction is in. -/
def State.answered (s : State) (line : Nat) (f : Txn → Txn) : State :=
  let e := s.dirEntry line
  match e.busy with
  | none => s
  | some t =>
    let t := f t
    if t.awaiting = [] then (State.startWaiting line (e.waiting.length + 1) (s.endTxn e t)).letInAll line
    else s.setDir { e with busy := some t }

/-- A request of an L1 arrives at the home (09 R222, R224, R226): it waits there while BUSY is set, or while its set has no room for the
entry that it needs. -/
def State.request (s : State) (req : CohReq) (node line : Nat) : State :=
  let e := s.dirEntry line
  let full := e.st = .i && s.filterFull line
  if e.busy.isSome || !e.waiting.isEmpty || full then
    let s := (s.setDir { e with waiting := e.waiting ++ [(req, node)] }).requested line
    if e.busy.isSome then s else s.letIn line
  else (s.startTxn line req node).requested line

/-- An L1 has a request for the line under way. -/
def State.requesting (s : State) (node line : Nat) : Bool :=
  let e := s.dirEntry line
  s.filling node line || e.waiting.any (fun w => w.2 = node) || e.busy.any (fun t => !t.evict && t.node = node)

/-- An L1 may send a request: the line is device memory, and no request of this L1 is open on it. -/
def State.mayRequest (s : State) (node line : Nat) : Bool :=
  s.isL1 node && isDevice (128 * line) && !s.requesting node line

/-- The access of an L1's streams that needs a line, with its agent and the place that it reaches there. -/
def State.wanting (s : State) (node line : Nat) : Option (Agent × Spot) :=
  let among := fun (st : StreamId) (sc : Scalar) =>
    (s.agentOf st).bind (fun ag =>
      if ag.node = some node then
        (sc.accs.flatMap (·.events)).findSome? (fun e => match e.spot.loc with
          | .mem pa => if lineOf pa = line then some (ag, e.spot) else none
          | .scratch _ _ => none
          | .dscratch _ _ _ => none)
      else none)
  if node < 216 then (s.teamsOn node).findSome? (fun x => among (.team x.id) x.sc)
  else (s.group? (node - 216)).bind (fun g => among (.ctrl g.cl) g.sc)

/-- The tag under which an L1 takes a line, that of the access that asked for it (15 R333). -/
def State.wantedTag (s : State) (node line : Nat) : Option L1Tag := (s.wanting node line).bind (fun w => w.2.tag w.1)

/-- A request for a line that the L1 does not hold is a miss of the slot whose access it is (17 R373). -/
def State.missed (s : State) (node line : Nat) : State :=
  if node < 216 then s.count node ((s.wanting node line).bind (·.1.slot)) 0x06 1 else s

/-- RDS: the home takes a shared read request. -/
def execRds (node line : Nat) (s : State) : Out :=
  if s.mayRequest node line && (s.l1St node line).isNone then .next ((s.missed node line).request .rdS node line) else .next s

/-- RDX: the home takes a read with ownership. -/
def execRdx (node line : Nat) (s : State) : Out :=
  if s.mayRequest node line && (s.l1St node line).isNone then .next ((s.missed node line).request .rdX node line) else .next s

/-- UPG: the home takes an ownership request of an L1 in S or O. -/
def execUpg (node line : Nat) (s : State) : Out :=
  if s.mayRequest node line && (s.l1St node line == some .s || s.l1St node line == some .o) then
    .next (s.request .upg node line)
  else .next s

/-! ## Owners and sharers -/

/-- The forward that an L1 is to take. -/
def State.fwdFor (s : State) (node line : Nat) : Option (CohMsg × Nat × Bool) :=
  s.net.findSome? (fun m => match m with
    | .fwd d l r x => if d = node ∧ l = line then some (m, r, x) else none
    | .inv _ _ => none
    | .binv _ _ => none
    | .ackHome _ _ _ _ => none
    | .grant _ _ _ _ _ => none
    | .data _ _ => none
    | .wbd _ _ => none
    | .wbAck _ _ => none)

/-- FWD: an owner sends the line to the requester and answers the home. From the write-back buffer the WbD counts as answered; an L1
that holds nothing answers with a clear flag, and the home supplies the data (09 R224). -/
def execFwd (node line : Nat) (s : State) : Out :=
  match s.fwdFor node line with
  | none => .next s
  | some (m, req, excl) =>
    if s.filling node line then .next s
    else
      let s' := s.unsend m
      let dirty := s.holdsDirty node line
      match s.l1St node line with
      | none => .next (s'.send [.ackHome node line false false])
      | some .wb =>
        .next (((s'.setL1 node line none).unsend (.wbd node line)).send [.data req line, .ackHome node line false true])
      | some _ =>
        let s' := s'.adoptCopy node line
        let s' := if excl then s'.setL1 node line none else s'.demoteOwner node line
        .next (s'.send [.data req line, .ackHome node line dirty true])

/-- INV: an L1 drops the line and acknowledges; one that does not hold it acknowledges too. -/
def execInv (node line : Nat) (s : State) : Out :=
  if s.net.contains (.inv node line) && !s.filling node line then
    let s := s.unsend (.inv node line)
    let s := if s.l1St node line == some .wb then s else s.setL1 node line none
    .next (s.send [.ackHome node line false true])
  else .next s

/-- BINV: a holder drops the line, answering WbD when its copy is dirty and Ack when not. Where none is under way, the home sees to what
waits for room in the line's set. -/
def execBinv (node line : Nat) (s : State) : Out :=
  if !s.net.contains (.binv node line) then .next (s.letInAll line)
  else if !s.filling node line then
    let t := s.unsend (.binv node line)
    if t.holdsDirty node line || t.l1St node line == some .wb then
      .next ((t.setL1 node line (some .wb)).send (if t.net.contains (.wbd node line) then [] else [.wbd node line]))
    else .next ((t.setL1 node line none).send [.ackHome node line false true])
  else .next s

/-- WBD: an L1 in M or O that evicts keeps the line in its write-back buffer, and the home takes the WbD when no other transaction is
open on the line; in an eviction by the snoop filter it is the holder's answer. -/
def execWbd (node line : Nat) (s : State) : Out :=
  let s := if s.holdsDirty node line && !s.net.contains (.wbd node line) then
      (s.setL1 node line (some .wb)).send [.wbd node line]
    else s
  if s.net.contains (.wbd node line) then
    match (s.dirEntry line).busy with
    | some t =>
      if t.evict && t.awaiting.contains node then
        .next (((s.unsend (.wbd node line)).send [.wbAck node line]).answered line (fun t =>
          { t with awaiting := t.awaiting.erase node }))
      else .next s
    | none =>
      let e := s.dirEntry line
      let s := (s.unsend (.wbd node line)).send [.wbAck node line]
      if e.owner = some node ∧ (e.st = .m ∨ e.st = .o) then
        .next ((s.setDir { e with st := if e.shr = [] then .i else .s, owner := none }).letInAll line)
      else .next s
  else .next s

/-! ## Answers -/

/-- A requester that holds its data and its grant has the line, in the room that it makes for it (09 R224, 14 R318). A line that no access
of its streams has asked for stands without a tag. DESIGN CHOICE: notes/assumptions/5. -/
def State.fill (s : State) (node line : Nat) : State :=
  match s.net.findSome? (fun m => match m with
    | .grant d l st true true => if d = node ∧ l = line then some (m, st) else none
    | _ => none) with
  | some (m, st) =>
    let s := s.unsend m
    let tag := s.wantedTag node line
    ((s.makeRoom node line ((tag.map (·.vline)).getD line)).setL1 node line (some st)).touchL1 node line tag none
  | none => s

/-- The message of a line that is acknowledged next: an Ack to the home, a grant not yet taken, or the home's Ack of a WbD. -/
def State.nextAck (s : State) (line : Nat) : Option CohMsg :=
  s.net.find? (fun m => match m with
    | .ackHome _ l _ _ => l = line
    | .grant _ l _ taken _ => l = line && !taken
    | .wbAck _ l => l = line
    | .fwd _ _ _ _ => false
    | .inv _ _ => false
    | .binv _ _ => false
    | .data _ _ => false
    | .wbd _ _ => false)

/-- ACK: the oldest acknowledgement or grant of a line is taken. -/
def execAck (line : Nat) (s : State) : Out :=
  match s.nextAck line with
  | some (.ackHome src l dirty supplied) =>
    let owner := (s.dirEntry line).owner = some src
    .next ((s.unsend (.ackHome src l dirty supplied)).answered line (fun t => { t with
      awaiting := t.awaiting.erase src
      dirty := t.dirty || dirty
      fromMem := t.fromMem || (owner && !supplied) }))
  | some (.grant d l st taken has) =>
    .next (({ s with net := s.net.map (fun m => if m = .grant d l st taken has then .grant d l st true has else m) } : State).fill d l)
  | some (.wbAck d l) =>
    let s := s.unsend (.wbAck d l)
    .next (if s.l1St d l == some .wb then s.setL1 d l none else s)
  | _ => .next s

/-- DATA: a requester takes the line's contents. -/
def execData (node line : Nat) (s : State) : Out :=
  if s.net.contains (.data node line) then
    let s := s.unsend (.data node line)
    let e := s.dirEntry line
    let mark := fun (m : CohMsg) => match m with
      | .grant d l st taken _ => if d = node ∧ l = line then CohMsg.grant d l st taken true else m
      | _ => m
    let s := ({ s with net := s.net.map mark } : State).replaceCopy node line none
    match e.busy with
    | some t => if t.node = node && !t.evict then .next (s.setDir { e with busy := some { t with hasData := true } }) else .next (s.fill node line)
    | none => .next (s.fill node line)
  else .next s

end Sys2Proof.Machine
end

