-- ==== Sys2Proof/Machine/LaneMem.lean ====
section
/-! DEFINITION. Lane loads, stores, atomics, constant loads and Sward marks (spec/10 R227–R238, R242; spec/13 R300). -/

namespace Sys2Proof.Machine

/-- A word of the lane's address is poisoned (10 R232). -/
def LaneCtx.addressPoison (c : LaneCtx) (j : Nat) : Bool := (c.a j).poison || (c.b j).poison

/-! ## Loads and stores -/

/-- The number of registers of a lane that a load writes (10 R230). -/
def ldWords (w : LdW) : Nat := if w = .b128 then 4 else if w = .b64 then 2 else 1

/-- LD (10 R231): every lane's bytes read, then written to its destination. -/
def execLd (lv : Level) (w : LdW) (x : LaneArgs) (s : State) : Out :=
  laneInstrWith (.ld lv w x) (LaneCtx.early .read lv (ldBytes w) (fun c => c.address lv))
    (fun c s => s.laneAccess c .read lv (ldBytes w) (c.address lv) c.addressPoison (fun _ => ldReads w) (c.regDest (ldWords w) w)) s

/-- The four registers of a .b128 datum (10 R230). -/
def LaneCtx.quad (c : LaneCtx) (j : Nat) : List PWord :=
  match c.args.c with
  | .vreg i => (List.range 4).map (fun n => c.x.v (i.toNat + n) j)
  | .sreg i => (List.range 4).map (fun n => c.x.sc.reg (i + BitVec.ofNat 6 n))
  | .latch _ => []
  | .kreg _ => []
  | .cwin _ _ => []
  | .imm _ => []
  | .lit _ => []

/-- The words of a store's datum. -/
def LaneCtx.datum (c : LaneCtx) (w : StW) (j : Nat) : List PWord :=
  if w = .b128 then c.quad j else [(c.c j).lo, (c.c j).hi]

/-- The bytes that a store writes, the low word first. -/
def LaneCtx.datumBytes (c : LaneCtx) (w : StW) (j : Nat) : List Byte :=
  ((c.datum w j).flatMap (fun p => natBytes 4 p.val.toNat)).take (stBytes w)

/-- The write events of a lane's datum. -/
def LaneCtx.writes (c : LaneCtx) (w : StW) (j : Nat) : List EvOp :=
  let bs := c.datumBytes w j
  if w = .b128 then [.write (bs.take 8), .write (bs.drop 8)] else [.write bs]

/-- ST (10 R231): every lane's bytes written in ascending lane order. -/
def execSt (lv : Level) (w : StW) (x : LaneArgs) (s : State) : Out :=
  laneInstrWith (.st lv w x) (LaneCtx.early .write lv (stBytes w) (fun c => c.address lv))
    (fun c s => s.laneAccess c .write lv (stBytes w) (c.address lv)
      (fun j => c.addressPoison j || (c.datum w j).any (·.poison)) (c.writes w) .none) s

/-! ## Atomics -/

/-- The compare value of CAS: vd as it was read at issue (10 R235). -/
def LaneCtx.compare (c : LaneCtx) (t : Wd) (j : Nat) : PPair :=
  match t with
  | .w32 => .ofWord (c.x.v c.args.di.toNat j)
  | .w64 => c.x.vPair c.args.di.toNat j

/-- ATOM (10 R235–R238). -/
def execAtom (op : AtomOp) (lv : Level) (t : Wd) (x : LaneArgs) (s : State) : Out :=
  laneInstrWith (.atom op lv t x) (LaneCtx.early .atomic lv (wdBytes t) (fun c => c.address lv))
    (fun c s => s.laneAccess c .atomic lv (wdBytes t) (c.address lv)
      (fun j => c.poison j || (op == .cas && (c.compare t j).poison))
      (fun j => [.atomic op t (c.c j).val (c.compare t j).val]) (c.regDest (ldWords (wdLoad t)) (wdLoad t))) s

/-- The word that holds a tile's mark (13 R300). -/
def markAddress (c : LaneCtx) (j : Nat) : DWord :=
  (c.a j).val + BitVec.ofNat 64 (4 * ((c.b j).lo.val.toNat / 32))

/-- SWMARK: an atomic OR of each lane's tile bit (13 R300). -/
def execSwmark (x : LaneArgs) (s : State) : Out :=
  laneInstrWith (.swmark x) (LaneCtx.early .atomic .g 4 markAddress)
    (fun c s => s.laneAccess c .atomic .g 4 (markAddress c) c.poison
      (fun j => [.atomic .or .w32 (1#64 <<< ((c.b j).lo.val.toNat % 32)) 0]) .none) s

/-! ## Constant loads -/

/-- The window that a lane constant load names (10 R242). -/
def windowOf (a : LaneArgs) : BitVec 3 :=
  match a.b with
  | .imm p => p.setWidth 3
  | _ => 0

/-- The word, or the pair, that a lane reads. -/
def LaneCtx.windowRef (c : LaneCtx) (t : Wd) (j : Nat) : WinRef :=
  ⟨windowOf c.args, (c.a j).lo.val.toNat, t == .w64⟩

/-- The checks of every lane's window words: faults, spots, and whether a leaf is in migration. -/
def State.checkWindows (c : LaneCtx) (t : Wd) : List Nat → State → State × List (Nat × Trap) × List Spot × Bool
  | [], s => (s, [], [], false)
  | j :: js, s =>
    match State.windowSpots c.ag c.l [c.windowRef t j] s with
    | (s, _, some (some f)) =>
      let (s, fs, ps, q) := State.checkWindows c t js s
      (s, (j, f) :: fs, ps, q)
    | (s, _, some none) =>
      let (s, fs, ps, _) := State.checkWindows c t js s
      (s, fs, ps, true)
    | (s, own, none) =>
      let (s, fs, ps, q) := State.checkWindows c t js s
      (s, fs, own.map (fun p => { p.1 with lane := j }) ++ ps, q)

/-- CLD, lane form (10 R242). -/
def execCldLane (t : Wd) (x : LaneArgs) (s : State) : Out :=
  laneInstr (.cldLane t x) (fun c s =>
    match State.checkWindows c t c.g s with
    | (s, fs, ps, stall) =>
      let late := (c.g.filter (fun j => (c.a j).poison && !fs.any (fun f => f.1 = j))).map
        (fun j => (j, (⟨.poison, 0, c.l.windowVa (windowOf c.args) (c.a j).lo.val.toNat, 0⟩ : Trap)))
      if stall then .retry s
      else
        match chooseTrap (fs ++ late) with
        | some f => .trap s f
        | none =>
          .access s (c.access .read (ps.map (fun p => ⟨p, .read (wdBytes t)⟩)) (c.regDest (ldWords (wdLoad t)) (wdLoad t)))) s

end Sys2Proof.Machine
end

