-- ==== Sys2Proof/Machine/Schedule.lean ====
section
/-! DEFINITION. Starting teams: quotas (spec/14 R309, R310; spec/02 R25; spec/17 R364), identifiers (spec/02 R42, R43, R57;
spec/19 R389), team and neighbourhood starts (02 R36, R44–R46; 14 R312, R313), reservations (R314) and the urgency predictor
(R317). -/

namespace Sys2Proof.Machine

/-! ## Room on a core -/

/-- Register bytes of n mask words and A registers on a quadrant (02 R23, R24). -/
def quadrantUse (nw alloc q : Nat) : Nat := (nw + 3 - q) / 4 * 32 * alloc * 4

/-- The register file of every quadrant holds the resident teams and new ones (02 R25). -/
def State.registersFit (s : State) (core : Nat) (new : List Entry) : Bool :=
  (List.range 4).all (fun q =>
    ((s.teamsOn core).map (fun t => quadrantUse t.nw t.alloc q)).sum + (new.map (fun e => quadrantUse e.n e.alloc q)).sum
      ≤ 131072)

/-- The cores of a neighbourhood's rectangle, from the place of one of its teams (02 R35). -/
def Team.rectangle (t : Team) : List Nat :=
  match t.place with
  | none => []
  | some p =>
    let site := p.core % 36
    let r := site / 6 - t.pos / t.nbCols
    let c := site % 6 - t.pos % t.nbCols
    (List.range (t.nbRows * t.nbCols)).map (fun i => 36 * (p.core / 36) + 6 * (r + i / t.nbCols) + c + i % t.nbCols)

/-- The neighbourhoods whose rectangle holds a core (02 R38). -/
def State.rectanglesOn (s : State) (core : Nat) : List GangId :=
  ((s.teams.filter (fun t => (s.launch? t.launch).any (·.nb) && t.rectangle.contains core)).map (·.gang)).eraseDups

/-- A core's scratchpad is in a storage. -/
def Storage.onCore (core : Nat) : Storage → Bool
  | .global => false
  | .scratch c => c == core
  | .window cs => cs.contains core
  | .dscratch _ => false

/-- An operation holds the storage that it names until it has joined or stopped (13 R296). -/
def EngineOp.holds (core : Nat) (o : EngineOp) : Bool :=
  (o.st == .running || (o.st == .complete && !o.joined)) && (o.src.onCore core || o.dst.onCore core)

/-- An engine operation of a launch names a core's scratchpad (09 R208, 13 R296). -/
def State.opNames (s : State) (l core : Nat) : Bool := s.ops.any (fun o => o.launch = l && o.holds core)

/-- The scratchpad of a core is free for a launch (14 R310, R324; 02 R38). -/
def State.scratchFree (s : State) (l : Launch) (core : Nat) : Bool :=
  l.spq == 0 ||
    ((s.teamsOn core).all (fun t => t.launch = l.id || (s.launch? t.launch).all (fun x => x.spq = 0))
      && (s.rectanglesOn core).all (fun g => (s.gang? g).any (fun x => x.launch = l.id))
      && s.ops.all (fun o => o.launch = l.id || !o.holds core || (s.launch? o.launch).all (fun x => x.spq = 0)))

/-- The carve-out rule (14 R309, 09 R208). -/
def State.carveFits (s : State) (l : Launch) (core : Nat) : Bool :=
  (s.teamsOn core).all (fun t => (s.launch? t.launch).all (fun x => x.carve = l.carve))

/-- The rows of R309 that concern one core, for new teams of a launch; only a reservation's own group, one of those that are placed, may start
on a reserved core (14 R314), and only array cores of a live group serve FEED and DRAIN teams of a matrix launch (08 R178). -/
def State.coreFits (s : State) (ws : List Waiter) (l : Launch) (new : List Entry) (core : Nat) : Bool :=
  let p := s.partition l.part
  let mine := (s.teamsOn core).filter (fun t => t.launch = l.id)
  let k := new.length
  s.isActive core && (s.launchClusters l).contains (coreCluster core)
    && mine.length + k ≤ Nat.min l.slotq p.slotcap && (s.teamsOn core).length + k ≤ 16
    && (mine.map (fun t => 32 * t.nw * t.alloc * 4)).sum + (new.map Entry.regBytes).sum ≤ Nat.min l.regq p.regcap * 1024
    && s.registersFit core new && s.carveFits l core && s.scratchFree l core
    && s.tagsUsed core + l.tagsFor k ≤ 8
    && s.reservations.all (fun r => ws.contains r.who || !r.cores.contains core) && !s.clearing core
    && (l.arrays == 0 || new.all (fun e => e.role == .vector
      || s.groups.any (fun g => g.launch = l.id && g.placed && g.arrays.any (fun a => a.core = core))))

/-! ## Levels (02 R42) -/

/-- The domain of level i. -/
def Launch.domAt (l : Launch) (i : Nat) : Option HwDom := (l.hier[i]?).map (·.1)

/-- The domain that encloses level i: the next declared, or the device. -/
def Launch.enclosing (l : Launch) (i : Nat) : HwDom := ((l.hier[i + 1]?).map (·.1)).getD .device

/-- The domain that encloses the team level; the device when no level is bound to team. -/
def Launch.teamEnclosing (l : Launch) : HwDom :=
  match (List.range l.hier.length).find? (fun i => (l.hier[i]?).any (fun h => h.1 == .team)) with
  | some i => l.enclosing i
  | none => .device

/-- Two cores lie in one instance of a domain. -/
def sameUnit (d : HwDom) (a b : Nat) : Bool :=
  match d with
  | .lane => false
  | .team => false
  | .core => a == b
  | .nbhd => true
  | .cluster => coreCluster a == coreCluster b
  | .die => a / 36 == b / 36
  | .device => true

/-- A live team lies in the instance of a domain around a core, gid naming the neighbourhood there. A team that waits for
placement is known by its die alone. -/
def Team.within (t : Team) (d : HwDom) (core : Nat) (gid : Word) : Bool :=
  match d with
  | .nbhd => t.gid == gid
  | .die => t.die == core / 36
  | .device => true
  | .lane => false
  | .team => false
  | .core => t.place.any (fun p => sameUnit .core p.core core)
  | .cluster => t.place.any (fun p => sameUnit .cluster p.core core)

/-- The row of R309 for TEAMQ: the instances that enclose new teams on the given cores hold them. -/
def State.teamQuota (s : State) (l : Launch) (gid : Word) (cores : List Nat) : Bool :=
  let d := l.teamEnclosing
  cores.all (fun c => ((s.teamsOf l.id).filter (fun t => t.within d c gid)).length + (cores.filter (sameUnit d c)).length ≤ l.teamq)

/-- The active cores of the device. -/
def State.activeTotal (s : State) : Nat := ((List.range 6).map (fun d => (s.coreMap d).count)).sum

/-- The LVID values that other live teams of the launch hold at a level within the instance around a core. -/
def State.heldLvids (s : State) (l : Launch) (i : Nat) (d : HwDom) (core : Nat) (gid : Word) : List Nat :=
  ((s.teamsOf l.id).filter (fun t => t.within d core gid)).map (fun t =>
    if h : i < 8 then (t.lvid.get ⟨i, h⟩).toNat else 0)

/-- LVID(i) and LVEXT(i) of a team that starts on a core. A neighbourhood's teams share its index nbIx. -/
def State.levelValue (s : State) (l : Launch) (e : Entry) (gid : Word) (nbIx core i : Nat) : Nat × Nat :=
  let d := l.enclosing i
  match l.domAt i with
  | none => (0, 1)
  | some .lane => (0, 32 * e.n)
  | some .team => (lowestFree (s.heldLvids l i d core gid), l.teamq)
  | some .core =>
    match d with
    | .nbhd => (e.pos, l.rows * l.cols)
    | .cluster => ((s.clusterCores (coreCluster core)).idxOf core, (s.clusterCores (coreCluster core)).length)
    | .die => (s.logicalOf core, (s.coreMap (core / 36)).count)
    | .device => (s.moduleLogical core, s.activeTotal)
    | .lane => (0, 1)
    | .team => (0, 1)
    | .core => (0, 1)
  | some .nbhd => (nbIx, l.nbq)
  | some .cluster => (coreCluster core % 9, 9)
  | some .die => (core / 36, 6)
  | some .device => (0, 1)

/-! ## A start -/

/-- The lowest slot of a core that no team holds. DEDUCED: notes/assumptions/59. -/
def State.freeSlot (s : State) (core : Nat) : Nat :=
  lowestFree ((s.teamsOn core).filterMap (fun t => t.place.map (·.slot)))

/-- The carve-out of a core for a launch; a shrinking L1 writes its dirty lines back (09 R208). -/
def State.setCarve (s : State) (core code : Nat) : State :=
  let old := (s.core core).carve
  let dirty := (s.l1.filter (fun x => x.node = core && (x.st == .m || x.st == .o))).map (·.line)
  let s := if old < code then dirty.foldl (fun s line => s.writeBack core line) s else s
  s.mapCore core (fun c => { c with carve := code })

/-- The launch's S bytes on a core read as zero when no team of it is resident there and no operation of it names them
(09 R208). -/
def State.clearScratch (s : State) (l : Launch) (core : Nat) : State :=
  if l.spq = 0 || (s.teamsOn core).any (fun t => t.launch = l.id) || s.opNames l.id core then s
  else
    s.mapCore core (fun c => { c with
      scratch := c.scratch.filter (fun b => l.spq * 1024 ≤ b.1)
      scratchPoison := c.scratchPoison.filter (fun b => l.spq * 256 ≤ b.1) })

/-- The launch's die scratchpad exists on a die from its first start there (09 R209). -/
def State.occupyDie (s : State) (l : Launch) (die : Nat) : State :=
  if l.dscr = 0 || (s.dscratch? l.id die).isSome then s else { s with dscratch := s.dscratch ++ [⟨l.id, die, [], []⟩] }

/-- The die scratchpads of the live launches on a die never exceed 32 MiB (09 R209). -/
def State.dieScratchFits (s : State) (l : Launch) (die : Nat) : Bool :=
  l.dscr == 0 || (s.dscratch? l.id die).isSome
    || l.dscr + ((s.dscratch.filter (fun d => d.die = die)).map (fun d => ((s.launch? d.launch).map (·.dscr)).getD 0)).sum
      ≤ 32 * 2 ^ 20

/-- A team at its start on a core, without records (02 R46, R57; 09 R207; 16 R356). -/
def State.freshTeam (s : State) (l : Launch) (ix : Nat) (e : Entry) (gid : Word) (nbIx core : Nat) (id : TeamId) : Team :=
  let lv := fun (i : Nat) => s.levelValue l e gid nbIx core i
  { id := id
    gid := gid
    launch := l.id
    entry := ix
    nw := e.n
    alloc := e.alloc
    role := e.role
    pos := e.pos
    tix := e.tix
    nbRows := l.rows
    nbCols := l.cols
    blk := lowestFree ((s.teamsOf l.id).map (·.blk))
    die := core / 36
    place := some ⟨core, s.freeSlot core⟩
    savedOn := none
    lvid := Vector.ofFn (fun i => BitVec.ofNat 32 (lv i.val).1)
    lvext := Vector.ofFn (fun i => BitVec.ofNat 32 (lv i.val).2)
    sc := Scalar.start
    vregs := []
    masks := Vector.replicate 16 0
    kv := 0
    latches := []
    seq := 0
    tlpc := 0
    tlane := 0
    tk0 := 0
    lanePc := 0
    runLeft := 0
    chainPos := 0
    chainStart := 0
    pushes := 0
    chainReads := none
    chainLog := []
    eventVersion := none
    eventDirty := s.drogue.any (fun c => c.asid = l.asid && c.raised)
    startRecs := []
    refillRecs := []
    anew := false
    instrs := 0
    begun := []
    pendTrap := none
    xarr := none }

/-- The gang whose tagged BINCLOSE alone makes the start of an entry from a shard due: a start reads the close (11 R253). -/
def Launch.dueClose (l : Launch) (h : Shard) (e : Entry) : Option GangId :=
  match l.bin? h.bin with
  | some b => if l.testedEntry h = some e && h.recs.length < 32 * e.n && !h.expired && b.closed then b.closeTag else none
  | none => none

/-- One team started on a core: it takes its records, by lane from 0 upwards (02 R44, R46). The gang is live already. -/
def State.startTeam (s : State) (l : Launch) (ix : Nat) (e : Entry) (gid : Word) (nbIx core : Nat) : State :=
  let (no, s) := s.newTeamno (core / 36)
  let s := ((s.setCarve core l.carve).clearScratch l core).occupyDie l (core / 36)
  let t := s.freshTeam l ix e gid nbIx core ⟨l.asid, no⟩
  let close := (s.shard? l.id e.bin (core / 36)).bind (fun h => l.dueClose h e)
  match (match s.meetTag t.gang close with
    | .ok s => s.takeRecs l.id e.bin (core / 36) (32 * e.n) t.gang
    | .error x => .error x) with
  | .error _ => s
  | .ok (s, recs) =>
    let y := t.started l e ((List.range recs.length).zip recs)
    { s with teams := s.teams ++ [{ y with eventDirty := t.eventDirty, startRecs := recs }] }

/-- A shard after a start from it: its timer is set again, and the rotation passes on (13 R282, 02 R45). -/
def Launch.afterStart (l : Launch) (now seq : Nat) (h : Shard) : Shard :=
  let named := (List.range l.entries.length).filter (fun i => (l.entries[i]?).any (fun e => e.bin = h.bin))
  let next := ((named.find? (fun i => h.rot < i)).getD (named.headD 0))
  let h := { h with
    timer := if h.recs.isEmpty then none else (l.bin? h.bin).bind (fun b => b.deadline now)
    expired := false
    rot := if l.nb then h.rot else next }
  { h with ready := if l.shardReady h then some seq else none }

def State.startedFrom (s : State) (l : Launch) (bin die : Nat) : State :=
  match s.launch? l.id with
  | some x => { s.mapShard l.id bin die (x.afterStart s.clock s.readySeq) with readySeq := s.readySeq + 1 }
  | none => s

/-- A new gang of a launch (02 R37, 11 R252). -/
def State.newGang (s : State) (l : Launch) : Word × State :=
  let (gid, s) := s.newGid
  (gid, { s with gangs := s.gangs ++ [⟨⟨l.asid, gid⟩, l.id, l.relaunch, false, false, [], 0, []⟩] })

/-! ## Starts outside neighbourhoods (14 R312) -/

/-- Starts are made for a launch: it and its context are not being pre-empted, and every leaf controller has taken it (14 R311, R324). -/
def State.startsOpen (s : State) (l : Launch) : Bool :=
  l.lstate == .running && !l.preempted && !s.collections.any (fun c => .freeze l.asid ∈ c.purposes) && s.allNoted l.id && s.supply == .on

/-- A launch is being resumed: a leaf controller has still to take its RESUME (16 R361). -/
def State.resuming (s : State) (l : Nat) : Bool := s.links.any (fun k => k.down.contains (.resume l) || k.downWait.contains (.resume l))

/-- Pre-empted teams and groups that wait for placement on a die go first (14 R315). -/
def State.placementWaits (s : State) (die : Nat) : Bool :=
  let waits := fun (l : Launch) => !l.preempted || s.resuming l.id
  s.saveOrder.any (fun u =>
    match u with
    | .team t => (s.team? t).any (fun x => x.die = die && (s.launch? x.launch).any waits)
    | .ctrl cl => (s.group? cl).any (fun g => g.die = die && (s.launch? g.launch).any waits)
    | .op _ => false
    | .ballast _ => false)

/-- The eligible cores of a die for a team of an entry. -/
def State.eligible (s : State) (l : Launch) (e : Entry) (die : Nat) : List Nat :=
  (s.activeCores die).filter (fun c => s.coreFits [] l [e] c && s.teamQuota l s.newGid.1 [c]) |>.filter (fun _ => s.dieScratchFits l die)

/-- The core that R312 takes: fewest teams, then no carve-out change, then the lowest logical number. -/
def State.pickCore (s : State) (l : Launch) (cs : List Nat) : Option Nat :=
  let key := fun (c : Nat) => 2 * (s.teamsOn c).length + (if (s.core c).carve = l.carve then 0 else 1)
  cs.foldl (fun best c =>
    match best with
    | none => some c
    | some b => if key c < key b then some c else best) none

/-- The start that a shard's test makes now: its launch, entry and core (02 R44, R45; 14 R312). -/
def State.startFor (s : State) (h : Shard) : Option (Launch × Entry × Nat) :=
  match s.launch? h.launch with
  | none => none
  | some l =>
    match l.testedEntry h with
    | none => none
    | some e =>
      if !l.nb && s.startsOpen l && h.frozen.isNone && l.shardReady h && !s.placementWaits h.die then
        (s.pickCore l (s.eligible l e h.die)).map (fun c => (l, e, c))
      else none

/-- TEAM_START: a shard's start, unless a start whose shard was ready earlier on the die can be made first (14 R312). -/
def execTeamStart (lid bin die : Nat) (s : State) : Out :=
  match s.shard? lid bin die with
  | none => .next s
  | some h =>
    let earlier := s.shards.filter (fun x => x.die = die && x.ready.getD 0 < h.ready.getD 0 && (s.startFor x).isSome)
    match s.startFor h, earlier with
    | some (l, e, core), [] =>
      let (gid, s) := s.newGang l
      let s := (s.startTeam l h.rot e gid 0 core).startedFrom l bin die
      let ids := (s.teams.filter (fun t => t.gang = ⟨l.asid, gid⟩)).map (·.id)
      .next { s with barriers := s.barriers ++ l.barriers gid ids }
    | _, _ => .next s

/-! ## Neighbourhoods (02 R36, 14 R313, R314) -/

/-- The rectangles of a shape on a die, as their cores row by row, the upper-left ascending by site. -/
def rectangles (rows cols die : Nat) : List (List Nat) :=
  (List.range 36).filterMap (fun site =>
    if site / 6 + rows ≤ 6 ∧ site % 6 + cols ≤ 6 then
      some ((List.range (rows * cols)).map (fun i => 36 * die + site + 6 * (i / cols) + i % cols))
    else none)

/-- The entries at a position, with their indices. -/
def Launch.entriesAt (l : Launch) (p : Nat) : List Entry := l.entries.filter (fun e => e.pos = p)

/-- A rectangle in which every core is free for its position's teams (14 R313). -/
def State.rectangleFits (s : State) (l : Launch) (cores : List Nat) : Bool :=
  ((List.range cores.length).zip cores).all (fun x => (s.rectanglesOn x.2).isEmpty && s.coreFits [.start l.id] l (l.entriesAt x.1) x.2)

/-- The rectangle with the fewest resident teams, the lowest upper-left site first. -/
def State.pickRectangle (s : State) (rs : List (List Nat)) : Option (List Nat) :=
  let key := fun (r : List Nat) => (r.map (fun c => (s.teamsOn c).length)).sum
  rs.foldl (fun best r =>
    match best with
    | none => some r
    | some b => if key r < key b then some r else best) none

/-- The live neighbourhoods of a launch on a die. -/
def State.nbhdsOn (s : State) (l : Launch) (die : Nat) : List Word :=
  (((s.teamsOf l.id).filter (fun t => t.die = die)).map (·.gid)).eraseDups

/-- The cores of the teams of a neighbourhood in entry order, from its rectangle. -/
def Launch.teamCores (l : Launch) (rect : List Nat) : List Nat := l.entries.map (fun e => rect.getD e.pos 0)

/-- The candidates of a launch on a die that pass every quota. -/
def State.candidates (s : State) (l : Launch) (die : Nat) : List (List Nat) :=
  (rectangles l.rows l.cols die).filter (fun r =>
    s.rectangleFits l r && s.teamQuota l s.newGid.1 (l.teamCores r) && s.dieScratchFits l die)

/-- The shard of the lead team's bin on a die, when it calls for a neighbourhood (02 R36). -/
def State.leadReady (s : State) (l : Launch) (die : Nat) : Option Shard :=
  s.shards.find? (fun h => h.launch = l.id && h.die = die && h.frozen.isNone && l.shardReady h)

/-- The index of a new neighbourhood on a die: the lowest that no live one holds at its level (02 R42). -/
def State.newNbIx (s : State) (l : Launch) (die : Nat) : Nat :=
  match (List.range l.hier.length).find? (fun i => (l.hier[i]?).any (fun h => h.1 == .nbhd)) with
  | none => 0
  | some i =>
    lowestFree (((s.teamsOf l.id).filter (fun t => t.die = die)).map (fun t =>
      if h : i < 8 then (t.lvid.get ⟨i, h⟩).toNat else 0))

/-- Every team of a neighbourhood started, in entry order. -/
def State.startAll (l : Launch) (gid : Word) (nbIx : Nat) (rect : List Nat) : List (Nat × Entry) → State → State
  | [], s => s
  | (ix, e) :: rest, s => State.startAll l gid nbIx rect rest (s.startTeam l ix e gid nbIx (rect.getD e.pos 0))

/-- NEIGHBOURHOOD_START: a whole neighbourhood starts on a free rectangle. -/
def execNeighbourhoodStart (lid die : Nat) (s : State) : Out :=
  match s.launch? lid with
  | none => .next s
  | some l =>
    match s.leadReady l die, s.pickRectangle (s.candidates l die) with
    | some _, some rect =>
      if l.nb && s.startsOpen l && !s.placementWaits die && (s.nbhdsOn l die).length < l.nbq then
        let nbIx := s.newNbIx l die
        let (gid, s) := s.newGang l
        let s := State.startAll l gid nbIx rect ((List.range l.entries.length).zip l.entries) s
        let s := (l.entries.map (·.bin)).eraseDups.foldl (fun s b => s.startedFrom l b die) s
        let ids := (s.teams.filter (fun t => t.gang = ⟨l.asid, gid⟩)).map (·.id)
        .next { s with
          barriers := s.barriers ++ l.barriers gid ids
          reservations := s.reservations.filter (fun r => !(r.who = .start lid && r.die = die))
          waitingNb := s.waitingNb.filter (fun w => !(w.who = .start lid && w.die = die)) }
      else .next s
    | _, _ => .next s

/-- The rectangles of a launch's shape on a die whose cores are active and in its clusters. -/
def State.usableRects (s : State) (l : Launch) (die : Nat) : List (List Nat) :=
  (rectangles l.rows l.cols die).filter (fun r => r.all (fun c => s.isActive c && (s.launchClusters l).contains (coreCluster c)))

/-- A neighbourhood start of a launch on a die waits for a rectangle, and for nothing else (14 R314). DESIGN CHOICE: notes/assumptions/113. -/
def State.startLacksRect (s : State) (l : Launch) (die : Nat) : Bool :=
  l.nb && s.startsOpen l && !s.placementWaits die && (s.leadReady l die).isSome && (s.nbhdsOn l die).length < l.nbq
    && s.dieScratchFits l die && (s.usableRects l die).any (fun r => s.teamQuota l s.newGid.1 (l.teamCores r))
    && (s.candidates l die).isEmpty

/-! ## The urgency predictor (14 R317) -/

/-- The groups that the resident teams of a core belong to, each team with the instructions that it has retired since its last BAR.ARR in
the group or its start: barrier instances, and neighbourhood gangs, for which every instance of the gang counts. DESIGN CHOICE: notes/assumptions/107. -/
def State.groupsOn (s : State) (core : Nat) : List (List (Team × Nat)) :=
  let mine := (s.teamsOn core).map (·.id)
  let bars := s.barriers.filter (fun b => b.parts.any (fun p => p.team ∈ mine))
  let nbs := (((s.teamsOn core).filter (fun t => (s.launch? t.launch).any (·.nb))).map (·.gang)).eraseDups
  let base := fun (t : Team) => (s.barriers.filter (·.nbhd)).foldl (fun n b => Nat.max n (((b.part? t.id).map (·.base)).getD 0)) 0
  bars.map (fun b => b.parts.filterMap (fun p => (s.team? p.team).map (fun t => (t, t.instrs - p.base))))
    ++ nbs.map (fun g => (s.teams.filter (fun t => t.gang = g)).map (fun t => (t, t.instrs - base t)))

/-- The team of a group with the lowest count, ties to the lower slot. -/
def slowestOf (g : List (Team × Nat)) : Option (Team × Nat) :=
  g.foldl (fun best t =>
    match best with
    | none => some t
    | some b => if t.2 < b.2 || (t.2 == b.2 && t.1.slot < b.1.slot) then some t else best) none

/-- URGENCY_PREDICTOR_UPDATE: every 256 cycles the slowest team of each group is marked, with what it is behind the group's highest
count. -/
def execUrgencyPredictorUpdate (core : Nat) (s : State) : Out :=
  if s.clock % 256 != 0 then .next s
  else
    let slow := (s.groupsOn core).filterMap (fun g => (slowestOf g).map (fun t =>
      (t.1.id, (g.foldl (fun m x => Nat.max m x.2) 0) - t.2)))
    .next (s.mapCore core (fun c => { c with slowest := slow }))

end Sys2Proof.Machine
end

