-- ==== Sys2Proof/Machine/Save.lean ====
section
/-! DEFINITION. What a context switch saves and a resume puts back (spec/14 R315, R321, R324; spec/16 R348, R354): scratchpads that
leave their core and come back, teams and groups that wait for placement, and PREEMPTED_TEAM_PLACEMENT. -/

namespace Sys2Proof.Machine

/-! ## Scratchpads -/

def Storage.renamed (a b : Nat) : Storage → Storage
  | .global => .global
  | .scratch c => .scratch (if c = a then b else c)
  | .window cs => .window (cs.map (fun c => if c = a then b else c))
  | .dscratch d => .dscratch d

def TagLoc.renamed (a b : Nat) : TagLoc → TagLoc
  | .mem l => .mem l
  | .scratch c l => .scratch (if c = a then b else c) l
  | .dscratch x d l => .dscratch x d l

/-- Versions and operations of some launches that name one core's scratchpad name another's. -/
def State.renameScratch (s : State) (ls : Nat → Bool) (a b : Nat) : State :=
  let tagged := fun (t : VTag) => (s.gang? t.gang).any (fun g => ls g.launch)
  { s with
    tags := s.tags.map (fun t => if tagged t then { t with loc := t.loc.renamed a b } else t)
    ops := s.ops.map (fun o => if ls o.launch then { o with src := o.src.renamed a b, dst := o.dst.renamed a b } else o) }

/-- The contents of one core's scratchpad stand at another, with the versions on them and the operations of some launches that name them
(14 R324). -/
def State.moveScratch (s : State) (ls : Nat → Bool) (a b : Nat) : State :=
  let bytes := (s.core a).scratch
  let poison := (s.core a).scratchPoison
  let s := s.mapCore a (fun c => { c with scratch := [], scratchPoison := [] })
  (s.mapCore b (fun c => { c with scratch := bytes, scratchPoison := poison })).renameScratch ls a b

/-- The place where the next saved scratchpad stands. -/
def State.saveSlot (s : State) : Nat := 216 + lowestFree (s.savedScratch.map (fun x => x.at' - 216))

/-- The scratchpad of a core saved, its contents when the launch that it serves has any. Nothing of a launch outside the set changes. -/
def State.saveScratch (s : State) (set : Nat → Bool) (l : Launch) (core : Nat) (teams : List TeamId) (nb : Option (GangId × Nat)) : State :=
  let k := s.saveSlot
  let z : SavedScratch := ⟨l.id, core / 36, core, some (s.moduleLogical core), k, teams, nb⟩
  let s := if l.spq = 0 then s.renameScratch set core k else s.moveScratch set core k
  { s with savedScratch := s.savedScratch ++ [z] }

/-! ## Saving -/

/-- The window that an operation names. -/
def EngineOp.window (o : EngineOp) : List Nat :=
  match o.src, o.dst with
  | .window cs, _ => cs
  | _, .window cs => cs
  | _, _ => []

/-- The neighbourhood position of a core for the gang of a launch that holds it, or whose operation does. -/
def State.positionOn (s : State) (l : Launch) (core : Nat) : Option (GangId × Nat) :=
  match s.teams.find? (fun t => l.nb && t.launch = l.id && t.rectangle.contains core) with
  | some t => some (t.gang, t.rectangle.idxOf core)
  | none => (s.ops.find? (fun o => o.launch = l.id && o.st == .running && o.window.contains core)).map (fun o => (o.agentGang, o.window.idxOf core))

/-- The cores whose scratchpads the set uses: of its teams, of their rectangles, and those that its operations name. -/
def State.scratchCores (s : State) (ts : List TeamId) (os : List OpId) : List Nat :=
  let teams := s.teams.filter (fun t => t.id ∈ ts)
  let ops := s.ops.filter (fun o => o.id ∈ os)
  let of := fun (x : Storage) => match x with
    | .scratch c => [c]
    | .window cs => cs
    | .global => []
    | .dscratch _ => []
  ((teams.flatMap (fun t =>
      if (s.launch? t.launch).any (·.nb) then t.rectangle else (t.place.map (·.core)).toList))
    ++ ops.flatMap (fun o => of o.src ++ of o.dst)).eraseDups.filter (· < 216)

/-- The launch of the set that uses the scratchpad of a core, or else has teams there. DEDUCED: notes/assumptions/62. -/
def State.scratchLaunch (s : State) (ts : List TeamId) (os : List OpId) (core : Nat) : Option Launch :=
  let teams := s.teams.filter (fun t => t.id ∈ ts && (t.place.any (fun p => p.core = core) || t.rectangle.contains core))
  let ops := s.ops.filter (fun o => o.id ∈ os && (o.src.onCore core || o.dst.onCore core))
  let ls := (teams.map (·.launch) ++ ops.map (·.launch)).filterMap s.launch?
  match ls.find? (fun l => l.spq != 0) with
  | some l => some l
  | none => ls.head?

/-- The seat on a core of a matrix group that is saved under a number: apart from every seat on a core (08 R177). -/
def groupSeat (cl core : Nat) : Nat := 216 * cl + core

/-- A matrix group leaves its cluster: it is known by a number that no cluster has, and its array cores are seats of that number. -/
def Group.saved (n : Nat) (g : Group) : Group :=
  { g with cl := n, placed := false, arrays := g.arrays.map (fun a => { a with core := groupSeat n a.core }) }

/-- A team leaves its core and waits for placement, with its seat in its matrix group. -/
def Team.saved (seat : Option Nat) (t : Team) : Team := { t with savedOn := seat, place := none }

/-- An operation issued on an array core of a group that changes its number. -/
def EngineOp.follow (gs : List (Nat × Nat)) (o : EngineOp) : EngineOp :=
  { o with arr := o.arr.map (fun k => (((gs.find? (fun x => x.1 = k.1)).map (·.2)).getD k.1, k.2)) }

/-- The retired teams that a gang remembers keep their seats in matrix groups whose array cores are known by other numbers now. -/
def Gang.reseat (gs : List (Group × List Nat)) (x : Gang) : Gang :=
  let seat := fun (t : Team) =>
    match gs.find? (fun g => g.1.launch = t.launch && g.1.arrays.any (fun a => t.savedOn = some a.core)) with
    | some g => ((g.1.arrays.map (fun a => some a.core)).zip g.2).findSome? (fun y => if y.1 = t.savedOn then some y.2 else none)
    | none => t.savedOn
  { x with past := x.past.map (fun t => { t with savedOn := seat t }) }

/-- Every placed member of a set leaves its core. Groups go first, each under the next free number from 54 on; gs pairs clusters with
those numbers. -/
def State.unseat (s : State) (ts : List TeamId) (gs : List (Nat × Nat)) : State :=
  let number := fun (t : Team) =>
    match s.groupOfTeam t with
    | some g => (gs.find? (fun x => x.1 = g.cl)).map (·.2)
    | none => none
  let leave := fun (t : Team) =>
    match number t with
    | some n => t.saved (t.seat.map (groupSeat n))
    | none => if t.id ∈ ts && t.place.isSome then t.saved t.seat else t
  { s with
    teams := s.teams.map leave
    ops := s.ops.map (EngineOp.follow gs)
    gangs := s.gangs.map (Gang.reseat (gs.filterMap (fun x => (s.group? x.1).map (fun g => (g, g.arrays.map (fun a => groupSeat x.2 a.core))))))
    groups := s.groups.map (fun g =>
      match gs.find? (fun x => x.1 = g.cl) with
      | some (_, n) => g.saved n
      | none => g) }

/-- Free numbers for saved groups. -/
def State.groupNumbers (s : State) (cls : List Nat) : List (Nat × Nat) :=
  let used := s.groups.map (fun g => g.cl - 54)
  let base := used.foldl Nat.max 0 + 1
  (List.range cls.length).filterMap (fun i => (cls[i]?).map (fun c => (c, 54 + base + i)))

/-- The teams of a list in ascending TEAMNO. -/
def insertTeam (t : Team) : List Team → List Team
  | [] => [t]
  | x :: xs => if t.id.teamno.toNat ≤ x.id.teamno.toNat then t :: x :: xs else x :: insertTeam t xs

def sortTeams (ts : List Team) : List Team := ts.foldl (fun acc t => insertTeam t acc) []

/-- The members of a pre-emption saved, in ascending TEAMNO, control cores after the teams; their slots, registers, scratchpads and
route tags are released (14 R324 steps 3, 4). DESIGN CHOICE: notes/assumptions/58. -/
def State.saveMembers (s : State) (us : List UnitId) : State :=
  let ts := us.filterMap (fun u => match u with
    | .team t => some t
    | .ctrl _ => none
    | .op _ => none
    | .ballast _ => none)
  let os := us.filterMap (fun u => match u with
    | .op o => some o
    | .team _ => none
    | .ctrl _ => none
    | .ballast _ => none)
  let teams := sortTeams (s.teams.filter (fun t => t.id ∈ ts && t.place.isSome))
  let ctrls := (s.groups.filter (fun g => UnitId.ctrl g.cl ∈ us && g.placed)).map (·.cl)
  let cores := (teams.filterMap (fun t => t.place.map (·.core))).eraseDups
  let set := (((s.teams.filter (fun t => t.id ∈ ts)).map (·.launch)) ++ (s.ops.filter (fun o => o.id ∈ os)).map (·.launch)).contains
  let s := (s.scratchCores ts os).foldl (fun s core =>
    match s.scratchLaunch ts os core with
    | none => s
    | some l => s.saveScratch set l core ((s.teamsOn core).filter (fun t => t.id ∈ ts) |>.map (·.id)) (s.positionOn l core)) s
  let gs := s.groupNumbers ctrls
  let s := s.unseat ts gs
  let s := { s with
    saveOrder := s.saveOrder ++ teams.map (fun t => UnitId.team t.id) ++ gs.map (fun g => UnitId.ctrl g.2) }
  cores.foldl (fun s c => s.releasePriv c) s

/-! ## Co-resident groups (02 R51, 08 R177, 14 R324) -/

/-- Two saved teams are placed together: teams of one neighbourhood, of one matrix group, or of one SCRATCH record. DEDUCED:
notes/assumptions/61. -/
def State.together (s : State) (t u : Team) : Bool :=
  (t.gang = u.gang && (s.launch? t.launch).any (·.nb))
    || (match s.groupOfTeam t, s.groupOfTeam u with
      | some a, some b => a.cl = b.cl
      | _, _ => false)
    || s.savedScratch.any (fun z => z.teams.contains t.id && z.teams.contains u.id)

/-- Teams that wait with every team that is placed together with one of them. -/
def State.gather (s : State) : Nat → List Team → List Team
  | 0, ts => ts
  | n + 1, ts =>
    State.gather s n (ts ++ s.teams.filter (fun u => u.place.isNone && !ts.any (fun t => t.id = u.id) && ts.any (fun t => s.together t u)))

/-- The teams of a saved matrix group. -/
def State.membersOf (s : State) (g : Group) : List Team :=
  s.teams.filter (fun t => t.launch = g.launch && t.place.isNone && t.seat.any (fun c => g.arrays.any (fun a => a.core = c)))

/-- The co-resident group of a saved unit: its teams and its matrix groups. -/
def State.waitingGroup (s : State) (u : UnitId) : List Team × List Group :=
  let seed := match u with
    | .ctrl cl => (s.group? cl).elim [] s.membersOf
    | .team t => (s.team? t).toList
    | .op _ => []
    | .ballast _ => []
  let own := match u with
    | .ctrl cl => (s.group? cl).toList
    | .team _ => []
    | .op _ => []
    | .ballast _ => []
  let ts := s.gather s.teams.length seed
  (ts, (own ++ ts.filterMap s.groupOfTeam).eraseDups)

/-! ## Placing -/

/-- A way to place a co-resident group: the core of each team, each matrix group's new cluster with its array cores, and the rectangle of each
neighbourhood. seats pairs the cores that were left with those that take their place. -/
structure Placing where
  teams : List (TeamId × Nat)
  groups : List (Nat × Nat × List Nat)
  rects : List (GangId × List Nat)
  seats : List (Nat × Nat)
  deriving DecidableEq, Repr

/-- What a team left: its core, or its seat in a saved group; a team that left none is known by its number. -/
def Team.left (t : Team) : Nat := t.savedOn.getD (10 ^ 6 + t.id.teamno.toNat)

/-- The choices for a matrix group: the first active cores of a cluster of its die take the places of its array cores. One that has not left
its cluster stays. -/
def State.groupChoices (s : State) (g : Group) : List Placing :=
  if g.placed then [⟨[], [], [], g.arrays.map (fun a => (a.core, a.core))⟩]
  else
    ((List.range 9).map (· + 9 * g.die)).filterMap (fun cl =>
      let cores := (s.clusterCores cl).take g.arrays.length
      if cores.length = g.arrays.length then
        some ⟨[], [(g.cl, cl, cores)], [], (g.arrays.map (·.core)).zip cores⟩
      else none)

/-- The choices for a neighbourhood: the rectangles of its shape. -/
def nbhdChoices (die : Nat) (ts : List Team) (g : GangId) : List Placing :=
  match ts.find? (fun t => t.gang = g) with
  | none => []
  | some x =>
    (rectangles x.nbRows x.nbCols die).map (fun r =>
      ⟨[], [], [(g, r)], (ts.filter (fun t => t.gang = g)).map (fun t => (t.left, r.getD t.pos 0))⟩)

/-- Two choices agree: no core that was left goes to two cores, and no core takes the place of two. -/
def Placing.join (p q : Placing) : Option Placing :=
  let agree := fun (x y : Nat × Nat) => (x.1 != y.1 || x.2 == y.2) && (x.2 != y.2 || x.1 == y.1 || 10 ^ 6 ≤ Nat.max x.1 y.1)
  if q.seats.all (fun x => p.seats.all (agree x)) then
    some ⟨[], p.groups ++ q.groups, p.rects ++ q.rects, (p.seats ++ q.seats).eraseDups⟩
  else none

/-- The placings of a co-resident group on a die, in order of preference: its matrix groups and neighbourhoods whole, and its other teams
where those stand that they were listed with. DEDUCED: notes/assumptions/60. -/
def State.placings (s : State) (die : Nat) (ts : List Team) (gs : List Group) : List Placing :=
  let nbs := ((ts.filter (fun t => (s.launch? t.launch).any (·.nb))).map (·.gang)).eraseDups
  let bound := fun (c : Nat) => gs.any (fun g => g.arrays.any (fun a => a.core = c))
    || ts.any (fun t => t.left = c && nbs.contains t.gang)
  let loose := ((ts.map Team.left).eraseDups).filter (fun c => !bound c)
  let parts := gs.map s.groupChoices ++ nbs.map (nbhdChoices die ts)
    ++ loose.map (fun c => (s.activeCores die).map (fun d => (⟨[], [], [], [(c, d)]⟩ : Placing)))
  let both := fun (ps qs : List Placing) => ps.flatMap (fun p => qs.filterMap (Placing.join p))
  let all := parts.foldl both [⟨[], [], [], []⟩]
  all.map (fun (p : Placing) => { p with teams := ts.map (fun t => (t.id, ((p.seats.find? (fun x => x.1 = t.left)).map (·.2)).getD 0)) })

/-- A matrix group on a new cluster and its array cores. -/
def Group.moved (cl : Nat) (cores : List Nat) (g : Group) : Group :=
  { g with cl := cl, placed := true, arrays := (g.arrays.zip cores).map (fun x => { x.1 with core := x.2 }) }

def State.moveGroups (s : State) (p : Placing) : State :=
  let seats := p.groups.filterMap (fun x => (s.group? x.1).map (fun g => (g, x.2.2)))
  let s := p.groups.foldl (fun s g => s.mapGroup g.1 (Group.moved g.2.1 g.2.2)) s
  { s with
    gangs := s.gangs.map (Gang.reseat seats)
    ops := s.ops.map (EngineOp.follow (p.groups.map (fun g => (g.1, g.2.1)))) }

/-- The teams that a placing puts on a core, as launches and entries. -/
def Placing.newOn (p : Placing) (s : State) (core : Nat) : List (Launch × Entry) :=
  (p.teams.filter (fun x => x.2 = core)).filterMap (fun x =>
    (s.team? x.1).bind (fun t => (s.launch? t.launch).bind (fun l => (l.entries[t.entry]?).map (fun e => (l, e)))))

/-- New teams of several launches meet R309 on a core together. -/
def State.allFit (s : State) (ws : List Waiter) (new : List (Launch × Entry)) (core : Nat) : Bool :=
  let ls := (new.map (·.1)).eraseDups
  let of := fun (l : Launch) => (new.filter (fun x => x.1 = l)).map (·.2)
  ls.all (fun l => s.coreFits ws l (of l) core && (!l.nb || (s.rectanglesOn core).isEmpty) && ls.all (fun k => k.carve = l.carve))
    && (s.teamsOn core).length + new.length ≤ 16 && s.registersFit core (new.map (·.2))
    && s.tagsUsed core + (ls.map (fun l => l.tagsFor (of l).length)).sum ≤ 8

/-- A core of a neighbourhood's rectangle is free for it, whether or not a team of it is placed there (09 R208, 14 R310, R313). -/
def State.cornerFits (s : State) (g : GangId) (core : Nat) : Bool :=
  match (s.gang? g).bind (fun x => s.launch? x.launch) with
  | some l => (s.rectanglesOn core).isEmpty && s.coreFits [.resume g] l [] core
  | none => false

/-- The cluster of a moved matrix group is its launch's, with a free control core in service (08 R177, 16 R346). -/
def State.clusterFits (s : State) (g : Nat × Nat × List Nat) : Bool :=
  match (s.group? g.1).bind (fun x => s.launch? x.launch) with
  | some l => !s.noMatrix.contains g.2.1 && (s.launchClusters l).contains g.2.1 && (s.group? g.2.1).isNone
  | none => false

/-- The saved scratchpads of a placing's teams, each with the core that it goes to. -/
def State.scratchMoves (s : State) (p : Placing) : List (SavedScratch × Nat) :=
  s.savedScratch.filterMap (fun z =>
    match z.nb.bind (fun n => (p.rects.find? (fun r => r.1 = n.1)).map (fun r => r.2.getD n.2 0)) with
    | some core => some (z, core)
    | none =>
      if z.nb.isSome then none else (p.teams.find? (fun x => z.teams.contains x.1)).map (fun x => (z, x.2)))

/-- The teams of a launch on a core share its scratchpad, or form an instance of a level (02 R40, R41). -/
def Launch.sharesCore (l : Launch) : Bool := l.spq != 0 || l.hier.any (fun h => h.1 == .core || h.2 == .scratch)

/-- Each saved scratchpad goes to a core of its own, which its launch does not use: what one core held stays together and apart from the rest
(02 R41, 14 R324). -/
def State.scratchSeats (s : State) (p : Placing) : Bool :=
  let ms := s.scratchMoves p
  let users := fun (z : SavedScratch) => z.launch :: (z.teams.filterMap s.team?).map (·.launch)
  ms.all (fun m => ((users m.1).filterMap s.launch?).all (fun l => !l.sharesCore
    || ((s.teamsOn m.2).all (fun t => t.launch != l.id) && !s.opNames l.id m.2
      && ms.all (fun n => n.1.at' = m.1.at' || !(users n.1).contains l.id || n.2 != m.2))))

/-- A placing meets R309 on every core, its control cores are free and have matrix service, its neighbourhoods' rectangles are free, and the
die scratchpads fit (09 R209; 14 R313, R315; 08 R177). -/
def State.placingFits (s : State) (die : Nat) (p : Placing) : Bool :=
  let s' := s.moveGroups p
  p.groups.all s.clusterFits && p.rects.all (fun r => r.2.all (s'.cornerFits r.1))
    && s.scratchSeats p && (p.teams.map (·.2)).eraseDups.all (fun c => s'.allFit (p.rects.map (fun r => .resume r.1)) (p.newOn s c) c)
    && p.teams.all (fun x => ((s.team? x.1).bind (fun t => s.launch? t.launch)).all (fun l => s.dieScratchFits l die))

/-- The carve-out changes that a placing makes. -/
def State.carveChanges (s : State) (p : Placing) : Nat :=
  (p.teams.filter (fun x => ((s.team? x.1).bind (fun t => s.launch? t.launch)).any (fun l => (s.core x.2).carve != l.carve))).length

/-- The placing with the fewest resident teams, then without carve-out changes, then the first (14 R312, R313). -/
def State.pickPlacing (s : State) (ps : List Placing) : Option Placing :=
  let key := fun (p : Placing) =>
    1000 * (((p.teams.map (·.2) ++ p.rects.flatMap (·.2)).eraseDups).map (fun c => (s.teamsOn c).length)).sum + s.carveChanges p
  ps.foldl (fun best p =>
    match best with
    | none => some p
    | some b => if key p < key b then some p else best) none

/-- A relaunched team that starts where it is placed: its level values and its private block as at a start, on a scratchpad that its launch
finds as at a start (11 R256; 02 R42, R43; 09 R207–R209). -/
def State.startAnew (s : State) (l : Launch) (e : Entry) (x : Team) (core : Nat) : State :=
  let s := { s with teams := s.teams.filter (fun t => t.id ≠ x.id) }
  let nbIx := ((s.teams.find? (fun t => t.gang = x.gang && !t.anew)).map (fun t =>
    ((t.lvid.toList.zip (l.hier.map (·.1))).find? (fun y => y.2 == .nbhd)).elim 0 (·.1.toNat))).getD (s.newNbIx l (core / 36))
  let lv := fun (i : Nat) => s.levelValue l e x.gid nbIx core i
  let y : Team := { x with
    anew := false
    eventDirty := s.drogue.any (fun c => c.asid = l.asid && c.raised)
    blk := lowestFree ((s.teamsOf l.id).map (·.blk))
    lvid := Vector.ofFn (fun i => BitVec.ofNat 32 (lv i.val).1)
    lvext := Vector.ofFn (fun i => BitVec.ofNat 32 (lv i.val).2) }
  let s := (s.clearScratch l core).occupyDie l (core / 36)
  { s with teams := s.teams ++ [y] }

/-- One team placed; its operations go on from there. -/
def State.placeTeam (s : State) (t : TeamId) (core : Nat) : State :=
  match (s.team? t).bind (fun x => (s.launch? x.launch).bind (fun l => (l.entries[x.entry]?).map (fun e => (x, l, e)))) with
  | none => s
  | some (x, l, e) =>
    let s := s.setCarve core l.carve
    let s := if x.anew then s.startAnew l e x core else s
    let slot := s.freeSlot core
    let dirty := s.drogue.any (fun c => c.later.contains t)
    let s := s.mapTeam t (fun x => { x with place := some ⟨core, slot⟩, savedOn := none, eventDirty := x.eventDirty || dirty })
    let s : State := { s with drogue := s.drogue.map (fun c => { c with later := c.later.filter (· ≠ t) }) }
    { s with ops := s.ops.map (fun o => if o.id.team = t then { o with core := core } else o) }

/-- The contents of a saved scratchpad put on a core. -/
def State.installScratch (s : State) (z : SavedScratch) (core : Nat) : State :=
  match s.launch? z.launch with
  | some l => if l.spq = 0 then s.renameScratch (fun _ => true) z.at' core else (s.setCarve core l.carve).moveScratch (fun _ => true) z.at' core
  | none => s

/-- A die scratchpad that waits is installed on its die. -/
def State.installDie (s : State) (l die : Nat) : State :=
  { s with
    dscratch := s.dscratch.map (fun d => if d.launch = l && d.die = die + 6 then { d with die := die } else d)
    tags := s.tags.map (fun t => match t.loc with
      | .dscratch x d k => if x = l && d = die + 6 then { t with loc := .dscratch x die k } else t
      | .mem _ => t
      | .scratch _ _ => t) }

/-- A co-resident group placed whole (14 R315, R324). -/
def State.place (s : State) (die : Nat) (p : Placing) : State :=
  let moves := s.scratchMoves p
  let ls := p.teams.filterMap (fun x => (s.team? x.1).map (·.launch))
  let s := s.moveGroups p
  let s := p.teams.foldl (fun s x => s.placeTeam x.1 x.2) (ls.foldl (fun s l => s.installDie l die) s)
  let s := moves.foldl (fun s m => s.installScratch m.1 m.2) s
  let ids := p.teams.map (·.1)
  { s with
    savedScratch := s.savedScratch.filter (fun z => !moves.any (fun m => m.1.at' = z.at'))
    saveOrder := s.saveOrder.filter (fun u =>
      !ids.any (fun i => u = UnitId.team i) && !p.groups.any (fun g => u = UnitId.ctrl g.1))
    reservations := s.reservations.filter (fun r => !p.rects.any (fun x => r.who = .resume x.1))
    waitingNb := s.waitingNb.filter (fun w => !p.rects.any (fun x => w.who = .resume x.1)) }

/-- A launch whose saved teams may be placed: it runs, neither it nor a matrix group of it is being pre-empted, and its leaf controllers
have taken RESUME. -/
def State.mayPlace (s : State) (l : Launch) : Bool :=
  l.lstate == .running && !l.preempted && s.supply == .on
    && !s.collections.any (fun c => s.groups.any (fun g => g.launch = l.id && UnitId.ctrl g.cl ∈ c.members))
    && !s.resuming l.id

/-- The launch and die of a unit that waits for placement. -/
def State.waitingOn (s : State) (u : UnitId) : Option (Launch × Nat) :=
  match u with
  | .team t => (s.team? t).bind (fun x => if x.place.isNone then (s.launch? x.launch).map (fun l => (l, x.die)) else none)
  | .ctrl cl => (s.group? cl).bind (fun g => if g.placed then none else (s.launch? g.launch).map (fun l => (l, g.die)))
  | .op _ => none
  | .ballast _ => none

/-- The launches of a waiting unit's whole group. -/
def State.waitingLaunches (s : State) (u : UnitId) : List Nat :=
  let g := s.waitingGroup u
  (g.1.map (·.launch) ++ g.2.map (·.launch)).eraseDups

/-- The unit that is to be placed next on a die: the first that was pre-empted of those whose whole group has been resumed, or is being
resumed; none goes before it meanwhile (14 R315, 16 R354). -/
def State.nextWaiting (s : State) (die : Nat) : Option UnitId :=
  (s.saveOrder.find? (fun u => (s.waitingOn u).any (fun x => x.2 = die)
    && (s.waitingLaunches u).all (fun l => (s.launch? l).any s.mayPlace || s.resuming l))).filter
      (fun u => (s.waitingLaunches u).all (fun l => (s.launch? l).any s.mayPlace))

/-- The placing of a waiting unit's group that is taken now. -/
def State.placingFor (s : State) (die : Nat) (u : UnitId) : Option Placing :=
  let g := s.waitingGroup u
  s.pickPlacing ((s.placings die g.1 g.2).filter (s.placingFits die))

/-- A scratchpad that no team of its record uses is installed on a core as for a team of its launch (14 R312, R324). -/
def State.placeScratch (s : State) (l : Launch) (z : SavedScratch) : State :=
  let room := (s.activeCores z.die).filter (fun c => s.coreFits [] l (l.entries.take 1) c && (s.teamsOn c).all (fun t => t.launch != l.id)
    && !s.opNames l.id c)
  match s.pickCore l room with
  | none => s
  | some c => { s.installScratch z c with savedScratch := s.savedScratch.filter (fun y => y.at' ≠ z.at') }

/-- A window that no team of its neighbourhood uses is installed on a rectangle of its die in the same way. -/
def State.placeWindow (s : State) (l : Launch) (z : SavedScratch) (g : GangId) : State :=
  match s.pickRectangle ((rectangles l.rows l.cols z.die).filter (fun r => r.all (fun c =>
    (s.rectanglesOn c).isEmpty && s.coreFits [] l [] c && !s.opNames l.id c))) with
  | none => s
  | some r =>
    let zs := s.savedScratch.filter (fun y => y.nb.any (fun n => n.1 = g))
    let s := zs.foldl (fun s y => s.installScratch y (r.getD ((y.nb.map (·.2)).getD 0) 0)) s
    { s with savedScratch := s.savedScratch.filter (fun y => !zs.any (fun x => x.at' = y.at')) }

/-- Storage that waits on a die with no team of its own: a scratchpad, a window or a die scratchpad. -/
def State.placeStorage (s : State) (die : Nat) : State :=
  let idle := fun (z : SavedScratch) => z.die = die && (s.launch? z.launch).any s.mayPlace
    && (match z.nb with
      | some (g, _) => !s.teams.any (fun t => t.gang = g)
      | none => z.teams.all (fun t => (s.team? t).isNone))
  match s.savedScratch.find? idle with
  | some z =>
    match s.launch? z.launch, z.nb with
    | some l, some (g, _) => s.placeWindow l z g
    | some l, none => s.placeScratch l z
    | none, _ => s
  | none =>
    match s.dscratch.find? (fun d => d.die = die + 6 && (s.launch? d.launch).any (fun l => s.mayPlace l && s.dieScratchFits l die)) with
    | some d => s.installDie d.launch die
    | none => s

/-- PREEMPTED_TEAM_PLACEMENT: the unit that was pre-empted first, of those that wait on a die, is placed with its whole group; no
later one goes before it (14 R315, 16 R354). -/
def execPreemptedTeamPlacement (die : Nat) (s : State) : Out :=
  match s.nextWaiting die with
  | some u =>
    match s.placingFor die u with
    | some p => .next (s.place die p)
    | none => .next s
  | none => .next (s.placeStorage die)

/-! ## Reservations (14 R314) -/

/-- The neighbourhood whose whole-group resume on a die waits for a rectangle: the group that is placed next there, when no placing of it is
free. -/
def State.resumeLacksRect (s : State) (die : Nat) : Option RectWait :=
  match s.nextWaiting die with
  | none => none
  | some u =>
    match (s.waitingGroup u).1.find? (fun t => (s.launch? t.launch).any (·.nb)) with
    | some t => if (s.placingFor die u).isNone then some ⟨.resume t.gang, t.launch, die, s.clock⟩ else none
    | none => none

/-- The groups that wait for a rectangle and for nothing else, as from now: starts of launches, and whole-group resumes. -/
def State.lackRects (s : State) : List RectWait :=
  s.launches.flatMap (fun l => ((List.range 6).filter (s.startLacksRect l)).map (fun d => ⟨.start l.id, l.id, d, s.clock⟩))
    ++ (List.range 6).filterMap s.resumeLacksRect

def RectWait.same (a b : RectWait) : Bool := a.who = b.who && a.die = b.die

/-- The groups that wait for a rectangle, each since when, in the order of their arrival; time is about to pass. -/
def State.markWaits (s : State) : State :=
  if s.launches.all (fun l => !l.nb) then { s with waitingNb := [] }
  else
    let now := s.lackRects
    let kept := s.waitingNb.filter (fun w => now.any w.same)
    { s with waitingNb := kept ++ now.filter (fun x => !kept.any x.same) }

/-- NEIGHBOURHOOD_RESERVATION: after 1 ms without a rectangle the arbiter reserves the one with the fewest resident teams. A die
holds one reservation, and further groups queue in their arrival order. -/
def execNeighbourhoodReservation (lid die : Nat) (s : State) : Out :=
  match s.launch? lid, s.waitingNb.find? (fun w => w.die = die) with
  | some l, some w =>
    if w.launch = lid && s.lackRects.any w.same && w.since + 1000 * Config.cyclesPerUs ≤ s.clock && !s.reservations.any (fun r => r.die = die) then
      match s.pickRectangle (s.usableRects l die) with
      | some r => .next { s with reservations := s.reservations ++ [⟨die, w.who, lid, r⟩] }
      | none => .next s
    else .next s
  | _, _ => .next s

/-! ## Resuming -/

/-- The shard from which a team of a request starts and refills (13 R280). -/
def State.shardOfMember (s : State) (us : List UnitId) (h : Shard) : Bool :=
  s.teams.any (fun t => UnitId.team t.id ∈ us && t.launch = h.launch && t.die = h.die && (s.entryOf t).any (fun e => e.bin = h.bin))

/-- A shard's time runs again, from what its SHARD record holds (14 R324, 21 R395). -/
def Shard.thawed (now : Nat) (h : Shard) : Shard :=
  match h.frozen with
  | none => h
  | some 0 => { h with frozen := none }
  | some (_ + 1) => { h with frozen := none, timer := some (now + h.remaining * Config.cyclesPerUs) }

/-- The shards of a launch judged again, one after another. -/
def State.settleLaunch (s : State) (l : Nat) : State :=
  ((s.shards.filter (fun h => h.launch = l)).map (fun h => (h.bin, h.die))).foldl (fun s x => s.changeShard l x.1 x.2 id) s

/-- A launch's teams may be placed and its shards run again, but for those that another pre-emption holds. -/
def State.resumed (s : State) (l : Nat) : State :=
  if s.collections.any (fun c => c.launches.contains l) then s
  else
    ({ s.mapLaunch l (fun x => { x with preempted := false }) with
      shards := s.shards.map (fun h =>
        if h.launch = l && !s.collections.any (fun c => s.shardOfMember c.members h) then h.thawed s.clock else h) } : State).settleLaunch l

/-- RESUME: when every leaf controller of a launch has taken it, its teams may be placed and its shards run again
(14 R324, 16 R361). -/
def execResume (cl : Nat) (s : State) : Out :=
  match (s.link cl).down.head? with
  | some (.resume l) =>
    let s := s.setLink (s.link cl).tookDown
    if s.links.any (fun k => k.down.contains (.resume l) || k.downWait.contains (.resume l)) then .next s
    else .next (s.resumed l)
  | _ => .next s

end Sys2Proof.Machine
end

