-- ==== Sys2Proof/Machine/Shake.lean ====
section
/-! DEFINITION. SHAKE256, the hash of images and signed content (spec/16 R347, spec/18 R385). The spec names it and does not define it:
the function is that of FIPS 202 (PRESUMED, notes/assumptions/11). -/

namespace Sys2Proof.Machine

/-- The parity of column x of a state of 25 words, word x + 5y standing in column x of plane y. -/
def columnParity (a : List DWord) (x : Nat) : DWord :=
  (List.range 5).foldl (fun p y => p ^^^ a.getD (x + 5 * y) 0) 0

/-- Each word with the parities of the columns beside its own. -/
def withParities (a : List DWord) : List DWord :=
  a.mapIdx (fun i w => w ^^^ columnParity a ((i + 4) % 5) ^^^ (columnParity a ((i + 1) % 5)).rotateLeft 1)

/-- The words turned and moved along the walk that leaves (x, y) for (y, 2x + 3y): the one met t-th turns by t(t + 1)/2 places. -/
def alongWalk : Nat → Nat → Nat → Nat → List DWord → List DWord → List DWord
  | 0, _, _, _, _, moved => moved
  | left + 1, t, x, y, a, moved =>
    let y' := (2 * x + 3 * y) % 5
    alongWalk left (t + 1) y y' a (moved.set (y + 5 * y') ((a.getD (x + 5 * y) 0).rotateLeft (t * (t + 1) / 2 % 64)))

/-- Each word with the two that follow it in its plane. -/
def acrossPlane (a : List DWord) : List DWord :=
  a.mapIdx (fun i w =>
    let next := fun k => a.getD (i - i % 5 + (i + k) % 5) 0
    w ^^^ (next 2 &&& ~~~next 1))

/-- The shift register whose low bit gives the round constants, stepped. -/
def constStep (r : Byte) : Byte := if r.getLsbD 7 then (r <<< 1) ^^^ 0x71 else r <<< 1

/-- A round constant, whose bits 2^j - 1 come from the register, and the register after it. -/
def roundConst (r : Byte) : DWord × Byte :=
  (List.range 7).foldl (fun (c : DWord × Byte) j =>
    (if c.2.getLsbD 0 then c.1 ^^^ (1#64 <<< (2 ^ j - 1)) else c.1, constStep c.2)) (0, r)

/-- The rounds that are left, on a state and the register. -/
def keccakRounds : Nat → List DWord → Byte → List DWord
  | 0, a, _ => a
  | left + 1, a, r =>
    let mixed := withParities a
    let turned := acrossPlane (alongWalk 24 1 1 0 mixed mixed)
    let (c, r) := roundConst r
    keccakRounds left (turned.set 0 (turned.headD 0 ^^^ c)) r

def keccak (a : List DWord) : List DWord := keccakRounds 24 a 1

/-- A block of 136 bytes absorbed. -/
def shakeAbsorb (a : List DWord) (block : List Byte) : List DWord :=
  keccak ((List.range 25).map (fun i =>
    a.getD i 0 ^^^ (if i < 17 then BitVec.ofNat 64 (natOfBytes ((block.drop (8 * i)).take 8)) else 0)))

def shakeBlocks : Nat → List Byte → List DWord → List DWord
  | 0, _, a => a
  | n + 1, bs, a => shakeBlocks n (bs.drop 136) (shakeAbsorb a (bs.take 136))

/-- The first n bytes, at most 136, of SHAKE256 over some bytes. -/
def shake256 (n : Nat) (bs : List Byte) : List Byte :=
  let pad := 136 - bs.length % 136
  let tail : List Byte := if pad = 1 then [0x9F] else 0x1F :: (List.replicate (pad - 2) 0 ++ [0x80])
  let a := shakeBlocks (bs.length / 136 + 1) (bs ++ tail) (List.replicate 25 0)
  (a.flatMap (fun w => natBytes 8 w.toNat)).take n

end Sys2Proof.Machine
end

