-- ==== Sys2Proof/Machine/Image.lean ====
section
/-! DEFINITION. The Gondola image of a context as FREEZE and the Drogue write it (spec/16 R347–R350, R400; spec/17 R371;
spec/21 R395). The context's teams and groups are saved when it is made. -/

namespace Sys2Proof.Machine

/-! ## Byte structures -/

/-- Fields at offsets from a position, with zeros between them. -/
def layout : Nat → List (Nat × List Byte) → List Byte
  | _, [] => []
  | pos, (off, bs) :: rest => List.replicate (off - pos) 0 ++ bs ++ layout (Nat.max pos off + bs.length) rest

def padTo (n : Nat) (bs : List Byte) : List Byte := bs ++ List.replicate ((n - bs.length % n) % n) 0

/-- Bits packed eight to a byte, the first lowest. -/
def packBits : Nat → List Bool → List Byte
  | 0, _ => []
  | n + 1, bs =>
    BitVec.ofNat 8 (((List.range 8).zip bs).foldl (fun v x => if x.2 then v + 2 ^ x.1 else v) 0) :: packBits n (bs.drop 8)

/-- Words and then their poison bits, in the bytes that they take. -/
def pwordBytes (ws : List PWord) : List Byte := ws.flatMap (fun w => natBytes 4 w.val.toNat)
def pwordPoison (ws : List PWord) : List Byte := packBits ((ws.length + 7) / 8) (ws.map (·.poison))

/-- A record: its ID and its body after the prefix. -/
structure ImgRec where
  id : Nat
  body : List Byte
  deriving DecidableEq, Repr

def ImgRec.bytes (r : ImgRec) : List Byte :=
  let n := (8 + r.body.length + 127) / 128 * 128
  padTo 128 (natBytes 4 n ++ natBytes 4 r.id ++ r.body)

def insertRec (r : ImgRec) : List ImgRec → List ImgRec
  | [] => [r]
  | x :: xs => if r.id < x.id then r :: x :: xs else x :: insertRec r xs

/-- Records in ascending ID order. -/
def sortRecs (rs : List ImgRec) : List ImgRec := rs.foldl (fun acc r => insertRec r acc) []

/-- Keys compare as lists of numbers. -/
def keyLt : List Nat → List Nat → Bool
  | [], [] => false
  | [], _ => true
  | _, [] => false
  | a :: as, b :: bs => a < b || (a == b && keyLt as bs)

def insertKeyed (r : List Nat × List Byte) : List (List Nat × List Byte) → List (List Nat × List Byte)
  | [] => [r]
  | x :: xs => if keyLt r.1 x.1 then r :: x :: xs else x :: insertKeyed r xs

/-- Bodies numbered from 0 in ascending order of their keys. DEDUCED: notes/assumptions/70. -/
def ordinals (rs : List (List Nat × List Byte)) : List ImgRec :=
  let sorted := rs.foldl (fun acc r => insertKeyed r acc) []
  ((List.range sorted.length).zip sorted).map (fun x => ⟨x.1, x.2.2⟩)

/-! ## The context -/

/-- The live launches of a context, in the order of their launch indices. -/
def State.contextLaunches (s : State) (asid : Byte) : List Launch :=
  s.launches.filter (fun l => l.asid = asid && l.lstate == .running)

def launchIndex (ls : List Launch) (l : Nat) : Nat := (ls.map (·.id)).idxOf l

def inContext (ls : List Launch) (l : Nat) : Bool := ls.any (fun x => x.id = l)

/-- A 57-bit address as programs hold it (15 R326). -/
def fullVa (v : Nat) : Nat := if v < 2 ^ 56 then v else v + 2 ^ 64 - 2 ^ 57

/-- The lowest address at which leaves map a physical address. -/
def vaOf (leaves : List Leaf) (pa : Nat) : Option Nat :=
  (leaves.find? (fun f => pteFrame f.e ≤ pa && pa < pteFrame f.e + 2 ^ levelShift f.level)).map (fun f =>
    fullVa (f.va + (pa - pteFrame f.e)))

/-! ## Records -/

/-- A LAUNCH record. -/
def Launch.imageBody (l : Launch) : List Byte :=
  layout 0 [(0x000, natBytes 4 (l.queue % 65536)), (0x008, natBytes 8 l.caddr.toNat), (0x010, natBytes 8 l.cval.toNat),
    (0x018, natBytes 4 l.kills), (0x020, l.raw)]

/-- A handle (13 R290); an idle one is zero. -/
def Handle.image (h : Handle) : List Byte :=
  if h.st = .idle then natBytes 8 0 else natBytes 8 (2 ^ 61 * h.st.code + 2 ^ 57 * h.cls.code + h.seq.toNat)

def Role.code : Role → Nat
  | .vector => 0
  | .feed => 1
  | .drain => 2

/-- GEOM with the entry index (R349). -/
def Team.geom (t : Team) (bin : Nat) : Nat :=
  (t.nw - 1) + 2 ^ 5 * (t.alloc / 8 - 1) + 2 ^ 10 * t.role.code + 2 ^ 12 * t.pos + 2 ^ 15 * t.tix + 2 ^ 18 * t.entry + 2 ^ 24 * bin

/-- The lane registers of a team, register by register. -/
def Team.laneWords (t : Team) : List PWord :=
  (List.range t.alloc).flatMap (fun i => (List.range t.lanes).map (fun j => smGet PWord.zero t.vregs (1024 * i + j)))

/-- The scalar registers with s0 as zero. -/
def Scalar.words (sc : Scalar) : List PWord := (List.range 64).map (fun i => sc.reg (BitVec.ofNat 6 i))

/-- A TEAM record (R349). -/
def Team.imageBody (t : Team) (index bin : Nat) : List Byte :=
  let sc := t.sc
  layout 0 [(0x000, natBytes 4 t.id.teamno.toNat ++ natBytes 4 t.gid.toNat ++ natBytes 4 index ++ natBytes 4 (t.geom bin)),
    (0x010, natBytes 4 t.blk ++ natBytes 4 t.die ++ natBytes 8 t.seq.toNat),
    (0x020, natBytes 8 sc.pc.toNat ++ natBytes 4 t.lanePc ++ natBytes 4 t.runLeft),
    (0x030, natBytes 4 sc.fmt.toNat ++ natBytes 4 t.tstat.toNat ++ natBytes 4 sc.tcause.toNat ++ natBytes 4 sc.tdetail.toNat),
    (0x040, natBytes 8 sc.tvec.toNat ++ natBytes 8 sc.tpc.toNat ++ natBytes 8 sc.taddr.toNat ++ natBytes 8 sc.pgpool.toNat),
    (0x060, natBytes 4 t.tlpc.toNat ++ natBytes 4 t.tlane.toNat ++ pwordPoison sc.words),
    (0x070, t.lvid.toList.flatMap (fun w => natBytes 4 w.toNat)), (0x090, t.lvext.toList.flatMap (fun w => natBytes 4 w.toNat)),
    (0x100, sc.handles.toList.flatMap Handle.image), (0x180, pwordBytes sc.words),
    (0x280, t.masks.toList.flatMap (fun k => natBytes 128 k.toNat) ++ natBytes 128 t.kv.toNat),
    (0xB00, natBytes 128 t.tk0.toNat), (0xB80, pwordBytes t.laneWords ++ packBits (4 * t.nw * t.alloc) (t.laneWords.map (·.poison)))]

/-- The words of an array core's banks and accumulators, in the order of a MATRIX block. -/
def ArrayState.words (a : ArrayState) : List PWord :=
  a.ab.toList.flatMap (fun k => (List.range 1056).map (fun w => k.word false w))
    ++ a.bb.toList.flatMap (fun k => (List.range 2240).map (fun w => k.word true w))
    ++ a.acc.toList.flatMap (fun c => (List.range 8192).map (fun e => c.elem e))

/-- The phases word of an array core. -/
def ArrayState.phases (a : ArrayState) : Nat :=
  let bits := fun (n : Nat) (bs : List Bool) => ((List.range 4).zip bs).foldl (fun v x => if x.2 then v + 2 ^ (n + x.1) else v) 0
  bits 0 (a.ab.toList.map (·.full)) + bits 4 (a.bb.toList.map (·.full)) + bits 8 (a.acc.toList.map (·.drain))
    + bits 12 (a.bb.toList.map (·.z))

/-- An array block of a MATRIX record. -/
def ArrayState.imageBlock (a : ArrayState) : List Byte :=
  layout 0 [(0, natBytes 4 a.phases), (0x80, pwordBytes a.words), (0x2CE80, packBits 5744 (a.words.map (·.poison))), (0x2E500, [])]

/-- A MATRIX record: the operations of its queues, array core by array core, each queue in order. DEDUCED: notes/assumptions/73. -/
def Group.imageBody (g : Group) : List Byte :=
  let sc := g.sc
  let ops := g.arrays.flatMap (·.queue)
  layout 0 [(0x000, natBytes 4 g.arrays.length), (0x008, natBytes 8 sc.pc.toNat),
    (0x010, natBytes 4 sc.fmt.toNat ++ natBytes 4 sc.tstat.toNat ++ natBytes 4 sc.tcause.toNat ++ natBytes 4 sc.tdetail.toNat),
    (0x020, natBytes 8 sc.tvec.toNat ++ natBytes 8 sc.tpc.toNat ++ natBytes 8 sc.taddr.toNat ++ natBytes 8 sc.pgpool.toNat),
    (0x040, pwordPoison sc.words), (0x048, natBytes 4 ops.length),
    (0x050, (ops.take 8).flatMap (fun o => natBytes 4 o.word.toNat ++ natBytes 4 o.fmt.toNat)),
    (0x090, sc.handles.toList.flatMap Handle.image), (0x110, pwordBytes sc.words), (0x210, g.arrays.flatMap (·.imageBlock))]

/-- n bytes of a scratchpad, and their poison bits. -/
def State.scratchBytes (s : State) (core n : Nat) : List Byte := (s.core core).scratch.readBytes 0 n
def State.scratchMarks (s : State) (core n : Nat) : List Byte :=
  packBits (n / 32) ((List.range (n / 4)).map (fun w => smGet false (s.core core).scratchPoison w))

/-- The launch under which a SCRATCH record of a core stands in an image: the one that the scratchpad serves, or else one of the image with
teams there. -/
def State.scratchFor (s : State) (ls : List Launch) (z : SavedScratch) : Option Launch :=
  match ls.find? (fun l => l.id = z.launch) with
  | some l => some l
  | none => ls.find? (fun l => z.teams.any (fun t => (s.team? t).any (fun x => x.launch = l.id)))

/-- A core has a SCRATCH record: a team was resident there, or an operation names its scratchpad (14 R324 step 3). -/
def State.hasScratchRec (s : State) (z : SavedScratch) : Bool :=
  z.nb.isNone || !z.teams.isEmpty || s.ops.any (fun o => o.src = .scratch z.at' || o.dst = .scratch z.at')

/-- A SCRATCH record. DEDUCED: notes/assumptions/69. -/
def State.scratchBody (s : State) (index : Nat) (l : Launch) (z : SavedScratch) : List Byte :=
  let n := if l.id = z.launch then l.spq * 1024 else 0
  let ts := z.teams.filter (fun t => t.asid = l.asid)
  layout 0 [(0x000, natBytes 4 index ++ natBytes 4 z.die ++ natBytes 4 n ++ natBytes 4 ts.length),
    (0x010, (ts.take 16).flatMap (fun t => natBytes 4 t.teamno.toNat)),
    (0x050, s.scratchBytes z.at' n ++ s.scratchMarks z.at' n)]

/-- The code of a shape (R347). -/
def shapeCode (rows cols : Nat) : Nat := [(1, 1), (1, 2), (2, 1), (1, 3), (3, 1), (2, 2), (2, 3), (3, 2)].idxOf (rows, cols)

/-- An NBHD record of a gang. -/
def State.nbhdBody (s : State) (index : Nat) (l : Launch) (g : GangId) : List Byte :=
  let n := l.spq * 1024
  let ts := s.teams.filter (fun t => t.gang = g)
  let die := (ts.map (·.die) ++ (s.savedScratch.filter (fun z => z.nb.any (fun n => n.1 = g))).map (·.die)).headD 0
  let cells := (List.range 24).map (fun i =>
    ((ts.find? (fun t => t.pos = i / 4 && t.tix = i % 4)).map (fun t => t.id.teamno.toNat)).getD 0xFFFFFFFF)
  let places := (List.range (l.rows * l.cols)).map (fun p =>
    ((s.savedScratch.find? (fun z => z.nb = some (g, p))).map (·.at')).getD 215999)
  layout 0 [(0x000, natBytes 4 index ++ natBytes 4 die ++ natBytes 4 (shapeCode l.rows l.cols) ++ natBytes 4 n),
    (0x010, cells.flatMap (natBytes 4)),
    (0x070, places.flatMap (fun c => s.scratchBytes c n) ++ places.flatMap (fun c => s.scratchMarks c n))]

/-- A DSCR record: the die scratchpads of a die. -/
def State.dscrBody (s : State) (ls : List Launch) (die : Nat) : List Byte :=
  let own := ls.filterMap (fun l => (s.dscratch.find? (fun d => d.launch = l.id && d.die % 6 = die)).map (fun d => (l, d)))
  natBytes 8 own.length ++ own.flatMap (fun x =>
    let l := x.1
    let d := x.2
    padTo 8 (layout 0 [(0, natBytes 4 (launchIndex ls l.id)), (8, natBytes 8 l.dscr),
      (16, d.bytes.readBytes 0 l.dscr ++ packBits (l.dscr / 32) ((List.range (l.dscr / 4)).map (smGet false d.poison)))]))

/-- A BARRIER record (17 R371). -/
def Barrier.imageBody (b : Barrier) (index : Nat) : List Byte :=
  let bits := fun (f : Part → Bool) =>
    ((List.range b.parts.length).zip b.parts).foldl (fun v x => if f x.2 then v + 2 ^ x.1 else v) 0
  let flag := fun (c : Bool) (n : Nat) => if c then 2 ^ n else 0
  layout 0 [(0x00, natBytes 4 index),
    (0x04, natBytes 4 (b.name.toNat + flag b.nbhd 3 + 2 ^ 8 * b.parts.length + flag b.abn 16 + flag b.pbpois 17 + 2 ^ 18 * b.lstat.toNat)),
    (0x08, natBytes 8 b.pb.toNat), (0x10, natBytes 4 b.phase.toNat), (0x14, natBytes 4 (bits (·.arrived))),
    (0x18, b.parts.flatMap (fun p => natBytes 4 p.team.teamno.toNat ++ natBytes 4 p.arrph.toNat)),
    (0xD8, natBytes 4 (bits (·.pend)))]

def Rec.bytes (r : Rec) : List Byte := [r.w0, r.w1, r.w2, r.w3].flatMap (fun w => natBytes 4 w.toNat)

/-- A SHARD record. -/
def Shard.imageBody (h : Shard) (index : Nat) (b : Bin) : List Byte :=
  let n := h.recs.length
  let tags := h.recs.filterMap (·.tag)
  let closed := (if b.closed then 1 else 0) + (if b.closeTag.isSome then 2 else 0)
  layout 0 [(0x000, natBytes 4 index ++ natBytes 4 h.bin ++ natBytes 4 h.die ++ natBytes 4 closed),
    (0x010, natBytes 4 h.remaining ++ natBytes 4 h.rot ++ natBytes 4 n ++ natBytes 4 ((b.closeTag.map (·.gid.toNat)).getD 0)),
    (0x020, h.recs.flatMap Rec.bytes ++ padTo 8 (packBits ((n + 7) / 8) (h.recs.map (·.tag.isSome)))
      ++ tags.flatMap (fun g => natBytes 4 g.gid.toNat))]

/-- The ID of the SCRATCH record of a saved scratchpad: the module logical core that it was saved from. -/
def State.scratchTag (s : State) (z : SavedScratch) : Nat := z.tag.getD (s.moduleLogical z.from')

/-- A storage key (R400). -/
def State.storageKey (s : State) (ls : List Launch) (o : EngineOp) : Storage → Nat
  | .global => 0
  | .scratch c =>
    match s.savedScratch.find? (fun z => z.at' = c) with
    | some z => 2 ^ 62 + s.scratchTag z
    | none => 0
  | .window _ => 2 * 2 ^ 62 + o.gid.toNat
  | .dscratch d => 3 * 2 ^ 62 + 2 ^ 16 * launchIndex ls o.launch + d

/-- An ENGINE record. -/
def State.engineBody (s : State) (ls : List Launch) (o : EngineOp) : List Byte :=
  let flag := fun (c : Bool) (n : Nat) => if c then 2 ^ n else 0
  layout 0 [(0x000, natBytes 4 o.id.team.teamno.toNat ++ natBytes 4 o.handle.toNat ++ natBytes 4 o.cls.code),
    (0x00C, natBytes 4 (flag o.fault 0 + flag o.sup 1 + flag o.count.isSome 2 + 2 ^ 4 * ((o.count.map (·.toNat)).getD 0))),
    (0x010, natBytes 8 o.id.seq.toNat ++ natBytes 8 o.pc.toNat ++ natBytes 8 o.desc.toNat ++ natBytes 8 o.pgpool.toNat),
    (0x030, natBytes 8 o.prog ++ natBytes 8 o.addr.toNat),
    (0x040, natBytes 8 (s.storageKey ls o o.src) ++ natBytes 8 (s.storageKey ls o o.dst))]

/-- A CLASS record of a granule. -/
def State.classBody (s : State) (va : Nat) (c : GClass) : List Byte :=
  let (code, core) := match c with
    | .uncl => (0, 0)
    | .priv n w => (1 + (if w then 4 else 0), s.moduleLogical n)
    | .ro => (2, 0)
    | .shared => (3, 0)
  natBytes 8 va ++ natBytes 4 code ++ natBytes 4 core

/-- The CLASS records of a context: of every classified granule that it maps, by address. -/
def State.classRecs (s : State) (leaves : List Leaf) : List ImgRec :=
  ordinals (s.classes.filterMap (fun x => (vaOf leaves (65536 * x.1)).map (fun va => ([va], s.classBody va x.2))))

/-! ## Versions (11 R252) -/

/-- What a version of a line holds: what stands under the next version above it, or what the line holds. -/
def State.versionData (s : State) (t : VTag) : List Byte × List Bool :=
  let above := (s.tags.dropWhile (fun x => x != t)).drop 1
  match above.find? (fun x => x.loc = t.loc) with
  | some x => (x.bytes, x.poison)
  | none => (s.locBytes t.loc.base 128, s.linePoison t.loc)

/-- The storage key and offset of an undo copy. -/
def State.undoKey (s : State) (ls : List Launch) : TagLoc → Nat × Nat
  | .mem l => (0, 128 * l)
  | .scratch c l =>
    match s.savedScratch.find? (fun z => z.at' = c) with
    | some z =>
      match z.nb with
      | some (g, p) =>
        let n := ((s.launch? z.launch).map (fun l => l.spq * 1024)).getD 0
        (2 * 2 ^ 62 + g.gid.toNat, n * p + 128 * l)
      | none => (2 ^ 62 + s.scratchTag z, 128 * l)
    | none => (2 ^ 62, 128 * l)
  | .dscratch x d l => (3 * 2 ^ 62 + 2 ^ 16 * launchIndex ls x + d % 6, 128 * l)

def TagLoc.isMem : TagLoc → Bool
  | .mem _ => true
  | .scratch _ _ => false
  | .dscratch _ _ _ => false

/-- A VERSION record of a gang. -/
def State.versionBody (s : State) (ls : List Launch) (leaves : List Leaf) (g : Gang) : List Byte :=
  let mine := s.tags.filter (fun t => t.gang = g.id)
  let lines := (mine.filter (·.loc.isMem)).map (fun t =>
    let va := (vaOf leaves (match t.loc with
      | .mem l => 128 * l
      | .scratch _ _ => 0
      | .dscratch _ _ _ => 0)).getD 0
    let (bytes, poison) := s.versionData t
    natBytes 8 va ++ bytes ++ packBits 4 poison ++ natBytes 4 0)
  let undo := (mine.filter (fun t => !t.loc.isMem)).map (fun t =>
    let (key, off) := s.undoKey ls t.loc
    natBytes 8 key ++ natBytes 8 off ++ t.bytes ++ packBits 4 t.poison ++ natBytes 4 0)
  layout 0 [(0x000, natBytes 4 (launchIndex ls g.launch) ++ natBytes 4 g.deps.length ++ natBytes 4 lines.length ++ natBytes 4 undo.length),
    (0x010, natBytes 4 g.kills),
    (0x018, g.deps.flatMap (fun d => natBytes 4 d.gid.toNat ++ natBytes 4 d.asid.toNat) ++ lines.flatten ++ undo.flatten)]

/-! ## The image (R347) -/

/-- The neighbourhoods of some launches, each with its launch: of their teams, and of saved windows that no team uses any more (14 R324). -/
def State.nbhdsOf (s : State) (ls : List Launch) : List (GangId × Nat) :=
  let own := inContext ls
  ((s.teams.filter (fun t => (s.launch? t.launch).any (fun l => l.nb && own l.id))).map (fun t => (t.gang, t.launch))
    ++ s.savedScratch.filterMap (fun z => if own z.launch then z.nb.map (fun n => (n.1, z.launch)) else none)).eraseDups

/-- The sections of a context, by ascending TYPE. -/
def State.sections (s : State) (ls : List Launch) (leaves : List Leaf) (classes : List ImgRec) : List (Nat × List ImgRec) :=
  let own := inContext ls
  let ix := launchIndex ls
  let binOf := fun (l e : Nat) => (((s.launch? l).bind (fun x => x.entries[e]?)).map (·.bin)).getD 0
  let nbs := s.nbhdsOf ls
  let withLaunch := fun (l : Nat) (f : Launch → ImgRec) => ((s.launch? l).map f).toList
  [(0x01, ls.map (fun l => ⟨ix l.id, l.imageBody⟩)),
   (0x02, sortRecs ((s.teams.filter (fun t => own t.launch)).map (fun t =>
     ⟨t.id.teamno.toNat, t.imageBody (ix t.launch) (binOf t.launch t.entry)⟩))),
   (0x03, sortRecs ((s.groups.filter (fun g => own g.launch)).map (fun g => ⟨g.home, g.imageBody⟩))),
   (0x04, sortRecs ((s.savedScratch.filter s.hasScratchRec).filterMap (fun z =>
     (s.scratchFor ls z).map (fun l => ⟨s.scratchTag z, s.scratchBody (ix l.id) l z⟩)))),
   (0x05, sortRecs (nbs.flatMap (fun x => withLaunch x.2 (fun l => ⟨x.1.gid.toNat, s.nbhdBody (ix l.id) l x.1⟩)))),
   (0x06, ((List.range 6).filter (fun d => s.dscratch.any (fun x => x.die % 6 = d && own x.launch))).map (fun d => ⟨d, s.dscrBody ls d⟩)),
   (0x07, ordinals ((s.barriers.filter (fun b => own b.launch)).map (fun b =>
     let low := b.parts.foldl (fun m p => Nat.min m p.team.teamno.toNat) (2 ^ 32)
     ([ix b.launch, if b.nbhd then 1 else 0, low, b.name.toNat], b.imageBody (ix b.launch))))),
   (0x08, sortRecs ((s.shards.filter (fun h => own h.launch)).flatMap (fun h =>
     withLaunch h.launch (fun l => ⟨512 * ix h.launch + 8 * h.bin + h.die,
       match l.bin? h.bin with
       | some b => h.imageBody (ix h.launch) b
       | none => []⟩)))),
   (0x09, ordinals ((s.ops.filter (fun o => own o.launch && !o.joined)).map (fun o =>
     ([o.id.team.teamno.toNat, o.handle.toNat], s.engineBody ls o)))),
   (0x0A, classes),
   (0x0B, sortRecs ((s.gangs.filter (fun g => own g.launch && g.prot && !g.hardened)).map (fun g =>
     ⟨g.id.gid.toNat, s.versionBody ls leaves g⟩)))].filter (fun x => !x.2.isEmpty)

/-- The bytes of sections one after another, and their directory entries. -/
def placeSections : Nat → List (Nat × List ImgRec) → List Byte × List Byte
  | _, [] => ([], [])
  | pos, (ty, rs) :: rest =>
    let bs := rs.flatMap ImgRec.bytes
    let (dir, body) := placeSections (pos + bs.length) rest
    (natBytes 4 ty ++ natBytes 4 rs.length ++ natBytes 8 pos ++ dir, bs ++ body)

/-- The shapes of the neighbourhoods saved. -/
def State.shapesOf (s : State) (ls : List Launch) : Nat :=
  let codes := ((ls.filter (fun l => (s.nbhdsOf ls).any (fun n => n.2 = l.id))).map (fun l => shapeCode l.rows l.cols)).eraseDups
  codes.foldl (fun v c => v + 2 ^ c) 0

/-- The image of a context. -/
def State.gondola (s : State) (asid : Byte) (byDrogue : Bool) (classes : List ImgRec) : List Byte :=
  let ls := s.contextLaunches asid
  let sects := s.sections ls (s.leaves asid) classes
  let start := (0x80 + 16 * sects.length + 127) / 128 * 128
  let (dir, body) := placeSections start sects
  let head := fun (digest : List Byte) =>
    layout 0 [(0x00, natBytes 4 0x4C444E47 ++ natBytes 4 1), (0x08, s.fwacc.toList.flatMap (fun w => natBytes 4 w.toNat)),
      (0x18, natBytes 4 (asid.toNat + if byDrogue then 256 else 0) ++ natBytes 4 sects.length),
      (0x20, (List.range 6).map (fun d => BitVec.ofNat 8 (s.coreMap d).count)), (0x28, natBytes 8 (s.shapesOf ls)),
      (0x30, natBytes 8 (((s.asidCopy? asid).map (·.dbbase)).getD 0)), (0x38, natBytes 8 (start + body.length)),
      (0x40, digest), (0x80, dir), (start, body)]
  let zero := head (List.replicate 32 0)
  head (shake256 32 zero)

end Sys2Proof.Machine
end

