-- ==== Sys2Proof/Machine/Hbm.lean ====
section
/-! DEFINITION. What a stack holds beside its data: check values of sectors and the parity of blocks, and how a block is decoded
(spec/11 R245–R247). -/

namespace Sys2Proof.Machine

/-! ## Check values (R245) -/

/-- One bit step of the CRC with polynomial 0x1021. -/
def crcBit (c : Half) : Half := if c.getLsbD 15 then (c <<< 1) ^^^ 0x1021 else c <<< 1

def crcByte (c : Half) (b : Byte) : Half := (List.range 8).foldl (fun c _ => crcBit c) (c ^^^ (b.setWidth 16 <<< 8))

/-- The CRC of a sector at an address: over its data and then its address bits [51:5]. DESIGN CHOICE: notes/assumptions/30. -/
def sectorCrc (pa : Nat) (data : List Byte) : Half := (data ++ natBytes 6 (pa / 32)).foldl crcByte 0xFFFF

/-- The check value that is stored with a sector. -/
def checkValue (pa : Nat) (data : List Byte) (poisoned : Bool) : Half :=
  if poisoned then sectorCrc pa data ^^^ 0xFFFF else sectorCrc pa data

/-- What a read of a sector finds. -/
inductive SectorRead | good | poisoned | mismatch
  deriving DecidableEq, Repr

/-- The check of a read. -/
def sectorRead (pa : Nat) (data : List Byte) (check : Half) : SectorRead :=
  if check = sectorCrc pa data then .good else if check = sectorCrc pa data ^^^ 0xFFFF then .poisoned else .mismatch

/-! ## The field of the code (R246) -/

/-- A symbol times x, modulo x^16 + x^12 + x^3 + x + 1. -/
def gfDouble (a : Half) : Half := if a.getLsbD 15 then (a <<< 1) ^^^ 0x100B else a <<< 1

def gfMul (a b : Half) : Half :=
  (List.range 16).foldl (fun r i => if b.getLsbD (15 - i) then gfDouble r ^^^ a else gfDouble r) 0

def gfSquares : Nat → Half → List Half
  | 0, _ => []
  | n + 1, a => gfMul a a :: gfSquares n (gfMul a a)

/-- The inverse of a symbol that is not 0: its power 2^16 - 2. -/
def gfInv (a : Half) : Half := (gfSquares 15 a).foldl gfMul 1

/-- x to a power. -/
def gfPow : Nat → Half
  | 0 => 1
  | n + 1 => gfDouble (gfPow n)

/-- A symbol divided by x. -/
def gfHalve (a : Half) : Half := if a.getLsbD 0 then ((a ^^^ 0x100B) >>> 1) ||| 0x8000 else a >>> 1

/-- x to a power below 0. -/
def gfRoot : Nat → Half
  | 0 => 1
  | n + 1 => gfHalve (gfRoot n)

/-- The value of a polynomial, whose highest coefficient comes first. -/
def polyAt (p : List Half) (x : Half) : Half := p.foldl (fun v c => gfMul v x ^^^ c) 0

/-- The value of a polynomial, whose lowest coefficient comes first. -/
def polyAtLow (p : List Half) (x : Half) : Half := polyAt p.reverse x

/-- A polynomial, lowest coefficient first, plus another times a symbol and a power of its variable. -/
def polyAddMul (p q : List Half) (c : Half) (shift : Nat) : List Half :=
  (List.range (Nat.max p.length (q.length + shift))).map (fun i =>
    p.getD i 0 ^^^ (if i < shift then 0 else gfMul c (q.getD (i - shift) 0)))

/-! ## Parity (R246) -/

/-- The 16 low coefficients, highest first, of the polynomial with the roots x^0 to x^15. DESIGN CHOICE: notes/assumptions/117. -/
def generator : List Half :=
  ((List.range 16).foldl (fun g i => polyAddMul (0 :: g) g (gfPow i) 0) ([1] : List Half)).reverse.drop 1

/-- The 16 parity symbols of a block: the remainder that makes data and parity, in this order, a multiple of the generator. -/
def parityOf (data : List Half) : List Half :=
  data.foldl (fun r d =>
    let f := r.headD 0 ^^^ d
    ((r.drop 1 ++ [0]).zip generator).map (fun (x : Half × Half) => x.1 ^^^ gfMul f x.2)) (List.replicate 16 0)

/-- Where the parity of the block at an offset of a stack lies in the stack: in its top sixteenth, above the 45 GiB of data. -/
def parityOffset (o : Nat) : Nat := 45 * 2 ^ 30 + 32 * (o / 512)

/-- The syndromes of a word of the code: all 0 when no symbol is wrong. -/
def syndromes (word : List Half) : List Half := (List.range 16).map (fun i => polyAt word (gfPow i))

/-! ## Decoding (R246, R247) -/

/-- The search for the shortest recurrence of the syndromes: the recurrence so far and its length, the one before the length last grew, the
discrepancy then, and the steps since. -/
structure Locator where
  loc : List Half
  len : Nat
  prev : List Half
  disc : Half
  gap : Nat
  deriving DecidableEq, Repr

/-- The recurrence after one more syndrome. -/
def Locator.step (syn : List Half) (k : Locator) (n : Nat) : Locator :=
  let d := (List.range (k.len + 1)).foldl (fun d i => d ^^^ gfMul (k.loc.getD i 0) (syn.getD (n - i) 0)) 0
  if d = 0 then { k with gap := k.gap + 1 }
  else
    let loc := polyAddMul k.loc k.prev (gfMul d (gfInv k.disc)) k.gap
    if 2 * k.len ≤ n then ⟨loc, n + 1 - k.len, k.loc, d, 1⟩ else { k with loc := loc, gap := k.gap + 1 }

def locator (syn : List Half) : Locator := (List.range 16).foldl (Locator.step syn) ⟨[1], 0, [1], 1, 1⟩

/-- What is wrong in the coefficient of x^n, when the locator says that one is: x^(-n) is then one of its roots. -/
def errorAt (syn : List Half) (k : Locator) (place : Nat) : Half :=
  let inv := gfRoot place
  if polyAtLow k.loc inv != 0 then 0
  else
    let omega := (List.range 16).map (fun n => (List.range (n + 1)).foldl (fun v i => v ^^^ gfMul (k.loc.getD i 0) (syn.getD (n - i) 0)) 0)
    let slope := k.loc.mapIdx (fun i c => if i % 2 = 1 then c else 0)
    gfMul (gfMul (gfPow place) (polyAtLow omega inv)) (gfInv (polyAtLow (slope.drop 1) inv))

/-- A word of 272 symbols decoded: the word of the code that differs from it in at most 8 symbols, if there is one. -/
def decodeBlock (word : List Half) : Option (List Half) :=
  let syn := syndromes word
  let k := locator syn
  let fixed := word.mapIdx (fun i c => c ^^^ errorAt syn k (271 - i))
  if k.len ≤ 8 && (syndromes fixed).all (· == 0) then some fixed else none

/-! ## Symbols and bytes -/

/-- Little-endian halfwords. -/
def symbolsOf (bs : List Byte) : List Half :=
  (List.range (bs.length / 2)).map (fun i => bs.getD (2 * i + 1) 0 ++ bs.getD (2 * i) 0)

def bytesOf (ss : List Half) : List Byte := ss.flatMap (fun s => [s.extractLsb' 0 8, s.extractLsb' 8 8])

/-- The wrong bits of symbol i of what a read finds: 0–255 data, 256–271 parity, 272–287 the sectors' check values. -/
def wrongBits (errs : List SymErr) (i : Nat) : Half := (errs.filter (fun e => e.ix = i)).foldl (fun f e => f ^^^ e.flip) 0

end Sys2Proof.Machine
end

