-- ==== Sys2Proof/Machine/Repair.lean ====
section
/-! DEFINITION. Errors of memory and on-chip arrays, links, spares and retirement (spec/11 R245–R248, R257, R258; spec/16 R344–R346),
and the alert log (spec/18 R387). -/

namespace Sys2Proof.Machine

/-! ## Alerts (18 R387) -/

/-- A new entry of the alert log, and its interrupt. DEDUCED: notes/assumptions/78. -/
def State.alert (s : State) (code die part : Nat) : State :=
  { s with
    alerts := s.alerts.setIfInBounds s.alertIx (BitVec.ofNat 8 code ++ BitVec.ofNat 8 die ++ BitVec.ofNat 16 part)
    alertIx := (s.alertIx + 1) % 64
    interrupts := s.interrupts + 1 }

/-! ## Core maps (16 R344–R346) -/

/-- A change of a die's core-map block, with its generation. -/
def State.changeMap (s : State) (die : Nat) (f : CoreMap → CoreMap) : State :=
  if h : die < 6 then
    let m := s.coreMaps.get ⟨die, h⟩
    { s with coreMaps := s.coreMaps.set die { f m with gen := m.gen + 1 } h }
  else s

/-- The leaf controllers are told of a die's recomputed maps (16 R361). -/
def State.reportMap (s : State) (die : Nat) : State := (List.range 54).foldl (fun s cl => s.sendDown cl (.mapchg die)) s

/-- An L1 gives its lines up, and the core's constant cache. -/
def State.emptyL1 (s : State) (node : Nat) : State :=
  ((s.l1.filter (fun x => x.node = node)).map (·.line)).foldl (fun s line => s.writeBack node line)
    { s with constLines := s.constLines.filter (fun x => x.1 ≠ node) }

def CoreMap.retireSite (site : Nat) (m : CoreMap) : CoreMap := { m with retire := m.retire ||| (1#36 <<< site) }

/-- A core is retired: its RETIRE bit, the maps, and the reservations that include it (R344–R346). -/
def State.retireCore (s : State) (core : Nat) : State :=
  if s.isActive core then
    let die := core / 36
    let s := (s.emptyL1 core).changeMap die (CoreMap.retireSite (core % 36))
    let s := { s with reservations := s.reservations.filter (fun r => !r.cores.contains core) }
    let s := s.reportMap die
    if (s.coreMap die).count < 32 then s.alert 0x01 die (core % 36) else s
  else s

/-- MAPCHG: a leaf controller takes recomputed core maps. -/
def execMapchg (cl : Nat) (s : State) : Out :=
  match (s.link cl).down.head? with
  | some (.mapchg _) => .next (s.setLink (s.link cl).tookDown)
  | _ => .next s

/-! ## What brings a spare into use (11 R258) -/

/-- Cycles of a number of seconds. -/
def seconds (n : Nat) : Nat := n * 10 ^ 6 * Config.cyclesPerUs

def dayCycles : Nat := seconds 86400

/-- k of the times lie within n cycles of each other. -/
def within' (n k : Nat) (times : List Nat) : Bool :=
  times.any (fun t => k ≤ (times.filter (fun u => t ≤ u && u ≤ t + n)).length)

def State.partCount (s : State) (p : PartId) : PartCount := (s.counts.find? (fun c => c.part = p)).getD ⟨p, [], false⟩

/-- An error counted against a part. -/
def State.countPart (s : State) (p : PartId) (uncorrected : Bool) : State :=
  let c := s.partCount p
  { s with counts := s.counts.filter (fun x => x.part ≠ p) ++ [⟨p, c.times ++ [s.clock], c.uncorrected || uncorrected⟩] }

/-- When a unit of a core failed its shadow check. -/
def State.shadowTimes (s : State) (core : Nat) (array : Bool) (q col : Nat) : List Nat :=
  ((s.core core).shadow.filter (fun r => r.array == array && r.quadrant = q && r.column = col)).map (·.time)

/-- The trigger of R258 for a part has been met. -/
def State.triggered (s : State) (p : PartId) : Bool :=
  let c := s.partCount p
  match p with
  | .laneUnit core q col => within' (10 ^ 6) 2 (s.shadowTimes core false q col) || c.uncorrected
  | .arrayColumn core q col => within' (10 ^ 6) 2 (s.shadowTimes core true q col)
  | .core _ => true
  | .controlCore _ => within' dayCycles 2 c.times
  | .l2Way _ _ => within' dayCycles 16 c.times
  | .hbmRow _ _ _ => within' dayCycles 2 c.times || c.uncorrected
  | .pseudoChannel _ _ => true
  | .linkLane _ _ => within' (seconds 1) 1000 c.times

/-- The dies that a link joins or serves (01 R9, R10). -/
def linkDies : LinkId → List Nat
  | .dieToDie i _ => [[0, 1], [1, 2], [3, 4], [4, 5], [0, 3], [1, 4], [2, 5]].getD i []
  | .iod i _ => if i = 0 then [0, 1, 2] else [3, 4, 5]
  | .myvemi _ _ => List.range 6

/-- The cores that are cleared while a part is replaced. DEDUCED: notes/assumptions/81. -/
def partCleared : PartId → List Nat
  | .laneUnit core _ _ => [core]
  | .arrayColumn core _ _ => [core]
  | .core core => [core]
  | .controlCore cl => (clusterSites (cl % 9)).map (· + 36 * (cl / 9))
  | .l2Way slice _ => (List.range 36).map (· + 36 * (slice / 48))
  | .hbmRow stack _ _ => (List.range 36).map (· + 36 * (stack / 3))
  | .pseudoChannel stack _ => (List.range 36).map (· + 36 * (stack / 3))
  | .linkLane lk _ => (linkDies lk).flatMap (fun d => (List.range 36).map (· + 36 * d))

/-! ## Replacement (11 R258) -/

/-- Two parts share their spares. -/
def sameSpares : PartId → PartId → Bool
  | .laneUnit c q _, .laneUnit c' q' _ => c == c' && q == q'
  | .arrayColumn _ _ _, _ => false
  | .core _, _ => false
  | .controlCore _, _ => false
  | .l2Way x _, .l2Way y _ => x == y
  | .hbmRow x c _, .hbmRow x' c' _ => x == x' && c == c'
  | .pseudoChannel x _, .pseudoChannel y _ => x == y
  | .linkLane x _, .linkLane y _ => x == y
  | _, _ => false

/-- The spares that a part has. R258 gives none for the links to the IOD: they have those of a die-to-die link, and what follows when these
are spent. DESIGN CHOICE: notes/assumptions/121. -/
def partSpares : PartId → Nat
  | .laneUnit _ _ _ => 1
  | .arrayColumn _ _ _ => 0
  | .core _ => 0
  | .controlCore _ => 0
  | .l2Way _ _ => 2
  | .hbmRow _ _ _ => 64
  | .pseudoChannel _ _ => 1
  | .linkLane (.dieToDie _ _) _ => 2
  | .linkLane (.iod _ _) _ => 2
  | .linkLane (.myvemi _ _) _ => 1

def State.spareLeft (s : State) (p : PartId) : Bool := (s.usedSpares.filter (sameSpares p)).length < partSpares p

/-- A lane unit has been replaced by its quadrant's spare column. -/
def State.replaceLane (s : State) (core q col : Nat) : State :=
  let s := s.mapCore core (fun c => { c with
    shadow := c.shadow.filter (fun r => !(!r.array && r.quadrant = q && r.column = col))
    spareCols := c.spareCols.setIfInBounds q false })
  { s with defects := s.defects.filter (fun d => !(d.core = core && !d.array && d.quadrant = q && d.column = col)) }

/-- A cluster's control core has failed: the die's spare takes its place, or the cluster loses matrix service (16 R346). DEDUCED: notes/assumptions/93. -/
def State.replaceControl (s : State) (cl : Nat) : State :=
  let die := cl / 9
  let m := s.coreMap die
  let none' := { s with noMatrix := insertNew cl s.noMatrix }
  if m.spareRetired then none'.alert 0x02 die (cl % 9)
  else if m.spcc = 0xF then (s.changeMap die (fun m => { m with spcc := BitVec.ofNat 4 (cl % 9) })).alert 0x02 die (cl % 9)
  else if m.spcc.toNat = cl % 9 then (none'.changeMap die (fun m => { m with spareRetired := true })).alert 0x02 die (cl % 9)
  else none'.alert 0x02 die (cl % 9)

/-- An entry of a pool that no longer names a granule of it goes: the next one to be taken stands in its place (15 R336). -/
def State.dropPoolEntry (s : State) (l : Launch) (die entry : Nat) : State :=
  match s.translate (ballastAgent l.asid die) l.pgpool with
  | (_, .ok _ pa) =>
    let take := s.memNat (pa + 4) 4
    { s with mem := (s.mem.writeBytes entry (natBytes 4 (s.memNat (pa + 0x40 + 4 * take) 4))).writeBytes (pa + 4) (natBytes 4 (take + 1)) }
  | (_, .page _) => s
  | (_, .stall) => s

/-- A granule of a stack that is retired goes to another stack, when it can be drained and a pool of its context has room.
DESIGN CHOICE: notes/assumptions/77. -/
def State.moveOff (s : State) (l : Launch) (f : Leaf) : State :=
  let die := dieOfPa (pteFrame f.e)
  if s.granuleBusy (granuleOf (pteFrame f.e)) || !s.migratable f die then s
  else
    match s.freeGranule l die with
    | some (new, entry) => (s.migrate f new entry).dropPoolEntry l die entry
    | none => s

/-- The granules of a retired stack are migrated off it, those that can be drained now; what is left is tried again as time passes. -/
def State.evacuate (s : State) (stack : Nat) : State :=
  (s.launches.filter (fun l => l.lstate == .running)).foldl (fun s l =>
    ((s.leaves l.asid).filter (fun f => isDevice (pteFrame f.e) && stackOf (pteFrame f.e) = stack)).foldl (fun s f => s.moveOff l f) s) s

/-- A pseudo-channel has been spared, or, with the stack's spare spent, the stack is retired. -/
def State.sparePseudo (s : State) (stack : Nat) (left : Bool) : State :=
  let s := s.alert 0x04 (stack / 3) (stack % 3)
  if left then s else ({ s with deadStacks := insertNew stack s.deadStacks } : State).evacuate stack

/-- A part whose spares are spent is out of service. -/
def State.lose (s : State) (p : PartId) : State := { s with lost := p :: s.lost.filter (· ≠ p) }

/-- The effect of a replacement. A Myvemi port whose spare lane is spent runs on 8 lanes. DESIGN CHOICE: notes/assumptions/92. -/
def State.replace (s : State) (p : PartId) : State :=
  let left := s.spareLeft p
  let s := { s with usedSpares := s.usedSpares ++ [p], counts := s.counts.filter (fun c => c.part ≠ p) }
  match p with
  | .laneUnit core q col => if left then s.replaceLane core q col else s.retireCore core
  | .arrayColumn core _ _ => s.retireCore core
  | .core core => s.retireCore core
  | .controlCore cl => s.replaceControl cl
  | .l2Way slice _ => if left then s else (s.lose p).alert 0x03 (slice / 48) (slice % 48)
  | .hbmRow stack ch _ =>
    if left then s
    else
      let pseudo := PartId.pseudoChannel stack ch
      ({ s with usedSpares := s.usedSpares ++ [pseudo] } : State).sparePseudo stack (s.spareLeft pseudo)
  | .pseudoChannel stack _ => s.sparePseudo stack left
  | .linkLane (.dieToDie i _) _ => if left then s else (s.lose p).alert 0x05 0xFF i
  | .linkLane (.iod i _) _ => if left then s else (s.lose p).alert 0x05 0xFF (7 + i)
  | .linkLane (.myvemi port _) _ => if left then s else (s.lose p).alert 0x06 0xFF port

/-! ## HBM4E blocks (11 R245–R247) -/

/-- The row that holds a line (09 R210, 15 R325). The spare rows of R258 are counted for each of the 32 channels of a stack (01 R14): a
pseudo-channel is taken to be the channel that holds the line. DESIGN CHOICE: notes/assumptions/76. -/
def lineRow (line : Nat) : PartId := .hbmRow (stackOf (128 * line)) (channelOf (128 * line)) (Config.hbmRow line)

/-- What the stack holds of a line: the committed line, below any versions (11 R252). -/
def State.stackLine (s : State) (line : Nat) : List Byte × List Bool :=
  match s.tags.find? (fun t => t.loc = .mem line) with
  | some t => (t.bytes, t.poison)
  | none => (s.mem.readBytes (128 * line) 128, (List.range 32).map (fun i => smGet false s.poison (32 * line + i)))

/-- A list with some of its members replaced, from one place on. -/
def putAt {α : Type} (at' : Nat) (new old : List α) : List α := old.take at' ++ new ++ old.drop (at' + new.length)

/-- What L2 and the stack hold of a line is out of date: an L1 has changed it, or its transaction is open (09 R224). -/
def State.changedAbove (s : State) (line : Nat) : Bool := s.lineBusy line || s.l1.any (fun x => x.line = line && !x.clean)

/-- A read of a sector from its stack has given bytes and a mark. They stand in the committed line. Clean copies in L1s keep their poison
bits, and with one the bytes stay as it has them; a line that an L1 has changed is written over what the stack holds. DESIGN CHOICE:
notes/assumptions/30. -/
def State.putSector (s : State) (pa : Nat) (bytes : List Byte) (q : Bool) : State :=
  let line := lineOf pa
  let o := pa % 128
  let marks := List.replicate 8 q
  if s.tags.any (fun t => t.loc = .mem line) then
    { s with tags := replaceFirst (fun t => t.loc = .mem line) (fun (t : VTag) =>
      { t with bytes := putAt o bytes t.bytes, poison := putAt (o / 4) marks t.poison }) s.tags }
  else if s.changedAbove line then s
  else
    let held := s.l1.any (fun x => x.line = line)
    let s := s.keepCopies line
    { s with
      mem := if held then s.mem else s.mem.writeBytes pa bytes
      poison := smSetList false s.poison (pa / 4) marks }

/-- What a read of a block finds: its data, their check values, and the word of the code that data and parity make. -/
structure BlockRead where
  data : List Byte
  checks : List Half
  word : List Half
  deriving DecidableEq, Repr

/-- A read of a block, with the bits that are wrong in the stack. -/
def State.readBlock (s : State) (block : Nat) (errs : List SymErr) : BlockRead :=
  let lines := (List.range 4).map (fun i => s.stackLine (4 * block + i))
  let data := lines.flatMap (·.1)
  let marks := lines.flatMap (·.2)
  let check := fun (k : Nat) => checkValue (512 * block + 32 * k) ((data.drop (32 * k)).take 32) (((marks.drop (8 * k)).take 8).any id)
  let symbols := symbolsOf data
  let word := (symbols ++ parityOf symbols).mapIdx (fun i c => c ^^^ wrongBits errs i)
  ⟨bytesOf (word.take 256), (List.range 16).map (fun k => check k ^^^ wrongBits errs (272 + k)), word⟩

/-- Sector k of the data of a block. -/
def sectorOf (data : List Byte) (k : Nat) : List Byte := (data.drop (32 * k)).take 32

/-- The check of sector k of a block, on some data. -/
def BlockRead.check (b : BlockRead) (block : Nat) (data : List Byte) (k : Nat) : SectorRead :=
  sectorRead (512 * block + 32 * k) (sectorOf data k) (b.checks.getD k 0)

/-- The lines of some sectors of a block, each once. -/
def sectorLines (block : Nat) (ks : List Nat) : List Nat := (ks.map (fun k => 4 * block + k / 4)).eraseDups

/-- BLOCK_DECODE: a read of a block with bits wrong in the stack. Without a mismatch each sector is taken as its check value says; with one
the block is decoded, and what passes is put right and counted as corrected, or what still fails is poisoned and counted (R245–R247). -/
def execBlockDecode (block : Nat) (errs : List SymErr) (s : State) : Out :=
  let b := s.readBlock block errs
  let touched := (List.range 16).filter (fun k => wrongBits errs (272 + k) != 0
    || (List.range 16).any (fun i => wrongBits errs (16 * k + i) != 0))
  let put := fun (data : List Byte) (s : State) (k : Nat) =>
    s.putSector (512 * block + 32 * k) (sectorOf data k) (b.check block data k == .poisoned)
  if !isDevice (512 * block) then .next s
  else if !(List.range 16).any (fun k => b.check block b.data k == .mismatch) then .next (touched.foldl (put b.data) s)
  else
    let data := ((decodeBlock b.word).map (fun w => bytesOf (w.take 256))).getD b.data
    let fails := (List.range 16).filter (fun k => b.check block data k == .mismatch)
    let kept := touched.filter (fun k => !fails.contains k)
    let fixed := kept.filter (fun k => sectorOf data k != sectorOf b.data k)
    let s := fails.foldl (fun s k => s.putSector (512 * block + 32 * k) (sectorOf b.data k) true) (kept.foldl (put data) s)
    if fails.isEmpty then .next ((sectorLines block fixed).foldl (fun s l => s.countPart (lineRow l) false) s)
    else .next ((sectorLines block fails).foldl (fun s l => s.countPart (lineRow l) true) s)

/-! ## On-chip arrays (11 R248) -/

def State.poisonScratch (s : State) (core off : Nat) : State :=
  s.mapCore core (fun c => { c with
    scratchPoison := smSetList false c.scratchPoison (off / 8 * 2) [true, true] })

def DieScratch.poisoned (off : Nat) (d : DieScratch) : DieScratch :=
  { d with poison := smSetList false d.poison (off / 8 * 2) [true, true] }

/-- Both 32-bit words of the 64 bits that hold a word. DEDUCED: notes/assumptions/80. -/
def wordPair (w : Nat) : List Nat := [w / 2 * 2, w / 2 * 2 + 1]

def PWord.spoiled (w : PWord) : PWord := { w with poison := true }

def Scalar.spoil (i : BitVec 6) (sc : Scalar) : Scalar :=
  let a := BitVec.ofNat 6 (i.toNat / 2 * 2)
  (sc.setReg a { sc.reg a with poison := true }).setReg (a + 1) { sc.reg (a + 1) with poison := true }

def Bank.spoil (isB : Bool) (w : Nat) (k : Bank) : Bank :=
  (wordPair w).foldl (fun k w => k.setWord isB w { k.word isB w with poison := true }) k

def Acc.spoil (e : Nat) (a : Acc) : Acc :=
  { a with elems := (wordPair e).foldl (fun m e => smSet PWord.zero m e { smGet PWord.zero m e with poison := true }) a.elems }

def ArrayState.spoilBank (isB : Bool) (b w : Nat) (a : ArrayState) : ArrayState :=
  let b := BitVec.ofNat 2 b
  a.setBank isB b ((a.bank isB b).spoil isB w)

def ArrayState.spoilAcc (c e : Nat) (a : ArrayState) : ArrayState :=
  a.setAcc (BitVec.ofNat 2 c) ((a.accOf (BitVec.ofNat 2 c)).spoil e)

/-- The address spaces that map a granule. -/
def State.contextsOf (s : State) (gran : Nat) : List Byte := ((s.mappings gran).map (·.asid)).eraseDups

/-- The contexts that hold state that an error cannot be confined in; nothing for a data word. -/
def State.errorContexts (s : State) : ArrayKind → Option (List Byte)
  | .directory line => some (s.contextsOf (line / 512))
  | .tlbClass _ gran => some (s.contextsOf gran)
  | .shard l _ _ => some ((s.launch? l).map (·.asid)).toList
  | .queue q => some ((s.queue? q).map (·.asid)).toList
  | .progress o => some [o.team.asid]
  | .scalarReg _ _ => none
  | .laneReg _ _ _ => none
  | .memWord _ _ => none
  | .scratch _ _ => none
  | .dieScratch _ _ _ _ => none
  | .aBank _ _ _ _ => none
  | .bBank _ _ _ _ => none
  | .acc _ _ _ _ => none

/-- Both words are poisoned in a copy that is clean. -/
def L1Line.spoil (home : List Nat) (w : Nat) (x : L1Line) : L1Line :=
  { x with own := some (((x.own.getD home) ++ wordPair w).eraseDups) }

/-- An error in memory data: in an L1's clean copy it stays there; in one that is changed, or in L2 while no L1 has changed the line, it is the
line's, and the clean copies keep what they have (R248, R249). DEDUCED: notes/assumptions/26. -/
def State.poisonLine (s : State) (pa : Nat) (part : MemArray) : State :=
  let line := lineOf pa
  let all := fun (s : State) => { (s.keepCopies line) with poison := smSetList false s.poison (pa / 8 * 2) [true, true] }
  match part with
  | .l1 n =>
    match s.l1.find? (·.at' n line) with
    | some x =>
      if x.clean then
        { s with l1 := replaceFirst (·.at' n line) (L1Line.spoil (s.homePoison line) (pa / 4 % 32)) s.l1 }
      else all s
    | none => s
  | .l2 _ => if s.changedAbove line then s else all s

/-- The words that an uncorrectable error covers become poisoned. -/
def State.poisonArray (s : State) : ArrayKind → State
  | .scalarReg st i => s.mapScalar st (Scalar.spoil i)
  | .laneReg t i lane => s.mapTeam t (fun x =>
      (wordPair i.toNat).foldl (fun x r => x.setV r lane { x.v r lane with poison := true }) x)
  | .memWord pa part => s.poisonLine pa part
  | .scratch core off => s.poisonScratch core off
  | .dieScratch l die off _ =>
    { s with dscratch := replaceFirst (fun d => d.launch = l && d.die = die) (DieScratch.poisoned off) s.dscratch }
  | .aBank cl ix b w => s.mapArrayAt cl ix (ArrayState.spoilBank false b w)
  | .bBank cl ix b w => s.mapArrayAt cl ix (ArrayState.spoilBank true b w)
  | .acc cl ix c e => s.mapArrayAt cl ix (ArrayState.spoilAcc c e)
  | .directory _ => s
  | .tlbClass _ _ => s
  | .shard _ _ _ => s
  | .queue _ => s
  | .progress _ => s

/-- The module's L2 slice, 0–287, that holds an address, and the one that holds a line of a die scratchpad (09 R209, R210). -/
def sliceAt (pa : Nat) : Nat := 16 * stackOf pa + sliceOf pa
def scratchSlice (die off : Nat) : Nat := 48 * die + off / 128 % 48

/-- The unit whose array it is. -/
def State.arrayUnit (s : State) : ArrayKind → Option ArrayUnit
  | .scalarReg (.ctrl cl) _ => some (.control cl)
  | .scalarReg (.team t) _ => (s.coreOf (.team t)).map .core
  | .laneReg t _ _ => (s.coreOf (.team t)).map .core
  | .scratch core _ => some (.core core)
  | .aBank cl ix _ _ => (s.arrayAt (cl, ix)).map (fun a => .core a.core)
  | .bBank cl ix _ _ => (s.arrayAt (cl, ix)).map (fun a => .core a.core)
  | .acc cl ix _ _ => (s.arrayAt (cl, ix)).map (fun a => .core a.core)
  | .memWord _ (.l1 n) => some (if n < 216 then .core n else .control (n - 216))
  | .memWord pa (.l2 _) => some (.slice (sliceAt pa))
  | .dieScratch _ die off _ => some (.slice (scratchSlice die off))
  | .directory line => some (.slice (sliceAt (128 * line)))
  | .tlbClass cl _ => some (.tlb cl)
  | .shard _ _ die => some (.store die)
  | .queue q => some (.queue q)
  | .progress o => some (.engines (((s.op? o).map (·.die)).getD 0))

/-- The part of R258 that an error counts against. A register file's lane unit and a control core, with its L1, count only uncorrectable
errors, an L2 way only corrected ones. -/
def State.errorPart (s : State) (k : ArrayKind) (corrected : Bool) : Option PartId :=
  match k, corrected with
  | .laneReg t _ lane, false => (s.coreOf (.team t)).map (fun c => .laneUnit c (lane / 32 % 4) (lane % 32))
  | .scalarReg (.ctrl cl) _, false => some (.controlCore cl)
  | .memWord _ (.l1 n), false => if n < 216 then none else some (.controlCore (n - 216))
  | .memWord pa (.l2 way), true => some (.l2Way (sliceAt pa) way)
  | .dieScratch _ die off way, true => some (.l2Way (scratchSlice die off) way)
  | _, _ => none

/-- The kill record of an error that no team raised: the gang, and free values (12 R279). -/
def freeKillRec (n : Nat) (gid : Word) : KillRec :=
  let f := fun (i : Nat) => Config.killField n i
  ⟨gid, BitVec.ofNat 32 (f 0), BitVec.ofNat 32 (f 1), BitVec.ofNat 32 (f 2), BitVec.ofNat 64 (f 3), BitVec.ofNat 64 (f 4),
    BitVec.ofNat 32 (f 5), BitVec.ofNat 32 (f 6), BitVec.ofNat 1024 (f 7)⟩

/-- The gangs of contexts killed as by an uncontained error. -/
def State.killContexts (s : State) (cs : List Byte) : State :=
  let gs := (s.gangs.filter (fun g => g.id.asid ∈ cs)).map (·.id)
  match gs.getLast? with
  | none => s
  | some g => { s with freeCount := s.freeCount + 1 }.kill gs [] true (freeKillRec s.freeCount g.gid)

/-- A corrected error counted against its unit, and by a core's counters (17 R372). -/
def State.countUnit (s : State) (u : ArrayUnit) : State :=
  let n := ((s.arrayErrors.find? (fun x => x.1 = u)).map (·.2)).getD 0
  let s := { s with arrayErrors := s.arrayErrors.filter (fun x => x.1 ≠ u) ++ [(u, n + 1)] }
  match u with
  | .core c => s.count c none 0x0D 1
  | _ => s

/-- An error counted: a corrected one against its unit, and either against the part that it may bring a spare in for. -/
def State.countArray (s : State) (loc : ArrayLoc) : State :=
  let s := match s.arrayUnit loc.kind, loc.corrected with
    | some u, true => s.countUnit u
    | _, _ => s
  match s.errorPart loc.kind loc.corrected with
  | some p => s.countPart p (!loc.corrected)
  | none => s

/-- The word stands in an array that is in service and holds it: an L2 way that has been disabled holds nothing. -/
def State.inService (s : State) : ArrayKind → Bool
  | .memWord pa (.l1 n) => (s.l1St n (lineOf pa)).isSome
  | .memWord pa (.l2 way) => !s.lost.contains (.l2Way (sliceAt pa) way)
  | .dieScratch _ die off way => !s.lost.contains (.l2Way (scratchSlice die off) way)
  | _ => true

/-- UNCORRECTABLE_ARRAY_ERROR. -/
def execUncorrectableArrayError (loc : ArrayLoc) (s : State) : Out :=
  let s := if s.inService loc.kind then s.countArray loc else s
  if loc.corrected || !s.inService loc.kind then .next s
  else
    match s.errorContexts loc.kind with
    | some cs => .next (s.killContexts cs)
    | none => .next (s.poisonArray loc.kind)

/-! ## Links (11 R248, 01 R17) -/

/-- LINK_FLIT_REPLAY: the flit goes again and arrives; the replay counts against its lane. -/
def execLinkFlitReplay (lk : LinkId) (lane : Nat) (s : State) : Out :=
  .next (if s.lost.contains (.linkLane lk lane) then s else s.countPart (.linkLane lk lane) false)

/-- LINK_PORT_DOWN: the module runs on the other port. DESIGN CHOICE: notes/assumptions/92. -/
def execLinkPortDown (port : Nat) (s : State) : Out :=
  if s.ports.toList.getD port false then .next ({ s with ports := s.ports.setIfInBounds port false }.alert 0x06 0xFF port)
  else .next s

end Sys2Proof.Machine
end

