-- ==== Sys2Proof/Machine/Preempt.lean ====
section
/-! DEFINITION. Pre-emption: requests and what they are widened to, their collection, and what follows its completion (spec/14
R319–R324; spec/16 R345, R351, R358, R361, R362); the end of a run-list turn (spec/12 R274). -/

namespace Sys2Proof.Machine

/-! ## The set (R319) -/

/-- Teams and control cores of a set, as it is widened. -/
structure PreSet where
  teams : List TeamId
  ctrls : List Nat
  deriving DecidableEq, Repr

/-- What a request names: the placed teams of launches and of cores, and the control cores that serve them. -/
def State.preSeed (s : State) (ls cores : List Nat) : PreSet where
  teams := (s.teams.filter (fun t => t.place.any (fun p => p.core ∈ cores || t.launch ∈ ls))).map (·.id)
  ctrls := (s.groups.filter (fun g => g.placed && (g.launch ∈ ls || g.arrays.any (fun a => a.core ∈ cores)))).map (·.cl)

/-- Co-resident groups and matrix groups with a member in the set are taken whole. -/
def State.preWiden (s : State) (m : PreSet) : PreSet :=
  let ts := s.teams.filter (fun t => t.id ∈ m.teams)
  let cls := (m.ctrls ++ (ts.filterMap s.groupOfTeam).map (·.cl)).eraseDups
  let add := s.teams.filter (fun t => t.place.isSome
    && (ts.any (fun x => x.gang = t.gang) || (s.groupOfTeam t).any (fun g => g.cl ∈ cls)))
  ⟨(m.teams ++ add.map (·.id)).eraseDups, cls⟩

def State.preWidenAll (s : State) : Nat → PreSet → PreSet
  | 0, m => m
  | n + 1, m => State.preWidenAll s n (s.preWiden m)

/-- An operation that a request takes: of a launch or a team of the set, or using the scratchpad of a core that is cleared. -/
def State.takesOp (s : State) (ls cores : List Nat) (m : PreSet) (o : EngineOp) : Bool :=
  o.st == .running && s.opGoes o
    && (ls.contains o.launch || m.teams.contains o.id.team || cores.any (fun c => o.src.onCore c || o.dst.onCore c)
      || ((s.team? o.id.team).isNone && o.arr.any (fun k => m.ctrls.contains k.1)))

/-- The units that hold the members of a grants set. -/
def State.preMembers (s : State) (ls cores : List Nat) : List UnitId :=
  let m := s.preWidenAll (s.teams.length + s.groups.length + 1) (s.preSeed ls cores)
  m.teams.map UnitId.team ++ m.ctrls.map UnitId.ctrl
    ++ (s.ops.filter (s.takesOp ls cores m)).map (fun o => UnitId.op o.id)
    ++ ((s.moves.filter (fun x => ls.contains x.launch)).map (fun x => UnitId.ballast x.src)).eraseDups

/-! ## The collection (R320, R322, R323) -/

/-- A unit that is still there to be stopped. -/
def State.unitLive (s : State) : UnitId → Bool
  | .team t => (s.team? t).any (·.place.isSome)
  | .ctrl cl => (s.group? cl).any (·.placed)
  | .op o => (s.op? o).any (fun x => x.st == .running)
  | .ballast _ => true

/-- Units of a cluster have still to acknowledge, or its leaf controller has not taken the request. -/
def State.clusterOwes (s : State) (c : Collection) (cl : Nat) : Bool :=
  let k := s.link cl
  k.down.contains (.preq c.id) || k.downWait.contains (.preq c.id)
    || c.units.any (fun u => s.unitLive u && s.unitCluster u = some cl)

/-- Leaf controllers whose clusters owe nothing more answer. -/
def State.settleCluster (s : State) (id cl : Nat) : State :=
  match s.collections.find? (fun c => c.id = id) with
  | none => s
  | some c =>
    if c.answered.contains cl || s.clusterOwes c cl then s
    else
      ({ s with collections := replaceFirst (fun c => c.id = id) (fun c => { c with answered := c.answered ++ [cl] }) s.collections } :
        State).sendUp cl (.pack id)

/-- Every die has acknowledged (R322). -/
def State.collected (s : State) (c : Collection) : Bool :=
  c.asked.all (fun cl => c.packed.contains cl) && !c.units.any s.unitLive

/-! ## After it (R324) -/

/-- The result of the mailbox's command (18 R383). ERR stays set by a write that was ignored while it ran. -/
def State.mailboxDone (s : State) (code : Nat) : State :=
  { s with mbCode := BitVec.ofNat 8 code, mbErr := s.mbErr || code != 0, mbBusy := false }

/-- A version of a line taken off, as it goes into an image: what lay under it stands there again, or lies under the version above. -/
def State.liftTag (s : State) (t : VTag) : State :=
  let above := (s.tags.dropWhile (fun x => x != t)).drop 1
  let s' :=
    match above.find? (fun x => x.loc = t.loc) with
    | some u => { s with tags := replaceFirst (fun x => x = u) (fun x => { x with bytes := t.bytes, poison := t.poison }) s.tags }
    | none => if t.loc.isMem then s.restoreTag t else s
  { s' with tags := s'.tags.erase t }

/-- A context leaves the module with its image: committed lines stand, and its launches have neither completed nor failed
(11 R252; 12 R265). -/
def State.removeContext (s : State) (asid : Byte) : State :=
  let ls := (s.contextLaunches asid).map (·.id)
  let mine := fun (l : Nat) => ls.contains l
  let s := (s.tags.filter (fun t => t.gang.asid = asid)).reverse.foldl (fun s t => s.liftTag t) s
  let s := (s.savedScratch.filter (fun z => mine z.launch)).foldl (fun s z => s.mapCore z.at' (fun _ => CoreState.reset)) s
  let gone := fun (u : UnitId) =>
    match u with
    | .team t => t.asid = asid
    | .ctrl cl => (s.group? cl).any (fun g => mine g.launch)
    | .op _ => false
    | .ballast _ => false
  { s with
    saveOrder := s.saveOrder.filter (fun u => !gone u)
    teams := s.teams.filter (fun t => !mine t.launch)
    groups := s.groups.filter (fun g => !mine g.launch)
    ops := s.ops.filter (fun o => !mine o.launch)
    barriers := s.barriers.filter (fun b => !mine b.launch)
    reports := s.reports.filter (fun r => !mine r.launch)
    shards := s.shards.filter (fun h => !mine h.launch)
    dscratch := s.dscratch.filter (fun d => !mine d.launch)
    savedScratch := s.savedScratch.filter (fun z => !mine z.launch)
    gangs := s.gangs.filter (fun g => g.id.asid ≠ asid)
    reservations := s.reservations.filter (fun r => !mine r.launch)
    waitingNb := s.waitingNb.filter (fun w => !mine w.launch)
    moves := s.moves.filter (fun m => !mine m.launch)
    launches := s.launches.map (fun l => if mine l.id then { l with lstate := .saved } else l) }

/-- FREEZE once its context is saved: the image goes to the context's area, or the context runs on (R351). before is the state in
which nothing had been released. -/
def State.freezeDone (s before : State) (asid : Byte) : State :=
  match s.imageAreas.find? (fun a => a.1 = asid) with
  | none => s.mailboxDone 0x07
  | some (_, addr, size) =>
    let img := s.gondola asid false (before.classRecs (before.leaves asid))
    if size < img.length then s.mailboxDone 0x07
    else ((s.devWrite addr.toNat img).removeContext asid).mailboxDone 0

/-- The dirty lines of every L1 are written back to L2 (R358). -/
def State.flushL1s (s : State) : State :=
  (s.l1.filter (fun x => x.st == .m || x.st == .o || x.st == .wb)).foldl (fun s x => s.writeBack x.node x.line) s

/-- The Drogue freeze is complete: each protected context's image is ready to be written (R358, R359). DESIGN CHOICE: notes/assumptions/86. -/
def State.drogueDone (s before : State) : State :=
  let s := s.flushL1s
  { s with flash := s.flash ++ (s.drogue.filter (fun c => !c.lapsed)).map (fun c =>
      ⟨c.asid, c.budget, s.gondola c.asid true (before.classRecs (before.leaves c.asid)), [], false, false⟩) }

/-- What a pre-emption was made for. -/
def State.fulfil (before s : State) : Purpose → State
  | .turnEnd => s
  | .request => s
  | .repair cores => cores.foldl (fun s c => s.retireCore c) s
  | .part p => s.replace p
  | .ballast l bin d e =>
    match s.move? l bin d e, s.launch? l with
    | some m, some x => if s.movesPages m then s.migrateHome m x else s
    | _, _ => s
  | .freeze asid => s.freezeDone before asid
  | .drogue => s.drogueDone before

/-- A pre-empted launch may go on: no other pre-emption takes it, and its queue's turn is on (R324, 12 R274). -/
def State.mayResume (s : State) (l : Launch) : Bool :=
  l.lstate == .running && s.supply == .on
    && !s.collections.any (fun c => c.launches.contains l.id)
    && l.proc.all (fun p => s.turnNext.isNone && (s.holdsTurn p || !s.processes.contains p))

/-- The launches asked to resume, each once. -/
def State.resumeAll (s : State) (ls : List Nat) : State :=
  ls.foldl (fun s i =>
    match s.launch? i with
    | none => s
    | some l =>
      let asked := s.links.any (fun k => k.down.contains (.resume i) || k.downWait.contains (.resume i))
      if s.mayResume l && !asked then if l.noted.isEmpty then s.resumed i else s.resumeLaunch l else s) s

/-- A complete collection: byte counts of the set have landed (R322), its members are saved, and what was asked for follows. -/
def State.finishSet (s : State) (c : Collection) : State :=
  let s := { s with collections := s.collections.filter (fun x => x.id ≠ c.id) }
  let ts := c.members.filterMap (fun u => match u with
    | .team t => some t
    | .ctrl _ => none
    | .op _ => none
    | .ballast _ => none)
  let ls := (c.launches ++ (s.teams.filter (fun t => t.id ∈ ts)).map (·.launch)
    ++ (s.groups.filter (fun g => UnitId.ctrl g.cl ∈ c.members)).map (·.launch)).eraseDups
  let s := (s.reports.filter (fun r => c.launches.contains r.launch || ts.contains r.op.team)).foldl (fun s r => s.landReport r) s
  let saved := s.saveMembers c.members
  ((c.purposes.foldl (fun t p => State.fulfil s t p) saved).settleTurn).resumeAll ls

/-- The collection's clusters answer, and it is finished once every answer is in. -/
def State.settle (s : State) (id : Nat) : State :=
  match s.collections.find? (fun c => c.id = id) with
  | none => s
  | some c =>
    let s := c.asked.foldl (fun s cl => s.settleCluster id cl) s
    match s.collections.find? (fun c => c.id = id) with
    | some c => if s.collected c then s.finishSet c else s
    | none => s

/-! ## Requests (R319) -/

/-- Messages of merged collections name the one that they were merged into. -/
def LinkMsg.merged (ids : List Nat) (id : Nat) : LinkMsg → LinkMsg
  | .preq c => .preq (if ids.contains c then id else c)
  | .pack c => .pack (if ids.contains c then id else c)
  | .lnote l => .lnote l
  | .resume l => .resume l
  | .mapchg d => .mapchg d
  | .efault o => .efault o
  | .done l => .done l

def CmdLink.merged (ids : List Nat) (id : Nat) (k : CmdLink) : CmdLink :=
  { k with
    down := k.down.map (LinkMsg.merged ids id)
    up := k.up.map (LinkMsg.merged ids id)
    downWait := k.downWait.map (LinkMsg.merged ids id)
    upWait := k.upWait.map (LinkMsg.merged ids id) }

/-- A request that shares something with a collection is merged with it; a Drogue freeze takes in all of them. -/
def Collection.overlaps (p : Purpose) (ls cores : List Nat) (m : List UnitId) (c : Collection) : Bool :=
  p == .drogue || c.members.any (fun u => m.contains u) || c.launches.any (fun l => ls.contains l)
    || c.cores.any (fun x => cores.contains x)

/-- A pre-emption request, widened, merged with those that it overlaps, and sent to the leaf controllers of the units that it adds. DESIGN CHOICE: notes/assumptions/84. -/
def State.raise (s : State) (p : Purpose) (ls cores : List Nat) : State :=
  let m := s.preMembers ls cores
  let overs := s.collections.filter (Collection.overlaps p ls cores m)
  let ids := overs.map (·.id)
  let id := s.nextCollection
  let old := overs.flatMap (·.members)
  let new := m.filter (fun u => !old.contains u)
  let cls := (new.filterMap s.unitCluster).eraseDups
  let c : Collection :=
    { id := id
      purposes := overs.flatMap (·.purposes) ++ [p]
      launches := (overs.flatMap (·.launches) ++ ls).eraseDups
      cores := (overs.flatMap (·.cores) ++ cores).eraseDups
      members := old ++ new
      units := overs.flatMap (·.units) ++ new
      told := overs.flatMap (·.told)
      asked := (overs.flatMap (·.asked) ++ cls).eraseDups
      answered := (overs.flatMap (·.answered)).filter (fun cl => !cls.contains cl)
      packed := (overs.flatMap (·.packed)).filter (fun cl => !cls.contains cl) }
  let s : State := (s.hold ls).freezeShards (s.shardOfMember new)
  let s : State := { s with
    collections := s.collections.filter (fun (x : Collection) => !ids.contains x.id) ++ [c]
    nextCollection := id + 1
    links := s.links.map (CmdLink.merged ids id) }
  (cls.foldl (fun s cl => s.sendDown cl (.preq id)) s).settle id

/-! ## Messages (16 R361) and acknowledgements (R320) -/

/-- PREQ: a leaf controller takes a request, and its units receive it. -/
def execPreq (cl : Nat) (s : State) : Out :=
  match (s.link cl).down.head? with
  | some (.preq id) =>
    let s := s.setLink (s.link cl).tookDown
    let tell := fun (c : Collection) =>
      { c with told := (c.told ++ c.members.filter (fun u => s.unitCluster u = some cl)).eraseDups }
    .next (({ s with collections := replaceFirst (fun c => c.id = id) tell s.collections } : State).settle id)
  | _ => .next s

/-- PACK: the IOD takes a cluster's answer. One that a merged request has overtaken is followed by another. -/
def execPack (cl : Nat) (s : State) : Out :=
  match (s.link cl).up.head? with
  | some (.pack id) =>
    let s := s.setLink (s.link cl).tookUp
    let put := fun (c : Collection) => if s.clusterOwes c cl then c else { c with packed := insertNew cl c.packed }
    .next (({ s with collections := replaceFirst (fun c => c.id = id) put s.collections } : State).settle id)
  | _ => .next s

/-- The tile of a gather has been written, or its reads are discarded (R320). DEDUCED: notes/assumptions/85. -/
def State.stopOp (s : State) (o : EngineOp) : State :=
  let s := s.writeTile o
  s.mapOp o.id (fun x => { x.freed with tile := none, appendWait := false })

/-- A unit at its stop point with what it must drain drained, and the state in which its waits are withdrawn. A stalled access, which has
performed no event, is withdrawn by a Drogue freeze alone (16 R358). The line-run or tile of an operation that is stalled has not begun.
DEDUCED: notes/assumptions/45, 85. -/
def State.stopUnit (s : State) (drogue : Bool) (u : UnitId) : Option State :=
  if !s.unitLive u then some s
  else
    match u with
    | .team t =>
      match s.team? t with
      | some x =>
        let y := if drogue then x.dropAcc else x
        if y.sc.accs.isEmpty && (y.chainPos = 0 || y.sc.wait = some .xswap) then some (s.mapTeam t (fun _ => y.withdrawn)) else none
      | none => some s
    | .ctrl cl =>
      match s.group? cl with
      | some g =>
        let sc := if drogue then g.sc.dropAcc else g.sc
        if sc.accs.isEmpty && g.arrays.all (fun a => a.queue.all (fun o => o.started.isNone)) then
          some (s.mapGroup cl (fun g => { g with sc := { sc with wait := none } }))
        else none
      | none => some s
    | .op o =>
      match s.op? o with
      | some x =>
        if x.midTile drogue || (x.cancel && !drogue) then none
        else if x.cancel then some (s.endOp { x with fault := false } .cancelled 8)
        else some (s.stopOp x)
      | none => some s
    | .ballast _ => some s

/-- UNIT_PREEMPT_ACK: a unit that has received the request, or that has ended before its stop point, acknowledges. -/
def execUnitPreemptAck (u : UnitId) (s : State) : Out :=
  match s.collections.find? (fun c => c.units.contains u && (c.told.contains u || !s.unitLive u)) with
  | some c =>
    match s.stopUnit (c.purposes.contains .drogue) u with
    | none => .next s
    | some s =>
      let ack := fun (c : Collection) => { c with units := c.units.erase u }
      .next (({ s with collections := replaceFirst (fun x => x.id = c.id) ack s.collections } : State).settle c.id)
  | none => .next ((s.collections.map (·.id)).foldl (fun s id => s.settle id) s)

/-! ## Who asks (R319) -/

/-- The process after one, in the run list's order (12 R274). -/
def nextProcess (p : Word) (ps : List Word) : Option Word :=
  match (ps.dropWhile (· != p)).drop 1 with
  | q :: _ => some q
  | [] => ps.head?

/-- The turn of a process in cycles: by the partition of its first queue (14 R308). -/
def State.quantumOf (s : State) (p : Word) : Nat :=
  match s.queues.find? (fun q => !q.signal && q.proc = p) with
  | some q => (s.partition q.part).quantum * Config.cyclesPerUs
  | none => 0

/-- RUN_LIST_TURN_END: the process's queues are unmapped and its live launches pre-empted (12 R274). -/
def execRunListTurnEnd (s : State) : Out :=
  match s.turnProc with
  | none => .next s
  | some p =>
    match nextProcess p s.processes with
    | none => .next s
    | some q =>
      if q = p || s.turnNext.isSome || s.supply != .on || s.clock < s.turnStart + s.quantumOf p then .next s
      else
        let s := { s with turnNext := some q }
        let s := (s.queues.filter (fun x => !x.signal && x.proc = p && x.st == .mapped)).foldl (fun s x =>
          s.putQueue x.num (fun x => { x with st := .unmapping })) s
        .next (s.raise .turnEnd ((s.launchesOfProcess p).map (·.id)) []).settleTurn

/-- What a stop of a leaf controller asks for: its cluster's teams are pre-empted, and after a second stop its cores are retired. -/
def State.leafStopped (s : State) (cl : Nat) (again : Bool) : State :=
  let cores := (clusterSites (cl % 9)).map (· + 36 * (cl / 9))
  if again then (s.alert 0x07 (cl / 9) (cl % 9)).raise (.repair cores) [] cores else s.raise .request [] cores

/-- What was asked for goes on: a part only when its trigger has been met, a core only while it is active. -/
def State.grant (s : State) : DueRequest → State
  | .core core => if s.isActive core then s.raise (.repair [core]) [] [core] else s
  | .part p => if s.triggered p then s.raise (.part p) [] (partCleared p) else s
  | .leafStop cl again => s.leafStopped cl again

/-- A retirement request, or what a stop of a leaf controller asks for: after supply loss it is kept until the flush has completed (16 R360). -/
def State.ask (s : State) (d : DueRequest) : State :=
  if s.supply == .on then s.grant d else { s with flushDue := insertNew d s.flushDue }

/-- SPARE_REPLACEMENT: when a part's trigger has been met, what it serves is pre-empted and the part replaced (11 R258). -/
def execSpareReplacement (p : PartId) (s : State) : Out := .next (s.ask (.part p))

/-- CORE_RETIREMENT (16 R345). -/
def execCoreRetirement (core : Nat) (s : State) : Out := .next (s.ask (.core core))

/-- The image that is started: one put into flash since when its signature verifies, and the previous one otherwise (18 R385). -/
def verifiedImage (old : List Byte) (new : Option (List Byte)) : List Byte := (new.filter Config.signatureValid).getD old

/-- A leaf controller's image is verified and started; one that fails verification is not, and stays as it was in flash. -/
def Firmware.startLeaf (f : Firmware) : Firmware :=
  let image := verifiedImage f.leaf f.leafNew
  { f with leaf := image, leafNew := none, leafRuns := if Config.signatureValid image then image else f.leafRuns }

/-- LEAF_CONTROLLER_RESTART, from the signed image; a second stop within 24 hours retires the cluster's cores (16 R362). After supply loss
what it asks for waits for the flush (16 R360). DEDUCED: notes/assumptions/95. -/
def execLeafControllerRestart (cl : Nat) (s : State) : Out :=
  let again := s.leafStops.any (fun x => x.1 = cl && s.clock ≤ x.2 + dayCycles)
  .next (({ s with leafStops := s.leafStops ++ [(cl, s.clock)], firmware := s.firmware.startLeaf } : State).ask (.leafStop cl again))

/-- GRANULE_MIGRATION: the next home granule of a move is migrated, once a core that this needs vacated has been (13 R305, R306; 14 R319).
DESIGN CHOICE: notes/assumptions/114. -/
def execGranuleMigration (l bin d e : Nat) (s : State) : Out :=
  match s.move? l bin d e, s.launch? l with
  | some m, some x =>
    if !s.movesPages m then .next s
    else
      match (s.nextHome m x).bind (fun f => Config.migrationVacates (granuleOf (pteFrame f.1.e))) with
      | some core =>
        if s.collections.any (fun c => c.purposes.contains (.ballast l bin d e)) then .next s
        else if s.supply == .on && !(s.teamsOn core).isEmpty then .next (s.raise (.ballast l bin d e) [] [core])
        else .next (s.migrateHome m x)
      | none => .next (s.migrateHome m x)
  | _, _ => .next s

end Sys2Proof.Machine
end

