-- ==== Sys2Proof/Machine/Restore.lean ====
section
/-! DEFINITION. RESTORE: the checks of an image, in order, and its installation (spec/16 R352–R354, R360, R400; spec/17 R371;
spec/21 R395). -/

namespace Sys2Proof.Machine

/-! ## Reading an image (R347, R348) -/

/-- The records of a section; nothing when one does not fit. -/
def parseRecs : Nat → List Byte → Option (List ImgRec)
  | 0, _ => some []
  | n + 1, bs =>
    let len := leAt bs 0 4
    if len = 0 || len % 128 != 0 || bs.length < len then none
    else (parseRecs n (bs.drop len)).map (fun rest => ⟨leAt bs 4 4, (bs.take len).drop 8⟩ :: rest)

/-- The sections of an image by TYPE; nothing when a TYPE is not listed or stands twice, or a record does not fit. -/
def parseSections (img : List Byte) : Option (List (Nat × List ImgRec)) :=
  let n := leAt img 0x1C 4
  let dir := (List.range n).map (fun i => (img.drop (0x80 + 16 * i)).take 16)
  let types := dir.map (fun e => leAt e 0 4)
  if n = 0 || 64 < n || types.any (fun t => t = 0 || 0x0B < t) || types.eraseDups.length != types.length then none
  else dir.mapM (fun e => (parseRecs (leAt e 4 4) (img.drop (leAt e 8 8))).map (fun rs => (leAt e 0 4, rs)))

/-- The records of one TYPE. -/
def recordsOf (sects : List (Nat × List ImgRec)) (ty : Nat) : List ImgRec :=
  ((sects.find? (fun x => x.1 = ty)).map (·.2)).getD []

/-- The DIGEST of an image is right. -/
def digestOk (img : List Byte) : Bool :=
  (img.drop 0x40).take 32 == shake256 32 (img.take 0x40 ++ List.replicate 32 0 ++ img.drop 0x60)

/-- The image at a device address, as long as its LENGTH says. DEDUCED: notes/assumptions/75. -/
def State.imageAt (s : State) (addr : Nat) : List Byte :=
  let n := s.memNat (addr + 0x38) 8
  if addr + Nat.max 0x80 n ≤ deviceLimit then s.mem.readBytes addr (Nat.max 0x80 n) else s.mem.readBytes addr 0x80

/-- Bit i of packed bits. -/
def packedBit (bs : List Byte) (i : Nat) : Bool := (bs.getD (i / 8) 0).getLsbD (i % 8)

def wordAt (bs : List Byte) (off : Nat) : Word := BitVec.ofNat 32 (leAt bs off 4)
def dwordAt (bs : List Byte) (off : Nat) : DWord := BitVec.ofNat 64 (leAt bs off 8)

/-! ## Launches and teams -/

/-- A saved launch as a launch of a queue. -/
def savedLaunch (id : Nat) (q : Queue) (packet : DWord) (b : List Byte) : Launch :=
  let raw := b.drop 0x20
  let n := 256 + 64 * recNent raw + 32 * recNbin raw + 4 * recNxs raw
  { parseLaunch id q.num q.asid q.part packet (dwordAt b 0x08) (dwordAt b 0x10) (raw.take n) with
    proc := q.runProc
    kills := leAt b 0x18 4
    preempted := true }

def hstateOf (n : Nat) : HState :=
  if n = 1 then .running else if n = 2 then .complete else if n = 3 then .stopped else if n = 4 then .cancelled else .idle

def classOfCode (n : Nat) : EngClass := if n = 2 then .xfill else if n = 3 then .xgath else if n = 4 then .swbuild else .xcopy

def handleAt (b : List Byte) (off : Nat) : Handle :=
  let v := leAt b off 8
  ⟨hstateOf (natBits v 61 3), classOfCode (natBits v 57 4), BitVec.ofNat 48 v⟩

/-- Registers with their poison bits, which stand packed at another offset. -/
def regsAt (b : List Byte) (off bits : Nat) : Vector PWord 64 :=
  Vector.ofFn (fun i => ⟨wordAt b (off + 4 * i.val), packedBit (b.drop bits) i.val⟩)

/-- The registers that TEAM and MATRIX records hold alike, from their offsets. -/
def scalarAt (b : List Byte) (pc fmt tvec bits h s : Nat) : Scalar :=
  { Scalar.start with
    regs := regsAt b s bits
    pc := dwordAt b pc
    fmt := wordAt b fmt
    handles := Vector.ofFn (fun i => handleAt b (h + 8 * i.val))
    tvec := dwordAt b tvec
    tpc := dwordAt b (tvec + 8)
    taddr := dwordAt b (tvec + 16)
    pgpool := dwordAt b (tvec + 24)
    tstat := tstatWord ((wordAt b (fmt + 4)).getLsbD 2) false ((wordAt b (fmt + 4)).getLsbD 0)
    tcause := wordAt b (fmt + 8)
    tdetail := wordAt b (fmt + 12) }

def roleOf (n : Nat) : Role := if n = 1 then .feed else if n = 2 then .drain else .vector

/-- The lane registers of a TEAM record. -/
def vregsAt (b : List Byte) (lanes alloc : Nat) : SMap PWord :=
  let data := b.drop 0xB80
  let bits := data.drop (4 * lanes * alloc)
  (List.range (lanes * alloc)).foldl (fun m k =>
    smSet PWord.zero m (1024 * (k / lanes) + k % lanes) ⟨wordAt data (4 * k), packedBit bits k⟩) []

/-- A saved team (R349). An event that TSTAT.EVPEND shows is taken as VERSION_FULL, since the record does not say which it was; the
records that it took are not in the image. DEDUCED: notes/assumptions/71. -/
def savedTeam (asid : Byte) (l : Launch) (raised : Bool) (b : List Byte) : Team :=
  let g := leAt b 0x0C 4
  let n := natBits g 0 5 + 1
  let alloc := 8 * (natBits g 5 5 + 1)
  { id := ⟨asid, wordAt b 0⟩
    gid := wordAt b 4
    launch := l.id
    entry := natBits g 18 6
    nw := n
    alloc := alloc
    role := roleOf (natBits g 10 2)
    pos := natBits g 12 3
    tix := natBits g 15 2
    nbRows := l.rows
    nbCols := l.cols
    blk := leAt b 0x10 4
    die := leAt b 0x14 4
    place := none
    savedOn := none
    lvid := Vector.ofFn (fun i => wordAt b (0x70 + 4 * i.val))
    lvext := Vector.ofFn (fun i => wordAt b (0x90 + 4 * i.val))
    sc := scalarAt b 0x20 0x30 0x40 0x68 0x100 0x180
    vregs := vregsAt b (32 * n) alloc
    masks := Vector.ofFn (fun i => BitVec.ofNat 1024 (leAt b (0x280 + 128 * i.val) 128))
    kv := BitVec.ofNat 1024 (leAt b 0xA80 128)
    latches := []
    seq := BitVec.ofNat 48 (leAt b 0x18 8)
    tlpc := wordAt b 0x60
    tlane := wordAt b 0x64
    tk0 := BitVec.ofNat 1024 (leAt b 0xB00 128)
    lanePc := leAt b 0x28 4
    runLeft := leAt b 0x2C 4
    chainPos := 0
    chainStart := 0
    pushes := 0
    chainReads := none
    chainLog := []
    begun := []
    pendTrap := none
    eventVersion := if (wordAt b 0x34).getLsbD 1 && !raised then some 0 else none
    eventDirty := false
    startRecs := []
    refillRecs := []
    anew := false
    instrs := 0
    xarr := none }

/-! ## The checks (R352) -/

/-- A rectangle of a shape with every core active stands on a die. -/
def State.hasRectangle (s : State) (code die : Nat) : Bool :=
  match [(1, 1), (1, 2), (2, 1), (1, 3), (3, 1), (2, 2), (2, 3), (3, 2)][code]? with
  | some (r, c) => (rectangles r c die).any (fun x => x.all s.isActive)
  | none => false

/-- A cluster of a die has m active cores and matrix service. -/
def State.hasCluster (s : State) (m die : Nat) : Bool :=
  ((List.range 9).map (· + 9 * die)).any (fun cl => m ≤ (s.clusterCores cl).length && !s.noMatrix.contains cl)

/-- The dies that hold image state. An empty shard holds none. DEDUCED: notes/assumptions/74. -/
def imageDies (sects : List (Nat × List ImgRec)) : List Nat :=
  let sec := recordsOf sects
  (sec 0x02).map (fun r => leAt r.body 0x14 4) ++ (sec 0x03).map (fun r => r.id / 9) ++ (sec 0x04).map (fun r => leAt r.body 4 4)
    ++ (sec 0x05).map (fun r => leAt r.body 4 4) ++ (sec 0x06).map (·.id)
    ++ ((sec 0x08).filter (fun r => leAt r.body 0x18 4 != 0)).map (fun r => leAt r.body 8 4)

/-- The gang ids of an image. -/
def imageGangs (sects : List (Nat × List ImgRec)) : List Word :=
  (recordsOf sects 0x02).map (fun r => wordAt r.body 4)
    ++ (recordsOf sects 0x05 ++ recordsOf sects 0x0B).map (fun r => BitVec.ofNat 32 r.id)

/-- The result code of an image, from the first check that fails; 0 when none does. -/
def State.restoreCode (s : State) (img : List Byte) (qnum : Nat) : Nat :=
  let asid := BitVec.ofNat 8 (leAt img 0x18 1)
  match parseSections img with
  | none => 0x03
  | some sects =>
    let sec := recordsOf sects
    if leAt img 0 4 != 0x4C444E47 || leAt img 4 4 != 1 || img.length != leAt img 0x38 8 || !digestOk img then 0x03
    else if (List.range 4).any (fun i => wordAt img (8 + 4 * i) != s.fwacc.toList.getD i 0) then 0x04
    else if !((s.asidCopy? asid).getD (s.readAsidEntry asid)).valid then 0x05
    else
      match s.queue? qnum with
      | none => 0x0B
      | some q =>
        let p := s.partition q.part
        let ok := fun (r : ImgRec) =>
          let l := savedLaunch 0 q 0 r.body
          recCountsOk (r.body.drop 0x20) && s.launchOk l && (List.range 54).any (fun c =>
            l.diemask.testBit (c / 9) && p.pdies.testBit (c / 9) && p.clmask.testBit c)
        if q.st == .faulted || q.asid != asid then 0x0B
        else if !(sec 0x01).all ok then 0x0D
        else if (sec 0x02).any (fun r => (s.team? ⟨asid, BitVec.ofNat 32 r.id⟩).isSome)
            || (imageGangs sects).any (fun g => (s.gang? ⟨asid, g⟩).isSome) then 0x0C
        else if !(sec 0x05).all (fun r => s.hasRectangle (leAt r.body 8 4) (leAt r.body 4 4)) then 0x06
        else if !(sec 0x03).all (fun r => s.hasCluster (leAt r.body 0 4) (r.id / 9)) then 0x06
        else if !(imageDies sects).all p.pdies.testBit then 0x06
        else 0

/-! ## Installation (R354) -/

/-- The launches of an image, by launch index. -/
structure Installing where
  asid : Byte
  ls : List Launch
  sects : List (Nat × List ImgRec)
  deriving DecidableEq, Repr

def Installing.sec (x : Installing) (ty : Nat) : List ImgRec := recordsOf x.sects ty
def Installing.launchId (x : Installing) (i : Nat) : Nat := ((x.ls[i]?).map (·.id)).getD 0

/-- A scratchpad's contents and poison placed at a number. -/
def State.fillScratch (s : State) (at' n : Nat) (bytes bits : List Byte) : State :=
  s.mapCore at' (fun c => { c with
    scratch := Memory.writeBytes [] 0 (bytes.take n)
    scratchPoison := smSetList false [] 0 ((List.range (n / 4)).map (packedBit bits)) })

/-- The core that a module logical core number means on this module. -/
def State.coreOfLogical (s : State) (x : Nat) : Option Nat := (s.activeCores (x / 64))[x % 64]?

/-- The number by which teams of a record are known that names no core of this module. -/
def strayCore (x : Nat) : Nat := 5 * 10 ^ 5 + x

/-- The position that a SCRATCH record of a neighbourhood's core repeats: that of the first team that it lists. -/
def State.listedPosition (s : State) (ts : List TeamId) : Option (GangId × Nat) :=
  ts.findSome? (fun i => (s.team? i).bind (fun t => if (s.launch? t.launch).any (·.nb) then some (t.gang, t.pos) else none))

/-- A SCRATCH record: its contents wait beside the core numbers, and its teams are known by it. That of a neighbourhood's core, whose contents
the NBHD record holds, gives that position its teams and its number. -/
def Installing.scratch (x : Installing) (s : State) (r : ImgRec) : State :=
  let n := leAt r.body 8 4
  let k := s.saveSlot
  let ts := (List.range (leAt r.body 0xC 4)).map (fun i => (⟨x.asid, wordAt r.body (0x10 + 4 * i)⟩ : TeamId))
  let die := leAt r.body 4 4
  let core := s.coreOfLogical r.id
  let data := r.body.drop 0x50
  let s : State := { s with teams := s.teams.map (fun (t : Team) => if t.id ∈ ts then { t with savedOn := some (core.getD (strayCore r.id)) } else t) }
  match s.listedPosition ts with
  | some p =>
    { s with savedScratch := s.savedScratch.map (fun z => if z.nb = some p then { z with teams := ts, tag := some r.id } else z) }
  | none =>
    let s := s.fillScratch k n data (data.drop n)
    { s with savedScratch := s.savedScratch ++ [⟨x.launchId (leAt r.body 0 4), die, core.getD (36 * die), some r.id, k, ts, none⟩] }

/-- One position of an NBHD record. -/
def Installing.position (x : Installing) (r : ImgRec) (n : Nat) (s : State) (p : Nat) : State :=
  let k := s.saveSlot
  let data := r.body.drop 0x70
  let shape := [(1, 1), (1, 2), (2, 1), (1, 3), (3, 1), (2, 2), (2, 3), (3, 2)].getD (leAt r.body 8 4) (1, 1)
  let bits := data.drop (n * (shape.1 * shape.2) + n / 32 * p)
  let s := s.fillScratch k n (data.drop (n * p)) bits
  { s with savedScratch := s.savedScratch ++
      [⟨x.launchId (leAt r.body 0 4), leAt r.body 4 4, 36 * leAt r.body 4 4, none, k, [], some (⟨x.asid, BitVec.ofNat 32 r.id⟩, p)⟩] }

def Installing.nbhd (x : Installing) (s : State) (r : ImgRec) : State :=
  let shape := [(1, 1), (1, 2), (2, 1), (1, 3), (3, 1), (2, 2), (2, 3), (3, 2)].getD (leAt r.body 8 4) (1, 1)
  (List.range (shape.1 * shape.2)).foldl (fun s p => x.position r (leAt r.body 0xC 4) s p) s

/-- The entries of a DSCR record; they wait until they fit on the die (09 R209). -/
def Installing.dscrEntries (x : Installing) (die : Nat) : Nat → List Byte → List DieScratch
  | 0, _ => []
  | n + 1, b =>
    let d := leAt b 8 8
    let data := b.drop 16
    let bits := data.drop d
    let entry : DieScratch := ⟨x.launchId (leAt b 0 4), die + 6, Memory.writeBytes [] 0 (data.take d),
      smSetList false [] 0 ((List.range (d / 4)).map (packedBit bits))⟩
    entry :: Installing.dscrEntries x die n (b.drop ((16 + d + d / 32 + 7) / 8 * 8))

/-- A MATRIX record's array block. -/
def arrayAt (seat : Nat) (b : List Byte) : ArrayState :=
  let ph := leAt b 0 4
  let bits := b.drop 0x2CE80
  let word := fun (k : Nat) => (⟨wordAt b (0x80 + 4 * k), packedBit bits k⟩ : PWord)
  let fill := fun (isB : Bool) (base : Nat) (k : Bank) =>
    Bank.fill k isB ((List.range (bankSize isB)).map (fun w => (w, word (base + w))))
  { core := seat
    ab := Vector.ofFn (fun i => fill false (1056 * i.val) ⟨[], ph.testBit i.val, false⟩)
    bb := Vector.ofFn (fun i => fill true (4224 + 2240 * i.val) ⟨[], ph.testBit (4 + i.val), ph.testBit (12 + i.val)⟩)
    acc := Vector.ofFn (fun i =>
      ⟨(List.range 8192).foldl (fun m e => smSet PWord.zero m e (word (13184 + 8192 * i.val + e))) [], ph.testBit (8 + i.val)⟩)
    queue := [] }

/-- A queued operation from its instruction word and FMT, with its array index. -/
def mxOpOf (w fmt : Word) : Option (BitVec 2 × MxOp) :=
  match decodeScalar w with
  | .ok (.mzero c a) => some (c, ⟨.mzero, w, a, 0, 0, false, false, false, 0, fmt, none, 0, 0⟩)
  | .ok (.mma c a p q x y z m) => some (c, ⟨.mma, w, a, p, q, x == 1, y == 1, z == 1, m, fmt, none, 0, 0⟩)
  | .ok (.mmaq c a p q x y z m) => some (c, ⟨.mmaq, w, a, p, q, x == 1, y == 1, z == 1, m, fmt, none, 0, 0⟩)
  | .ok (.mmas c a p q x y z m) => some (c, ⟨.mmas, w, a, p, q, x == 1, y == 1, z == 1, m, fmt, none, 0, 0⟩)
  | _ => none

/-- The array cores that a group's record names on this module: the first of its cluster. -/
def State.arrayCores (s : State) (cl m : Nat) : List Nat :=
  let active := s.clusterCores cl
  (active ++ ((clusterSites (cl % 9)).map (· + 36 * (cl / 9))).filter (fun c => !active.contains c)).take m

/-- A MATRIX record: a group of the launch whose teams stood on its array cores, or of one with as many array cores (DESIGN CHOICE,
notes/assumptions/115); a group that waits for a cluster, its seats matched to the teams whose scratchpads stood on its array cores. -/
def Installing.matrix (x : Installing) (s : State) (r : ImgRec) : State :=
  let b := r.body
  let m := leAt b 0 4
  let cores := s.arrayCores r.id m
  let fits := fun (l : Launch) => l.arrays = m && l.diemask.testBit (r.id / 9)
  let seated := fun (l : Launch) => fits l && s.teams.any (fun t => t.launch = l.id && t.savedOn.any cores.contains)
  match (x.ls.find? seated <|> x.ls.find? fits) with
  | none => s
  | some l =>
    let n := ((s.groups.map (fun g => g.cl - 54)).foldl Nat.max 0) + 55
    let arrays := ((List.range m).zip cores).map (fun y => arrayAt (groupSeat n y.2) (b.drop (0x210 + 0x2E500 * y.1)))
    let ops := (List.range (leAt b 0x48 4)).filterMap (fun i => mxOpOf (wordAt b (0x50 + 8 * i)) (wordAt b (0x54 + 8 * i)))
    let g : Group := ⟨n, l.id, scalarAt b 0x08 0x10 0x20 0x40 0x90 0x110, arrays, false⟩
    let g := ops.foldl (fun g o => g.mapArray o.1.toNat (ArrayState.enqueue o.2)) g
    let seat := fun (t : Team) =>
      if t.launch = l.id && t.savedOn.any cores.contains then { t with savedOn := t.savedOn.map (groupSeat n) } else t
    { s with groups := s.groups ++ [g], teams := s.teams.map seat, saveOrder := s.saveOrder ++ [UnitId.ctrl n] }

/-- A BARRIER record. -/
def Installing.barrier (x : Installing) (s : State) (r : ImgRec) : State :=
  let b := r.body
  let w := leAt b 4 4
  let parts := (List.range (natBits w 8 5)).map (fun i =>
    (⟨⟨x.asid, wordAt b (0x18 + 8 * i)⟩, (leAt b 0x14 4).testBit i, wordAt b (0x1C + 8 * i), 0, (leAt b 0xD8 4).testBit i, 0⟩ : Part))
  let gid := ((parts.head?.bind (fun p => s.team? p.team)).map (·.gid)).getD 0
  { s with barriers := s.barriers ++
      [⟨x.launchId (leAt b 0 4), gid, BitVec.ofNat 3 w, w.testBit 3, parts, wordAt b 0x10, dwordAt b 8, w.testBit 17, w.testBit 16,
        BitVec.ofNat 2 (natBits w 18 2), none⟩] }

/-- A SHARD record. A timer that does not run, of a shard that holds records, has expired (13 R282). -/
def Installing.shard (x : Installing) (s : State) (r : ImgRec) : State :=
  let b := r.body
  let n := leAt b 0x18 4
  let lid := x.launchId (leAt b 0 4)
  let bin := leAt b 4 4
  let bits := b.drop (0x20 + 16 * n)
  let tags := bits.drop (((n + 7) / 8 + 7) / 8 * 8)
  let recs := ((List.range n).zip (recsOf n (b.drop 0x20))).map (fun y =>
    let before := ((List.range y.1).filter (packedBit bits)).length
    { y.2 with tag := if packedBit bits y.1 then some ⟨x.asid, wordAt tags (4 * before)⟩ else none })
  let us := leAt b 0x10 4
  let timer := (((x.ls.find? (fun l => l.id = lid)).bind (fun l => l.bin? bin)).map (·.timer)).getD 0
  let h : Shard :=
    { launch := lid
      bin := bin
      die := leAt b 8 4
      recs := recs
      timer := none
      frozen := some (if us = 0 then 0 else us * Config.cyclesPerUs + 1)
      expired := us == 0 && !recs.isEmpty && timer != 0
      ready := none
      rot := leAt b 0x14 4
      takes := [] }
  let close := fun (y : Bin) =>
    if (leAt b 0xC 4).testBit 0 then
      { y with closed := true, closeTag := if (leAt b 0xC 4).testBit 1 then some ⟨x.asid, wordAt b 0x1C⟩ else none }
    else { y with closed := false, closeTag := none }
  { s.mapLaunch lid (fun l => l.mapBin bin close) with shards := s.shards ++ [h] }

/-- The words of a descriptor as they stand, when it can be read. -/
def State.peekDesc (s : State) (o : EngineOp) : Option (List PWord × Nat) :=
  match s.translate o.agent o.desc with
  | (_, .ok _ pa) =>
    some ((List.range (o.cls.size / 4)).map (fun i => readPWord s.mem s.poison (pa + 4 * i)), pa)
  | (_, .page _) => none
  | (_, .stall) => none

/-- The storage that a key names. -/
def Installing.storage (x : Installing) (s : State) (key : Nat) : Storage :=
  let ty := key / 2 ^ 62
  let id := key % 2 ^ 32
  if ty = 1 then
    match s.savedScratch.find? (fun z => inContext x.ls z.launch && z.tag = some id) with
    | some z => .scratch z.at'
    | none => .scratch 216
  else if ty = 2 then
    .window ((s.savedScratch.filter (fun z => z.nb.any (fun g => g.1 = ⟨x.asid, BitVec.ofNat 32 id⟩))).map (·.at'))
  else if ty = 3 then .dscratch (key % 256)
  else .global

/-- The launch of an operation whose team has retired: the one whose storage it names, or else the first of the image (DESIGN CHOICE,
notes/assumptions/115). -/
def Installing.opLaunch (x : Installing) (s : State) (key : Nat) : Option Launch :=
  let ty := key / 2 ^ 62
  let id := key % 2 ^ 32
  let found :=
    if ty = 1 then (s.savedScratch.find? (fun z => z.tag = some id)).map (·.launch)
    else if ty = 2 then (s.savedScratch.find? (fun z => z.nb.any (fun g => g.1.gid.toNat = id))).map (·.launch)
    else if ty = 3 then some (x.launchId (natBits key 16 8))
    else none
  match found with
  | some l => x.ls.find? (fun y => y.id = l)
  | none => x.ls.head?

/-- An ENGINE record: the operation, in the state that its handle shows, goes on from its progress when its team is placed; one that has made
none reads its descriptor anew. That of a team that has retired counts as issued at position 0, on the first array core of the first group
of its launch on its die. DESIGN CHOICE: notes/assumptions/120. -/
def Installing.engine (x : Installing) (s : State) (r : ImgRec) : State :=
  let b := r.body
  let team : TeamId := ⟨x.asid, wordAt b 0⟩
  let h := BitVec.ofNat 4 (leAt b 4 4)
  let seq := BitVec.ofNat 48 (leAt b 0x10 8)
  let flags := leAt b 0xC 4
  let key := Nat.max (leAt b 0x40 8) (leAt b 0x48 8)
  let own := s.team? team
  match (match own with
    | some t => s.launch? t.launch
    | none => x.opLaunch s key) with
  | none => s
  | some l =>
    let die := (own.map (·.die)).getD (leAt b 0 4 / 2 ^ 24)
    let st := (own.map (fun t => if (t.sc.handle h).seq = seq then (t.sc.handle h).st else .running)).getD .running
    let o : EngineOp :=
      { id := ⟨team, seq⟩
        handle := h
        cls := classOfCode (leAt b 8 4)
        gid := (own.map (·.gid)).getD (if key / 2 ^ 62 = 2 then BitVec.ofNat 32 key else 0)
        launch := l.id
        die := die
        core := 36 * die
        src := x.storage s (leAt b 0x40 8)
        dst := x.storage s (leAt b 0x48 8)
        pc := dwordAt b 0x18
        desc := dwordAt b 0x20
        pgpool := dwordAt b 0x28
        sup := flags.testBit 1
        count := if flags.testBit 2 then some (BitVec.ofNat 3 (natBits flags 4 3)) else none
        body := none
        prog := leAt b 0x30 8
        st := st
        cause := 0
        addr := dwordAt b 0x38
        kind := 0
        fault := flags.testBit 0 && st == .running
        cancel := false
        tile := none
        appendWait := false
        joined := false
        phases := []
        stalled := none
        ending := none
        pos := (own.map (·.pos)).getD 0
        arr := if own.isNone && classOfCode (leAt b 8 4) = .xgath then
          (s.groups.find? (fun g => g.launch = l.id && g.die = die)).map (fun g => (g.cl, 0))
        else none
        held := []
        stale := false }
    match s.peekDesc o with
    | some (ws, pa) =>
      let scause := s.memNat (pa + o.cls.statusArea.1) 4
      let o := { o with body := if o.prog = 0 then none else o.cls.parse l ws }
      { s with ops := s.ops ++ [if st == .stopped then { o with cause := scause % 256, kind := BitVec.ofNat 2 (scause / 256) } else o] }
    | none => { s with ops := s.ops ++ [o] }

/-- A CLASS record: RO and SHARED as recorded, PRIV as UNCL. -/
def Installing.cls (x : Installing) (s : State) (r : ImgRec) : State :=
  match s.translate (iodAgent x.asid) (dwordAt r.body 0) with
  | (s, .ok _ pa) =>
    if !isDevice pa then s
    else
      match natBits (leAt r.body 8 4) 0 2 with
      | 2 => s.setClass (granuleOf pa) .ro
      | 3 => s.setClass (granuleOf pa) .shared
      | _ => (s.dropCopies (granuleOf pa)).setClass (granuleOf pa) .uncl
  | (s, _) => s

/-! ## Versions (11 R252) -/

/-- The gang of a VERSION record. -/
def Installing.gang (x : Installing) (s : State) (r : ImgRec) : Gang :=
  let b := r.body
  let gid := BitVec.ofNat 32 r.id
  { id := ⟨x.asid, gid⟩
    launch := x.launchId (leAt b 0 4)
    prot := true
    hardened := false
    ended := !s.teams.any (fun t => t.gang = ⟨x.asid, gid⟩) && !s.ops.any (fun o => o.agentGang = ⟨x.asid, gid⟩ && o.st == .running)
    deps := (List.range (leAt b 4 4)).map (fun i => ⟨BitVec.ofNat 8 (leAt b (0x1C + 8 * i) 1), wordAt b (0x18 + 8 * i)⟩)
    kills := leAt b 0x10 4
    past := [] }

/-- The marks of 32 words. -/
def marksAt (b : List Byte) (off : Nat) : List Bool := (List.range 32).map (packedBit (b.drop off))

/-- A versioned line put over what memory holds. -/
def Installing.line (x : Installing) (g : GangId) (b : List Byte) (s : State) (off : Nat) : State :=
  match s.translate (iodAgent x.asid) (dwordAt b off) with
  | (s, .ok _ pa) =>
    let loc : TagLoc := .mem (lineOf pa)
    let data : VTag := ⟨loc, g, (b.drop (off + 8)).take 128, marksAt b (off + 136)⟩
    (s.pushTag loc g).restoreTag data
  | (s, _) => s

/-- An undo copy of a scratchpad line. -/
def Installing.undo (x : Installing) (g : GangId) (b : List Byte) (s : State) (off : Nat) : State :=
  let key := leAt b off 8
  let at' := leAt b (off + 8) 8
  let bytes := (b.drop (off + 16)).take 128
  let marks := marksAt b (off + 144)
  let put := fun (loc : TagLoc) => { s with tags := s.tags ++ [⟨loc, g, bytes, marks⟩] }
  match x.storage s key with
  | .scratch c => put (.scratch c (at' / 128))
  | .window cs =>
    let n := ((s.gang? g).bind (fun y => s.launch? y.launch)).map (fun l => l.spq * 1024) |>.getD 1
    put (.scratch (cs.getD (at' / n) 216) (at' % n / 128))
  | .dscratch d => put (.dscratch (x.launchId (natBits key 16 8)) (d + 6) (at' / 128))
  | .global => s

/-- A VERSION record. -/
def Installing.version (x : Installing) (s : State) (r : ImgRec) : State :=
  let b := r.body
  let g : GangId := ⟨x.asid, BitVec.ofNat 32 r.id⟩
  let first := 0x18 + 8 * leAt b 4 4
  let nv := leAt b 8 4
  let s := (List.range nv).foldl (fun s i => x.line g b s (first + 144 * i)) s
  (List.range (leAt b 0xC 4)).foldl (fun s i => x.undo g b s (first + 144 * nv + 152 * i)) s

/-- VERSION records, those that others depend on first. -/
def State.insertVersion (s : State) (asid : Byte) (r : ImgRec) : List ImgRec → List ImgRec
  | [] => [r]
  | y :: ys =>
    let size := fun (r : ImgRec) => (s.dependsOn ⟨asid, BitVec.ofNat 32 r.id⟩).length
    if size r < size y then r :: y :: ys else y :: State.insertVersion s asid r ys

/-- The gangs of an image: those of VERSION records, and the others of its teams, which are unprotected or hardened. -/
def Installing.gangs (x : Installing) (s : State) : State :=
  let s := { s with gangs := s.gangs ++ (x.sec 0x0B).map (x.gang s) }
  let mine := ((s.teams.filter (fun t => inContext x.ls t.launch)).map (fun t => (t.gang, t.launch))).eraseDups
  let rest := mine.filter (fun g => (s.gang? g.1).isNone)
  { s with gangs := s.gangs ++ rest.map (fun g =>
      let prot := x.ls.any (fun l => l.id = g.2 && l.relaunch)
      ⟨g.1, g.2, prot, prot, false, [], 0, []⟩) }

/-! ## The whole -/

/-- The granules of a Drogue record copied back (R360). -/
def State.copyBack (s : State) (asid : Byte) (img : List Byte) : State :=
  match s.flash.find? (fun f => f.asid = asid && f.committed && !f.superseded && f.image = img) with
  | none => s
  | some f => f.granules.foldl (fun s g =>
      match s.translate (iodAgent asid) g.1 with
      | (s, .ok _ pa) =>
        let s := s.devWrite pa g.2.1
        { s with poison := smSetList false s.poison (pa / 4) g.2.2 }
      | (s, _) => s) s

/-- The saved launches of a context give way to the restored ones. -/
def State.dropSaved (s : State) (asid : Byte) : State :=
  { s with launches := s.launches.filter (fun l => !(l.asid = asid && l.lstate == .saved)) }

/-- The teams of an image in the order of their placement. -/
def teamOrder (rs : List ImgRec) (asid : Byte) : List UnitId :=
  (sortRecs rs).map (fun r => UnitId.team ⟨asid, BitVec.ofNat 32 r.id⟩)

/-- Every record installed. -/
def Installing.run (x : Installing) (s : State) : State :=
  let raised := s.drogue.any (fun c => c.asid = x.asid && c.raised)
  let teams := (x.sec 0x02).filterMap (fun r =>
    (x.ls[leAt r.body 8 4]?).map (fun l => savedTeam x.asid l raised r.body))
  let s := { s with
    launches := s.launches ++ x.ls
    nextLaunch := s.nextLaunch + x.ls.length
    teams := s.teams ++ teams
    saveOrder := s.saveOrder ++ teamOrder (x.sec 0x02) x.asid
    drogue := s.drogue.map (fun c => if c.asid = x.asid && c.raised then { c with later := c.later ++ teams.map (·.id) } else c)
    dscratch := s.dscratch ++ (x.sec 0x06).flatMap (fun r => x.dscrEntries r.id (leAt r.body 0 8) (r.body.drop 8)) }
  let s := (x.sec 0x08).foldl x.shard s
  let s := (x.sec 0x05).foldl x.nbhd s
  let s := (x.sec 0x04).foldl x.scratch s
  let s := (x.sec 0x03).foldl x.matrix s
  let s := (x.sec 0x07).foldl x.barrier s
  let s := (x.sec 0x09).foldl x.engine s
  let s := (x.sec 0x0A).foldl x.cls s
  let s := x.gangs s
  ((x.sec 0x0B).foldl (fun acc r => s.insertVersion x.asid r acc) []).foldl x.version s

/-- The launches sent to their leaf controllers, which may place teams unless another process has the turn. -/
def State.announce (s : State) (q : Queue) (l : Launch) : State :=
  let cls := s.launchClusters l
  let s := cls.foldl (fun s cl => s.sendDown cl (.lnote l.id)) s
  let now := q.signal || (s.holdsTurn q.proc && s.turnNext.isNone)
  if now then cls.foldl (fun s cl => s.sendDown cl (.resume l.id)) s else s

/-- The context of an image bound to a queue (R353, R354). -/
def State.install (s : State) (img : List Byte) (q : Queue) : State :=
  match parseSections img with
  | none => s
  | some sects =>
    let s := (s.dropSaved q.asid).copyAsid q.asid
    let s := if (leAt img 0x18 4).testBit 8 then s.copyBack q.asid img else s
    let recs := sortRecs (recordsOf sects 0x01)
    let formed := fun (l : Launch) => if (recordsOf sects 0x03).isEmpty then [] else s.launchClusters l
    let ls := ((List.range recs.length).zip recs).map (fun r =>
      let l := savedLaunch (s.nextLaunch + r.1) q (Config.restoredPacket (s.freeCount + r.1)) r.2.body
      { l with formed := formed l, cands := s.candClusters l })
    let s := Installing.run ⟨q.asid, ls, sects⟩ { s with freeCount := s.freeCount + ls.length }
    ls.foldl (fun s l => s.announce q l) s

end Sys2Proof.Machine
end

