-- ==== Sys2Proof/Machine/Mailbox.lean ====
section
/-! DEFINITION. The firmware commands of the mailbox (spec/18 R383, R385, R386; spec/16 R351–R357) and the Drogue's sequence on supply
loss (spec/16 R358–R360). -/

namespace Sys2Proof.Machine

/-! ## Commands (18 R383) -/

/-- A command: one that comes while another runs is ignored and sets ERR, and after supply loss only REPORT is carried out. -/
def State.mailbox (s : State) (always : Bool) (f : State → State) : Out :=
  let began := { s with mbErr := false }
  if s.mbBusy then .next { s with mbErr := true }
  else if !always && s.supply != .on then .next (began.mailboxDone 0x0A)
  else .next (f began)

/-- The entry of an ASID: its copy, or what the table holds. -/
def State.asidEntry (s : State) (asid : Byte) : AsidCopy := (s.asidCopy? asid).getD (s.readAsidEntry asid)

/-- FREEZE (16 R351). DEDUCED: notes/assumptions/33. DEDUCED: notes/assumptions/89. -/
def State.freezeCmd (asid : Byte) (s : State) : State :=
  if !s.imageAreas.any (fun a => a.1 = asid) then s.mailboxDone 0x07
  else if !(s.asidEntry asid).valid then s.mailboxDone 0x05
  else ({ s with mbBusy := true } : State).raise (.freeze asid) ((s.contextLaunches asid).map (·.id)) []

def execFreeze (asid : Byte) (s : State) : Out := s.mailbox false (State.freezeCmd asid)

/-- RESTORE (16 R352–R354). -/
def State.restoreCmd (addr : DWord) (q : Nat) (s : State) : State :=
  let img := s.imageAt addr.toNat
  let code := s.restoreCode img q
  match s.queue? q, code with
  | some x, 0 => (s.install img x).mailboxDone 0
  | _, _ => s.mailboxDone code

def execRestore (addr : DWord) (q : Nat) (s : State) : Out := s.mailbox false (State.restoreCmd addr q)

/-- The set bits of a byte. -/
def byteBits (b : Byte) : List Nat := (List.range 8).filter b.getLsbD

/-- The granules of a tracked range whose bits are set in the bitmap, ascending (15 R332, R339). -/
def State.dirtyGranules (s : State) (a : AsidCopy) : List Nat :=
  ((s.mem.filter (fun c => a.dbbase ≤ c.1 && c.1 < a.dbbase + (a.dblen + 7) / 8)).flatMap (fun c =>
    (byteBits c.2).map (· + 8 * (c.1 - a.dbbase)))).filter (· < a.dblen)

/-- A checkpoint of a protected context: DCOUNT and the lapse; teams placed after it have no DIRTY_BUDGET to take any more (16 R356, R357). -/
def DrogueCtx.checkpoint (n : Nat) (c : DrogueCtx) : DrogueCtx := { c with dcount := n, lapsed := false, raised := false, later := [] }

/-- CKPT (16 R357). -/
def State.ckptCmd (asid : Byte) (s : State) : State :=
  if s.drogue.any (fun c => c.asid = asid) then
    let n := (s.dirtyGranules (s.asidEntry asid)).length
    ({ s with drogue := replaceFirst (fun c => c.asid = asid) (DrogueCtx.checkpoint n) s.drogue } : State).mailboxDone 0
  else s.mailboxDone 0x01

def execCkpt (asid : Byte) (s : State) : Out := s.mailbox false (State.ckptCmd asid)

/-- DROGUE_REG (16 R355): 0 means 12 GiB. DEDUCED: notes/assumptions/87. DEDUCED: notes/assumptions/88. -/
def State.drogueRegCmd (asid : Byte) (budget : Nat) (s : State) : State :=
  let b := if budget = 0 then 12 else budget
  let others := s.drogue.filter (fun c => c.asid ≠ asid)
  let e := s.asidEntry asid
  if 12 < b then s.mailboxDone 0x01
  else if !s.feature 7 then s.mailboxDone 0x08
  else if !e.valid then s.mailboxDone 0x05
  else if e.dbbase = 0 then s.mailboxDone 0x01
  else if 12 < b + (others.map (·.budget)).sum then s.mailboxDone 0x09
  else ({ s with drogue := others ++ [⟨asid, b, 0, false, false, []⟩] } : State).mailboxDone 0

def execDrogueReg (asid : Byte) (budget : Nat) (s : State) : Out := s.mailbox false (State.drogueRegCmd asid budget)

/-- IMAGE_AREA (16 R351): device memory, aligned as an image is (R347). -/
def State.imageAreaCmd (asid : Byte) (addr : DWord) (size : Nat) (s : State) : State :=
  if addr.toNat % 128 != 0 || deviceLimit < addr.toNat + size then s.mailboxDone 0x01
  else
    ({ s with imageAreas := s.imageAreas.filter (fun a => a.1 ≠ asid) ++ [(asid, addr, size)] } : State).mailboxDone 0

def execImageArea (asid : Byte) (addr : DWord) (size : Nat) (s : State) : Out := s.mailbox false (State.imageAreaCmd asid addr size)

/-- PREEMPT (14 R319). DEDUCED: notes/assumptions/82. -/
def State.preemptCmd (tgt : PreTarget) (s : State) : State :=
  match tgt with
  | .launch l =>
    if (s.launch? l).any (fun x => x.lstate == .running) then (s.raise .request [l] []).mailboxDone 0 else s.mailboxDone 0x01
  | .context asid =>
    if (s.asidCopy? asid).isSome then (s.raise .request ((s.contextLaunches asid).map (·.id)) []).mailboxDone 0
    else s.mailboxDone 0x01
  | .cores cs => if cs.all s.isActive then (s.raise .request [] cs).mailboxDone 0 else s.mailboxDone 0x01

def execPreempt (tgt : PreTarget) (s : State) : Out := s.mailbox false (State.preemptCmd tgt)

/-! ## Signed commands (18 R385, 14 R307, R308) -/

/-- An entry's first word. -/
def Partition.setCaps (v : Nat) (p : Partition) : Partition :=
  { p with regcap := natBits v 12 10, slotcap := natBits v 7 5, pdies := natBits v 1 6, valid := v.testBit 0 }

/-- A write to the partition table; nothing for an offset that it does not have or a value out of its range. -/
def State.writePartition (s : State) (off v : Nat) : Option State :=
  let p := (off - 0x20) / 32
  let put := fun (f : Partition → Partition) =>
    { s with partitions := Vector.ofFn (fun i => if i.val = p then f (s.partitions.get i) else s.partitions.get i) }
  if off = 0 then (if natBits v 0 8 ≤ 128 then some { s with rlslots := natBits v 0 8 } else none)
  else if off < 0x20 || 8 ≤ p then none
  else if off % 32 = 0 then
    (if 1 ≤ natBits v 12 10 && natBits v 12 10 ≤ 512 && 1 ≤ natBits v 7 5 && natBits v 7 5 ≤ 16 then some (put (Partition.setCaps v)) else none)
  else if off % 32 = 4 then
    (if 100 ≤ natBits v 0 32 && natBits v 0 32 ≤ 1000000 then some (put (fun x => { x with quantum := natBits v 0 32 })) else none)
  else if off % 32 = 8 then some (put (fun x => { x with clmask := natBits v 0 54 }))
  else none

/-- SIGNED: the signature and the sequence number, then the command (R385). -/
def State.signedCmd (cmd : List Byte) (s : State) : State :=
  let n := Config.signedSequence cmd
  if !Config.signatureValid cmd || n ≤ s.signedSeq then s.mailboxDone 0x02
  else
    let s := { s with signedSeq := n }
    match Config.signedPartitionWrite cmd with
    | none => s.mailboxDone 0
    | some (off, v) =>
      match s.writePartition off v.toNat with
      | some s => s.serve.mailboxDone 0
      | none => s.mailboxDone 0x01

def execSigned (cmd : List Byte) (s : State) : Out := s.mailbox false (State.signedCmd cmd)

/-! ## Attestation (18 R386, 16 R343) -/

/-- A core-map block. -/
def CoreMap.block (m : CoreMap) : List Byte :=
  let retired := ((List.range 36).filter m.retire.getLsbD).length
  let count := m.count + 2 ^ 8 * retired + 2 ^ 16 * m.spcc.toNat + (if m.spareRetired then 2 ^ 20 else 0)
  let ltab := (List.range 36).map (fun i => BitVec.ofNat 8 (m.ltab.getD i 0xFF))
  layout 0 [(0x00, natBytes 8 m.harvest.toNat ++ natBytes 8 m.retire.toNat ++ natBytes 8 m.active.toNat ++ natBytes 4 count),
    (0x20, ltab), (0x44, natBytes 4 m.gen.toNat), (0x80, [])]

/-- The order code SVE-E6M-864. -/
def orderCode : List Byte := [0x53, 0x56, 0x45, 0x2D, 0x45, 0x36, 0x4D, 0x2D, 0x38, 0x36, 0x34]

/-- What a report holds, before its signature. DEDUCED: notes/assumptions/90. -/
def State.reportBody (s : State) (nonce : List Byte) : List Byte :=
  orderCode ++ (List.range 16).map Config.serialByte ++ shake256 64 s.firmware.iodRuns ++ shake256 64 s.firmware.leafRuns
    ++ (s.fw.toList ++ s.fwacc.toList).flatMap (fun w => natBytes 4 w.toNat)
    ++ s.coreMaps.toList.flatMap CoreMap.block ++ nonce

/-- n bytes at an address lie in one of the two memories that an address can name (15 R325). -/
def backedRange (pa n : Nat) : Bool := pa + n ≤ deviceLimit || (2 ^ 51 ≤ pa && pa + n ≤ 2 ^ 52)

/-- REPORT. -/
def State.reportCmd (nonce : List Byte) (buf : DWord) (s : State) : State :=
  let body := s.reportBody nonce
  let bs := body ++ Config.reportSignature body
  if nonce.length != 32 || !backedRange buf.toNat bs.length then s.mailboxDone 0x01
  else (s.devWrite buf.toNat bs).mailboxDone 0

def execReport (nonce : List Byte) (buf : DWord) (s : State) : Out := s.mailbox true (State.reportCmd nonce buf)

/-! ## The Drogue (16 R358–R360) -/

/-- SUPPLY_LOSS: every context is frozen, and a FREEZE that runs is taken in. Host accesses that wait are answered with an error. DEDUCED: notes/assumptions/91. -/
def execSupplyLoss (s : State) : Out :=
  if s.supply != .on then .next s
  else
    let s := { s with
      supply := .lost
      hostStalls := []
      hostReply := match s.hostStalls.getLast? with
        | some x => some (HostReply.refused (128 * x.1))
        | none => s.hostReply
      collections := s.collections.map (fun (c : Collection) =>
        { c with purposes := c.purposes.filter (fun p => !(match p with
          | .freeze _ => true
          | .turnEnd => false
          | .request => false
          | .repair _ => false
          | .part _ => false
          | .ballast _ _ _ _ => false
          | .drogue => false)) }) }
    let s := if s.mbBusy then s.mailboxDone 0x0A else s
    .next (s.raise .drogue ((s.launches.filter (fun l => l.lstate == .running)).map (·.id)) [])

/-- Memory with every version taken off it: the committed lines (11 R252). -/
def State.committedMem (s : State) : State := (s.tags.filter (·.loc.isMem)).reverse.foldl (fun s t => s.restoreTag t) s

/-- A tracked granule whose bit is set, with its committed data and poison marks (R359). -/
def State.granule (s : State) (a : AsidCopy) (g : Nat) : Option (DWord × List Byte × List Bool) :=
  let va := a.dbvbase + BitVec.ofNat 64 (65536 * g)
  match s.translate (iodAgent a.asid) va with
  | (_, .ok _ pa) => some (va, s.mem.readBytes pa 65536, (List.range 16384).map (fun i => smGet false s.poison (pa / 4 + i)))
  | (_, .page _) => none
  | (_, .stall) => none

/-- A record with its granules and its commit word. -/
def State.commitFlash (s : State) (f : FlashRecord) : FlashRecord :=
  let a := s.asidEntry f.asid
  { f with granules := (s.dirtyGranules a).filterMap (s.committedMem.granule a), committed := true }

/-- A record that the flush has still to write and commit. -/
def FlashRecord.unwritten (f : FlashRecord) : Bool := !f.committed && !f.superseded

/-- A step of the flush: the next record is written and committed, and the flush is over when none is left. -/
def State.flush (s : State) : State :=
  let s := { s with flash := replaceFirst FlashRecord.unwritten s.commitFlash s.flash }
  if s.flash.any FlashRecord.unwritten then s else { s with supply := .flushed }

/-- The rest of the flush. -/
def State.flushAll : Nat → State → State
  | 0, s => s
  | n + 1, s => if s.supply == .lost then State.flushAll n s.flush else s

/-- The Drogue freeze is complete and the records may be written. -/
def State.mayFlush (s : State) : Bool :=
  s.supply == .lost && !s.energyLow && !s.collections.any (fun c => c.purposes.contains .drogue)

/-- DROGUE_FLUSH (R359). DESIGN CHOICE: notes/assumptions/86. -/
def execDrogueFlush (s : State) : Out := .next (if s.mayFlush then s.flush else s)

/-- ENERGY_RESERVE_LOW: writing stops; the records already committed stand (R360). -/
def execEnergyReserveLow (s : State) : Out := .next { s with energyLow := true }

def FlashRecord.supersede (f : FlashRecord) : FlashRecord := { f with superseded := true }

/-- SUPPLY_RETURN: the flush completes, the contexts resume without reset, the records are superseded, and the retirements that waited
for the flush go on (R360). -/
def execSupplyReturn (s : State) : Out :=
  if s.supply == .on || s.collections.any (fun c => c.purposes.contains .drogue) then .next s
  else
    let s := if s.mayFlush then State.flushAll (s.flash.length + 1) s else s
    let due := s.flushDue
    let s : State := { s with
      supply := .on
      energyLow := false
      flash := s.flash.map FlashRecord.supersede
      flushDue := [] }
    .next (due.foldl State.grant (s.resumeAll ((s.launches.filter (·.preempted)).map (·.id))))

end Sys2Proof.Machine
end

