-- ==== Sys2Proof/Machine/MemoryAgents.lean ====
section
/-! DEFINITION. What the memory system does besides the coherence protocol: host accesses to device memory (spec/09 R211, R225), the
completion of accesses to host memory (spec/10 R243), reclassification (spec/09 R219), table walks (spec/15 R327), and the commit and
hardening of gangs (spec/11 R254, R255). -/

namespace Sys2Proof.Machine

/-! ## Streams that wait for an access -/

/-- Every stream that waits for one thing, or whose access does, goes on in the next turn that it has. -/
def Access.wake (w : Wait) (a : Access) : Access := if a.wait = some w then { a with wait := none } else a

def wake (w : Wait) (sc : Scalar) : Scalar :=
  { sc.mapAccs (Access.wake w) with wait := if sc.wait = some w then none else sc.wait }

def State.wakeAll (s : State) (w : Wait) : State := s.mapStreams (wake w)

/-! ## Host accesses to device memory (09 R211, R218, R225; 11 R253) -/

/-- The events of a request: 64 bytes each, ascending. -/
def hostEvents (pa : Nat) : List Byte → Nat → List (Nat × List Byte)
  | _, 0 => []
  | bs, n + 1 => if bs = [] then [] else (pa, bs.take 64) :: hostEvents (pa + 64) (bs.drop 64) n

/-- What a host access waits for, over the granules and lines that it touches: nothing when it may perform. -/
def State.hostClasses (write : Bool) : List Nat → State → State × Bool
  | [], s => (s, true)
  | g :: gs, s =>
    match s.classify none write g with
    | .ok s _ => State.hostClasses write gs s
    | .drain s => (s, false)

/-- A host access stalls on each of its lines that carries a gang's tag. -/
def State.hostStall (s : State) (line : Nat) : State :=
  match s.topTag (.mem line) with
  | none => s
  | some t =>
    if s.hostStalls.any (fun x => x.1 = line && x.2.1 = t.gang) then s
    else { s with hostStalls := s.hostStalls.filter (fun x => x.1 ≠ line) ++ [(line, t.gang, s.clock)] }

/-- A host request is one to device memory. It is served whichever ports are up. DESIGN CHOICE: notes/assumptions/92. -/
def hostReaches (pa len : Nat) : Bool := 0 < len && isDevice (pa + len - 1)

/-- A host access whose events have nothing to wait for, and the state in which they perform; a state alone when it waits. All its
events perform together. DESIGN CHOICE: notes/assumptions/66. -/
def State.hostAccess (s : State) (pa len : Nat) (write : Bool) (perform : State → State) : State :=
  let lines := linesTouched pa len
  if !hostReaches pa len then s
  else if s.supply != .on then { s with hostReply := some (HostReply.refused pa) }
  else if lines.any s.lineBusy then s
  else
    match State.hostClasses write (lines.map (· / 512)).eraseDups s with
    | (s, false) => s
    | (s, true) =>
      if lines.any (fun l => (s.topTag (.mem l)).isSome) then lines.foldl (fun s l => s.hostStall l) s
      else perform { s with hostStalls := s.hostStalls.filter (fun x => !lines.contains x.1) }

/-- A word is poisoned of the 32-byte sectors that n bytes at an address touch. -/
def State.sectorsPoison (s : State) (pa n : Nat) : Bool := poisonedAt s.poison (pa / 32 * 32) ((pa + n + 31) / 32 * 32 - pa / 32 * 32)

/-- A host request is answered. -/
def State.reply (s : State) (pa : Nat) (bytes : List Byte) (poison : Bool) : State := { s with hostReply := some ⟨pa, bytes, poison, false⟩ }

/-- The data of a host read, with CXL's indication of poison (11 R249). -/
def State.hostRead (s : State) (pa len : Nat) : State :=
  let s := (linesTouched pa len).foldl (fun s l => s.cohHomeRead l) s
  s.reply pa (s.mem.readBytes pa len) (s.sectorsPoison pa len)

/-- HOST_CXL_MEM_READ. -/
def execHostCxlMemRead (pa len : Nat) (s : State) : Out := .next (s.hostAccess pa len false (State.hostRead · pa len))

/-- One event of a host write. -/
def State.hostWriteEvent (q : Bool) (s : State) (e : Nat × List Byte) : State :=
  ((linesTouched e.1 e.2.length).foldl (fun s l => s.cohHomeWrite l) s).locWrite (.mem e.1) e.2 q

/-- HOST_CXL_MEM_WRITE. -/
def execHostCxlMemWrite (pa : Nat) (bytes : List Byte) (poisoned : Bool) (s : State) : Out :=
  .next (s.hostAccess pa bytes.length true (fun s =>
    ((hostEvents pa bytes bytes.length).foldl (State.hostWriteEvent poisoned) s).reply pa [] false))

/-! ## Accesses to host memory (10 R243) -/

/-- CXL_CACHE_COMPLETION: the agent has a line that was asked for, or an error in its place. -/
def execCxlCacheCompletion (line : Nat) (err : Bool) (s : State) : Out :=
  if s.hostLines.any (fun h => h.line = line && !h.ready) then
    let s := { s with hostLines := replaceFirst (fun h => h.line = line) (fun h => { h with ready := true, err := err }) s.hostLines }
    .next (s.wakeAll (.cxl line))
  else .next s

/-! ## Reclassification (09 R219) -/

/-- A team of a core has an access to a granule whose class was taken, and that has still to write there, or to read there when reads are
drained too (09 R219 step 3). One that stalls on a gang's tag is not drained: its class is taken again. DEDUCED: notes/assumptions/103. -/
def State.overlapped (s : State) (core gran : Nat) (writes : Bool) : Bool :=
  let left := fun (e : AccEvent) => (e.op.touches || !writes) && (match e.spot.loc with
    | .mem pa => granuleOf pa = gran
    | .scratch _ _ => false
    | .dscratch _ _ _ => false)
  (s.teamsOn core).any (fun x => x.sc.accs.any (fun a => (a.overlaps || a.begun) && a.events.any left))

/-- RECLASS_DRAIN: a drained core whose overlapped accesses have performed gives up its copy of the class, with
its constant-cache lines of the granule, and acknowledges. -/
def execReclassDrain (node gran : Nat) (s : State) : Out :=
  match s.reclass.find? (fun r => r.gran = gran) with
  | some r =>
    if r.undrained.contains node && !s.overlapped node gran (r.target == .ro) then
      let drained := fun (r : Reclass) => { r with undrained := r.undrained.filter (· ≠ node) }
      let s := { s with reclass := replaceFirst (fun r => r.gran = gran) drained s.reclass }
      .next (((s.setCopies (· = .cluster (coreCluster node)) gran .uncl).dropConst (· = node) gran).count node none 0x07 1)
    else .next s
  | none => .next s

/-- An access that has not been drained takes the classes of its lanes again. -/
def Access.unclass (gran : Nat) (a : Access) : Access :=
  if a.begun then a
  else
    { a with classed := a.classed && !a.events.any (fun e => match e.spot.loc with
        | .mem pa => granuleOf pa = gran
        | .scratch _ _ => false
        | .dscratch _ _ _ => false) }

/-- A DECLASS that waits for the recording of its granule completes (10 R244). -/
def State.declassed (gran : Nat) (s : State) (x : Team) : State :=
  if x.sc.wait = some (.declass gran) then s.retire (.team x.id) x.sc.pc (x.sc.pc + 4) x.sc.sup false else s

/-- RECLASS_DRAIN_ACK: with every acknowledgement in, the home records the class, the accesses that waited proceed, and a DECLASS whose
request this was completes. -/
def execReclassDrainAck (gran : Nat) (s : State) : Out :=
  match s.reclass.find? (fun r => r.gran = gran) with
  | some r =>
    if r.undrained = [] then
      let s := { s with reclass := s.reclass.filter (fun x => x.gran ≠ gran) }.setClass gran r.target
      let s := (s.wakeAll (.reclass gran)).mapStreams (Scalar.mapAccs (Access.unclass gran))
      .next (if r.target = .uncl then s.teams.foldl (State.declassed gran) s else s.wakeAll (.declass gran))
    else .next s
  | none => .next s

/-! ## Table walks (15 R327, R333) -/

/-- TABLE_WALK: a translation that a cluster's TLB misses is walked, and enters the TLB when it stands in the tables. What an absent entry
means is for the access that needs it. -/
def execTableWalk (cl : Nat) (asid : Byte) (va : DWord) (s : State) : Out :=
  let v := va57 va
  if !canonical va || s.tlb.any (fun e => e.covers (.cluster cl) asid v) then .next s
  else
    match s.walk asid (cl / 9) v with
    | (s, .leaf lvl pte e) => .next (if e.testBit 12 then s else s.tlbFill (TlbEntry.ofLeaf (.cluster cl) asid v lvl pte e))
    | (s, .absent _ _) => .next s
    | (s, .bad) => .next s

/-! ## Gangs (11 R254, R255) -/

/-- The gang may commit with those it depends on in a cycle: all of them have ended, and no other is left to commit first. -/
def State.mayCommit (s : State) (g : GangId) : Bool :=
  (s.gang? g).isSome && (s.dependsOn g).all (fun x =>
    (s.gang? x).all (fun y => y.ended) && (s.dependsOn x).contains g)

/-- GANG_COMMIT. -/
def execGangCommit (g : GangId) (s : State) : Out :=
  if s.mayCommit g then
    let gs := s.dependsOn g
    let s := gs.foldl (fun s x => s.commitGang x) s
    .next { s with gangs := s.gangs.filter (fun x => x.id ∉ gs) }
  else .next s

/-- A stall limit: 100 µs. -/
def stallLimit : Nat := 100 * Config.cyclesPerUs

/-- The gang that an access stalls on, and since when. -/
def State.stalledOn (s : State) : Staller → Option (GangId × Nat)
  | .stream st => (s.scalar? st).bind (fun sc => (sc.wait :: sc.accs.map (·.wait)).findSome? (fun w =>
      match w with
      | some (.version g since) => some (g, since)
      | _ => none))
  | .op o => (s.op? o).bind (·.stalled)
  | .host line => (s.hostStalls.find? (fun x => x.1 = line)).map (·.2)

/-- VERSION_STALL_TIMEOUT: the gang hardens; each of its teams takes VERSION_FULL with SUB 1. -/
def execVersionStallTimeout (w : Staller) (s : State) : Out :=
  match s.stalledOn w with
  | some (g, since) =>
    if since + stallLimit < s.clock && s.versions g then .next (s.harden g (some 1)).settleGangs else .next s
  | none => .next s

end Sys2Proof.Machine
end

