-- ==== Sys2Proof/Machine/ScalarAlu.lean ====
section
/-! DEFINITION. Scalar integer arithmetic, address arithmetic and compares (spec/05 R108–R111, spec/03 R63). Every
destination word is poisoned when a source word is (05 R102). -/

namespace Sys2Proof.Machine

/-! ## Shared forms -/

/-- A form over two registers. -/
def aluRR (i : Instr) (d a b : BitVec 6) (f : Word → Word → Word) (s : State) : Out :=
  scalarInstr i false (fun st sc s =>
    .done (s.writeReg st d ⟨f (sc.reg a).val (sc.reg b).val, (sc.reg a).poison || (sc.reg b).poison⟩)) s

/-- A form over one register. -/
def aluR (i : Instr) (d a : BitVec 6) (f : Word → Word) (s : State) : Out :=
  scalarInstr i false (fun st sc s => .done (s.writeReg st d ⟨f (sc.reg a).val, (sc.reg a).poison⟩)) s

/-- A form over two address bases, into a pair (05 R101, R110). -/
def aluAA (i : Instr) (d a b : BitVec 6) (f : DWord → DWord → DWord) (s : State) : Out :=
  scalarInstr i false (fun st sc s =>
    .done (s.writePair st d
      (.ofVal (f (sc.base64 a).val (sc.base64 b).val) ((sc.base64 a).poison || (sc.base64 b).poison)))) s

/-- A shift by a count that may reach or pass the width (05 R108). -/
def shiftLeft (a b : Word) : Word := if 32 ≤ b.toNat then 0 else a <<< b.toNat
def shiftRight (a b : Word) : Word := if 32 ≤ b.toNat then 0 else a >>> b.toNat
def shiftArith (a b : Word) : Word := if 32 ≤ b.toNat then (if a.msb then 0xFFFFFFFF else 0) else a.sshiftRight b.toNat

/-- The high words of signed and unsigned products. -/
def mulHighSigned (a b : Word) : Word := (a.signExtend 64 * b.signExtend 64).extractLsb' 32 32
def mulHighUnsigned (a b : Word) : Word := (a.setWidth 64 * b.setWidth 64).extractLsb' 32 32

/-! ## Register forms (05 R108) -/

/-- ADD: a + b. -/
def execAdd (d a b : BitVec 6) (s : State) : Out :=
  aluRR (.add d a b) d a b (· + ·) s

/-- SUB: a − b. -/
def execSub (d a b : BitVec 6) (s : State) : Out :=
  aluRR (.sub d a b) d a b (· - ·) s

/-- MUL: the low word of a · b. -/
def execMul (d a b : BitVec 6) (s : State) : Out :=
  aluRR (.mul d a b) d a b (· * ·) s

/-- MULH: the high word of the signed product. -/
def execMulh (d a b : BitVec 6) (s : State) : Out :=
  aluRR (.mulh d a b) d a b mulHighSigned s

/-- MULHN: the high word of the unsigned product. -/
def execMulhn (d a b : BitVec 6) (s : State) : Out :=
  aluRR (.mulhn d a b) d a b mulHighUnsigned s

/-- AND. -/
def execAnd (d a b : BitVec 6) (s : State) : Out :=
  aluRR (.and d a b) d a b (· &&& ·) s

/-- OR. -/
def execOr (d a b : BitVec 6) (s : State) : Out :=
  aluRR (.or d a b) d a b (· ||| ·) s

/-- XOR. -/
def execXor (d a b : BitVec 6) (s : State) : Out :=
  aluRR (.xor d a b) d a b (· ^^^ ·) s

/-- ANDN: a and not b. -/
def execAndn (d a b : BitVec 6) (s : State) : Out :=
  aluRR (.andn d a b) d a b (fun x y => x &&& ~~~y) s

/-- SHL. -/
def execShl (d a b : BitVec 6) (s : State) : Out :=
  aluRR (.shl d a b) d a b shiftLeft s

/-- SHR. -/
def execShr (d a b : BitVec 6) (s : State) : Out :=
  aluRR (.shr d a b) d a b shiftRight s

/-- SRA. -/
def execSra (d a b : BitVec 6) (s : State) : Out :=
  aluRR (.sra d a b) d a b shiftArith s

/-- MIN, signed. -/
def execMin (d a b : BitVec 6) (s : State) : Out :=
  aluRR (.min d a b) d a b (minOf true) s

/-- MAX, signed. -/
def execMax (d a b : BitVec 6) (s : State) : Out :=
  aluRR (.max d a b) d a b (maxOf true) s

/-- MINN, unsigned. -/
def execMinn (d a b : BitVec 6) (s : State) : Out :=
  aluRR (.minn d a b) d a b (minOf false) s

/-- MAXN, unsigned. -/
def execMaxn (d a b : BitVec 6) (s : State) : Out :=
  aluRR (.maxn d a b) d a b (maxOf false) s

/-- CLZ. -/
def execClz (d a : BitVec 6) (s : State) : Out :=
  aluR (.clz d a) d a (fun x => BitVec.ofNat 32 (leadingZeros x)) s

/-- CTZ. -/
def execCtz (d a : BitVec 6) (s : State) : Out :=
  aluR (.ctz d a) d a (fun x => BitVec.ofNat 32 (trailingZeros x)) s

/-- POPC. -/
def execPopc (d a : BitVec 6) (s : State) : Out :=
  aluR (.popc d a) d a (fun x => BitVec.ofNat 32 (popCount x)) s

/-! ## Immediate forms (05 R109, 03 R63) -/

/-- ADDI. -/
def execAddi (d a : BitVec 6) (i : BitVec 14) (s : State) : Out :=
  aluR (.addi d a i) d a (· + i.signExtend 32) s

/-- ANDI. -/
def execAndi (d a : BitVec 6) (i : BitVec 14) (s : State) : Out :=
  aluR (.andi d a i) d a (· &&& i.signExtend 32) s

/-- ORI. -/
def execOri (d a : BitVec 6) (i : BitVec 14) (s : State) : Out :=
  aluR (.ori d a i) d a (· ||| i.signExtend 32) s

/-- XORI. -/
def execXori (d a : BitVec 6) (i : BitVec 14) (s : State) : Out :=
  aluR (.xori d a i) d a (· ^^^ i.signExtend 32) s

/-- SHLI. -/
def execShli (d a : BitVec 6) (n : BitVec 5) (s : State) : Out :=
  aluR (.shli d a n) d a (fun x => x <<< n.toNat) s

/-- SHRI. -/
def execShri (d a : BitVec 6) (n : BitVec 5) (s : State) : Out :=
  aluR (.shri d a n) d a (fun x => x >>> n.toNat) s

/-- SRAI. -/
def execSrai (d a : BitVec 6) (n : BitVec 5) (s : State) : Out :=
  aluR (.srai d a n) d a (fun x => x.sshiftRight n.toNat) s

/-- LIH: the immediate in the high 20 bits, never poisoned. -/
def execLih (d : BitVec 6) (i : BitVec 20) (s : State) : Out :=
  scalarInstr (.lih d i) false (fun st _ s => .done (s.writeReg st d (.clean (i ++ 0#12)))) s

/-- CEQI. -/
def execCeqi (d a : BitVec 6) (i : BitVec 14) (s : State) : Out :=
  aluR (.ceqi d a i) d a (fun x => Word.ofBool (x == i.signExtend 32)) s

/-- CLTI, signed. -/
def execClti (d a : BitVec 6) (i : BitVec 14) (s : State) : Out :=
  aluR (.clti d a i) d a (fun x => Word.ofBool (x.slt (i.signExtend 32))) s

/-! ## Address forms (05 R110) -/

/-- AADDI. -/
def execAaddi (d a : BitVec 6) (i : BitVec 14) (s : State) : Out :=
  scalarInstr (.aaddi d a i) false (fun st sc s =>
    .done (s.writePair st d (.ofVal ((sc.base64 a).val + i.signExtend 64) (sc.base64 a).poison))) s

/-- AADD. -/
def execAadd (d a b : BitVec 6) (s : State) : Out :=
  aluAA (.aadd d a b) d a b (· + ·) s

/-- ASUB. -/
def execAsub (d a b : BitVec 6) (s : State) : Out :=
  aluAA (.asub d a b) d a b (· - ·) s

/-- AADDX: sb is a signed 32-bit index, shifted. -/
def execAaddx (d a b : BitVec 6) (h : BitVec 4) (s : State) : Out :=
  scalarInstr (.aaddx d a b h) false (fun st sc s =>
    .done (s.writePair st d (.ofVal ((sc.base64 a).val + ((sc.reg b).val.signExtend 64) <<< h.toNat)
      ((sc.base64 a).poison || (sc.reg b).poison)))) s

/-! ## Compares (05 R111) -/

/-- CEQ. -/
def execCeq (d a b : BitVec 6) (s : State) : Out :=
  aluRR (.ceq d a b) d a b (fun x y => Word.ofBool (x == y)) s

/-- CNE. -/
def execCne (d a b : BitVec 6) (s : State) : Out :=
  aluRR (.cne d a b) d a b (fun x y => Word.ofBool (x != y)) s

/-- CLT. -/
def execClt (d a b : BitVec 6) (s : State) : Out :=
  aluRR (.clt d a b) d a b (fun x y => Word.ofBool (x.slt y)) s

/-- CLE. -/
def execCle (d a b : BitVec 6) (s : State) : Out :=
  aluRR (.cle d a b) d a b (fun x y => Word.ofBool (x.sle y)) s

/-- CLTN. -/
def execCltn (d a b : BitVec 6) (s : State) : Out :=
  aluRR (.cltn d a b) d a b (fun x y => Word.ofBool (x.ult y)) s

/-- CLEN. -/
def execClen (d a b : BitVec 6) (s : State) : Out :=
  aluRR (.clen d a b) d a b (fun x y => Word.ofBool (x.ule y)) s

/-- ACEQ. -/
def execAceq (d a b : BitVec 6) (s : State) : Out :=
  scalarInstr (.aceq d a b) false (fun st sc s =>
    let x := (sc.base64 a).val
    let y := (sc.base64 b).val
    .done (s.writeReg st d ⟨Word.ofBool (x == y), (sc.base64 a).poison || (sc.base64 b).poison⟩)) s

/-- ACLTN. -/
def execAcltn (d a b : BitVec 6) (s : State) : Out :=
  scalarInstr (.acltn d a b) false (fun st sc s =>
    let x := (sc.base64 a).val
    let y := (sc.base64 b).val
    .done (s.writeReg st d ⟨Word.ofBool (x.ult y), (sc.base64 a).poison || (sc.base64 b).poison⟩)) s

end Sys2Proof.Machine
end

