-- ==== Sys2Proof/Machine/ScalarControl.lean ====
section
/-! DEFINITION. Control flow, traps, waits, masks, lane runs, FMT and lane-register access of the scalar stream
(spec/05 R112–R121, R124, R125). -/

namespace Sys2Proof.Machine

/-! ## Branches, calls and returns -/

/-- The target of an SB branch (03 R62). -/
def branchTarget (pc : DWord) (o : BitVec 16) : DWord := pc + (o.signExtend 64) <<< 2

/-- A conditional branch on a register; a poisoned register is consumed (05 R102, R112). -/
def branch (i : Instr) (a : BitVec 6) (o : BitVec 16) (c : Cond) (s : State) : Out :=
  scalarInstr i false (fun _ sc s =>
    if (sc.reg a).poison then Res.fault s .poison
    else if c.holds (sc.reg a).val then .jump s (branchTarget sc.pc o) else .done s) s

/-- A branch on the summary of a mask register (05 R113). -/
def branchMask (i : Instr) (k : BitVec 4) (o : BitVec 16) (taken : Word → Bool) (s : State) : Out :=
  teamInstr i false (fun x s =>
    if taken (summary (x.k k)) then .jump s (branchTarget x.sc.pc o) else .done s) s

/-! ## Masks -/

/-- A mask instruction whose result is a whole mask register (05 R115). -/
def maskOp (i : Instr) (d : BitVec 4) (f : Team → Mask) (s : State) : Out :=
  teamInstr i false (fun x s => .done (s.mapTeam x.id (fun t => t.setK d (f x)))) s

/-- A mask instruction whose result is a scalar, never poisoned. -/
def maskCount (i : Instr) (d : BitVec 6) (f : Team → Word) (s : State) : Out :=
  teamInstr i false (fun x s => .done (s.writeReg (.team x.id) d (.clean (f x)))) s

/-- The lanes of a mask below a count. -/
def lanesUpTo (n : Nat) : Mask := if 1024 ≤ n then lanesBelow 1024 else lanesBelow n

/-! ## Branches (05 R112, R113) -/

/-- B: always taken. -/
def execB (o : BitVec 16) (s : State) : Out :=
  scalarInstr (.b o) false (fun _ sc s => .jump s (branchTarget sc.pc o)) s

/-- BEQZ. -/
def execBeqz (a : BitVec 6) (o : BitVec 16) (s : State) : Out :=
  branch (.beqz a o) a o .eqz s

/-- BNEZ. -/
def execBnez (a : BitVec 6) (o : BitVec 16) (s : State) : Out :=
  branch (.bnez a o) a o .nez s

/-- BLTZ. -/
def execBltz (a : BitVec 6) (o : BitVec 16) (s : State) : Out :=
  branch (.bltz a o) a o .ltz s

/-- BGEZ. -/
def execBgez (a : BitVec 6) (o : BitVec 16) (s : State) : Out :=
  branch (.bgez a o) a o .gez s

/-- BGTZ. -/
def execBgtz (a : BitVec 6) (o : BitVec 16) (s : State) : Out :=
  branch (.bgtz a o) a o .gtz s

/-- BLEZ. -/
def execBlez (a : BitVec 6) (o : BitVec 16) (s : State) : Out :=
  branch (.blez a o) a o .lez s

/-- BKZ: taken when the summary is zero. -/
def execBkz (k : BitVec 4) (o : BitVec 16) (s : State) : Out :=
  branchMask (.bkz k o) k o (· == 0) s

/-- BKNZ: taken when the summary is not zero. -/
def execBknz (k : BitVec 4) (o : BitVec 16) (s : State) : Out :=
  branchMask (.bknz k o) k o (· != 0) s

/-- CALL: the link pair takes the next address (05 R114). -/
def execCall (a : BitVec 6) (o : BitVec 16) (s : State) : Out :=
  scalarInstr (.call a o) false (fun st sc s =>
    .jump (s.writePair st a (.ofVal (sc.pc + 4) false)) (branchTarget sc.pc o)) s

/-- JR: to the address in a pair (05 R114). -/
def execJr (a : BitVec 6) (s : State) : Out :=
  scalarInstr (.jr a) false (fun _ sc s =>
    if (sc.pair a).poison then Res.fault s .poison else .jump s (sc.pair a).val) s

/-- CALLR: the target is read before the link is written (05 R114). -/
def execCallr (d a : BitVec 6) (s : State) : Out :=
  scalarInstr (.callr d a) false (fun st sc s =>
    if (sc.pair a).poison then Res.fault s .poison
    else .jump (s.writePair st d (.ofVal (sc.pc + 4) false)) (sc.pair a).val) s

/-! ## Traps, waits and hints (05 R124, R125) -/

/-- NOP. -/
def execNop (s : State) : Out :=
  scalarInstr .nop false (fun _ _ s => .done s) s

/-- TRAP: raises cause TRAP after completing, with its code. -/
def execTrap (c : BitVec 6) (s : State) : Out :=
  scalarInstr (.trap c) false (fun _ _ s => .after s (Trap.of (.trap c))) s

/-- RFT: in supervisor mode only; the stream goes on at TPC, after the rest of the interrupted run (04 R99). -/
def execRft (s : State) : Out :=
  scalarInstr .rft true (fun st sc s => .gone (((s.returnFromTrap st).retire st sc.pc sc.tpc sc.sup false).delivered st)) s

/-- BKPT: stops a team that a debugger holds; otherwise, in user mode, raises BKPT after completing. DEDUCED: notes/assumptions/31. -/
def execBkpt (s : State) : Out :=
  scalarInstr .bkpt false (fun st sc s =>
    match (s.coreOf st).map (fun c => (s.core c).dbg), st with
    | some d, .team id =>
      if d.hold then
        let s := s.retire st sc.pc (sc.pc + 4) sc.sup false
        match s.team? id with
        | some x => .gone (if x.sc.debugStopped then s else s.debugStop x d.grp 0xFF sc.pc.toNat)
        | none => .gone s
      else if sc.sup then .done s else .after s (Trap.of (.bkpt false))
    | _, _ => if sc.sup then .done s else .after s (Trap.of (.bkpt false))) s

/-- YIELD: the stream is placed last for its next instruction. -/
def execYield (s : State) : Out :=
  scalarInstr .yield false (fun st sc s =>
    .gone ((s.retire st sc.pc (sc.pc + 4) sc.sup false).mapScalar st (fun c => { c with yielded := some s.clock }))) s

/-- SLEEP: the stream is blocked for a count of cycles, unless its own retirement stopped it or entered a handler; a
count of zero acts as YIELD. -/
def execSleep (a : BitVec 6) (s : State) : Out :=
  scalarInstr (.sleep a) false (fun st sc s =>
    if (sc.reg a).poison then Res.fault s .poison
    else
      let n := (sc.reg a).val.toNat
      let r := s.retire st sc.pc (sc.pc + 4) sc.sup false
      .gone (r.mapScalar st (fun c =>
        if n = 0 then { c with yielded := some s.clock }
        else if c.sup == sc.sup && !c.debugStopped then { c with wait := some (.sleep (s.clock + n)) } else c))) s

/-! ## Masks (05 R115, R116) -/

/-- KMOV. -/
def execKmov (d a : BitVec 4) (s : State) : Out :=
  maskOp (.kmov d a) d (fun x => x.k a) s

/-- KNOT: within the occupied lanes. -/
def execKnot (d a : BitVec 4) (s : State) : Out :=
  maskOp (.knot d a) d (fun x => x.occ &&& ~~~(x.k a)) s

/-- KAND. -/
def execKand (d a b : BitVec 4) (s : State) : Out :=
  maskOp (.kand d a b) d (fun x => x.k a &&& x.k b) s

/-- KOR. -/
def execKor (d a b : BitVec 4) (s : State) : Out :=
  maskOp (.kor d a b) d (fun x => x.k a ||| x.k b) s

/-- KXOR. -/
def execKxor (d a b : BitVec 4) (s : State) : Out :=
  maskOp (.kxor d a b) d (fun x => x.k a ^^^ x.k b) s

/-- KANDN. -/
def execKandn (d a b : BitVec 4) (s : State) : Out :=
  maskOp (.kandn d a b) d (fun x => x.k a &&& ~~~(x.k b)) s

/-- KALL. -/
def execKall (d : BitVec 4) (s : State) : Out :=
  maskOp (.kall d) d (fun x => x.occ) s

/-- KCLR. -/
def execKclr (d : BitVec 4) (s : State) : Out :=
  maskOp (.kclr d) d (fun _ => 0) s

/-- KSETN: the occupied lanes below an unsigned count, which is consumed when poisoned. -/
def execKsetn (d : BitVec 4) (n : BitVec 6) (s : State) : Out :=
  teamInstr (.ksetn d n) false (fun x s =>
    if (x.sc.reg n).poison then Res.fault s .poison
    else .done (s.mapTeam x.id (fun t => t.setK d (x.occ &&& lanesUpTo (x.sc.reg n).val.toNat)))) s

/-- KPOP. -/
def execKpop (a : BitVec 4) (d : BitVec 6) (s : State) : Out :=
  maskCount (.kpop a d) d (fun x => BitVec.ofNat 32 (popCount (x.k a))) s

/-- KFIRST. -/
def execKfirst (a : BitVec 4) (d : BitVec 6) (s : State) : Out :=
  maskCount (.kfirst a d) d (fun x =>
    if x.k a = 0 then 0xFFFFFFFF else BitVec.ofNat 32 (lowestLane (x.k a))) s

/-- KSUM. -/
def execKsum (a : BitVec 4) (d : BitVec 6) (s : State) : Out :=
  maskCount (.ksum a d) d (fun x => summary (x.k a)) s

/-- KMOVV: one word of a mask from a scalar, without vacant lanes; the word must lie in the team. -/
def execKmovv (d : BitVec 4) (w : BitVec 5) (a : BitVec 6) (s : State) : Out :=
  teamInstr (.kmovv d w a) false (fun x s =>
    if x.nw ≤ w.toNat then Res.fault s .illegal
    else if (x.sc.reg a).poison then Res.fault s .poison
    else
      let v := (x.sc.reg a).val &&& ~~~(maskWord x.kv w.toNat)
      .done (s.mapTeam x.id (fun t => t.setK d (setMaskWord (x.k d) w.toNat v)))) s

/-! ## Lane runs (05 R117, R119) -/

/-- LRUN: a run of c + 1 lane instructions from an offset, or from the lane PC for the continue code. -/
def execLrun (c : BitVec 8) (o : BitVec 18) (s : State) : Out :=
  teamInstr (.lrun c o) false (fun x s =>
    .done (s.mapTeam x.id (fun (t : Team) =>
      { t with lanePc := if o = 0x3FFFF then t.lanePc else o.toNat, runLeft := c.toNat + 1 }))) s

/-- LSETPC. -/
def execLsetpc (o : BitVec 18) (s : State) : Out :=
  teamInstr (.lsetpc o) false (fun x s =>
    .done (s.mapTeam x.id (fun (t : Team) => { t with lanePc := o.toNat }))) s

/-! ## FMT (05 R120, 04 R89) -/

/-- SETFMT: refused values trap ILLEGAL; on a control core it waits for every operation it has queued. -/
def execSetfmt (a : BitVec 6) (s : State) : Out :=
  scalarInstr (.setfmt a) false (fun st sc s =>
    let w := sc.reg a
    if !fmtLegal (s.feature 2) w.val then Res.fault s .illegal
    else if w.poison then Res.fault s .poison
    else
      match st with
      | .team _ => .done (s.mapScalar st (fun c => { c with fmt := w.val }))
      | .ctrl cl =>
        if (s.group? cl).any (fun g => g.arrays.any (fun a => !a.queue.isEmpty)) then .wait s .matrixQueue
        else .done (s.mapScalar st (fun c => { c with fmt := w.val }))) s

/-- GETFMT. -/
def execGetfmt (d : BitVec 6) (s : State) : Out :=
  scalarInstr (.getfmt d) false (fun st sc s => .done (s.writeReg st d (.clean sc.fmt))) s

/-! ## Lane registers (05 R121) -/

/-- The lane and register that LGET and LPUT name, or the trap of their limits and poison. -/
def laneWord (x : Team) (a b : BitVec 6) : Sum Cause (Nat × Nat) :=
  let j := (x.sc.reg a).val.toNat
  let r := (x.sc.reg b).val.toNat
  if x.lanes ≤ j ∨ x.alloc ≤ r then .inl .quota
  else if (x.sc.reg a).poison || (x.sc.reg b).poison then .inl .poison
  else .inr (r, j)

/-- LGET: the word with its poison bit. -/
def execLget (d a b : BitVec 6) (s : State) : Out :=
  teamInstr (.lget d a b) false (fun x s =>
    match laneWord x a b with
    | .inl c => Res.fault s c
    | .inr (r, j) => .done (s.writeReg (.team x.id) d (x.v r j))) s

/-- LPUT: the word with its poison bit. -/
def execLput (d a b : BitVec 6) (s : State) : Out :=
  teamInstr (.lput d a b) false (fun x s =>
    match laneWord x a b with
    | .inl c => Res.fault s c
    | .inr (r, j) => .done (s.mapTeam x.id (fun t => t.setV r j (x.sc.reg d)))) s

end Sys2Proof.Machine
end

