-- ==== Sys2Proof/Machine/ScalarMem.lean ====
section
/-! DEFINITION. Scalar loads, stores, atomics and constant loads, DECLASS, TLBINV and ATINV (spec/10 R239–R244,
spec/15 R340–R342). -/

namespace Sys2Proof.Machine

/-- SLD (10 R239, R240). -/
def execSld (d a b : BitVec 6) (l w : BitVec 3) (s : State) : Out :=
  scalarInstr (.sld d a b l w) false (fun st sc s =>
    match scalarLevel l, sldWidth w with
    | some lv, some wd =>
      let (off, q) := sc.address a b lv
      s.scalarAccess st sc .read lv off (ldBytes wd) q (.read (ldBytes wd)) (.sreg d (wd == .b64) wd)
    | _, _ => Res.fault s .illegal) s

/-- SST (10 R239, R240). -/
def execSst (d a b : BitVec 6) (l w : BitVec 3) (s : State) : Out :=
  scalarInstr (.sst d a b l w) false (fun st sc s =>
    match scalarLevel l, sstWidth w with
    | some lv, some wd =>
      let (off, q) := sc.address a b lv
      let v : PPair := if wd = .b64 then sc.pair d else .ofWord (sc.reg d)
      s.scalarAccess st sc .write lv off (stBytes wd) (q || v.poison) (.write (natBytes (stBytes wd) v.val.toNat)) .none
    | _, _ => Res.fault s .illegal) s

/-- SATOM (10 R239, R240; R236). The compare value of CAS is sd. -/
def execSatom (d a b : BitVec 6) (l : BitVec 2) (p : BitVec 4) (w : BitVec 1) (s : State) : Out :=
  scalarInstr (.satom d a b l p w) false (fun st sc s =>
    match atomOp p with
    | some op =>
      let lv := atomLevel l
      let t : Wd := if w = 1 then .w64 else .w32
      let adr : PPair := if lv = .g then sc.base64 a else .ofWord (sc.reg a)
      let read := fun (r : BitVec 6) => if w = 1 then sc.pair r else PPair.ofWord (sc.reg r)
      let q := adr.poison || (read b).poison || (op == .cas && (read d).poison)
      s.scalarAccess st sc .atomic lv adr.val (wdBytes t) q (.atomic op t (read b).val (read d).val) (.sreg d (w == 1) (wdLoad t))
    | none => Res.fault s .illegal) s

/-- CLD, scalar: one word of a constant window as one event (10 R241, R242). -/
def execCld (d : BitVec 6) (w : BitVec 3) (o : BitVec 17) (s : State) : Out :=
  scalarInstr (.cld d w o) false (fun st sc s =>
    match s.agentOf st, s.launchOf st with
    | some ag, some l =>
      match State.windowSpots ag l [⟨w, o.toNat, false⟩] s with
      | (s, _, some (some t)) => .trap s t
      | (s, p :: _, none) => .access s (sc.access .read ⟨p.1, .read p.2⟩ (.sreg d false .b32))
      | (s, _, _) => .retry s
    | _, _ => Res.fault s .illegal) s

/-- The drains that return a granule to UNCL (09 R219, 10 R244). -/
def State.declassDrain (s : State) (gran : Nat) (holders : List Nat) : State :=
  { s with reclass := s.reclass ++ [⟨gran, .uncl, holders⟩] }

/-- DECLASS: supervisor teams only; the granule's holders are drained and UNCL is recorded, at which the instruction completes. A request that
another access has open is waited for first. Host memory has no class (10 R244). -/
def execDeclass (a : BitVec 6) (s : State) : Out :=
  teamInstr (.declass a) true (fun x s =>
    let p := x.sc.pair a
    match s.agentOf (.team x.id) with
    | none => Res.fault s .illegal
    | some ag =>
      match s.translate ag p.val with
      | (s, .page sub) => .trap s ⟨.page sub, 0, p.val, 0⟩
      | (s, .stall) => .retry s
      | (s, .ok _ pa) =>
        let gran := granuleOf pa
        if p.poison then .trap s ⟨.poison, 0, p.val, 0⟩
        else if isHost pa then .done s
        else if s.reclass.any (fun r => r.gran = gran) then .wait s (.reclass gran)
        else
          match s.classOf gran with
          | .uncl => .done s
          | .shared => .done ((s.setClass gran .uncl).dropCopies gran)
          | .priv c _ => .wait (s.declassDrain gran [c]) (.declass gran)
          | .ro => .wait (s.declassDrain gran (s.nodesHolding gran)) (.declass gran)) s

/-- TLBINV and ATINV (15 R341): the translations and lines of the named pages go, and the instruction completes when every access that
was checked against one of them has performed. A second attempt finds the first two steps done. -/
def State.invalInstr (s : State) (x : Team) (va : Option Nat) : Res :=
  let s := if x.sc.wait = some (.inval va) then s else (s.invalidate x.id.asid va).markStale x.id.asid va
  if s.staleLeft x.id.asid va then .wait s (.inval va) else .done s

/-- TLBINV: the page that holds an address, in the team's address space. -/
def execTlbinv (a : BitVec 6) (s : State) : Out :=
  teamInstr (.tlbinv a) true (fun x s =>
    let p := x.sc.pair a
    if p.poison then Res.fault s .poison else s.invalInstr x (some (va57 p.val))) s

/-- ATINV: every page of the team's address space. -/
def execAtinv (s : State) : Out :=
  teamInstr .atinv true (fun x s => s.invalInstr x none) s

end Sys2Proof.Machine
end

