-- ==== Sys2Proof/Machine/Services.lean ====
section
/-! DEFINITION. Host registers, reset and sensors (spec/12 R261, R262; spec/15 R332; spec/17 R376; spec/18 R381–R384, R387). -/

namespace Sys2Proof.Machine

/-! ## CXL.io registers (12 R261, 15 R332) -/

/-- QCMD as it is written. A malformed command fails with the first code that applies. -/
def State.qcmdWrite (s : State) (v : Nat) : Out :=
  let q : Half := BitVec.ofNat 16 v
  let op := natBits v 30 2
  if natBits v 16 14 != 0 || op = 0 then
    s.qcmd (fun s =>
      let r := if op = 1 then
          s.registerRefusal q.toNat (s.mem.readBytes (s.descPa q.toNat) 64)
            (queueOf q.toNat (s.descPa q.toNat) (s.mem.readBytes (s.descPa q.toNat) 64) s.clock)
        else if !s.up then some 0x04 else none
      s.qcmdDone (match r with
        | some c => Nat.min c 0x05
        | none => 0x05))
  else if op = 1 then execQcmdRegister q s
  else if op = 2 then execQcmdDeregister q s
  else execQcmdClearFault q s

/-- A write to a register of the CXL.io space. FWACC, QTBASE, QTSIZE and ASIDBASE are writable only in INIT. QTSIZE keeps what is written,
also 0 and what lies above 65,536. DESIGN CHOICE: notes/assumptions/125. -/
def State.ioWrite (s : State) (off : Nat) (v : DWord) : Out :=
  let init := s.mstate = 0
  if off = 0x30 then s.qcmdWrite (v.toNat % 2 ^ 32)
  else if !init then .next s
  else if 0x10 ≤ off && off < 0x20 && off % 4 = 0 then
    .next { s with fwacc := Vector.ofFn (fun i => if i.val = off / 4 - 4 then v.setWidth 32 &&& s.fw.get i else s.fwacc.get i) }
  else if off = 0x20 then .next { s with qtbase := v &&& ~~~0xFFFF }
  else if off = 0x28 then .next { s with qtsize := v.setWidth 32 }
  else if off = 0x40 then .next { s with asidbase := v &&& ~~~0xFFF }
  else .next s

/-! ## Debug blocks (17 R376) -/

/-- A write to a field of a debug block other than DCMD; read-only and reserved bits keep their value. -/
def Debug.write (d : Debug) (off : Nat) (v : DWord) : Debug :=
  let w : Word := v.setWidth 32
  let i := (off - 0x10) / 16
  if off = 0x00 then { d with dctl := w &&& 7 }
  else if off = 0x08 then { d with dteam := w }
  else if 0x10 ≤ off && off < 0x50 && off % 16 = 0 then { d with bp := d.bp.setIfInBounds i v }
  else if 0x10 ≤ off && off < 0x50 && off % 16 = 8 then { d with bpc := d.bpc.setIfInBounds i (w &&& 0xFFFFFFF7) }
  else if off = 0x50 then { d with trbase := v &&& ~~~31 }
  else if off = 0x58 then { d with trlen := w }
  else if off = 0x60 then { d with trig := (d.trig &&& 0x80) ||| (w &&& 0x7F) }
  else if off = 0x64 then { d with smpl := w &&& 0x1F }
  else if off = 0x68 then { d with dasid := v.setWidth 8 }
  else d

/-- A core after a write to its debug block: sampling that is switched on counts from now (R375). -/
def CoreState.debugWrite (now off : Nat) (v : DWord) (c : CoreState) : CoreState :=
  let d := c.dbg.write off v
  { c with dbg := d, nextSample := if off = 0x64 && d.sampling then now + d.sampleEvery else c.nextSample }

def State.debugWrite (s : State) (core off : Nat) (v : DWord) : Out :=
  if off = 0x04 then
    let op := v.toNat % 4
    if op = 1 then execDcmdStop core s else if op = 2 then execDcmdResume core s else if op = 3 then execDcmdStep core s
    else .next s
  else .next (s.mapCore core (CoreState.debugWrite s.clock off v))

/-! ## The management window (18 R382, R383) -/

/-- What a mailbox command names as the target of a pre-emption. -/
def mbTarget (arg : List Byte) : PreTarget :=
  let k := Config.mbTargetKind arg
  if k = 0 then .launch (Config.mbNumber arg) else if k = 1 then .context (Config.mbAsid arg) else .cores (Config.mbCores arg)

/-- MBCMD as it is written: the command with the arguments that MBARG holds. DESIGN CHOICE: notes/assumptions/18. -/
def State.mbcmd (s : State) (cmd : Nat) : Out :=
  let arg := s.mbarg.toList
  let asid := Config.mbAsid arg
  let addr := Config.mbAddress arg
  let n := Config.mbNumber arg
  if cmd = 1 then execFreeze asid s
  else if cmd = 2 then execRestore addr n s
  else if cmd = 3 then execCkpt asid s
  else if cmd = 4 then execDrogueReg asid n s
  else if cmd = 5 then execImageArea asid addr n s
  else if cmd = 6 then execPreempt (mbTarget arg) s
  else if cmd = 7 then execSigned (Config.mbCommand arg) s
  else if cmd = 8 then execReport (Config.mbNonce arg) addr s
  else s.mailbox false (fun s => s.mailboxDone 0x01)

/-- A write to a register of the management window; MBARG is written 8 bytes at a time. -/
def State.mgmtWrite (s : State) (off : Nat) (v : DWord) : Out :=
  if off = 0 then s.mbcmd (v.toNat % 2 ^ 32)
  else if 0x10 ≤ off && off < 0x40 && off % 8 = 0 then
    let bs := natBytes 8 v.toNat
    .next { s with mbarg := Vector.ofFn (fun i =>
      if off ≤ i.val + 0x10 && i.val + 0x10 < off + 8 then bs.getD (i.val + 0x10 - off) 0 else s.mbarg.get i) }
  else if 0x100000 ≤ off && off < 0x106C00 then s.debugWrite ((off - 0x100000) / 128) (off % 128) v
  else .next s

/-- REGISTER_WRITE. DEDUCED: notes/assumptions/63. -/
def execRegisterWrite (sp : RegSpace) (off : Nat) (v : DWord) (s : State) : Out :=
  match sp with
  | .cxlIo => s.ioWrite off v
  | .mgmt => s.mgmtWrite off v

/-! ## What the host reads -/

/-- An entry of the partition table as the host reads it (14 R308). -/
def Partition.bytes (p : Partition) : List Byte :=
  natBytes 4 ((if p.valid then 1 else 0) + 2 * p.pdies + 2 ^ 7 * p.slotcap + 2 ^ 12 * p.regcap) ++ natBytes 4 p.quantum
    ++ natBytes 8 p.clmask ++ List.replicate 16 0

/-- DSTAT of a core (17 R376). -/
def State.dstat (s : State) (core : Nat) : Nat :=
  (((s.teamsOn core).filter (·.sc.debugStopped)).filterMap (fun t => t.place.map (fun p => 2 ^ p.slot))).sum

/-- A debug block as the host reads it; DCMD reads as zero. -/
def State.debugBytes (s : State) (core : Nat) : List Byte :=
  let d := (s.core core).dbg
  let bps := (List.finRange 4).flatMap (fun i => natBytes 8 (d.bp.get i).toNat ++ natBytes 8 (d.bpc.get i).toNat)
  natBytes 4 d.dctl.toNat ++ natBytes 4 0 ++ natBytes 4 d.dteam.toNat ++ natBytes 4 (s.dstat core) ++ bps
    ++ natBytes 8 d.trbase.toNat ++ natBytes 4 d.trlen.toNat ++ natBytes 4 d.trptr.toNat ++ natBytes 4 d.trig.toNat
    ++ natBytes 4 d.smpl.toNat ++ natBytes 4 d.dasid.toNat ++ List.replicate 20 0

/-- MBSTAT (18 R383). -/
def State.mbstat (s : State) : Nat := 256 * s.mbCode.toNat + (if s.mbErr then 2 else 0) + (if s.mbBusy then 1 else 0)

/-- The byte that the host reads at an offset of a register space; unlisted offsets read as zero (18 R382). DEDUCED: notes/assumptions/98. -/
def State.hostByte (s : State) (sp : RegSpace) (off : Nat) : Byte :=
  let words := fun (ws : List Word) => ws.flatMap (fun w => natBytes 4 w.toNat)
  match sp with
  | .cxlIo =>
    (words (s.fw.toList ++ s.fwacc.toList) ++ natBytes 8 s.qtbase.toNat ++ words [s.qtsize, 0, 0, s.qstat, s.mstate, 0]
      ++ natBytes 8 s.asidbase.toNat).getD off 0
  | .mgmt =>
    if off < 0x40 then (List.replicate 8 0 ++ natBytes 8 s.mbstat ++ s.mbarg.toList).getD off 0
    else if 0x100 ≤ off && off < 0x200 then (words s.sensors.toList).getD (off - 0x100) 0
    else if 0x200 ≤ off && off < 0x304 then (words (s.alerts.toList ++ [BitVec.ofNat 32 s.alertIx])).getD (off - 0x200) 0
    else if 0x1000 ≤ off && off < 0x1300 then
      if s.up || 5 < s.bstate then ((s.coreMap ((off - 0x1000) / 128)).block).getD (off % 128) 0 else 0
    else if 0x2000 ≤ off && off < 0x2120 then
      (natBytes 4 s.rlslots ++ List.replicate 28 0 ++ s.partitions.toList.flatMap Partition.bytes).getD (off - 0x2000) 0
    else if 0x100000 ≤ off && off < 0x106C00 then (s.debugBytes ((off - 0x100000) / 128)).getD (off % 128) 0
    else 0

/-! ## Reset (18 R381) -/

/-- What a core keeps over a reset: the spare columns that the flash record says are left. -/
def CoreState.afterReset (c : CoreState) : CoreState := { CoreState.reset with spareCols := c.spareCols }

/-- A die's core map after reset: the fuses and the flash stand (16 R344). -/
def CoreMap.afterReset (m : CoreMap) : CoreMap := { m with gen := 0 }

/-- Everything that a reset leaves as it was: device memory, fuses and flash, and what is outside the module. -/
def State.afterReset (s : State) : State :=
  { State.reset with
    agenda := s.agenda
    freeCount := s.freeCount + 1
    mem := s.mem
    poison := s.poison
    fw := s.fw
    signedSeq := s.signedSeq
    firmware := s.firmware
    lost := s.lost
    deadStacks := s.deadStacks
    flash := s.flash
    coreMaps := s.coreMaps.map CoreMap.afterReset
    noMatrix := s.noMatrix
    cores := (s.cores.map (fun c => (c.1, c.2.afterReset))).filter (fun c => c.2 != CoreState.reset)
    usedSpares := s.usedSpares
    defects := s.defects }

/-- The IOD's image is verified and started (R385). -/
def Firmware.startIod (f : Firmware) : Firmware :=
  let image := verifiedImage f.iod f.iodNew
  { f with iod := image, iodNew := none, iodRuns := if Config.signatureValid image then image else f.iodRuns }

/-- The images after the steps of bring-up before a failed one: those that no step has started do not run. -/
def Firmware.bringUp (f : Firmware) (failed : Option Nat) : Firmware :=
  let f := { f with iodRuns := [], leafRuns := [] }
  let past := fun (k : Nat) => failed.all (k < ·)
  let f := if past 1 then f.startIod else f
  if past 4 then f.startLeaf else f

/-- The first step of bring-up that fails: the first or the fourth when its image does not verify, or one that fails otherwise. -/
def Firmware.firstFailure (f : Firmware) (other : Option Nat) : Option Nat :=
  let fails := fun (k : Nat) => other == some k
  if fails 1 || !Config.signatureValid (verifiedImage f.iod f.iodNew) then some 1
  else if fails 2 || fails 3 then other
  else if fails 4 || !Config.signatureValid (verifiedImage f.leaf f.leafNew) then some 4
  else if fails 5 || fails 6 || fails 7 then other
  else none

/-- A record without its commit word is reported at the start that finds it, and goes (16 R359, R360). -/
def State.reportRecords (s : State) : State :=
  (s.flash.filter (fun f => !f.committed)).foldl (fun s f => s.alert 0x09 0xFF f.asid.toNat) { s with flash := s.flash.filter (·.committed) }

/-- MODULE_RESET: the steps of bring-up. A failed one halts it with the ports down, and BSTATE reports it. DEDUCED: notes/assumptions/64.
DEDUCED: notes/assumptions/94. DESIGN CHOICE: notes/assumptions/116. -/
def execModuleReset (s : State) : Out :=
  let failed := s.firmware.firstFailure (Config.bringUpFailure s.freeCount)
  let t := { s.afterReset with firmware := s.firmware.bringUp failed }
  match failed with
  | some k => .next { t with bstate := k, up := false, ports := Vector.replicate 2 false }
  | none => .next t.reportRecords

/-! ## Sensors (18 R384) -/

/-- The power limit, and the temperature limits of the dies, in the units of the sensors. -/
def overPower (v : Vector Word 28) : Bool := 24000 < (v.get 0).toNat
def dieTemps (v : Vector Word 28) : List Nat := (v.toList.drop 1).take 7 |>.map (·.toNat)

/-- The arithmetic clock after a refresh: a cause lowers it by a step, and once no cause has stood for 100 ms it rises by one. Refreshes
are 1 ms apart, so n + 1 of them, one after another, span n ms. -/
def State.throttle (s : State) (v : Vector Word 28) : State :=
  let heat := (dieTemps v).any (1050 < ·)
  let hot := if overPower v then s.hotFor + 1 else 0
  let cool := if overPower v || heat then 0 else s.coolFor + 1
  let mhz := if 10 < hot || heat then Nat.max 1000 (s.mhz - 100)
    else if 100 < cool then Nat.min 1700 (s.mhz + 100) else s.mhz
  { s with hotFor := hot, coolFor := cool, mhz := mhz, sensors := v.set 27 (BitVec.ofNat 32 mhz) }

/-- The sensors have been refreshed since reset: the clock in force is never 0. -/
def State.refreshed (s : State) : Bool := s.sensors.get 27 != 0

/-- Limits newly passed: a die above 115 °C, stored energy below the 205 J of a default flush (01 R18), by the first refresh too. -/
def State.sensorAlerts (s : State) (v : Vector Word 28) : List Nat :=
  let die := fun (v : Vector Word 28) (i : Nat) => 1150 < (dieTemps v).getD i 0
  let low := fun (v : Vector Word 28) => (v.get 26).toNat < 205
  (List.range 7).filter (fun i => die v i && !die s.sensors i) ++ if low v && !(s.refreshed && low s.sensors) then [26] else []

/-- SENSOR_REFRESH: every 1 ms, which is 1,000 cycles for each MHz of the clock in force. DESIGN CHOICE: notes/assumptions/12. -/
def execSensorRefresh (vals : List Word) (s : State) : Out :=
  if s.clock < s.sensorsDue then .next s
  else
    let v : Vector Word 28 := Vector.ofFn (fun i => vals.getD i.val 0)
    let t := s.throttle v
    .next ((s.sensorAlerts v).foldl (fun s i => s.alert 0x08 (if i < 6 then i else 0xFF) i) { t with sensorsDue := s.sensorsDue + 1000 * t.mhz })

end Sys2Proof.Machine
end

