-- ==== Sys2Proof/Machine/Special.lean ====
section
/-! DEFINITION. Special registers and counters: their numbers, reads and writes (spec/04 R90–R94, spec/05 R122, R123,
spec/17 R372–R374). -/

namespace Sys2Proof.Machine

/-- The value of a special register, 32 or 64 bits wide. -/
inductive Special
  | w32 (v : Word)
  | w64 (v : DWord)
  deriving DecidableEq, Repr

/-! ## Counters (17 R372) -/

/-- A counter of a team's core: CYC, IRET, PMCi or PSELi. -/
def State.coreCounter (s : State) (core n : Nat) : Option Special :=
  if n = 0x100 then some (.w64 (BitVec.ofNat 64 s.clock))
  else if n = 0x102 then some (.w64 (s.core core).iret)
  else if h : 0x110 ≤ n ∧ n ≤ 0x11F then some (.w64 ((s.core core).pmc.get ⟨n - 0x110, by omega⟩))
  else if h : 0x120 ≤ n ∧ n ≤ 0x12F then some (.w32 ((s.core core).psel.get ⟨n - 0x120, by omega⟩))
  else none

/-- A counter as a stream reads it; control cores have CYC and IRET only. -/
def State.counter (s : State) (st : StreamId) (n : Nat) : Option Special :=
  match st with
  | .team _ => (s.coreOf st).bind (fun c => s.coreCounter c n)
  | .ctrl cl =>
    if n = 0x100 then some (.w64 (BitVec.ofNat 64 s.clock))
    else if n = 0x102 then some (.w64 (smGet 0 s.ctrlIret cl))
    else none

/-! ## Registers (04 R91) -/

/-- The registers that teams and control cores share. -/
def sharedSpecial (sc : Scalar) (tstat : Word) (n : Nat) : Option Special :=
  if n = 0x040 then some (.w64 sc.tvec)
  else if n = 0x042 then some (.w32 sc.tcause)
  else if n = 0x043 then some (.w32 sc.tdetail)
  else if n = 0x044 then some (.w64 sc.tpc)
  else if n = 0x047 then some (.w32 tstat)
  else if n = 0x048 then some (.w64 sc.taddr)
  else if n = 0x04C then some (.w64 sc.pgpool)
  else none

/-- ROLE (02 R57). -/
def Role.word : Role → Word
  | .vector => 0
  | .feed => 1
  | .drain => 2

/-- The registers of a team alone; core is where it runs. -/
def State.teamSpecial (s : State) (x : Team) (core n : Nat) : Option Special :=
  if n = 0x000 then some (.w32 x.id.teamno)
  else if n = 0x001 then some (.w32 x.gid)
  else if n = 0x002 then some (.w32 x.role.word)
  else if n = 0x003 then some (.w32 (BitVec.ofNat 32 x.lanes))
  else if n = 0x004 then some (.w32 (BitVec.ofNat 32 (4 * x.nbRows + x.nbCols)))
  else if n = 0x005 then some (.w32 (BitVec.ofNat 32 x.pos))
  else if n = 0x006 then some (.w32 (BitVec.ofNat 32 (s.moduleLogical core)))
  else if n = 0x007 then some (.w32 (BitVec.ofNat 32 (core / 36)))
  else if h : 0x010 ≤ n ∧ n ≤ 0x017 then some (.w32 (x.lvid.get ⟨n - 0x010, by omega⟩))
  else if h : 0x018 ≤ n ∧ n ≤ 0x01F then some (.w32 (x.lvext.get ⟨n - 0x018, by omega⟩))
  else if n = 0x046 then some (.w32 x.tlpc)
  else if n = 0x04A then some (.w32 x.tlane)
  else if 0x080 ≤ n ∧ n ≤ 0x09F then some (.w32 (if n - 0x080 < x.nw then maskWord x.tk0 (n - 0x080) else 0))
  else none

/-- What SRR reads; nothing for a number that the stream does not have (04 R90). LCORE of a control core is
64·die + 48 + cluster (R91). -/
def State.special (s : State) (st : StreamId) (sc : Scalar) (n : Nat) : Option Special :=
  match s.counter st n with
  | some v => some v
  | none =>
    match st with
    | .team id =>
      match s.team? id, s.coreOf st with
      | some x, some core =>
        match sharedSpecial sc x.tstat n with
        | some v => some v
        | none => s.teamSpecial x core n
      | _, _ => none
    | .ctrl cl =>
      if n = 0x006 then some (.w32 (BitVec.ofNat 32 (64 * (cl / 9) + 48 + cl % 9)))
      else if n = 0x007 then some (.w32 (BitVec.ofNat 32 (cl / 9)))
      else sharedSpecial sc (tstatWord sc.laneBit false sc.sup) n

/-- A value into a register or an even pair (04 R90). -/
def putSpecial (st : StreamId) (d : BitVec 6) (v : Option Special) (s : State) : Res :=
  match v with
  | none => Res.fault s .illegal
  | some (.w32 w) => .done (s.writeReg st d (.clean w))
  | some (.w64 w) => if even d then .done (s.writePair st d (.ofVal w false)) else Res.fault s .illegal

/-- The stream is a team's. -/
def isTeam : StreamId → Bool
  | .team _ => true
  | .ctrl _ => false

/-- The width of a register that SRW writes: the writable registers of R91, all of them for supervisor mode only. -/
def writableSpecial (team : Bool) (n : Nat) : Option Bool :=
  if n = 0x040 ∨ n = 0x044 ∨ n = 0x048 ∨ n = 0x04C then some true
  else if n = 0x042 ∨ n = 0x043 ∨ n = 0x047 then some false
  else if team ∧ (n = 0x046 ∨ (0x080 ≤ n ∧ n ≤ 0x09F)) then some false
  else none

/-- A write to a register that both kinds of stream have, as R123 stores it. A control core has no TDETAIL.RUNLEFT (05 R124): its bits are
reserved there, and read as zero. -/
def Scalar.writeSpecial (team : Bool) (sc : Scalar) (n : Nat) (v : DWord) : Scalar :=
  let w := v.setWidth 32
  if n = 0x040 then { sc with tvec := v &&& ~~~3 }
  else if n = 0x042 then { sc with tcause := w &&& 0x1FF }
  else if n = 0x043 then { sc with tdetail := w &&& (if team then 0xFFFFFF1F else 0x007FFF1F) }
  else if n = 0x044 then { sc with tpc := v &&& ~~~3 }
  else if n = 0x047 then { sc with tstat := tstatWord (w.getLsbD 2) sc.evpend sc.sup }
  else if n = 0x048 then { sc with taddr := v }
  else if n = 0x04C then { sc with pgpool := v }
  else sc

/-- A write to a register of teams only: TLPC, and TK0 words below n without vacant lanes (05 R123, 04 R91). -/
def Team.writeSpecial (x : Team) (n : Nat) (w : Word) : Team :=
  if n = 0x046 then { x with tlpc := w }
  else if 0x080 ≤ n ∧ n ≤ 0x09F ∧ n - 0x080 < x.nw then
    { x with tk0 := setMaskWord x.tk0 (n - 0x080) (w &&& ~~~(maskWord x.kv (n - 0x080))) }
  else x

def State.writeSpecial (s : State) (st : StreamId) (n : Nat) (v : DWord) : State :=
  let s := s.mapScalar st (fun sc => sc.writeSpecial (isTeam st) n v)
  match st with
  | .team id => s.mapTeam id (fun x => x.writeSpecial n (v.setWidth 32))
  | .ctrl _ => s

/-! ## Instructions -/

/-- SRR (05 R122). -/
def execSrr (d : BitVec 6) (n : BitVec 12) (s : State) : Out :=
  scalarInstr (.srr d n) false (fun st sc s => putSpecial st d (s.special st sc n.toNat) s) s

/-- SRW: supervisor mode only, since every writable register is marked so; a team's RUNLEFT above 256 is refused (R123). -/
def execSrw (a : BitVec 6) (n : BitVec 12) (s : State) : Out :=
  scalarInstr (.srw a n) true (fun st sc s =>
    match writableSpecial (isTeam st) n.toNat with
    | none => Res.fault s .illegal
    | some wide =>
      let p : PPair := if wide then sc.pair a else ⟨sc.reg a, PWord.zero⟩
      if wide && !even a then Res.fault s .illegal
      else if isTeam st && n = 0x043 && 256 < (p.lo.val.extractLsb' 23 9).toNat then Res.fault s .illegal
      else if p.poison then Res.fault s .poison
      else .done (s.writeSpecial st n.toNat p.val)) s

/-- RDCNT: a counter of R372, read at issue. -/
def execRdcnt (d : BitVec 6) (n : BitVec 12) (s : State) : Out :=
  scalarInstr (.rdcnt d n) false (fun st _ s => putSpecial st d (s.counter st n.toNat) s) s

/-- The programmable counter that a number names. -/
def pmcIndex (n : BitVec 12) : Option (Fin 16) :=
  if h : 0x110 ≤ n.toNat ∧ n.toNat ≤ 0x11F then some ⟨n.toNat - 0x110, by omega⟩ else none

/-- A value that PSELi takes: no reserved bit and a listed event (17 R373, R374). -/
def pselLegal (w : Word) : Bool := w.extractLsb' 25 7 == 0 && w.extractLsb' 8 12 == 0 && pselEvent w ≤ 0x0D

/-- An instruction on a programmable counter, effective from the cycle after it issues (17 R374). -/
def pmcInstr (i : Instr) (n : BitVec 12) (check : Team → Option Cause) (f : Team → Fin 16 → CoreState → CoreState)
    (s : State) : Out :=
  teamInstr i true (fun x s =>
    match pmcIndex n, x.place with
    | some k, some p =>
      match check x with
      | some c => Res.fault s c
      | none =>
        .gone ((s.retire (.team x.id) x.sc.pc (x.sc.pc + 4) x.sc.sup false).mapCore p.core (f x k))
    | _, _ => Res.fault s .illegal) s

def CoreState.setPsel (c : CoreState) (k : Fin 16) (w : Word) : CoreState := { c with psel := c.psel.set k w }
def CoreState.zeroPmc (c : CoreState) (k : Fin 16) : CoreState := { c with pmc := c.pmc.set k 0 }

/-- CSEL: the event select of a programmable counter. -/
def execCsel (a : BitVec 6) (n : BitVec 12) (s : State) : Out :=
  pmcInstr (.csel a n) n
    (fun x => if !pselLegal (x.sc.reg a).val then some .illegal
      else if (x.sc.reg a).poison then some .poison else none)
    (fun x k c => c.setPsel k (x.sc.reg a).val) s

/-- CZERO: a programmable counter becomes zero. -/
def execCzero (n : BitVec 12) (s : State) : Out :=
  pmcInstr (.czero n) n (fun _ => none) (fun _ k c => c.zeroPmc k) s

end Sys2Proof.Machine
end

