-- ==== Sys2Proof/Machine/Dispatch.lean ====
section
/-! DEFINITION. The effect of every instruction and step: one arm per constructor of Instr. -/

namespace Sys2Proof.Machine

/-- The effect of an instruction or step on the state. -/
def exec (i : Instr) (s : State) : Host.Outcome State Fault Refusal :=
  match i with
  | .add d a b => Sys2Proof.Machine.execAdd d a b s
  | .sub d a b => Sys2Proof.Machine.execSub d a b s
  | .mul d a b => Sys2Proof.Machine.execMul d a b s
  | .mulh d a b => Sys2Proof.Machine.execMulh d a b s
  | .mulhn d a b => Sys2Proof.Machine.execMulhn d a b s
  | .and d a b => Sys2Proof.Machine.execAnd d a b s
  | .or d a b => Sys2Proof.Machine.execOr d a b s
  | .xor d a b => Sys2Proof.Machine.execXor d a b s
  | .andn d a b => Sys2Proof.Machine.execAndn d a b s
  | .shl d a b => Sys2Proof.Machine.execShl d a b s
  | .shr d a b => Sys2Proof.Machine.execShr d a b s
  | .sra d a b => Sys2Proof.Machine.execSra d a b s
  | .min d a b => Sys2Proof.Machine.execMin d a b s
  | .max d a b => Sys2Proof.Machine.execMax d a b s
  | .minn d a b => Sys2Proof.Machine.execMinn d a b s
  | .maxn d a b => Sys2Proof.Machine.execMaxn d a b s
  | .clz d a => Sys2Proof.Machine.execClz d a s
  | .ctz d a => Sys2Proof.Machine.execCtz d a s
  | .popc d a => Sys2Proof.Machine.execPopc d a s
  | .addi d a im => Sys2Proof.Machine.execAddi d a im s
  | .andi d a im => Sys2Proof.Machine.execAndi d a im s
  | .ori d a im => Sys2Proof.Machine.execOri d a im s
  | .xori d a im => Sys2Proof.Machine.execXori d a im s
  | .shli d a src => Sys2Proof.Machine.execShli d a src s
  | .shri d a src => Sys2Proof.Machine.execShri d a src s
  | .srai d a src => Sys2Proof.Machine.execSrai d a src s
  | .lih d im => Sys2Proof.Machine.execLih d im s
  | .ceqi d a im => Sys2Proof.Machine.execCeqi d a im s
  | .clti d a im => Sys2Proof.Machine.execClti d a im s
  | .aaddi d a im => Sys2Proof.Machine.execAaddi d a im s
  | .aadd d a b => Sys2Proof.Machine.execAadd d a b s
  | .asub d a b => Sys2Proof.Machine.execAsub d a b s
  | .aaddx d a b h => Sys2Proof.Machine.execAaddx d a b h s
  | .ceq d a b => Sys2Proof.Machine.execCeq d a b s
  | .cne d a b => Sys2Proof.Machine.execCne d a b s
  | .clt d a b => Sys2Proof.Machine.execClt d a b s
  | .cle d a b => Sys2Proof.Machine.execCle d a b s
  | .cltn d a b => Sys2Proof.Machine.execCltn d a b s
  | .clen d a b => Sys2Proof.Machine.execClen d a b s
  | .aceq d a b => Sys2Proof.Machine.execAceq d a b s
  | .acltn d a b => Sys2Proof.Machine.execAcltn d a b s
  | .b o => Sys2Proof.Machine.execB o s
  | .beqz a o => Sys2Proof.Machine.execBeqz a o s
  | .bnez a o => Sys2Proof.Machine.execBnez a o s
  | .bltz a o => Sys2Proof.Machine.execBltz a o s
  | .bgez a o => Sys2Proof.Machine.execBgez a o s
  | .bgtz a o => Sys2Proof.Machine.execBgtz a o s
  | .blez a o => Sys2Proof.Machine.execBlez a o s
  | .bkz k o => Sys2Proof.Machine.execBkz k o s
  | .bknz k o => Sys2Proof.Machine.execBknz k o s
  | .call a o => Sys2Proof.Machine.execCall a o s
  | .nop => Sys2Proof.Machine.execNop s
  | .jr a => Sys2Proof.Machine.execJr a s
  | .callr d a => Sys2Proof.Machine.execCallr d a s
  | .trap c => Sys2Proof.Machine.execTrap c s
  | .rft => Sys2Proof.Machine.execRft s
  | .bkpt => Sys2Proof.Machine.execBkpt s
  | .sleep a => Sys2Proof.Machine.execSleep a s
  | .yield => Sys2Proof.Machine.execYield s
  | .kmov d a => Sys2Proof.Machine.execKmov d a s
  | .knot d a => Sys2Proof.Machine.execKnot d a s
  | .kand d a b => Sys2Proof.Machine.execKand d a b s
  | .kor d a b => Sys2Proof.Machine.execKor d a b s
  | .kxor d a b => Sys2Proof.Machine.execKxor d a b s
  | .kandn d a b => Sys2Proof.Machine.execKandn d a b s
  | .kall d => Sys2Proof.Machine.execKall d s
  | .kclr d => Sys2Proof.Machine.execKclr d s
  | .ksetn d src => Sys2Proof.Machine.execKsetn d src s
  | .kpop a src => Sys2Proof.Machine.execKpop a src s
  | .kfirst a src => Sys2Proof.Machine.execKfirst a src s
  | .ksum a src => Sys2Proof.Machine.execKsum a src s
  | .kmovv d w src => Sys2Proof.Machine.execKmovv d w src s
  | .lrun c o => Sys2Proof.Machine.execLrun c o s
  | .lsetpc o => Sys2Proof.Machine.execLsetpc o s
  | .setfmt a => Sys2Proof.Machine.execSetfmt a s
  | .getfmt d => Sys2Proof.Machine.execGetfmt d s
  | .lget d a b => Sys2Proof.Machine.execLget d a b s
  | .lput d a b => Sys2Proof.Machine.execLput d a b s
  | .srr d n => Sys2Proof.Machine.execSrr d n s
  | .srw src n => Sys2Proof.Machine.execSrw src n s
  | .rdcnt d n => Sys2Proof.Machine.execRdcnt d n s
  | .csel src n => Sys2Proof.Machine.execCsel src n s
  | .czero n => Sys2Proof.Machine.execCzero n s
  | .cld d w o => Sys2Proof.Machine.execCld d w o s
  | .sld d a b l w => Sys2Proof.Machine.execSld d a b l w s
  | .sst d a b l w => Sys2Proof.Machine.execSst d a b l w s
  | .satom d a b l p w => Sys2Proof.Machine.execSatom d a b l p w s
  | .declass a => Sys2Proof.Machine.execDeclass a s
  | .tlbinv a => Sys2Proof.Machine.execTlbinv a s
  | .atinv => Sys2Proof.Machine.execAtinv s
  | .exit a => Sys2Proof.Machine.execExit a s
  | .refill d src => Sys2Proof.Machine.execRefill d src s
  | .refillW d src => Sys2Proof.Machine.execRefillW d src s
  | .spawn d a => Sys2Proof.Machine.execSpawn d a s
  | .binclose a => Sys2Proof.Machine.execBinclose a s
  | .xcopy h a c n => Sys2Proof.Machine.execXcopy h a c n s
  | .xfill h a c n => Sys2Proof.Machine.execXfill h a c n s
  | .xgath h a => Sys2Proof.Machine.execXgath h a s
  | .swbuild h a => Sys2Proof.Machine.execSwbuild h a s
  | .hwait h => Sys2Proof.Machine.execHwait h s
  | .htest h src => Sys2Proof.Machine.execHtest h src s
  | .hcancel h => Sys2Proof.Machine.execHcancel h s
  | .barArr n => Sys2Proof.Machine.execBarArr n s
  | .barWait d n => Sys2Proof.Machine.execBarWait d n s
  | .barExp a n => Sys2Proof.Machine.execBarExp a n s
  | .mzero c a => Sys2Proof.Machine.execMzero c a s
  | .mma c a p q x y z m => Sys2Proof.Machine.execMma c a p q x y z m s
  | .mmaq c a p q x y z m => Sys2Proof.Machine.execMmaq c a p q x y z m s
  | .mmas c a p q x y z m => Sys2Proof.Machine.execMmas c a p q x y z m s
  | .mbank c d => Sys2Proof.Machine.execMbank c d s
  | .fadd t x => Sys2Proof.Machine.execFadd t x s
  | .fsub t x => Sys2Proof.Machine.execFsub t x s
  | .fmul t x => Sys2Proof.Machine.execFmul t x s
  | .ffma t x => Sys2Proof.Machine.execFfma t x s
  | .ffms t x => Sys2Proof.Machine.execFfms t x s
  | .fmin t x => Sys2Proof.Machine.execFmin t x s
  | .fmax t x => Sys2Proof.Machine.execFmax t x s
  | .fabs t x => Sys2Proof.Machine.execFabs t x s
  | .fneg t x => Sys2Proof.Machine.execFneg t x s
  | .frint t x => Sys2Proof.Machine.execFrint t x s
  | .fclass t x => Sys2Proof.Machine.execFclass t x s
  | .frcp t x => Sys2Proof.Machine.execFrcp t x s
  | .frsq t x => Sys2Proof.Machine.execFrsq t x s
  | .fsqrt t x => Sys2Proof.Machine.execFsqrt t x s
  | .fdiv t x => Sys2Proof.Machine.execFdiv t x s
  | .fexp2 x => Sys2Proof.Machine.execFexp2 x s
  | .flog2 x => Sys2Proof.Machine.execFlog2 x s
  | .fsint x => Sys2Proof.Machine.execFsint x s
  | .fcost x => Sys2Proof.Machine.execFcost x s
  | .cvt dst src x => Sys2Proof.Machine.execCvt dst src x s
  | .iadd t x => Sys2Proof.Machine.execIadd t x s
  | .isub t x => Sys2Proof.Machine.execIsub t x s
  | .imul t x => Sys2Proof.Machine.execImul t x s
  | .imulh t x => Sys2Proof.Machine.execImulh t x s
  | .imad t x => Sys2Proof.Machine.execImad t x s
  | .imin t x => Sys2Proof.Machine.execImin t x s
  | .imax t x => Sys2Proof.Machine.execImax t x s
  | .iabs t x => Sys2Proof.Machine.execIabs t x s
  | .ineg t x => Sys2Proof.Machine.execIneg t x s
  | .iadds t x => Sys2Proof.Machine.execIadds t x s
  | .isubs t x => Sys2Proof.Machine.execIsubs t x s
  | .laneAnd t x => Sys2Proof.Machine.execLaneAnd t x s
  | .laneOr t x => Sys2Proof.Machine.execLaneOr t x s
  | .laneXor t x => Sys2Proof.Machine.execLaneXor t x s
  | .laneAndn t x => Sys2Proof.Machine.execLaneAndn t x s
  | .not t x => Sys2Proof.Machine.execNot t x s
  | .laneShl t x => Sys2Proof.Machine.execLaneShl t x s
  | .laneShr t x => Sys2Proof.Machine.execLaneShr t x s
  | .laneSra t x => Sys2Proof.Machine.execLaneSra t x s
  | .rol t x => Sys2Proof.Machine.execRol t x s
  | .ror t x => Sys2Proof.Machine.execRor t x s
  | .laneClz t x => Sys2Proof.Machine.execLaneClz t x s
  | .laneCtz t x => Sys2Proof.Machine.execLaneCtz t x s
  | .lanePopc t x => Sys2Proof.Machine.execLanePopc t x s
  | .brev t x => Sys2Proof.Machine.execBrev t x s
  | .bfe t x => Sys2Proof.Machine.execBfe t x s
  | .bfi t x => Sys2Proof.Machine.execBfi t x s
  | .mov t x => Sys2Proof.Machine.execMov t x s
  | .sel t x => Sys2Proof.Machine.execSel t x s
  | .fcmp r t x => Sys2Proof.Machine.execFcmp r t x s
  | .icmp r t x => Sys2Proof.Machine.execIcmp r t x s
  | .shflIdx t x => Sys2Proof.Machine.execShflIdx t x s
  | .shflXor t x => Sys2Proof.Machine.execShflXor t x s
  | .shflUp t x => Sys2Proof.Machine.execShflUp t x s
  | .shflDown t x => Sys2Proof.Machine.execShflDown t x s
  | .bcast t x => Sys2Proof.Machine.execBcast t x s
  | .lidx x => Sys2Proof.Machine.execLidx x s
  | .redAdd t x => Sys2Proof.Machine.execRedAdd t x s
  | .redMin t x => Sys2Proof.Machine.execRedMin t x s
  | .redMax t x => Sys2Proof.Machine.execRedMax t x s
  | .redAnd t x => Sys2Proof.Machine.execRedAnd t x s
  | .redOr t x => Sys2Proof.Machine.execRedOr t x s
  | .scanAdd t x => Sys2Proof.Machine.execScanAdd t x s
  | .scanAddx t x => Sys2Proof.Machine.execScanAddx t x s
  | .scanMax t x => Sys2Proof.Machine.execScanMax t x s
  | .xswap t x => Sys2Proof.Machine.execXswap t x s
  | .swmark x => Sys2Proof.Machine.execSwmark x s
  | .ld lv w x => Sys2Proof.Machine.execLd lv w x s
  | .st lv w x => Sys2Proof.Machine.execSt lv w x s
  | .atom op lv t x => Sys2Proof.Machine.execAtom op lv t x s
  | .cldLane t x => Sys2Proof.Machine.execCldLane t x s
  | .mfeedA x => Sys2Proof.Machine.execMfeedA x s
  | .mfeedB x => Sys2Proof.Machine.execMfeedB x s
  | .mdrain x => Sys2Proof.Machine.execMdrain x s
  | .qmx t x => Sys2Proof.Machine.execQmx t x s
  | .eventEntry t => Sys2Proof.Machine.execEventEntry t s
  | .chainPhaseStart t => Sys2Proof.Machine.execChainPhaseStart t s
  | .bankPhasePerform t => Sys2Proof.Machine.execBankPhasePerform t s
  | .refillWTake t => Sys2Proof.Machine.execRefillWTake t s
  | .spawnAppend w => Sys2Proof.Machine.execSpawnAppend w s
  | .hwaitReturn t => Sys2Proof.Machine.execHwaitReturn t s
  | .xswapExchange t => Sys2Proof.Machine.execXswapExchange t s
  | .xswapTimeout t => Sys2Proof.Machine.execXswapTimeout t s
  | .sleepEnd st => Sys2Proof.Machine.execSleepEnd st s
  | .stallSample core => Sys2Proof.Machine.execStallSample core s
  | .dcmdStop core => Sys2Proof.Machine.execDcmdStop core s
  | .dcmdResume core => Sys2Proof.Machine.execDcmdResume core s
  | .dcmdStep core => Sys2Proof.Machine.execDcmdStep core s
  | .registerWrite sp off v => Sys2Proof.Machine.execRegisterWrite sp off v s
  | .moduleReset => Sys2Proof.Machine.execModuleReset s
  | .qcmdRegister q => Sys2Proof.Machine.execQcmdRegister q s
  | .qcmdDeregister q => Sys2Proof.Machine.execQcmdDeregister q s
  | .qcmdClearFault q => Sys2Proof.Machine.execQcmdClearFault q s
  | .tailReread q => Sys2Proof.Machine.execTailReread q s
  | .queueIdleTimeout q => Sys2Proof.Machine.execQueueIdleTimeout q s
  | .queueUnmapComplete q => Sys2Proof.Machine.execQueueUnmapComplete q s
  | .runListTurnEnd => Sys2Proof.Machine.execRunListTurnEnd s
  | .nopPacket q => Sys2Proof.Machine.execNopPacket q s
  | .launch q => Sys2Proof.Machine.execLaunch q s
  | .ibCall q => Sys2Proof.Machine.execIbCall q s
  | .waitValue q => Sys2Proof.Machine.execWaitValue q s
  | .barrierAnd q => Sys2Proof.Machine.execBarrierAnd q s
  | .waitReread q => Sys2Proof.Machine.execWaitReread q s
  | .writeValue q => Sys2Proof.Machine.execWriteValue q s
  | .launchCompletion l => Sys2Proof.Machine.execLaunchCompletion l s
  | .lnote cl => Sys2Proof.Machine.execLnote cl s
  | .preq cl => Sys2Proof.Machine.execPreq cl s
  | .pack cl => Sys2Proof.Machine.execPack cl s
  | .resume cl => Sys2Proof.Machine.execResume cl s
  | .mapchg cl => Sys2Proof.Machine.execMapchg cl s
  | .efault cl => Sys2Proof.Machine.execEfault cl s
  | .done cl => Sys2Proof.Machine.execDone cl s
  | .unitPreemptAck u => Sys2Proof.Machine.execUnitPreemptAck u s
  | .preemptedTeamPlacement die => Sys2Proof.Machine.execPreemptedTeamPlacement die s
  | .teamStart l bin die => Sys2Proof.Machine.execTeamStart l bin die s
  | .neighbourhoodStart l die => Sys2Proof.Machine.execNeighbourhoodStart l die s
  | .shardTimerExpiry l bin die => Sys2Proof.Machine.execShardTimerExpiry l bin die s
  | .neighbourhoodReservation l die => Sys2Proof.Machine.execNeighbourhoodReservation l die s
  | .urgencyPredictorUpdate core => Sys2Proof.Machine.execUrgencyPredictorUpdate core s
  | .matrixGroupForm l cl => Sys2Proof.Machine.execMatrixGroupForm l cl s
  | .matrixGroupEnd cl => Sys2Proof.Machine.execMatrixGroupEnd cl s
  | .matrixOpStart cl ix => Sys2Proof.Machine.execMatrixOpStart cl ix s
  | .matrixOpComplete cl ix => Sys2Proof.Machine.execMatrixOpComplete cl ix s
  | .copyLineRun o => Sys2Proof.Machine.execCopyLineRun o s
  | .gatherTile o => Sys2Proof.Machine.execGatherTile o s
  | .gatherWrite o => Sys2Proof.Machine.execGatherWrite o s
  | .swardTile o => Sys2Proof.Machine.execSwardTile o s
  | .leafFaultResolve o => Sys2Proof.Machine.execLeafFaultResolve o s
  | .barByteReport o => Sys2Proof.Machine.execBarByteReport o s
  | .barWaitRelease t => Sys2Proof.Machine.execBarWaitRelease t s
  | .ballastMeasure => Sys2Proof.Machine.execBallastMeasure s
  | .ballastRecordTransfer l bin d e => Sys2Proof.Machine.execBallastRecordTransfer l bin d e s
  | .ballastSlabResplit l bin d e => Sys2Proof.Machine.execBallastSlabResplit l bin d e s
  | .granuleMigration l bin d e => Sys2Proof.Machine.execGranuleMigration l bin d e s
  | .rds node line => Sys2Proof.Machine.execRds node line s
  | .rdx node line => Sys2Proof.Machine.execRdx node line s
  | .upg node line => Sys2Proof.Machine.execUpg node line s
  | .fwd node line => Sys2Proof.Machine.execFwd node line s
  | .inv node line => Sys2Proof.Machine.execInv node line s
  | .binv node line => Sys2Proof.Machine.execBinv node line s
  | .ack line => Sys2Proof.Machine.execAck line s
  | .data node line => Sys2Proof.Machine.execData node line s
  | .wbd node line => Sys2Proof.Machine.execWbd node line s
  | .hostCxlMemRead pa len => Sys2Proof.Machine.execHostCxlMemRead pa len s
  | .hostCxlMemWrite pa bytes poisoned => Sys2Proof.Machine.execHostCxlMemWrite pa bytes poisoned s
  | .cxlCacheCompletion line err => Sys2Proof.Machine.execCxlCacheCompletion line err s
  | .reclassDrain node gran => Sys2Proof.Machine.execReclassDrain node gran s
  | .reclassDrainAck gran => Sys2Proof.Machine.execReclassDrainAck gran s
  | .tableWalk cl asid va => Sys2Proof.Machine.execTableWalk cl asid va s
  | .blockDecode block errs => Sys2Proof.Machine.execBlockDecode block errs s
  | .uncorrectableArrayError loc => Sys2Proof.Machine.execUncorrectableArrayError loc s
  | .linkFlitReplay lk lane => Sys2Proof.Machine.execLinkFlitReplay lk lane s
  | .linkPortDown port => Sys2Proof.Machine.execLinkPortDown port s
  | .spareReplacement p => Sys2Proof.Machine.execSpareReplacement p s
  | .coreRetirement core => Sys2Proof.Machine.execCoreRetirement core s
  | .leafControllerRestart cl => Sys2Proof.Machine.execLeafControllerRestart cl s
  | .gangCommit g => Sys2Proof.Machine.execGangCommit g s
  | .versionStallTimeout w => Sys2Proof.Machine.execVersionStallTimeout w s
  | .supplyLoss => Sys2Proof.Machine.execSupplyLoss s
  | .drogueFlush => Sys2Proof.Machine.execDrogueFlush s
  | .supplyReturn => Sys2Proof.Machine.execSupplyReturn s
  | .energyReserveLow => Sys2Proof.Machine.execEnergyReserveLow s
  | .freeze asid => Sys2Proof.Machine.execFreeze asid s
  | .restore addr q => Sys2Proof.Machine.execRestore addr q s
  | .ckpt asid => Sys2Proof.Machine.execCkpt asid s
  | .drogueReg asid budget => Sys2Proof.Machine.execDrogueReg asid budget s
  | .imageArea asid addr size => Sys2Proof.Machine.execImageArea asid addr size s
  | .preempt tgt => Sys2Proof.Machine.execPreempt tgt s
  | .signed cmd => Sys2Proof.Machine.execSigned cmd s
  | .report nonce buf => Sys2Proof.Machine.execReport nonce buf s
  | .sensorRefresh vals => Sys2Proof.Machine.execSensorRefresh vals s

end Sys2Proof.Machine
end

