-- ==== Sys2Proof/Machine/Settle.lean ====
section
/-! DEFINITION. What every step of the module ends with, whichever agent moved: the granules whose last mapping it took away (spec/09 R218),
those that are still to leave a retired stack (spec/11 R258), and a turn of the run list that nothing holds up any more (spec/12 R274). -/

namespace Sys2Proof.Machine

/-- The state after a step that began in another. -/
def State.settled (s before : State) : State := (s.deadStacks.foldl State.evacuate (State.unmappedSince before s)).settleTurn

/-- The outcome of a step that began in a state. -/
def settle (before : State) : Out → Out
  | .next s => .next (s.settled before)
  | .fault f => .fault f
  | .refused r => .refused r

end Sys2Proof.Machine
end

