-- ==== Sys2Proof/Machine/Step.lean ====
section
/-! DEFINITION. One step of the module, and a state whose next step runs a given word (DESIGN CHOICE, notes/assumptions/2). -/

namespace Sys2Proof.Machine

/-- The turn that comes lets time pass. -/
def State.timePasses (s : State) : Bool :=
  match s.agenda with
  | .elapse _ :: _ => true
  | [] => !s.cur.any s.canIssue
  | _ => false

/-- One step: the turn of one agent, and what it executes. Before time passes, the launches that wait for a rectangle are noted
(14 R314). -/
def step (s : State) : Host.Outcome State Fault Refusal :=
  settle s (match (if s.timePasses then s.markWaits else s).turn with
    | (s, some i) => exec i s
    | (s, none) => .next s)

/-! ## A program from outside -/

/-- A launch as withFetchWord loads it: one entry whose scalar and lane code lie at 0x10000 and whose head bitmap, with its
first bit set, lies at 0x18000; no bins with records; scratchpad and quotas at their limits. -/
def loadedEntry : Entry where
  sbase := 0x10000
  lbase := 0x10000
  hbmap := 0x18000
  slen := 1
  llen := 6
  sentry := 0
  lentry := 0
  arg := 0
  fmt := 0
  n := 1
  alloc := 256
  role := .vector
  pos := 0
  tix := 0
  bin := 0

def loadedLaunch (id : Nat) : Launch where
  id := id
  queue := 0
  proc := none
  asid := 0
  part := 0
  packet := 0
  caddr := 0
  cval := 0
  raw := []
  nb := false
  relaunch := false
  rows := 1
  cols := 1
  carve := 0
  dscr := 0
  diemask := 1
  arrays := 1
  barUsed := 0
  barNbhd := 0
  psize := 0
  vbudget := 16
  teamq := 1
  nbq := 0
  slotq := 1
  regq := 512
  spq := 0
  hier := []
  entries := [loadedEntry]
  bins := [⟨0, 0, false, 0, false, 0, false, none, none⟩]
  pairs := []
  pbase := 0
  tvec := 0x10000
  pgpool := 0
  stat := 0
  ccsbase := 0x10000
  ccslen := 1
  ccentry := 0
  ccfmt := 0
  ccarg := 0
  windows := Vector.replicate 8 ⟨0, 0⟩
  lstate := .running
  kills := 0
  failcode := 0
  krec := none
  noted := []
  cands := []
  formed := [0]
  preempted := false
  doneSeen := 0

def loadedId : TeamId := ⟨0, 0⟩

/-- A team at its start with one record in each of its 32 lanes; run tells how many lane instructions it has to issue. -/
def loadedTeam (launch run : Nat) : Team where
  id := loadedId
  gid := 0
  launch := launch
  entry := 0
  nw := 1
  alloc := 256
  role := .vector
  pos := 0
  tix := 0
  nbRows := 1
  nbCols := 1
  blk := 0
  die := 0
  place := some ⟨0, 0⟩
  savedOn := none
  lvid := Vector.replicate 8 0
  lvext := Vector.replicate 8 0
  sc := (loadedLaunch launch).startScalar loadedEntry 32
  vregs := []
  masks := (Vector.replicate 16 0).set 0 (lanesBelow 32)
  kv := 0
  latches := []
  seq := 0
  tlpc := 0
  tlane := 0
  tk0 := 0
  lanePc := 0
  runLeft := run
  chainPos := 0
  chainStart := 0
  pushes := 0
  chainReads := none
  chainLog := []
  begun := []
  pendTrap := none
  eventVersion := none
  eventDirty := false
  startRecs := []
  refillRecs := []
  anew := false
  instrs := 0
  xarr := none

/-- A control core at its start. -/
def loadedGroup (launch : Nat) : Group where
  cl := 0
  launch := launch
  sc := { Scalar.start with pc := 0x10000, tvec := 0x10000 }
  arrays := [ArrayState.reset 0]
  placed := true

def loadedTlb : TlbEntry where
  owner := .cluster 0
  asid := 0
  level := 0
  page := 1
  pte := 0
  frame := 0x10000
  r := true
  w := false
  x := true
  sup := false
  apl := 0
  d := false
  marked := []
  cls := []

/-- A matrix word, which only control cores issue (03 R64, 08 R196). -/
def isMatrixWord (w : Nat) : Bool := w / 2 ^ 26 % 64 == 0x30

/-- The state with one launch, its team, its control core and a translation of its code in place, and the instruction whose
bits are w as its code: the very next step fetches and runs it. -/
def State.withFetchWord (s : State) (nbits w : Nat) : State :=
  let run := if nbits ≤ 32 then 0 else 1
  let bits := w % 2 ^ nbits
  let l := s.nextLaunch
  { s with
    agenda := []
    cur := some (if nbits ≤ 32 && isMatrixWord w then .ctrl 0 else .team loadedId)
    mem := (s.mem.writeBytes 0x10000 (bytesOfNat 24 bits)).writeBytes 0x18000 [1]
    launches := loadedLaunch l :: s.launches
    nextLaunch := l + 1
    teams := loadedTeam l run :: s.teams
    groups := loadedGroup l :: s.groups
    gangs := ⟨⟨0, 0⟩, l, false, false, false, [], 0, []⟩ :: s.gangs
    tlb := loadedTlb :: s.tlb }

end Sys2Proof.Machine
end

