-- ==== Sys2Proof/Safety.lean ====
section
/-! DEFINITION. What claims about runs are stated in: the canonical form of the memories, a step that goes on, an instruction
that its stream issues, how it ends, and what it leaves unchanged. -/

namespace Sys2Proof.Machine

/-- Every memory of the state is in its canonical form. -/
def State.memoriesWf (s : State) : Bool :=
  s.mem.wf && s.cores.all (fun c => c.2.scratch.wf) && s.dscratch.all (fun d => d.bytes.wf)

/-- Every table whose form the memories do not say is in its canonical form: the cores, the control cores' counts, the lane registers of
teams, and the poison bits. -/
def State.tablesWf (s : State) : Bool :=
  smWf CoreState.reset s.cores && smWf 0 s.ctrlIret && s.teams.all (fun x => smWf PWord.zero x.vregs) && smWf false s.poison &&
    s.cores.all (fun c => smWf false c.2.scratchPoison)

/-- A step goes on: it ends in neither a fault nor a refusal. -/
def Goes (s : State) : Prop := ∃ s', step s = .next s'

/-! ## Issue -/

/-- A live stream is issuing, with these registers. -/
def Issuing (s : State) (st : StreamId) (sc : Scalar) : Prop := s.cur = some st ∧ s.scalar? st = some sc

/-- A live team's scalar stream is issuing. -/
def TeamIssues (s : State) (x : Team) : Prop := s.cur = some (.team x.id) ∧ s.team? x.id = some x

/-- A live control core is issuing. -/
def GroupIssues (s : State) (g : Group) : Prop := s.cur = some (.ctrl g.cl) ∧ s.group? g.cl = some g

/-! ## Ends of scalar instructions -/

/-- The instruction has the effects that t holds and the next word follows (05 R103). -/
def Completes (i : Instr) (s : State) (st : StreamId) (sc : Scalar) (t : State) : Prop :=
  exec i s = .next (t.retire st sc.pc (sc.pc + 4) sc.sup false)

/-- The instruction has the effects that t holds and control goes to pc (05 R103). -/
def Transfers (i : Instr) (s : State) (st : StreamId) (sc : Scalar) (t : State) (pc : DWord) : Prop :=
  exec i s = .next (t.retire st sc.pc pc sc.sup false)

/-- Its stream takes a trap of a cause without an address, with TPC at it (04 R95); while something older of the stream is unfinished
it does not issue, and nothing changes (05 R106). -/
def TrapsAt (i : Instr) (s : State) (st : StreamId) (sc : Scalar) (c : Cause) : Prop :=
  exec i s = .next (s.scalarTrap st (Trap.of c) sc.pc)

/-! ## Accesses -/

/-- An access that a stream of s begins performs whole in the turn: ag makes it, no older access of the stream has still to reach one of its
lines (09 R213), and u is the state that class (R215), version (11 R253), coherence and the host leave just before its events
(09 R211, R216; 10 R233). -/
def Performs (s : State) (st : StreamId) (a : Access) (ag : Agent) (u : State) : Prop :=
  let held := s.mapScalar st (·.newAcc a)
  held.agentOf st = some ag ∧ (∃ sc, held.scalar? st = some sc ∧ sc.behind none a = false) ∧
    ∃ v o w q r, State.classAll ag a.events held false = .go v o ∧
      State.versionAll ag a.events (v.orders st a o) = .go w q ∧
      State.readyAll ag true a.events w false = .go u r ∧ u.limit = none

/-- The state of a stream whose latest access has performed all its events. -/
def State.accOver (s : State) (st : StreamId) : State := s.mapScalar st (·.endAcc none)

/-- Some word that n bytes at an offset of a place touch is poisoned for an agent that reads them: in the copy that its L1 serves them from,
where that keeps bits of its own, and otherwise where the line is held; or the host answered with an error (11 R249, 10 R243). -/
def State.badAt (s : State) (ag : Agent) (p : Spot) (o n : Nat) : Bool :=
  let held := s.hostErr p.loc || s.locPoison (p.loc.add o) n
  match p.loc with
  | .mem pa =>
    match (s.copyNode ag p).bind (fun k => s.ownPoison k (lineOf pa)) with
    | some own => (wordsTouched (pa + o) n).any (fun w => own.contains (w % 32))
    | none => held
  | _ => held

/-- A scalar access passes every check: ag makes it at p, and v is the state that the checks leave (10 R229, R232, R240). -/
def PassesChecks (s : State) (st : StreamId) (k : AccKind) (lv : Level) (off : DWord) (width : Nat) (ag : Agent) (p : Spot) (v : State) :
    Prop :=
  ∃ l r, s.agentOf st = some ag ∧ s.launchOf st = some l ∧ s.scalarReach st l lv off width = some r ∧
    s.check ag k (k == .atomic) 0 r off width = (v, .spot p)

/-- A scalar access passes every check, goes to p and performs whole: ag makes it, in the state u that its checks and everything it waits
for leave. -/
def Reaches (s : State) (st : StreamId) (sc : Scalar) (k : AccKind) (lv : Level) (off : DWord) (width : Nat) (op : EvOp) (dest : AccDest)
    (ag : Agent) (p : Spot) (u : State) : Prop :=
  ∃ v, PassesChecks s st k lv off width ag p v ∧ Performs ((v.mapScalar st (·.goto (sc.pc + 4))).countFor st 0x03 1) st
    (sc.access k ⟨p, op⟩ dest) ag u

/-- A scalar memory instruction's access has performed in the state t, and the instruction completes (05 R103). -/
def Completed (i : Instr) (s : State) (st : StreamId) (sc : Scalar) (t : State) : Prop :=
  exec i s = .next (t.scalarDone st sc.pc sc.sup false sc.stepping)

/-! ## Lane instructions -/

/-- A lane instruction of the current team passes the decode checks, and its operands have been read: c is what it issues with, w the
same with the values of its constant-window sources, and u the state that reading them leaves, in which the team holds the words until the
instruction retires. The window words come from those that its chain read before its first instruction (07 R149), with the chain's phases
found (08 R204), or are read now (03 R69, R77), when no cause that ranks above those of the read, early, stands (04 R96). -/
def LaneReads (i : Instr) (s : State) (c w : LaneCtx) (u : State) (early : Early := fun _ _ _ => ([], false)) : Prop :=
  s.laneCtx i = some c ∧ laneCheck s c.x i c.sig c.args = none ∧ (c.idle i = true ∨ c.windowFault = none) ∧
    ∃ v ws, s.operandWords c i = .ok v ws ∧
      let holds := fun (v : State) (ws : List PWord) => v.mapTeam c.id (fun t => { t with chainReads := some ws })
      let all := c.idle i = true ∨ c.need ≤ ws.length
      (all ∧ v.chainOpen c i ws = true ∧ w = c.withWindows ws ∧ u = holds v ws) ∨
        (¬all ∧ ∃ fs v' ps z own, early c ws v = (fs, false) ∧ State.windowSpots c.ag c.l (c.sig.windows c.args) v = (v', ps, none) ∧
          chooseTrap (c.windowPages v' ++ fs) = none ∧ v'.readWindows c ps = .ok z own ∧ w = c.withWindows own ∧ u = holds z own)

/-- Every governed lane gets its result r and the instruction completes (07 R145). -/
def LaneWrites (i : Instr) (s : State) (r : LaneCtx → Nat → PPair) : Prop :=
  ∀ c w u, LaneReads i s c w u → exec i s = .next ((u.writeLanes c (r w)).retireLane c.x c.args c.gov c.need)

/-- The destination mask register is written whole and the instruction completes (07 R164). -/
def LaneMasks (i : Instr) (s : State) (m : LaneCtx → Mask) : Prop :=
  ∀ c w u, LaneReads i s c w u → (∀ j ∈ c.g, w.poison j = false) →
    exec i s = .next ((u.mapTeam c.id (fun t => t.setK (c.args.di.extractLsb' 0 4) (m w))).retireLane c.x c.args c.gov c.need)

/-- A lane memory instruction passes the checks of every governed lane, no lane consumes a poisoned word, and its access performs whole:
ps are the places of the lanes in ascending order, r the state that everything it waits for leaves (10 R231–R233). -/
def LanesReach (u : State) (w : LaneCtx) (k : AccKind) (lv : Level) (width : Nat) (off : Nat → DWord) (consumed : Nat → Bool)
    (ops : Nat → List EvOp) (dest : AccDest) (ps : List Spot) (r : State) : Prop :=
  ∃ v, State.checkLanes w k (k == .atomic) lv width off w.g u = (v, [], ps, false) ∧ (∀ j ∈ w.g, consumed j = false) ∧
    Performs ((v.mapTeam w.id (fun t => t.laneRetired w.args w.gov w.need)).countPasses w.id w.x.nw w.gov) w.st
      (w.access k (ps.flatMap (fun p => p.events (ops p.lane))) dest) w.ag r

/-- A lane memory instruction's access has performed in the state t, and the instruction completes with its chain (07 R145, 03 R74). -/
def LaneEnds (i : Instr) (s : State) (c : LaneCtx) (t : State) : Prop :=
  exec i s = .next (t.laneDone c.id (c.x.chainUnits c.gov) c.x.sc.sup c.x.sc.stepping)

/-- A 32-bit result, and a 64-bit one as a pair, with the poison of every source word of its lane (07 R148). -/
def res32 (w : LaneCtx) (j : Nat) (v : Word) : PPair := ⟨⟨v, w.poison j⟩, ⟨0, false⟩⟩
def res64 (w : LaneCtx) (j : Nat) (v : DWord) : PPair :=
  ⟨⟨BitVec.ofNat 32 v.toNat, w.poison j⟩, ⟨BitVec.ofNat 32 (v.toNat / 2 ^ 32), w.poison j⟩⟩

/-! ## Quiet streams -/

/-- The debug unit does nothing when the stream's next instruction completes: the team is in supervisor mode, or it is not being
stepped, no breakpoint of its core is enabled and no stop waits for the end of its run (17 R377, 05 R106). The table of cores has its
canonical form. -/
def State.quiet (s : State) : StreamId → Prop
  | .team id => smWf CoreState.reset s.cores = true ∧ ∀ x p, s.team? id = some x → x.place = some p →
      x.sc.sup = true ∨ (x.sc.stepping = false ∧ x.pendTrap = none ∧ ∀ i, (s.core p.core).dbg.en i = false)
  | .ctrl _ => True

/-! ## What stays -/

/-- The special registers, the format register, the handles and the trap registers of two streams agree. -/
def Scalar.sameSpecials (a b : Scalar) : Prop :=
  b.fmt = a.fmt ∧ b.handles = a.handles ∧ b.tvec = a.tvec ∧ b.pgpool = a.pgpool ∧ b.tcause = a.tcause ∧
    b.tdetail = a.tdetail ∧ b.tpc = a.tpc ∧ b.taddr = a.taddr ∧ b.tstat = a.tstat

/-- Nothing but one stream's own registers and the counts of retired instructions and counted events differs: every byte of
every memory and its poison, every other stream, every core's debug block, and every other field of the state stay. -/
structure OnlyStream (s t : State) (st : StreamId) : Prop where
  memory : ∀ a, t.mem.read a = s.mem.read a
  poison : t.poison = s.poison
  scratch : ∀ c a, (t.core c).scratch.read a = (s.core c).scratch.read a
  debug : ∀ c, (t.core c).dbg = (s.core c).dbg ∧ (t.core c).psel = (s.core c).psel
  dies : t.dscratch = s.dscratch
  streams : ∀ st', st' ≠ st → t.scalar? st' = s.scalar? st'
  teams : ∀ id, st ≠ .team id → t.team? id = s.team? id
  rest : t = { s with teams := t.teams, groups := t.groups, cores := t.cores, ctrlIret := t.ctrlIret }

/-- A team's lanes stay: its lane registers, masks, latches, lane PC, run and trap registers of teams. -/
def Team.sameLanes (x y : Team) : Prop := y = { x with sc := y.sc, instrs := y.instrs }

/-- An instruction of a stream changed no scalar register but those of ds, no mask and no lane register, no special register,
and nothing outside its stream. -/
structure ScalarFrame (s t : State) (st : StreamId) (ds : List (BitVec 6)) : Prop where
  only : OnlyStream s t st
  regs : ∀ sc sc', s.scalar? st = some sc → t.scalar? st = some sc' →
    sc.sameSpecials sc' ∧ ∀ j, j ∉ ds → sc'.reg j = sc.reg j
  lanes : ∀ id x y, st = .team id → s.team? id = some x → t.team? id = some y → x.sameLanes y

/-- An instruction of a team changed no mask register but those of ks, no scalar, lane or special register, and nothing
outside its team. -/
structure MaskFrame (s t : State) (id : TeamId) (ks : List (BitVec 4)) : Prop where
  only : OnlyStream s t (.team id)
  masks : ∀ x y, s.team? id = some x → t.team? id = some y →
    (∀ j, j ∉ ks → y.k j = x.k j) ∧ y.kv = x.kv ∧ x.sc.sameSpecials y.sc ∧ (∀ j, y.sc.reg j = x.sc.reg j) ∧
      y = { x with sc := y.sc, instrs := y.instrs, masks := y.masks }

end Sys2Proof.Machine
end

