-- ==== Sys2Proof/Certificates/Slice0/Obligations.lean ====
section
/-! DEFINITION. The statements about the model, from the numbered rules of the spec. -/

open Sys2Proof Sys2Proof.Machine

/-! ## The scalar stream (spec/05, spec/04) -/

/-- 05 R101, R102, R103, R108: what each register ALU form writes, with its poison, in every state whose stream is
issuing; b counts of SHL, SHR and SRA may reach or pass the width. 05 R108: CLZ, CTZ and POPC count the leading zero,
trailing zero and set bits of a word, 0 to 32. 05 R111: each register compare writes 1 when its relation holds and 0
otherwise. -/
def Obligations.RegisterArithmeticResults : Prop :=
  (∀ (s : State) (st : StreamId) (sc : Scalar) (d a b : BitVec 6), Issuing s st sc →
      let x := (sc.reg a).val
      let y := (sc.reg b).val
      let gives := fun (i : Instr) (w : Word) =>
        Completes i s st sc (s.writeReg st d ⟨w, (sc.reg a).poison || (sc.reg b).poison⟩)
      gives (.add d a b) (BitVec.ofNat 32 (x.toNat + y.toNat)) ∧
      gives (.sub d a b) (BitVec.ofInt 32 ((x.toNat : Int) - y.toNat)) ∧
      gives (.mul d a b) (BitVec.ofNat 32 (x.toNat * y.toNat)) ∧
      gives (.mulh d a b) (BitVec.ofInt 32 (x.toInt * y.toInt / 2 ^ 32)) ∧
      gives (.mulhn d a b) (BitVec.ofNat 32 (x.toNat * y.toNat / 2 ^ 32)) ∧
      gives (.and d a b) (x &&& y) ∧
      gives (.or d a b) (x ||| y) ∧
      gives (.xor d a b) (x ^^^ y) ∧
      gives (.andn d a b) (x &&& ~~~y) ∧
      gives (.shl d a b) (BitVec.ofNat 32 (x.toNat * 2 ^ y.toNat)) ∧
      gives (.shr d a b) (BitVec.ofNat 32 (x.toNat / 2 ^ y.toNat)) ∧
      gives (.sra d a b) (BitVec.ofInt 32 (x.toInt / 2 ^ y.toNat)) ∧
      gives (.min d a b) (BitVec.ofInt 32 (min x.toInt y.toInt)) ∧
      gives (.max d a b) (BitVec.ofInt 32 (max x.toInt y.toInt)) ∧
      gives (.minn d a b) (BitVec.ofNat 32 (min x.toNat y.toNat)) ∧
      gives (.maxn d a b) (BitVec.ofNat 32 (max x.toNat y.toNat))) ∧
  (∀ (s : State) (st : StreamId) (sc : Scalar) (d a : BitVec 6), Issuing s st sc →
      let x := (sc.reg a).val
      let gives := fun (i : Instr) (n : Nat) =>
        Completes i s st sc (s.writeReg st d ⟨BitVec.ofNat 32 n, (sc.reg a).poison⟩)
      (∃ n, n ≤ 32 ∧ x.toNat < 2 ^ (32 - n) ∧ (n < 32 → 2 ^ (31 - n) ≤ x.toNat) ∧ gives (.clz d a) n) ∧
      (∃ n, n ≤ 32 ∧ x.toNat % 2 ^ n = 0 ∧ (n < 32 → x.getLsbD n = true) ∧ gives (.ctz d a) n) ∧
      gives (.popc d a) ((List.range 32).map (fun i => x.toNat / 2 ^ i % 2)).sum) ∧
  (∀ (s : State) (st : StreamId) (sc : Scalar) (d a b : BitVec 6), Issuing s st sc →
      let x := (sc.reg a).val
      let y := (sc.reg b).val
      let base := fun (r : BitVec 6) => if r.toNat % 2 = 0 then (sc.pair r).val.toNat else (sc.reg r).val.toNat
      let bad := fun (r : BitVec 6) => if r.toNat % 2 = 0 then (sc.pair r).poison else (sc.reg r).poison
      let gives := fun (i : Instr) (q : Bool) (holds : Prop) =>
        (holds → Completes i s st sc (s.writeReg st d ⟨1, q⟩)) ∧ (¬holds → Completes i s st sc (s.writeReg st d ⟨0, q⟩))
      let q := (sc.reg a).poison || (sc.reg b).poison
      gives (.ceq d a b) q (x = y) ∧
      gives (.cne d a b) q (x ≠ y) ∧
      gives (.clt d a b) q (x.toInt < y.toInt) ∧
      gives (.cle d a b) q (x.toInt ≤ y.toInt) ∧
      gives (.cltn d a b) q (x.toNat < y.toNat) ∧
      gives (.clen d a b) q (x.toNat ≤ y.toNat) ∧
      gives (.aceq d a b) (bad a || bad b) (base a = base b) ∧
      gives (.acltn d a b) (bad a || bad b) (base a < base b))

/-- 05 R109, 03 R63: what each immediate form writes; LIH reads no register and clears poison. 05 R110, R101: the address
forms write a 64-bit sum into an even pair, a pair of s0 discarding it; an odd destination traps ILLEGAL. -/
def Obligations.ImmediateAndAddressResults : Prop :=
  (∀ (s : State) (st : StreamId) (sc : Scalar) (d a : BitVec 6) (i : BitVec 14) (n : BitVec 5) (h : BitVec 20),
      Issuing s st sc →
      let x := (sc.reg a).val
      let gives := fun (j : Instr) (w : Word) => Completes j s st sc (s.writeReg st d ⟨w, (sc.reg a).poison⟩)
      gives (.addi d a i) (BitVec.ofInt 32 (x.toNat + i.toInt)) ∧
      gives (.andi d a i) (x &&& BitVec.ofInt 32 i.toInt) ∧
      gives (.ori d a i) (x ||| BitVec.ofInt 32 i.toInt) ∧
      gives (.xori d a i) (x ^^^ BitVec.ofInt 32 i.toInt) ∧
      gives (.shli d a n) (BitVec.ofNat 32 (x.toNat * 2 ^ n.toNat)) ∧
      gives (.shri d a n) (BitVec.ofNat 32 (x.toNat / 2 ^ n.toNat)) ∧
      gives (.srai d a n) (BitVec.ofInt 32 (x.toInt / 2 ^ n.toNat)) ∧
      gives (.ceqi d a i) (if x = BitVec.ofInt 32 i.toInt then 1 else 0) ∧
      gives (.clti d a i) (if x.toInt < i.toInt then 1 else 0) ∧
      Completes (.lih d h) s st sc (s.writeReg st d ⟨BitVec.ofNat 32 (h.toNat * 4096), false⟩)) ∧
  (∀ (s : State) (st : StreamId) (sc : Scalar) (d a b : BitVec 6) (i : BitVec 14) (h : BitVec 4), Issuing s st sc →
      let base := fun (r : BitVec 6) => if r.toNat % 2 = 0 then (sc.pair r).val.toNat else (sc.reg r).val.toNat
      let bad := fun (r : BitVec 6) => if r.toNat % 2 = 0 then (sc.pair r).poison else (sc.reg r).poison
      let gives := fun (j : Instr) (v : DWord) (q : Bool) =>
        (d.toNat % 2 = 0 → Completes j s st sc (s.writePair st d
          ⟨⟨BitVec.ofNat 32 v.toNat, q⟩, ⟨BitVec.ofNat 32 (v.toNat / 2 ^ 32), q⟩⟩)) ∧
        (d.toNat % 2 = 1 → TrapsAt j s st sc .illegal)
      gives (.aaddi d a i) (BitVec.ofInt 64 (base a + i.toInt)) (bad a) ∧
      gives (.aadd d a b) (BitVec.ofNat 64 (base a + base b)) (bad a || bad b) ∧
      gives (.asub d a b) (BitVec.ofInt 64 ((base a : Int) - base b)) (bad a || bad b) ∧
      gives (.aaddx d a b h) (BitVec.ofInt 64 (base a + (sc.reg b).val.toInt * 2 ^ h.toNat)) (bad a || (sc.reg b).poison))

/-- 05 R112, R113, 03 R62: a branch goes to PC + 4 × off16 when its condition holds and falls through when it does not; a
poisoned tested register traps POISON; BKZ and BKNZ test the summary of a team's mask and trap ILLEGAL on a control
core. 05 R114: CALL and CALLR write PC + 4 into an even link pair and go to their target, which CALLR reads first; JR
goes to a pair's address; a poisoned target traps POISON and an odd register traps ILLEGAL. -/
def Obligations.BranchesAndCallsTransfer : Prop :=
  (∀ (s : State) (st : StreamId) (sc : Scalar) (a : BitVec 6) (k : BitVec 4) (o : BitVec 16), Issuing s st sc →
      let target := BitVec.ofInt 64 (sc.pc.toNat + 4 * o.toInt)
      let x := (sc.reg a).val.toInt
      let tests := fun (i : Instr) (holds : Prop) =>
        ((sc.reg a).poison = true → TrapsAt i s st sc .poison) ∧
        ((sc.reg a).poison = false → holds → Transfers i s st sc s target) ∧
        ((sc.reg a).poison = false → ¬holds → Completes i s st sc s)
      Transfers (.b o) s st sc s target ∧
      tests (.beqz a o) (x = 0) ∧
      tests (.bnez a o) (x ≠ 0) ∧
      tests (.bltz a o) (x < 0) ∧
      tests (.bgez a o) (0 ≤ x) ∧
      tests (.bgtz a o) (0 < x) ∧
      tests (.blez a o) (x ≤ 0) ∧
      (∀ team, st = .team team.id → s.team? team.id = some team →
        let none' := ∀ j, j < team.lanes → (team.k k).getLsbD j = false
        (none' → Transfers (.bkz k o) s st sc s target ∧ Completes (.bknz k o) s st sc s) ∧
        (¬none' → Completes (.bkz k o) s st sc s ∧ Transfers (.bknz k o) s st sc s target)) ∧
      (∀ cl, st = .ctrl cl → TrapsAt (.bkz k o) s st sc .illegal ∧ TrapsAt (.bknz k o) s st sc .illegal)) ∧
  (∀ (s : State) (st : StreamId) (sc : Scalar) (d a : BitVec 6) (o : BitVec 16), Issuing s st sc →
      let link := fun (r : BitVec 6) => s.writePair st r (.ofVal (BitVec.ofNat 64 (sc.pc.toNat + 4)) false)
      (a.toNat % 2 = 0 → Transfers (.call a o) s st sc (link a) (BitVec.ofInt 64 (sc.pc.toNat + 4 * o.toInt))) ∧
      (a.toNat % 2 = 0 → (sc.pair a).poison = false →
        Transfers (.jr a) s st sc s (sc.pair a).val ∧
        (d.toNat % 2 = 0 → Transfers (.callr d a) s st sc (link d) (sc.pair a).val)) ∧
      (a.toNat % 2 = 0 → (sc.pair a).poison = true →
        TrapsAt (.jr a) s st sc .poison ∧ (d.toNat % 2 = 0 → TrapsAt (.callr d a) s st sc .poison)) ∧
      (a.toNat % 2 = 1 → TrapsAt (.call a o) s st sc .illegal ∧ TrapsAt (.jr a) s st sc .illegal ∧
        TrapsAt (.callr d a) s st sc .illegal) ∧
      (d.toNat % 2 = 1 → TrapsAt (.callr d a) s st sc .illegal))

/-- 05 R124, 04 R95, R97: with nothing older of its stream unfinished, TRAP completes and then enters the handler with its
code and TPC at the next word; BKPT in user mode under no debugger does so with cause BKPT, and in supervisor mode has
no effect. 04 R99: RFT in supervisor mode gives a team k0 := TK0 in every lane that is not vacant, clears SUP, resumes
the interrupted run when RUNLEFT is not zero, and goes on at TPC; in user mode it traps ILLEGAL. A control core has no
run and no mask. -/
def Obligations.TrapsEnterAndReturn : Prop :=
  ((∀ (s : State) (st : StreamId) (sc : Scalar) (c : BitVec 6), Issuing s st sc → s.olderLeft st = false →
      exec (.trap c) s = .next (((s.retire st sc.pc (sc.pc + 4) sc.sup true).takeTrap st (Trap.of (.trap c)) (sc.pc + 4)).untrace s st)) ∧
    (∀ (s : State) (st : StreamId) (sc : Scalar), Issuing s st sc →
      (∀ c, s.coreOf st = some c → (s.core c).dbg.hold = false) →
      (sc.sup = false → s.olderLeft st = false → exec .bkpt s =
        .next (((s.retire st sc.pc (sc.pc + 4) false true).takeTrap st (Trap.of (.bkpt false)) (sc.pc + 4)).untrace s st)) ∧
      (sc.sup = true → Completes .bkpt s st sc s)) ∧
    (∀ (s : State) (x : Team) (c : Nat), TeamIssues s x → s.coreOf (.team x.id) = some c → (s.core c).dbg.hold = true →
      ∃ t y, exec .bkpt s = .next t ∧ t.team? x.id = some y ∧ y.sc.debugStopped = true ∧ y.sc.tcause = x.sc.tcause ∧
        y.sc.sup = x.sc.sup)) ∧
  ((∀ (s : State) (x : Team), TeamIssues s x → x.sc.sup = true → x.pendTrap = none ∨ x.sc.runLeftField ≠ 0 →
      ∃ t y, exec .rft s = .next t ∧ t.team? x.id = some y ∧ y.sc.sup = false ∧
        y.sc.pc = x.sc.tpc &&& ~~~3 ∧ (∀ j, x.kv.getLsbD j = false → (y.k 0).getLsbD j = (x.tk0 &&& x.full).getLsbD j) ∧
        (∀ j, j ≠ 0 → y.k j = x.k j) ∧ (∀ j, y.sc.reg j = x.sc.reg j) ∧
        (x.sc.runLeftField ≠ 0 → y.lanePc = x.tlpc.toNat ∧ y.runLeft = x.sc.runLeftField) ∧
        (x.sc.runLeftField = 0 → y.lanePc = x.lanePc ∧ y.runLeft = x.runLeft)) ∧
    (∀ (s : State) (g : Group), GroupIssues s g → g.sc.sup = true →
      ∃ t h, exec .rft s = .next t ∧ t.group? g.cl = some h ∧ h.sc.sup = false ∧ h.sc.pc = g.sc.tpc &&& ~~~3 ∧
        h.arrays = g.arrays) ∧
    (∀ (s : State) (st : StreamId) (sc : Scalar), Issuing s st sc → sc.sup = false → TrapsAt .rft s st sc .illegal))

/-- 05 R103, R104, 17 R372, R377: an instruction that completes moves its stream's PC, ends the scalar stream's wait and
is counted once on its core; while no breakpoint is enabled and no step is asked for it changes no other register of
the stream. 05 R125: NOP has no effect; YIELD notes the cycle from which the stream stands last; SLEEP blocks the
stream for its count of cycles, a count of zero acts as YIELD and a poisoned count traps POISON. -/
def Obligations.StreamsAdvanceAndWait : Prop :=
  (∀ (s : State) (x : Team) (p : Placement) (pc next : DWord) (sup : Bool), s.team? x.id = some x → x.place = some p →
      smWf CoreState.reset s.cores = true → s.quiet (.team x.id) → sup = x.sc.sup →
      ∃ y, (s.retire (.team x.id) pc next sup false).team? x.id = some y ∧ y.sc.pc = next &&& ~~~3 ∧ y.sc.wait = x.sc.wait.filter Wait.isLane ∧
        y.sc.yielded = none ∧ y.instrs = x.instrs + 1 ∧ y.sc.regs = x.sc.regs ∧ y.masks = x.masks ∧ y.vregs = x.vregs ∧
        y.sc.tstat = x.sc.tstat ∧ ((s.retire (.team x.id) pc next sup false).core p.core).iret = (s.core p.core).iret + 1 ∧
        (s.retire (.team x.id) pc next sup false).mem = s.mem) ∧
  (∀ (s : State) (st : StreamId) (sc : Scalar) (a : BitVec 6), Issuing s st sc → s.quiet st →
      Completes .nop s st sc s ∧
      (∃ t u, exec .yield s = .next t ∧ t.scalar? st = some u ∧ u.yielded = some s.clock ∧ u.wait = sc.wait.filter Wait.isLane ∧
        u.pc = (sc.pc + 4) &&& ~~~3) ∧
      ((sc.reg a).poison = true → TrapsAt (.sleep a) s st sc .poison) ∧
      ((sc.reg a).poison = false → sc.debugStopped = false → ∃ t u, exec (.sleep a) s = .next t ∧ t.scalar? st = some u ∧
        u.pc = (sc.pc + 4) &&& ~~~3 ∧
        ((sc.reg a).val = 0 → u.yielded = some s.clock ∧ u.wait = sc.wait.filter Wait.isLane) ∧
        ((sc.reg a).val ≠ 0 → u.wait = some (.sleep (s.clock + (sc.reg a).val.toNat)))))

/-- 04 R87, 02 R27: s0 reads as zero with its poison bit clear and a write to it is discarded; mask bits and summary bits
of lanes at or above the team size read as zero and writes to them are discarded; bit w of a mask's summary is the OR
of the 32 bits of its word w; and a lane instruction that passes the checks before it and names a lane register at or
above the team's allotment traps QUOTA. -/
def Obligations.RegistersAreHardWired : Prop :=
  (∀ (sc : Scalar) (w : PWord), sc.reg 0 = ⟨0, false⟩ ∧ sc.setReg 0 w = sc) ∧
  (∀ (x : Team) (i : BitVec 4) (m : Mask), (x.setK i m).k i = m &&& x.full ∧
    (∀ j, x.lanes ≤ j → (x.k i).getLsbD j = false ∧ ((x.setK i m).k i).getLsbD j = false) ∧
    (∀ w, w < 32 → ((summary (x.k i)).getLsbD w = true ↔ ∃ j, j < 32 ∧ (x.k i).getLsbD (32 * w + j) = true)) ∧
    (∀ w, x.nw ≤ w → (summary (x.k i)).getLsbD w = false)) ∧
  (∀ (s : State) (i : Instr) (c : LaneCtx) (r : BitVec 8), s.laneCtx i = some c → laneLegal i = true → s.offered i = true →
    roleFault s c.x i = false → c.x.alloc ≤ r.toNat →
    (c.args.dk = .reg ∧ c.args.di = r ∧ (c.sig.dst = .w32 ∨ c.sig.dst = .w64 ∨ c.sig.dst = .quad)) ∨
      (c.args.a = .vreg r ∧ c.sig.a ≠ .unused) ∨ (c.args.b = .vreg r ∧ c.sig.b ≠ .unused) ∨
      (c.args.c = .vreg r ∧ c.sig.c ≠ .unused) →
    exec i s = .next (s.takeLaneTrap c.id ⟨.quota, 0, 0, c.gov⟩ (c.args.hold || c.x.chainPos != 0)))

/-! ## Masks, runs and special registers (spec/05, spec/04, spec/17) -/

/-- 05 R115, R116: what each mask instruction of a team writes; a count that is poisoned is consumed, a KMOVV word at or
above n traps ILLEGAL, and on a control core the group traps ILLEGAL. -/
def Obligations.MaskInstructionResults : Prop :=
  (∀ (s : State) (x : Team) (d a b : BitVec 4) (r : BitVec 6) (w : BitVec 5), TeamIssues s x →
    let ends := fun (i : Instr) (m : Mask) =>
      Completes i s (.team x.id) x.sc (s.mapTeam x.id (fun t => t.setK d m))
    let counts := fun (i : Instr) (v : Word) => Completes i s (.team x.id) x.sc (s.writeReg (.team x.id) r ⟨v, false⟩)
    let traps := fun (i : Instr) (c : Cause) => TrapsAt i s (.team x.id) x.sc c
    ends (.kmov d a) (x.k a) ∧
    ends (.knot d a) (x.full &&& ~~~x.kv &&& ~~~(x.k a)) ∧
    ends (.kand d a b) (x.k a &&& x.k b) ∧
    ends (.kor d a b) (x.k a ||| x.k b) ∧
    ends (.kxor d a b) (x.k a ^^^ x.k b) ∧
    ends (.kandn d a b) (x.k a &&& ~~~(x.k b)) ∧
    ends (.kall d) (x.full &&& ~~~x.kv) ∧
    ends (.kclr d) 0 ∧
    ((x.sc.reg r).poison = true → traps (.ksetn d r) .poison) ∧
    ((x.sc.reg r).poison = false → ∃ m, ends (.ksetn d r) m ∧
      ∀ j, m.getLsbD j = (x.occ.getLsbD j && decide (j < (x.sc.reg r).val.toNat))) ∧
    counts (.kpop a r) (BitVec.ofNat 32 ((List.range 1024).filter (x.k a).getLsbD).length) ∧
    (x.k a = 0 → counts (.kfirst a r) 0xFFFFFFFF) ∧
    (∀ j, (x.k a).getLsbD j = true → (∀ i, i < j → (x.k a).getLsbD i = false) → counts (.kfirst a r) (BitVec.ofNat 32 j)) ∧
    (∃ v, counts (.ksum a r) v ∧ ∀ i, i < 32 → (v.getLsbD i = true ↔ ∃ j, j < 32 ∧ (x.k a).getLsbD (32 * i + j) = true)) ∧
    (x.nw ≤ w.toNat → traps (.kmovv d w r) .illegal) ∧
    (w.toNat < x.nw → (x.sc.reg r).poison = true → traps (.kmovv d w r) .poison) ∧
    (w.toNat < x.nw → (x.sc.reg r).poison = false → ∃ m, ends (.kmovv d w r) m ∧
      ∀ j, m.getLsbD j = if j / 32 = w.toNat then (x.sc.reg r).val.getLsbD (j % 32) && !x.kv.getLsbD j && decide (j < 1024)
        else (x.k d).getLsbD j)) ∧
  (∀ (s : State) (g : Group) (d a b : BitVec 4) (r : BitVec 6) (w : BitVec 5), GroupIssues s g →
    ∀ i ∈ ([.kmov d a, .knot d a, .kand d a b, .kor d a b, .kxor d a b, .kandn d a b, .kall d, .kclr d, .ksetn d r,
      .kpop a r, .kfirst a r, .ksum a r, .kmovv d w r] : List Instr), TrapsAt i s (.ctrl g.cl) g.sc .illegal)

/-- 05 R117, R119: LRUN enqueues count instructions from its offset, or from the lane PC for the code 0x3FFFF; LSETPC sets
the lane PC alone, and its offset 0x3FFFF traps ILLEGAL. 05 R120, 04 R89: SETFMT stores a value whose fields the spec
defines, traps ILLEGAL for any other and POISON for a poisoned one; a control core waits while it has matrix
operations queued. GETFMT reads FMT. 05 R121: LGET and LPUT move one word of one lane's register with its poison; a
lane or a register beyond the team's traps QUOTA, and a poisoned index POISON. -/
def Obligations.LaneRunsAndFormats : Prop :=
  (∀ (s : State) (x : Team) (c : BitVec 8) (o : BitVec 18), TeamIssues s x →
      let goes := fun (i : Instr) (pc run : Nat) => Completes i s (.team x.id) x.sc
        (s.mapTeam x.id (fun (t : Team) => { t with lanePc := pc, runLeft := run }))
      (o.toNat ≠ 0x3FFFF → goes (.lrun c o) o.toNat (c.toNat + 1)) ∧
      (o.toNat = 0x3FFFF → goes (.lrun c o) x.lanePc (c.toNat + 1)) ∧
      (o.toNat ≠ 0x3FFFF → goes (.lsetpc o) o.toNat x.runLeft) ∧
      (o.toNat = 0x3FFFF → TrapsAt (.lsetpc o) s (.team x.id) x.sc .illegal)) ∧
  (∀ (s : State) (st : StreamId) (sc : Scalar) (a d : BitVec 6), Issuing s st sc →
      let w := (sc.reg a).val
      let legal := w.toNat < 2 ^ 16 ∧ w.toNat % 8 ≤ 4 ∧ w.toNat / 128 % 2 = 0 ∧ w.toNat / 256 % 16 ≤ 3 ∧
        (w.toNat / 4096 % 16 ≤ 5 ∨ (w.toNat / 4096 % 16 = 6 ∧ s.feature 2 = true))
      let busy := ∃ cl g, st = .ctrl cl ∧ s.group? cl = some g ∧ ∃ x ∈ g.arrays, x.queue ≠ []
      Completes (.getfmt d) s st sc (s.writeReg st d ⟨sc.fmt, false⟩) ∧
      (¬legal → TrapsAt (.setfmt a) s st sc .illegal) ∧
      (legal → (sc.reg a).poison = true → TrapsAt (.setfmt a) s st sc .poison) ∧
      (legal → (sc.reg a).poison = false → ¬busy →
        Completes (.setfmt a) s st sc (s.mapScalar st (fun c => { c with fmt := w }))) ∧
      (legal → (sc.reg a).poison = false → busy → exec (.setfmt a) s = .next (s.block st .matrixQueue))) ∧
  (∀ (s : State) (x : Team) (d a b : BitVec 6), TeamIssues s x →
      let j := (x.sc.reg a).val.toNat
      let r := (x.sc.reg b).val.toNat
      let bad := (x.sc.reg a).poison = true ∨ (x.sc.reg b).poison = true
      let traps := fun (c : Cause) => TrapsAt (.lget d a b) s (.team x.id) x.sc c ∧ TrapsAt (.lput d a b) s (.team x.id) x.sc c
      (x.lanes ≤ j ∨ x.alloc ≤ r → traps .quota) ∧
      (j < x.lanes → r < x.alloc → bad → traps .poison) ∧
      (j < x.lanes → r < x.alloc → ¬bad →
        Completes (.lget d a b) s (.team x.id) x.sc (s.writeReg (.team x.id) d (x.v r j)) ∧
        Completes (.lput d a b) s (.team x.id) x.sc (s.mapTeam x.id (fun t => t.setV r j (x.sc.reg d)))))

/-- 05 R122, 17 R372: SRR reads a register that the stream has, and RDCNT a counter, a 64-bit one into an even pair; one
that it has not, or a 64-bit one into an odd register, traps ILLEGAL. 04 R91, R92–R94, 02 R57: the trap registers, the
identity registers (ROLE, NBSHAPE and LCORE with their fields), TSTAT bit by bit, the clock and the counters with
their event selects as SRR reads them, by number. -/
def Obligations.SpecialRegisterReads : Prop :=
  (∀ (s : State) (st : StreamId) (sc : Scalar) (d : BitVec 6) (n : BitVec 12), Issuing s st sc →
      let reads := fun (i : Instr) (v : Option Special) =>
        (v = none → TrapsAt i s st sc .illegal) ∧
        (∀ w, v = some (.w32 w) → Completes i s st sc (s.writeReg st d ⟨w, false⟩)) ∧
        (∀ w, v = some (.w64 w) → d.toNat % 2 = 0 → Completes i s st sc (s.writePair st d (.ofVal w false))) ∧
        (∀ w, v = some (.w64 w) → d.toNat % 2 = 1 → TrapsAt i s st sc .illegal)
      reads (.srr d n) (s.special st sc n.toNat) ∧ reads (.rdcnt d n) (s.counter st n.toNat)) ∧
  ((∀ (s : State) (x : Team) (c : Nat), s.team? x.id = some x → s.coreOf (.team x.id) = some c →
      let reads := fun (n : Nat) (v : Special) => s.special (.team x.id) x.sc n = some v
      reads 0x000 (.w32 x.id.teamno) ∧ reads 0x001 (.w32 x.gid) ∧ reads 0x003 (.w32 (BitVec.ofNat 32 (32 * x.nw))) ∧
      reads 0x005 (.w32 (BitVec.ofNat 32 x.pos)) ∧ reads 0x007 (.w32 (BitVec.ofNat 32 (c / 36))) ∧
      reads 0x040 (.w64 x.sc.tvec) ∧ reads 0x042 (.w32 x.sc.tcause) ∧ reads 0x043 (.w32 x.sc.tdetail) ∧
      reads 0x044 (.w64 x.sc.tpc) ∧ reads 0x046 (.w32 x.tlpc) ∧ reads 0x048 (.w64 x.sc.taddr) ∧ reads 0x04A (.w32 x.tlane) ∧
      reads 0x04C (.w64 x.sc.pgpool) ∧ (∀ w, w < x.nw → w < 32 → reads (0x080 + w) (.w32 (maskWord x.tk0 w))) ∧
      (∀ i : Fin 8, reads (0x010 + i.val) (.w32 (x.lvid.get i)) ∧ reads (0x018 + i.val) (.w32 (x.lvext.get i))) ∧
      reads 0x100 (.w64 (BitVec.ofNat 64 s.clock)) ∧ reads 0x102 (.w64 (s.core c).iret) ∧
      (∀ i : Fin 16, reads (0x110 + i.val) (.w64 ((s.core c).pmc.get i)) ∧ reads (0x120 + i.val) (.w32 ((s.core c).psel.get i))) ∧
      (x.role = .vector → reads 0x002 (.w32 0)) ∧ (x.role = .feed → reads 0x002 (.w32 1)) ∧ (x.role = .drain → reads 0x002 (.w32 2)) ∧
      reads 0x004 (.w32 (BitVec.ofNat 32 (4 * x.nbRows + x.nbCols))) ∧
      (∀ k, (s.coreMap (c / 36)).ltab[k]? = some (c % 36) → (∀ j, j < k → (s.coreMap (c / 36)).ltab[j]? ≠ some (c % 36)) →
        reads 0x006 (.w32 (BitVec.ofNat 32 (64 * (c / 36) + k)))) ∧
      (∃ w, reads 0x047 (.w32 w) ∧ w.getLsbD 0 = x.sc.sup ∧ w.getLsbD 1 = (x.sc.sup && (x.eventVersion.isSome || x.eventDirty)) ∧
        w.getLsbD 2 = x.sc.laneBit ∧ w.toNat < 8)) ∧
    (∀ (s : State) (g : Group), s.group? g.cl = some g →
      let reads := fun (n : Nat) (v : Special) => s.special (.ctrl g.cl) g.sc n = some v
      reads 0x006 (.w32 (BitVec.ofNat 32 (64 * (g.cl / 9) + 48 + g.cl % 9))) ∧ reads 0x007 (.w32 (BitVec.ofNat 32 (g.cl / 9))) ∧
      reads 0x040 (.w64 g.sc.tvec) ∧ reads 0x042 (.w32 g.sc.tcause) ∧ reads 0x043 (.w32 g.sc.tdetail) ∧ reads 0x044 (.w64 g.sc.tpc) ∧
      reads 0x048 (.w64 g.sc.taddr) ∧ reads 0x04C (.w64 g.sc.pgpool) ∧ reads 0x100 (.w64 (BitVec.ofNat 64 s.clock)) ∧
      reads 0x102 (.w64 (smGet 0 s.ctrlIret g.cl)) ∧
      (∃ w, reads 0x047 (.w32 w) ∧ w.getLsbD 0 = g.sc.sup ∧ w.getLsbD 2 = g.sc.laneBit ∧ w.toNat < 8) ∧
      s.special (.ctrl g.cl) g.sc 0x000 = none ∧ s.special (.ctrl g.cl) g.sc 0x046 = none))

/-- 05 R123, 04 R91: SRW in supervisor mode stores into a writable register as R123 says, a write to TSTAT leaving SUP as
it is; a poisoned source traps POISON, a team's RUNLEFT above 256 and a register that is not writable ILLEGAL, and SRW
in user mode always traps ILLEGAL. 05 R124 says that RUNLEFT does not exist on a control core: that its bits of TDETAIL
then take no value, so that none traps for it, and read as zero, is the model's reading (notes/assumptions/119). 05
R123, 04 R92–R94: what a write to a special register stores: the low bits of TVEC
and TPC as zero, TSTAT's LANE bit alone, TK0 words without vacant lanes. 17 R374: CSEL writes the event select of a
programmable counter and CZERO zeroes it, after the instruction's own retirement is counted; a poisoned select traps
POISON, and in user mode, on a number that is no programmable counter and on a control core they trap ILLEGAL. -/
def Obligations.SpecialRegisterWrites : Prop :=
  (∀ (s : State) (st : StreamId) (sc : Scalar) (a : BitVec 6) (n : BitVec 12), Issuing s st sc →
      let p : PPair := ⟨sc.reg a, sc.reg (a + 1)⟩
      let wide := n.toNat = 0x040 ∨ n.toNat = 0x044 ∨ n.toNat = 0x048 ∨ n.toNat = 0x04C
      let narrow := n.toNat = 0x042 ∨ n.toNat = 0x043 ∨ n.toNat = 0x047 ∨
        (isTeam st = true ∧ (n.toNat = 0x046 ∨ (0x080 ≤ n.toNat ∧ n.toNat ≤ 0x09F)))
      let overs := isTeam st = true ∧ n.toNat = 0x043 ∧ 256 < (sc.reg a).val.toNat / 2 ^ 23
      (sc.sup = false → TrapsAt (.srw a n) s st sc .illegal) ∧
      (¬wide → ¬narrow → TrapsAt (.srw a n) s st sc .illegal) ∧
      (wide → a.toNat % 2 = 1 → TrapsAt (.srw a n) s st sc .illegal) ∧
      (overs → TrapsAt (.srw a n) s st sc .illegal) ∧
      (sc.sup = true → wide → a.toNat % 2 = 0 → a ≠ 0 → p.poison = true → TrapsAt (.srw a n) s st sc .poison) ∧
      (sc.sup = true → wide → a.toNat % 2 = 0 → a ≠ 0 → p.poison = false →
        Completes (.srw a n) s st sc (s.writeSpecial st n.toNat p.val)) ∧
      (sc.sup = true → wide → a = 0 → Completes (.srw a n) s st sc (s.writeSpecial st n.toNat 0)) ∧
      (sc.sup = true → narrow → ¬overs → (sc.reg a).poison = true → TrapsAt (.srw a n) s st sc .poison) ∧
      (sc.sup = true → narrow → ¬overs → (sc.reg a).poison = false →
        Completes (.srw a n) s st sc (s.writeSpecial st n.toNat ((sc.reg a).val.setWidth 64)))) ∧
  (∀ (s : State) (x : Team) (v : DWord), s.team? x.id = some x →
      let after := fun (n : Nat) (f : Team → Prop) => ∃ y, (s.writeSpecial (.team x.id) n v).team? x.id = some y ∧ f y
      after 0x040 (fun y => y.sc.tvec = v &&& ~~~3) ∧
      after 0x044 (fun y => y.sc.tpc = v &&& ~~~3) ∧
      after 0x048 (fun y => y.sc.taddr = v) ∧
      after 0x04C (fun y => y.sc.pgpool = v) ∧
      after 0x047 (fun y => y.sc.sup = x.sc.sup ∧ y.sc.evpend = x.sc.evpend ∧ y.sc.laneBit = v.getLsbD 2) ∧
      after 0x043 (fun y => y.sc.runLeftField = v.toNat / 2 ^ 23 % 2 ^ 9) ∧
      after 0x046 (fun y => y.tlpc = v.setWidth 32) ∧
      (∀ w, w < x.nw → w < 32 → after (0x080 + w) (fun y =>
        maskWord y.tk0 w = v.setWidth 32 &&& ~~~(maskWord x.kv w) ∧
        ∀ u, u ≠ w → u < 32 → maskWord y.tk0 u = maskWord x.tk0 u))) ∧
  (∀ (s : State) (g : Group) (v : DWord), s.group? g.cl = some g →
      let after := fun (n : Nat) (f : Group → Prop) => ∃ h, (s.writeSpecial (.ctrl g.cl) n v).group? g.cl = some h ∧ f h
      after 0x040 (fun h => h.sc.tvec = v &&& ~~~3) ∧
      after 0x043 (fun h => h.sc.runLeftField = 0 ∧ ∀ i, i < 23 → (i < 5 ∨ 8 ≤ i) → h.sc.tdetail.getLsbD i = v.getLsbD i) ∧
      after 0x044 (fun h => h.sc.tpc = v &&& ~~~3) ∧
      after 0x048 (fun h => h.sc.taddr = v) ∧
      after 0x04C (fun h => h.sc.pgpool = v) ∧
      after 0x047 (fun h => h.sc.sup = g.sc.sup ∧ h.sc.laneBit = v.getLsbD 2)) ∧
  ((∀ (s : State) (x : Team) (p : Placement) (a : BitVec 6) (n : BitVec 12) (k : Fin 16), TeamIssues s x → x.place = some p →
      n.toNat = 0x110 + k.val → x.sc.sup = true →
      let r := s.retire (.team x.id) x.sc.pc (x.sc.pc + 4) true false
      let w := (x.sc.reg a).val
      exec (.czero n) s = .next (r.mapCore p.core (fun c => { c with pmc := c.pmc.set k 0 })) ∧
      (w.toNat % 256 ≤ 13 → w.toNat / 256 % 2 ^ 12 = 0 → w.toNat / 2 ^ 25 = 0 → (x.sc.reg a).poison = false →
        exec (.csel a n) s = .next (r.mapCore p.core (fun c => { c with psel := c.psel.set k w }))) ∧
      (w.toNat % 256 ≤ 13 → w.toNat / 256 % 2 ^ 12 = 0 → w.toNat / 2 ^ 25 = 0 → (x.sc.reg a).poison = true →
        TrapsAt (.csel a n) s (.team x.id) x.sc .poison) ∧
      (13 < w.toNat % 256 ∨ w.toNat / 256 % 2 ^ 12 ≠ 0 ∨ w.toNat / 2 ^ 25 ≠ 0 →
        TrapsAt (.csel a n) s (.team x.id) x.sc .illegal)) ∧
    (∀ (s : State) (st : StreamId) (sc : Scalar) (a : BitVec 6) (n : BitVec 12), Issuing s st sc →
      (sc.sup = false ∨ isTeam st = false ∨ n.toNat < 0x110 ∨ 0x11F < n.toNat) →
      TrapsAt (.csel a n) s st sc .illegal ∧ TrapsAt (.czero n) s st sc .illegal))

/-! ## Memory from the scalar stream (spec/10, spec/15) -/

/-- 10 R230, R239, R240: a scalar load whose access passes its checks and performs reads its bytes little-endian at the
address of R228, extends narrow signed data, writes the register or the even pair, and completes. 10 R239, R240: a
scalar store whose access passes its checks and performs writes the low bytes of its register or even pair as one
write event at the address of R228 and completes; with the checks passed, a poisoned datum or address word traps
POISON. 10 R241, R242: CLD reads one word of a constant window below its length, at the window's base plus four times
the offset; it traps BOUNDS for an offset at or beyond the length, PAGE for an address without a translation and PERM
for one that may not be read. 09 R211, R216, 10 R233, R234, 11 R253: an outstanding access whose next events wait for
nothing performs as many of them as the turn allows, in order, and stays outstanding with the rest; one that finds a
reclassification, a version or host memory to wait for stays as it is, waiting. How many events a turn lets an access
perform is an input (notes/assumptions/4). -/
def Obligations.ScalarLoadsAndStores : Prop :=
  (∀ (s u : State) (st : StreamId) (sc : Scalar) (d a b : BitVec 6) (l w : BitVec 3) (lv : Level) (wd : LdW) (ag : Agent) (p : Spot),
      Issuing s st sc → scalarLevel l = some lv → sldWidth w = some wd → (wd = .b64 → d.toNat % 2 = 0) →
      (sc.address a b lv).2 = false →
      Reaches s st sc .read lv (sc.address a b lv).1 (ldBytes wd) (.read (ldBytes wd)) (.sreg d (wd == .b64) wd) ag p u →
      let byte := fun (i : Nat) => ((u.locBytes (p.loc.add i) 1).getD 0 0).toNat
      let bad := fun (o n : Nat) => u.badAt ag p o n
      let t := (u.releaseHost [p]).accOver st
      let gives := fun (n : Nat) (v : Int) => Completed (.sld d a b l w) s st sc (t.writeReg st d ⟨BitVec.ofInt 32 v, bad 0 n⟩)
      let signed := fun (n v : Nat) => if v < 2 ^ (8 * n - 1) then (v : Int) else (v : Int) - 2 ^ (8 * n)
      (wd = .n8 → gives 1 (byte 0)) ∧
      (wd = .i8 → gives 1 (signed 1 (byte 0))) ∧
      (wd = .n16 → gives 2 (byte 0 + 256 * byte 1 : Nat)) ∧
      (wd = .i16 → gives 2 (signed 2 (byte 0 + 256 * byte 1))) ∧
      (wd = .b32 → gives 4 (byte 0 + 256 * byte 1 + 65536 * byte 2 + 16777216 * byte 3 : Nat)) ∧
      (wd = .b64 → Completed (.sld d a b l w) s st sc (t.writePair st d
        ⟨⟨BitVec.ofNat 32 (byte 0 + 256 * byte 1 + 65536 * byte 2 + 16777216 * byte 3), bad 0 4⟩,
          ⟨BitVec.ofNat 32 (byte 4 + 256 * byte 5 + 65536 * byte 6 + 16777216 * byte 7), bad 4 4⟩⟩))) ∧
  (∀ (s : State) (st : StreamId) (sc : Scalar) (d a b : BitVec 6) (l w : BitVec 3) (lv : Level) (wd : StW) (ag : Agent) (p : Spot),
      Issuing s st sc → scalarLevel l = some lv → sstWidth w = some wd → (wd = .b64 → d.toNat % 2 = 0) →
      let datum := if wd = .b64 then sc.pair d else .ofWord (sc.reg d)
      let bytes := (List.range (stBytes wd)).map (fun i => BitVec.ofNat 8 (datum.val.toNat / 256 ^ i))
      let off := (sc.address a b lv).1
      (∀ u, Reaches s st sc .write lv off (stBytes wd) (.write bytes) .none ag p u → (sc.address a b lv).2 = false → datum.poison = false →
        Completed (.sst d a b l w) s st sc (((u.writeEvent ag p bytes false).releaseHost [p]).accOver st)) ∧
      (∀ v, PassesChecks s st .write lv off (stBytes wd) ag p v → (sc.address a b lv).2 = true ∨ datum.poison = true →
        exec (.sst d a b l w) s = .next (v.scalarTrap st ⟨.poison, 1, off, 0⟩ sc.pc))) ∧
  (∀ (s : State) (st : StreamId) (sc : Scalar) (d : BitVec 6) (w : BitVec 3) (o : BitVec 17) (ag : Agent) (l : Launch),
      Issuing s st sc → s.agentOf st = some ag → s.launchOf st = some l →
      let win := l.windows.get ⟨w.toNat, w.isLt⟩
      let va := win.base + BitVec.ofNat 64 (4 * o.toNat)
      (win.len ≤ o.toNat → exec (.cld d w o) s = .next (s.scalarTrap st ⟨.boundsWindow, 0, va, 0⟩ sc.pc)) ∧
      (∀ v sub, o.toNat < win.len → s.translate ag va = (v, .page sub) →
        exec (.cld d w o) s = .next (v.scalarTrap st ⟨.page sub, 0, va, 0⟩ sc.pc)) ∧
      (∀ v e pa, o.toNat < win.len → s.translate ag va = (v, .ok e pa) →
        (e.permits .read ag.sup = false → exec (.cld d w o) s = .next (v.scalarTrap st ⟨.perm, 0, va, 0⟩ sc.pc)) ∧
        (∀ u, e.permits .read ag.sup = true →
          let p : Spot := ⟨0, some va, some e, .mem pa, .const⟩
          Performs ((v.mapScalar st (·.goto (sc.pc + 4))).countFor st 0x03 1) st (sc.access .read ⟨p, .read 4⟩ (.sreg d false .b32)) ag u →
          Completed (.cld d w o) s st sc (((u.releaseHost [p]).accOver st).writeReg st d
            ⟨BitVec.ofNat 32 (natOfBytes (u.locBytes (.mem pa) 4)), u.badAt ag p 0 4⟩)))) ∧
  (∀ (s : State) (st : StreamId) (sc : Scalar) (ag : Agent) (k : Option Nat) (a : Access), s.scalar? st = some sc →
      sc.accAt k = some a → s.agentOf st = some ag →
      (a.wait.isSome = true ∨ sc.behind k a = true → s.performSlot st k = s) ∧
      (a.wait = none → sc.behind k a = false → a.classed = true → a.begun = true →
        (∀ v o n, State.readyAll ag true a.events s false = .go v o → v.limit = some n → n < a.events.length →
          let r := State.performAll ag (a.events.take n) v
          let t := s.performSlot st k
          (r.1.scalar? st = some sc → ∃ z b, t.scalar? st = some z ∧ z.accAt k = some b ∧ b.events = a.events.drop n ∧
            b.got = a.got ++ r.2 ∧ b.dest = a.dest ∧ b.wait = none) ∧ t.mem = r.1.mem ∧ t.limit = some 0) ∧
        (∀ v w, State.readyAll ag true a.events s false = .block v w → v.scalar? st = some sc →
          ∃ z, (s.performSlot st k).scalar? st = some z ∧ z.accAt k = some { a with wait := some w, ordered := true } ∧ z.pc = sc.pc ∧
            (s.performSlot st k).mem = v.mem)) ∧
      (a.wait = none → sc.behind k a = false → a.classed = false →
        ∀ v w, State.classAll ag a.events s a.ordered = .block v w → v.scalar? st = some sc →
          ∃ z, (s.performSlot st k).scalar? st = some z ∧ z.accAt k = some { a with wait := some w, ordered := true } ∧ z.pc = sc.pc))

/-- 10 R236, R239: a scalar atomic of 32 or 64 bits whose access passes its checks and performs reads the old value into
its register or pair and writes the value that its operation makes, a CAS only when the compare value matches, all as
one event; of a location that is poisoned, or that the host answers with an error, it reads the poisoned value and
writes nothing. -/
def Obligations.ScalarAtomicReadsAndWrites : Prop :=
  ∀ (s u : State) (st : StreamId) (sc : Scalar) (d a b : BitVec 6) (l : BitVec 2) (o : BitVec 4) (w : BitVec 1) (op : AtomOp)
    (ag : Agent) (p : Spot), Issuing s st sc → atomOp o = some op →
    (w = 1 → d.toNat % 2 = 0 ∧ b.toNat % 2 = 0) →
    let n := if w = 1 then 64 else 32
    let adr : PPair := if atomLevel l = .g then sc.base64 a else .ofWord (sc.reg a)
    let operand := fun (r : BitVec 6) => if w = 1 then sc.pair r else .ofWord (sc.reg r)
    adr.poison = false → (operand b).poison = false → (op = .cas → (operand d).poison = false) →
    Reaches s st sc .atomic (atomLevel l) adr.val (n / 8)
      (.atomic op (if w = 1 then .w64 else .w32) (operand b).val (operand d).val) (.sreg d (w == 1) (if w = 1 then .b64 else .b32)) ag p u →
    let bad := fun (i : Nat) => u.hostErr p.loc || u.locPoison (p.loc.add (4 * i)) 4
    let word := fun (i : Nat) => natOfBytes (u.locBytes (p.loc.add (4 * i)) 4)
    let old := if w = 1 then word 0 + 2 ^ 32 * word 1 else word 0
    let x := (operand b).val.toNat
    let signed := fun (v : Nat) => if v < 2 ^ (n - 1) then (v : Int) else (v : Int) - 2 ^ n
    let new : Nat := match op with
      | .add => (old + x) % 2 ^ n
      | .and => old &&& x
      | .or => old ||| x
      | .xor => old ^^^ x
      | .min => if signed old < signed x then old else x
      | .max => if signed old < signed x then x else old
      | .minn => min old x
      | .maxn => max old x
      | .swap => x
      | .cas => x
    let ends := fun (v : State) =>
      let t := (v.releaseHost [p]).accOver st
      Completed (.satom d a b l o w) s st sc
        (if w = 1 then t.writePair st d ⟨⟨BitVec.ofNat 32 (word 0), bad 0⟩, ⟨BitVec.ofNat 32 (word 1), bad 1⟩⟩
          else t.writeReg st d ⟨BitVec.ofNat 32 (word 0), bad 0⟩)
    let clean := ∀ i, i < n / 32 → bad i = false
    (clean → (op = .cas → old = (operand d).val.toNat) → ends (u.writeEvent ag p (natBytes (n / 8) new) false)) ∧
    (clean → op = .cas → old ≠ (operand d).val.toNat → ends u) ∧
    (¬clean → ends u)

/-- 10 R244: DECLASS in supervisor mode returns a SHARED or UNCL granule of device memory to UNCL at once, leaves host
memory alone, and waits for the holders' drains of a PRIV or RO one, to complete when the home records UNCL. 15 R341: TLBINV and ATINV in supervisor mode
remove from every TLB the translations of one page, or of the whole address space, of the team, and complete when no
access that was checked against one of them is left; until then they wait. In user mode they trap ILLEGAL. -/
def Obligations.GranulesAndTranslationsReturn : Prop :=
  (∀ (s v : State) (x : Team) (a : BitVec 6) (ag : Agent) (e : TlbEntry) (pa : Nat), TeamIssues s x → x.sc.sup = true →
      a.toNat % 2 = 0 → s.agentOf (.team x.id) = some ag → s.translate ag (x.sc.pair a).val = (v, .ok e pa) →
      (x.sc.pair a).poison = false →
      let g := pa / 65536
      let ends := fun (t : State) => Completes (.declass a) s (.team x.id) x.sc t
      (isHost pa = true → ends v) ∧
      (isHost pa = false → (∀ r ∈ v.reclass, r.gran ≠ g) →
        (v.classOf g = .uncl → ends v) ∧
        (v.classOf g = .shared → ends ((v.setClass g .uncl).dropCopies g)) ∧
        (∀ c w, v.classOf g = .priv c w ∨ v.classOf g = .ro → ∃ t y, exec (.declass a) s = .next t ∧ t.team? x.id = some y ∧
          y.sc.wait = some (.declass g) ∧ y.sc.pc = x.sc.pc ∧
          t.reclass = v.reclass ++ [⟨g, .uncl, if v.classOf g = .ro then v.nodesHolding g else [c]⟩]))) ∧
  (∀ (s : State) (x : Team) (g : Nat) (r : Reclass), s.team? x.id = some x → s.reclass.find? (fun r => r.gran = g) = some r →
      r.target = .uncl → r.undrained = [] → s.teams.filter (fun z => z.sc.wait = some (.declass g)) = [x] → s.quiet (.team x.id) →
      ∃ t y, exec (.reclassDrainAck g) s = .next t ∧ t.team? x.id = some y ∧ y.sc.wait = none ∧ y.sc.pc = (x.sc.pc + 4) &&& ~~~3) ∧
  (∀ (s : State) (x : Team) (a : BitVec 6), TeamIssues s x →
      let st := StreamId.team x.id
      (x.sc.sup = false → TrapsAt (.tlbinv a) s st x.sc .illegal ∧ TrapsAt .atinv s st x.sc .illegal) ∧
      (x.sc.sup = true →
        let removes := fun (i : Instr) (va : Option Nat) => (x.sc.wait ≠ some (.inval va) →
          ∃ t, (∀ e ∈ t.tlb, ∃ f ∈ s.tlb, f.named x.id.asid va = false ∧ e.asid = f.asid ∧ e.page = f.page ∧ e.level = f.level) ∧
            (∀ e ∈ s.tlb, e.named x.id.asid va = false → ∃ f ∈ t.tlb, f.asid = e.asid ∧ f.page = e.page ∧ f.level = e.level ∧
              f.frame = e.frame) ∧
            (t.staleLeft x.id.asid va = false → Completes i s st x.sc t) ∧
            (t.staleLeft x.id.asid va = true → exec i s = .next (t.block st (.inval va))) ∧
            ((∀ z ∈ s.teams, ∀ c ∈ z.sc.accs, c.under x.id.asid va = false) →
              (∀ z ∈ s.groups, ∀ c ∈ z.sc.accs, c.under x.id.asid va = false) →
              (∀ o ∈ s.ops, o.under x.id.asid va = false) → t.staleLeft x.id.asid va = false)) ∧
          (x.sc.wait = some (.inval va) → s.staleLeft x.id.asid va = false → Completes i s st x.sc s)
        removes .atinv none ∧
        (a.toNat % 2 = 0 → (x.sc.pair a).poison = false → removes (.tlbinv a) (some ((x.sc.pair a).val.toNat % 2 ^ 57))) ∧
        (a.toNat % 2 = 0 → (x.sc.pair a).poison = true → TrapsAt (.tlbinv a) s st x.sc .poison)))

/-! ## Bins, engines, barriers and matrix queues (spec/13, spec/17, spec/08) -/

/-- 13 R287: EXIT completes in one step that clears each lane set in its mask from every mask register, sets it in the
vacant mask, and changes nothing else that the team holds: no lane register, no latch and no scalar register; it
writes no byte of memory or scratchpad, an empty mask has no effect, and the team stays. -/
def Obligations.ExitVacatesLanes : Prop :=
  ∀ (s : State) (x : Team) (a : BitVec 4), TeamIssues s x → smWf CoreState.reset s.cores = true →
    ∃ t y, Completes (.exit a) s (.team x.id) x.sc t ∧ t.team? x.id = some y ∧ y.kv = x.kv ||| x.k a ∧
      (∀ j, y.k j = x.k j &&& ~~~(x.k a)) ∧
      (∀ j w, w < 32 → ((summary (y.k j)).getLsbD w = true ↔
        ∃ i, i < 32 ∧ (x.k j).getLsbD (32 * w + i) = true ∧ (x.k a).getLsbD (32 * w + i) = false)) ∧
      y = { x with masks := y.masks, kv := y.kv } ∧ (x.k a = 0 → y = x) ∧ t.mem = s.mem ∧ t.poison = s.poison ∧
      (∀ c, (t.core c).scratch = (s.core c).scratch) ∧ t.teams.length = s.teams.length

/-- 13 R285: SPAWN appends its four registers as a record to the tail of the team's shard of an open bin; an absent bin
traps BOUNDS, a closed one PERM, a poisoned source POISON; BINCLOSE sets the closed flag. 13 R288, R289: REFILL and
REFILL.W with no vacant lane, and REFILL with an empty shard of an open bin, write 0; REFILL.W waits there; with
records at the head and no tag on them, both take as many as there are vacant lanes, in ascending lanes, write the
count, and give each lane its record in v0 to v3 and zero in its other registers; a team with no lane left in a
drained and closed bin retires. -/
def Obligations.RecordsAppendAndRefill : Prop :=
  (∀ (s : State) (x : Team) (d a : BitVec 6) (l : Launch), TeamIssues s x → s.launch? x.launch = some l → d.toNat % 4 = 0 →
      let ix := (x.sc.reg a).val.toNat
      let w := fun (i : Nat) => x.sc.reg (d + BitVec.ofNat 6 i)
      let clean := (x.sc.reg a).poison = false ∧ ∀ i, i < 4 → (w i).poison = false
      let traps := fun (i : Instr) (c : Cause) (adr : DWord) =>
        exec i s = .next (s.scalarTrap (.team x.id) ⟨c, 1, adr, 0⟩ x.sc.pc)
      (l.bins.length ≤ ix → traps (.spawn d a) .boundsAperture (BitVec.ofNat 64 ix) ∧
        traps (.binclose a) .boundsAperture (BitVec.ofNat 64 ix)) ∧
      (∀ b, l.bins[ix]? = some b → b.closed = true → b.closeTag = none →
        traps (.spawn d a) .perm (BitVec.ofNat 64 ix)) ∧
      (∀ b, l.bins[ix]? = some b → b.closed = false → ¬clean → traps (.spawn d a) .poison 0) ∧
      (∀ b, l.bins[ix]? = some b → b.closed = false → clean → s.storeFull x.die = true →
        exec (.spawn d a) s = .next (s.block (.team x.id) .spawn)) ∧
      (∀ b h, l.bins[ix]? = some b → b.closed = false → clean → s.storeFull x.die = false → s.shard? x.launch ix x.die = some h →
        ∃ t h', Completes (.spawn d a) s (.team x.id) x.sc t ∧ t.shard? x.launch ix x.die = some h' ∧
          h'.recs = h.recs ++ [⟨(w 0).val, (w 1).val, (w 2).val, (w 3).val, if s.versions x.gang then some x.gang else none⟩]) ∧
      (∀ b, l.bins[ix]? = some b → b.closed = false → (x.sc.reg a).poison = false →
        ∃ t k c, Completes (.binclose a) s (.team x.id) x.sc t ∧ t.launch? x.launch = some k ∧ k.bins[ix]? = some c ∧
          c.closed = true ∧ ∀ j, j ≠ ix → k.bins[j]? = l.bins[j]?)) ∧
  (∀ (s : State) (x : Team) (d : BitVec 4) (r : BitVec 6) (l : Launch) (e : Entry) (b : Bin) (h : Shard), TeamIssues s x →
      smWf PWord.zero x.vregs = true →
      s.launch? x.launch = some l → s.entryOf x = some e → l.bins[e.bin]? = some b → s.shard? x.launch e.bin x.die = some h →
      let vacant := (List.range x.lanes).filter x.kv.getLsbD
      let writes := fun (i : Instr) (n : Nat) (t : State) => Completes i s (.team x.id) x.sc t ∧
        ∃ y, t.team? x.id = some y ∧ (r ≠ 0 → y.sc.reg r = ⟨BitVec.ofNat 32 n, false⟩)
      let none' := x.kv &&& x.full = 0
      (none' → (∃ t, writes (.refill d r) 0 t) ∧ ∃ t, writes (.refillW d r) 0 t) ∧
      (¬none' → h.recs = [] → b.closed = false → (∃ t, writes (.refill d r) 0 t) ∧
        exec (.refillW d r) s = .next (s.block (.team x.id) .refillW)) ∧
      (¬none' → h.recs ≠ [] → (∀ q ∈ h.recs, q.tag = none) → ∀ i ∈ ([.refill d r, .refillW d r] : List Instr),
        let n := min vacant.length h.recs.length
        ∃ t y g, writes i n t ∧ t.team? x.id = some y ∧ t.shard? x.launch e.bin x.die = some g ∧ g.recs = h.recs.drop n ∧
          (∀ m j q, m < n → vacant[m]? = some j → h.recs[m]? = some q → y.kv.getLsbD j = false ∧ (y.k 0).getLsbD j = true ∧
            (y.k d).getLsbD j = true ∧ y.v 0 j = ⟨q.w0, false⟩ ∧ y.v 1 j = ⟨q.w1, false⟩ ∧ y.v 2 j = ⟨q.w2, false⟩ ∧
            y.v 3 j = ⟨q.w3, false⟩ ∧ ∀ i, 4 ≤ i → i < 256 → y.v i j = PWord.zero)) ∧
      (¬none' → h.recs = [] → b.closed = true → b.closeTag = none → x.kv &&& x.full = x.full →
        ∀ i ∈ ([.refill d r, .refillW d r] : List Instr), exec i s = .next (s.retireAtRefill x)))

/-- 13 R291, R292: an engine command with an idle handle forks an operation: its handle becomes RUNNING with the next
sequence number, and the operation starts with the descriptor address, the team's rights and its place. The order of
an issue's checks is the model's (notes/assumptions/40), and the storage named before the descriptor is read is the
issuer's (notes/assumptions/41). 13 R303: HWAIT of an idle handle goes on, of a running one waits, and of an ended one
frees the handle; HTEST returns the state and class; HCANCEL marks a running operation; on a control core every handle
is idle. -/
def Obligations.EngineCommandsAndHandles : Prop :=
  (∀ (s : State) (x : Team) (h : BitVec 4) (a : BitVec 6) (c : BitVec 1) (n : BitVec 3) (l : Launch) (p : Placement), TeamIssues s x →
      s.launch? x.launch = some l → x.place = some p → a.toNat % 2 = 0 → (x.sc.pair a).poison = false → (x.sc.handle h).st = .idle →
      (∀ o ∈ s.ops, o.id ≠ ⟨x.id, x.seq + 1⟩) →
      let forks := fun (i : Instr) (cls : EngClass) (count : Option (BitVec 3)) =>
        ∃ t y o, Completes i s (.team x.id) x.sc t ∧ t.team? x.id = some y ∧ y.seq = x.seq + 1 ∧
          y.sc.handle h = ⟨.running, cls, x.seq + 1⟩ ∧ t.op? ⟨x.id, x.seq + 1⟩ = some o ∧ o.cls = cls ∧ o.st = .running ∧
          o.desc = (x.sc.pair a).val ∧ o.launch = x.launch ∧ o.gid = x.gid ∧ o.die = p.core / 36 ∧ o.sup = x.sc.sup ∧
          o.pgpool = x.sc.pgpool ∧ o.count = count ∧ o.prog = 0
      ((x.sc.pair a).val.toNat % 128 = 0 →
        (c = 0 → n = 0 → forks (.xcopy h a c n) .xcopy none ∧ forks (.xfill h a c n) .xfill none) ∧
        (c = 1 → l.barUsed.getLsbD n.toNat = true → forks (.xcopy h a c n) .xcopy (some n) ∧ forks (.xfill h a c n) .xfill (some n))) ∧
      ((x.sc.pair a).val.toNat % 64 = 0 → x.role = .feed →
        (s.feature 4 = true → forks (.swbuild h a) .swbuild none) ∧
        (s.feature 3 = true → (s.arrayOf x).isSome = true → forks (.xgath h a) .xgath none)) ∧
      (x.role ≠ .feed → s.feature 4 = true → TrapsAt (.swbuild h a) s (.team x.id) x.sc .role)) ∧
  ((∀ (s : State) (x : Team) (h : BitVec 4) (r : BitVec 6), TeamIssues s x →
      let hd := x.sc.handle h
      let ends := fun (i : Instr) (t : State) => Completes i s (.team x.id) x.sc t
      let returns := fun (v : Nat) => ∃ t y, ends (.htest h r) t ∧ t.team? x.id = some y ∧ y.sc.handle h = hd ∧
        (r ≠ 0 → y.sc.reg r = ⟨BitVec.ofNat 32 v, false⟩)
      (hd.st = .idle → ends (.hwait h) s ∧ ends (.hcancel h) s ∧ returns 0) ∧
      (hd.st = .running → exec (.hwait h) s = .next (s.block (.team x.id) (.hwait h)) ∧ returns (1 + 8 * hd.cls.code) ∧
        (∃ t, ends (.hcancel h) t ∧ ∀ o, s.op? (x.opId h) = some o → t.op? (x.opId h) = some { o with cancel := true })) ∧
      (hd.st = .complete ∨ hd.st = .cancelled → ends (.hcancel h) s ∧ returns ((if hd.st = .complete then 2 else 4) + 8 * hd.cls.code) ∧
        ∃ t y, ends (.hwait h) t ∧ t.team? x.id = some y ∧ (y.sc.handle h).st = .idle ∧ t.op? (x.opId h) = none) ∧
      (hd.st = .stopped → ∀ o, s.op? (x.opId h) = some o → o.cause ≠ 5 → returns (3 + 8 * hd.cls.code) ∧
        (∃ t y, ends (.hcancel h) t ∧ t.team? x.id = some y ∧ (y.sc.handle h).st = .idle) ∧
        exec (.hwait h) s = .next (s.scalarTrap (.team x.id) ⟨.engine o.cls.code, o.kind.toNat, o.addr, 0⟩ x.sc.pc))) ∧
    (∀ (s : State) (g : Group) (h : BitVec 4) (r : BitVec 6), GroupIssues s g →
      Completes (.hwait h) s (.ctrl g.cl) g.sc s ∧ Completes (.hcancel h) s (.ctrl g.cl) g.sc s ∧
        Completes (.htest h r) s (.ctrl g.cl) g.sc (s.writeReg (.ctrl g.cl) r ⟨0, false⟩)))

/-- 17 R365, R369: BAR.ARR marks the participant's first arrival of a phase; the last arrival with no byte pending
completes the phase; BAR.EXP adds to the pending bytes; BAR.WAIT waits while the participant's phase is not complete
and otherwise returns its status; a name that the launch does not use traps ILLEGAL. 17 R365, R367: a byte count that
has arrived leaves its barrier's pending bytes, and the phase completes with the last of them; once the tree's latency
has passed, a team that waits on the completed phase goes on with the phase's status. -/
def Obligations.BarriersArriveAndRelease : Prop :=
  (∀ (s : State) (x : Team) (l : Launch) (n : BitVec 3) (a d : BitVec 6), TeamIssues s x → s.launch? x.launch = some l →
      let ends := fun (i : Instr) (t : State) => Completes i s (.team x.id) x.sc t
      (l.barUsed.getLsbD n.toNat = false → TrapsAt (.barArr n) s (.team x.id) x.sc .illegal ∧
        TrapsAt (.barWait d n) s (.team x.id) x.sc .illegal ∧ TrapsAt (.barExp a n) s (.team x.id) x.sc .illegal) ∧
      (∀ b p, l.barUsed.getLsbD n.toNat = true → s.barrier? x n = some b → b.part? x.id = some p →
        (p.arrived = false → ∃ t c, ends (.barArr n) t ∧ t.barrier? x n = some c ∧
          ((∃ q ∈ b.parts, q.team ≠ x.id ∧ q.arrived = false) ∨ b.pb ≠ 0 → c.phase = b.phase ∧
            ∃ q, c.part? x.id = some q ∧ q.arrived = true ∧ q.pend = true ∧ q.arrph = b.phase) ∧
          (b.parts.filter (fun q => q.team = x.id) = [p] → (∀ q ∈ b.parts, q.team ≠ x.id → q.arrived = true) → b.pb = 0 →
            c.phase = b.phase + 1 ∧ c.releaseAt = some (s.clock + if b.nbhd then 16 else 4) ∧
            ∀ q ∈ c.parts, q.arrived = false)) ∧
        (p.arrived = true → ∃ t c, ends (.barArr n) t ∧ t.barrier? x n = some c ∧ (b.done = false → c.phase = b.phase ∧ c.pb = b.pb ∧
          c.lstat = b.lstat ∧ c.part? x.id = some { p with base := x.instrs + 1 } ∧ ∀ q ∈ b.parts, q.team ≠ x.id → q ∈ c.parts)) ∧
        (a.toNat % 2 = 0 → (∃ q ∈ b.parts, q.arrived = false) → ∃ t c, ends (.barExp a n) t ∧
          t.barrier? x n = some c ∧ c.pb = b.pb + (x.sc.pair a).val ∧ c.phase = b.phase) ∧
        (p.pend = false → ends (.barWait d n) (s.writeReg (.team x.id) d ⟨0, false⟩)) ∧
        (p.pend = true → p.arrph = b.phase → exec (.barWait d n) s = .next (s.block (.team x.id) (.barWait n))) ∧
        (p.pend = true → p.arrph ≠ b.phase → ∃ t y, ends (.barWait d n) t ∧ t.team? x.id = some y ∧
          (d ≠ 0 → y.sc.reg d = ⟨b.lstat.setWidth 32, b.lstat.getLsbD 1⟩)))) ∧
  ((∀ (s : State) (r : ByteReport) (b : Barrier) (rs bs : List _), s.reports = r :: rs → s.barriers = b :: bs → r.due ≤ s.clock →
      b.launch = r.launch → b.gid = r.gid → b.name = r.name → (b.nbhd = true ∨ ∃ p ∈ b.parts, p.team = r.op.team) →
      ∃ t c, exec (.barByteReport r.op) s = .next t ∧ t.reports = rs ∧ t.barriers = c :: bs ∧
        (b.pb ≠ r.bytes ∨ (∃ p ∈ b.parts, p.arrived = false) → c.pb = b.pb - r.bytes ∧ c.phase = b.phase ∧
          c.abn = (b.abn || r.abandoned)) ∧
        (b.pb = r.bytes → b.parts ≠ [] → (∀ p ∈ b.parts, p.arrived = true) → c.pb = 0 ∧ c.phase = b.phase + 1 ∧
          c.lstat.getLsbD 0 = (b.abn || r.abandoned) ∧ c.lstat.getLsbD 1 = b.pbpois)) ∧
    (∀ (s : State) (x : Team) (n : BitVec 3) (b : Barrier) (p : Part) (d : BitVec 6) (at_ : Nat), s.team? x.id = some x →
      x.sc.wait = some (.barWait n) → s.barrier? x n = some b → b.parts = [p] → p.team = x.id → p.pend = true → p.arrph ≠ b.phase →
      b.releaseAt = some at_ → at_ ≤ s.clock → s.scalarInstrAt (.team x.id) = some (.barWait d n) → s.ops = [] → d ≠ 0 →
      s.quiet (.team x.id) →
      ∃ t y, exec (.barWaitRelease x.id) s = .next t ∧ t.team? x.id = some y ∧ y.sc.wait = none ∧
        y.sc.reg d = ⟨b.lstat.setWidth 32, b.lstat.getLsbD 1⟩ ∧ y.sc.pc = (x.sc.pc + 4) &&& ~~~3))

/-- 08 R196–R200: MZERO, MMA, MMAQ and MMAS join the tail of their array core's queue when the control core has fewer than
eight operations outstanding, and wait otherwise; a format that R190 does not list traps ILLEGAL, an array core beyond
the group QUOTA, and a team that issues one ILLEGAL; MBANK returns the status of an array core. -/
def Obligations.MatrixOperationsQueue : Prop :=
  (∀ (s : State) (g : Group) (c a p q : BitVec 2) (x y z : BitVec 1) (m : BitVec 3) (d : BitVec 6), GroupIssues s g →
    s.feature 1 = true → m.toNat ≤ 4 →
    let queued := (g.arrays.map (fun r => r.queue.length)).sum
    let asks := fun (i : Instr) (f : MxForm) (ok : Prop) (keeps : MxOp → Prop) =>
      (¬ok → TrapsAt i s (.ctrl g.cl) g.sc .illegal) ∧
      (ok → g.arrays.length ≤ c.toNat → TrapsAt i s (.ctrl g.cl) g.sc .quota) ∧
      (ok → c.toNat < g.arrays.length → 8 ≤ queued → exec i s = .next (s.block (.ctrl g.cl) .matrixQueue)) ∧
      (ok → c.toNat < g.arrays.length → queued < 8 → ∃ t h o, Completes i s (.ctrl g.cl) g.sc t ∧ t.group? g.cl = some h ∧
        (h.arrays[c.toNat]?).map (·.queue) = (g.arrays[c.toNat]?).map (fun r => r.queue ++ [o]) ∧
        o.form = f ∧ o.acc = a ∧ o.fmt = g.sc.fmt ∧ o.started = none ∧ keeps o)
    let mul := fun (o : MxOp) => o.abank = p ∧ o.bbank = q ∧ o.ra = decide (x = 1) ∧ o.rb = decide (y = 1) ∧
      o.rc = decide (z = 1) ∧ o.rm = m
    let A := g.sc.fmt.toNat / 256 % 16
    let B := g.sc.fmt.toNat / 4096 % 16
    let plain := g.sc.fmt.toNat / 65536 % 256 = 0
    asks (.mzero c a) .mzero True (fun _ => True) ∧
    asks (.mma c a p q x y z m) .mma (plain ∧ ((A ≤ 1 ∧ B ≤ 1) ∨ (2 ≤ A ∧ A ≤ 3 ∧ 2 ≤ B ∧ B ≤ 3))) mul ∧
    asks (.mmaq c a p q x y z m) .mmaq (plain ∧ A ≤ 3 ∧ 4 ≤ B ∧ B ≤ 6) mul ∧
    (s.feature 3 = true → asks (.mmas c a p q x y z m) .mmas (plain ∧ A ≤ 1 ∧ B ≤ 1) mul) ∧
    (∀ r, g.arrays[c.toNat]? = some r → Completes (.mbank c d) s (.ctrl g.cl) g.sc (s.writeReg (.ctrl g.cl) d ⟨r.word, false⟩)) ∧
    (g.arrays[c.toNat]? = none → TrapsAt (.mbank c d) s (.ctrl g.cl) g.sc .quota)) ∧
  (∀ (s : State) (t : Team) (c a p q : BitVec 2) (x y z : BitVec 1) (m : BitVec 3) (d : BitVec 6), TeamIssues s t →
    ∀ i ∈ ([.mzero c a, .mma c a p q x y z m, .mmaq c a p q x y z m, .mmas c a p q x y z m, .mbank c d] : List Instr),
      TrapsAt i s (.team t.id) t.sc .illegal)

/-! ## Lane instructions (spec/07, spec/06) -/

/-- 07 R160: what each integer lane instruction writes into every governed lane, at 32 and 64 bits, signed and unsigned. -/
def Obligations.LaneIntegerResults : Prop :=
  ∀ (s : State) (x : LaneArgs),
    let a := fun (w : LaneCtx) (j : Nat) => (w.a j).lo.val
    let b := fun (w : LaneCtx) (j : Nat) => (w.b j).lo.val
    let c := fun (w : LaneCtx) (j : Nat) => (w.c j).lo.val
    let A := fun (w : LaneCtx) (j : Nat) => (w.a j).val
    let B := fun (w : LaneCtx) (j : Nat) => (w.b j).val
    let C := fun (w : LaneCtx) (j : Nat) => (w.c j).val
    let i32 := fun (i : Instr) (f : Int → Int → Int → Int) => LaneWrites i s (fun w j =>
      res32 w j (BitVec.ofInt 32 (f (a w j).toInt (b w j).toInt (c w j).toInt)))
    let n32 := fun (i : Instr) (f : Nat → Nat → Nat → Nat) => LaneWrites i s (fun w j =>
      res32 w j (BitVec.ofNat 32 (f (a w j).toNat (b w j).toNat (c w j).toNat)))
    let i64 := fun (i : Instr) (f : Int → Int → Int → Int) => LaneWrites i s (fun w j =>
      res64 w j (BitVec.ofInt 64 (f (A w j).toInt (B w j).toInt (C w j).toInt)))
    let n64 := fun (i : Instr) (f : Nat → Nat → Nat → Nat) => LaneWrites i s (fun w j =>
      res64 w j (BitVec.ofNat 64 (f (A w j).toNat (B w j).toNat (C w j).toNat)))
    let clamp := fun (n : Nat) (v : Int) => max (-(2 ^ (n - 1))) (min (2 ^ (n - 1) - 1) v)
    i32 (.iadd .i32 x) (fun a b _ => a + b) ∧ n32 (.iadd .n32 x) (fun a b _ => a + b) ∧
    i64 (.iadd .i64 x) (fun a b _ => a + b) ∧ n64 (.iadd .n64 x) (fun a b _ => a + b) ∧
    i32 (.isub .i32 x) (fun a b _ => a - b) ∧ n32 (.isub .n32 x) (fun a b _ => a + (2 ^ 32 - b)) ∧
    i64 (.isub .i64 x) (fun a b _ => a - b) ∧ n64 (.isub .n64 x) (fun a b _ => a + (2 ^ 64 - b)) ∧
    i32 (.imul .i32 x) (fun a b _ => a * b) ∧ n32 (.imul .n32 x) (fun a b _ => a * b) ∧
    i64 (.imul .i64 x) (fun a b _ => a * b) ∧ n64 (.imul .n64 x) (fun a b _ => a * b) ∧
    i32 (.imulh .i32 x) (fun a b _ => a * b / 2 ^ 32) ∧ n32 (.imulh .n32 x) (fun a b _ => a * b / 2 ^ 32) ∧
    i64 (.imulh .i64 x) (fun a b _ => a * b / 2 ^ 64) ∧ n64 (.imulh .n64 x) (fun a b _ => a * b / 2 ^ 64) ∧
    i32 (.imad .i32 x) (fun a b c => a * b + c) ∧ n32 (.imad .n32 x) (fun a b c => a * b + c) ∧
    i64 (.imad .i64 x) (fun a b c => a * b + c) ∧ n64 (.imad .n64 x) (fun a b c => a * b + c) ∧
    i32 (.imin .i32 x) (fun a b _ => min a b) ∧ n32 (.imin .n32 x) (fun a b _ => min a b) ∧
    i64 (.imin .i64 x) (fun a b _ => min a b) ∧ n64 (.imin .n64 x) (fun a b _ => min a b) ∧
    i32 (.imax .i32 x) (fun a b _ => max a b) ∧ n32 (.imax .n32 x) (fun a b _ => max a b) ∧
    i64 (.imax .i64 x) (fun a b _ => max a b) ∧ n64 (.imax .n64 x) (fun a b _ => max a b) ∧
    i32 (.iadds .i32 x) (fun a b _ => clamp 32 (a + b)) ∧ n32 (.iadds .n32 x) (fun a b _ => min (2 ^ 32 - 1) (a + b)) ∧
    i64 (.iadds .i64 x) (fun a b _ => clamp 64 (a + b)) ∧ n64 (.iadds .n64 x) (fun a b _ => min (2 ^ 64 - 1) (a + b)) ∧
    i32 (.isubs .i32 x) (fun a b _ => clamp 32 (a - b)) ∧ n32 (.isubs .n32 x) (fun a b _ => a - b) ∧
    i64 (.isubs .i64 x) (fun a b _ => clamp 64 (a - b)) ∧ n64 (.isubs .n64 x) (fun a b _ => a - b) ∧
    i32 (.iabs .w32 x) (fun a _ _ => a.natAbs) ∧ i64 (.iabs .w64 x) (fun a _ _ => a.natAbs) ∧
    i32 (.ineg .w32 x) (fun a _ _ => -a) ∧ i64 (.ineg .w64 x) (fun a _ _ => -a)

/-- 07 R161, R162: what each bit instruction writes, by the bits of the result at 32 and 64 bits. 07 R161, R163, R168: the
lane counts, MOV, SEL and LIDX; MOV keeps the poison of each word and SEL reads only its selected source. For 64-bit
operands SEL keeps poison word by word, as the model reads R88 (notes/assumptions/102). -/
def Obligations.LaneBitAndMoveResults : Prop :=
  (∀ (s : State) (x : LaneArgs),
      let bits := fun (i : Wd → Instr) (f : Nat → (Nat → Bool) → (Nat → Bool) → (Nat → Bool) → Nat → Nat → Bool) =>
        (∃ r : LaneCtx → Nat → Word, LaneWrites (i .w32) s (fun w j => res32 w j (r w j)) ∧ ∀ w j n, n < 32 →
          (r w j).getLsbD n = f 32 (w.a j).lo.val.getLsbD (w.b j).lo.val.getLsbD (w.c j).lo.val.getLsbD (w.b j).lo.val.toNat n) ∧
        (∃ r : LaneCtx → Nat → DWord, LaneWrites (i .w64) s (fun w j => res64 w j (r w j)) ∧ ∀ w j n, n < 64 →
          (r w j).getLsbD n = f 64 (w.a j).val.getLsbD (w.b j).val.getLsbD (w.c j).val.getLsbD (w.b j).lo.val.toNat n)
      let len := fun (w k : Nat) => if k % 256 < w then min (k / 256 % 256) (w - k % 256) else 0
      bits (.laneAnd · x) (fun _ a b _ _ n => a n && b n) ∧
      bits (.laneOr · x) (fun _ a b _ _ n => a n || b n) ∧
      bits (.laneXor · x) (fun _ a b _ _ n => a n != b n) ∧
      bits (.laneAndn · x) (fun _ a b _ _ n => a n && !b n) ∧
      bits (.not · x) (fun _ a _ _ _ n => !a n) ∧
      bits (.laneShl · x) (fun _ a _ _ k n => decide (k ≤ n) && a (n - k)) ∧
      bits (.laneShr · x) (fun w a _ _ k n => decide (n + k < w) && a (n + k)) ∧
      bits (.laneSra · x) (fun w a _ _ k n => if n + k < w then a (n + k) else a (w - 1)) ∧
      bits (.rol · x) (fun w a _ _ k n => a ((n + w - k % w) % w)) ∧
      bits (.ror · x) (fun w a _ _ k n => a ((n + k) % w)) ∧
      bits (.brev · x) (fun w a _ _ _ n => a (w - 1 - n)) ∧
      bits (.bfe · x) (fun w a _ _ k n => decide (n < len w k) && a (n + k % 256)) ∧
      bits (.bfi · x) (fun w a _ c k n => if k % 256 ≤ n ∧ n < k % 256 + len w k then a (n - k % 256) else c n)) ∧
  (∀ (s : State) (x : LaneArgs),
      let counts := fun (i : Wd → Instr) (is : Nat → Nat → Nat → Prop) =>
        (∃ r : LaneCtx → Nat → Nat, LaneWrites (i .w32) s (fun w j => res32 w j (BitVec.ofNat 32 (r w j))) ∧
          ∀ w j, r w j ≤ 32 ∧ is 32 (w.a j).lo.val.toNat (r w j)) ∧
        (∃ r : LaneCtx → Nat → Nat, LaneWrites (i .w64) s (fun w j => res64 w j (BitVec.ofNat 64 (r w j))) ∧
          ∀ w j, r w j ≤ 64 ∧ is 64 (w.a j).val.toNat (r w j))
      counts (.laneClz · x) (fun w v n => v < 2 ^ (w - n) ∧ (n < w → 2 ^ (w - 1 - n) ≤ v)) ∧
      counts (.laneCtz · x) (fun w v n => v % 2 ^ n = 0 ∧ (n < w → v / 2 ^ n % 2 = 1)) ∧
      counts (.lanePopc · x) (fun w v n => n = ((List.range w).map (fun i => v / 2 ^ i % 2)).sum) ∧
      (∀ t, LaneWrites (.mov t x) s (fun w j => w.a j)) ∧
      (∀ t, LaneWrites (.sel t x) s (fun w j => if (w.c j).lo.val = 0 then w.b j else w.a j)) ∧
      LaneWrites (.lidx x) s (fun _ j => ⟨⟨BitVec.ofNat 32 j, false⟩, ⟨0, false⟩⟩))

/-- 07 R164: ICMP and FCMP write the whole mask register with the governed lanes whose relation holds, when no operand is
poisoned. 07 R148, R164: a compare that reads a poisoned word consumes it: it writes no mask, and the team takes the
trap POISON with the lanes that read a poisoned word. -/
def Obligations.LaneCompareResults : Prop :=
  (∀ (s : State) (x : LaneArgs),
      let marks := fun (i : Instr) (rel : LaneCtx → Nat → Prop) =>
        ∃ m : LaneCtx → Mask, LaneMasks i s m ∧ ∀ w j, j < 1024 → ((m w).getLsbD j = true ↔ j ∈ w.g ∧ rel w j)
      let on := fun (i : IRel → Instr) (v : LaneCtx → Nat → Int × Int) =>
        marks (i .eq) (fun w j => (v w j).1 = (v w j).2) ∧ marks (i .ne) (fun w j => (v w j).1 ≠ (v w j).2) ∧
        marks (i .lt) (fun w j => (v w j).1 < (v w j).2) ∧ marks (i .le) (fun w j => (v w j).1 ≤ (v w j).2) ∧
        marks (i .gt) (fun w j => (v w j).2 < (v w j).1) ∧ marks (i .ge) (fun w j => (v w j).2 ≤ (v w j).1)
      on (fun r => .icmp r .i32 x) (fun w j => ((w.a j).lo.val.toInt, (w.b j).lo.val.toInt)) ∧
      on (fun r => .icmp r .n32 x) (fun w j => ((w.a j).lo.val.toNat, (w.b j).lo.val.toNat)) ∧
      on (fun r => .icmp r .i64 x) (fun w j => ((w.a j).val.toInt, (w.b j).val.toInt)) ∧
      on (fun r => .icmp r .n64 x) (fun w j => ((w.a j).val.toNat, (w.b j).val.toNat)) ∧
      (∀ r t, marks (.fcmp r t x) (fun w j => frelHolds r
        ((dtyFK t).input w.x.sc.fmt ((dtyFK t).bitsOf (w.a j).val)) ((dtyFK t).input w.x.sc.fmt ((dtyFK t).bitsOf (w.b j).val)) = true))) ∧
  (∀ (s : State) (i : Instr) (c w : LaneCtx) (u : State) (j : Nat),
      ((∃ r t x, i = .icmp r t x) ∨ ∃ r t x, i = .fcmp r t x) → LaneReads i s c w u → j ∈ c.g → w.poison j = true →
      ∃ t, exec i s = .next (u.laneTrap c t) ∧ t.cause = .poison ∧
        ∀ k, k < 1024 → (t.lanes.getLsbD k = true ↔ k ∈ c.g ∧ w.poison k = true))

/-- 07 R151–R157, R159: each floating-point lane instruction completes when the lane units have no defect, and writes into
every governed lane the value that the rounding environment of R147 gives, a packed pair half by half. The value of a
special function is the exact one rounded once, as the model reads R156 (notes/assumptions/8). -/
def Obligations.LaneFloatResults : Prop :=
  ∀ (s : State) (x : LaneArgs), s.defects = [] →
    let each := fun (t : FTy) (i : Instr) (f : LaneCtx → FK → Nat → Nat → Nat → Nat) =>
      (t = .f32 → LaneWrites i s (fun w j => res32 w j (BitVec.ofNat 32
        (f w .f32 (w.a j).lo.val.toNat (w.b j).lo.val.toNat (w.c j).lo.val.toNat)))) ∧
      (t = .f64 → LaneWrites i s (fun w j => res64 w j (BitVec.ofNat 64
        (f w .f64 (w.a j).val.toNat (w.b j).val.toNat (w.c j).val.toNat)))) ∧
      (∀ k, (t = .f16 ∧ k = FK.f16) ∨ (t = .bf16 ∧ k = FK.bf16) → LaneWrites i s (fun w j => res32 w j
        (BitVec.ofNat 16 (f w k ((w.a j).lo.val.toNat / 65536) ((w.b j).lo.val.toNat / 65536) ((w.c j).lo.val.toNat / 65536)) ++
          BitVec.ofNat 16 (f w k ((w.a j).lo.val.toNat % 65536) ((w.b j).lo.val.toNat % 65536) ((w.c j).lo.val.toNat % 65536)))))
    let one := fun (t : DTy) (i : Instr) (f : LaneCtx → FK → Nat → Nat → Nat) =>
      each (dtyFTy t) i (fun w k a b _ => f w k a b)
    ∀ (t : FTy) (d : DTy),
      each t (.fadd t x) (fun w k a b c => k.arith .add w.env a b c) ∧
      each t (.fsub t x) (fun w k a b c => k.arith .sub w.env a b c) ∧
      each t (.fmul t x) (fun w k a b c => k.arith .mul w.env a b c) ∧
      each t (.ffma t x) (fun w k a b c => k.arith .fma w.env a b c) ∧
      each t (.ffms t x) (fun w k a b c => k.arith .fms w.env a b c) ∧
      each t (.fmin t x) (fun w k a b _ => k.minmax false w.x.sc.fmt a b) ∧
      each t (.fmax t x) (fun w k a b _ => k.minmax true w.x.sc.fmt a b) ∧
      each t (.fabs t x) (fun w k a _ _ => k.sign false w.x.sc.fmt a) ∧
      each t (.fneg t x) (fun w k a _ _ => k.sign true w.x.sc.fmt a) ∧
      each t (.frint t x) (fun w k a _ _ => k.rint w.env a) ∧
      each t (.fclass t x) (fun _ k a _ _ => k.classWord a) ∧
      one d (.frcp d x) (fun w k a _ => k.round w.envRne ((FV.num false 1 0).div (k.input w.x.sc.fmt a))) ∧
      one d (.frsq d x) (fun w k a _ => k.round w.envRne ((k.input w.x.sc.fmt a).sqrt true)) ∧
      one d (.fsqrt d x) (fun w k a _ => k.round w.env ((k.input w.x.sc.fmt a).sqrt false)) ∧
      one d (.fdiv d x) (fun w k a b => k.round w.env ((k.input w.x.sc.fmt a).div (k.input w.x.sc.fmt b))) ∧
      one .f32 (.fexp2 x) (fun w k a _ => k.round w.envRne (k.input w.x.sc.fmt a).exp2) ∧
      one .f32 (.flog2 x) (fun w k a _ => k.round w.envRne (k.input w.x.sc.fmt a).log2) ∧
      one .f32 (.fsint x) (fun w k a _ => k.round w.envRne ((k.input w.x.sc.fmt a).turns false)) ∧
      one .f32 (.fcost x) (fun w k a _ => k.round w.envRne ((k.input w.x.sc.fmt a).turns true)) ∧
      (∀ dest from', LaneWrites (.cvt dest from' x) s (fun w j =>
        if dest.srcTy.dst = .w64 then res64 w j (convert dest from' w.env (w.a j).val)
        else res32 w j ((convert dest from' w.env (w.a j).val).setWidth 32)))

/-- 06 R128, R134: an operation with a NaN among the operands that it uses gives the canonical NaN of its format, under
every FMT, sums and products do not depend on the order of their operands, and rounding a number that the format holds
gives back its encoding in every mode when results are not flushed. 06 R134, R135, R137, R138: what an exact non-zero
result becomes in every format and mode: a magnitude that rounds, with an unbounded exponent range, below the smallest
normal value is flushed to zero of its sign when the format's flush bit is set; one that rounds beyond the largest
finite value gives the infinity of its sign, E4M3's NaN, or the saturated value; and any other gives, with its sign,
the finite value of the format, subnormal ones among them, that is nearest to it, of two equally near the one with an
even fraction, or nearest on the side that the mode names. -/
def Obligations.FloatRoundingLaws : Prop :=
  (∀ (k : FK) (o : FOp) (v : Env) (a b c : Nat),
    k.value a = .nan ∨ k.value b = .nan ∨ ((o = .fma ∨ o = .fms) ∧ k.value c = .nan) → k.arith o v a b c = k.nan) ∧
  (∀ (k : FK) (v : Env) (a b c : Nat), k.arith .add v a b c = k.arith .add v b a c ∧
    k.arith .mul v a b c = k.arith .mul v b a c) ∧
  (∀ (k : FK) (v : Env) (x : Nat), x < 2 * k.signBit → k.value x ≠ .nan → (∀ n, k.value x ≠ .inf n) → k.ftz v.fmt = false →
    k.round v (k.value x).exact = x) ∧
  (∀ (k : FK) (v : Env) (neg : Bool) (m : Nat) (e E : Int), m ≠ 0 → E ≤ e → E ≤ k.emin - k.fbits - 1 →
    let r := k.round v (.fin neg m e false)
    let x := m * 2 ^ (e - E).toNat
    let mag := fun (y n : Nat) => ∃ s m' e', k.value y = .num s m' e' ∧ n = m' * 2 ^ (e' - E).toNat
    let away := (v.mode = .rdn ∧ neg = true) ∨ (v.mode = .rup ∧ neg = false)
    let least := 2 ^ (k.emin - E).toNat
    let unit := 2 ^ (k.emin - k.fbits - 1 - E).toNat
    let flushed := k.ftz v.fmt = true ∧ ((v.mode = .rne ∧ 2 * x < 2 * least - unit) ∨ (away ∧ x ≤ least - unit) ∨
      (v.mode ≠ .rne ∧ ¬away ∧ x < least))
    (flushed → r = k.signed neg 0) ∧
    (¬flushed → ∀ s mm me, k.value k.max = .num s mm me →
      let most := mm * 2 ^ (me - E).toNat
      let last := 2 ^ (me - E).toNat
      let beyond := (v.mode = .rne ∧ (2 * most + last < 2 * x ∨ (2 * most + last = 2 * x ∧ k ≠ .e4m3))) ∨ (away ∧ most < x)
      (beyond → r = if v.sat = true ∧ (k = .e4m3 ∨ k = .e5m2) then k.signed neg k.max else k.inf neg) ∧
      (¬beyond → k.neg r = neg ∧ ∃ n, mag r n ∧ ∀ y p, y < 2 * k.signBit → mag y p →
        let off := fun (n : Nat) => ((x : Int) - n).natAbs
        (v.mode = .rne → off n ≤ off p ∧ (off n = off p → p = n ∨ r % 2 = 0)) ∧
        (away → x ≤ n ∧ (x ≤ p → n ≤ p)) ∧
        (v.mode ≠ .rne → ¬away → n ≤ x ∧ (p ≤ x → p ≤ n)))))

/-- 07 R166, R167: SHFL and BCAST give each governed lane the value, with its poison, of the lane that its index names
when that is governed, and its own otherwise; a poisoned index of a governed lane, and BCAST's poisoned index, trap
POISON. -/
def Obligations.LaneShuffleResults : Prop :=
  ∀ (s : State) (x : LaneArgs) (t : Wd),
    let from' := fun (i : Instr) (pick : LaneCtx → Nat → Nat → Option Nat) => ∀ c w u, LaneReads i s c w u →
      ((∀ j ∈ c.g, (w.b j).poison = false) → exec i s = .next ((u.writeLanes c (fun j =>
        match pick w j (w.b j).lo.val.toNat with
        | some n => if n ∈ c.g then w.a n else w.a j
        | none => w.a j)).retireLane c.x c.args c.gov c.need)) ∧
      ((∃ j ∈ c.g, (w.b j).poison = true) → ∃ t, exec i s = .next (u.laneTrap c t) ∧ t.cause = .poison)
    from' (.shflIdx t x) (fun _ _ b => some b) ∧
    from' (.shflXor t x) (fun _ j b => some (j ^^^ b)) ∧
    from' (.shflUp t x) (fun _ j b => if j < b then none else some (j - b)) ∧
    from' (.shflDown t x) (fun _ j b => some (j + b)) ∧
    (∀ c w u, LaneReads (.bcast t x) s c w u →
      ((w.b 0).poison = false ∨ c.g = [] → exec (.bcast t x) s = .next ((u.writeLanes c (fun j =>
        let n := if (w.b 0).lo.val = 0xFFFFFFFF then c.g.head?.getD 0 else (w.b 0).lo.val.toNat
        if n ∈ c.g then w.a n else w.a j)).retireLane c.x c.args c.gov c.need)) ∧
      (c.g ≠ [] → (w.b 0).poison = true → ∃ trap, exec (.bcast t x) s = .next (u.laneTrap c trap) ∧ trap.cause = .poison))

/-- 07 R169, R170: integer reductions and scans over the governing set, a scan over the lanes up to each lane, SCAN.ADDX
over those below it; each result is poisoned when a word that it combines is. 07 R169, 06 R134: a minimum or maximum
over a list of integers is a member of it and bounds it, and the floating-point sum of an empty list is zero. -/
def Obligations.LaneReductionResults : Prop :=
  (∀ (s : State) (x : LaneArgs),
      let overs := fun (i : Instr) (part : Nat → Nat → Bool) (wide : Bool) (f : LaneCtx → List DWord → DWord) =>
        LaneWrites i s (fun w j =>
          let ls := w.g.filter (fun i => part i j)
          let q := ls.any (fun i => (w.a i).poison)
          let v := f w (ls.map (fun i => (w.a i).val))
          if wide then ⟨⟨BitVec.ofNat 32 v.toNat, q⟩, ⟨BitVec.ofNat 32 (v.toNat / 2 ^ 32), q⟩⟩
          else ⟨⟨BitVec.ofNat 32 v.toNat, q⟩, ⟨0, false⟩⟩)
      let all := fun (_ _ : Nat) => true
      let upto := fun (i j : Nat) => decide (i ≤ j)
      let below := fun (i j : Nat) => decide (i < j)
      let sum := fun (n : Nat) (_ : LaneCtx) (vs : List DWord) => BitVec.ofNat 64 ((vs.map (fun v => v.toNat)).sum % 2 ^ n)
      let wide := fun (t : RTy) => t == .i64 || t == .n64 || t == .f64
      overs (.redAdd .i32 x) all false (sum 32) ∧ overs (.redAdd .n32 x) all false (sum 32) ∧
      overs (.redAdd .i64 x) all true (sum 64) ∧ overs (.redAdd .n64 x) all true (sum 64) ∧
      overs (.scanAdd .i32 x) upto false (sum 32) ∧ overs (.scanAdd .n32 x) upto false (sum 32) ∧
      overs (.scanAdd .i64 x) upto true (sum 64) ∧ overs (.scanAdd .n64 x) upto true (sum 64) ∧
      overs (.scanAddx .i32 x) below false (sum 32) ∧ overs (.scanAddx .n32 x) below false (sum 32) ∧
      overs (.scanAddx .i64 x) below true (sum 64) ∧ overs (.scanAddx .n64 x) below true (sum 64) ∧
      (∀ t, t = .f32 ∨ t = .f64 → overs (.redAdd t x) all (wide t) (fun w => foldSum t w.env) ∧
        overs (.scanAdd t x) upto (wide t) (fun w => foldSum t w.env) ∧
        overs (.scanAddx t x) below (wide t) (fun w => foldSum t w.env)) ∧
      overs (.redAnd .w32 x) all false (fun _ vs => vs.foldl (· &&& ·) (-1)) ∧
      overs (.redAnd .w64 x) all true (fun _ vs => vs.foldl (· &&& ·) (-1)) ∧
      overs (.redOr .w32 x) all false (fun _ vs => vs.foldl (· ||| ·) 0) ∧
      overs (.redOr .w64 x) all true (fun _ vs => vs.foldl (· ||| ·) 0) ∧
      (∀ t, overs (.redMin t x) all (wide t) (fun w => foldMinMax false t w.x.sc.fmt) ∧
        overs (.redMax t x) all (wide t) (fun w => foldMinMax true t w.x.sc.fmt) ∧
        overs (.scanMax t x) upto (wide t) (fun w => foldMinMax true t w.x.sc.fmt))) ∧
  ((∀ (v : DWord) (vs : List DWord) (fmt : Word),
      let signed := fun (x : DWord) => x.toInt
      let lo := foldMinMax false .i64 fmt (v :: vs)
      let hi := foldMinMax true .i64 fmt (v :: vs)
      let least := foldMinMax false .n64 fmt (v :: vs)
      let most := foldMinMax true .n64 fmt (v :: vs)
      lo ∈ v :: vs ∧ hi ∈ v :: vs ∧ least ∈ v :: vs ∧ most ∈ v :: vs ∧
        ∀ x ∈ v :: vs, signed lo ≤ signed x ∧ signed x ≤ signed hi ∧ least.toNat ≤ x.toNat ∧ x.toNat ≤ most.toNat) ∧
    (∀ (t : RTy) (e : Env), foldSum t e [] = 0))

/-- 07 R173, R174: XSWAP of a declared pair whose partner is live and has not arrived records the team's arrival with its
governing set and source words, and waits; when both have arrived with one width, XSWAP_EXCHANGE writes to each team's
governed lanes the partner's words where both sets have the lane, and its own elsewhere, and both instructions
complete. 07 R175: an XSWAP that has waited 2^20 counted cycles without its partner's arrival traps XSWAP_TIMEOUT with
its governing set. -/
def Obligations.ExchangesMeetOrTimeOut : Prop :=
  ((∀ (s : State) (t : Wd) (x : LaneArgs) (c w : LaneCtx) (u : State) (y z : Team), LaneReads (.xswap t x) s c w u slotEarly →
      u.partnerOf c.x (pairOf c.args) = some y → y.xarr = none → u.team? c.id = some z →
      ∃ v z' a, exec (.xswap t x) s = .next v ∧ v.team? c.id = some z' ∧ z'.sc.wait = some .xswap ∧ z'.xarr = some a ∧
        a.pair = pairOf c.args ∧ a.wide = t ∧ a.g = c.gov ∧ (∀ j ∈ c.g, smGet PPair.zero a.src j = w.a j) ∧ z'.sc.pc = z.sc.pc ∧
        z'.vregs = z.vregs) ∧
    (∀ (s : State) (x y : Team) (a b : XArrival), s.team? x.id = some x → x.xarr = some a → s.partnerOf x a.pair = some y →
      s.team? y.id = some y → x.id ≠ y.id → y.xarr = some b → b.pair = a.pair → b.wide = a.wide → a.args.dk = .reg → b.args.dk = .reg →
      smWf PWord.zero x.vregs = true → smWf PWord.zero y.vregs = true → s.quiet (.team x.id) → s.quiet (.team y.id) →
      let gets := fun (z : Team) (own other : XArrival) (j : Nat) =>
        let v := if other.g.getLsbD j then smGet PPair.zero other.src j else smGet PPair.zero own.src j
        z.v own.args.di.toNat j = v.lo ∧ (own.wide = .w64 → z.v (own.args.di.toNat + 1) j = v.hi)
      ∃ t p q, exec (.xswapExchange x.id) s = .next t ∧ t.team? x.id = some p ∧ t.team? y.id = some q ∧ p.xarr = none ∧ q.xarr = none ∧
        p.sc.wait = none ∧ q.sc.wait = none ∧
        (∀ j, j < x.lanes → a.g.getLsbD j = true → gets p a b j) ∧ (∀ j, j < y.lanes → b.g.getLsbD j = true → gets q b a j) ∧
        (∀ j r, r < 256 → j < 1024 → a.g.getLsbD j = false ∨ r < a.args.di.toNat ∨ a.args.di.toNat + 1 < r → p.v r j = x.v r j))) ∧
  (∀ (s : State) (x : Team) (a : XArrival), s.team? x.id = some x → x.xarr = some a → 2 ^ 20 ≤ a.waited →
      (∀ y, s.partnerOf x a.pair = some y → ∀ b, y.xarr = some b → b.pair ≠ a.pair) →
      exec (.xswapTimeout x.id) s = .next (s.takeLaneTrap x.id ⟨.xswapTimeout, 0, 0, a.g⟩ (x.chainPos != 0)))

/-! ## Lane memory instructions (spec/10, spec/13, spec/08) -/

/-- 09 R211, 10 R230, R231: a lane load whose access performs reads the bytes at each governed lane's place little-endian,
extends narrow signed data, poisons each word that a poisoned word or a host error gives, and writes the 1, 2 or 4
registers of the lane; a 128-bit load reads its low 8 bytes first. 10 R242: the lane form of CLD writes into each
governed lane the word, or the pair, of the constant window that its index names, when every index lies below the
window's length, is translated and permitted, no index is poisoned, and the access performs. -/
def Obligations.LaneLoadResults : Prop :=
  (∀ (s u r : State) (lv : Level) (wd : LdW) (x : LaneArgs) (c w : LaneCtx) (ps : List Spot),
      LaneReads (.ld lv wd x) s c w u (LaneCtx.early .read lv (ldBytes wd) (fun c => c.address lv)) →
      let ops : List EvOp := if wd = .b128 then [.read 8, .read 8] else [.read (ldBytes wd)]
      let n := if wd = .b128 then 4 else if wd = .b64 then 2 else 1
      LanesReach u w .read lv (ldBytes wd) (w.address lv) w.addressPoison (fun _ => ops)
        (if c.args.dk = .reg then .lanes c.args.di.toNat n wd else .none) ps r →
      let word := fun (p : Spot) (o n : Nat) => (⟨BitVec.ofNat 32 (natOfBytes (r.locBytes (p.loc.add o) n)),
        r.badAt w.ag (p.add (o / 8 * 8)) (o % 8) n⟩ : PWord)
      let signed := fun (p : Spot) (n : Nat) => ({ word p 0 n with val := BitVec.ofInt 32 ((word p 0 n).val.setWidth (8 * n)).toInt } : PWord)
      let gives := fun (p : Spot) => match wd with
        | .n8 => [word p 0 1]
        | .i8 => [signed p 1]
        | .n16 => [word p 0 2]
        | .i16 => [signed p 2]
        | .b32 => [word p 0 4]
        | .b64 => [word p 0 4, word p 4 4]
        | .b128 => [word p 0 4, word p 4 4, word p 8 4, word p 12 4]
      ∃ vals : Nat → List PWord,
        (∀ (m : Nat) (p : Spot), ps[m]? = some p → (∀ (k : Nat) (q : Spot), ps[k]? = some q → q.lane = p.lane → k = m) → vals p.lane = gives p) ∧
        let t := (r.releaseHost ((ps.flatMap (fun p => p.events ops)).map (·.spot))).accOver c.st
        LaneEnds (.ld lv wd x) s c (if c.args.dk = .reg then
          t.mapTeam c.id (fun z => (lanesIn c.gov z.lanes).foldl (fun z j => z.setWords c.args.di.toNat j (vals j)) z) else t)) ∧
  (∀ (s u v r : State) (t : Wd) (x : LaneArgs) (c w : LaneCtx) (ps : List Spot),
      LaneReads (.cldLane t x) s c w u → State.checkWindows w t w.g u = (v, [], ps, false) → (∀ j ∈ w.g, (w.a j).poison = false) →
      Performs ((v.mapTeam c.id (fun y => y.laneRetired c.args c.gov c.need)).countPasses c.id c.x.nw c.gov) c.st
        (w.access .read (ps.map (fun p => ⟨p, .read (wdBytes t)⟩))
          (if c.args.dk = .reg then .lanes c.args.di.toNat (if t = .w64 then 2 else 1) (if t = .w64 then .b64 else .b32) else .none)) w.ag r →
      let word := fun (p : Spot) (k : Nat) =>
        (⟨BitVec.ofNat 32 (natOfBytes (r.locBytes (p.loc.add k) 4)), r.badAt w.ag p k 4⟩ : PWord)
      let z := (r.releaseHost ps).accOver c.st
      ∃ vals : Nat → List PWord,
        (∀ (n : Nat) (p : Spot), ps[n]? = some p → (∀ (m : Nat) (q : Spot), ps[m]? = some q → q.lane = p.lane → m = n) →
          vals p.lane = if t = .w64 then [word p 0, word p 4] else [word p 0]) ∧
        LaneEnds (.cldLane t x) s c (if c.args.dk = .reg then
          z.mapTeam c.id (fun y => (lanesIn c.gov y.lanes).foldl (fun y j => y.setWords c.args.di.toNat j (vals j)) y) else z))

/-- 09 R211, 10 R230, R231: a lane store whose access performs makes its write events lane by lane in ascending order, of
the low bytes of each datum, the low word first, a 128-bit one as two events of 8 bytes, and completes; it writes no
lane register. -/
def Obligations.LaneStoreWrites : Prop :=
  ∀ (s u r : State) (lv : Level) (wd : StW) (x : LaneArgs) (c w : LaneCtx) (ps : List Spot),
    LaneReads (.st lv wd x) s c w u (LaneCtx.early .write lv (stBytes wd) (fun c => c.address lv)) →
    let datum := fun (j : Nat) => if wd = .b128 then
        ((w.quad j).map (fun p => p.val.toNat)).foldr (fun a b => a + 2 ^ 32 * b) 0
      else (w.c j).val.toNat
    let bytes := fun (j : Nat) => (List.range (stBytes wd)).map (fun i => BitVec.ofNat 8 (datum j / 256 ^ i))
    let pieces := fun (j : Nat) => if wd = .b128 then [(bytes j).take 8, (bytes j).drop 8] else [bytes j]
    (wd = .b128 → ∀ j, (w.quad j).length = 4) →
    LanesReach u w .write lv (stBytes wd) (w.address lv) (fun j => w.addressPoison j || (w.datum wd j).any (·.poison))
      (fun j => (pieces j).map .write) .none ps r →
    let places := ps.flatMap (fun p => (pieces p.lane).zipIdx.map (fun q => (p.add (8 * q.2), q.1)))
    LaneEnds (.st lv wd x) s c
      (((places.foldl (fun s q => s.writeEvent w.ag q.1 q.2 false) r).releaseHost (places.map (·.1))).accOver c.st)

/-- 10 R235, R236: lane atomics whose access performs perform in ascending lane order, each reading the old value that its
lane receives and writing what its operation makes of it; without a destination they write no register. 10 R236, R243:
what one atomic event makes of a 32-bit location: the value that it returns and the value that it writes; a CAS that
does not match, a poisoned location, and one that the host answers with an error write nothing, and the last two
return poison. 13 R300: SWMARK sets one tile's bit for each governed lane, in the word that holds it, by an atomic OR
in ascending lane order. -/
def Obligations.LaneAtomicResults : Prop :=
  (∀ (s u r : State) (op : AtomOp) (lv : Level) (t : Wd) (x : LaneArgs) (c w : LaneCtx) (ps : List Spot),
      LaneReads (.atom op lv t x) s c w u (LaneCtx.early .atomic lv (wdBytes t) (fun c => c.address lv)) →
      LanesReach u w .atomic lv (wdBytes t) (w.address lv) (fun j => w.poison j || (op == .cas && (w.compare t j).poison))
        (fun j => [.atomic op t (w.c j).val (w.compare t j).val])
        (if c.args.dk = .reg then .lanes c.args.di.toNat (if t = .w64 then 2 else 1) (if t = .w64 then .b64 else .b32) else .none) ps r →
      let event := fun (p : Spot) (s : State) => s.atomicEvent w.ag (p.add 0) op t (w.c p.lane).val (w.compare t p.lane).val
      let after := fun (qs : List Spot) => qs.foldl (fun s p => (event p s).1) r
      let z := ((after ps).releaseHost (ps.map (·.add 0))).accOver c.st
      ∃ vals : Nat → List PWord,
        (∀ (n : Nat) (p : Spot), ps[n]? = some p → (∀ (m : Nat) (q : Spot), ps[m]? = some q → q.lane = p.lane → m = n) →
          let m := (event p (after (ps.take n))).2
          vals p.lane = if t = .w64 then [m.lo, m.hi] else [m.lo]) ∧
        LaneEnds (.atom op lv t x) s c (if c.args.dk = .reg then
          z.mapTeam c.id (fun y => (lanesIn c.gov y.lanes).foldl (fun y j => y.setWords c.args.di.toNat j (vals j)) y) else z)) ∧
  (∀ (s : State) (ag : Agent) (p : Spot) (op : AtomOp) (c cmp : DWord),
      let old : Word := BitVec.ofNat 32 (natOfBytes (s.locBytes p.loc 4))
      let b : Word := c.setWidth 32
      let gives := fun (v : Word) => s.atomicEvent ag p op .w32 c cmp =
        (s.writeEvent ag p [v.extractLsb' 0 8, v.extractLsb' 8 8, v.extractLsb' 16 8, v.extractLsb' 24 8] false, .ofWord ⟨old, false⟩)
      let bad := s.hostErr p.loc || s.locPoison p.loc 4
      (bad = true → s.atomicEvent ag p op .w32 c cmp = (s, .ofWord ⟨old, true⟩)) ∧
      (bad = false →
        (op = .add → gives (old + b)) ∧ (op = .and → gives (old &&& b)) ∧ (op = .or → gives (old ||| b)) ∧
        (op = .xor → gives (old ^^^ b)) ∧ (op = .min → gives (BitVec.ofInt 32 (min old.toInt b.toInt))) ∧
        (op = .max → gives (BitVec.ofInt 32 (max old.toInt b.toInt))) ∧ (op = .minn → gives (BitVec.ofNat 32 (min old.toNat b.toNat))) ∧
        (op = .maxn → gives (BitVec.ofNat 32 (max old.toNat b.toNat))) ∧ (op = .swap → gives b) ∧
        (op = .cas → old = cmp.setWidth 32 → gives b) ∧
        (op = .cas → old ≠ cmp.setWidth 32 → s.atomicEvent ag p op .w32 c cmp = (s, .ofWord ⟨old, false⟩)))) ∧
  (∀ (s u r : State) (x : LaneArgs) (c w : LaneCtx) (ps : List Spot),
      LaneReads (.swmark x) s c w u (LaneCtx.early .atomic .g 4 markAddress) →
      let tile := fun (j : Nat) => (w.b j).lo.val.toNat
      let bit := fun (j : Nat) => BitVec.ofNat 64 (2 ^ (tile j % 32))
      LanesReach u w .atomic .g 4 (fun j => (w.a j).val + BitVec.ofNat 64 (4 * (tile j / 32))) w.poison
        (fun j => [.atomic .or .w32 (bit j) 0]) .none ps r →
      LaneEnds (.swmark x) s c
        (((ps.foldl (fun s p => (s.atomicEvent w.ag (p.add 0) .or .w32 (bit p.lane) 0).1) r).releaseHost (ps.map (·.add 0))).accOver c.st))

/-- 10 R229, R232, 04 R95, 15 R327, R333: the checks of one memory access in their order: a misaligned address traps
ALIGN, an offset beyond its level BOUNDS, a non-canonical address and one whose walk finds no leaf PAGE, one whose
leaf does not permit it PERM; otherwise it reaches its place, by a translation that the TLB holds or by the one that a
walk finds, an atomic of a page with an atomic place at its slice; while the leaf is in migration it stalls. 15 R326,
R327, R331, R333, R336: what a walk without a leaf comes to, with the pool's state in the sub-cause; that an access
without a pool counts as one whose pool is empty is the model's reading (notes/assumptions/21). -/
def Obligations.AccessChecksInOrder : Prop :=
  ∀ (s : State) (ag : Agent) (k : AccKind) (atom : Bool) (lane : Nat) (r : Reach) (off : DWord) (width : Nat),
    (off.toNat % width ≠ 0 → s.check ag k atom lane r off width = (s, .fault ⟨.align true, k.code, off, 0⟩)) ∧
    (off.toNat % width = 0 →
      (r = .bounds → s.check ag k atom lane r off width = (s, .fault ⟨.boundsAperture, k.code, off, 0⟩)) ∧
      (∀ l, r = .loc l → s.check ag k atom lane r off width = (s, .spot ⟨lane, none, none, l, .l1⟩)) ∧
      (∀ a, r = .va a → canonical a = false → s.check ag k atom lane r off width = (s, .fault ⟨.page 0, k.code, a, 0⟩)) ∧
      (∀ a, r = .va a → canonical a = true →
        let reaches := fun (v : State) (e : TlbEntry) =>
          let pa := e.frame + a.toNat % 2 ^ 57 % 2 ^ levelShift e.level
          backed pa = true →
            (e.permits k ag.sup = true →
              (atom = true ∧ e.apl ≠ 0 → s.check ag k atom lane r off width = (v, .spot ⟨lane, some a, some e, .mem pa, .slice⟩)) ∧
              (¬(atom = true ∧ e.apl ≠ 0) → s.check ag k atom lane r off width = (v, .spot ⟨lane, some a, some e, .mem pa, .l1⟩))) ∧
            (e.permits k ag.sup = false → s.check ag k atom lane r off width = (v, .fault ⟨.perm, k.code, a, 0⟩))
        (∀ e, s.tlb.find? (fun e => e.covers ag.owner ag.asid (va57 a)) = some e → reaches s e) ∧
        (s.tlb.find? (fun e => e.covers ag.owner ag.asid (va57 a)) = none →
          let s := match ag.core with
            | some c => s.count c ag.slot 0x08 1
            | none => s
          let pages := fun (v : State) (sub : Nat) => s.check ag k atom lane r off width = (v, .fault ⟨.page sub, k.code, a, 0⟩)
          (∀ v lvl pte e, s.walk ag.asid ag.die (va57 a) = (v, .leaf lvl pte e) →
            let x := TlbEntry.ofLeaf ag.owner ag.asid (va57 a) lvl pte e
            (e.testBit 12 = true → s.check ag k atom lane r off width = (v, .stall)) ∧
            (e.testBit 12 = false → reaches (v.tlbFill x) x ∧
              (backed (x.pa (va57 a)) = false → pages (v.tlbFill x) 0))) ∧
          (∀ v lvl, s.walk ag.asid ag.die (va57 a) = (v, .bad) ∨ s.walk ag.asid ag.die (va57 a) = (v, .absent lvl false) → pages v 0) ∧
          (∀ v lvl, s.walk ag.asid ag.die (va57 a) = (v, .absent lvl true) →
            (ag.pgpool = none → pages v 1) ∧
            (∀ pool w, ag.pgpool = some pool →
              (∀ empty, v.poolEmpty ag.asid ag.die pool = (w, some empty) → pages w (if empty then 1 else 0)) ∧
              (v.poolEmpty ag.asid ag.die pool = (w, none) → s.check ag k atom lane r off width = (w, .stall)))))))

/-- 08 R185, R202: MFEED writes the governed lanes' words at its offset into an EMPTY bank of its array core, drops words
beyond the bank's end, and publishes the bank FULL when its control word says so; on a FULL bank it waits. Which
registers hold the data and the control word is the model's reading (notes/assumptions/27). 08 R186, R203: MDRAIN of
an accumulator in DRAIN writes its elements from an offset on into the governed lanes, zero beyond its end, and
returns it to ARRAY when its control word says so; of one in ARRAY it waits. The control word's register kinds and a
drain of no lane are the model's reading (notes/assumptions/27, 37). 08 R205, 06 R142: QMX quantises each mask word's
governed lanes as one block with a shared scale, its element in bits [7:0] and the scale in bits [15:8], poisoned when
a value of the block is. -/
def Obligations.FeedsDrainsAndBlocks : Prop :=
  (∀ (s u : State) (x : LaneArgs) (c w : LaneCtx) (cl ix : Nat) (a : ArrayState) (isB : Bool),
      let i : Instr := if isB then .mfeedB x else .mfeedA x
      LaneReads i s c w u → (∀ j ∈ w.g, (w.a j).poison = false) → u.arrayOf c.x = some (cl, ix) → u.arrayAt (cl, ix) = some a →
      let ctl := (w.b 0).lo.val
      let b := ctl.extractLsb' 12 2
      let bank := a.bank isB b
      let first := ctl.toNat % 4096
      (bank.full = false → ∃ k, exec i s = .next ((u.mapArrayAt cl ix (fun a => a.setBank isB b k)).retireLane c.x c.args c.gov c.need) ∧
        k.full = ctl.getLsbD 14 ∧
        (bank.words.Pairwise (fun p q => p.1 < q.1) → ∀ n, k.word isB n =
          if n < (if isB then 2240 else 1056) ∧ first ≤ n ∧ n - first ∈ w.g then (w.a (n - first)).lo else bank.word isB n)) ∧
      (bank.full = true → c.args.hold = false → c.x.chainPos = 0 → exec i s = .next (u.block c.st .phase))) ∧
  (∀ (s u : State) (x : LaneArgs) (c w : LaneCtx) (cl ix : Nat) (a : ArrayState), LaneReads (.mdrain x) s c w u → w.g ≠ [] →
      (w.b 0).lo.poison = false → u.arrayOf c.x = some (cl, ix) → u.arrayAt (cl, ix) = some a →
      let ctl := (w.b 0).lo.val
      let b := ctl.extractLsb' 13 2
      let acc := a.accOf b
      let first := ctl.toNat % 8192
      (acc.drain = true →
        exec (.mdrain x) s = .next (((if ctl.getLsbD 15 then u.mapArrayAt cl ix (fun a => a.setAcc b { acc with drain := false }) else u).writeLanes
          c (fun j => ⟨if first + j < 8192 then acc.elem (first + j) else ⟨0, false⟩, ⟨0, false⟩⟩)).retireLane c.x c.args c.gov c.need)) ∧
      (acc.drain = false → c.args.hold = false → c.x.chainPos = 0 → exec (.mdrain x) s = .next (u.block c.st .phase))) ∧
  (∀ (s : State) (t : MxTy) (x : LaneArgs) (c w : LaneCtx) (u : State), LaneReads (.qmx t x) s c w u → c.x.nw ≤ 32 →
      let value := fun (j : Nat) => FK.input .f32 c.x.sc.fmt (w.a j).lo.val.toNat
      let block := fun (j : Nat) => c.g.filter (fun i => i / 32 = j / 32)
      ∃ f : Nat → PPair, exec (.qmx t x) s = .next ((u.writeLanes c f).retireLane c.x c.args c.gov c.need) ∧
        ∀ j ∈ c.g, f j = ⟨⟨BitVec.ofNat 32 ((quantise (MxTy.fk t) (MxTy.emax t) ((block j).map value)).2 (value j) +
            256 * (quantise (MxTy.fk t) (MxTy.emax t) ((block j).map value)).1), (block j).any (fun i => (w.a i).poison)⟩, ⟨0, false⟩⟩)

/-! ## Traps, events and the debug block (spec/04, spec/11, spec/17) -/

/-- 04 R97, R92: a trap that a team takes in user mode records CODE and EVT in TCAUSE, the address in TADDR and the resume
address in TPC, saves k0 in TK0, ends its run, sets SUP and goes to TVEC, with the cause's SUB and TCODE and the kind of
access in TDETAIL; a scalar cause takes zero in TLPC, RUNLEFT, CHPOS and TLANE and leaves TSTAT.LANE clear. For a lane
cause k0 takes the faulting lanes, TLPC names the instruction, or the first of its chain, RUNLEFT the instructions from
there on, TLANE the lowest lane, CHPOS and INCHAIN its place in a chain, and TSTAT.LANE is set. Nothing else that the
team holds changes but its latches. -/
def Obligations.TrapEntrySavesAndEnters : Prop :=
  ∀ (s : State) (x : Team) (t : Trap) (pc : DWord) (inChain : Bool), s.team? x.id = some x →
    (x.sc.sup = false ∨ t.cause = .step ∨ ∃ l, t.cause = .bkpt l) → t.cause ≠ .poison → t.cause ≠ .shadow →
    (∃ y, (s.takeTrap (.team x.id) t pc).team? x.id = some y ∧ y.sc.tcause.toNat % 256 = t.cause.code ∧
      y.sc.tcause.getLsbD 8 = t.cause.isEvent ∧ y.sc.taddr = t.addr ∧ y.sc.tpc = pc ∧ y.sc.pc = x.sc.tvec ∧ y.sc.sup = true ∧
      y.tk0 = x.k 0 ∧ y.k 0 = 0 ∧ (∀ i, i ≠ 0 → y.k i = x.k i) ∧ y.kv = x.kv ∧ y.runLeft = 0 ∧ y.latches = [] ∧
      y.vregs = x.vregs ∧ y.sc.regs = x.sc.regs ∧ y.sc.fmt = x.sc.fmt ∧ y.sc.handles = x.sc.handles ∧
      y.sc.tdetail.toNat = t.cause.sub % 128 * 2 ^ 8 + t.cause.tcode % 64 * 2 ^ 15 + t.acc % 4 * 2 ^ 21 ∧
      y.sc.laneBit = false ∧ y.tlpc = 0 ∧ y.tlane = 0) ∧
    (∃ y, (s.takeLaneTrap x.id t inChain).team? x.id = some y ∧ y.sc.tcause.toNat % 256 = t.cause.code ∧ y.sc.tpc = x.sc.pc ∧
      y.sc.pc = x.sc.tvec ∧ y.sc.sup = true ∧ y.tk0 = x.k 0 ∧ y.k 0 = t.lanes &&& x.full ∧
      y.tlpc = BitVec.ofNat 32 (if x.chainPos = 0 then x.lanePc else x.chainStart) ∧
      (t.acc ≠ 3 → ∀ j, j < 1024 → t.lanes.getLsbD j = true → (∀ i, i < j → t.lanes.getLsbD i = false) →
        y.tlane = BitVec.ofNat 32 j) ∧
      y.sc.tdetail.toNat % 2 ^ 23 = x.chainPos % 16 + (if inChain then 16 else 0) + t.cause.sub % 128 * 2 ^ 8 +
        t.cause.tcode % 64 * 2 ^ 15 + t.acc % 4 * 2 ^ 21 ∧
      y.sc.taddr = t.addr ∧ y.sc.laneBit = true ∧ y.sc.tcause.getLsbD 8 = t.cause.isEvent ∧
      (x.runLeft + x.chainPos < 512 → y.sc.runLeftField = x.runLeft + x.chainPos) ∧ y.runLeft = 0 ∧ y.vregs = x.vregs ∧
      y.sc.regs = x.sc.regs)

/-- 04 R98, 11 R251, R257: a trap in supervisor mode, but for a breakpoint or a step, kills the team's gang with the
registers as they stand; a consumed poison or a failed shadow check in user mode kills it with the registers written. -/
def Obligations.DoubleTrapsKill : Prop :=
  ∀ (s : State) (x : Team) (t : Trap) (pc : DWord), s.team? x.id = some x →
    (x.sc.sup = true → t.cause ≠ .step → (∀ l, t.cause ≠ .bkpt l) →
      s.takeTrap (.team x.id) t pc = s.kill [x.gang] [] true x.killRec) ∧
    (x.sc.sup = false → t.cause = .poison ∨ t.cause = .shadow → ∃ (u : State) (rec : KillRec),
      s.takeTrap (.team x.id) t pc = u.kill [x.gang] [] false rec ∧ u.gangs = s.gangs ∧ rec.gid = x.gid ∧ rec.teamno = x.id.teamno ∧
        rec.tcause.toNat = t.cause.code ∧ rec.tpc = pc ∧ rec.taddr = t.addr ∧ rec.tk0 = x.k 0)

/-- 04 R96, R97, 07 R176: a placed team in user mode that no stop acts on and that has no access outstanding takes its
pending event at an instruction boundary outside a chain, or while an XSWAP waits, which it withdraws: it enters the
handler with the event's code and EVT set, and the event is no longer pending. That TLPC and RUNLEFT then record the
interrupted run, for which R97 gives no rule at an event, is the model's reading (notes/assumptions/25). 04 R99, 05
R106: where nothing of a run is left, RFT takes the stop that was kept for the run's end, at the address that it
returns to, which is the model's reading (notes/assumptions/104). 05 R125, 08 R187, R204, 13 R283, R289, R292, R303: a
stream that waits issues its waiting instruction again once what it waits for has come: a SLEEP's cycles have passed,
its operation has ended, its shard has a record or its bin is closed, the bin store has room, its bank or accumulator
is in the phase it needs. -/
def Obligations.EventsAndWaitsEnd : Prop :=
  (∀ (s : State) (x : Team) (c : Cause), s.team? x.id = some x → x.place.isSome = true → x.event? = some c → x.sc.sup = false →
      x.chainPos = 0 ∨ x.sc.wait = some .xswap → x.sc.accs = [] → x.sc.debugStopped = false → s.stopping (.team x.id) = false →
      let left := x.runLeft + x.chainPos
      ∃ t y, exec (.eventEntry x.id) s = .next t ∧ t.team? x.id = some y ∧ y.sc.tcause.toNat = 256 + c.code ∧ y.sc.tpc = x.sc.pc ∧
        y.sc.pc = x.sc.tvec ∧ y.sc.sup = true ∧ y.sc.wait = none ∧ y.xarr = none ∧
        y.tlpc = BitVec.ofNat 32 (if x.chainPos = 0 then x.lanePc else x.chainStart) ∧
        (left < 512 → y.sc.runLeftField = left) ∧ y.runLeft = 0 ∧
        (x.eventVersion.isSome = true → y.eventVersion = none ∧ y.eventDirty = x.eventDirty) ∧
        (x.eventVersion = none → y.eventDirty = false)) ∧
  (∀ (s : State) (x : Team) (k : PendTrap), TeamIssues s x → x.sc.sup = true → x.pendTrap = some k → x.sc.runLeftField = 0 →
    x.runLeft = 0 → x.chainPos = 0 → x.sc.accs = [] →
    ∃ t y, exec .rft s = .next t ∧ t.team? x.id = some y ∧ y.sc.sup = true ∧ y.pendTrap = none ∧ y.sc.pc = x.sc.tvec ∧
      y.sc.tpc = x.sc.tpc &&& ~~~3 ∧ (∀ l, k = .bkpt l → y.sc.tcause = (Cause.bkpt l).tcauseWord) ∧
      (k = .step → y.sc.tcause = Cause.step.tcauseWord)) ∧
  (∀ (s : State) (x : Team), s.team? x.id = some x → s.stopping (.team x.id) = false →
      let st := StreamId.team x.id
      let again : State := { s.mapScalar st (fun sc => { sc with wait := none }) with cur := some st }
      let reissues := fun (e i : Instr) => s.scalarInstrAt st = some i → ∃ t, exec e s = .next t ∧ exec i again = .next t
      (∀ till, x.sc.wait = some (.sleep till) →
        (till ≤ s.clock → exec (.sleepEnd st) s = .next (s.mapScalar st (fun sc => { sc with wait := none }))) ∧
        (s.clock < till → exec (.sleepEnd st) s = .next s)) ∧
      (∀ h a c n, (x.sc.handle h).st ≠ .running →
        (x.sc.wait = some (.hwait h) → reissues (.hwaitReturn x.id) (.hwait h)) ∧
        (x.sc.wait = some (.command h) → reissues (.hwaitReturn x.id) (.xcopy h a c n) ∧ reissues (.hwaitReturn x.id) (.xfill h a c n) ∧
          reissues (.hwaitReturn x.id) (.xgath h a) ∧ reissues (.hwaitReturn x.id) (.swbuild h a))) ∧
      (∀ d r l e h, x.sc.wait = some .refillW → s.entryOf x = some e → s.launch? x.launch = some l →
        s.shard? x.launch e.bin x.die = some h → (h.recs ≠ [] ∨ ∃ b, l.bins[e.bin]? = some b ∧ b.closed = true) →
        reissues (.refillWTake x.id) (.refillW d r)) ∧
      (∀ d a, x.sc.wait = some .spawn → s.storeUsed x.die < 2 ^ 24 → reissues (.spawnAppend (.team x.id)) (.spawn d a)) ∧
      (∀ a c, x.sc.wait = some .phase →
        let enters := fun (i : Instr) => s.laneInstrAt x = some (i, c) → phaseReady s x i (controlWord x c.args (x.chainReads.getD [])) = true →
          ∃ t, exec (.bankPhasePerform x.id) s = .next t ∧ exec i again = .next t
        enters (.mfeedA a) ∧ enters (.mfeedB a) ∧ enters (.mdrain a)) ∧
      (∀ ws i c rest, x.sc.wait = some .chainPhase → x.chainReads = some ws → s.laneInstrAt x = some (i, c) →
        (State.chainFrom c.ag c.e (x.runLeft - 1) (x.lanePc + laneWordCount c.args) s).2 = some rest → chainReady s x (i :: rest) ws = true →
        exec (.chainPhaseStart x.id) s = .next (s.mapScalar st (fun sc => { sc with wait := none }))))

/-- 17 R375–R378: DCMD stops, resumes and steps the team that the debug block names, when it is on the core; a stall
sample that is due falls due again after its interval. A stop while HOLD is clear stops the team by the model's
reading (notes/assumptions/47). 12 R261, R262, 15 R332, 17 R376, 18 R382, R383: a host write to a register changes
what the register holds: FWACC, QTBASE and ASIDBASE only in INIT, MBARG by eight bytes, a debug block in its writable
bits; a write to an unlisted offset has no effect. That a host write is of a whole register, and MBARG is written by
eight bytes, is the model's reading (notes/assumptions/63). -/
def Obligations.DebugAndRegisterWrites : Prop :=
  (∀ (s : State) (core : Nat), smWf CoreState.reset s.cores = true →
      let d := (s.core core).dbg
      (∀ x p, s.team? ⟨d.dasid, d.dteam⟩ = some x → x.place = some p → p.core = core →
        (x.sc.debugStopped = false → x.chainPos = 0 → ∃ t y, exec (.dcmdStop core) s = .next t ∧
          t.team? x.id = some y ∧ y.sc.debugStopped = true ∧ y.sc.stepping = false ∧ y.sc.wait = none ∧ y.sc.pc = x.sc.pc) ∧
        (∃ t y, exec (.dcmdResume core) s = .next t ∧ t.team? x.id = some y ∧ y.sc.debugStopped = false ∧ y.sc.pc = x.sc.pc) ∧
        (x.sc.debugStopped = true → d.dctl.getLsbD 0 = true ∨ d.dctl.getLsbD 2 = true → ∃ t y, exec (.dcmdStep core) s = .next t ∧
          t.team? x.id = some y ∧ y.sc.debugStopped = false ∧ y.sc.stepping = true)) ∧
      (d.smpl.getLsbD 0 = true → (s.core core).nextSample ≤ s.clock → ∃ t, exec (.stallSample core) s = .next t ∧ t.teams = s.teams ∧
        (t.core core).nextSample = (s.core core).nextSample + 2 ^ (8 + d.smpl.toNat / 2 % 16))) ∧
  (∀ (s : State) (v : DWord), smWf CoreState.reset s.cores = true →
      (s.mstate = 0 →
        (∀ i : Fin 4, ∃ t, exec (.registerWrite .cxlIo (0x10 + 4 * i.val) v) s = .next t ∧
          t.fwacc.get i = v.setWidth 32 &&& s.fw.get i ∧ ∀ j, j ≠ i → t.fwacc.get j = s.fwacc.get j) ∧
        exec (.registerWrite .cxlIo 0x20 v) s = .next { s with qtbase := v &&& ~~~0xFFFF } ∧
        exec (.registerWrite .cxlIo 0x28 v) s = .next { s with qtsize := v.setWidth 32 } ∧
        exec (.registerWrite .cxlIo 0x40 v) s = .next { s with asidbase := v &&& ~~~0xFFF }) ∧
      (s.mstate ≠ 0 → ∀ off, off ≠ 0x30 → exec (.registerWrite .cxlIo off v) s = .next s) ∧
      (∀ k, k < 6 → ∃ t, exec (.registerWrite .mgmt (0x10 + 8 * k) v) s = .next t ∧ ∀ i : Fin 48,
        t.mbarg.get i = if i.val / 8 = k then v.extractLsb' (8 * (i.val % 8)) 8 else s.mbarg.get i) ∧
      (∀ core, core < 216 →
        let writes := fun (off : Nat) (holds : Debug → Prop) =>
          ∃ t, exec (.registerWrite .mgmt (0x100000 + 128 * core + off) v) s = .next t ∧ holds (t.core core).dbg
        writes 0x00 (fun d => d.dctl = v.setWidth 32 &&& 7) ∧ writes 0x08 (fun d => d.dteam = v.setWidth 32) ∧
        (∀ i : Fin 4, writes (0x10 + 16 * i.val) (fun d => d.bp.get i = v) ∧
          writes (0x18 + 16 * i.val) (fun d => d.bpc.get i = v.setWidth 32 &&& 0xFFFFFFF7)) ∧
        writes 0x50 (fun d => d.trbase = v &&& ~~~31) ∧ writes 0x58 (fun d => d.trlen = v.setWidth 32) ∧
        writes 0x64 (fun d => d.smpl = v.setWidth 32 &&& 0x1F) ∧ writes 0x68 (fun d => d.dasid = v.setWidth 8)) ∧
      (∀ off, 0x200 ≤ off → off < 0x100000 → exec (.registerWrite .mgmt off v) s = .next s))

/-- 18 R381, R385, 16 R344, R359: a module reset keeps device memory and the fuses and ends every stream, launch, queue
and operation. When bring-up completes, flash records without a commit word are dropped; when a step fails, BSTATE
reports it, the ports stay down and the records stay; an IOD image that is not verified is not started. That device
memory is kept, and what a failed bring-up leaves, is the model's choice (notes/assumptions/64, 94, 116). -/
def Obligations.ModuleResetKeepsDeviceMemory : Prop :=
  ∀ (s : State), ∃ t, exec .moduleReset s = .next t ∧ t.mem = s.mem ∧ t.poison = s.poison ∧ t.signedSeq = s.signedSeq ∧
    t.teams = [] ∧ t.groups = [] ∧ t.launches = [] ∧ t.queues = [] ∧ t.ops = [] ∧ t.gangs = [] ∧ t.tlb = [] ∧ t.mstate = 0 ∧
    (∀ i, t.fwacc.get i = 0) ∧
    (t.up = true → t.bstate = 7 ∧ t.flash = s.flash.filter (·.committed)) ∧
    (t.up = false → 1 ≤ t.bstate ∧ t.bstate ≤ 7 ∧ (∀ i, t.ports.get i = false) ∧ t.flash = s.flash) ∧
    (Config.signatureValid s.firmware.iod = false → s.firmware.iodNew = none → t.up = false ∧ t.bstate = 1 ∧ t.firmware.iodRuns = []) ∧
    ∀ i : Fin 6, (t.coreMaps.get i).harvest = (s.coreMaps.get i).harvest ∧ (t.coreMaps.get i).retire = (s.coreMaps.get i).retire

/-! ## Queues, packets and launches (spec/12, spec/14, spec/16) -/

/-- 12 R261, R272: a QCMD register command copies the descriptor of a free queue number into the queue table with the head
count that HEADA holds and leaves INIT; deregister removes an IDLE or FAULTED queue, whose number stays taken while a
launch of it runs, and starts to unmap a MAPPED one; clear fault ends a fault and holds processing; a refused command
leaves its code in QSTAT, and one that comes while another runs is ignored. That a command is done in the step that
takes it, and what clear fault makes of the code, is the model's choice (notes/assumptions/52, 55, 56), and so is a
registration that waits for a leaf in migration (notes/assumptions/57, 111). 12 R260, R263, R270, R272–R274: the IOD
reads a mapped queue's tail again once its line has been invalidated, keeps what it reads, and faults the queue when
the tail does not translate or moves out of range; a signal-mapped queue that has been idle for its time-out is
unmapped, and loses its slot when its state is saved, as does a run-list queue whose process's turn has ended; the end
of a turn unmaps the process's queues. When a tail is read, what a saved descriptor's state area holds, and the order
of the run list, are the model's (notes/assumptions/48, 53, 54). -/
def Obligations.QueueCommandsAndWatching : Prop :=
  (∀ (s : State) (n : Half),
      (s.qstat.getLsbD 0 = true → exec (.qcmdDeregister n) s = .next s ∧ exec (.qcmdClearFault n) s = .next s ∧
        (s.qcmdDue = none → exec (.qcmdRegister n) s = .next s)) ∧
      (s.qstat.getLsbD 0 = false → s.qcmdDue = none →
        let z : State := { s with migrating := false }
        let v := if s.descReadable n.toNat then z.devTouch (s.descPa n.toNat) 64 false else z
        let bs := v.mem.readBytes (s.descPa n.toNat) 64
        let q := queueOf n.toNat (s.descPa n.toNat) bs v.clock
        let reads := v.registerReads q
        (∀ c, v.registerRefusal n.toNat bs q = some c → ∃ t, exec (.qcmdRegister n) s = .next t ∧
          t.qstat = BitVec.ofNat 32 (256 * c + if c = 0 then 0 else 2) ∧ t.queues = s.queues) ∧
        (v.registerRefusal n.toNat bs q = none →
          (∀ tail head, reads.2 = some (tail, head) → ∃ t x, exec (.qcmdRegister n) s = .next t ∧ t.queue? n.toNat = some x ∧
            x.ring = q.ring ∧ x.asid = q.asid ∧ x.taila = q.taila ∧ x.heada = q.heada ∧ x.tailPa = tail ∧
            x.read = BitVec.ofNat 64 head ∧ x.tail = BitVec.ofNat 64 head ∧ (x.signal = true → x.st = .idle) ∧ t.mstate = 1 ∧ t.qstat = 0) ∧
          (reads.2 = none → reads.1.migrating = false → ∃ t, exec (.qcmdRegister n) s = .next t ∧ t.qstat = 0x902 ∧ t.queues = s.queues) ∧
          (reads.2 = none → reads.1.migrating = true → ∃ t, exec (.qcmdRegister n) s = .next t ∧ t.qstat = 1 ∧ t.qcmdDue = some n.toNat ∧
            t.queues = s.queues))) ∧
      (s.qstat.getLsbD 0 = false →
        (∀ x, s.up = true → n.toNat < s.qtsize.toNat → s.queue? n.toNat = some x →
          (x.dereg = false → x.st = .idle ∨ x.st = .faulted → ∃ t, exec (.qcmdDeregister n) s = .next t ∧
            t.queue? n.toNat = none ∧ t.qstat = 0 ∧
            (∀ l ∈ s.launches, l.queue = n.toNat → l.lstate = .running → t.departing n.toNat = true)) ∧
          (x.dereg = false → x.st = .mapped → ∃ t y, exec (.qcmdDeregister n) s = .next t ∧ t.queue? n.toNat = some y ∧
            y.st = .unmapping ∧ y.dereg = true ∧ t.qstat = 0) ∧
          (x.st = .faulted → x.signal = true → ∃ t y, exec (.qcmdClearFault n) s = .next t ∧ t.queue? n.toNat = some y ∧
            y.st = .idle ∧ y.code = 0 ∧ y.stall = true ∧ t.qstat = 0)) ∧
        (s.up = true → s.qtsize.toNat ≤ n.toNat → ∃ t, exec (.qcmdClearFault n) s = .next t ∧ t.qstat = 0x602))) ∧
  (∀ (s u : State) (q : Queue), s.queue? q.num = some q →
      (q.st = .mapped → q.dereg = false →
        (q.tailNew = false → exec (.tailReread q.num) s = .next s) ∧
        (q.tailNew = true →
          let z : State := { s with migrating := false }
          (∀ bs, z.iodRead q.asid q.taila 8 = (u, some bs) →
            let v := natOfBytes bs
            let moved := ∃ t x, exec (.tailReread q.num) s = .next t ∧ t.queue? q.num = some x ∧ x.st = .mapped ∧ x.read = q.read ∧
              x.tail = BitVec.ofNat 64 v ∧ x.lastChange = u.clock ∧ x.stall = false ∧ x.tailNew = false
            let faults := ∃ t x, exec (.tailReread q.num) s = .next t ∧ t.queue? q.num = some x ∧ x.st = .faulted ∧ x.code = 2
            (q.read.toNat ≤ v → v ≤ q.head + 2 ^ q.log2sz → moved) ∧ (v < q.read.toNat ∨ q.head + 2 ^ q.log2sz < v → faults)) ∧
          (z.iodRead q.asid q.taila 8 = (u, none) →
            (u.migrating = false → ∃ t x, exec (.tailReread q.num) s = .next t ∧ t.queue? q.num = some x ∧ x.st = .faulted ∧ x.code = 7) ∧
            (u.migrating = true → exec (.tailReread q.num) s = .next s)))) ∧
      (q.signal = true → q.st = .mapped → q.read = q.tail → q.cur = none → q.ibs = [] →
        q.lastChange + (if q.timeout = 0 then 2000 else q.timeout) * Config.cyclesPerUs ≤ s.clock →
        ∃ t x, exec (.queueIdleTimeout q.num) s = .next t ∧ t.queue? q.num = some x ∧ x.st = .unmapping) ∧
      (q.dereg = true → ∃ t, exec (.queueUnmapComplete q.num) s = .next t ∧ t.queue? q.num = none) ∧
      (q.dereg = false → q.signal = true → q.st = .unmapping → q.order = none →
        ∃ t x, exec (.queueUnmapComplete q.num) s = .next t ∧ t.queue? q.num = some x ∧ x.st = .idle ∧ x.pend = false) ∧
      (∀ r, q.dereg = false → q.signal = false → q.st = .unmapping → s.turnNext = some r → r ∈ s.processes → r ≠ q.proc →
        ∃ t x, exec (.queueUnmapComplete q.num) s = .next t ∧ t.queue? q.num = some x ∧ x.st = .idle) ∧
      (∀ r, q.signal = false → q.st = .mapped → s.turnProc = some q.proc → nextProcess q.proc s.processes = some r → r ≠ q.proc →
        s.turnNext = none → s.supply = .on → s.turnStart + s.quantumOf q.proc ≤ s.clock → s.collections = [] →
        ∃ t x, exec .runListTurnEnd s = .next t ∧ t.queue? q.num = some x ∧ x.st = .unmapping ∧ t.turnNext = some r))

/-- 12 R264–R270, R278: the next packet of a mapped queue starts when its form is valid and nothing holds it: NOP at once,
LAUNCH when its record is accepted, IB_CALL by entering its buffer, WAIT_VALUE and BARRIER_AND when their conditions
hold, WRITE_VALUE by its write; a refused launch, a fifth nested call and a barrier packet that is not offered fault
the queue with their codes; a packet whose accesses meet a leaf in migration waits (15 R327; notes/assumptions/111).
02 R48, R49, 12 R279: a launch completes when its bins are closed, nothing is left to start, its leaf controllers have
reported, and no team, running operation, matrix group or uncommitted gang of it is left; nothing of it stays then.
While the leaf of its status or its completion address is in migration it waits (15 R327; notes/assumptions/111). -/
def Obligations.PacketsStartAndComplete : Prop :=
  (∀ (s u : State) (q : Queue) (pos : DWord) (bs : List Byte), s.queue? q.num = some q → q.st = .mapped → q.stall = false →
      s.supply = .on → ({ s with migrating := false } : State).nextPacket q = (u, some (.ok (pos, bs))) → packetBad bs = false →
      u.barrierHolds q.num bs = false →
      let type := natOfBytes (bs.take 1)
      let field := fun (o n : Nat) => natOfBytes ((bs.drop o).take n)
      let wide := if (natOfBytes (bs.take 4)).testBit 11 then 8 else 4
      let starts := fun (i : Instr) (w : State) => let t := w.packetStarted q.num; exec i s = .next (if t.migrating then s else t)
      let faults := fun (i : Instr) (c : Nat) => ∃ t x, exec i s = .next t ∧ t.queue? q.num = some x ∧ x.st = .faulted ∧
        x.code = c ∧ x.fpos = pos
      (type = 1 → starts (.nopPacket q.num) u ∧ (q.ibs = [] → q.cur = none → ∃ x, (u.packetStarted q.num).queue? q.num = some x ∧
        x.read = q.read + 1 ∧ x.cur = none ∧ x.ibs = [])) ∧
      (type = 2 →
        let record := u.readLaunch q pos (BitVec.ofNat 64 (field 8 8)) (BitVec.ofNat 64 (field 0x10 8)) (BitVec.ofNat 64 (field 0x18 8))
        (∀ w l recs, record = .ok w l recs → ((w.acceptLaunch l recs).packetStarted q.num).migrating = false → ∃ t y, exec (.launch q.num) s = .next t ∧ y ∈ t.launches ∧ y.id = l.id ∧
          y.lstate = .running ∧ y.caddr = BitVec.ofNat 64 (field 0x10 8) ∧ y.cval = BitVec.ofNat 64 (field 0x18 8) ∧
          t.nextLaunch = l.id + 1) ∧
        (∀ w c, record = .refused w c → w.migrating = false → faults (.launch q.num) c)) ∧
      (type = 3 →
        (4 ≤ q.ibs.length → faults (.ibCall q.num) 3) ∧
        (q.ibs = [] → ∃ t x, exec (.ibCall q.num) s = .next t ∧ t.queue? q.num = some x ∧ x.cur = none ∧
          x.ibs = [⟨BitVec.ofNat 64 (field 8 8), field 0x10 8, 0⟩])) ∧
      (type = 4 → ∀ i ∈ (if q.cur.isSome then [.waitValue q.num, .waitReread q.num] else [.waitValue q.num] : List Instr),
        (∀ w m, u.iodRead q.asid (BitVec.ofNat 64 (field 8 8)) wide = (w, some m) →
          let a := natOfBytes m &&& field 0x18 wide
          let b := field 0x10 wide
          let c := natOfBytes (bs.take 4) / 512 % 4
          let holds := (c = 0 ∧ a = b) ∨ (c = 1 ∧ a ≠ b) ∨ (c = 2 ∧ b ≤ a) ∨ (c = 3 ∧ a < b)
          (holds → starts i w) ∧ (¬holds → exec i s = .next w)) ∧
        (∀ w, u.iodRead q.asid (BitVec.ofNat 64 (field 8 8)) wide = (w, none) →
          (w.migrating = false → faults i 7) ∧ (w.migrating = true → exec i s = .next s))) ∧
      (type = 5 →
        (∀ w, u.iodWrite q.asid (BitVec.ofNat 64 (field 8 8)) ((bs.drop 0x10).take wide) = (w, true) → starts (.writeValue q.num) w) ∧
        (∀ w, u.iodWrite q.asid (BitVec.ofNat 64 (field 8 8)) ((bs.drop 0x10).take wide) = (w, false) →
          (w.migrating = false → faults (.writeValue q.num) 7) ∧ (w.migrating = true → exec (.writeValue q.num) s = .next s))) ∧
      (type = 6 →
        (u.feature 9 = false → faults (.barrierAnd q.num) 4) ∧
        (u.feature 9 = true → field 8 8 ≠ 0 → field 0x18 8 = 0 → field 0x28 8 = 0 → ∀ w m,
          u.iodRead q.asid (BitVec.ofNat 64 (field 8 8)) 8 = (w, some m) →
          (field 0x10 8 ≤ natOfBytes m → starts (.barrierAnd q.num) w) ∧ (natOfBytes m < field 0x10 8 → exec (.barrierAnd q.num) s = .next w)))) ∧
  (∀ (s : State) (l : Launch), s.launch? l.id = some l → l.lstate = .running → (∀ b ∈ l.bins, b.closed = true) →
      (∀ h ∈ s.shards, h.launch = l.id → h.recs = []) → (∀ x ∈ s.teams, x.launch ≠ l.id) → (∀ o ∈ s.ops, o.launch ≠ l.id) →
      (∀ g ∈ s.groups, g.launch ≠ l.id) → (∀ g ∈ s.gangs, g.launch ≠ l.id) →
      (∀ k ∈ s.links, LinkMsg.lnote l.id ∉ k.down ++ k.downWait ∧ LinkMsg.done l.id ∉ k.up ++ k.upWait) →
      let ends := State.completeLaunch { s with migrating := false } l.id l
      (ends.migrating = true → exec (.launchCompletion l.id) s = .next s) ∧
      (ends.migrating = false → ∃ t y, exec (.launchCompletion l.id) s = .next t ∧ t.launch? l.id = some y ∧ y.lstate = .complete ∧
        (∀ h ∈ t.shards, h.launch ≠ l.id) ∧ (∀ b ∈ t.barriers, b.launch ≠ l.id) ∧ (∀ d ∈ t.dscratch, d.launch ≠ l.id)))

/-- 16 R361, 14 R311, R319–R322: the oldest message of a command link is taken and acted on: LNOTE notes a leaf
controller, PREQ tells its units to stop, PACK counts a cluster's answer, the last RESUME lets a launch go on, EFAULT
and DONE are reports to the IOD, and MAPCHG is a core-map change. 14 R320, R324: a unit that has been told to stop
acknowledges at its boundary, once its accesses have performed, its waiting instruction withdrawn; the team that was
pre-empted first is placed with its group where a place for it is found. What is withdrawn at a stop, and where a
saved team stands meanwhile, are the model's (notes/assumptions/45, 58, 85). -/
def Obligations.LinkMessagesAndPlacement : Prop :=
  (∀ (s : State) (cl : Nat) (k : CmdLink) (m : LinkMsg) (ms : List LinkMsg), s.link cl = k → k.cl = cl →
      (k.down = m :: ms → k.downWait = [] →
        (∀ l x, m = .lnote l → s.launch? l = some x → ∃ t y, exec (.lnote cl) s = .next t ∧ (t.link cl).down = ms ∧
          t.launch? l = some y ∧ cl ∈ y.noted) ∧
        (∀ c u v, m = .preq c.id → s.collections = [c] → u ∈ c.members → s.unitCluster u = some cl → v ∈ c.units → s.unitLive v = true →
          ∃ t, exec (.preq cl) s = .next t ∧ (t.link cl).down = ms ∧ t.stopping u = true) ∧
        (∀ l x, m = .resume l → s.launch? l = some x → s.collections = [] →
          (∀ j ∈ s.links, j.cl ≠ cl → LinkMsg.resume l ∉ j.down ++ j.downWait) → LinkMsg.resume l ∉ ms →
          ∃ t y, exec (.resume cl) s = .next t ∧ (t.link cl).down = ms ∧ t.launch? l = some y ∧ y.preempted = false) ∧
        (∀ d, m = .mapchg d → ∃ t, exec (.mapchg cl) s = .next t ∧ (t.link cl).down = ms)) ∧
      (k.up = m :: ms → k.upWait = [] →
        (∀ c v, m = .pack c.id → s.collections = [c] → v ∈ c.units → s.unitLive v = true → s.unitCluster v ≠ some cl →
          (∀ u ∈ c.units, s.unitCluster u ≠ some cl) → LinkMsg.preq c.id ∉ k.down ++ k.downWait →
          ∃ t d, exec (.pack cl) s = .next t ∧ t.collections = [d] ∧ cl ∈ d.packed) ∧
        (∀ o, m = .efault o → ∃ t, exec (.efault cl) s = .next t ∧ (t.link cl).up = ms ∧ t.ops = s.ops) ∧
        (∀ l x, m = .done l → s.launch? l = some x → ∃ t y, exec (.done cl) s = .next t ∧ (t.link cl).up = ms ∧
          t.launch? l = some y ∧ y.doneSeen = x.doneSeen + 1))) ∧
  ((∀ (s : State) (x : Team) (c : Collection) (v : UnitId), s.team? x.id = some x → s.collections = [c] →
      c.units = [.team x.id, v] → v ≠ .team x.id → s.unitLive v = true → UnitId.team x.id ∈ c.told →
      (x.chainPos = 0 ∨ x.sc.wait = some .xswap) → x.sc.accs = [] →
      x.place.isSome = true →
      ∃ t y d, exec (.unitPreemptAck (.team x.id)) s = .next t ∧ t.team? x.id = some y ∧ y.sc.wait = none ∧ y.sc.pc = x.sc.pc ∧
        y.chainPos = 0 ∧ t.collections = [d] ∧ d.units = [v]) ∧
    (∀ (s : State) (x : Team) (l : Launch) (p : Placing) (core : Nat), s.saveOrder = [.team x.id] → s.team? x.id = some x →
      x.place = none → s.launch? x.launch = some l → s.mayPlace l = true → s.waitingGroup (.team x.id) = ([x], []) →
      (l.entries[x.entry]?).isSome = true → s.pickPlacing ((s.placings x.die [x] []).filter (s.placingFits x.die)) = some p →
      p = ⟨[(x.id, core)], [], [], [(x.left, core)]⟩ →
      ∃ t y slot, exec (.preemptedTeamPlacement x.die) s = .next t ∧ t.team? x.id = some y ∧ y.place = some ⟨core, slot⟩ ∧
        y.savedOn = none ∧ t.saveOrder = []))

/-- 02 R36, R44–R46, 13 R282, 14 R312–R314, R317: a start that its shard calls for starts a team on the core that is
picked, with the shard's first records in v0–v3 of its first lanes, those lanes in k0, the others zero and in kv, s1
the argument pointer, s2 the number of records taken and everything else as R46 says; a neighbourhood starts one team
for each entry, on the cores of its rectangle and in one gang; the first group that waits for a rectangle of a die, a
start or a resume, gets one reserved after 1 ms; a shard's timer expires with a record present; every 256 cycles the
predictor marks in each group of a core the team with the lowest count, a tie going to the lower slot, with what it is
behind the highest count, and at other times it does nothing. The slot of a team, what a reservation waits for and how
instructions are counted are the model's (notes/assumptions/59, 107, 113). -/
def Obligations.TeamsAndNeighbourhoodsStart : Prop :=
  (∀ (s : State) (h : Shard) (l : Launch) (e : Entry) (core : Nat), s.shard? h.launch h.bin h.die = some h →
    s.startFor h = some (l, e, core) → (∀ x ∈ s.shards, x.die = h.die → h.ready.getD 0 ≤ x.ready.getD 0) →
    (∀ r ∈ h.recs, r.tag = none) → (∀ b, l.bins[h.bin]? = some b → b.closeTag = none) → l.id = h.launch →
    e.bin = h.bin → core / 36 = h.die → e.n ≤ 32 →
    let recs := h.recs.take (32 * e.n)
    ∃ t x g, exec (.teamStart h.launch h.bin h.die) s = .next t ∧ t.teams = s.teams ++ [x] ∧ x.launch = l.id ∧ x.entry = h.rot ∧
      (∃ slot, x.place = some ⟨core, slot⟩) ∧ x.nw = e.n ∧ x.role = e.role ∧ x.startRecs = recs ∧
      (∀ j r, recs[j]? = some r → x.v 0 j = PWord.clean r.w0 ∧ x.v 1 j = PWord.clean r.w1 ∧ x.v 2 j = PWord.clean r.w2 ∧
        x.v 3 j = PWord.clean r.w3) ∧
      (∀ n j, j < 1024 → 4 ≤ n ∨ recs.length ≤ j → x.v n j = PWord.zero) ∧
      (∀ j, (x.k 0).getLsbD j = decide (j < recs.length) ∧ x.kv.getLsbD j = decide (recs.length ≤ j ∧ j < 32 * e.n)) ∧
      (∀ i, i ≠ 0 → x.k i = 0) ∧ x.latches = [] ∧ x.lanePc = e.lentry ∧
      x.sc.pc = e.sbase + BitVec.ofNat 64 e.sentry ∧ x.sc.sup = false ∧ x.sc.fmt = e.fmt ∧
      x.sc.handles = Vector.replicate 16 Handle.idle ∧ x.sc.reg 1 = ⟨e.arg, false⟩ ∧
      x.sc.reg 2 = ⟨BitVec.ofNat 32 recs.length, false⟩ ∧ (∀ i, i ≠ 1 → i ≠ 2 → x.sc.reg i = PWord.zero) ∧
      t.shard? h.launch h.bin h.die = some g ∧ g.recs = h.recs.drop (32 * e.n)) ∧
  (∀ (s : State) (l : Launch) (die : Nat) (h : Shard) (rect : List Nat), s.launch? l.id = some l → s.leadReady l die = some h →
    s.pickRectangle (s.candidates l die) = some rect → l.nb = true → s.startsOpen l = true → s.placementWaits die = false →
    (s.nbhdsOn l die).length < l.nbq → (∀ x ∈ s.shards, ∀ r ∈ x.recs, r.tag = none) → (∀ b ∈ l.bins, b.closeTag = none) →
    ∃ t new, exec (.neighbourhoodStart l.id die) s = .next t ∧ t.teams = s.teams ++ new ∧
      new.map (·.entry) = List.range l.entries.length ∧ (∀ x ∈ new, x.launch = l.id ∧ x.gang = ⟨l.asid, s.newGid.1⟩) ∧
      new.map (fun x => x.place.map (·.core)) = (l.teamCores rect).map some ∧
      t.reservations = s.reservations.filter (fun r => !(r.who = .start l.id && r.die = die))) ∧
  (∀ (s : State) (l : Launch) (die : Nat) (w : RectWait) (r : List Nat), s.launch? l.id = some l →
    s.waitingNb.find? (fun w => w.die = die) = some w → w.launch = l.id → s.lackRects.any w.same = true →
    w.since + 1000 * Config.cyclesPerUs ≤ s.clock → (∀ x ∈ s.reservations, x.die ≠ die) →
    s.pickRectangle (s.usableRects l die) = some r →
    exec (.neighbourhoodReservation l.id die) s = .next { s with reservations := s.reservations ++ [⟨die, w.who, l.id, r⟩] }) ∧
  (∀ (s : State) (h : Shard) (l : Launch) (till : Nat), s.shard? h.launch h.bin h.die = some h → s.launch? h.launch = some l →
    h.frozen = none → h.timer = some till → till ≤ s.clock → h.recs ≠ [] →
    ∃ t g, exec (.shardTimerExpiry h.launch h.bin h.die) s = .next t ∧ t.shard? h.launch h.bin h.die = some g ∧ g.expired = true ∧
      g.timer = none ∧ g.recs = h.recs) ∧
  (∀ (s : State) (core : Nat), smWf CoreState.reset s.cores = true →
    let marks := fun (g : List (Team × Nat)) (m : TeamId × Nat) =>
      ∃ p ∈ g, m.1 = p.1.id ∧ (∀ q ∈ g, p.2 < q.2 ∨ (p.2 = q.2 ∧ p.1.slot ≤ q.1.slot)) ∧
        ∃ top ∈ g, (∀ q ∈ g, q.2 ≤ top.2) ∧ m.2 = top.2 - p.2
    (s.clock % 256 ≠ 0 → exec (.urgencyPredictorUpdate core) s = .next s) ∧
    (s.clock % 256 = 0 → ∃ t, exec (.urgencyPredictorUpdate core) s = .next t ∧ t.teams = s.teams ∧
      (∀ g ∈ s.groupsOn core, g ≠ [] → ∃ m ∈ (t.core core).slowest, marks g m) ∧
      ∀ m ∈ (t.core core).slowest, ∃ g ∈ s.groupsOn core, marks g m))

/-! ## Matrix groups, engines and Ballast (spec/08, spec/13, spec/15) -/

/-- 08 R178, R185–R189: a matrix group forms on a free cluster with its control core at the launch's entry, and ends when
its work is done; the head operation of an array core starts when its banks are FULL and its accumulator ARRAY, and
completes after its cycles, leaving the queue and releasing what its flags say. -/
def Obligations.MatrixGroupsAndOperationsRun : Prop :=
  (∀ (s : State) (l : Launch) (cl : Nat), s.launch? l.id = some l → s.canForm l cl = true →
    ∃ t g, exec (.matrixGroupForm l.id cl) s = .next t ∧ t.groups = s.groups ++ [g] ∧ g.cl = cl ∧ g.launch = l.id ∧
      g.sc.pc = l.ccsbase + BitVec.ofNat 64 l.ccentry ∧ g.sc.reg 1 = ⟨l.ccarg, false⟩ ∧ g.sc.reg 2 = ⟨BitVec.ofNat 32 cl, false⟩ ∧
      g.sc.fmt = l.ccfmt ∧ g.arrays.map (·.core) = (s.clusterCores cl).take l.arrays ∧ (∀ a ∈ g.arrays, a.queue = [])) ∧
  (∀ (s : State) (g : Group) (l : Launch), s.group? g.cl = some g → s.launch? g.launch = some l → s.groupDone g l = true →
    ∃ t, exec (.matrixGroupEnd g.cl) s = .next t ∧ t.group? g.cl = none) ∧
  (∀ (s : State) (cl ix : Nat) (g : Group) (a : ArrayState) (o : MxOp) (os : List MxOp), s.group? cl = some g → g.arrays[ix]? = some a →
    a.queue = o :: os →
    (g.placed = true → s.stopping (.ctrl cl) = false → o.started = none → (a.accOf o.acc).drain = false →
      (o.form = .mzero ∨ ((a.bank false o.abank).full = true ∧ (a.bank true o.bbank).full = true)) →
      ∃ t b, exec (.matrixOpStart cl ix) s = .next t ∧ t.arrayAt (cl, ix) = some b ∧
        b.queue = { o with started := some s.clock } :: os) ∧
    (∀ at_, (∀ l, s.launch? g.launch = some l → l.lstate = .running) → o.started = some at_ → at_ + (if o.form = .mzero then 4 else 32) ≤ s.clock →
      ∃ t b, exec (.matrixOpComplete cl ix) s = .next t ∧ t.arrayAt (cl, ix) = some b ∧ b.queue = os ∧
        (o.form = .mzero → ∀ e, (b.accOf o.acc).elem e = ⟨0, false⟩) ∧
        (o.form ≠ .mzero → (o.ra = true → (b.bank false o.abank).full = false) ∧ (o.rb = true → (b.bank true o.bbank).full = false) ∧
          (o.rc = true → (b.accOf o.acc).drain = true))))

/-- 08 R190–R193: the delivered accumulator element of a completed multiply is the sum that rounds once per block of 32 of
the products of its row and column, with the poison of its old value, row and column, where no array column has a
defect; an MMAS on a B bank with Z = 1 leaves it as it is. -/
def Obligations.MatrixProductsAreBlockSums : Prop :=
  ∀ (s : State) (cl ix : Nat) (g : Group) (a : ArrayState) (o : MxOp) (os : List MxOp) (at_ i n : Nat), s.group? cl = some g →
    g.arrays[ix]? = some a → a.queue = o :: os → o.started = some at_ → at_ + 32 ≤ s.clock → s.defects = [] → o.form ≠ .mzero →
    (∀ l, s.launch? g.launch = some l → l.lstate = .running) → i < 64 → n < 128 →
    let A := a.bank false o.abank
    let B := a.bank true o.bbank
    let old := (a.accOf o.acc).elem (128 * i + n)
    let terms := List.zipWith FV.mul (rowOf A o.fmt i) (columnOf B o.form o.fmt n)
    let round := fun (x b : Nat) => FK.sum .f32 ⟨o.mode, 0, false⟩ (FK.value .f32 x :: (terms.drop (32 * b)).take 32)
    ∃ t b, exec (.matrixOpComplete cl ix) s = .next t ∧ t.arrayAt (cl, ix) = some b ∧
      (o.form = .mmas → B.z = true → (b.accOf o.acc).elem (128 * i + n) = old) ∧
      ((o.form = .mmas → B.z = false) → (b.accOf o.acc).elem (128 * i + n) = ⟨BitVec.ofNat 32 ((List.range (if 2 ≤ o.fmt.toNat / 256 % 16 then 2 else 1)).foldl round
        old.val.toNat), old.poison || rowPoison A o.fmt i || columnPoison B o.form o.fmt n⟩)

/-- 13 R294, R295, R303: at its next turn a cancelled operation of any class ends as CANCELLED with SCAUSE 8; an operation
that has not read its descriptor reads it, and begins at its PROG, or stops with SCAUSE 6 when the descriptor is
refused and 5 when a word of it is poisoned. An operation whose final write has to wait ends, with the state and cause
that it was to end with, once that write performs, and goes on waiting until then. 15 R337, R338: a leaf controller
that finds a faulted address translated and permitted lets its operation go on, and so does one that maps a page of
the first-touch region; one that it cannot help, an entry of level 1 to 4 that is absent among them, stops with its
cause. An entry that another handler has locked is tried again, and the controller's accesses wait where a leaf is in
migration or a protected gang's version stands. When a fault is looked at is the model's choice (notes/assumptions/43). -/
def Obligations.OperationsReadDescriptorsAndEnd : Prop :=
  (∀ (s : State) (o : EngineOp) (l : Launch) (x : Team), s.op? o.id = some o → o.st = .running → s.stopping (.op o.id) = false →
      s.opGoes o = true → s.launch? o.launch = some l → s.team? o.id.team = some x →
      ∀ i ∈ (if o.cls = .xcopy ∨ o.cls = .xfill then [.copyLineRun o.id]
        else if o.cls = .xgath then [.gatherTile o.id, .gatherWrite o.id] else [.swardTile o.id, .spawnAppend (.op o.id)] : List Instr),
        let ends := fun (u : State) (h : HState) (c : Nat) => ∃ t y, exec i s = .next t ∧ t.op? o.id = some y ∧ y.prog = o.prog ∧
          ((y.st = h ∧ y.cause = c ∧ y.ending = none) ∨
            (y.st = .running ∧ y.ending = some (h, c) ∧ ∃ z v g k, z.desc = o.desc ∧ u.writeOpStatus z = .waits v g k))
        (∀ h c, o.ending = some (h, c) →
          let z := { o with
            cause := c
            addr := if c = 6 ∨ c = 7 ∨ c = 8 then o.desc else o.addr
            kind := if c = 0 ∨ c = 5 ∨ c = 6 ∨ c = 8 then 0 else if c = 7 then 1 else o.kind
            tile := none }
          (∀ v, s.writeOpStatus z = .made v → ∃ t y, exec i s = .next t ∧ t.op? o.id = some y ∧ y.st = h ∧ y.cause = c ∧
            y.prog = o.prog ∧ y.ending = none) ∧
          (∀ v g k, s.writeOpStatus z = .waits v g k → ∃ t y, exec i s = .next t ∧ t.op? o.id = some y ∧ y.st = .running ∧
            y.prog = o.prog ∧ y.ending = some (h, c))) ∧
        (o.ending = none → o.cancel = true → ends s .cancelled 8) ∧
        (o.ending = none → o.cancel = false → o.fault = false → o.body = none → ∀ u ws,
          State.engineWords o l 4 ((List.range (o.cls.size / 4)).map (fun k => o.desc + BitVec.ofNat 64 (4 * k))) s = (u, .ok ws) →
          ((∃ w ∈ ws, w.poison = true) → ends u .stopped 5) ∧
          ((∀ w ∈ ws, w.poison = false) → o.cls.parse l ws = none → ends u .stopped 6) ∧
          (∀ d, (∀ w ∈ ws, w.poison = false) → o.cls.parse l ws = some d → ∃ t y, exec i s = .next t ∧ t.op? o.id = some y ∧
            y.body = some d ∧ y.prog = max o.prog (descField ws o.cls.statusArea.2.1 o.cls.statusArea.2.2) ∧
            (y.st = .running ∨ (y.st = .complete ∧ y.total ≤ y.prog))))) ∧
  (∀ (s u : State) (o : EngineOp) (x : Team), s.op? o.id = some o → o.st = .running → o.fault = true → s.stopping (.op o.id) = false →
      s.opGoes o = true → s.team? o.id.team = some x →
      let kind : AccKind := if o.kind = 1 then .write else .read
      let found := s.translate o.agent o.addr
      let stops := fun (v : State) (c : Nat) => ∃ t y, exec (.leafFaultResolve o.id) s = .next t ∧ t.op? o.id = some y ∧ y.fault = false ∧
        y.prog = o.prog ∧ ((y.st = .stopped ∧ y.cause = c) ∨
          (y.st = .running ∧ y.ending = some (.stopped, c) ∧ ∃ z w g k, z.desc = o.desc ∧ v.writeOpStatus z = .waits w g k))
      let goesOn := ∃ t y, exec (.leafFaultResolve o.id) s = .next t ∧ t.op? o.id = some y ∧ y.st = .running ∧ y.fault = false ∧
        y.prog = o.prog
      (∀ e pa, found = (u, .ok e pa) → (e.permits kind o.sup = true → goesOn) ∧ (e.permits kind o.sup = false → stops u 2)) ∧
      (found = (u, .stall) → exec (.leafFaultResolve o.id) s = .next u) ∧
      (∀ sub v k, found = (u, .page sub) → u.walk o.agent.asid o.die (va57 o.addr) = (v, k) →
        (sub ≠ 0 ∨ canonical o.addr = false ∨ (∀ ft, k ≠ .absent 0 ft) → stops v o.cause) ∧
        (∀ ft w, sub = 0 → canonical o.addr = true → k = .absent 0 ft →
          (v.firstTouch o.leafAgent o.pgpool o.addr = (w, .ok .mapped) → goesOn) ∧
          (v.firstTouch o.leafAgent o.pgpool o.addr = (w, .ok .locked) → ∃ t, exec (.leafFaultResolve o.id) s = .next t ∧
            t.op? o.id = some o) ∧
          (∀ g, v.firstTouch o.leafAgent o.pgpool o.addr = (w, .error (.waits g)) → ∃ t y, exec (.leafFaultResolve o.id) s = .next t ∧
            t.op? o.id = some y ∧ y.st = .running ∧ y.fault = true ∧ y.prog = o.prog ∧ t.mem = s.mem) ∧
          (v.firstTouch o.leafAgent o.pgpool o.addr = (w, .error .failed) → stops w o.cause))))

/-- 13 R296–R303, 08 R187, R193: a line-run of a copy or a fill writes its elements' bytes and passes them; a gather reads
its tile and, with its bank EMPTY, writes and publishes it; a Sward build passes an unmarked tile and appends a record
for a marked one, waiting while the bin store is full; the last unit of work completes the operation, and an operation
with none left does no more of it and completes. An access that
its checks refuse stops or faults a copy with its cause; a poisoned row pointer, column index or bitmap word stops
with SCAUSE 5, and an append to a closed bin with 7. -/
def Obligations.OperationsDoTheirWork : Prop :=
  ∀ (s : State) (o : EngineOp) (l : Launch) (x : Team), s.op? o.id = some o → o.st = .running → s.stopping (.op o.id) = false →
    s.opGoes o = true → s.launch? o.launch = some l → s.team? o.id.team = some x → o.cancel = false → o.fault = false →
    o.ending = none →
    let passes := fun (i : Instr) (n : Nat) (u : State) => ∃ t y, exec i s = .next t ∧ t.op? o.id = some y ∧ y.prog = o.prog + n ∧
      (o.prog + n < o.total → y.st = .running ∧ y.ending = none ∧ t.mem = u.mem) ∧
      (o.total ≤ o.prog + n → y.st = .complete ∨ (y.st = .running ∧ y.ending = some (.complete, 0)))
    let stops := fun (i : Instr) (u : State) (c : Nat) => ∃ t y, exec i s = .next t ∧ t.op? o.id = some y ∧ y.prog = o.prog ∧
      ((y.st = .stopped ∧ y.cause = c) ∨
        (y.st = .running ∧ y.ending = some (.stopped, c) ∧ ∃ z v g k, z.desc = o.desc ∧ u.writeOpStatus z = .waits v g k))
    (o.body.isSome = true → o.total ≤ o.prog →
      ∀ i ∈ (if o.cls = .xcopy ∨ o.cls = .xfill then [.copyLineRun o.id]
        else if o.cls = .xgath then [.gatherTile o.id, .gatherWrite o.id] else [.swardTile o.id, .spawnAppend (.op o.id)] : List Instr),
      ∃ t y, exec i s = .next t ∧ t.op? o.id = some y ∧ y.prog = o.prog ∧
        (y.st = .complete ∨ (y.st = .running ∧ y.ending = some (.complete, 0)))) ∧
    (o.prog < o.total →
    (∀ fill src dst esize ndim ext sstr dstr slvl dlvl u v w ps p,
      o.cls = (if fill then .xfill else .xcopy) → o.body = some (.copy fill src dst esize ndim ext sstr dstr slvl dlvl) →
      let dest := elementAddr dst esize dstr ext
      let run := runFrom dest esize ((dest o.prog).toNat / 128) (o.total - o.prog) o.prog
      let spots := State.runSpots o l esize (if fill then none else some (elementAddr src esize sstr ext)) dest
        (if run = [] then [o.prog] else run) s
      (∀ c a k, spots = (u, .error (.stop c a k)) → stops (.copyLineRun o.id) u c) ∧
      (∀ c a k, spots = (u, .error (.fault c a k)) → ∃ t y, exec (.copyLineRun o.id) s = .next t ∧ t.op? o.id = some y ∧
        y.st = .running ∧ y.fault = true ∧ y.cause = c ∧ y.addr = a ∧ y.kind = k ∧ y.prog = o.prog) ∧
      (spots = (u, .ok ps) → ps.head? = some p →
      let lines := (ps.filterMap (·.1)).foldl (fun acc q => if acc.any (fun z => z.loc.tagLoc = q.loc.tagLoc) then acc else acc ++ [q]) []
      u.engineReady o false lines = (v, .ok ()) → v.engineReady o true [p.2] = (w, .ok ()) →
      passes (.copyLineRun o.id) ps.length (w.runWrite o p.2 (runCells (ps.map (fun q => (q.2.loc.lineOffset,
        match q.1 with
        | some r => w.elementBytes r esize
        | none => (natBytes esize src.toNat).map (fun b => (b, false))))))))) ∧
    (∀ rowptr colidx vals tiles b0 nb kb0 n0, o.cls = .xgath → o.body = some (.gath rowptr colidx vals tiles b0 nb kb0 n0) →
      (∀ u t, o.tile = none → State.gatherRows o l rowptr colidx vals (kb0 + o.prog) n0 32 0 [] s = (u, .ok t) →
        ∃ v y, exec (.gatherTile o.id) s = .next v ∧ v.op? o.id = some y ∧ y.tile = some (tileWords t) ∧ y.prog = o.prog) ∧
      (∀ u v a b c, o.tile = none →
        let at' := rowptr + BitVec.ofNat 64 (4 * (32 * (kb0 + o.prog)))
        State.engineWords o l 4 [at', at' + 4] s = (u, .ok [a, b]) →
        (a.poison = true ∨ b.poison = true → stops (.gatherTile o.id) u 5) ∧
        (a.poison = false → b.poison = false → a.val.toNat < b.val.toNat →
          u.engineWord o l (colidx + BitVec.ofNat 64 (4 * a.val.toNat)) 4 = (v, .ok c) → c.poison = true →
          stops (.gatherTile o.id) v 5)) ∧
      (∀ m cl ix a, o.tile = some m → s.opArray o = some (cl, ix) → s.arrayAt (cl, ix) = some a →
        let b := BitVec.ofNat 2 (b0 + o.prog % nb)
        ((a.bank true b).full = false → passes (.gatherWrite o.id) 1 s ∧ ∃ t c, exec (.gatherWrite o.id) s = .next t ∧
          t.arrayAt (cl, ix) = some c ∧ (c.bank true b).full = true) ∧
        ((a.bank true b).full = true → exec (.gatherWrite o.id) s = .next s))) ∧
    (∀ bmap hbase nx ny r bin tstride user slabs u m, o.cls = .swbuild →
      o.body = some (.sward bmap hbase nx ny r bin tstride user slabs) →
      let y := (slabs.getD o.die (0, 0)).1 + o.prog / nx
      let c := o.prog % nx
      (∀ v ws, o.tile = none → o.appendWait = false →
        State.engineWords o l 4 ((rowWords nx ny r y).map (fun w => bmap + BitVec.ofNat 64 (4 * w))) s = (v, .ok ws) →
        (∃ w ∈ ws, w.poison = true) → ws.length = (rowWords nx ny r y).length → stops (.swardTile o.id) v 5) ∧
      (s.swardRow o l bmap (rowWords nx ny r y) = (u, .ok m) →
      let marked := ∃ v, v < ny ∧ y ≤ v + r ∧ v ≤ y + r ∧ ∃ k, k < nx ∧ c ≤ k + r ∧ k ≤ c + r ∧ markedIn m nx k v = true
      (¬marked → o.appendWait = false → passes (.swardTile o.id) 1 u) ∧
      (marked → ∀ b, l.bins[bin]? = some b → b.closed = true → b.closeTag = none → o.appendWait = false → stops (.swardTile o.id) u 7) ∧
      (marked → ∀ b h, l.bins[bin]? = some b → b.closed = false → u.shard? o.launch bin o.die = some h →
        let appends := fun (i : Instr) => ∃ t g q, exec i s = .next t ∧ t.shard? o.launch bin o.die = some g ∧ g.recs = h.recs ++ [q] ∧
          q.w0 = BitVec.ofNat 32 (c + 65536 * y) ∧ q.w1 = BitVec.ofNat 32 (y * nx + c)
        (o.appendWait = false → u.storeUsed o.die < 2 ^ 24 → appends (.swardTile o.id)) ∧
        (o.appendWait = true → s.storeUsed o.die < 2 ^ 24 → u.storeUsed o.die < 2 ^ 24 → appends (.spawnAppend (.op o.id))) ∧
        (o.appendWait = false → 2 ^ 24 ≤ u.storeUsed o.die → ∃ t z, exec (.swardTile o.id) s = .next t ∧ t.op? o.id = some z ∧
          z.appendWait = true ∧ z.prog = o.prog)))))

/-- 13 R304–R306: every 50 µs Ballast begins a move where two linked dies' shards of a bin are out of balance; a move
passes records from the tail of one shard to the tail of the other, re-splits the slabs of the bin's last Sward build
by whole rows, and migrates the records' home granules: a granule's bytes stand at its new place, its leaf maps there,
and its class is UNCL; a core that a migration needs vacated is cleared first. The granule taken, the old granule's
place in the pool and the core are the model's choice (notes/assumptions/67, 68, 114). -/
def Obligations.BallastMovesWork : Prop :=
  (∀ (s : State) (l : Launch) (b : Bin) (d e : Shard), s.clock % (50 * Config.cyclesPerUs) = 0 → s.shards = [d, e] → s.moves = [] →
    d.launch = l.id → e.launch = l.id → d.bin = e.bin → s.launch? l.id = some l → l.lstate = .running → l.preempted = false →
    l.bins[d.bin]? = some b → b.ballast = true → linked d.die e.die = true → l.unbalanced s.clock d e = true →
    s.stopping (.ballast d.die) = false →
    exec .ballastMeasure s = .next { s with moves := [⟨l.id, d.bin, d.die, e.die, none, false, []⟩] }) ∧
  (∀ (s : State) (l : Launch) (b : Bin) (m : BallastMove) (d e : Shard), s.move? m.launch m.bin m.src m.dst = some m → m.moved = none →
    s.launch? m.launch = some l → l.lstate = .running → l.preempted = false → s.stopping (.ballast m.src) = false →
    l.bins[m.bin]? = some b → m.src ≠ m.dst → s.shard? m.launch m.bin m.src = some d → s.shard? m.launch m.bin m.dst = some e →
    d.frozen = none → e.frozen = none → (∀ r ∈ d.recs, r.tag = none) → s.storeUsed m.dst + 256 ≤ 2 ^ 24 →
    let n := min 256 ((d.recs.length - e.recs.length) / 2)
    ∃ t f g, exec (.ballastRecordTransfer m.launch m.bin m.src m.dst) s = .next t ∧ t.shard? m.launch m.bin m.src = some f ∧
      t.shard? m.launch m.bin m.dst = some g ∧ f.recs = d.recs.take (d.recs.length - n) ∧ g.recs = e.recs ++ d.recs.drop (d.recs.length - n)) ∧
  (∀ (s u : State) (l : Launch) (b : Bin) (m : BallastMove) (n : Nat) (va : DWord) (e : TlbEntry) (pa : Nat),
    s.move? m.launch m.bin m.src m.dst = some m → m.moved = some n → m.split = true → s.launch? m.launch = some l →
    l.lstate = .running → l.preempted = false → s.stopping (.ballast m.src) = false → l.bins[m.bin]? = some b → b.lastBuild = some va →
    s.translate (ballastAgent l.asid m.src) va = (u, .ok e pa) → e.permits .read true = true → e.permits .write true = true →
    u.locPoison (.mem pa) 64 = false → u.topTag (Loc.mem pa).tagLoc = none → u.lineBusy (lineOf pa) = false →
    exec (.ballastSlabResplit m.launch m.bin m.src m.dst) s = .next
      (((u.markDirty (ballastAgent l.asid m.src) va none).resplitAt m pa n).putMove { m with split := false })) ∧
  (∀ (n : Nat) (d e : Nat × Nat), d.1 + d.2 = e.1 → n ≤ d.2 → resplit n d e = some ((d.1, d.2 - n), (e.1 - n, e.2 + n))) ∧
  (∀ (s : State) (l : Launch) (m : BallastMove) (w : Word) (ws : List Word) (f : Leaf) (new entry : Nat),
    s.move? m.launch m.bin m.src m.dst = some m → m.moved.isSome = true → m.homes = w :: ws → m.split = false →
    s.launch? m.launch = some l → s.supply = .on →
    l.lstate = .running → l.preempted = false → s.stopping (.ballast m.src) = false →
    (s.leaves l.asid).find? (fun f => f.va ≤ w.toNat * 65536 && w.toNat * 65536 < f.va + 2 ^ levelShift f.level) = some f →
    let old := granuleOf (pteFrame f.e)
    s.granuleBusy old = false → (∀ c ∈ s.collections, Purpose.ballast m.launch m.bin m.src m.dst ∉ c.purposes) → s.freeGranule l m.dst = some (new, entry) →
    s.migratable f m.src = true → s.mem.wf = true → smWf .uncl s.classes = true → old ≠ new → new < 2 ^ 36 →
    (∀ i, i < 8 → f.pte + i < entry ∨ entry + 4 ≤ f.pte + i) →
    let vacates := (Config.migrationVacates old).any (fun core => !(s.teamsOn core).isEmpty)
    ∃ t, exec (.granuleMigration m.launch m.bin m.src m.dst) s = .next t ∧
      (vacates = true → ∃ c ∈ t.collections, Purpose.ballast m.launch m.bin m.src m.dst ∈ c.purposes) ∧
      (vacates = false → t.classOf new = .uncl ∧ t.classOf old = .uncl ∧
        natOfBytes (t.mem.readBytes f.pte 8) = f.e % 65536 + 65536 * new ∧
        ∀ i, i < 65536 → let a := 65536 * new + i
          (a < f.pte ∨ f.pte + 8 ≤ a) → (a < entry ∨ entry + 4 ≤ a) → t.mem.read a = s.mem.read (65536 * old + i)))

/-! ## Coherence, containment and services (spec/09, spec/11, spec/16, spec/18) -/

/-- 09 R222–R224: the requests of an L1 at the home of a line: one of a line that no L1 holds is granted with the data of
L2, one of a line that an owner holds is forwarded, an upgrade invalidates the other sharers, and one that finds BUSY,
or no room in the snoop filter for the entry that it needs, waits. 09 R223, R224, R226: an owner answers a forward
with the line and an Ack, giving it up or keeping it as O; a sharer drops the line at an Inv or BInv and acknowledges,
and a dirty holder answers a BInv with WbD; the home takes a write-back, and ends a transaction with its last Ack; a
requester that has taken its grant and the data holds the line. -/
def Obligations.CoherenceMessagesAreTaken : Prop :=
  (∀ (s : State) (node line : Nat), s.mayRequest node line = true →
      let e := s.dirEntry line
      let waits := fun (i : Instr) (q : CohReq) => e.busy.isSome = true → ∃ t, exec i s = .next t ∧ t.net = s.net ∧
        (t.dirEntry line).waiting = e.waiting ++ [(q, node)] ∧ (t.dirEntry line).st = e.st
      let grants := fun (i : Instr) (q : CohReq) (st : DirSt) (l : L1St) => ∃ t, exec i s = .next t ∧
        (s.filterFull line = false → (t.dirEntry line).st = st ∧ (t.dirEntry line).owner = some node ∧
          t.net = s.net ++ [.data node line, .grant node line l false false]) ∧
        (s.filterFull line = true → (t.dirEntry line).st = .i ∧ (t.dirEntry line).waiting = [(q, node)])
      let forwards := fun (i : Instr) (o : Nat) (excl : Bool) => ∃ t, exec i s = .next t ∧ (t.dirEntry line).busy.isSome = true ∧
        (t.dirEntry line).st = e.st ∧ CohMsg.fwd o line node excl ∈ t.net
      (s.l1St node line = none →
        waits (.rds node line) .rdS ∧ waits (.rdx node line) .rdX ∧
        (e.busy = none → e.waiting = [] → e.owner = none → e.shr = [] → e.st = .i →
          grants (.rds node line) .rdS .e .e ∧ grants (.rdx node line) .rdX .m .m) ∧
        (∀ o, e.busy = none → e.waiting = [] → e.owner = some o → e.st = .e ∨ e.st = .m ∨ e.st = .o →
          forwards (.rds node line) o false ∧ forwards (.rdx node line) o true)) ∧
      (s.l1St node line = some .s → waits (.upg node line) .upg ∧
        (e.busy = none → e.waiting = [] → e.st = .s →
          let others := (s.l1sOfAll e.shr).filter (fun n => n ∉ [node])
          (others = [] → ∃ t, exec (.upg node line) s = .next t ∧ (t.dirEntry line).st = .m ∧ (t.dirEntry line).owner = some node ∧
            (t.dirEntry line).shr = [] ∧ t.net = s.net ++ [.grant node line .m false true]) ∧
          (others ≠ [] → ∃ t v, exec (.upg node line) s = .next t ∧ (t.dirEntry line).busy = some v ∧ v.awaiting = others ∧
            t.net = s.net ++ others.map (fun n => CohMsg.inv n line))))) ∧
  (∀ (s : State) (node line : Nat),
      let quiet := s.filling node line = false
      (∀ m r x, s.fwdFor node line = some (m, r, x) → quiet → s.l1St node line = some .m →
        ∃ t, exec (.fwd node line) s = .next t ∧ t.l1St node line = (if x then none else some .o) ∧
          t.net = s.net.erase m ++ [.data r line, .ackHome node line true true]) ∧
      (CohMsg.inv node line ∈ s.net → quiet → s.l1St node line ≠ some .wb → ∃ t, exec (.inv node line) s = .next t ∧
        t.l1St node line = none ∧ t.net = s.net.erase (.inv node line) ++ [.ackHome node line false true]) ∧
      (CohMsg.binv node line ∈ s.net → quiet →
        (s.l1St node line = some .s ∨ s.l1St node line = some .e ∨ s.l1St node line = none → ∃ t, exec (.binv node line) s = .next t ∧
          t.l1St node line = none ∧ t.net = s.net.erase (.binv node line) ++ [.ackHome node line false true]) ∧
        (s.l1St node line = some .m ∨ s.l1St node line = some .o → ∃ t, exec (.binv node line) s = .next t ∧
          t.l1St node line = some .wb ∧ CohMsg.wbd node line ∈ t.net)) ∧
      (s.l1St node line = some .m → CohMsg.wbd node line ∉ s.net →
        let e := s.dirEntry line
        e.busy = none → e.waiting = [] → e.owner = some node → e.st = .m ∨ e.st = .o → ∃ t, exec (.wbd node line) s = .next t ∧
          (t.dirEntry line).st = (if e.shr = [] then .i else .s) ∧ (t.dirEntry line).owner = none ∧ CohMsg.wbAck node line ∈ t.net) ∧
      (∀ src dirty, s.net = [.ackHome src line dirty true] → (s.dirEntry line).st = .m → (s.dirEntry line).owner = some src →
        (∀ e ∈ s.dir, e.waiting = []) → (s.dirEntry line).busy = some ⟨false, .rdS, node, [src], false, false, false⟩ →
        ∃ t, exec (.ack line) s = .next t ∧ t.net = [.grant node line .s false false] ∧ (t.dirEntry line).busy = none ∧
          (t.dirEntry line).st = (if dirty then .o else .s) ∧ (t.dirEntry line).owner = (if dirty then some src else none)) ∧
      (∀ st, s.net = [.grant node line st false true] → ∃ t, exec (.ack line) s = .next t ∧ t.net = [] ∧ t.l1St node line = some st) ∧
      (∀ st, s.net = [.data node line, .grant node line st true false] → (s.dirEntry line).busy = none →
        ∃ t, exec (.data node line) s = .next t ∧ t.net = [] ∧ t.l1St node line = some st))

/-- 09 R211, R218, R219, R225, 10 R243, 11 R249, 15 R327, R333: a host access to device memory that nothing holds up
performs: a read answers with the bytes, and with the poison indication exactly where a sector that it touches has a
poisoned word, its lines going from M to O and from E to S; a write leaves its bytes and the poison that they come with,
sets the entries of its lines to I and leaves no L1 a copy. A host access to a PRIV granule, or to one whose
reclassification runs, waits. A completion readies its host line and the streams that wait for it go on; a
reclassification records its class once every core has acknowledged; a table walk fills the TLB with the leaf that it
finds, its permission bits among them. That a host access performs whole or waits, whichever ports are up, who waits
for a reclassification, and that the poison bits of an owner's copy become the line's, are the model's choices
(notes/assumptions/17, 26, 66, 92). -/
def Obligations.MemoryAgentsAct : Prop :=
  (∀ (s u : State) (pa len : Nat) (bytes : List Byte) (q : Bool), s.supply = .on → 0 < len → isDevice (pa + len - 1) = true →
    (∀ l ∈ linesTouched pa len, s.lineBusy l = false ∧ u.topTag (.mem l) = none) →
    let own := ∃ x ∈ u.l1, x.own ≠ none
    (State.hostClasses false ((linesTouched pa len).map (· / 512)).eraseDups s = (u, false) → exec (.hostCxlMemRead pa len) s = .next u) ∧
    (State.hostClasses true ((linesTouched pa len).map (· / 512)).eraseDups s = (u, false) → bytes.length = len →
      exec (.hostCxlMemWrite pa bytes q) s = .next u) ∧
    (State.hostClasses false ((linesTouched pa len).map (· / 512)).eraseDups s = (u, true) →
      ∃ t, exec (.hostCxlMemRead pa len) s = .next t ∧ t.mem = s.mem ∧ (¬own → t.poison = s.poison) ∧
        t.hostReply = some ⟨pa, s.mem.readBytes pa len,
          poisonedAt t.poison (pa / 32 * 32) ((pa + len + 31) / 32 * 32 - pa / 32 * 32), false⟩ ∧
        ∀ l ∈ linesTouched pa len, ∀ o, (u.dirEntry l).owner = some o → (∀ x ∈ u.l1, x.st ≠ .wb) →
          ((u.dirEntry l).st = .m → u.l1St o l = some .m → (t.dirEntry l).st = .o ∧ t.l1St o l = some .o) ∧
          ((u.dirEntry l).st = .e → u.l1St o l = some .e → (t.dirEntry l).st = .s ∧ t.l1St o l = some .s)) ∧
    (State.hostClasses true ((linesTouched pa len).map (· / 512)).eraseDups s = (u, true) → bytes.length = len → len ≤ 64 →
      s.mem.wf = true → smWf false s.poison = true → ∃ t, exec (.hostCxlMemWrite pa bytes q) s = .next t ∧ t.mem.readBytes pa len = bytes ∧
        (∀ a, a < pa ∨ pa + len ≤ a → t.mem.read a = s.mem.read a) ∧
        (∀ w, pa ≤ 4 * w → 4 * w + 4 ≤ pa + len → smGet false t.poison w = q) ∧
        (¬own → ∀ w, 4 * w < pa ∨ pa + len < 4 * w + 4 →
          smGet false t.poison w = (smGet false s.poison w || (q && decide (pa < 4 * w + 4 ∧ 4 * w < pa + len)))) ∧
        ∀ l ∈ linesTouched pa len, (t.dirEntry l).st = .i ∧ ∀ n, t.l1St n l = none)) ∧
  (∀ (s : State) (h : HostLine) (hs : List HostLine) (err : Bool), s.hostLines = h :: hs → h.ready = false →
    ∃ t, exec (.cxlCacheCompletion h.line err) s = .next t ∧ t.hostLines = { h with ready := true, err := err } :: hs ∧
      ∀ st sc, s.scalar? st = some sc → ∃ u, t.scalar? st = some u ∧
        u.wait = (if sc.wait = some (.cxl h.line) then none else sc.wait) ∧
        u.accs = sc.accs.map (fun a => if a.wait = some (.cxl h.line) then { a with wait := none } else a)) ∧
  (∀ (s : State) (r : Reclass) (rs : List Reclass) (node : Nat), s.reclass = r :: rs →
    (node ∈ r.undrained → s.overlapped node r.gran (r.target == .ro) = false → ∃ t, exec (.reclassDrain node r.gran) s = .next t ∧
      t.reclass = { r with undrained := r.undrained.filter (· ≠ node) } :: rs) ∧
    (r.undrained = [] → smWf .uncl s.classes = true → ∃ t, exec (.reclassDrainAck r.gran) s = .next t ∧ t.classOf r.gran = r.target ∧
      (∀ x ∈ t.reclass, x.gran ≠ r.gran) ∧ ((∀ x ∈ s.teams, x.sc.wait ≠ some (.declass r.gran)) →
        ∀ st sc, s.scalar? st = some sc → sc.wait ≠ some (.declass r.gran) → ∃ u, t.scalar? st = some u ∧
          u.wait = (if sc.wait = some (.reclass r.gran) then none else sc.wait) ∧ u.accs.map (·.events) = sc.accs.map (·.events) ∧
          u.accs.map (·.wait) = sc.accs.map (fun a => if a.wait = some (.reclass r.gran) then none else a.wait)))) ∧
  (∀ (s u : State) (cl : Nat) (asid : Byte) (va : DWord) (lvl pte e : Nat), canonical va = true →
    (∀ x ∈ s.tlb, x.covers (.cluster cl) asid (va57 va) = false) → s.walk asid (cl / 9) (va57 va) = (u, .leaf lvl pte e) →
    e.testBit 12 = false → ∃ t, exec (.tableWalk cl asid va) s = .next t ∧
      ∃ x ∈ t.tlb, x.covers (.cluster cl) asid (va57 va) = true ∧ x.frame = pteFrame e ∧ x.level = lvl ∧ x.r = e.testBit 3 ∧
        x.w = e.testBit 4 ∧ x.x = e.testBit 5 ∧ x.sup = e.testBit 6 ∧ x.d = e.testBit 7 ∧ x.apl = BitVec.ofNat 2 (e / 256))

/-- 11 R254, R255: a gang that has ended and depends on no other commits, its tags cleared and the accesses, takes and
closes that stalled on it going on; a gang that holds an access up for more than 100 µs hardens, and each of its teams has VERSION_FULL
with SUB 1 pending. That a commit writes no memory rests on the model's choice to keep versions in place
(notes/assumptions/7); how a hardening gang treats those that it depends on is not part of the statement
(notes/assumptions/20). -/
def Obligations.GangsCommitAndHarden : Prop :=
  ∀ (s : State) (g : Gang), s.gang? g.id = some g → g.deps = [] →
    (g.ended = true → ∃ t, exec (.gangCommit g.id) s = .next t ∧ t.gang? g.id = none ∧ (∀ v ∈ t.tags, v.gang ≠ g.id) ∧ t.mem = s.mem ∧
      (∀ h ∈ t.shards, ∀ r ∈ h.recs, r.tag ≠ some g.id) ∧
      ∀ st sc since, s.scalar? st = some sc → ∃ u, t.scalar? st = some u ∧
        (sc.wait = some (.version g.id since) → u.wait = none) ∧
        ∀ a ∈ sc.accs, a.wait = some (.version g.id since) → ∃ b ∈ u.accs, b.wait = none ∧ b.events = a.events) ∧
    (∀ w since x, g.ended = false → s.stalledOn w = some (g.id, since) → since + 100 * Config.cyclesPerUs < s.clock → g.prot = true → g.hardened = false →
      s.team? x.id = some x → x.gang = g.id → ∃ t h y, exec (.versionStallTimeout w) s = .next t ∧ t.gang? g.id = some h ∧
        h.hardened = true ∧ (∀ v ∈ t.tags, v.gang ≠ g.id) ∧ t.team? x.id = some y ∧ y.eventVersion = some 1)

/-- 11 R245–R248, R258, 18 R387: a block that decodes to its data is corrected and counted against its row; one that does
not decode has its failing sectors poisoned and counted as uncorrected; a check value whose bits are all wrong reads
as poison; a line that an L1 has changed keeps its bytes and bits. An uncorrectable array error poisons the words that
it covers, those of a clean L1 copy there alone, and one in a directory entry, a TLB's class, a bin shard, a queue or a
progress record kills every gang of the contexts that hold that state; a corrected one changes no data and adds one to
its unit's count. A replayed flit arrives and is counted; a port that goes down is reported. What a decode does to the
module's one copy of memory, which copies an error reaches, the rows, the words of an array error and the order of the
code's symbols are the model's (notes/assumptions/26, 30, 76, 80, 117). -/
def Obligations.ErrorsPoisonOrCount : Prop :=
  (∀ (s : State) (block k : Nat) (errs : List SymErr), isDevice (512 * block) = true → s.mem.wf = true → smWf false s.poison = true → k < 16 →
    (∀ i, i < 4 → (∀ v ∈ s.tags, v.loc ≠ .mem (4 * block + i)) ∧ s.changedAbove (4 * block + i) = false) →
    let b := s.readBlock block errs
    let row := lineRow (4 * block + k / 4)
    let clean := ∀ i, i < 128 → smGet false s.poison (128 * block + i) = false
    let kept := fun (t : State) (j : Nat) => ∀ i, i < 32 → t.mem.read (512 * block + 32 * j + i) = s.mem.read (512 * block + 32 * j + i)
    let spoilt := fun (t : State) => ∀ i, i < 8 → smGet false t.poison (128 * block + 8 * k + i) = true
    (∀ w, b.check block b.data k = .mismatch → decodeBlock b.word = some w → bytesOf (w.take 256) = s.mem.readBytes (512 * block) 512 →
      clean → (∀ e ∈ errs, e.ix < 272) → ∃ t, exec (.blockDecode block errs) s = .next t ∧ (∀ a, t.mem.read a = s.mem.read a) ∧
        (∀ i, smGet false t.poison i = smGet false s.poison i) ∧
        (sectorOf b.data k ≠ s.mem.readBytes (512 * block + 32 * k) 32 → s.clock ∈ (t.partCount row).times)) ∧
    (b.check block b.data k = .mismatch → decodeBlock b.word = none → ∃ t, exec (.blockDecode block errs) s = .next t ∧ spoilt t ∧
      ((∀ x ∈ s.l1, x.line ≠ 4 * block + k / 4) → ∀ i, i < 32 → t.mem.read (512 * block + 32 * k + i) = b.data.getD (32 * k + i) 0) ∧
      (t.partCount row).uncorrected = true) ∧
    (errs = [⟨272 + k, 0xFFFF⟩] → clean → ∃ t, exec (.blockDecode block errs) s = .next t ∧ spoilt t ∧ (∀ j, kept t j) ∧
      t.counts = s.counts)) ∧
  (∀ (s : State) (block k : Nat) (errs : List SymErr), s.mem.wf = true → smWf false s.poison = true → k < 16 →
    (∀ v ∈ s.tags, v.loc ≠ .mem (4 * block + k / 4)) → s.changedAbove (4 * block + k / 4) = true →
    ∃ t, exec (.blockDecode block errs) s = .next t ∧
      (∀ i, i < 32 → t.mem.read (512 * block + 32 * k + i) = s.mem.read (512 * block + 32 * k + i)) ∧
      ∀ i, i < 8 → smGet false t.poison (128 * block + 8 * k + i) = smGet false s.poison (128 * block + 8 * k + i)) ∧
  (∀ (s : State) (kind : ArrayKind), ∃ t, exec (.uncorrectableArrayError ⟨kind, true⟩) s = .next t ∧ t.mem = s.mem ∧
    t.poison = s.poison ∧ t.l1 = s.l1 ∧ t.teams = s.teams ∧ t.groups = s.groups ∧ (s.inService kind = true →
      (∀ u, s.arrayUnit kind = some u → (u, ((s.arrayErrors.find? (fun x => x.1 = u)).map (·.2)).getD 0 + 1) ∈ t.arrayErrors) ∧
      ∀ r, s.errorPart kind true = some r → (t.partCount r).times = (s.partCount r).times ++ [s.clock])) ∧
  (∀ (s : State) (pa : Nat) (w : MemArray), smWf false s.poison = true → s.inService (.memWord pa w) = true →
    let line := lineOf pa
    let clean := fun (n : Nat) => ∃ x, s.l1.find? (·.at' n line) = some x ∧ x.clean = true
    ∃ t, exec (.uncorrectableArrayError ⟨.memWord pa w, false⟩) s = .next t ∧ t.mem = s.mem ∧
      (∀ n, w = .l1 n → clean n → t.poison = s.poison ∧ ∃ ws, t.ownPoison n line = some ws ∧ pa / 8 * 2 % 32 ∈ ws ∧
        (pa / 8 * 2 + 1) % 32 ∈ ws) ∧
      (∀ v, w = .l2 v → s.changedAbove line = true → t.poison = s.poison ∧ t.l1 = s.l1) ∧
      ((∃ n, w = .l1 n ∧ ¬clean n) ∨ (∃ v, w = .l2 v ∧ s.changedAbove line = false) →
        smGet false t.poison (pa / 8 * 2) = true ∧ smGet false t.poison (pa / 8 * 2 + 1) = true)) ∧
  (∀ (s : State) (line cl gran l bin die q : Nat) (o : OpId),
    let kills := fun (kind : ArrayKind) (holds : Byte → Bool) => (∃ g ∈ s.gangs, holds g.id.asid = true) →
      ∃ (u : State) (rec : KillRec), exec (.uncorrectableArrayError ⟨kind, false⟩) s = .next
        (u.kill ((s.gangs.filter (fun g => holds g.id.asid)).map (·.id)) [] true rec) ∧
        u.gangs = s.gangs ∧ u.teams = s.teams ∧ u.mem = s.mem
    kills (.directory line) (fun a => (s.mappings (line / 512)).any (fun m => m.asid = a)) ∧
    kills (.tlbClass cl gran) (fun a => (s.mappings gran).any (fun m => m.asid = a)) ∧
    kills (.shard l bin die) (fun a => (s.launch? l).any (fun x => x.asid = a)) ∧
    kills (.queue q) (fun a => (s.queue? q).any (fun x => x.asid = a)) ∧
    kills (.progress o) (fun a => a = o.team.asid)) ∧
  (∀ (s : State) (st : StreamId) (sc : Scalar) (i : BitVec 6), s.scalar? st = some sc → 2 ≤ i.toNat → ∃ t u,
    exec (.uncorrectableArrayError ⟨.scalarReg st i, false⟩) s = .next t ∧ t.scalar? st = some u ∧
      u.reg i = ⟨(sc.reg i).val, true⟩ ∧ u.pc = sc.pc) ∧
  (∀ (s : State) (lk : LinkId) (lane : Nat), .linkLane lk lane ∉ s.lost → ∃ t, exec (.linkFlitReplay lk lane) s = .next t ∧
    (t.partCount (.linkLane lk lane)).times = (s.partCount (.linkLane lk lane)).times ++ [s.clock] ∧ t.net = s.net) ∧
  (∀ (s : State) (i : Fin 2), s.ports.get i = true → ∃ t, exec (.linkPortDown i.val) s = .next t ∧ t.ports.get i = false ∧
    t.interrupts = s.interrupts + 1 ∧ t.alertIx = (s.alertIx + 1) % 64)

/-- 11 R258, 14 R319, 16 R345, R351, R358, R362, 18 R383: a request to clear a core, a launch, a context or the module
pre-empts the teams that it names: a spare that is due, a core's retirement, a leaf controller's restart, PREEMPT,
FREEZE and the loss of the supply. A retirement or a spare that comes due while the supply is lost waits, and is asked
for when it returns. What is cleared for a part and what waits are the model's readings (notes/assumptions/81, 95). -/
def Obligations.RequestsPreemptTeams : Prop :=
  (∀ (s : State) (core : Nat) (part : PartId), s.supply ≠ .on →
    exec (.coreRetirement core) s = .next { s with flushDue := insertNew (.core core) s.flushDue } ∧
    exec (.spareReplacement part) s = .next { s with flushDue := insertNew (.part part) s.flushDue }) ∧
  (∀ (s : State) (x : Team) (p : Placement), s.team? x.id = some x → x.place = some p → s.collections = [] → s.supply ≠ .on →
    s.flushDue = [.core p.core] → s.isActive p.core = true → ∃ t c, exec .supplyReturn s = .next t ∧ t.flushDue = [] ∧
      t.collections = [c] ∧ c.purposes = [.repair [p.core]] ∧ UnitId.team x.id ∈ c.members ∧ UnitId.team x.id ∈ c.units) ∧
  ∀ (s : State) (x : Team) (l : Launch) (p : Placement), s.team? x.id = some x → x.place = some p → s.launch? x.launch = some l →
    l.lstate = .running → l.asid = x.id.asid → s.collections = [] → s.supply = .on →
    let asks := fun (i : Instr) (q : Purpose) => ∃ t c, exec i s = .next t ∧ t.collections = [c] ∧ c.purposes = [q] ∧
      UnitId.team x.id ∈ c.members ∧ UnitId.team x.id ∈ c.units
    let whole := fun (i : Instr) (q : Purpose) => asks i q ∧ ∃ t y, exec i s = .next t ∧ t.launch? x.launch = some y ∧ y.preempted = true
    (∀ part, s.triggered part = true → p.core ∈ partCleared part → asks (.spareReplacement part) (.part part)) ∧
    (s.isActive p.core = true → asks (.coreRetirement p.core) (.repair [p.core]) ∧
      (s.mbBusy = false → asks (.preempt (.cores [p.core])) .request)) ∧
    (∀ cl, p.core ∈ (clusterSites (cl % 9)).map (· + 36 * (cl / 9)) → (∀ r ∈ s.leafStops, r.1 ≠ cl) →
      asks (.leafControllerRestart cl) .request) ∧
    (s.mbBusy = false → whole (.preempt (.launch x.launch)) .request ∧
      ((s.asidCopy? l.asid).isSome = true → whole (.preempt (.context l.asid)) .request) ∧
      (∀ a n, (l.asid, a, n) ∈ s.imageAreas → (s.asidEntry l.asid).valid = true → whole (.freeze l.asid) (.freeze l.asid) ∧
        ∃ t, exec (.freeze l.asid) s = .next t ∧ t.mbBusy = true)) ∧
    whole .supplyLoss .drogue ∧ ∃ t, exec .supplyLoss s = .next t ∧ t.supply = .lost

/-- 16 R359, R360: with the Drogue freeze complete the records of the protected contexts are committed one after another;
a low energy reserve stops the writing, and a record that is not committed by then stays so; when the supply returns
the module runs on and the records are superseded. That the records are kept uncommitted until the flush, and one
record a turn, are the model's (notes/assumptions/86). 18 R383, R385, R386, 16 R351–R357: the mailbox's commands: one
that comes while another runs sets ERR alone; DROGUE_REG, IMAGE_AREA, CKPT and SIGNED change what they name or answer
with their codes; REPORT writes the report with the nonce, after supply loss too; RESTORE installs an image whose
checks pass. The operands' place in MBARG, a report's order, that DCOUNT starts at 0 and that code 0x08 stands before
0x05 are the model's choices (notes/assumptions/10, 87, 88, 90); the signature is free (notes/assumptions/18). 18
R384: every millisecond the sensors are read; a die above 105 °C lowers the arithmetic clock by 100 MHz, not below
1,000 MHz, and word 27 holds the clock. The readings are an input, and one step of 100 MHz a refresh and the cycle of
the next one are the model's choice (notes/assumptions/12). -/
def Obligations.ModuleServicesAct : Prop :=
  (∀ (s : State), (∀ c ∈ s.collections, .drogue ∉ c.purposes) →
      (s.supply = .lost → s.energyLow = false →
        ((∀ f ∈ s.flash, f.committed = true ∨ f.superseded = true) → exec .drogueFlush s = .next { s with supply := .flushed }) ∧
        ∀ xs f ys, s.flash = xs ++ f :: ys → (∀ g ∈ xs, g.committed = true ∨ g.superseded = true) → f.committed = false →
          f.superseded = false → ∃ t h, exec .drogueFlush s = .next t ∧ t.flash = xs ++ h :: ys ∧ h.asid = f.asid ∧ h.image = f.image ∧
            h.budget = f.budget ∧ h.committed = true ∧ h.superseded = false ∧
            (t.supply = .flushed ↔ ∀ g ∈ ys, g.committed = true ∨ g.superseded = true)) ∧
      (s.energyLow = true → exec .drogueFlush s = .next s) ∧
      exec .energyReserveLow s = .next { s with energyLow := true } ∧
      (s.supply ≠ .on → s.flushDue = [] → ∃ t, exec .supplyReturn s = .next t ∧ t.supply = .on ∧ t.energyLow = false ∧
        t.teams.length = s.teams.length ∧ (∀ f ∈ t.flash, f.superseded = true) ∧
        (s.energyLow = true → t.flash = s.flash.map (fun f => { f with superseded := true })) ∧
        (s.supply = .lost → s.energyLow = false → (∀ f ∈ s.flash, f.superseded = false) → ∀ f ∈ t.flash, f.committed = true))) ∧
  (∀ (s : State) (asid : Byte) (n : Nat) (addr : DWord) (bs : List Byte),
      let answers := fun (i : Instr) (c : Nat) => ∃ t, exec i s = .next t ∧ t.mbCode = BitVec.ofNat 8 c ∧ t.mbBusy = false ∧
        t.mbErr = decide (c ≠ 0) ∧ t.drogue = s.drogue ∧ t.imageAreas = s.imageAreas ∧ t.signedSeq = s.signedSeq
      (s.mbBusy = true → ∀ i ∈ ([.restore addr n, .ckpt asid, .drogueReg asid n, .imageArea asid addr n, .signed bs, .report bs addr,
        .freeze asid] : List Instr), exec i s = .next { s with mbErr := true }) ∧
      (s.mbBusy = false → s.supply ≠ .on → ∀ i ∈ ([.restore addr n, .ckpt asid, .drogueReg asid n, .imageArea asid addr n,
        .signed bs, .freeze asid] : List Instr), answers i 0x0A) ∧
      (s.mbBusy = false → bs.length = 32 → s.mem.wf = true →
        let report := s.reportBody bs ++ Config.reportSignature (s.reportBody bs)
        ∃ t, exec (.report bs addr) s = .next t ∧ t.mbBusy = false ∧
          if addr.toNat + report.length ≤ deviceLimit ∨ (2 ^ 51 ≤ addr.toNat ∧ addr.toNat + report.length ≤ 2 ^ 52) then
            t.mbCode = 0 ∧ t.mem.readBytes addr.toNat report.length = report
          else t.mbCode = 1 ∧ t.mem = s.mem) ∧
      (s.mbBusy = false → s.supply = .on →
        (∀ a ∈ s.imageAreas, a.1 ≠ asid) → answers (.freeze asid) 0x07) ∧
      (s.mbBusy = false → s.supply = .on →
        let b := if n = 0 then 12 else n
        let others := s.drogue.filter (fun c => c.asid ≠ asid)
        (b ≤ 12 → s.feature 7 = false → answers (.drogueReg asid n) 0x08) ∧
        (b ≤ 12 → s.feature 7 = true → (s.asidEntry asid).valid = false → answers (.drogueReg asid n) 0x05) ∧
        (b ≤ 12 → s.feature 7 = true → (s.asidEntry asid).valid = true → (s.asidEntry asid).dbbase ≠ 0 →
          (12 < b + (others.map (·.budget)).sum → answers (.drogueReg asid n) 0x09) ∧
          (b + (others.map (·.budget)).sum ≤ 12 → ∃ t, exec (.drogueReg asid n) s = .next t ∧ t.mbCode = 0 ∧
            t.drogue = others ++ [⟨asid, b, 0, false, false, []⟩]))) ∧
      (s.mbBusy = false → s.supply = .on → addr.toNat % 128 = 0 → addr.toNat + n ≤ deviceLimit →
        ∃ t, exec (.imageArea asid addr n) s = .next t ∧ t.mbCode = 0 ∧ (asid, addr, n) ∈ t.imageAreas ∧
          ∀ a ∈ t.imageAreas, a.1 = asid → a = (asid, addr, n)) ∧
      (s.mbBusy = false → s.supply = .on → ∀ c cs, s.drogue = c :: cs → c.asid = asid → ∃ t, exec (.ckpt asid) s = .next t ∧
        t.mbCode = 0 ∧ t.drogue =
          { c with dcount := (s.dirtyGranules (s.asidEntry asid)).length, lapsed := false, raised := false, later := [] } :: cs) ∧
      (s.mbBusy = false → s.supply = .on → ∃ t, exec (.signed bs) s = .next t ∧ t.mbBusy = false ∧
        if Config.signatureValid bs = false ∨ Config.signedSequence bs ≤ s.signedSeq then t = { s with mbCode := 2, mbErr := true, mbBusy := false }
        else t.signedSeq = Config.signedSequence bs ∧ (Config.signedPartitionWrite bs = none →
          t = { s with signedSeq := Config.signedSequence bs, mbCode := 0, mbErr := false, mbBusy := false })) ∧
      (s.mbBusy = false → s.supply = .on →
        (s.restoreCode (s.imageAt addr.toNat) n ≠ 0 → answers (.restore addr n) (s.restoreCode (s.imageAt addr.toNat) n)) ∧
        (∀ q, s.queue? n = some q → s.restoreCode (s.imageAt addr.toNat) n = 0 → ∃ t, exec (.restore addr n) s = .next t ∧ t.mbCode = 0 ∧
          t.mbErr = false ∧ t.teams = (s.install (s.imageAt addr.toNat) q).teams))) ∧
  (∀ (s : State) (vals : List Word), vals.length = 28 →
      (s.clock < s.sensorsDue → exec (.sensorRefresh vals) s = .next s) ∧
      (s.sensorsDue ≤ s.clock → ∃ t, exec (.sensorRefresh vals) s = .next t ∧ (∀ i : Fin 28, i.val < 27 → vals[i.val]? = some (t.sensors.get i)) ∧
        t.sensors.get 27 = BitVec.ofNat 32 t.mhz ∧ t.sensorsDue = s.sensorsDue + 1000 * t.mhz ∧
        ((∃ i, i < 7 ∧ ∃ w, vals[1 + i]? = some w ∧ 1050 < w.toNat) → t.mhz = max 1000 (s.mhz - 100)) ∧ t.teams = s.teams))

/-! ## Frames (spec/05, spec/07, spec/10) -/

/-- 05 R103–R125: an instruction that works on registers alone changes nothing of the module but its destination
registers, its PC and the counts of its core, when it takes no trap and no breakpoint or step acts on it: no other
register, mask, lane or special register, no byte of memory or scratchpad, and no other stream. 05 R115, R116: a mask
instruction of a team changes nothing of the module but its destination mask, its PC and the counts of its core, when
it takes no trap and no breakpoint or step acts on it. 02 R30, 05 R115, R116, 13 R287: a mask instruction that
completes leaves every vacant lane out of every mask register, when none was in one before; and so does RFT, by the
model's reading (notes/assumptions/24). -/
def Obligations.ScalarInstructionsChangeOnlyDestinations : Prop :=
  (∀ (s t : State) (st : StreamId) (sc : Scalar) (d a b : BitVec 6) (k : BitVec 4) (m : BitVec 14) (n : BitVec 5) (o : BitVec 16)
      (p : BitVec 20) (h : BitVec 4), Issuing s st sc → s.quiet st → s.tablesWf = true →
      let keeps := fun (i : Instr) (ds : List (BitVec 6)) => exec i s = .next t →
        (∃ trap, t = s.scalarTrap st trap sc.pc) ∨ ScalarFrame s t st ds
      (∀ i ∈ ([.add d a b, .sub d a b, .mul d a b, .mulh d a b, .mulhn d a b, .and d a b, .or d a b, .xor d a b, .andn d a b,
        .shl d a b, .shr d a b, .sra d a b, .min d a b, .max d a b, .minn d a b, .maxn d a b, .clz d a, .ctz d a, .popc d a, .addi d a m, .andi d a m, .ori d a m, .xori d a m, .shli d a n, .shri d a n, .srai d a n, .lih d p,
        .ceq d a b, .cne d a b, .clt d a b, .cle d a b, .cltn d a b, .clen d a b, .aceq d a b, .acltn d a b, .ceqi d a m, .clti d a m] :
        List Instr), keeps i [d]) ∧
      (∀ i ∈ ([.aaddi d a m, .aadd d a b, .asub d a b, .aaddx d a b h, .callr d a] : List Instr), keeps i [d, d + 1]) ∧
      (∀ i ∈ ([.kpop k d, .kfirst k d, .ksum k d] : List Instr), keeps i [d]) ∧
      (∀ i ∈ ([.nop, .b o, .beqz a o, .bnez a o, .bltz a o, .bgez a o, .bgtz a o, .blez a o, .bkz k o, .bknz k o, .jr a] : List Instr),
        keeps i []) ∧
      keeps (.call a o) [a, a + 1]) ∧
  (∀ (s t : State) (x : Team) (d a b : BitVec 4) (r : BitVec 6) (w : BitVec 5), TeamIssues s x → s.quiet (.team x.id) →
      ∀ i ∈ ([.kmov d a, .knot d a, .kand d a b, .kor d a b, .kxor d a b, .kandn d a b, .kall d, .kclr d, .ksetn d r, .kmovv d w r] :
        List Instr), exec i s = .next t → (∃ trap, t = s.scalarTrap (.team x.id) trap x.sc.pc) ∨ MaskFrame s t x.id [d]) ∧
  (∀ (s t : State) (x : Team) (d a b : BitVec 4) (r : BitVec 6) (w : BitVec 5), TeamIssues s x → s.quiet (.team x.id) →
      (∀ j, x.k j &&& x.kv = 0) → (x.sc.reg r).poison = false → w.toNat < x.nw →
      ∀ i ∈ ([.kmov d a, .knot d a, .kand d a b, .kor d a b, .kxor d a b, .kandn d a b, .kall d, .kclr d, .ksetn d r, .kmovv d w r,
        .exit a, .rft] : List Instr), exec i s = .next t → ∃ y, t.team? x.id = some y ∧ ∀ j, y.k j &&& y.kv = 0)

/-- 07 R145, R148: a lane instruction that computes changes no lane that its mask does not govern, no register but its
destination, no mask but a mask destination, no scalar register and no byte of memory, when it takes no trap and no
breakpoint or step acts on it. -/
def Obligations.LaneInstructionsChangeOnlyGovernedLanes : Prop :=
  ∀ (s t u : State) (x : LaneArgs) (c w : LaneCtx) (f : FTy) (d : DTy) (q : ITy) (b : Wd) (k : RTy) (m n : Fmt) (h : FRel) (r : IRel),
    s.tablesWf = true → u.quiet (.team c.id) →
    (∀ i ∈ ([.fadd f x, .fsub f x, .fmul f x, .ffma f x, .ffms f x, .fmin f x, .fmax f x, .fabs f x, .fneg f x, .frint f x, .fclass f x,
      .frcp d x, .frsq d x, .fsqrt d x, .fdiv d x, .fexp2 x, .flog2 x, .fsint x, .fcost x, .cvt m n x, .iadd q x, .isub q x, .imul q x,
      .imulh q x, .imad q x, .imin q x, .imax q x, .iabs b x, .ineg b x, .iadds q x, .isubs q x, .laneAnd b x, .laneOr b x, .laneXor b x,
      .laneAndn b x, .not b x, .laneShl b x, .laneShr b x, .laneSra b x, .rol b x, .ror b x, .laneClz b x, .laneCtz b x, .lanePopc b x,
      .brev b x, .bfe b x, .bfi b x, .mov b x, .sel b x, .fcmp h d x, .icmp r q x, .shflIdx b x, .shflXor b x, .shflUp b x,
      .shflDown b x, .bcast b x, .lidx x, .redAdd k x, .redMin k x, .redMax k x, .redAnd b x, .redOr b x, .scanAdd k x, .scanAddx k x,
      .scanMax k x] : List Instr),
      LaneReads i s c w u → exec i s = .next t →
      (∃ (trap : Trap) (v : State), v.mem = u.mem ∧ t = v.laneTrap c trap) ∨
      (t.mem = u.mem ∧ t.poison = u.poison ∧ t.groups = u.groups ∧ (∀ z, z ≠ c.id → t.team? z = u.team? z) ∧
        ∃ y, t.team? c.id = some y ∧
          (∀ j z, (j ∉ c.g ∨ c.args.dk ≠ .reg ∨ (z ≠ c.args.di.toNat ∧ (c.sig.dst = .w64 → z ≠ c.args.di.toNat + 1))) → j < 1024 →
            y.v z j = c.x.v z j) ∧
          (∀ z, c.args.dk ≠ .mask ∨ z ≠ c.args.di.extractLsb' 0 4 → y.k z = c.x.k z) ∧ y.kv = c.x.kv ∧
          y.sc.regs = c.x.sc.regs ∧ y.sc.pc = c.x.sc.pc ∧ y.lanePc = c.x.lanePc + 3 + x.lits.length))

/-- 10 R230, R231, R240, 11 R249, 15 R339: a store changes no byte of memory outside the bytes that it stores to, but for
the dirty bits that the write marks: the byte of the page's entry that holds D, and the bytes of the context's dirty
bitmap. Its bytes of scratchpad, of a die's scratchpad and of memory hold the datum. It writes no register. -/
def Obligations.StoresChangeOnlyTheirBytes : Prop :=
  ∀ (s : State) (ag : Agent) (p : Spot) (bs : List Byte) (q : Bool), s.memoriesWf = true → s.tablesWf = true →
    let t := s.writeEvent ag p bs q
    let marks := fun (a : Nat) => ∃ va, p.va = some va ∧
      ((∃ e, (p.tr = some e ∨ e ∈ s.tlb ∧ e.covers ag.owner ag.asid (va57 va) = true) ∧ e.pte = a) ∨
        ∃ c ∈ s.asids, c.asid = ag.asid ∧ c.dbbase ≤ a ∧ a < c.dbbase + c.dblen / 8 + 1)
    (∀ a, marks a ∨ t.mem.read a = s.mem.read a ∨ ∃ pa, p.loc = .mem pa ∧ pa ≤ a ∧ a < pa + bs.length) ∧
    (∀ c o, (t.core c).scratch.read o = (s.core c).scratch.read o ∨ ∃ b, p.loc = .scratch c b ∧ b ≤ o ∧ o < b + bs.length) ∧
    (let dies := fun (u : State) (l d o : Nat) => ((u.dscratch? l d).map (fun x => x.bytes.read o)).getD 0
      ∀ l d o, (dies t l d o = dies s l d o ∨ ∃ b, p.loc = .dscratch l d b ∧ b ≤ o ∧ o < b + bs.length) ∧
        (∀ i, p.loc = .dscratch l d o → i < bs.length → dies t l d (o + i) = bs.getD i 0)) ∧
    (∀ pa, p.loc = .mem pa → s.hostErr p.loc = false → t.mem.readBytes pa bs.length = bs) ∧
    (∀ c o, p.loc = .scratch c o → ((t.core c).scratch).readBytes o bs.length = bs) ∧
    (∀ st, (t.scalar? st).map (·.regs) = (s.scalar? st).map (·.regs)) ∧ t.groups = s.groups ∧ t.gangs = s.gangs ∧ t.launches = s.launches

/-! ## Decoding, steps and invariants -/

/-- 03 R57–R72, R77: words written out from the encodings of the spec's own examples decode to the instructions that they
stand for, and words that the tables leave out are refused. -/
def Obligations.ExampleWordsDecode : Prop :=
  decodeTableWord 32 0x38810923 = some (.aaddx 8 4 9 3) ∧ decodeTableWord 32 0x54000000 = some (.lrun 0 0) ∧
  decodeTableWord 32 0x50804005 = some (.kandn 2 0 1) ∧ decodeTableWord 32 0x44100002 = some (.bkz 1 2) ∧
  decodeTableWord 32 0x4C000000 = some .nop ∧ decodeTableWord 32 0 = none ∧ decodeTableWord 32 0xFFFFFFFF = none ∧
  decodeTableWord 96 0xFFF = none

/-- 03 R61–R72: the words that encode a well-formed instruction decode to it: a scalar instruction from its word, and a
lane instruction from its three words and its literals, whatever words follow. -/
def Obligations.EncodedInstructionsDecode : Prop :=
  ∀ (i : Instr) (rest : List Word), i.wf = true →
    (∀ w, encodeScalar i = some w → encode i = [w] ∧ decodeScalar w = .ok i ∧
      decodeScalarBytes (bytesOfWords (w :: rest)) = .ok (i, bytesOfWords rest)) ∧
    (encodeScalar i = none → encode i ≠ [] → decodeLane (encode i ++ rest) = .ok (i, rest) ∧
      decodeLaneBytes (bytesOfWords (encode i ++ rest)) = .ok i)

/-- 05 R103–R107, 03 R58, R59, R74, 04 R96, 14 R316: a step in which a scalar pipe, a quadrant or a control core has its
opportunity runs the instruction whose word, or words, the fetch of the team that it chooses finds; it takes ILLEGAL
for a word that no table row decodes and the fetch's own trap where a fetch faults; a pending event is taken first; a
port with no team to choose issues nothing; with the agenda empty the current stream's oldest access that can go on
does so, or its port has its opportunity; and a scheduled event of the module runs as it is. Every step then does what
falls due in it, which is nothing while no mapping goes away, no stack is being left and the run list's turn stands.
Which opportunity comes next is the model's form (notes/assumptions/2, 100), that a fetch changes nothing but what its
translation fills is its reading (notes/assumptions/13), so is that an undecodable word with HOLD set counts as in a
chain (notes/assumptions/108), how a quadrant's choices join and that a team begins to wait for its phase at the
opportunity is its choice (notes/assumptions/107), and that what issues beside an access is noted in it, for a freeze
to withdraw, is its form (notes/assumptions/45). 04 R96, 03 R69, R77: a lane instruction with no constant-window
source, outside a chain, of a team that no chain reads for, passes its decode checks and reads its operands as they
stand: nothing but the stream's own chain record may change. -/
def Obligations.StepsRunDecodedInstructions : Prop :=
  (
    let goes := fun (s v : State) => step s = .next (v.settled s)
    let runs := fun (s v : State) (st : StreamId) (i : Instr) => step s = settle s (exec i (v.keepBack st (reachesOut i)))
    let scalar := fun (s u : State) (st : StreamId) (ag : Agent) (pc : DWord) =>
      (∀ v w i, u.fetchScalar st ag pc = .ok v w → decodeScalar w = .ok i → runs s v st i) ∧
      (∀ v w e, u.fetchScalar st ag pc = .ok v w → decodeScalar w = .error e → goes s (v.scalarTrap st (Trap.of .illegal) pc)) ∧
      (∀ v t, u.fetchScalar st ag pc = .trap v t → goes s (v.scalarTrap st t pc)) ∧
      (∀ v, u.fetchScalar st ag pc = .retry v → goes s v) ∧
      (∀ v w, u.fetchScalar st ag pc = .ok v w → ∃ e pa, u.translate ag pc = (v, .ok e pa) ∧
        w = BitVec.ofNat 32 (natOfBytes (v.mem.readBytes pa 4)))
    let lane := fun (s u : State) (x : Team) => ∀ ag e, u.agentOf (.team x.id) = some ag → u.entryOf x = some e →
      (x.takesEvent = true → step s = settle s (exec (.eventEntry x.id) u)) ∧
      (x.takesEvent = false →
        (∀ v ws i r, u.fetchLane ag e x.lanePc = .ok v ws → decodeLane ws = .ok (i, r) → runs s v (.team x.id) i) ∧
        (∀ v ws r, u.fetchLane ag e x.lanePc = .ok v ws → decodeLane ws = .error r →
          goes s (v.takeLaneTrap x.id ⟨.illegal, 0, 0, x.governed (ksField ws)⟩ (x.chainPos != 0 || holdBit ws))) ∧
        (∀ v t, u.fetchLane ag e x.lanePc = .trap v t → goes s (v.takeLaneTrap x.id { t with lanes := x.k 0 } (x.chainPos != 0))))
    let live := fun (u : State) (st : StreamId) => ({ u with cur := some st } : State)
    (∀ (s : State) (p : Port) (lim : Option Nat) (ts : List Turn), s.agenda = .issue p lim :: ts →
      let r : State := { s with agenda := ts, limit := lim }
      match p with
      | .ctrl cl => ∀ g ag, r.group? cl = some g → r.agentOf (.ctrl cl) = some ag →
        (r.ctrlReady g = true → scalar s (live r (.ctrl cl)) (.ctrl cl) ag g.sc.pc) ∧ (r.ctrlReady g = false → goes s r)
      | .pipe core => ∀ v,
        (r.choosePipe core ((r.pipeCan core).map (·.id)) = (none, v) → goes s v) ∧
        (∀ x ag e, r.choosePipe core ((r.pipeCan core).map (·.id)) = (some x.id, v) → v.team? x.id = some x →
          (live v (.team x.id)).agentOf (.team x.id) = some ag → (live v (.team x.id)).entryOf x = some e →
          (x.takesEvent = true → step s = settle s (exec (.eventEntry x.id) (live v (.team x.id)))) ∧
          (x.takesEvent = false → scalar s (live v (.team x.id)) (.team x.id) ag x.sc.pc))
      | .quad core q =>
        let chain := (r.quadTeams core q).find? (fun t => t.chainPos != 0)
        let z := (r.quadTeams core q).foldl State.parkTeam r
        let ready := (z.quadReady core q).find? (fun k => z.laneGoes core k && z.mayGo core k.1)
        let picks := z.chooseQuad core q ((z.quadCan core q).map (·.1.id))
        (∀ x, chain = some x →
          ((r.laneReady x).isSome = true → lane s (live r (.team x.id)) x) ∧ (r.laneReady x = none → goes s r)) ∧
        (∀ x n, chain = none → ready = some (x, n) → lane s (live z (.team x.id)) x) ∧
        (∀ v, chain = none → ready = none → picks = (none, v) → goes s v) ∧
        (∀ x y n v, chain = none → ready = none → picks = (some x.id, v) → v.team? x.id = some x →
          (z.quadCan core q).find? (fun k => k.1.id = x.id) = some (y, n) →
          let b := x.begins q
          let w := v.mapTeam x.id (fun _ => b)
          (w.laneGoes core (b, n) = true → lane s (live w (.team x.id)) b) ∧ (w.laneGoes core (b, n) = false → goes s w))) ∧
    (∀ (s : State) (st : StreamId), s.agenda = [] → s.cur = some st → s.limit = none → s.canIssue st = true →
      let opp := fun (p : Port) => step s = step { s with agenda := [.issue p none] }
      (∀ k, s.nextAcc st = some k → goes s ((s.performSlot st k).delivered st)) ∧
      (s.nextAcc st = none →
        (∀ cl, st = .ctrl cl → opp (.ctrl cl)) ∧
        (∀ x p, st = .team x.id → s.team? x.id = some x → x.place = some p → s.laneReady x = none → opp (.pipe p.core)) ∧
        (∀ x p n q, st = .team x.id → s.team? x.id = some x → x.place = some p → s.laneReady x = some n →
          (n.quads.find? (fun k => !x.begun.contains k)).getD 0 = q → opp (.quad p.core q)))) ∧
    (∀ (s : State) (i : Instr) (ts : List Turn), s.agenda = .event i :: ts → encode i = [] →
      step s = settle s (exec i { s with agenda := ts, limit := none })) ∧
    (∀ (s t : State), s.deadStacks = [] → (∀ g, t.mapped g = true → s.mapped g = true) → s.turnNext = none →
      (∀ p, s.turnProc = some p → p ∈ s.processes) → s.settled t = s) ∧
    (∀ (s : State) (st : StreamId) (out : Bool), (∀ sc, s.scalar? st = some sc → sc.acc = none) → s.keepBack st out = s)) ∧
  (∀ (s : State) (i : Instr) (c : LaneCtx), s.laneCtx i = some c → laneCheck s c.x i c.sig c.args = none → c.args.hold = false →
      c.x.chainReads = none → c.sig.windows c.args = [] →
      LaneReads i s c (c.withWindows []) (s.mapTeam c.id (fun t => { t with chainReads := some [] })) ∧
      (∀ j, (c.withWindows []).a j = c.a j ∧ (c.withWindows []).b j = c.b j ∧ (c.withWindows []).c j = c.c j))

/-- 12 R261, R262, 14 R308, 16 R343, 17 R372, R376, 18 R381: after reset nothing runs and nothing is registered, MSTATE is
INIT, the host's registers, the counters and the debug blocks are zero, partition 0 alone is valid, every partition
names every cluster of every die, and every granule is UNCL. The fused and flash values and those of registers without
a stated reset are the model's (notes/assumptions/6, 15, 16). After reset every memory is in the model's canonical
form (notes/assumptions/1) and no feature that is not offered is accepted. -/
def Obligations.ResetLeavesNothingRunning : Prop :=
  (
    let s := State.reset
    s.teams = [] ∧ s.groups = [] ∧ s.launches = [] ∧ s.queues = [] ∧ s.gangs = [] ∧ s.ops = [] ∧ s.mstate = 0 ∧ s.qtbase = 0 ∧ s.qtsize = 0 ∧
      s.qstat = 0 ∧ s.asidbase = 0 ∧ s.fwacc = Vector.replicate 4 0 ∧ s.clock = 0 ∧ s.rlslots = 32 ∧
      (∀ p : Fin 8, (s.partitions.get p).valid = decide (p = 0) ∧ (s.partitions.get p).regcap = 512 ∧ (s.partitions.get p).slotcap = 16) ∧
      (∀ p : Fin 8, (s.partitions.get p).clmask = 2 ^ 54 - 1 ∧ (s.partitions.get p).pdies = 0x3F ∧ (s.partitions.get p).quantum = 10000) ∧
      (∀ c, (s.core c).iret = 0 ∧ (s.core c).dbg = ⟨0, 0, 0, Vector.replicate 4 0, Vector.replicate 4 0, 0, 0, 0, 0, 0⟩ ∧ ∀ i, (s.core c).pmc.get i = 0 ∧ (s.core c).psel.get i = 0) ∧
      (∀ g, s.classOf g = .uncl) ∧ s.tlb = [] ∧ s.dir = [] ∧ s.collections = []) ∧
  (State.reset.memoriesWf = true ∧ ∀ i, State.reset.fwacc.get i &&& ~~~(State.reset.fw.get i) = 0)

/-- The model's own form (notes/assumptions/1): every step keeps every memory in its canonical form: device and host
memory, the scratchpads of cores and those of dies. -/
def Obligations.StepsKeepMemoriesCanonical : Prop :=
  ∀ (s t : State), s.memoriesWf = true → step s = .next t → t.memoriesWf = true

/-- 12 R262: no step changes the feature words that the module offers, and every step keeps the accepted features among
them. -/
def Obligations.StepsKeepFeatures : Prop :=
  ∀ (s t : State), (∀ i, s.fwacc.get i &&& ~~~(s.fw.get i) = 0) → step s = .next t →
    t.fw = s.fw ∧ ∀ i, t.fwacc.get i &&& ~~~(t.fw.get i) = 0
end

