-- ==== Sys2Proof/Laws/State.lean ====
section
/-! SUPPORT. What each update of the state leaves of every field: one lemma per field per update. -/

namespace Sys2Proof.Machine

/-! ## setTeam -/

@[simp] theorem State.setTeam_agenda (s : State) (t : Team) : (s.setTeam t).agenda = s.agenda := rfl
@[simp] theorem State.setTeam_cur (s : State) (t : Team) : (s.setTeam t).cur = s.cur := rfl
@[simp] theorem State.setTeam_limit (s : State) (t : Team) : (s.setTeam t).limit = s.limit := rfl
@[simp] theorem State.setTeam_migrating (s : State) (t : Team) : (s.setTeam t).migrating = s.migrating := rfl
@[simp] theorem State.setTeam_statDue (s : State) (t : Team) : (s.setTeam t).statDue = s.statDue := rfl
@[simp] theorem State.setTeam_qcmdDue (s : State) (t : Team) : (s.setTeam t).qcmdDue = s.qcmdDue := rfl
@[simp] theorem State.setTeam_freeCount (s : State) (t : Team) : (s.setTeam t).freeCount = s.freeCount := rfl
@[simp] theorem State.setTeam_readySeq (s : State) (t : Team) : (s.setTeam t).readySeq = s.readySeq := rfl
@[simp] theorem State.setTeam_takeSeq (s : State) (t : Team) : (s.setTeam t).takeSeq = s.takeSeq := rfl
@[simp] theorem State.setTeam_clock (s : State) (t : Team) : (s.setTeam t).clock = s.clock := rfl
@[simp] theorem State.setTeam_mem (s : State) (t : Team) : (s.setTeam t).mem = s.mem := rfl
@[simp] theorem State.setTeam_poison (s : State) (t : Team) : (s.setTeam t).poison = s.poison := rfl
@[simp] theorem State.setTeam_fw (s : State) (t : Team) : (s.setTeam t).fw = s.fw := rfl
@[simp] theorem State.setTeam_fwacc (s : State) (t : Team) : (s.setTeam t).fwacc = s.fwacc := rfl
@[simp] theorem State.setTeam_qtbase (s : State) (t : Team) : (s.setTeam t).qtbase = s.qtbase := rfl
@[simp] theorem State.setTeam_qtsize (s : State) (t : Team) : (s.setTeam t).qtsize = s.qtsize := rfl
@[simp] theorem State.setTeam_qstat (s : State) (t : Team) : (s.setTeam t).qstat = s.qstat := rfl
@[simp] theorem State.setTeam_mstate (s : State) (t : Team) : (s.setTeam t).mstate = s.mstate := rfl
@[simp] theorem State.setTeam_asidbase (s : State) (t : Team) : (s.setTeam t).asidbase = s.asidbase := rfl
@[simp] theorem State.setTeam_bstate (s : State) (t : Team) : (s.setTeam t).bstate = s.bstate := rfl
@[simp] theorem State.setTeam_up (s : State) (t : Team) : (s.setTeam t).up = s.up := rfl
@[simp] theorem State.setTeam_firmware (s : State) (t : Team) : (s.setTeam t).firmware = s.firmware := rfl
@[simp] theorem State.setTeam_mbCode (s : State) (t : Team) : (s.setTeam t).mbCode = s.mbCode := rfl
@[simp] theorem State.setTeam_mbErr (s : State) (t : Team) : (s.setTeam t).mbErr = s.mbErr := rfl
@[simp] theorem State.setTeam_mbBusy (s : State) (t : Team) : (s.setTeam t).mbBusy = s.mbBusy := rfl
@[simp] theorem State.setTeam_mbarg (s : State) (t : Team) : (s.setTeam t).mbarg = s.mbarg := rfl
@[simp] theorem State.setTeam_sensors (s : State) (t : Team) : (s.setTeam t).sensors = s.sensors := rfl
@[simp] theorem State.setTeam_mhz (s : State) (t : Team) : (s.setTeam t).mhz = s.mhz := rfl
@[simp] theorem State.setTeam_sensorsDue (s : State) (t : Team) : (s.setTeam t).sensorsDue = s.sensorsDue := rfl
@[simp] theorem State.setTeam_hotFor (s : State) (t : Team) : (s.setTeam t).hotFor = s.hotFor := rfl
@[simp] theorem State.setTeam_coolFor (s : State) (t : Team) : (s.setTeam t).coolFor = s.coolFor := rfl
@[simp] theorem State.setTeam_alerts (s : State) (t : Team) : (s.setTeam t).alerts = s.alerts := rfl
@[simp] theorem State.setTeam_alertIx (s : State) (t : Team) : (s.setTeam t).alertIx = s.alertIx := rfl
@[simp] theorem State.setTeam_interrupts (s : State) (t : Team) : (s.setTeam t).interrupts = s.interrupts := rfl
@[simp] theorem State.setTeam_signedSeq (s : State) (t : Team) : (s.setTeam t).signedSeq = s.signedSeq := rfl
@[simp] theorem State.setTeam_errlog (s : State) (t : Team) : (s.setTeam t).errlog = s.errlog := rfl
@[simp] theorem State.setTeam_ports (s : State) (t : Team) : (s.setTeam t).ports = s.ports := rfl
@[simp] theorem State.setTeam_iodLinkDown (s : State) (t : Team) : (s.setTeam t).iodLinkDown = s.iodLinkDown := rfl
@[simp] theorem State.setTeam_supply (s : State) (t : Team) : (s.setTeam t).supply = s.supply := rfl
@[simp] theorem State.setTeam_energyLow (s : State) (t : Team) : (s.setTeam t).energyLow = s.energyLow := rfl
@[simp] theorem State.setTeam_flash (s : State) (t : Team) : (s.setTeam t).flash = s.flash := rfl
@[simp] theorem State.setTeam_gangSeq (s : State) (t : Team) : (s.setTeam t).gangSeq = s.gangSeq := rfl
@[simp] theorem State.setTeam_startSeq (s : State) (t : Team) : (s.setTeam t).startSeq = s.startSeq := rfl
@[simp] theorem State.setTeam_rlslots (s : State) (t : Team) : (s.setTeam t).rlslots = s.rlslots := rfl
@[simp] theorem State.setTeam_partitions (s : State) (t : Team) : (s.setTeam t).partitions = s.partitions := rfl
@[simp] theorem State.setTeam_coreMaps (s : State) (t : Team) : (s.setTeam t).coreMaps = s.coreMaps := rfl
@[simp] theorem State.setTeam_noMatrix (s : State) (t : Team) : (s.setTeam t).noMatrix = s.noMatrix := rfl
@[simp] theorem State.setTeam_asids (s : State) (t : Team) : (s.setTeam t).asids = s.asids := rfl
@[simp] theorem State.setTeam_queues (s : State) (t : Team) : (s.setTeam t).queues = s.queues := rfl
@[simp] theorem State.setTeam_turnProc (s : State) (t : Team) : (s.setTeam t).turnProc = s.turnProc := rfl
@[simp] theorem State.setTeam_turnStart (s : State) (t : Team) : (s.setTeam t).turnStart = s.turnStart := rfl
@[simp] theorem State.setTeam_turnNext (s : State) (t : Team) : (s.setTeam t).turnNext = s.turnNext := rfl
@[simp] theorem State.setTeam_nextOrder (s : State) (t : Team) : (s.setTeam t).nextOrder = s.nextOrder := rfl
@[simp] theorem State.setTeam_launches (s : State) (t : Team) : (s.setTeam t).launches = s.launches := rfl
@[simp] theorem State.setTeam_nextLaunch (s : State) (t : Team) : (s.setTeam t).nextLaunch = s.nextLaunch := rfl
@[simp] theorem State.setTeam_shards (s : State) (t : Team) : (s.setTeam t).shards = s.shards := rfl
@[simp] theorem State.setTeam_groups (s : State) (t : Team) : (s.setTeam t).groups = s.groups := rfl
@[simp] theorem State.setTeam_cores (s : State) (t : Team) : (s.setTeam t).cores = s.cores := rfl
@[simp] theorem State.setTeam_ctrlIret (s : State) (t : Team) : (s.setTeam t).ctrlIret = s.ctrlIret := rfl
@[simp] theorem State.setTeam_dscratch (s : State) (t : Team) : (s.setTeam t).dscratch = s.dscratch := rfl
@[simp] theorem State.setTeam_gangs (s : State) (t : Team) : (s.setTeam t).gangs = s.gangs := rfl
@[simp] theorem State.setTeam_tags (s : State) (t : Team) : (s.setTeam t).tags = s.tags := rfl
@[simp] theorem State.setTeam_ops (s : State) (t : Team) : (s.setTeam t).ops = s.ops := rfl
@[simp] theorem State.setTeam_barriers (s : State) (t : Team) : (s.setTeam t).barriers = s.barriers := rfl
@[simp] theorem State.setTeam_reports (s : State) (t : Team) : (s.setTeam t).reports = s.reports := rfl
@[simp] theorem State.setTeam_classes (s : State) (t : Team) : (s.setTeam t).classes = s.classes := rfl
@[simp] theorem State.setTeam_reclass (s : State) (t : Team) : (s.setTeam t).reclass = s.reclass := rfl
@[simp] theorem State.setTeam_tlb (s : State) (t : Team) : (s.setTeam t).tlb = s.tlb := rfl
@[simp] theorem State.setTeam_walkCache (s : State) (t : Team) : (s.setTeam t).walkCache = s.walkCache := rfl
@[simp] theorem State.setTeam_dir (s : State) (t : Team) : (s.setTeam t).dir = s.dir := rfl
@[simp] theorem State.setTeam_l1 (s : State) (t : Team) : (s.setTeam t).l1 = s.l1 := rfl
@[simp] theorem State.setTeam_constLines (s : State) (t : Team) : (s.setTeam t).constLines = s.constLines := rfl
@[simp] theorem State.setTeam_net (s : State) (t : Team) : (s.setTeam t).net = s.net := rfl
@[simp] theorem State.setTeam_hostLines (s : State) (t : Team) : (s.setTeam t).hostLines = s.hostLines := rfl
@[simp] theorem State.setTeam_hostStalls (s : State) (t : Team) : (s.setTeam t).hostStalls = s.hostStalls := rfl
@[simp] theorem State.setTeam_hostReply (s : State) (t : Team) : (s.setTeam t).hostReply = s.hostReply := rfl
@[simp] theorem State.setTeam_links (s : State) (t : Team) : (s.setTeam t).links = s.links := rfl
@[simp] theorem State.setTeam_collections (s : State) (t : Team) : (s.setTeam t).collections = s.collections := rfl
@[simp] theorem State.setTeam_nextCollection (s : State) (t : Team) : (s.setTeam t).nextCollection = s.nextCollection := rfl
@[simp] theorem State.setTeam_savedScratch (s : State) (t : Team) : (s.setTeam t).savedScratch = s.savedScratch := rfl
@[simp] theorem State.setTeam_saveOrder (s : State) (t : Team) : (s.setTeam t).saveOrder = s.saveOrder := rfl
@[simp] theorem State.setTeam_reservations (s : State) (t : Team) : (s.setTeam t).reservations = s.reservations := rfl
@[simp] theorem State.setTeam_waitingNb (s : State) (t : Team) : (s.setTeam t).waitingNb = s.waitingNb := rfl
@[simp] theorem State.setTeam_imageAreas (s : State) (t : Team) : (s.setTeam t).imageAreas = s.imageAreas := rfl
@[simp] theorem State.setTeam_drogue (s : State) (t : Team) : (s.setTeam t).drogue = s.drogue := rfl
@[simp] theorem State.setTeam_counts (s : State) (t : Team) : (s.setTeam t).counts = s.counts := rfl
@[simp] theorem State.setTeam_arrayErrors (s : State) (t : Team) : (s.setTeam t).arrayErrors = s.arrayErrors := rfl
@[simp] theorem State.setTeam_usedSpares (s : State) (t : Team) : (s.setTeam t).usedSpares = s.usedSpares := rfl
@[simp] theorem State.setTeam_lost (s : State) (t : Team) : (s.setTeam t).lost = s.lost := rfl
@[simp] theorem State.setTeam_deadStacks (s : State) (t : Team) : (s.setTeam t).deadStacks = s.deadStacks := rfl
@[simp] theorem State.setTeam_leafStops (s : State) (t : Team) : (s.setTeam t).leafStops = s.leafStops := rfl
@[simp] theorem State.setTeam_flushDue (s : State) (t : Team) : (s.setTeam t).flushDue = s.flushDue := rfl
@[simp] theorem State.setTeam_defects (s : State) (t : Team) : (s.setTeam t).defects = s.defects := rfl
@[simp] theorem State.setTeam_moves (s : State) (t : Team) : (s.setTeam t).moves = s.moves := rfl

/-! ## mapTeam -/

@[simp] theorem State.mapTeam_agenda (s : State) (i : TeamId) (f : Team → Team) : (s.mapTeam i f).agenda = s.agenda := rfl
@[simp] theorem State.mapTeam_cur (s : State) (i : TeamId) (f : Team → Team) : (s.mapTeam i f).cur = s.cur := rfl
@[simp] theorem State.mapTeam_limit (s : State) (i : TeamId) (f : Team → Team) : (s.mapTeam i f).limit = s.limit := rfl
@[simp] theorem State.mapTeam_migrating (s : State) (i : TeamId) (f : Team → Team) : (s.mapTeam i f).migrating = s.migrating := rfl
@[simp] theorem State.mapTeam_statDue (s : State) (i : TeamId) (f : Team → Team) : (s.mapTeam i f).statDue = s.statDue := rfl
@[simp] theorem State.mapTeam_qcmdDue (s : State) (i : TeamId) (f : Team → Team) : (s.mapTeam i f).qcmdDue = s.qcmdDue := rfl
@[simp] theorem State.mapTeam_freeCount (s : State) (i : TeamId) (f : Team → Team) : (s.mapTeam i f).freeCount = s.freeCount := rfl
@[simp] theorem State.mapTeam_readySeq (s : State) (i : TeamId) (f : Team → Team) : (s.mapTeam i f).readySeq = s.readySeq := rfl
@[simp] theorem State.mapTeam_takeSeq (s : State) (i : TeamId) (f : Team → Team) : (s.mapTeam i f).takeSeq = s.takeSeq := rfl
@[simp] theorem State.mapTeam_clock (s : State) (i : TeamId) (f : Team → Team) : (s.mapTeam i f).clock = s.clock := rfl
@[simp] theorem State.mapTeam_mem (s : State) (i : TeamId) (f : Team → Team) : (s.mapTeam i f).mem = s.mem := rfl
@[simp] theorem State.mapTeam_poison (s : State) (i : TeamId) (f : Team → Team) : (s.mapTeam i f).poison = s.poison := rfl
@[simp] theorem State.mapTeam_fw (s : State) (i : TeamId) (f : Team → Team) : (s.mapTeam i f).fw = s.fw := rfl
@[simp] theorem State.mapTeam_fwacc (s : State) (i : TeamId) (f : Team → Team) : (s.mapTeam i f).fwacc = s.fwacc := rfl
@[simp] theorem State.mapTeam_qtbase (s : State) (i : TeamId) (f : Team → Team) : (s.mapTeam i f).qtbase = s.qtbase := rfl
@[simp] theorem State.mapTeam_qtsize (s : State) (i : TeamId) (f : Team → Team) : (s.mapTeam i f).qtsize = s.qtsize := rfl
@[simp] theorem State.mapTeam_qstat (s : State) (i : TeamId) (f : Team → Team) : (s.mapTeam i f).qstat = s.qstat := rfl
@[simp] theorem State.mapTeam_mstate (s : State) (i : TeamId) (f : Team → Team) : (s.mapTeam i f).mstate = s.mstate := rfl
@[simp] theorem State.mapTeam_asidbase (s : State) (i : TeamId) (f : Team → Team) : (s.mapTeam i f).asidbase = s.asidbase := rfl
@[simp] theorem State.mapTeam_bstate (s : State) (i : TeamId) (f : Team → Team) : (s.mapTeam i f).bstate = s.bstate := rfl
@[simp] theorem State.mapTeam_up (s : State) (i : TeamId) (f : Team → Team) : (s.mapTeam i f).up = s.up := rfl
@[simp] theorem State.mapTeam_firmware (s : State) (i : TeamId) (f : Team → Team) : (s.mapTeam i f).firmware = s.firmware := rfl
@[simp] theorem State.mapTeam_mbCode (s : State) (i : TeamId) (f : Team → Team) : (s.mapTeam i f).mbCode = s.mbCode := rfl
@[simp] theorem State.mapTeam_mbErr (s : State) (i : TeamId) (f : Team → Team) : (s.mapTeam i f).mbErr = s.mbErr := rfl
@[simp] theorem State.mapTeam_mbBusy (s : State) (i : TeamId) (f : Team → Team) : (s.mapTeam i f).mbBusy = s.mbBusy := rfl
@[simp] theorem State.mapTeam_mbarg (s : State) (i : TeamId) (f : Team → Team) : (s.mapTeam i f).mbarg = s.mbarg := rfl
@[simp] theorem State.mapTeam_sensors (s : State) (i : TeamId) (f : Team → Team) : (s.mapTeam i f).sensors = s.sensors := rfl
@[simp] theorem State.mapTeam_mhz (s : State) (i : TeamId) (f : Team → Team) : (s.mapTeam i f).mhz = s.mhz := rfl
@[simp] theorem State.mapTeam_sensorsDue (s : State) (i : TeamId) (f : Team → Team) : (s.mapTeam i f).sensorsDue = s.sensorsDue := rfl
@[simp] theorem State.mapTeam_hotFor (s : State) (i : TeamId) (f : Team → Team) : (s.mapTeam i f).hotFor = s.hotFor := rfl
@[simp] theorem State.mapTeam_coolFor (s : State) (i : TeamId) (f : Team → Team) : (s.mapTeam i f).coolFor = s.coolFor := rfl
@[simp] theorem State.mapTeam_alerts (s : State) (i : TeamId) (f : Team → Team) : (s.mapTeam i f).alerts = s.alerts := rfl
@[simp] theorem State.mapTeam_alertIx (s : State) (i : TeamId) (f : Team → Team) : (s.mapTeam i f).alertIx = s.alertIx := rfl
@[simp] theorem State.mapTeam_interrupts (s : State) (i : TeamId) (f : Team → Team) : (s.mapTeam i f).interrupts = s.interrupts := rfl
@[simp] theorem State.mapTeam_signedSeq (s : State) (i : TeamId) (f : Team → Team) : (s.mapTeam i f).signedSeq = s.signedSeq := rfl
@[simp] theorem State.mapTeam_errlog (s : State) (i : TeamId) (f : Team → Team) : (s.mapTeam i f).errlog = s.errlog := rfl
@[simp] theorem State.mapTeam_ports (s : State) (i : TeamId) (f : Team → Team) : (s.mapTeam i f).ports = s.ports := rfl
@[simp] theorem State.mapTeam_iodLinkDown (s : State) (i : TeamId) (f : Team → Team) : (s.mapTeam i f).iodLinkDown = s.iodLinkDown := rfl
@[simp] theorem State.mapTeam_supply (s : State) (i : TeamId) (f : Team → Team) : (s.mapTeam i f).supply = s.supply := rfl
@[simp] theorem State.mapTeam_energyLow (s : State) (i : TeamId) (f : Team → Team) : (s.mapTeam i f).energyLow = s.energyLow := rfl
@[simp] theorem State.mapTeam_flash (s : State) (i : TeamId) (f : Team → Team) : (s.mapTeam i f).flash = s.flash := rfl
@[simp] theorem State.mapTeam_gangSeq (s : State) (i : TeamId) (f : Team → Team) : (s.mapTeam i f).gangSeq = s.gangSeq := rfl
@[simp] theorem State.mapTeam_startSeq (s : State) (i : TeamId) (f : Team → Team) : (s.mapTeam i f).startSeq = s.startSeq := rfl
@[simp] theorem State.mapTeam_rlslots (s : State) (i : TeamId) (f : Team → Team) : (s.mapTeam i f).rlslots = s.rlslots := rfl
@[simp] theorem State.mapTeam_partitions (s : State) (i : TeamId) (f : Team → Team) : (s.mapTeam i f).partitions = s.partitions := rfl
@[simp] theorem State.mapTeam_coreMaps (s : State) (i : TeamId) (f : Team → Team) : (s.mapTeam i f).coreMaps = s.coreMaps := rfl
@[simp] theorem State.mapTeam_noMatrix (s : State) (i : TeamId) (f : Team → Team) : (s.mapTeam i f).noMatrix = s.noMatrix := rfl
@[simp] theorem State.mapTeam_asids (s : State) (i : TeamId) (f : Team → Team) : (s.mapTeam i f).asids = s.asids := rfl
@[simp] theorem State.mapTeam_queues (s : State) (i : TeamId) (f : Team → Team) : (s.mapTeam i f).queues = s.queues := rfl
@[simp] theorem State.mapTeam_turnProc (s : State) (i : TeamId) (f : Team → Team) : (s.mapTeam i f).turnProc = s.turnProc := rfl
@[simp] theorem State.mapTeam_turnStart (s : State) (i : TeamId) (f : Team → Team) : (s.mapTeam i f).turnStart = s.turnStart := rfl
@[simp] theorem State.mapTeam_turnNext (s : State) (i : TeamId) (f : Team → Team) : (s.mapTeam i f).turnNext = s.turnNext := rfl
@[simp] theorem State.mapTeam_nextOrder (s : State) (i : TeamId) (f : Team → Team) : (s.mapTeam i f).nextOrder = s.nextOrder := rfl
@[simp] theorem State.mapTeam_launches (s : State) (i : TeamId) (f : Team → Team) : (s.mapTeam i f).launches = s.launches := rfl
@[simp] theorem State.mapTeam_nextLaunch (s : State) (i : TeamId) (f : Team → Team) : (s.mapTeam i f).nextLaunch = s.nextLaunch := rfl
@[simp] theorem State.mapTeam_shards (s : State) (i : TeamId) (f : Team → Team) : (s.mapTeam i f).shards = s.shards := rfl
@[simp] theorem State.mapTeam_groups (s : State) (i : TeamId) (f : Team → Team) : (s.mapTeam i f).groups = s.groups := rfl
@[simp] theorem State.mapTeam_cores (s : State) (i : TeamId) (f : Team → Team) : (s.mapTeam i f).cores = s.cores := rfl
@[simp] theorem State.mapTeam_ctrlIret (s : State) (i : TeamId) (f : Team → Team) : (s.mapTeam i f).ctrlIret = s.ctrlIret := rfl
@[simp] theorem State.mapTeam_dscratch (s : State) (i : TeamId) (f : Team → Team) : (s.mapTeam i f).dscratch = s.dscratch := rfl
@[simp] theorem State.mapTeam_gangs (s : State) (i : TeamId) (f : Team → Team) : (s.mapTeam i f).gangs = s.gangs := rfl
@[simp] theorem State.mapTeam_tags (s : State) (i : TeamId) (f : Team → Team) : (s.mapTeam i f).tags = s.tags := rfl
@[simp] theorem State.mapTeam_ops (s : State) (i : TeamId) (f : Team → Team) : (s.mapTeam i f).ops = s.ops := rfl
@[simp] theorem State.mapTeam_barriers (s : State) (i : TeamId) (f : Team → Team) : (s.mapTeam i f).barriers = s.barriers := rfl
@[simp] theorem State.mapTeam_reports (s : State) (i : TeamId) (f : Team → Team) : (s.mapTeam i f).reports = s.reports := rfl
@[simp] theorem State.mapTeam_classes (s : State) (i : TeamId) (f : Team → Team) : (s.mapTeam i f).classes = s.classes := rfl
@[simp] theorem State.mapTeam_reclass (s : State) (i : TeamId) (f : Team → Team) : (s.mapTeam i f).reclass = s.reclass := rfl
@[simp] theorem State.mapTeam_tlb (s : State) (i : TeamId) (f : Team → Team) : (s.mapTeam i f).tlb = s.tlb := rfl
@[simp] theorem State.mapTeam_walkCache (s : State) (i : TeamId) (f : Team → Team) : (s.mapTeam i f).walkCache = s.walkCache := rfl
@[simp] theorem State.mapTeam_dir (s : State) (i : TeamId) (f : Team → Team) : (s.mapTeam i f).dir = s.dir := rfl
@[simp] theorem State.mapTeam_l1 (s : State) (i : TeamId) (f : Team → Team) : (s.mapTeam i f).l1 = s.l1 := rfl
@[simp] theorem State.mapTeam_constLines (s : State) (i : TeamId) (f : Team → Team) : (s.mapTeam i f).constLines = s.constLines := rfl
@[simp] theorem State.mapTeam_net (s : State) (i : TeamId) (f : Team → Team) : (s.mapTeam i f).net = s.net := rfl
@[simp] theorem State.mapTeam_hostLines (s : State) (i : TeamId) (f : Team → Team) : (s.mapTeam i f).hostLines = s.hostLines := rfl
@[simp] theorem State.mapTeam_hostStalls (s : State) (i : TeamId) (f : Team → Team) : (s.mapTeam i f).hostStalls = s.hostStalls := rfl
@[simp] theorem State.mapTeam_hostReply (s : State) (i : TeamId) (f : Team → Team) : (s.mapTeam i f).hostReply = s.hostReply := rfl
@[simp] theorem State.mapTeam_links (s : State) (i : TeamId) (f : Team → Team) : (s.mapTeam i f).links = s.links := rfl
@[simp] theorem State.mapTeam_collections (s : State) (i : TeamId) (f : Team → Team) : (s.mapTeam i f).collections = s.collections := rfl
@[simp] theorem State.mapTeam_nextCollection (s : State) (i : TeamId) (f : Team → Team) : (s.mapTeam i f).nextCollection = s.nextCollection := rfl
@[simp] theorem State.mapTeam_savedScratch (s : State) (i : TeamId) (f : Team → Team) : (s.mapTeam i f).savedScratch = s.savedScratch := rfl
@[simp] theorem State.mapTeam_saveOrder (s : State) (i : TeamId) (f : Team → Team) : (s.mapTeam i f).saveOrder = s.saveOrder := rfl
@[simp] theorem State.mapTeam_reservations (s : State) (i : TeamId) (f : Team → Team) : (s.mapTeam i f).reservations = s.reservations := rfl
@[simp] theorem State.mapTeam_waitingNb (s : State) (i : TeamId) (f : Team → Team) : (s.mapTeam i f).waitingNb = s.waitingNb := rfl
@[simp] theorem State.mapTeam_imageAreas (s : State) (i : TeamId) (f : Team → Team) : (s.mapTeam i f).imageAreas = s.imageAreas := rfl
@[simp] theorem State.mapTeam_drogue (s : State) (i : TeamId) (f : Team → Team) : (s.mapTeam i f).drogue = s.drogue := rfl
@[simp] theorem State.mapTeam_counts (s : State) (i : TeamId) (f : Team → Team) : (s.mapTeam i f).counts = s.counts := rfl
@[simp] theorem State.mapTeam_arrayErrors (s : State) (i : TeamId) (f : Team → Team) : (s.mapTeam i f).arrayErrors = s.arrayErrors := rfl
@[simp] theorem State.mapTeam_usedSpares (s : State) (i : TeamId) (f : Team → Team) : (s.mapTeam i f).usedSpares = s.usedSpares := rfl
@[simp] theorem State.mapTeam_lost (s : State) (i : TeamId) (f : Team → Team) : (s.mapTeam i f).lost = s.lost := rfl
@[simp] theorem State.mapTeam_deadStacks (s : State) (i : TeamId) (f : Team → Team) : (s.mapTeam i f).deadStacks = s.deadStacks := rfl
@[simp] theorem State.mapTeam_leafStops (s : State) (i : TeamId) (f : Team → Team) : (s.mapTeam i f).leafStops = s.leafStops := rfl
@[simp] theorem State.mapTeam_flushDue (s : State) (i : TeamId) (f : Team → Team) : (s.mapTeam i f).flushDue = s.flushDue := rfl
@[simp] theorem State.mapTeam_defects (s : State) (i : TeamId) (f : Team → Team) : (s.mapTeam i f).defects = s.defects := rfl
@[simp] theorem State.mapTeam_moves (s : State) (i : TeamId) (f : Team → Team) : (s.mapTeam i f).moves = s.moves := rfl

/-! ## mapGroup -/

@[simp] theorem State.mapGroup_agenda (s : State) (i : Nat) (f : Group → Group) : (s.mapGroup i f).agenda = s.agenda := rfl
@[simp] theorem State.mapGroup_cur (s : State) (i : Nat) (f : Group → Group) : (s.mapGroup i f).cur = s.cur := rfl
@[simp] theorem State.mapGroup_limit (s : State) (i : Nat) (f : Group → Group) : (s.mapGroup i f).limit = s.limit := rfl
@[simp] theorem State.mapGroup_migrating (s : State) (i : Nat) (f : Group → Group) : (s.mapGroup i f).migrating = s.migrating := rfl
@[simp] theorem State.mapGroup_statDue (s : State) (i : Nat) (f : Group → Group) : (s.mapGroup i f).statDue = s.statDue := rfl
@[simp] theorem State.mapGroup_qcmdDue (s : State) (i : Nat) (f : Group → Group) : (s.mapGroup i f).qcmdDue = s.qcmdDue := rfl
@[simp] theorem State.mapGroup_freeCount (s : State) (i : Nat) (f : Group → Group) : (s.mapGroup i f).freeCount = s.freeCount := rfl
@[simp] theorem State.mapGroup_readySeq (s : State) (i : Nat) (f : Group → Group) : (s.mapGroup i f).readySeq = s.readySeq := rfl
@[simp] theorem State.mapGroup_takeSeq (s : State) (i : Nat) (f : Group → Group) : (s.mapGroup i f).takeSeq = s.takeSeq := rfl
@[simp] theorem State.mapGroup_clock (s : State) (i : Nat) (f : Group → Group) : (s.mapGroup i f).clock = s.clock := rfl
@[simp] theorem State.mapGroup_mem (s : State) (i : Nat) (f : Group → Group) : (s.mapGroup i f).mem = s.mem := rfl
@[simp] theorem State.mapGroup_poison (s : State) (i : Nat) (f : Group → Group) : (s.mapGroup i f).poison = s.poison := rfl
@[simp] theorem State.mapGroup_fw (s : State) (i : Nat) (f : Group → Group) : (s.mapGroup i f).fw = s.fw := rfl
@[simp] theorem State.mapGroup_fwacc (s : State) (i : Nat) (f : Group → Group) : (s.mapGroup i f).fwacc = s.fwacc := rfl
@[simp] theorem State.mapGroup_qtbase (s : State) (i : Nat) (f : Group → Group) : (s.mapGroup i f).qtbase = s.qtbase := rfl
@[simp] theorem State.mapGroup_qtsize (s : State) (i : Nat) (f : Group → Group) : (s.mapGroup i f).qtsize = s.qtsize := rfl
@[simp] theorem State.mapGroup_qstat (s : State) (i : Nat) (f : Group → Group) : (s.mapGroup i f).qstat = s.qstat := rfl
@[simp] theorem State.mapGroup_mstate (s : State) (i : Nat) (f : Group → Group) : (s.mapGroup i f).mstate = s.mstate := rfl
@[simp] theorem State.mapGroup_asidbase (s : State) (i : Nat) (f : Group → Group) : (s.mapGroup i f).asidbase = s.asidbase := rfl
@[simp] theorem State.mapGroup_bstate (s : State) (i : Nat) (f : Group → Group) : (s.mapGroup i f).bstate = s.bstate := rfl
@[simp] theorem State.mapGroup_up (s : State) (i : Nat) (f : Group → Group) : (s.mapGroup i f).up = s.up := rfl
@[simp] theorem State.mapGroup_firmware (s : State) (i : Nat) (f : Group → Group) : (s.mapGroup i f).firmware = s.firmware := rfl
@[simp] theorem State.mapGroup_mbCode (s : State) (i : Nat) (f : Group → Group) : (s.mapGroup i f).mbCode = s.mbCode := rfl
@[simp] theorem State.mapGroup_mbErr (s : State) (i : Nat) (f : Group → Group) : (s.mapGroup i f).mbErr = s.mbErr := rfl
@[simp] theorem State.mapGroup_mbBusy (s : State) (i : Nat) (f : Group → Group) : (s.mapGroup i f).mbBusy = s.mbBusy := rfl
@[simp] theorem State.mapGroup_mbarg (s : State) (i : Nat) (f : Group → Group) : (s.mapGroup i f).mbarg = s.mbarg := rfl
@[simp] theorem State.mapGroup_sensors (s : State) (i : Nat) (f : Group → Group) : (s.mapGroup i f).sensors = s.sensors := rfl
@[simp] theorem State.mapGroup_mhz (s : State) (i : Nat) (f : Group → Group) : (s.mapGroup i f).mhz = s.mhz := rfl
@[simp] theorem State.mapGroup_sensorsDue (s : State) (i : Nat) (f : Group → Group) : (s.mapGroup i f).sensorsDue = s.sensorsDue := rfl
@[simp] theorem State.mapGroup_hotFor (s : State) (i : Nat) (f : Group → Group) : (s.mapGroup i f).hotFor = s.hotFor := rfl
@[simp] theorem State.mapGroup_coolFor (s : State) (i : Nat) (f : Group → Group) : (s.mapGroup i f).coolFor = s.coolFor := rfl
@[simp] theorem State.mapGroup_alerts (s : State) (i : Nat) (f : Group → Group) : (s.mapGroup i f).alerts = s.alerts := rfl
@[simp] theorem State.mapGroup_alertIx (s : State) (i : Nat) (f : Group → Group) : (s.mapGroup i f).alertIx = s.alertIx := rfl
@[simp] theorem State.mapGroup_interrupts (s : State) (i : Nat) (f : Group → Group) : (s.mapGroup i f).interrupts = s.interrupts := rfl
@[simp] theorem State.mapGroup_signedSeq (s : State) (i : Nat) (f : Group → Group) : (s.mapGroup i f).signedSeq = s.signedSeq := rfl
@[simp] theorem State.mapGroup_errlog (s : State) (i : Nat) (f : Group → Group) : (s.mapGroup i f).errlog = s.errlog := rfl
@[simp] theorem State.mapGroup_ports (s : State) (i : Nat) (f : Group → Group) : (s.mapGroup i f).ports = s.ports := rfl
@[simp] theorem State.mapGroup_iodLinkDown (s : State) (i : Nat) (f : Group → Group) : (s.mapGroup i f).iodLinkDown = s.iodLinkDown := rfl
@[simp] theorem State.mapGroup_supply (s : State) (i : Nat) (f : Group → Group) : (s.mapGroup i f).supply = s.supply := rfl
@[simp] theorem State.mapGroup_energyLow (s : State) (i : Nat) (f : Group → Group) : (s.mapGroup i f).energyLow = s.energyLow := rfl
@[simp] theorem State.mapGroup_flash (s : State) (i : Nat) (f : Group → Group) : (s.mapGroup i f).flash = s.flash := rfl
@[simp] theorem State.mapGroup_gangSeq (s : State) (i : Nat) (f : Group → Group) : (s.mapGroup i f).gangSeq = s.gangSeq := rfl
@[simp] theorem State.mapGroup_startSeq (s : State) (i : Nat) (f : Group → Group) : (s.mapGroup i f).startSeq = s.startSeq := rfl
@[simp] theorem State.mapGroup_rlslots (s : State) (i : Nat) (f : Group → Group) : (s.mapGroup i f).rlslots = s.rlslots := rfl
@[simp] theorem State.mapGroup_partitions (s : State) (i : Nat) (f : Group → Group) : (s.mapGroup i f).partitions = s.partitions := rfl
@[simp] theorem State.mapGroup_coreMaps (s : State) (i : Nat) (f : Group → Group) : (s.mapGroup i f).coreMaps = s.coreMaps := rfl
@[simp] theorem State.mapGroup_noMatrix (s : State) (i : Nat) (f : Group → Group) : (s.mapGroup i f).noMatrix = s.noMatrix := rfl
@[simp] theorem State.mapGroup_asids (s : State) (i : Nat) (f : Group → Group) : (s.mapGroup i f).asids = s.asids := rfl
@[simp] theorem State.mapGroup_queues (s : State) (i : Nat) (f : Group → Group) : (s.mapGroup i f).queues = s.queues := rfl
@[simp] theorem State.mapGroup_turnProc (s : State) (i : Nat) (f : Group → Group) : (s.mapGroup i f).turnProc = s.turnProc := rfl
@[simp] theorem State.mapGroup_turnStart (s : State) (i : Nat) (f : Group → Group) : (s.mapGroup i f).turnStart = s.turnStart := rfl
@[simp] theorem State.mapGroup_turnNext (s : State) (i : Nat) (f : Group → Group) : (s.mapGroup i f).turnNext = s.turnNext := rfl
@[simp] theorem State.mapGroup_nextOrder (s : State) (i : Nat) (f : Group → Group) : (s.mapGroup i f).nextOrder = s.nextOrder := rfl
@[simp] theorem State.mapGroup_launches (s : State) (i : Nat) (f : Group → Group) : (s.mapGroup i f).launches = s.launches := rfl
@[simp] theorem State.mapGroup_nextLaunch (s : State) (i : Nat) (f : Group → Group) : (s.mapGroup i f).nextLaunch = s.nextLaunch := rfl
@[simp] theorem State.mapGroup_shards (s : State) (i : Nat) (f : Group → Group) : (s.mapGroup i f).shards = s.shards := rfl
@[simp] theorem State.mapGroup_teams (s : State) (i : Nat) (f : Group → Group) : (s.mapGroup i f).teams = s.teams := rfl
@[simp] theorem State.mapGroup_cores (s : State) (i : Nat) (f : Group → Group) : (s.mapGroup i f).cores = s.cores := rfl
@[simp] theorem State.mapGroup_ctrlIret (s : State) (i : Nat) (f : Group → Group) : (s.mapGroup i f).ctrlIret = s.ctrlIret := rfl
@[simp] theorem State.mapGroup_dscratch (s : State) (i : Nat) (f : Group → Group) : (s.mapGroup i f).dscratch = s.dscratch := rfl
@[simp] theorem State.mapGroup_gangs (s : State) (i : Nat) (f : Group → Group) : (s.mapGroup i f).gangs = s.gangs := rfl
@[simp] theorem State.mapGroup_tags (s : State) (i : Nat) (f : Group → Group) : (s.mapGroup i f).tags = s.tags := rfl
@[simp] theorem State.mapGroup_ops (s : State) (i : Nat) (f : Group → Group) : (s.mapGroup i f).ops = s.ops := rfl
@[simp] theorem State.mapGroup_barriers (s : State) (i : Nat) (f : Group → Group) : (s.mapGroup i f).barriers = s.barriers := rfl
@[simp] theorem State.mapGroup_reports (s : State) (i : Nat) (f : Group → Group) : (s.mapGroup i f).reports = s.reports := rfl
@[simp] theorem State.mapGroup_classes (s : State) (i : Nat) (f : Group → Group) : (s.mapGroup i f).classes = s.classes := rfl
@[simp] theorem State.mapGroup_reclass (s : State) (i : Nat) (f : Group → Group) : (s.mapGroup i f).reclass = s.reclass := rfl
@[simp] theorem State.mapGroup_tlb (s : State) (i : Nat) (f : Group → Group) : (s.mapGroup i f).tlb = s.tlb := rfl
@[simp] theorem State.mapGroup_walkCache (s : State) (i : Nat) (f : Group → Group) : (s.mapGroup i f).walkCache = s.walkCache := rfl
@[simp] theorem State.mapGroup_dir (s : State) (i : Nat) (f : Group → Group) : (s.mapGroup i f).dir = s.dir := rfl
@[simp] theorem State.mapGroup_l1 (s : State) (i : Nat) (f : Group → Group) : (s.mapGroup i f).l1 = s.l1 := rfl
@[simp] theorem State.mapGroup_constLines (s : State) (i : Nat) (f : Group → Group) : (s.mapGroup i f).constLines = s.constLines := rfl
@[simp] theorem State.mapGroup_net (s : State) (i : Nat) (f : Group → Group) : (s.mapGroup i f).net = s.net := rfl
@[simp] theorem State.mapGroup_hostLines (s : State) (i : Nat) (f : Group → Group) : (s.mapGroup i f).hostLines = s.hostLines := rfl
@[simp] theorem State.mapGroup_hostStalls (s : State) (i : Nat) (f : Group → Group) : (s.mapGroup i f).hostStalls = s.hostStalls := rfl
@[simp] theorem State.mapGroup_hostReply (s : State) (i : Nat) (f : Group → Group) : (s.mapGroup i f).hostReply = s.hostReply := rfl
@[simp] theorem State.mapGroup_links (s : State) (i : Nat) (f : Group → Group) : (s.mapGroup i f).links = s.links := rfl
@[simp] theorem State.mapGroup_collections (s : State) (i : Nat) (f : Group → Group) : (s.mapGroup i f).collections = s.collections := rfl
@[simp] theorem State.mapGroup_nextCollection (s : State) (i : Nat) (f : Group → Group) : (s.mapGroup i f).nextCollection = s.nextCollection := rfl
@[simp] theorem State.mapGroup_savedScratch (s : State) (i : Nat) (f : Group → Group) : (s.mapGroup i f).savedScratch = s.savedScratch := rfl
@[simp] theorem State.mapGroup_saveOrder (s : State) (i : Nat) (f : Group → Group) : (s.mapGroup i f).saveOrder = s.saveOrder := rfl
@[simp] theorem State.mapGroup_reservations (s : State) (i : Nat) (f : Group → Group) : (s.mapGroup i f).reservations = s.reservations := rfl
@[simp] theorem State.mapGroup_waitingNb (s : State) (i : Nat) (f : Group → Group) : (s.mapGroup i f).waitingNb = s.waitingNb := rfl
@[simp] theorem State.mapGroup_imageAreas (s : State) (i : Nat) (f : Group → Group) : (s.mapGroup i f).imageAreas = s.imageAreas := rfl
@[simp] theorem State.mapGroup_drogue (s : State) (i : Nat) (f : Group → Group) : (s.mapGroup i f).drogue = s.drogue := rfl
@[simp] theorem State.mapGroup_counts (s : State) (i : Nat) (f : Group → Group) : (s.mapGroup i f).counts = s.counts := rfl
@[simp] theorem State.mapGroup_arrayErrors (s : State) (i : Nat) (f : Group → Group) : (s.mapGroup i f).arrayErrors = s.arrayErrors := rfl
@[simp] theorem State.mapGroup_usedSpares (s : State) (i : Nat) (f : Group → Group) : (s.mapGroup i f).usedSpares = s.usedSpares := rfl
@[simp] theorem State.mapGroup_lost (s : State) (i : Nat) (f : Group → Group) : (s.mapGroup i f).lost = s.lost := rfl
@[simp] theorem State.mapGroup_deadStacks (s : State) (i : Nat) (f : Group → Group) : (s.mapGroup i f).deadStacks = s.deadStacks := rfl
@[simp] theorem State.mapGroup_leafStops (s : State) (i : Nat) (f : Group → Group) : (s.mapGroup i f).leafStops = s.leafStops := rfl
@[simp] theorem State.mapGroup_flushDue (s : State) (i : Nat) (f : Group → Group) : (s.mapGroup i f).flushDue = s.flushDue := rfl
@[simp] theorem State.mapGroup_defects (s : State) (i : Nat) (f : Group → Group) : (s.mapGroup i f).defects = s.defects := rfl
@[simp] theorem State.mapGroup_moves (s : State) (i : Nat) (f : Group → Group) : (s.mapGroup i f).moves = s.moves := rfl

/-! ## mapCore -/

@[simp] theorem State.mapCore_agenda (s : State) (i : Nat) (f : CoreState → CoreState) : (s.mapCore i f).agenda = s.agenda := rfl
@[simp] theorem State.mapCore_cur (s : State) (i : Nat) (f : CoreState → CoreState) : (s.mapCore i f).cur = s.cur := rfl
@[simp] theorem State.mapCore_limit (s : State) (i : Nat) (f : CoreState → CoreState) : (s.mapCore i f).limit = s.limit := rfl
@[simp] theorem State.mapCore_migrating (s : State) (i : Nat) (f : CoreState → CoreState) : (s.mapCore i f).migrating = s.migrating := rfl
@[simp] theorem State.mapCore_statDue (s : State) (i : Nat) (f : CoreState → CoreState) : (s.mapCore i f).statDue = s.statDue := rfl
@[simp] theorem State.mapCore_qcmdDue (s : State) (i : Nat) (f : CoreState → CoreState) : (s.mapCore i f).qcmdDue = s.qcmdDue := rfl
@[simp] theorem State.mapCore_freeCount (s : State) (i : Nat) (f : CoreState → CoreState) : (s.mapCore i f).freeCount = s.freeCount := rfl
@[simp] theorem State.mapCore_readySeq (s : State) (i : Nat) (f : CoreState → CoreState) : (s.mapCore i f).readySeq = s.readySeq := rfl
@[simp] theorem State.mapCore_takeSeq (s : State) (i : Nat) (f : CoreState → CoreState) : (s.mapCore i f).takeSeq = s.takeSeq := rfl
@[simp] theorem State.mapCore_clock (s : State) (i : Nat) (f : CoreState → CoreState) : (s.mapCore i f).clock = s.clock := rfl
@[simp] theorem State.mapCore_mem (s : State) (i : Nat) (f : CoreState → CoreState) : (s.mapCore i f).mem = s.mem := rfl
@[simp] theorem State.mapCore_poison (s : State) (i : Nat) (f : CoreState → CoreState) : (s.mapCore i f).poison = s.poison := rfl
@[simp] theorem State.mapCore_fw (s : State) (i : Nat) (f : CoreState → CoreState) : (s.mapCore i f).fw = s.fw := rfl
@[simp] theorem State.mapCore_fwacc (s : State) (i : Nat) (f : CoreState → CoreState) : (s.mapCore i f).fwacc = s.fwacc := rfl
@[simp] theorem State.mapCore_qtbase (s : State) (i : Nat) (f : CoreState → CoreState) : (s.mapCore i f).qtbase = s.qtbase := rfl
@[simp] theorem State.mapCore_qtsize (s : State) (i : Nat) (f : CoreState → CoreState) : (s.mapCore i f).qtsize = s.qtsize := rfl
@[simp] theorem State.mapCore_qstat (s : State) (i : Nat) (f : CoreState → CoreState) : (s.mapCore i f).qstat = s.qstat := rfl
@[simp] theorem State.mapCore_mstate (s : State) (i : Nat) (f : CoreState → CoreState) : (s.mapCore i f).mstate = s.mstate := rfl
@[simp] theorem State.mapCore_asidbase (s : State) (i : Nat) (f : CoreState → CoreState) : (s.mapCore i f).asidbase = s.asidbase := rfl
@[simp] theorem State.mapCore_bstate (s : State) (i : Nat) (f : CoreState → CoreState) : (s.mapCore i f).bstate = s.bstate := rfl
@[simp] theorem State.mapCore_up (s : State) (i : Nat) (f : CoreState → CoreState) : (s.mapCore i f).up = s.up := rfl
@[simp] theorem State.mapCore_firmware (s : State) (i : Nat) (f : CoreState → CoreState) : (s.mapCore i f).firmware = s.firmware := rfl
@[simp] theorem State.mapCore_mbCode (s : State) (i : Nat) (f : CoreState → CoreState) : (s.mapCore i f).mbCode = s.mbCode := rfl
@[simp] theorem State.mapCore_mbErr (s : State) (i : Nat) (f : CoreState → CoreState) : (s.mapCore i f).mbErr = s.mbErr := rfl
@[simp] theorem State.mapCore_mbBusy (s : State) (i : Nat) (f : CoreState → CoreState) : (s.mapCore i f).mbBusy = s.mbBusy := rfl
@[simp] theorem State.mapCore_mbarg (s : State) (i : Nat) (f : CoreState → CoreState) : (s.mapCore i f).mbarg = s.mbarg := rfl
@[simp] theorem State.mapCore_sensors (s : State) (i : Nat) (f : CoreState → CoreState) : (s.mapCore i f).sensors = s.sensors := rfl
@[simp] theorem State.mapCore_mhz (s : State) (i : Nat) (f : CoreState → CoreState) : (s.mapCore i f).mhz = s.mhz := rfl
@[simp] theorem State.mapCore_sensorsDue (s : State) (i : Nat) (f : CoreState → CoreState) : (s.mapCore i f).sensorsDue = s.sensorsDue := rfl
@[simp] theorem State.mapCore_hotFor (s : State) (i : Nat) (f : CoreState → CoreState) : (s.mapCore i f).hotFor = s.hotFor := rfl
@[simp] theorem State.mapCore_coolFor (s : State) (i : Nat) (f : CoreState → CoreState) : (s.mapCore i f).coolFor = s.coolFor := rfl
@[simp] theorem State.mapCore_alerts (s : State) (i : Nat) (f : CoreState → CoreState) : (s.mapCore i f).alerts = s.alerts := rfl
@[simp] theorem State.mapCore_alertIx (s : State) (i : Nat) (f : CoreState → CoreState) : (s.mapCore i f).alertIx = s.alertIx := rfl
@[simp] theorem State.mapCore_interrupts (s : State) (i : Nat) (f : CoreState → CoreState) : (s.mapCore i f).interrupts = s.interrupts := rfl
@[simp] theorem State.mapCore_signedSeq (s : State) (i : Nat) (f : CoreState → CoreState) : (s.mapCore i f).signedSeq = s.signedSeq := rfl
@[simp] theorem State.mapCore_errlog (s : State) (i : Nat) (f : CoreState → CoreState) : (s.mapCore i f).errlog = s.errlog := rfl
@[simp] theorem State.mapCore_ports (s : State) (i : Nat) (f : CoreState → CoreState) : (s.mapCore i f).ports = s.ports := rfl
@[simp] theorem State.mapCore_iodLinkDown (s : State) (i : Nat) (f : CoreState → CoreState) : (s.mapCore i f).iodLinkDown = s.iodLinkDown := rfl
@[simp] theorem State.mapCore_supply (s : State) (i : Nat) (f : CoreState → CoreState) : (s.mapCore i f).supply = s.supply := rfl
@[simp] theorem State.mapCore_energyLow (s : State) (i : Nat) (f : CoreState → CoreState) : (s.mapCore i f).energyLow = s.energyLow := rfl
@[simp] theorem State.mapCore_flash (s : State) (i : Nat) (f : CoreState → CoreState) : (s.mapCore i f).flash = s.flash := rfl
@[simp] theorem State.mapCore_gangSeq (s : State) (i : Nat) (f : CoreState → CoreState) : (s.mapCore i f).gangSeq = s.gangSeq := rfl
@[simp] theorem State.mapCore_startSeq (s : State) (i : Nat) (f : CoreState → CoreState) : (s.mapCore i f).startSeq = s.startSeq := rfl
@[simp] theorem State.mapCore_rlslots (s : State) (i : Nat) (f : CoreState → CoreState) : (s.mapCore i f).rlslots = s.rlslots := rfl
@[simp] theorem State.mapCore_partitions (s : State) (i : Nat) (f : CoreState → CoreState) : (s.mapCore i f).partitions = s.partitions := rfl
@[simp] theorem State.mapCore_coreMaps (s : State) (i : Nat) (f : CoreState → CoreState) : (s.mapCore i f).coreMaps = s.coreMaps := rfl
@[simp] theorem State.mapCore_noMatrix (s : State) (i : Nat) (f : CoreState → CoreState) : (s.mapCore i f).noMatrix = s.noMatrix := rfl
@[simp] theorem State.mapCore_asids (s : State) (i : Nat) (f : CoreState → CoreState) : (s.mapCore i f).asids = s.asids := rfl
@[simp] theorem State.mapCore_queues (s : State) (i : Nat) (f : CoreState → CoreState) : (s.mapCore i f).queues = s.queues := rfl
@[simp] theorem State.mapCore_turnProc (s : State) (i : Nat) (f : CoreState → CoreState) : (s.mapCore i f).turnProc = s.turnProc := rfl
@[simp] theorem State.mapCore_turnStart (s : State) (i : Nat) (f : CoreState → CoreState) : (s.mapCore i f).turnStart = s.turnStart := rfl
@[simp] theorem State.mapCore_turnNext (s : State) (i : Nat) (f : CoreState → CoreState) : (s.mapCore i f).turnNext = s.turnNext := rfl
@[simp] theorem State.mapCore_nextOrder (s : State) (i : Nat) (f : CoreState → CoreState) : (s.mapCore i f).nextOrder = s.nextOrder := rfl
@[simp] theorem State.mapCore_launches (s : State) (i : Nat) (f : CoreState → CoreState) : (s.mapCore i f).launches = s.launches := rfl
@[simp] theorem State.mapCore_nextLaunch (s : State) (i : Nat) (f : CoreState → CoreState) : (s.mapCore i f).nextLaunch = s.nextLaunch := rfl
@[simp] theorem State.mapCore_shards (s : State) (i : Nat) (f : CoreState → CoreState) : (s.mapCore i f).shards = s.shards := rfl
@[simp] theorem State.mapCore_teams (s : State) (i : Nat) (f : CoreState → CoreState) : (s.mapCore i f).teams = s.teams := rfl
@[simp] theorem State.mapCore_groups (s : State) (i : Nat) (f : CoreState → CoreState) : (s.mapCore i f).groups = s.groups := rfl
@[simp] theorem State.mapCore_ctrlIret (s : State) (i : Nat) (f : CoreState → CoreState) : (s.mapCore i f).ctrlIret = s.ctrlIret := rfl
@[simp] theorem State.mapCore_dscratch (s : State) (i : Nat) (f : CoreState → CoreState) : (s.mapCore i f).dscratch = s.dscratch := rfl
@[simp] theorem State.mapCore_gangs (s : State) (i : Nat) (f : CoreState → CoreState) : (s.mapCore i f).gangs = s.gangs := rfl
@[simp] theorem State.mapCore_tags (s : State) (i : Nat) (f : CoreState → CoreState) : (s.mapCore i f).tags = s.tags := rfl
@[simp] theorem State.mapCore_ops (s : State) (i : Nat) (f : CoreState → CoreState) : (s.mapCore i f).ops = s.ops := rfl
@[simp] theorem State.mapCore_barriers (s : State) (i : Nat) (f : CoreState → CoreState) : (s.mapCore i f).barriers = s.barriers := rfl
@[simp] theorem State.mapCore_reports (s : State) (i : Nat) (f : CoreState → CoreState) : (s.mapCore i f).reports = s.reports := rfl
@[simp] theorem State.mapCore_classes (s : State) (i : Nat) (f : CoreState → CoreState) : (s.mapCore i f).classes = s.classes := rfl
@[simp] theorem State.mapCore_reclass (s : State) (i : Nat) (f : CoreState → CoreState) : (s.mapCore i f).reclass = s.reclass := rfl
@[simp] theorem State.mapCore_tlb (s : State) (i : Nat) (f : CoreState → CoreState) : (s.mapCore i f).tlb = s.tlb := rfl
@[simp] theorem State.mapCore_walkCache (s : State) (i : Nat) (f : CoreState → CoreState) : (s.mapCore i f).walkCache = s.walkCache := rfl
@[simp] theorem State.mapCore_dir (s : State) (i : Nat) (f : CoreState → CoreState) : (s.mapCore i f).dir = s.dir := rfl
@[simp] theorem State.mapCore_l1 (s : State) (i : Nat) (f : CoreState → CoreState) : (s.mapCore i f).l1 = s.l1 := rfl
@[simp] theorem State.mapCore_constLines (s : State) (i : Nat) (f : CoreState → CoreState) : (s.mapCore i f).constLines = s.constLines := rfl
@[simp] theorem State.mapCore_net (s : State) (i : Nat) (f : CoreState → CoreState) : (s.mapCore i f).net = s.net := rfl
@[simp] theorem State.mapCore_hostLines (s : State) (i : Nat) (f : CoreState → CoreState) : (s.mapCore i f).hostLines = s.hostLines := rfl
@[simp] theorem State.mapCore_hostStalls (s : State) (i : Nat) (f : CoreState → CoreState) : (s.mapCore i f).hostStalls = s.hostStalls := rfl
@[simp] theorem State.mapCore_hostReply (s : State) (i : Nat) (f : CoreState → CoreState) : (s.mapCore i f).hostReply = s.hostReply := rfl
@[simp] theorem State.mapCore_links (s : State) (i : Nat) (f : CoreState → CoreState) : (s.mapCore i f).links = s.links := rfl
@[simp] theorem State.mapCore_collections (s : State) (i : Nat) (f : CoreState → CoreState) : (s.mapCore i f).collections = s.collections := rfl
@[simp] theorem State.mapCore_nextCollection (s : State) (i : Nat) (f : CoreState → CoreState) : (s.mapCore i f).nextCollection = s.nextCollection := rfl
@[simp] theorem State.mapCore_savedScratch (s : State) (i : Nat) (f : CoreState → CoreState) : (s.mapCore i f).savedScratch = s.savedScratch := rfl
@[simp] theorem State.mapCore_saveOrder (s : State) (i : Nat) (f : CoreState → CoreState) : (s.mapCore i f).saveOrder = s.saveOrder := rfl
@[simp] theorem State.mapCore_reservations (s : State) (i : Nat) (f : CoreState → CoreState) : (s.mapCore i f).reservations = s.reservations := rfl
@[simp] theorem State.mapCore_waitingNb (s : State) (i : Nat) (f : CoreState → CoreState) : (s.mapCore i f).waitingNb = s.waitingNb := rfl
@[simp] theorem State.mapCore_imageAreas (s : State) (i : Nat) (f : CoreState → CoreState) : (s.mapCore i f).imageAreas = s.imageAreas := rfl
@[simp] theorem State.mapCore_drogue (s : State) (i : Nat) (f : CoreState → CoreState) : (s.mapCore i f).drogue = s.drogue := rfl
@[simp] theorem State.mapCore_counts (s : State) (i : Nat) (f : CoreState → CoreState) : (s.mapCore i f).counts = s.counts := rfl
@[simp] theorem State.mapCore_arrayErrors (s : State) (i : Nat) (f : CoreState → CoreState) : (s.mapCore i f).arrayErrors = s.arrayErrors := rfl
@[simp] theorem State.mapCore_usedSpares (s : State) (i : Nat) (f : CoreState → CoreState) : (s.mapCore i f).usedSpares = s.usedSpares := rfl
@[simp] theorem State.mapCore_lost (s : State) (i : Nat) (f : CoreState → CoreState) : (s.mapCore i f).lost = s.lost := rfl
@[simp] theorem State.mapCore_deadStacks (s : State) (i : Nat) (f : CoreState → CoreState) : (s.mapCore i f).deadStacks = s.deadStacks := rfl
@[simp] theorem State.mapCore_leafStops (s : State) (i : Nat) (f : CoreState → CoreState) : (s.mapCore i f).leafStops = s.leafStops := rfl
@[simp] theorem State.mapCore_flushDue (s : State) (i : Nat) (f : CoreState → CoreState) : (s.mapCore i f).flushDue = s.flushDue := rfl
@[simp] theorem State.mapCore_defects (s : State) (i : Nat) (f : CoreState → CoreState) : (s.mapCore i f).defects = s.defects := rfl
@[simp] theorem State.mapCore_moves (s : State) (i : Nat) (f : CoreState → CoreState) : (s.mapCore i f).moves = s.moves := rfl

/-! ## mapLaunch -/

@[simp] theorem State.mapLaunch_agenda (s : State) (i : Nat) (f : Launch → Launch) : (s.mapLaunch i f).agenda = s.agenda := rfl
@[simp] theorem State.mapLaunch_cur (s : State) (i : Nat) (f : Launch → Launch) : (s.mapLaunch i f).cur = s.cur := rfl
@[simp] theorem State.mapLaunch_limit (s : State) (i : Nat) (f : Launch → Launch) : (s.mapLaunch i f).limit = s.limit := rfl
@[simp] theorem State.mapLaunch_migrating (s : State) (i : Nat) (f : Launch → Launch) : (s.mapLaunch i f).migrating = s.migrating := rfl
@[simp] theorem State.mapLaunch_statDue (s : State) (i : Nat) (f : Launch → Launch) : (s.mapLaunch i f).statDue = s.statDue := rfl
@[simp] theorem State.mapLaunch_qcmdDue (s : State) (i : Nat) (f : Launch → Launch) : (s.mapLaunch i f).qcmdDue = s.qcmdDue := rfl
@[simp] theorem State.mapLaunch_freeCount (s : State) (i : Nat) (f : Launch → Launch) : (s.mapLaunch i f).freeCount = s.freeCount := rfl
@[simp] theorem State.mapLaunch_readySeq (s : State) (i : Nat) (f : Launch → Launch) : (s.mapLaunch i f).readySeq = s.readySeq := rfl
@[simp] theorem State.mapLaunch_takeSeq (s : State) (i : Nat) (f : Launch → Launch) : (s.mapLaunch i f).takeSeq = s.takeSeq := rfl
@[simp] theorem State.mapLaunch_clock (s : State) (i : Nat) (f : Launch → Launch) : (s.mapLaunch i f).clock = s.clock := rfl
@[simp] theorem State.mapLaunch_mem (s : State) (i : Nat) (f : Launch → Launch) : (s.mapLaunch i f).mem = s.mem := rfl
@[simp] theorem State.mapLaunch_poison (s : State) (i : Nat) (f : Launch → Launch) : (s.mapLaunch i f).poison = s.poison := rfl
@[simp] theorem State.mapLaunch_fw (s : State) (i : Nat) (f : Launch → Launch) : (s.mapLaunch i f).fw = s.fw := rfl
@[simp] theorem State.mapLaunch_fwacc (s : State) (i : Nat) (f : Launch → Launch) : (s.mapLaunch i f).fwacc = s.fwacc := rfl
@[simp] theorem State.mapLaunch_qtbase (s : State) (i : Nat) (f : Launch → Launch) : (s.mapLaunch i f).qtbase = s.qtbase := rfl
@[simp] theorem State.mapLaunch_qtsize (s : State) (i : Nat) (f : Launch → Launch) : (s.mapLaunch i f).qtsize = s.qtsize := rfl
@[simp] theorem State.mapLaunch_qstat (s : State) (i : Nat) (f : Launch → Launch) : (s.mapLaunch i f).qstat = s.qstat := rfl
@[simp] theorem State.mapLaunch_mstate (s : State) (i : Nat) (f : Launch → Launch) : (s.mapLaunch i f).mstate = s.mstate := rfl
@[simp] theorem State.mapLaunch_asidbase (s : State) (i : Nat) (f : Launch → Launch) : (s.mapLaunch i f).asidbase = s.asidbase := rfl
@[simp] theorem State.mapLaunch_bstate (s : State) (i : Nat) (f : Launch → Launch) : (s.mapLaunch i f).bstate = s.bstate := rfl
@[simp] theorem State.mapLaunch_up (s : State) (i : Nat) (f : Launch → Launch) : (s.mapLaunch i f).up = s.up := rfl
@[simp] theorem State.mapLaunch_firmware (s : State) (i : Nat) (f : Launch → Launch) : (s.mapLaunch i f).firmware = s.firmware := rfl
@[simp] theorem State.mapLaunch_mbCode (s : State) (i : Nat) (f : Launch → Launch) : (s.mapLaunch i f).mbCode = s.mbCode := rfl
@[simp] theorem State.mapLaunch_mbErr (s : State) (i : Nat) (f : Launch → Launch) : (s.mapLaunch i f).mbErr = s.mbErr := rfl
@[simp] theorem State.mapLaunch_mbBusy (s : State) (i : Nat) (f : Launch → Launch) : (s.mapLaunch i f).mbBusy = s.mbBusy := rfl
@[simp] theorem State.mapLaunch_mbarg (s : State) (i : Nat) (f : Launch → Launch) : (s.mapLaunch i f).mbarg = s.mbarg := rfl
@[simp] theorem State.mapLaunch_sensors (s : State) (i : Nat) (f : Launch → Launch) : (s.mapLaunch i f).sensors = s.sensors := rfl
@[simp] theorem State.mapLaunch_mhz (s : State) (i : Nat) (f : Launch → Launch) : (s.mapLaunch i f).mhz = s.mhz := rfl
@[simp] theorem State.mapLaunch_sensorsDue (s : State) (i : Nat) (f : Launch → Launch) : (s.mapLaunch i f).sensorsDue = s.sensorsDue := rfl
@[simp] theorem State.mapLaunch_hotFor (s : State) (i : Nat) (f : Launch → Launch) : (s.mapLaunch i f).hotFor = s.hotFor := rfl
@[simp] theorem State.mapLaunch_coolFor (s : State) (i : Nat) (f : Launch → Launch) : (s.mapLaunch i f).coolFor = s.coolFor := rfl
@[simp] theorem State.mapLaunch_alerts (s : State) (i : Nat) (f : Launch → Launch) : (s.mapLaunch i f).alerts = s.alerts := rfl
@[simp] theorem State.mapLaunch_alertIx (s : State) (i : Nat) (f : Launch → Launch) : (s.mapLaunch i f).alertIx = s.alertIx := rfl
@[simp] theorem State.mapLaunch_interrupts (s : State) (i : Nat) (f : Launch → Launch) : (s.mapLaunch i f).interrupts = s.interrupts := rfl
@[simp] theorem State.mapLaunch_signedSeq (s : State) (i : Nat) (f : Launch → Launch) : (s.mapLaunch i f).signedSeq = s.signedSeq := rfl
@[simp] theorem State.mapLaunch_errlog (s : State) (i : Nat) (f : Launch → Launch) : (s.mapLaunch i f).errlog = s.errlog := rfl
@[simp] theorem State.mapLaunch_ports (s : State) (i : Nat) (f : Launch → Launch) : (s.mapLaunch i f).ports = s.ports := rfl
@[simp] theorem State.mapLaunch_iodLinkDown (s : State) (i : Nat) (f : Launch → Launch) : (s.mapLaunch i f).iodLinkDown = s.iodLinkDown := rfl
@[simp] theorem State.mapLaunch_supply (s : State) (i : Nat) (f : Launch → Launch) : (s.mapLaunch i f).supply = s.supply := rfl
@[simp] theorem State.mapLaunch_energyLow (s : State) (i : Nat) (f : Launch → Launch) : (s.mapLaunch i f).energyLow = s.energyLow := rfl
@[simp] theorem State.mapLaunch_flash (s : State) (i : Nat) (f : Launch → Launch) : (s.mapLaunch i f).flash = s.flash := rfl
@[simp] theorem State.mapLaunch_gangSeq (s : State) (i : Nat) (f : Launch → Launch) : (s.mapLaunch i f).gangSeq = s.gangSeq := rfl
@[simp] theorem State.mapLaunch_startSeq (s : State) (i : Nat) (f : Launch → Launch) : (s.mapLaunch i f).startSeq = s.startSeq := rfl
@[simp] theorem State.mapLaunch_rlslots (s : State) (i : Nat) (f : Launch → Launch) : (s.mapLaunch i f).rlslots = s.rlslots := rfl
@[simp] theorem State.mapLaunch_partitions (s : State) (i : Nat) (f : Launch → Launch) : (s.mapLaunch i f).partitions = s.partitions := rfl
@[simp] theorem State.mapLaunch_coreMaps (s : State) (i : Nat) (f : Launch → Launch) : (s.mapLaunch i f).coreMaps = s.coreMaps := rfl
@[simp] theorem State.mapLaunch_noMatrix (s : State) (i : Nat) (f : Launch → Launch) : (s.mapLaunch i f).noMatrix = s.noMatrix := rfl
@[simp] theorem State.mapLaunch_asids (s : State) (i : Nat) (f : Launch → Launch) : (s.mapLaunch i f).asids = s.asids := rfl
@[simp] theorem State.mapLaunch_queues (s : State) (i : Nat) (f : Launch → Launch) : (s.mapLaunch i f).queues = s.queues := rfl
@[simp] theorem State.mapLaunch_turnProc (s : State) (i : Nat) (f : Launch → Launch) : (s.mapLaunch i f).turnProc = s.turnProc := rfl
@[simp] theorem State.mapLaunch_turnStart (s : State) (i : Nat) (f : Launch → Launch) : (s.mapLaunch i f).turnStart = s.turnStart := rfl
@[simp] theorem State.mapLaunch_turnNext (s : State) (i : Nat) (f : Launch → Launch) : (s.mapLaunch i f).turnNext = s.turnNext := rfl
@[simp] theorem State.mapLaunch_nextOrder (s : State) (i : Nat) (f : Launch → Launch) : (s.mapLaunch i f).nextOrder = s.nextOrder := rfl
@[simp] theorem State.mapLaunch_nextLaunch (s : State) (i : Nat) (f : Launch → Launch) : (s.mapLaunch i f).nextLaunch = s.nextLaunch := rfl
@[simp] theorem State.mapLaunch_shards (s : State) (i : Nat) (f : Launch → Launch) : (s.mapLaunch i f).shards = s.shards := rfl
@[simp] theorem State.mapLaunch_teams (s : State) (i : Nat) (f : Launch → Launch) : (s.mapLaunch i f).teams = s.teams := rfl
@[simp] theorem State.mapLaunch_groups (s : State) (i : Nat) (f : Launch → Launch) : (s.mapLaunch i f).groups = s.groups := rfl
@[simp] theorem State.mapLaunch_cores (s : State) (i : Nat) (f : Launch → Launch) : (s.mapLaunch i f).cores = s.cores := rfl
@[simp] theorem State.mapLaunch_ctrlIret (s : State) (i : Nat) (f : Launch → Launch) : (s.mapLaunch i f).ctrlIret = s.ctrlIret := rfl
@[simp] theorem State.mapLaunch_dscratch (s : State) (i : Nat) (f : Launch → Launch) : (s.mapLaunch i f).dscratch = s.dscratch := rfl
@[simp] theorem State.mapLaunch_gangs (s : State) (i : Nat) (f : Launch → Launch) : (s.mapLaunch i f).gangs = s.gangs := rfl
@[simp] theorem State.mapLaunch_tags (s : State) (i : Nat) (f : Launch → Launch) : (s.mapLaunch i f).tags = s.tags := rfl
@[simp] theorem State.mapLaunch_ops (s : State) (i : Nat) (f : Launch → Launch) : (s.mapLaunch i f).ops = s.ops := rfl
@[simp] theorem State.mapLaunch_barriers (s : State) (i : Nat) (f : Launch → Launch) : (s.mapLaunch i f).barriers = s.barriers := rfl
@[simp] theorem State.mapLaunch_reports (s : State) (i : Nat) (f : Launch → Launch) : (s.mapLaunch i f).reports = s.reports := rfl
@[simp] theorem State.mapLaunch_classes (s : State) (i : Nat) (f : Launch → Launch) : (s.mapLaunch i f).classes = s.classes := rfl
@[simp] theorem State.mapLaunch_reclass (s : State) (i : Nat) (f : Launch → Launch) : (s.mapLaunch i f).reclass = s.reclass := rfl
@[simp] theorem State.mapLaunch_tlb (s : State) (i : Nat) (f : Launch → Launch) : (s.mapLaunch i f).tlb = s.tlb := rfl
@[simp] theorem State.mapLaunch_walkCache (s : State) (i : Nat) (f : Launch → Launch) : (s.mapLaunch i f).walkCache = s.walkCache := rfl
@[simp] theorem State.mapLaunch_dir (s : State) (i : Nat) (f : Launch → Launch) : (s.mapLaunch i f).dir = s.dir := rfl
@[simp] theorem State.mapLaunch_l1 (s : State) (i : Nat) (f : Launch → Launch) : (s.mapLaunch i f).l1 = s.l1 := rfl
@[simp] theorem State.mapLaunch_constLines (s : State) (i : Nat) (f : Launch → Launch) : (s.mapLaunch i f).constLines = s.constLines := rfl
@[simp] theorem State.mapLaunch_net (s : State) (i : Nat) (f : Launch → Launch) : (s.mapLaunch i f).net = s.net := rfl
@[simp] theorem State.mapLaunch_hostLines (s : State) (i : Nat) (f : Launch → Launch) : (s.mapLaunch i f).hostLines = s.hostLines := rfl
@[simp] theorem State.mapLaunch_hostStalls (s : State) (i : Nat) (f : Launch → Launch) : (s.mapLaunch i f).hostStalls = s.hostStalls := rfl
@[simp] theorem State.mapLaunch_hostReply (s : State) (i : Nat) (f : Launch → Launch) : (s.mapLaunch i f).hostReply = s.hostReply := rfl
@[simp] theorem State.mapLaunch_links (s : State) (i : Nat) (f : Launch → Launch) : (s.mapLaunch i f).links = s.links := rfl
@[simp] theorem State.mapLaunch_collections (s : State) (i : Nat) (f : Launch → Launch) : (s.mapLaunch i f).collections = s.collections := rfl
@[simp] theorem State.mapLaunch_nextCollection (s : State) (i : Nat) (f : Launch → Launch) : (s.mapLaunch i f).nextCollection = s.nextCollection := rfl
@[simp] theorem State.mapLaunch_savedScratch (s : State) (i : Nat) (f : Launch → Launch) : (s.mapLaunch i f).savedScratch = s.savedScratch := rfl
@[simp] theorem State.mapLaunch_saveOrder (s : State) (i : Nat) (f : Launch → Launch) : (s.mapLaunch i f).saveOrder = s.saveOrder := rfl
@[simp] theorem State.mapLaunch_reservations (s : State) (i : Nat) (f : Launch → Launch) : (s.mapLaunch i f).reservations = s.reservations := rfl
@[simp] theorem State.mapLaunch_waitingNb (s : State) (i : Nat) (f : Launch → Launch) : (s.mapLaunch i f).waitingNb = s.waitingNb := rfl
@[simp] theorem State.mapLaunch_imageAreas (s : State) (i : Nat) (f : Launch → Launch) : (s.mapLaunch i f).imageAreas = s.imageAreas := rfl
@[simp] theorem State.mapLaunch_drogue (s : State) (i : Nat) (f : Launch → Launch) : (s.mapLaunch i f).drogue = s.drogue := rfl
@[simp] theorem State.mapLaunch_counts (s : State) (i : Nat) (f : Launch → Launch) : (s.mapLaunch i f).counts = s.counts := rfl
@[simp] theorem State.mapLaunch_arrayErrors (s : State) (i : Nat) (f : Launch → Launch) : (s.mapLaunch i f).arrayErrors = s.arrayErrors := rfl
@[simp] theorem State.mapLaunch_usedSpares (s : State) (i : Nat) (f : Launch → Launch) : (s.mapLaunch i f).usedSpares = s.usedSpares := rfl
@[simp] theorem State.mapLaunch_lost (s : State) (i : Nat) (f : Launch → Launch) : (s.mapLaunch i f).lost = s.lost := rfl
@[simp] theorem State.mapLaunch_deadStacks (s : State) (i : Nat) (f : Launch → Launch) : (s.mapLaunch i f).deadStacks = s.deadStacks := rfl
@[simp] theorem State.mapLaunch_leafStops (s : State) (i : Nat) (f : Launch → Launch) : (s.mapLaunch i f).leafStops = s.leafStops := rfl
@[simp] theorem State.mapLaunch_flushDue (s : State) (i : Nat) (f : Launch → Launch) : (s.mapLaunch i f).flushDue = s.flushDue := rfl
@[simp] theorem State.mapLaunch_defects (s : State) (i : Nat) (f : Launch → Launch) : (s.mapLaunch i f).defects = s.defects := rfl
@[simp] theorem State.mapLaunch_moves (s : State) (i : Nat) (f : Launch → Launch) : (s.mapLaunch i f).moves = s.moves := rfl

/-! ## mapQueue -/

@[simp] theorem State.mapQueue_agenda (s : State) (i : Nat) (f : Queue → Queue) : (s.mapQueue i f).agenda = s.agenda := rfl
@[simp] theorem State.mapQueue_cur (s : State) (i : Nat) (f : Queue → Queue) : (s.mapQueue i f).cur = s.cur := rfl
@[simp] theorem State.mapQueue_limit (s : State) (i : Nat) (f : Queue → Queue) : (s.mapQueue i f).limit = s.limit := rfl
@[simp] theorem State.mapQueue_migrating (s : State) (i : Nat) (f : Queue → Queue) : (s.mapQueue i f).migrating = s.migrating := rfl
@[simp] theorem State.mapQueue_statDue (s : State) (i : Nat) (f : Queue → Queue) : (s.mapQueue i f).statDue = s.statDue := rfl
@[simp] theorem State.mapQueue_qcmdDue (s : State) (i : Nat) (f : Queue → Queue) : (s.mapQueue i f).qcmdDue = s.qcmdDue := rfl
@[simp] theorem State.mapQueue_freeCount (s : State) (i : Nat) (f : Queue → Queue) : (s.mapQueue i f).freeCount = s.freeCount := rfl
@[simp] theorem State.mapQueue_readySeq (s : State) (i : Nat) (f : Queue → Queue) : (s.mapQueue i f).readySeq = s.readySeq := rfl
@[simp] theorem State.mapQueue_takeSeq (s : State) (i : Nat) (f : Queue → Queue) : (s.mapQueue i f).takeSeq = s.takeSeq := rfl
@[simp] theorem State.mapQueue_clock (s : State) (i : Nat) (f : Queue → Queue) : (s.mapQueue i f).clock = s.clock := rfl
@[simp] theorem State.mapQueue_mem (s : State) (i : Nat) (f : Queue → Queue) : (s.mapQueue i f).mem = s.mem := rfl
@[simp] theorem State.mapQueue_poison (s : State) (i : Nat) (f : Queue → Queue) : (s.mapQueue i f).poison = s.poison := rfl
@[simp] theorem State.mapQueue_fw (s : State) (i : Nat) (f : Queue → Queue) : (s.mapQueue i f).fw = s.fw := rfl
@[simp] theorem State.mapQueue_fwacc (s : State) (i : Nat) (f : Queue → Queue) : (s.mapQueue i f).fwacc = s.fwacc := rfl
@[simp] theorem State.mapQueue_qtbase (s : State) (i : Nat) (f : Queue → Queue) : (s.mapQueue i f).qtbase = s.qtbase := rfl
@[simp] theorem State.mapQueue_qtsize (s : State) (i : Nat) (f : Queue → Queue) : (s.mapQueue i f).qtsize = s.qtsize := rfl
@[simp] theorem State.mapQueue_qstat (s : State) (i : Nat) (f : Queue → Queue) : (s.mapQueue i f).qstat = s.qstat := rfl
@[simp] theorem State.mapQueue_mstate (s : State) (i : Nat) (f : Queue → Queue) : (s.mapQueue i f).mstate = s.mstate := rfl
@[simp] theorem State.mapQueue_asidbase (s : State) (i : Nat) (f : Queue → Queue) : (s.mapQueue i f).asidbase = s.asidbase := rfl
@[simp] theorem State.mapQueue_bstate (s : State) (i : Nat) (f : Queue → Queue) : (s.mapQueue i f).bstate = s.bstate := rfl
@[simp] theorem State.mapQueue_up (s : State) (i : Nat) (f : Queue → Queue) : (s.mapQueue i f).up = s.up := rfl
@[simp] theorem State.mapQueue_firmware (s : State) (i : Nat) (f : Queue → Queue) : (s.mapQueue i f).firmware = s.firmware := rfl
@[simp] theorem State.mapQueue_mbCode (s : State) (i : Nat) (f : Queue → Queue) : (s.mapQueue i f).mbCode = s.mbCode := rfl
@[simp] theorem State.mapQueue_mbErr (s : State) (i : Nat) (f : Queue → Queue) : (s.mapQueue i f).mbErr = s.mbErr := rfl
@[simp] theorem State.mapQueue_mbBusy (s : State) (i : Nat) (f : Queue → Queue) : (s.mapQueue i f).mbBusy = s.mbBusy := rfl
@[simp] theorem State.mapQueue_mbarg (s : State) (i : Nat) (f : Queue → Queue) : (s.mapQueue i f).mbarg = s.mbarg := rfl
@[simp] theorem State.mapQueue_sensors (s : State) (i : Nat) (f : Queue → Queue) : (s.mapQueue i f).sensors = s.sensors := rfl
@[simp] theorem State.mapQueue_mhz (s : State) (i : Nat) (f : Queue → Queue) : (s.mapQueue i f).mhz = s.mhz := rfl
@[simp] theorem State.mapQueue_sensorsDue (s : State) (i : Nat) (f : Queue → Queue) : (s.mapQueue i f).sensorsDue = s.sensorsDue := rfl
@[simp] theorem State.mapQueue_hotFor (s : State) (i : Nat) (f : Queue → Queue) : (s.mapQueue i f).hotFor = s.hotFor := rfl
@[simp] theorem State.mapQueue_coolFor (s : State) (i : Nat) (f : Queue → Queue) : (s.mapQueue i f).coolFor = s.coolFor := rfl
@[simp] theorem State.mapQueue_alerts (s : State) (i : Nat) (f : Queue → Queue) : (s.mapQueue i f).alerts = s.alerts := rfl
@[simp] theorem State.mapQueue_alertIx (s : State) (i : Nat) (f : Queue → Queue) : (s.mapQueue i f).alertIx = s.alertIx := rfl
@[simp] theorem State.mapQueue_interrupts (s : State) (i : Nat) (f : Queue → Queue) : (s.mapQueue i f).interrupts = s.interrupts := rfl
@[simp] theorem State.mapQueue_signedSeq (s : State) (i : Nat) (f : Queue → Queue) : (s.mapQueue i f).signedSeq = s.signedSeq := rfl
@[simp] theorem State.mapQueue_errlog (s : State) (i : Nat) (f : Queue → Queue) : (s.mapQueue i f).errlog = s.errlog := rfl
@[simp] theorem State.mapQueue_ports (s : State) (i : Nat) (f : Queue → Queue) : (s.mapQueue i f).ports = s.ports := rfl
@[simp] theorem State.mapQueue_iodLinkDown (s : State) (i : Nat) (f : Queue → Queue) : (s.mapQueue i f).iodLinkDown = s.iodLinkDown := rfl
@[simp] theorem State.mapQueue_supply (s : State) (i : Nat) (f : Queue → Queue) : (s.mapQueue i f).supply = s.supply := rfl
@[simp] theorem State.mapQueue_energyLow (s : State) (i : Nat) (f : Queue → Queue) : (s.mapQueue i f).energyLow = s.energyLow := rfl
@[simp] theorem State.mapQueue_flash (s : State) (i : Nat) (f : Queue → Queue) : (s.mapQueue i f).flash = s.flash := rfl
@[simp] theorem State.mapQueue_gangSeq (s : State) (i : Nat) (f : Queue → Queue) : (s.mapQueue i f).gangSeq = s.gangSeq := rfl
@[simp] theorem State.mapQueue_startSeq (s : State) (i : Nat) (f : Queue → Queue) : (s.mapQueue i f).startSeq = s.startSeq := rfl
@[simp] theorem State.mapQueue_rlslots (s : State) (i : Nat) (f : Queue → Queue) : (s.mapQueue i f).rlslots = s.rlslots := rfl
@[simp] theorem State.mapQueue_partitions (s : State) (i : Nat) (f : Queue → Queue) : (s.mapQueue i f).partitions = s.partitions := rfl
@[simp] theorem State.mapQueue_coreMaps (s : State) (i : Nat) (f : Queue → Queue) : (s.mapQueue i f).coreMaps = s.coreMaps := rfl
@[simp] theorem State.mapQueue_noMatrix (s : State) (i : Nat) (f : Queue → Queue) : (s.mapQueue i f).noMatrix = s.noMatrix := rfl
@[simp] theorem State.mapQueue_asids (s : State) (i : Nat) (f : Queue → Queue) : (s.mapQueue i f).asids = s.asids := rfl
@[simp] theorem State.mapQueue_turnProc (s : State) (i : Nat) (f : Queue → Queue) : (s.mapQueue i f).turnProc = s.turnProc := rfl
@[simp] theorem State.mapQueue_turnStart (s : State) (i : Nat) (f : Queue → Queue) : (s.mapQueue i f).turnStart = s.turnStart := rfl
@[simp] theorem State.mapQueue_turnNext (s : State) (i : Nat) (f : Queue → Queue) : (s.mapQueue i f).turnNext = s.turnNext := rfl
@[simp] theorem State.mapQueue_nextOrder (s : State) (i : Nat) (f : Queue → Queue) : (s.mapQueue i f).nextOrder = s.nextOrder := rfl
@[simp] theorem State.mapQueue_launches (s : State) (i : Nat) (f : Queue → Queue) : (s.mapQueue i f).launches = s.launches := rfl
@[simp] theorem State.mapQueue_nextLaunch (s : State) (i : Nat) (f : Queue → Queue) : (s.mapQueue i f).nextLaunch = s.nextLaunch := rfl
@[simp] theorem State.mapQueue_shards (s : State) (i : Nat) (f : Queue → Queue) : (s.mapQueue i f).shards = s.shards := rfl
@[simp] theorem State.mapQueue_teams (s : State) (i : Nat) (f : Queue → Queue) : (s.mapQueue i f).teams = s.teams := rfl
@[simp] theorem State.mapQueue_groups (s : State) (i : Nat) (f : Queue → Queue) : (s.mapQueue i f).groups = s.groups := rfl
@[simp] theorem State.mapQueue_cores (s : State) (i : Nat) (f : Queue → Queue) : (s.mapQueue i f).cores = s.cores := rfl
@[simp] theorem State.mapQueue_ctrlIret (s : State) (i : Nat) (f : Queue → Queue) : (s.mapQueue i f).ctrlIret = s.ctrlIret := rfl
@[simp] theorem State.mapQueue_dscratch (s : State) (i : Nat) (f : Queue → Queue) : (s.mapQueue i f).dscratch = s.dscratch := rfl
@[simp] theorem State.mapQueue_gangs (s : State) (i : Nat) (f : Queue → Queue) : (s.mapQueue i f).gangs = s.gangs := rfl
@[simp] theorem State.mapQueue_tags (s : State) (i : Nat) (f : Queue → Queue) : (s.mapQueue i f).tags = s.tags := rfl
@[simp] theorem State.mapQueue_ops (s : State) (i : Nat) (f : Queue → Queue) : (s.mapQueue i f).ops = s.ops := rfl
@[simp] theorem State.mapQueue_barriers (s : State) (i : Nat) (f : Queue → Queue) : (s.mapQueue i f).barriers = s.barriers := rfl
@[simp] theorem State.mapQueue_reports (s : State) (i : Nat) (f : Queue → Queue) : (s.mapQueue i f).reports = s.reports := rfl
@[simp] theorem State.mapQueue_classes (s : State) (i : Nat) (f : Queue → Queue) : (s.mapQueue i f).classes = s.classes := rfl
@[simp] theorem State.mapQueue_reclass (s : State) (i : Nat) (f : Queue → Queue) : (s.mapQueue i f).reclass = s.reclass := rfl
@[simp] theorem State.mapQueue_tlb (s : State) (i : Nat) (f : Queue → Queue) : (s.mapQueue i f).tlb = s.tlb := rfl
@[simp] theorem State.mapQueue_walkCache (s : State) (i : Nat) (f : Queue → Queue) : (s.mapQueue i f).walkCache = s.walkCache := rfl
@[simp] theorem State.mapQueue_dir (s : State) (i : Nat) (f : Queue → Queue) : (s.mapQueue i f).dir = s.dir := rfl
@[simp] theorem State.mapQueue_l1 (s : State) (i : Nat) (f : Queue → Queue) : (s.mapQueue i f).l1 = s.l1 := rfl
@[simp] theorem State.mapQueue_constLines (s : State) (i : Nat) (f : Queue → Queue) : (s.mapQueue i f).constLines = s.constLines := rfl
@[simp] theorem State.mapQueue_net (s : State) (i : Nat) (f : Queue → Queue) : (s.mapQueue i f).net = s.net := rfl
@[simp] theorem State.mapQueue_hostLines (s : State) (i : Nat) (f : Queue → Queue) : (s.mapQueue i f).hostLines = s.hostLines := rfl
@[simp] theorem State.mapQueue_hostStalls (s : State) (i : Nat) (f : Queue → Queue) : (s.mapQueue i f).hostStalls = s.hostStalls := rfl
@[simp] theorem State.mapQueue_hostReply (s : State) (i : Nat) (f : Queue → Queue) : (s.mapQueue i f).hostReply = s.hostReply := rfl
@[simp] theorem State.mapQueue_links (s : State) (i : Nat) (f : Queue → Queue) : (s.mapQueue i f).links = s.links := rfl
@[simp] theorem State.mapQueue_collections (s : State) (i : Nat) (f : Queue → Queue) : (s.mapQueue i f).collections = s.collections := rfl
@[simp] theorem State.mapQueue_nextCollection (s : State) (i : Nat) (f : Queue → Queue) : (s.mapQueue i f).nextCollection = s.nextCollection := rfl
@[simp] theorem State.mapQueue_savedScratch (s : State) (i : Nat) (f : Queue → Queue) : (s.mapQueue i f).savedScratch = s.savedScratch := rfl
@[simp] theorem State.mapQueue_saveOrder (s : State) (i : Nat) (f : Queue → Queue) : (s.mapQueue i f).saveOrder = s.saveOrder := rfl
@[simp] theorem State.mapQueue_reservations (s : State) (i : Nat) (f : Queue → Queue) : (s.mapQueue i f).reservations = s.reservations := rfl
@[simp] theorem State.mapQueue_waitingNb (s : State) (i : Nat) (f : Queue → Queue) : (s.mapQueue i f).waitingNb = s.waitingNb := rfl
@[simp] theorem State.mapQueue_imageAreas (s : State) (i : Nat) (f : Queue → Queue) : (s.mapQueue i f).imageAreas = s.imageAreas := rfl
@[simp] theorem State.mapQueue_drogue (s : State) (i : Nat) (f : Queue → Queue) : (s.mapQueue i f).drogue = s.drogue := rfl
@[simp] theorem State.mapQueue_counts (s : State) (i : Nat) (f : Queue → Queue) : (s.mapQueue i f).counts = s.counts := rfl
@[simp] theorem State.mapQueue_arrayErrors (s : State) (i : Nat) (f : Queue → Queue) : (s.mapQueue i f).arrayErrors = s.arrayErrors := rfl
@[simp] theorem State.mapQueue_usedSpares (s : State) (i : Nat) (f : Queue → Queue) : (s.mapQueue i f).usedSpares = s.usedSpares := rfl
@[simp] theorem State.mapQueue_lost (s : State) (i : Nat) (f : Queue → Queue) : (s.mapQueue i f).lost = s.lost := rfl
@[simp] theorem State.mapQueue_deadStacks (s : State) (i : Nat) (f : Queue → Queue) : (s.mapQueue i f).deadStacks = s.deadStacks := rfl
@[simp] theorem State.mapQueue_leafStops (s : State) (i : Nat) (f : Queue → Queue) : (s.mapQueue i f).leafStops = s.leafStops := rfl
@[simp] theorem State.mapQueue_flushDue (s : State) (i : Nat) (f : Queue → Queue) : (s.mapQueue i f).flushDue = s.flushDue := rfl
@[simp] theorem State.mapQueue_defects (s : State) (i : Nat) (f : Queue → Queue) : (s.mapQueue i f).defects = s.defects := rfl
@[simp] theorem State.mapQueue_moves (s : State) (i : Nat) (f : Queue → Queue) : (s.mapQueue i f).moves = s.moves := rfl

/-! ## mapGang -/

@[simp] theorem State.mapGang_agenda (s : State) (i : GangId) (f : Gang → Gang) : (s.mapGang i f).agenda = s.agenda := rfl
@[simp] theorem State.mapGang_cur (s : State) (i : GangId) (f : Gang → Gang) : (s.mapGang i f).cur = s.cur := rfl
@[simp] theorem State.mapGang_limit (s : State) (i : GangId) (f : Gang → Gang) : (s.mapGang i f).limit = s.limit := rfl
@[simp] theorem State.mapGang_migrating (s : State) (i : GangId) (f : Gang → Gang) : (s.mapGang i f).migrating = s.migrating := rfl
@[simp] theorem State.mapGang_statDue (s : State) (i : GangId) (f : Gang → Gang) : (s.mapGang i f).statDue = s.statDue := rfl
@[simp] theorem State.mapGang_qcmdDue (s : State) (i : GangId) (f : Gang → Gang) : (s.mapGang i f).qcmdDue = s.qcmdDue := rfl
@[simp] theorem State.mapGang_freeCount (s : State) (i : GangId) (f : Gang → Gang) : (s.mapGang i f).freeCount = s.freeCount := rfl
@[simp] theorem State.mapGang_readySeq (s : State) (i : GangId) (f : Gang → Gang) : (s.mapGang i f).readySeq = s.readySeq := rfl
@[simp] theorem State.mapGang_takeSeq (s : State) (i : GangId) (f : Gang → Gang) : (s.mapGang i f).takeSeq = s.takeSeq := rfl
@[simp] theorem State.mapGang_clock (s : State) (i : GangId) (f : Gang → Gang) : (s.mapGang i f).clock = s.clock := rfl
@[simp] theorem State.mapGang_mem (s : State) (i : GangId) (f : Gang → Gang) : (s.mapGang i f).mem = s.mem := rfl
@[simp] theorem State.mapGang_poison (s : State) (i : GangId) (f : Gang → Gang) : (s.mapGang i f).poison = s.poison := rfl
@[simp] theorem State.mapGang_fw (s : State) (i : GangId) (f : Gang → Gang) : (s.mapGang i f).fw = s.fw := rfl
@[simp] theorem State.mapGang_fwacc (s : State) (i : GangId) (f : Gang → Gang) : (s.mapGang i f).fwacc = s.fwacc := rfl
@[simp] theorem State.mapGang_qtbase (s : State) (i : GangId) (f : Gang → Gang) : (s.mapGang i f).qtbase = s.qtbase := rfl
@[simp] theorem State.mapGang_qtsize (s : State) (i : GangId) (f : Gang → Gang) : (s.mapGang i f).qtsize = s.qtsize := rfl
@[simp] theorem State.mapGang_qstat (s : State) (i : GangId) (f : Gang → Gang) : (s.mapGang i f).qstat = s.qstat := rfl
@[simp] theorem State.mapGang_mstate (s : State) (i : GangId) (f : Gang → Gang) : (s.mapGang i f).mstate = s.mstate := rfl
@[simp] theorem State.mapGang_asidbase (s : State) (i : GangId) (f : Gang → Gang) : (s.mapGang i f).asidbase = s.asidbase := rfl
@[simp] theorem State.mapGang_bstate (s : State) (i : GangId) (f : Gang → Gang) : (s.mapGang i f).bstate = s.bstate := rfl
@[simp] theorem State.mapGang_up (s : State) (i : GangId) (f : Gang → Gang) : (s.mapGang i f).up = s.up := rfl
@[simp] theorem State.mapGang_firmware (s : State) (i : GangId) (f : Gang → Gang) : (s.mapGang i f).firmware = s.firmware := rfl
@[simp] theorem State.mapGang_mbCode (s : State) (i : GangId) (f : Gang → Gang) : (s.mapGang i f).mbCode = s.mbCode := rfl
@[simp] theorem State.mapGang_mbErr (s : State) (i : GangId) (f : Gang → Gang) : (s.mapGang i f).mbErr = s.mbErr := rfl
@[simp] theorem State.mapGang_mbBusy (s : State) (i : GangId) (f : Gang → Gang) : (s.mapGang i f).mbBusy = s.mbBusy := rfl
@[simp] theorem State.mapGang_mbarg (s : State) (i : GangId) (f : Gang → Gang) : (s.mapGang i f).mbarg = s.mbarg := rfl
@[simp] theorem State.mapGang_sensors (s : State) (i : GangId) (f : Gang → Gang) : (s.mapGang i f).sensors = s.sensors := rfl
@[simp] theorem State.mapGang_mhz (s : State) (i : GangId) (f : Gang → Gang) : (s.mapGang i f).mhz = s.mhz := rfl
@[simp] theorem State.mapGang_sensorsDue (s : State) (i : GangId) (f : Gang → Gang) : (s.mapGang i f).sensorsDue = s.sensorsDue := rfl
@[simp] theorem State.mapGang_hotFor (s : State) (i : GangId) (f : Gang → Gang) : (s.mapGang i f).hotFor = s.hotFor := rfl
@[simp] theorem State.mapGang_coolFor (s : State) (i : GangId) (f : Gang → Gang) : (s.mapGang i f).coolFor = s.coolFor := rfl
@[simp] theorem State.mapGang_alerts (s : State) (i : GangId) (f : Gang → Gang) : (s.mapGang i f).alerts = s.alerts := rfl
@[simp] theorem State.mapGang_alertIx (s : State) (i : GangId) (f : Gang → Gang) : (s.mapGang i f).alertIx = s.alertIx := rfl
@[simp] theorem State.mapGang_interrupts (s : State) (i : GangId) (f : Gang → Gang) : (s.mapGang i f).interrupts = s.interrupts := rfl
@[simp] theorem State.mapGang_signedSeq (s : State) (i : GangId) (f : Gang → Gang) : (s.mapGang i f).signedSeq = s.signedSeq := rfl
@[simp] theorem State.mapGang_errlog (s : State) (i : GangId) (f : Gang → Gang) : (s.mapGang i f).errlog = s.errlog := rfl
@[simp] theorem State.mapGang_ports (s : State) (i : GangId) (f : Gang → Gang) : (s.mapGang i f).ports = s.ports := rfl
@[simp] theorem State.mapGang_iodLinkDown (s : State) (i : GangId) (f : Gang → Gang) : (s.mapGang i f).iodLinkDown = s.iodLinkDown := rfl
@[simp] theorem State.mapGang_supply (s : State) (i : GangId) (f : Gang → Gang) : (s.mapGang i f).supply = s.supply := rfl
@[simp] theorem State.mapGang_energyLow (s : State) (i : GangId) (f : Gang → Gang) : (s.mapGang i f).energyLow = s.energyLow := rfl
@[simp] theorem State.mapGang_flash (s : State) (i : GangId) (f : Gang → Gang) : (s.mapGang i f).flash = s.flash := rfl
@[simp] theorem State.mapGang_gangSeq (s : State) (i : GangId) (f : Gang → Gang) : (s.mapGang i f).gangSeq = s.gangSeq := rfl
@[simp] theorem State.mapGang_startSeq (s : State) (i : GangId) (f : Gang → Gang) : (s.mapGang i f).startSeq = s.startSeq := rfl
@[simp] theorem State.mapGang_rlslots (s : State) (i : GangId) (f : Gang → Gang) : (s.mapGang i f).rlslots = s.rlslots := rfl
@[simp] theorem State.mapGang_partitions (s : State) (i : GangId) (f : Gang → Gang) : (s.mapGang i f).partitions = s.partitions := rfl
@[simp] theorem State.mapGang_coreMaps (s : State) (i : GangId) (f : Gang → Gang) : (s.mapGang i f).coreMaps = s.coreMaps := rfl
@[simp] theorem State.mapGang_noMatrix (s : State) (i : GangId) (f : Gang → Gang) : (s.mapGang i f).noMatrix = s.noMatrix := rfl
@[simp] theorem State.mapGang_asids (s : State) (i : GangId) (f : Gang → Gang) : (s.mapGang i f).asids = s.asids := rfl
@[simp] theorem State.mapGang_queues (s : State) (i : GangId) (f : Gang → Gang) : (s.mapGang i f).queues = s.queues := rfl
@[simp] theorem State.mapGang_turnProc (s : State) (i : GangId) (f : Gang → Gang) : (s.mapGang i f).turnProc = s.turnProc := rfl
@[simp] theorem State.mapGang_turnStart (s : State) (i : GangId) (f : Gang → Gang) : (s.mapGang i f).turnStart = s.turnStart := rfl
@[simp] theorem State.mapGang_turnNext (s : State) (i : GangId) (f : Gang → Gang) : (s.mapGang i f).turnNext = s.turnNext := rfl
@[simp] theorem State.mapGang_nextOrder (s : State) (i : GangId) (f : Gang → Gang) : (s.mapGang i f).nextOrder = s.nextOrder := rfl
@[simp] theorem State.mapGang_launches (s : State) (i : GangId) (f : Gang → Gang) : (s.mapGang i f).launches = s.launches := rfl
@[simp] theorem State.mapGang_nextLaunch (s : State) (i : GangId) (f : Gang → Gang) : (s.mapGang i f).nextLaunch = s.nextLaunch := rfl
@[simp] theorem State.mapGang_shards (s : State) (i : GangId) (f : Gang → Gang) : (s.mapGang i f).shards = s.shards := rfl
@[simp] theorem State.mapGang_teams (s : State) (i : GangId) (f : Gang → Gang) : (s.mapGang i f).teams = s.teams := rfl
@[simp] theorem State.mapGang_groups (s : State) (i : GangId) (f : Gang → Gang) : (s.mapGang i f).groups = s.groups := rfl
@[simp] theorem State.mapGang_cores (s : State) (i : GangId) (f : Gang → Gang) : (s.mapGang i f).cores = s.cores := rfl
@[simp] theorem State.mapGang_ctrlIret (s : State) (i : GangId) (f : Gang → Gang) : (s.mapGang i f).ctrlIret = s.ctrlIret := rfl
@[simp] theorem State.mapGang_dscratch (s : State) (i : GangId) (f : Gang → Gang) : (s.mapGang i f).dscratch = s.dscratch := rfl
@[simp] theorem State.mapGang_tags (s : State) (i : GangId) (f : Gang → Gang) : (s.mapGang i f).tags = s.tags := rfl
@[simp] theorem State.mapGang_ops (s : State) (i : GangId) (f : Gang → Gang) : (s.mapGang i f).ops = s.ops := rfl
@[simp] theorem State.mapGang_barriers (s : State) (i : GangId) (f : Gang → Gang) : (s.mapGang i f).barriers = s.barriers := rfl
@[simp] theorem State.mapGang_reports (s : State) (i : GangId) (f : Gang → Gang) : (s.mapGang i f).reports = s.reports := rfl
@[simp] theorem State.mapGang_classes (s : State) (i : GangId) (f : Gang → Gang) : (s.mapGang i f).classes = s.classes := rfl
@[simp] theorem State.mapGang_reclass (s : State) (i : GangId) (f : Gang → Gang) : (s.mapGang i f).reclass = s.reclass := rfl
@[simp] theorem State.mapGang_tlb (s : State) (i : GangId) (f : Gang → Gang) : (s.mapGang i f).tlb = s.tlb := rfl
@[simp] theorem State.mapGang_walkCache (s : State) (i : GangId) (f : Gang → Gang) : (s.mapGang i f).walkCache = s.walkCache := rfl
@[simp] theorem State.mapGang_dir (s : State) (i : GangId) (f : Gang → Gang) : (s.mapGang i f).dir = s.dir := rfl
@[simp] theorem State.mapGang_l1 (s : State) (i : GangId) (f : Gang → Gang) : (s.mapGang i f).l1 = s.l1 := rfl
@[simp] theorem State.mapGang_constLines (s : State) (i : GangId) (f : Gang → Gang) : (s.mapGang i f).constLines = s.constLines := rfl
@[simp] theorem State.mapGang_net (s : State) (i : GangId) (f : Gang → Gang) : (s.mapGang i f).net = s.net := rfl
@[simp] theorem State.mapGang_hostLines (s : State) (i : GangId) (f : Gang → Gang) : (s.mapGang i f).hostLines = s.hostLines := rfl
@[simp] theorem State.mapGang_hostStalls (s : State) (i : GangId) (f : Gang → Gang) : (s.mapGang i f).hostStalls = s.hostStalls := rfl
@[simp] theorem State.mapGang_hostReply (s : State) (i : GangId) (f : Gang → Gang) : (s.mapGang i f).hostReply = s.hostReply := rfl
@[simp] theorem State.mapGang_links (s : State) (i : GangId) (f : Gang → Gang) : (s.mapGang i f).links = s.links := rfl
@[simp] theorem State.mapGang_collections (s : State) (i : GangId) (f : Gang → Gang) : (s.mapGang i f).collections = s.collections := rfl
@[simp] theorem State.mapGang_nextCollection (s : State) (i : GangId) (f : Gang → Gang) : (s.mapGang i f).nextCollection = s.nextCollection := rfl
@[simp] theorem State.mapGang_savedScratch (s : State) (i : GangId) (f : Gang → Gang) : (s.mapGang i f).savedScratch = s.savedScratch := rfl
@[simp] theorem State.mapGang_saveOrder (s : State) (i : GangId) (f : Gang → Gang) : (s.mapGang i f).saveOrder = s.saveOrder := rfl
@[simp] theorem State.mapGang_reservations (s : State) (i : GangId) (f : Gang → Gang) : (s.mapGang i f).reservations = s.reservations := rfl
@[simp] theorem State.mapGang_waitingNb (s : State) (i : GangId) (f : Gang → Gang) : (s.mapGang i f).waitingNb = s.waitingNb := rfl
@[simp] theorem State.mapGang_imageAreas (s : State) (i : GangId) (f : Gang → Gang) : (s.mapGang i f).imageAreas = s.imageAreas := rfl
@[simp] theorem State.mapGang_drogue (s : State) (i : GangId) (f : Gang → Gang) : (s.mapGang i f).drogue = s.drogue := rfl
@[simp] theorem State.mapGang_counts (s : State) (i : GangId) (f : Gang → Gang) : (s.mapGang i f).counts = s.counts := rfl
@[simp] theorem State.mapGang_arrayErrors (s : State) (i : GangId) (f : Gang → Gang) : (s.mapGang i f).arrayErrors = s.arrayErrors := rfl
@[simp] theorem State.mapGang_usedSpares (s : State) (i : GangId) (f : Gang → Gang) : (s.mapGang i f).usedSpares = s.usedSpares := rfl
@[simp] theorem State.mapGang_lost (s : State) (i : GangId) (f : Gang → Gang) : (s.mapGang i f).lost = s.lost := rfl
@[simp] theorem State.mapGang_deadStacks (s : State) (i : GangId) (f : Gang → Gang) : (s.mapGang i f).deadStacks = s.deadStacks := rfl
@[simp] theorem State.mapGang_leafStops (s : State) (i : GangId) (f : Gang → Gang) : (s.mapGang i f).leafStops = s.leafStops := rfl
@[simp] theorem State.mapGang_flushDue (s : State) (i : GangId) (f : Gang → Gang) : (s.mapGang i f).flushDue = s.flushDue := rfl
@[simp] theorem State.mapGang_defects (s : State) (i : GangId) (f : Gang → Gang) : (s.mapGang i f).defects = s.defects := rfl
@[simp] theorem State.mapGang_moves (s : State) (i : GangId) (f : Gang → Gang) : (s.mapGang i f).moves = s.moves := rfl

/-! ## mapOp -/

@[simp] theorem State.mapOp_agenda (s : State) (i : OpId) (f : EngineOp → EngineOp) : (s.mapOp i f).agenda = s.agenda := rfl
@[simp] theorem State.mapOp_cur (s : State) (i : OpId) (f : EngineOp → EngineOp) : (s.mapOp i f).cur = s.cur := rfl
@[simp] theorem State.mapOp_limit (s : State) (i : OpId) (f : EngineOp → EngineOp) : (s.mapOp i f).limit = s.limit := rfl
@[simp] theorem State.mapOp_migrating (s : State) (i : OpId) (f : EngineOp → EngineOp) : (s.mapOp i f).migrating = s.migrating := rfl
@[simp] theorem State.mapOp_statDue (s : State) (i : OpId) (f : EngineOp → EngineOp) : (s.mapOp i f).statDue = s.statDue := rfl
@[simp] theorem State.mapOp_qcmdDue (s : State) (i : OpId) (f : EngineOp → EngineOp) : (s.mapOp i f).qcmdDue = s.qcmdDue := rfl
@[simp] theorem State.mapOp_freeCount (s : State) (i : OpId) (f : EngineOp → EngineOp) : (s.mapOp i f).freeCount = s.freeCount := rfl
@[simp] theorem State.mapOp_readySeq (s : State) (i : OpId) (f : EngineOp → EngineOp) : (s.mapOp i f).readySeq = s.readySeq := rfl
@[simp] theorem State.mapOp_takeSeq (s : State) (i : OpId) (f : EngineOp → EngineOp) : (s.mapOp i f).takeSeq = s.takeSeq := rfl
@[simp] theorem State.mapOp_clock (s : State) (i : OpId) (f : EngineOp → EngineOp) : (s.mapOp i f).clock = s.clock := rfl
@[simp] theorem State.mapOp_mem (s : State) (i : OpId) (f : EngineOp → EngineOp) : (s.mapOp i f).mem = s.mem := rfl
@[simp] theorem State.mapOp_poison (s : State) (i : OpId) (f : EngineOp → EngineOp) : (s.mapOp i f).poison = s.poison := rfl
@[simp] theorem State.mapOp_fw (s : State) (i : OpId) (f : EngineOp → EngineOp) : (s.mapOp i f).fw = s.fw := rfl
@[simp] theorem State.mapOp_fwacc (s : State) (i : OpId) (f : EngineOp → EngineOp) : (s.mapOp i f).fwacc = s.fwacc := rfl
@[simp] theorem State.mapOp_qtbase (s : State) (i : OpId) (f : EngineOp → EngineOp) : (s.mapOp i f).qtbase = s.qtbase := rfl
@[simp] theorem State.mapOp_qtsize (s : State) (i : OpId) (f : EngineOp → EngineOp) : (s.mapOp i f).qtsize = s.qtsize := rfl
@[simp] theorem State.mapOp_qstat (s : State) (i : OpId) (f : EngineOp → EngineOp) : (s.mapOp i f).qstat = s.qstat := rfl
@[simp] theorem State.mapOp_mstate (s : State) (i : OpId) (f : EngineOp → EngineOp) : (s.mapOp i f).mstate = s.mstate := rfl
@[simp] theorem State.mapOp_asidbase (s : State) (i : OpId) (f : EngineOp → EngineOp) : (s.mapOp i f).asidbase = s.asidbase := rfl
@[simp] theorem State.mapOp_bstate (s : State) (i : OpId) (f : EngineOp → EngineOp) : (s.mapOp i f).bstate = s.bstate := rfl
@[simp] theorem State.mapOp_up (s : State) (i : OpId) (f : EngineOp → EngineOp) : (s.mapOp i f).up = s.up := rfl
@[simp] theorem State.mapOp_firmware (s : State) (i : OpId) (f : EngineOp → EngineOp) : (s.mapOp i f).firmware = s.firmware := rfl
@[simp] theorem State.mapOp_mbCode (s : State) (i : OpId) (f : EngineOp → EngineOp) : (s.mapOp i f).mbCode = s.mbCode := rfl
@[simp] theorem State.mapOp_mbErr (s : State) (i : OpId) (f : EngineOp → EngineOp) : (s.mapOp i f).mbErr = s.mbErr := rfl
@[simp] theorem State.mapOp_mbBusy (s : State) (i : OpId) (f : EngineOp → EngineOp) : (s.mapOp i f).mbBusy = s.mbBusy := rfl
@[simp] theorem State.mapOp_mbarg (s : State) (i : OpId) (f : EngineOp → EngineOp) : (s.mapOp i f).mbarg = s.mbarg := rfl
@[simp] theorem State.mapOp_sensors (s : State) (i : OpId) (f : EngineOp → EngineOp) : (s.mapOp i f).sensors = s.sensors := rfl
@[simp] theorem State.mapOp_mhz (s : State) (i : OpId) (f : EngineOp → EngineOp) : (s.mapOp i f).mhz = s.mhz := rfl
@[simp] theorem State.mapOp_sensorsDue (s : State) (i : OpId) (f : EngineOp → EngineOp) : (s.mapOp i f).sensorsDue = s.sensorsDue := rfl
@[simp] theorem State.mapOp_hotFor (s : State) (i : OpId) (f : EngineOp → EngineOp) : (s.mapOp i f).hotFor = s.hotFor := rfl
@[simp] theorem State.mapOp_coolFor (s : State) (i : OpId) (f : EngineOp → EngineOp) : (s.mapOp i f).coolFor = s.coolFor := rfl
@[simp] theorem State.mapOp_alerts (s : State) (i : OpId) (f : EngineOp → EngineOp) : (s.mapOp i f).alerts = s.alerts := rfl
@[simp] theorem State.mapOp_alertIx (s : State) (i : OpId) (f : EngineOp → EngineOp) : (s.mapOp i f).alertIx = s.alertIx := rfl
@[simp] theorem State.mapOp_interrupts (s : State) (i : OpId) (f : EngineOp → EngineOp) : (s.mapOp i f).interrupts = s.interrupts := rfl
@[simp] theorem State.mapOp_signedSeq (s : State) (i : OpId) (f : EngineOp → EngineOp) : (s.mapOp i f).signedSeq = s.signedSeq := rfl
@[simp] theorem State.mapOp_errlog (s : State) (i : OpId) (f : EngineOp → EngineOp) : (s.mapOp i f).errlog = s.errlog := rfl
@[simp] theorem State.mapOp_ports (s : State) (i : OpId) (f : EngineOp → EngineOp) : (s.mapOp i f).ports = s.ports := rfl
@[simp] theorem State.mapOp_iodLinkDown (s : State) (i : OpId) (f : EngineOp → EngineOp) : (s.mapOp i f).iodLinkDown = s.iodLinkDown := rfl
@[simp] theorem State.mapOp_supply (s : State) (i : OpId) (f : EngineOp → EngineOp) : (s.mapOp i f).supply = s.supply := rfl
@[simp] theorem State.mapOp_energyLow (s : State) (i : OpId) (f : EngineOp → EngineOp) : (s.mapOp i f).energyLow = s.energyLow := rfl
@[simp] theorem State.mapOp_flash (s : State) (i : OpId) (f : EngineOp → EngineOp) : (s.mapOp i f).flash = s.flash := rfl
@[simp] theorem State.mapOp_gangSeq (s : State) (i : OpId) (f : EngineOp → EngineOp) : (s.mapOp i f).gangSeq = s.gangSeq := rfl
@[simp] theorem State.mapOp_startSeq (s : State) (i : OpId) (f : EngineOp → EngineOp) : (s.mapOp i f).startSeq = s.startSeq := rfl
@[simp] theorem State.mapOp_rlslots (s : State) (i : OpId) (f : EngineOp → EngineOp) : (s.mapOp i f).rlslots = s.rlslots := rfl
@[simp] theorem State.mapOp_partitions (s : State) (i : OpId) (f : EngineOp → EngineOp) : (s.mapOp i f).partitions = s.partitions := rfl
@[simp] theorem State.mapOp_coreMaps (s : State) (i : OpId) (f : EngineOp → EngineOp) : (s.mapOp i f).coreMaps = s.coreMaps := rfl
@[simp] theorem State.mapOp_noMatrix (s : State) (i : OpId) (f : EngineOp → EngineOp) : (s.mapOp i f).noMatrix = s.noMatrix := rfl
@[simp] theorem State.mapOp_asids (s : State) (i : OpId) (f : EngineOp → EngineOp) : (s.mapOp i f).asids = s.asids := rfl
@[simp] theorem State.mapOp_queues (s : State) (i : OpId) (f : EngineOp → EngineOp) : (s.mapOp i f).queues = s.queues := rfl
@[simp] theorem State.mapOp_turnProc (s : State) (i : OpId) (f : EngineOp → EngineOp) : (s.mapOp i f).turnProc = s.turnProc := rfl
@[simp] theorem State.mapOp_turnStart (s : State) (i : OpId) (f : EngineOp → EngineOp) : (s.mapOp i f).turnStart = s.turnStart := rfl
@[simp] theorem State.mapOp_turnNext (s : State) (i : OpId) (f : EngineOp → EngineOp) : (s.mapOp i f).turnNext = s.turnNext := rfl
@[simp] theorem State.mapOp_nextOrder (s : State) (i : OpId) (f : EngineOp → EngineOp) : (s.mapOp i f).nextOrder = s.nextOrder := rfl
@[simp] theorem State.mapOp_launches (s : State) (i : OpId) (f : EngineOp → EngineOp) : (s.mapOp i f).launches = s.launches := rfl
@[simp] theorem State.mapOp_nextLaunch (s : State) (i : OpId) (f : EngineOp → EngineOp) : (s.mapOp i f).nextLaunch = s.nextLaunch := rfl
@[simp] theorem State.mapOp_shards (s : State) (i : OpId) (f : EngineOp → EngineOp) : (s.mapOp i f).shards = s.shards := rfl
@[simp] theorem State.mapOp_teams (s : State) (i : OpId) (f : EngineOp → EngineOp) : (s.mapOp i f).teams = s.teams := rfl
@[simp] theorem State.mapOp_groups (s : State) (i : OpId) (f : EngineOp → EngineOp) : (s.mapOp i f).groups = s.groups := rfl
@[simp] theorem State.mapOp_cores (s : State) (i : OpId) (f : EngineOp → EngineOp) : (s.mapOp i f).cores = s.cores := rfl
@[simp] theorem State.mapOp_ctrlIret (s : State) (i : OpId) (f : EngineOp → EngineOp) : (s.mapOp i f).ctrlIret = s.ctrlIret := rfl
@[simp] theorem State.mapOp_dscratch (s : State) (i : OpId) (f : EngineOp → EngineOp) : (s.mapOp i f).dscratch = s.dscratch := rfl
@[simp] theorem State.mapOp_gangs (s : State) (i : OpId) (f : EngineOp → EngineOp) : (s.mapOp i f).gangs = s.gangs := rfl
@[simp] theorem State.mapOp_tags (s : State) (i : OpId) (f : EngineOp → EngineOp) : (s.mapOp i f).tags = s.tags := rfl
@[simp] theorem State.mapOp_barriers (s : State) (i : OpId) (f : EngineOp → EngineOp) : (s.mapOp i f).barriers = s.barriers := rfl
@[simp] theorem State.mapOp_reports (s : State) (i : OpId) (f : EngineOp → EngineOp) : (s.mapOp i f).reports = s.reports := rfl
@[simp] theorem State.mapOp_classes (s : State) (i : OpId) (f : EngineOp → EngineOp) : (s.mapOp i f).classes = s.classes := rfl
@[simp] theorem State.mapOp_reclass (s : State) (i : OpId) (f : EngineOp → EngineOp) : (s.mapOp i f).reclass = s.reclass := rfl
@[simp] theorem State.mapOp_tlb (s : State) (i : OpId) (f : EngineOp → EngineOp) : (s.mapOp i f).tlb = s.tlb := rfl
@[simp] theorem State.mapOp_walkCache (s : State) (i : OpId) (f : EngineOp → EngineOp) : (s.mapOp i f).walkCache = s.walkCache := rfl
@[simp] theorem State.mapOp_dir (s : State) (i : OpId) (f : EngineOp → EngineOp) : (s.mapOp i f).dir = s.dir := rfl
@[simp] theorem State.mapOp_l1 (s : State) (i : OpId) (f : EngineOp → EngineOp) : (s.mapOp i f).l1 = s.l1 := rfl
@[simp] theorem State.mapOp_constLines (s : State) (i : OpId) (f : EngineOp → EngineOp) : (s.mapOp i f).constLines = s.constLines := rfl
@[simp] theorem State.mapOp_net (s : State) (i : OpId) (f : EngineOp → EngineOp) : (s.mapOp i f).net = s.net := rfl
@[simp] theorem State.mapOp_hostLines (s : State) (i : OpId) (f : EngineOp → EngineOp) : (s.mapOp i f).hostLines = s.hostLines := rfl
@[simp] theorem State.mapOp_hostStalls (s : State) (i : OpId) (f : EngineOp → EngineOp) : (s.mapOp i f).hostStalls = s.hostStalls := rfl
@[simp] theorem State.mapOp_hostReply (s : State) (i : OpId) (f : EngineOp → EngineOp) : (s.mapOp i f).hostReply = s.hostReply := rfl
@[simp] theorem State.mapOp_links (s : State) (i : OpId) (f : EngineOp → EngineOp) : (s.mapOp i f).links = s.links := rfl
@[simp] theorem State.mapOp_collections (s : State) (i : OpId) (f : EngineOp → EngineOp) : (s.mapOp i f).collections = s.collections := rfl
@[simp] theorem State.mapOp_nextCollection (s : State) (i : OpId) (f : EngineOp → EngineOp) : (s.mapOp i f).nextCollection = s.nextCollection := rfl
@[simp] theorem State.mapOp_savedScratch (s : State) (i : OpId) (f : EngineOp → EngineOp) : (s.mapOp i f).savedScratch = s.savedScratch := rfl
@[simp] theorem State.mapOp_saveOrder (s : State) (i : OpId) (f : EngineOp → EngineOp) : (s.mapOp i f).saveOrder = s.saveOrder := rfl
@[simp] theorem State.mapOp_reservations (s : State) (i : OpId) (f : EngineOp → EngineOp) : (s.mapOp i f).reservations = s.reservations := rfl
@[simp] theorem State.mapOp_waitingNb (s : State) (i : OpId) (f : EngineOp → EngineOp) : (s.mapOp i f).waitingNb = s.waitingNb := rfl
@[simp] theorem State.mapOp_imageAreas (s : State) (i : OpId) (f : EngineOp → EngineOp) : (s.mapOp i f).imageAreas = s.imageAreas := rfl
@[simp] theorem State.mapOp_drogue (s : State) (i : OpId) (f : EngineOp → EngineOp) : (s.mapOp i f).drogue = s.drogue := rfl
@[simp] theorem State.mapOp_counts (s : State) (i : OpId) (f : EngineOp → EngineOp) : (s.mapOp i f).counts = s.counts := rfl
@[simp] theorem State.mapOp_arrayErrors (s : State) (i : OpId) (f : EngineOp → EngineOp) : (s.mapOp i f).arrayErrors = s.arrayErrors := rfl
@[simp] theorem State.mapOp_usedSpares (s : State) (i : OpId) (f : EngineOp → EngineOp) : (s.mapOp i f).usedSpares = s.usedSpares := rfl
@[simp] theorem State.mapOp_lost (s : State) (i : OpId) (f : EngineOp → EngineOp) : (s.mapOp i f).lost = s.lost := rfl
@[simp] theorem State.mapOp_deadStacks (s : State) (i : OpId) (f : EngineOp → EngineOp) : (s.mapOp i f).deadStacks = s.deadStacks := rfl
@[simp] theorem State.mapOp_leafStops (s : State) (i : OpId) (f : EngineOp → EngineOp) : (s.mapOp i f).leafStops = s.leafStops := rfl
@[simp] theorem State.mapOp_flushDue (s : State) (i : OpId) (f : EngineOp → EngineOp) : (s.mapOp i f).flushDue = s.flushDue := rfl
@[simp] theorem State.mapOp_defects (s : State) (i : OpId) (f : EngineOp → EngineOp) : (s.mapOp i f).defects = s.defects := rfl
@[simp] theorem State.mapOp_moves (s : State) (i : OpId) (f : EngineOp → EngineOp) : (s.mapOp i f).moves = s.moves := rfl

/-! ## mapShard -/

@[simp] theorem State.mapShard_agenda (s : State) (l b d : Nat) (f : Shard → Shard) : (s.mapShard l b d f).agenda = s.agenda := rfl
@[simp] theorem State.mapShard_cur (s : State) (l b d : Nat) (f : Shard → Shard) : (s.mapShard l b d f).cur = s.cur := rfl
@[simp] theorem State.mapShard_limit (s : State) (l b d : Nat) (f : Shard → Shard) : (s.mapShard l b d f).limit = s.limit := rfl
@[simp] theorem State.mapShard_migrating (s : State) (l b d : Nat) (f : Shard → Shard) : (s.mapShard l b d f).migrating = s.migrating := rfl
@[simp] theorem State.mapShard_statDue (s : State) (l b d : Nat) (f : Shard → Shard) : (s.mapShard l b d f).statDue = s.statDue := rfl
@[simp] theorem State.mapShard_qcmdDue (s : State) (l b d : Nat) (f : Shard → Shard) : (s.mapShard l b d f).qcmdDue = s.qcmdDue := rfl
@[simp] theorem State.mapShard_freeCount (s : State) (l b d : Nat) (f : Shard → Shard) : (s.mapShard l b d f).freeCount = s.freeCount := rfl
@[simp] theorem State.mapShard_readySeq (s : State) (l b d : Nat) (f : Shard → Shard) : (s.mapShard l b d f).readySeq = s.readySeq := rfl
@[simp] theorem State.mapShard_takeSeq (s : State) (l b d : Nat) (f : Shard → Shard) : (s.mapShard l b d f).takeSeq = s.takeSeq := rfl
@[simp] theorem State.mapShard_clock (s : State) (l b d : Nat) (f : Shard → Shard) : (s.mapShard l b d f).clock = s.clock := rfl
@[simp] theorem State.mapShard_mem (s : State) (l b d : Nat) (f : Shard → Shard) : (s.mapShard l b d f).mem = s.mem := rfl
@[simp] theorem State.mapShard_poison (s : State) (l b d : Nat) (f : Shard → Shard) : (s.mapShard l b d f).poison = s.poison := rfl
@[simp] theorem State.mapShard_fw (s : State) (l b d : Nat) (f : Shard → Shard) : (s.mapShard l b d f).fw = s.fw := rfl
@[simp] theorem State.mapShard_fwacc (s : State) (l b d : Nat) (f : Shard → Shard) : (s.mapShard l b d f).fwacc = s.fwacc := rfl
@[simp] theorem State.mapShard_qtbase (s : State) (l b d : Nat) (f : Shard → Shard) : (s.mapShard l b d f).qtbase = s.qtbase := rfl
@[simp] theorem State.mapShard_qtsize (s : State) (l b d : Nat) (f : Shard → Shard) : (s.mapShard l b d f).qtsize = s.qtsize := rfl
@[simp] theorem State.mapShard_qstat (s : State) (l b d : Nat) (f : Shard → Shard) : (s.mapShard l b d f).qstat = s.qstat := rfl
@[simp] theorem State.mapShard_mstate (s : State) (l b d : Nat) (f : Shard → Shard) : (s.mapShard l b d f).mstate = s.mstate := rfl
@[simp] theorem State.mapShard_asidbase (s : State) (l b d : Nat) (f : Shard → Shard) : (s.mapShard l b d f).asidbase = s.asidbase := rfl
@[simp] theorem State.mapShard_bstate (s : State) (l b d : Nat) (f : Shard → Shard) : (s.mapShard l b d f).bstate = s.bstate := rfl
@[simp] theorem State.mapShard_up (s : State) (l b d : Nat) (f : Shard → Shard) : (s.mapShard l b d f).up = s.up := rfl
@[simp] theorem State.mapShard_firmware (s : State) (l b d : Nat) (f : Shard → Shard) : (s.mapShard l b d f).firmware = s.firmware := rfl
@[simp] theorem State.mapShard_mbCode (s : State) (l b d : Nat) (f : Shard → Shard) : (s.mapShard l b d f).mbCode = s.mbCode := rfl
@[simp] theorem State.mapShard_mbErr (s : State) (l b d : Nat) (f : Shard → Shard) : (s.mapShard l b d f).mbErr = s.mbErr := rfl
@[simp] theorem State.mapShard_mbBusy (s : State) (l b d : Nat) (f : Shard → Shard) : (s.mapShard l b d f).mbBusy = s.mbBusy := rfl
@[simp] theorem State.mapShard_mbarg (s : State) (l b d : Nat) (f : Shard → Shard) : (s.mapShard l b d f).mbarg = s.mbarg := rfl
@[simp] theorem State.mapShard_sensors (s : State) (l b d : Nat) (f : Shard → Shard) : (s.mapShard l b d f).sensors = s.sensors := rfl
@[simp] theorem State.mapShard_mhz (s : State) (l b d : Nat) (f : Shard → Shard) : (s.mapShard l b d f).mhz = s.mhz := rfl
@[simp] theorem State.mapShard_sensorsDue (s : State) (l b d : Nat) (f : Shard → Shard) : (s.mapShard l b d f).sensorsDue = s.sensorsDue := rfl
@[simp] theorem State.mapShard_hotFor (s : State) (l b d : Nat) (f : Shard → Shard) : (s.mapShard l b d f).hotFor = s.hotFor := rfl
@[simp] theorem State.mapShard_coolFor (s : State) (l b d : Nat) (f : Shard → Shard) : (s.mapShard l b d f).coolFor = s.coolFor := rfl
@[simp] theorem State.mapShard_alerts (s : State) (l b d : Nat) (f : Shard → Shard) : (s.mapShard l b d f).alerts = s.alerts := rfl
@[simp] theorem State.mapShard_alertIx (s : State) (l b d : Nat) (f : Shard → Shard) : (s.mapShard l b d f).alertIx = s.alertIx := rfl
@[simp] theorem State.mapShard_interrupts (s : State) (l b d : Nat) (f : Shard → Shard) : (s.mapShard l b d f).interrupts = s.interrupts := rfl
@[simp] theorem State.mapShard_signedSeq (s : State) (l b d : Nat) (f : Shard → Shard) : (s.mapShard l b d f).signedSeq = s.signedSeq := rfl
@[simp] theorem State.mapShard_errlog (s : State) (l b d : Nat) (f : Shard → Shard) : (s.mapShard l b d f).errlog = s.errlog := rfl
@[simp] theorem State.mapShard_ports (s : State) (l b d : Nat) (f : Shard → Shard) : (s.mapShard l b d f).ports = s.ports := rfl
@[simp] theorem State.mapShard_iodLinkDown (s : State) (l b d : Nat) (f : Shard → Shard) : (s.mapShard l b d f).iodLinkDown = s.iodLinkDown := rfl
@[simp] theorem State.mapShard_supply (s : State) (l b d : Nat) (f : Shard → Shard) : (s.mapShard l b d f).supply = s.supply := rfl
@[simp] theorem State.mapShard_energyLow (s : State) (l b d : Nat) (f : Shard → Shard) : (s.mapShard l b d f).energyLow = s.energyLow := rfl
@[simp] theorem State.mapShard_flash (s : State) (l b d : Nat) (f : Shard → Shard) : (s.mapShard l b d f).flash = s.flash := rfl
@[simp] theorem State.mapShard_gangSeq (s : State) (l b d : Nat) (f : Shard → Shard) : (s.mapShard l b d f).gangSeq = s.gangSeq := rfl
@[simp] theorem State.mapShard_startSeq (s : State) (l b d : Nat) (f : Shard → Shard) : (s.mapShard l b d f).startSeq = s.startSeq := rfl
@[simp] theorem State.mapShard_rlslots (s : State) (l b d : Nat) (f : Shard → Shard) : (s.mapShard l b d f).rlslots = s.rlslots := rfl
@[simp] theorem State.mapShard_partitions (s : State) (l b d : Nat) (f : Shard → Shard) : (s.mapShard l b d f).partitions = s.partitions := rfl
@[simp] theorem State.mapShard_coreMaps (s : State) (l b d : Nat) (f : Shard → Shard) : (s.mapShard l b d f).coreMaps = s.coreMaps := rfl
@[simp] theorem State.mapShard_noMatrix (s : State) (l b d : Nat) (f : Shard → Shard) : (s.mapShard l b d f).noMatrix = s.noMatrix := rfl
@[simp] theorem State.mapShard_asids (s : State) (l b d : Nat) (f : Shard → Shard) : (s.mapShard l b d f).asids = s.asids := rfl
@[simp] theorem State.mapShard_queues (s : State) (l b d : Nat) (f : Shard → Shard) : (s.mapShard l b d f).queues = s.queues := rfl
@[simp] theorem State.mapShard_turnProc (s : State) (l b d : Nat) (f : Shard → Shard) : (s.mapShard l b d f).turnProc = s.turnProc := rfl
@[simp] theorem State.mapShard_turnStart (s : State) (l b d : Nat) (f : Shard → Shard) : (s.mapShard l b d f).turnStart = s.turnStart := rfl
@[simp] theorem State.mapShard_turnNext (s : State) (l b d : Nat) (f : Shard → Shard) : (s.mapShard l b d f).turnNext = s.turnNext := rfl
@[simp] theorem State.mapShard_nextOrder (s : State) (l b d : Nat) (f : Shard → Shard) : (s.mapShard l b d f).nextOrder = s.nextOrder := rfl
@[simp] theorem State.mapShard_launches (s : State) (l b d : Nat) (f : Shard → Shard) : (s.mapShard l b d f).launches = s.launches := rfl
@[simp] theorem State.mapShard_nextLaunch (s : State) (l b d : Nat) (f : Shard → Shard) : (s.mapShard l b d f).nextLaunch = s.nextLaunch := rfl
@[simp] theorem State.mapShard_teams (s : State) (l b d : Nat) (f : Shard → Shard) : (s.mapShard l b d f).teams = s.teams := rfl
@[simp] theorem State.mapShard_groups (s : State) (l b d : Nat) (f : Shard → Shard) : (s.mapShard l b d f).groups = s.groups := rfl
@[simp] theorem State.mapShard_cores (s : State) (l b d : Nat) (f : Shard → Shard) : (s.mapShard l b d f).cores = s.cores := rfl
@[simp] theorem State.mapShard_ctrlIret (s : State) (l b d : Nat) (f : Shard → Shard) : (s.mapShard l b d f).ctrlIret = s.ctrlIret := rfl
@[simp] theorem State.mapShard_dscratch (s : State) (l b d : Nat) (f : Shard → Shard) : (s.mapShard l b d f).dscratch = s.dscratch := rfl
@[simp] theorem State.mapShard_gangs (s : State) (l b d : Nat) (f : Shard → Shard) : (s.mapShard l b d f).gangs = s.gangs := rfl
@[simp] theorem State.mapShard_tags (s : State) (l b d : Nat) (f : Shard → Shard) : (s.mapShard l b d f).tags = s.tags := rfl
@[simp] theorem State.mapShard_ops (s : State) (l b d : Nat) (f : Shard → Shard) : (s.mapShard l b d f).ops = s.ops := rfl
@[simp] theorem State.mapShard_barriers (s : State) (l b d : Nat) (f : Shard → Shard) : (s.mapShard l b d f).barriers = s.barriers := rfl
@[simp] theorem State.mapShard_reports (s : State) (l b d : Nat) (f : Shard → Shard) : (s.mapShard l b d f).reports = s.reports := rfl
@[simp] theorem State.mapShard_classes (s : State) (l b d : Nat) (f : Shard → Shard) : (s.mapShard l b d f).classes = s.classes := rfl
@[simp] theorem State.mapShard_reclass (s : State) (l b d : Nat) (f : Shard → Shard) : (s.mapShard l b d f).reclass = s.reclass := rfl
@[simp] theorem State.mapShard_tlb (s : State) (l b d : Nat) (f : Shard → Shard) : (s.mapShard l b d f).tlb = s.tlb := rfl
@[simp] theorem State.mapShard_walkCache (s : State) (l b d : Nat) (f : Shard → Shard) : (s.mapShard l b d f).walkCache = s.walkCache := rfl
@[simp] theorem State.mapShard_dir (s : State) (l b d : Nat) (f : Shard → Shard) : (s.mapShard l b d f).dir = s.dir := rfl
@[simp] theorem State.mapShard_l1 (s : State) (l b d : Nat) (f : Shard → Shard) : (s.mapShard l b d f).l1 = s.l1 := rfl
@[simp] theorem State.mapShard_constLines (s : State) (l b d : Nat) (f : Shard → Shard) : (s.mapShard l b d f).constLines = s.constLines := rfl
@[simp] theorem State.mapShard_net (s : State) (l b d : Nat) (f : Shard → Shard) : (s.mapShard l b d f).net = s.net := rfl
@[simp] theorem State.mapShard_hostLines (s : State) (l b d : Nat) (f : Shard → Shard) : (s.mapShard l b d f).hostLines = s.hostLines := rfl
@[simp] theorem State.mapShard_hostStalls (s : State) (l b d : Nat) (f : Shard → Shard) : (s.mapShard l b d f).hostStalls = s.hostStalls := rfl
@[simp] theorem State.mapShard_hostReply (s : State) (l b d : Nat) (f : Shard → Shard) : (s.mapShard l b d f).hostReply = s.hostReply := rfl
@[simp] theorem State.mapShard_links (s : State) (l b d : Nat) (f : Shard → Shard) : (s.mapShard l b d f).links = s.links := rfl
@[simp] theorem State.mapShard_collections (s : State) (l b d : Nat) (f : Shard → Shard) : (s.mapShard l b d f).collections = s.collections := rfl
@[simp] theorem State.mapShard_nextCollection (s : State) (l b d : Nat) (f : Shard → Shard) : (s.mapShard l b d f).nextCollection = s.nextCollection := rfl
@[simp] theorem State.mapShard_savedScratch (s : State) (l b d : Nat) (f : Shard → Shard) : (s.mapShard l b d f).savedScratch = s.savedScratch := rfl
@[simp] theorem State.mapShard_saveOrder (s : State) (l b d : Nat) (f : Shard → Shard) : (s.mapShard l b d f).saveOrder = s.saveOrder := rfl
@[simp] theorem State.mapShard_reservations (s : State) (l b d : Nat) (f : Shard → Shard) : (s.mapShard l b d f).reservations = s.reservations := rfl
@[simp] theorem State.mapShard_waitingNb (s : State) (l b d : Nat) (f : Shard → Shard) : (s.mapShard l b d f).waitingNb = s.waitingNb := rfl
@[simp] theorem State.mapShard_imageAreas (s : State) (l b d : Nat) (f : Shard → Shard) : (s.mapShard l b d f).imageAreas = s.imageAreas := rfl
@[simp] theorem State.mapShard_drogue (s : State) (l b d : Nat) (f : Shard → Shard) : (s.mapShard l b d f).drogue = s.drogue := rfl
@[simp] theorem State.mapShard_counts (s : State) (l b d : Nat) (f : Shard → Shard) : (s.mapShard l b d f).counts = s.counts := rfl
@[simp] theorem State.mapShard_arrayErrors (s : State) (l b d : Nat) (f : Shard → Shard) : (s.mapShard l b d f).arrayErrors = s.arrayErrors := rfl
@[simp] theorem State.mapShard_usedSpares (s : State) (l b d : Nat) (f : Shard → Shard) : (s.mapShard l b d f).usedSpares = s.usedSpares := rfl
@[simp] theorem State.mapShard_lost (s : State) (l b d : Nat) (f : Shard → Shard) : (s.mapShard l b d f).lost = s.lost := rfl
@[simp] theorem State.mapShard_deadStacks (s : State) (l b d : Nat) (f : Shard → Shard) : (s.mapShard l b d f).deadStacks = s.deadStacks := rfl
@[simp] theorem State.mapShard_leafStops (s : State) (l b d : Nat) (f : Shard → Shard) : (s.mapShard l b d f).leafStops = s.leafStops := rfl
@[simp] theorem State.mapShard_flushDue (s : State) (l b d : Nat) (f : Shard → Shard) : (s.mapShard l b d f).flushDue = s.flushDue := rfl
@[simp] theorem State.mapShard_defects (s : State) (l b d : Nat) (f : Shard → Shard) : (s.mapShard l b d f).defects = s.defects := rfl
@[simp] theorem State.mapShard_moves (s : State) (l b d : Nat) (f : Shard → Shard) : (s.mapShard l b d f).moves = s.moves := rfl

/-! ## mapScalar -/

@[simp] theorem State.mapScalar_agenda (s : State) (i : StreamId) (f : Scalar → Scalar) : (s.mapScalar i f).agenda = s.agenda := by cases i <;> rfl
@[simp] theorem State.mapScalar_cur (s : State) (i : StreamId) (f : Scalar → Scalar) : (s.mapScalar i f).cur = s.cur := by cases i <;> rfl
@[simp] theorem State.mapScalar_limit (s : State) (i : StreamId) (f : Scalar → Scalar) : (s.mapScalar i f).limit = s.limit := by cases i <;> rfl
@[simp] theorem State.mapScalar_migrating (s : State) (i : StreamId) (f : Scalar → Scalar) : (s.mapScalar i f).migrating = s.migrating := by cases i <;> rfl
@[simp] theorem State.mapScalar_statDue (s : State) (i : StreamId) (f : Scalar → Scalar) : (s.mapScalar i f).statDue = s.statDue := by cases i <;> rfl
@[simp] theorem State.mapScalar_qcmdDue (s : State) (i : StreamId) (f : Scalar → Scalar) : (s.mapScalar i f).qcmdDue = s.qcmdDue := by cases i <;> rfl
@[simp] theorem State.mapScalar_freeCount (s : State) (i : StreamId) (f : Scalar → Scalar) : (s.mapScalar i f).freeCount = s.freeCount := by cases i <;> rfl
@[simp] theorem State.mapScalar_readySeq (s : State) (i : StreamId) (f : Scalar → Scalar) : (s.mapScalar i f).readySeq = s.readySeq := by cases i <;> rfl
@[simp] theorem State.mapScalar_takeSeq (s : State) (i : StreamId) (f : Scalar → Scalar) : (s.mapScalar i f).takeSeq = s.takeSeq := by cases i <;> rfl
@[simp] theorem State.mapScalar_clock (s : State) (i : StreamId) (f : Scalar → Scalar) : (s.mapScalar i f).clock = s.clock := by cases i <;> rfl
@[simp] theorem State.mapScalar_mem (s : State) (i : StreamId) (f : Scalar → Scalar) : (s.mapScalar i f).mem = s.mem := by cases i <;> rfl
@[simp] theorem State.mapScalar_poison (s : State) (i : StreamId) (f : Scalar → Scalar) : (s.mapScalar i f).poison = s.poison := by cases i <;> rfl
@[simp] theorem State.mapScalar_fw (s : State) (i : StreamId) (f : Scalar → Scalar) : (s.mapScalar i f).fw = s.fw := by cases i <;> rfl
@[simp] theorem State.mapScalar_fwacc (s : State) (i : StreamId) (f : Scalar → Scalar) : (s.mapScalar i f).fwacc = s.fwacc := by cases i <;> rfl
@[simp] theorem State.mapScalar_qtbase (s : State) (i : StreamId) (f : Scalar → Scalar) : (s.mapScalar i f).qtbase = s.qtbase := by cases i <;> rfl
@[simp] theorem State.mapScalar_qtsize (s : State) (i : StreamId) (f : Scalar → Scalar) : (s.mapScalar i f).qtsize = s.qtsize := by cases i <;> rfl
@[simp] theorem State.mapScalar_qstat (s : State) (i : StreamId) (f : Scalar → Scalar) : (s.mapScalar i f).qstat = s.qstat := by cases i <;> rfl
@[simp] theorem State.mapScalar_mstate (s : State) (i : StreamId) (f : Scalar → Scalar) : (s.mapScalar i f).mstate = s.mstate := by cases i <;> rfl
@[simp] theorem State.mapScalar_asidbase (s : State) (i : StreamId) (f : Scalar → Scalar) : (s.mapScalar i f).asidbase = s.asidbase := by cases i <;> rfl
@[simp] theorem State.mapScalar_bstate (s : State) (i : StreamId) (f : Scalar → Scalar) : (s.mapScalar i f).bstate = s.bstate := by cases i <;> rfl
@[simp] theorem State.mapScalar_up (s : State) (i : StreamId) (f : Scalar → Scalar) : (s.mapScalar i f).up = s.up := by cases i <;> rfl
@[simp] theorem State.mapScalar_firmware (s : State) (i : StreamId) (f : Scalar → Scalar) : (s.mapScalar i f).firmware = s.firmware := by cases i <;> rfl
@[simp] theorem State.mapScalar_mbCode (s : State) (i : StreamId) (f : Scalar → Scalar) : (s.mapScalar i f).mbCode = s.mbCode := by cases i <;> rfl
@[simp] theorem State.mapScalar_mbErr (s : State) (i : StreamId) (f : Scalar → Scalar) : (s.mapScalar i f).mbErr = s.mbErr := by cases i <;> rfl
@[simp] theorem State.mapScalar_mbBusy (s : State) (i : StreamId) (f : Scalar → Scalar) : (s.mapScalar i f).mbBusy = s.mbBusy := by cases i <;> rfl
@[simp] theorem State.mapScalar_mbarg (s : State) (i : StreamId) (f : Scalar → Scalar) : (s.mapScalar i f).mbarg = s.mbarg := by cases i <;> rfl
@[simp] theorem State.mapScalar_sensors (s : State) (i : StreamId) (f : Scalar → Scalar) : (s.mapScalar i f).sensors = s.sensors := by cases i <;> rfl
@[simp] theorem State.mapScalar_mhz (s : State) (i : StreamId) (f : Scalar → Scalar) : (s.mapScalar i f).mhz = s.mhz := by cases i <;> rfl
@[simp] theorem State.mapScalar_sensorsDue (s : State) (i : StreamId) (f : Scalar → Scalar) : (s.mapScalar i f).sensorsDue = s.sensorsDue := by cases i <;> rfl
@[simp] theorem State.mapScalar_hotFor (s : State) (i : StreamId) (f : Scalar → Scalar) : (s.mapScalar i f).hotFor = s.hotFor := by cases i <;> rfl
@[simp] theorem State.mapScalar_coolFor (s : State) (i : StreamId) (f : Scalar → Scalar) : (s.mapScalar i f).coolFor = s.coolFor := by cases i <;> rfl
@[simp] theorem State.mapScalar_alerts (s : State) (i : StreamId) (f : Scalar → Scalar) : (s.mapScalar i f).alerts = s.alerts := by cases i <;> rfl
@[simp] theorem State.mapScalar_alertIx (s : State) (i : StreamId) (f : Scalar → Scalar) : (s.mapScalar i f).alertIx = s.alertIx := by cases i <;> rfl
@[simp] theorem State.mapScalar_interrupts (s : State) (i : StreamId) (f : Scalar → Scalar) : (s.mapScalar i f).interrupts = s.interrupts := by cases i <;> rfl
@[simp] theorem State.mapScalar_signedSeq (s : State) (i : StreamId) (f : Scalar → Scalar) : (s.mapScalar i f).signedSeq = s.signedSeq := by cases i <;> rfl
@[simp] theorem State.mapScalar_errlog (s : State) (i : StreamId) (f : Scalar → Scalar) : (s.mapScalar i f).errlog = s.errlog := by cases i <;> rfl
@[simp] theorem State.mapScalar_ports (s : State) (i : StreamId) (f : Scalar → Scalar) : (s.mapScalar i f).ports = s.ports := by cases i <;> rfl
@[simp] theorem State.mapScalar_iodLinkDown (s : State) (i : StreamId) (f : Scalar → Scalar) : (s.mapScalar i f).iodLinkDown = s.iodLinkDown := by cases i <;> rfl
@[simp] theorem State.mapScalar_supply (s : State) (i : StreamId) (f : Scalar → Scalar) : (s.mapScalar i f).supply = s.supply := by cases i <;> rfl
@[simp] theorem State.mapScalar_energyLow (s : State) (i : StreamId) (f : Scalar → Scalar) : (s.mapScalar i f).energyLow = s.energyLow := by cases i <;> rfl
@[simp] theorem State.mapScalar_flash (s : State) (i : StreamId) (f : Scalar → Scalar) : (s.mapScalar i f).flash = s.flash := by cases i <;> rfl
@[simp] theorem State.mapScalar_gangSeq (s : State) (i : StreamId) (f : Scalar → Scalar) : (s.mapScalar i f).gangSeq = s.gangSeq := by cases i <;> rfl
@[simp] theorem State.mapScalar_startSeq (s : State) (i : StreamId) (f : Scalar → Scalar) : (s.mapScalar i f).startSeq = s.startSeq := by cases i <;> rfl
@[simp] theorem State.mapScalar_rlslots (s : State) (i : StreamId) (f : Scalar → Scalar) : (s.mapScalar i f).rlslots = s.rlslots := by cases i <;> rfl
@[simp] theorem State.mapScalar_partitions (s : State) (i : StreamId) (f : Scalar → Scalar) : (s.mapScalar i f).partitions = s.partitions := by cases i <;> rfl
@[simp] theorem State.mapScalar_coreMaps (s : State) (i : StreamId) (f : Scalar → Scalar) : (s.mapScalar i f).coreMaps = s.coreMaps := by cases i <;> rfl
@[simp] theorem State.mapScalar_noMatrix (s : State) (i : StreamId) (f : Scalar → Scalar) : (s.mapScalar i f).noMatrix = s.noMatrix := by cases i <;> rfl
@[simp] theorem State.mapScalar_asids (s : State) (i : StreamId) (f : Scalar → Scalar) : (s.mapScalar i f).asids = s.asids := by cases i <;> rfl
@[simp] theorem State.mapScalar_queues (s : State) (i : StreamId) (f : Scalar → Scalar) : (s.mapScalar i f).queues = s.queues := by cases i <;> rfl
@[simp] theorem State.mapScalar_turnProc (s : State) (i : StreamId) (f : Scalar → Scalar) : (s.mapScalar i f).turnProc = s.turnProc := by cases i <;> rfl
@[simp] theorem State.mapScalar_turnStart (s : State) (i : StreamId) (f : Scalar → Scalar) : (s.mapScalar i f).turnStart = s.turnStart := by cases i <;> rfl
@[simp] theorem State.mapScalar_turnNext (s : State) (i : StreamId) (f : Scalar → Scalar) : (s.mapScalar i f).turnNext = s.turnNext := by cases i <;> rfl
@[simp] theorem State.mapScalar_nextOrder (s : State) (i : StreamId) (f : Scalar → Scalar) : (s.mapScalar i f).nextOrder = s.nextOrder := by cases i <;> rfl
@[simp] theorem State.mapScalar_launches (s : State) (i : StreamId) (f : Scalar → Scalar) : (s.mapScalar i f).launches = s.launches := by cases i <;> rfl
@[simp] theorem State.mapScalar_nextLaunch (s : State) (i : StreamId) (f : Scalar → Scalar) : (s.mapScalar i f).nextLaunch = s.nextLaunch := by cases i <;> rfl
@[simp] theorem State.mapScalar_shards (s : State) (i : StreamId) (f : Scalar → Scalar) : (s.mapScalar i f).shards = s.shards := by cases i <;> rfl
@[simp] theorem State.mapScalar_cores (s : State) (i : StreamId) (f : Scalar → Scalar) : (s.mapScalar i f).cores = s.cores := by cases i <;> rfl
@[simp] theorem State.mapScalar_ctrlIret (s : State) (i : StreamId) (f : Scalar → Scalar) : (s.mapScalar i f).ctrlIret = s.ctrlIret := by cases i <;> rfl
@[simp] theorem State.mapScalar_dscratch (s : State) (i : StreamId) (f : Scalar → Scalar) : (s.mapScalar i f).dscratch = s.dscratch := by cases i <;> rfl
@[simp] theorem State.mapScalar_gangs (s : State) (i : StreamId) (f : Scalar → Scalar) : (s.mapScalar i f).gangs = s.gangs := by cases i <;> rfl
@[simp] theorem State.mapScalar_tags (s : State) (i : StreamId) (f : Scalar → Scalar) : (s.mapScalar i f).tags = s.tags := by cases i <;> rfl
@[simp] theorem State.mapScalar_ops (s : State) (i : StreamId) (f : Scalar → Scalar) : (s.mapScalar i f).ops = s.ops := by cases i <;> rfl
@[simp] theorem State.mapScalar_barriers (s : State) (i : StreamId) (f : Scalar → Scalar) : (s.mapScalar i f).barriers = s.barriers := by cases i <;> rfl
@[simp] theorem State.mapScalar_reports (s : State) (i : StreamId) (f : Scalar → Scalar) : (s.mapScalar i f).reports = s.reports := by cases i <;> rfl
@[simp] theorem State.mapScalar_classes (s : State) (i : StreamId) (f : Scalar → Scalar) : (s.mapScalar i f).classes = s.classes := by cases i <;> rfl
@[simp] theorem State.mapScalar_reclass (s : State) (i : StreamId) (f : Scalar → Scalar) : (s.mapScalar i f).reclass = s.reclass := by cases i <;> rfl
@[simp] theorem State.mapScalar_tlb (s : State) (i : StreamId) (f : Scalar → Scalar) : (s.mapScalar i f).tlb = s.tlb := by cases i <;> rfl
@[simp] theorem State.mapScalar_walkCache (s : State) (i : StreamId) (f : Scalar → Scalar) : (s.mapScalar i f).walkCache = s.walkCache := by cases i <;> rfl
@[simp] theorem State.mapScalar_dir (s : State) (i : StreamId) (f : Scalar → Scalar) : (s.mapScalar i f).dir = s.dir := by cases i <;> rfl
@[simp] theorem State.mapScalar_l1 (s : State) (i : StreamId) (f : Scalar → Scalar) : (s.mapScalar i f).l1 = s.l1 := by cases i <;> rfl
@[simp] theorem State.mapScalar_constLines (s : State) (i : StreamId) (f : Scalar → Scalar) : (s.mapScalar i f).constLines = s.constLines := by cases i <;> rfl
@[simp] theorem State.mapScalar_net (s : State) (i : StreamId) (f : Scalar → Scalar) : (s.mapScalar i f).net = s.net := by cases i <;> rfl
@[simp] theorem State.mapScalar_hostLines (s : State) (i : StreamId) (f : Scalar → Scalar) : (s.mapScalar i f).hostLines = s.hostLines := by cases i <;> rfl
@[simp] theorem State.mapScalar_hostStalls (s : State) (i : StreamId) (f : Scalar → Scalar) : (s.mapScalar i f).hostStalls = s.hostStalls := by cases i <;> rfl
@[simp] theorem State.mapScalar_hostReply (s : State) (i : StreamId) (f : Scalar → Scalar) : (s.mapScalar i f).hostReply = s.hostReply := by cases i <;> rfl
@[simp] theorem State.mapScalar_links (s : State) (i : StreamId) (f : Scalar → Scalar) : (s.mapScalar i f).links = s.links := by cases i <;> rfl
@[simp] theorem State.mapScalar_collections (s : State) (i : StreamId) (f : Scalar → Scalar) : (s.mapScalar i f).collections = s.collections := by cases i <;> rfl
@[simp] theorem State.mapScalar_nextCollection (s : State) (i : StreamId) (f : Scalar → Scalar) : (s.mapScalar i f).nextCollection = s.nextCollection := by cases i <;> rfl
@[simp] theorem State.mapScalar_savedScratch (s : State) (i : StreamId) (f : Scalar → Scalar) : (s.mapScalar i f).savedScratch = s.savedScratch := by cases i <;> rfl
@[simp] theorem State.mapScalar_saveOrder (s : State) (i : StreamId) (f : Scalar → Scalar) : (s.mapScalar i f).saveOrder = s.saveOrder := by cases i <;> rfl
@[simp] theorem State.mapScalar_reservations (s : State) (i : StreamId) (f : Scalar → Scalar) : (s.mapScalar i f).reservations = s.reservations := by cases i <;> rfl
@[simp] theorem State.mapScalar_waitingNb (s : State) (i : StreamId) (f : Scalar → Scalar) : (s.mapScalar i f).waitingNb = s.waitingNb := by cases i <;> rfl
@[simp] theorem State.mapScalar_imageAreas (s : State) (i : StreamId) (f : Scalar → Scalar) : (s.mapScalar i f).imageAreas = s.imageAreas := by cases i <;> rfl
@[simp] theorem State.mapScalar_drogue (s : State) (i : StreamId) (f : Scalar → Scalar) : (s.mapScalar i f).drogue = s.drogue := by cases i <;> rfl
@[simp] theorem State.mapScalar_counts (s : State) (i : StreamId) (f : Scalar → Scalar) : (s.mapScalar i f).counts = s.counts := by cases i <;> rfl
@[simp] theorem State.mapScalar_arrayErrors (s : State) (i : StreamId) (f : Scalar → Scalar) : (s.mapScalar i f).arrayErrors = s.arrayErrors := by cases i <;> rfl
@[simp] theorem State.mapScalar_usedSpares (s : State) (i : StreamId) (f : Scalar → Scalar) : (s.mapScalar i f).usedSpares = s.usedSpares := by cases i <;> rfl
@[simp] theorem State.mapScalar_lost (s : State) (i : StreamId) (f : Scalar → Scalar) : (s.mapScalar i f).lost = s.lost := by cases i <;> rfl
@[simp] theorem State.mapScalar_deadStacks (s : State) (i : StreamId) (f : Scalar → Scalar) : (s.mapScalar i f).deadStacks = s.deadStacks := by cases i <;> rfl
@[simp] theorem State.mapScalar_leafStops (s : State) (i : StreamId) (f : Scalar → Scalar) : (s.mapScalar i f).leafStops = s.leafStops := by cases i <;> rfl
@[simp] theorem State.mapScalar_flushDue (s : State) (i : StreamId) (f : Scalar → Scalar) : (s.mapScalar i f).flushDue = s.flushDue := by cases i <;> rfl
@[simp] theorem State.mapScalar_defects (s : State) (i : StreamId) (f : Scalar → Scalar) : (s.mapScalar i f).defects = s.defects := by cases i <;> rfl
@[simp] theorem State.mapScalar_moves (s : State) (i : StreamId) (f : Scalar → Scalar) : (s.mapScalar i f).moves = s.moves := by cases i <;> rfl

/-! ## count -/

@[simp] theorem State.count_agenda (s : State) (c : Nat) (k : Option Nat) (e n : Nat) : (s.count c k e n).agenda = s.agenda := rfl
@[simp] theorem State.count_cur (s : State) (c : Nat) (k : Option Nat) (e n : Nat) : (s.count c k e n).cur = s.cur := rfl
@[simp] theorem State.count_limit (s : State) (c : Nat) (k : Option Nat) (e n : Nat) : (s.count c k e n).limit = s.limit := rfl
@[simp] theorem State.count_migrating (s : State) (c : Nat) (k : Option Nat) (e n : Nat) : (s.count c k e n).migrating = s.migrating := rfl
@[simp] theorem State.count_statDue (s : State) (c : Nat) (k : Option Nat) (e n : Nat) : (s.count c k e n).statDue = s.statDue := rfl
@[simp] theorem State.count_qcmdDue (s : State) (c : Nat) (k : Option Nat) (e n : Nat) : (s.count c k e n).qcmdDue = s.qcmdDue := rfl
@[simp] theorem State.count_freeCount (s : State) (c : Nat) (k : Option Nat) (e n : Nat) : (s.count c k e n).freeCount = s.freeCount := rfl
@[simp] theorem State.count_readySeq (s : State) (c : Nat) (k : Option Nat) (e n : Nat) : (s.count c k e n).readySeq = s.readySeq := rfl
@[simp] theorem State.count_takeSeq (s : State) (c : Nat) (k : Option Nat) (e n : Nat) : (s.count c k e n).takeSeq = s.takeSeq := rfl
@[simp] theorem State.count_clock (s : State) (c : Nat) (k : Option Nat) (e n : Nat) : (s.count c k e n).clock = s.clock := rfl
@[simp] theorem State.count_mem (s : State) (c : Nat) (k : Option Nat) (e n : Nat) : (s.count c k e n).mem = s.mem := rfl
@[simp] theorem State.count_poison (s : State) (c : Nat) (k : Option Nat) (e n : Nat) : (s.count c k e n).poison = s.poison := rfl
@[simp] theorem State.count_fw (s : State) (c : Nat) (k : Option Nat) (e n : Nat) : (s.count c k e n).fw = s.fw := rfl
@[simp] theorem State.count_fwacc (s : State) (c : Nat) (k : Option Nat) (e n : Nat) : (s.count c k e n).fwacc = s.fwacc := rfl
@[simp] theorem State.count_qtbase (s : State) (c : Nat) (k : Option Nat) (e n : Nat) : (s.count c k e n).qtbase = s.qtbase := rfl
@[simp] theorem State.count_qtsize (s : State) (c : Nat) (k : Option Nat) (e n : Nat) : (s.count c k e n).qtsize = s.qtsize := rfl
@[simp] theorem State.count_qstat (s : State) (c : Nat) (k : Option Nat) (e n : Nat) : (s.count c k e n).qstat = s.qstat := rfl
@[simp] theorem State.count_mstate (s : State) (c : Nat) (k : Option Nat) (e n : Nat) : (s.count c k e n).mstate = s.mstate := rfl
@[simp] theorem State.count_asidbase (s : State) (c : Nat) (k : Option Nat) (e n : Nat) : (s.count c k e n).asidbase = s.asidbase := rfl
@[simp] theorem State.count_bstate (s : State) (c : Nat) (k : Option Nat) (e n : Nat) : (s.count c k e n).bstate = s.bstate := rfl
@[simp] theorem State.count_up (s : State) (c : Nat) (k : Option Nat) (e n : Nat) : (s.count c k e n).up = s.up := rfl
@[simp] theorem State.count_firmware (s : State) (c : Nat) (k : Option Nat) (e n : Nat) : (s.count c k e n).firmware = s.firmware := rfl
@[simp] theorem State.count_mbCode (s : State) (c : Nat) (k : Option Nat) (e n : Nat) : (s.count c k e n).mbCode = s.mbCode := rfl
@[simp] theorem State.count_mbErr (s : State) (c : Nat) (k : Option Nat) (e n : Nat) : (s.count c k e n).mbErr = s.mbErr := rfl
@[simp] theorem State.count_mbBusy (s : State) (c : Nat) (k : Option Nat) (e n : Nat) : (s.count c k e n).mbBusy = s.mbBusy := rfl
@[simp] theorem State.count_mbarg (s : State) (c : Nat) (k : Option Nat) (e n : Nat) : (s.count c k e n).mbarg = s.mbarg := rfl
@[simp] theorem State.count_sensors (s : State) (c : Nat) (k : Option Nat) (e n : Nat) : (s.count c k e n).sensors = s.sensors := rfl
@[simp] theorem State.count_mhz (s : State) (c : Nat) (k : Option Nat) (e n : Nat) : (s.count c k e n).mhz = s.mhz := rfl
@[simp] theorem State.count_sensorsDue (s : State) (c : Nat) (k : Option Nat) (e n : Nat) : (s.count c k e n).sensorsDue = s.sensorsDue := rfl
@[simp] theorem State.count_hotFor (s : State) (c : Nat) (k : Option Nat) (e n : Nat) : (s.count c k e n).hotFor = s.hotFor := rfl
@[simp] theorem State.count_coolFor (s : State) (c : Nat) (k : Option Nat) (e n : Nat) : (s.count c k e n).coolFor = s.coolFor := rfl
@[simp] theorem State.count_alerts (s : State) (c : Nat) (k : Option Nat) (e n : Nat) : (s.count c k e n).alerts = s.alerts := rfl
@[simp] theorem State.count_alertIx (s : State) (c : Nat) (k : Option Nat) (e n : Nat) : (s.count c k e n).alertIx = s.alertIx := rfl
@[simp] theorem State.count_interrupts (s : State) (c : Nat) (k : Option Nat) (e n : Nat) : (s.count c k e n).interrupts = s.interrupts := rfl
@[simp] theorem State.count_signedSeq (s : State) (c : Nat) (k : Option Nat) (e n : Nat) : (s.count c k e n).signedSeq = s.signedSeq := rfl
@[simp] theorem State.count_errlog (s : State) (c : Nat) (k : Option Nat) (e n : Nat) : (s.count c k e n).errlog = s.errlog := rfl
@[simp] theorem State.count_ports (s : State) (c : Nat) (k : Option Nat) (e n : Nat) : (s.count c k e n).ports = s.ports := rfl
@[simp] theorem State.count_iodLinkDown (s : State) (c : Nat) (k : Option Nat) (e n : Nat) : (s.count c k e n).iodLinkDown = s.iodLinkDown := rfl
@[simp] theorem State.count_supply (s : State) (c : Nat) (k : Option Nat) (e n : Nat) : (s.count c k e n).supply = s.supply := rfl
@[simp] theorem State.count_energyLow (s : State) (c : Nat) (k : Option Nat) (e n : Nat) : (s.count c k e n).energyLow = s.energyLow := rfl
@[simp] theorem State.count_flash (s : State) (c : Nat) (k : Option Nat) (e n : Nat) : (s.count c k e n).flash = s.flash := rfl
@[simp] theorem State.count_gangSeq (s : State) (c : Nat) (k : Option Nat) (e n : Nat) : (s.count c k e n).gangSeq = s.gangSeq := rfl
@[simp] theorem State.count_startSeq (s : State) (c : Nat) (k : Option Nat) (e n : Nat) : (s.count c k e n).startSeq = s.startSeq := rfl
@[simp] theorem State.count_rlslots (s : State) (c : Nat) (k : Option Nat) (e n : Nat) : (s.count c k e n).rlslots = s.rlslots := rfl
@[simp] theorem State.count_partitions (s : State) (c : Nat) (k : Option Nat) (e n : Nat) : (s.count c k e n).partitions = s.partitions := rfl
@[simp] theorem State.count_coreMaps (s : State) (c : Nat) (k : Option Nat) (e n : Nat) : (s.count c k e n).coreMaps = s.coreMaps := rfl
@[simp] theorem State.count_noMatrix (s : State) (c : Nat) (k : Option Nat) (e n : Nat) : (s.count c k e n).noMatrix = s.noMatrix := rfl
@[simp] theorem State.count_asids (s : State) (c : Nat) (k : Option Nat) (e n : Nat) : (s.count c k e n).asids = s.asids := rfl
@[simp] theorem State.count_queues (s : State) (c : Nat) (k : Option Nat) (e n : Nat) : (s.count c k e n).queues = s.queues := rfl
@[simp] theorem State.count_turnProc (s : State) (c : Nat) (k : Option Nat) (e n : Nat) : (s.count c k e n).turnProc = s.turnProc := rfl
@[simp] theorem State.count_turnStart (s : State) (c : Nat) (k : Option Nat) (e n : Nat) : (s.count c k e n).turnStart = s.turnStart := rfl
@[simp] theorem State.count_turnNext (s : State) (c : Nat) (k : Option Nat) (e n : Nat) : (s.count c k e n).turnNext = s.turnNext := rfl
@[simp] theorem State.count_nextOrder (s : State) (c : Nat) (k : Option Nat) (e n : Nat) : (s.count c k e n).nextOrder = s.nextOrder := rfl
@[simp] theorem State.count_launches (s : State) (c : Nat) (k : Option Nat) (e n : Nat) : (s.count c k e n).launches = s.launches := rfl
@[simp] theorem State.count_nextLaunch (s : State) (c : Nat) (k : Option Nat) (e n : Nat) : (s.count c k e n).nextLaunch = s.nextLaunch := rfl
@[simp] theorem State.count_shards (s : State) (c : Nat) (k : Option Nat) (e n : Nat) : (s.count c k e n).shards = s.shards := rfl
@[simp] theorem State.count_teams (s : State) (c : Nat) (k : Option Nat) (e n : Nat) : (s.count c k e n).teams = s.teams := rfl
@[simp] theorem State.count_groups (s : State) (c : Nat) (k : Option Nat) (e n : Nat) : (s.count c k e n).groups = s.groups := rfl
@[simp] theorem State.count_ctrlIret (s : State) (c : Nat) (k : Option Nat) (e n : Nat) : (s.count c k e n).ctrlIret = s.ctrlIret := rfl
@[simp] theorem State.count_dscratch (s : State) (c : Nat) (k : Option Nat) (e n : Nat) : (s.count c k e n).dscratch = s.dscratch := rfl
@[simp] theorem State.count_gangs (s : State) (c : Nat) (k : Option Nat) (e n : Nat) : (s.count c k e n).gangs = s.gangs := rfl
@[simp] theorem State.count_tags (s : State) (c : Nat) (k : Option Nat) (e n : Nat) : (s.count c k e n).tags = s.tags := rfl
@[simp] theorem State.count_ops (s : State) (c : Nat) (k : Option Nat) (e n : Nat) : (s.count c k e n).ops = s.ops := rfl
@[simp] theorem State.count_barriers (s : State) (c : Nat) (k : Option Nat) (e n : Nat) : (s.count c k e n).barriers = s.barriers := rfl
@[simp] theorem State.count_reports (s : State) (c : Nat) (k : Option Nat) (e n : Nat) : (s.count c k e n).reports = s.reports := rfl
@[simp] theorem State.count_classes (s : State) (c : Nat) (k : Option Nat) (e n : Nat) : (s.count c k e n).classes = s.classes := rfl
@[simp] theorem State.count_reclass (s : State) (c : Nat) (k : Option Nat) (e n : Nat) : (s.count c k e n).reclass = s.reclass := rfl
@[simp] theorem State.count_tlb (s : State) (c : Nat) (k : Option Nat) (e n : Nat) : (s.count c k e n).tlb = s.tlb := rfl
@[simp] theorem State.count_walkCache (s : State) (c : Nat) (k : Option Nat) (e n : Nat) : (s.count c k e n).walkCache = s.walkCache := rfl
@[simp] theorem State.count_dir (s : State) (c : Nat) (k : Option Nat) (e n : Nat) : (s.count c k e n).dir = s.dir := rfl
@[simp] theorem State.count_l1 (s : State) (c : Nat) (k : Option Nat) (e n : Nat) : (s.count c k e n).l1 = s.l1 := rfl
@[simp] theorem State.count_constLines (s : State) (c : Nat) (k : Option Nat) (e n : Nat) : (s.count c k e n).constLines = s.constLines := rfl
@[simp] theorem State.count_net (s : State) (c : Nat) (k : Option Nat) (e n : Nat) : (s.count c k e n).net = s.net := rfl
@[simp] theorem State.count_hostLines (s : State) (c : Nat) (k : Option Nat) (e n : Nat) : (s.count c k e n).hostLines = s.hostLines := rfl
@[simp] theorem State.count_hostStalls (s : State) (c : Nat) (k : Option Nat) (e n : Nat) : (s.count c k e n).hostStalls = s.hostStalls := rfl
@[simp] theorem State.count_hostReply (s : State) (c : Nat) (k : Option Nat) (e n : Nat) : (s.count c k e n).hostReply = s.hostReply := rfl
@[simp] theorem State.count_links (s : State) (c : Nat) (k : Option Nat) (e n : Nat) : (s.count c k e n).links = s.links := rfl
@[simp] theorem State.count_collections (s : State) (c : Nat) (k : Option Nat) (e n : Nat) : (s.count c k e n).collections = s.collections := rfl
@[simp] theorem State.count_nextCollection (s : State) (c : Nat) (k : Option Nat) (e n : Nat) : (s.count c k e n).nextCollection = s.nextCollection := rfl
@[simp] theorem State.count_savedScratch (s : State) (c : Nat) (k : Option Nat) (e n : Nat) : (s.count c k e n).savedScratch = s.savedScratch := rfl
@[simp] theorem State.count_saveOrder (s : State) (c : Nat) (k : Option Nat) (e n : Nat) : (s.count c k e n).saveOrder = s.saveOrder := rfl
@[simp] theorem State.count_reservations (s : State) (c : Nat) (k : Option Nat) (e n : Nat) : (s.count c k e n).reservations = s.reservations := rfl
@[simp] theorem State.count_waitingNb (s : State) (c : Nat) (k : Option Nat) (e n : Nat) : (s.count c k e n).waitingNb = s.waitingNb := rfl
@[simp] theorem State.count_imageAreas (s : State) (c : Nat) (k : Option Nat) (e n : Nat) : (s.count c k e n).imageAreas = s.imageAreas := rfl
@[simp] theorem State.count_drogue (s : State) (c : Nat) (k : Option Nat) (e n : Nat) : (s.count c k e n).drogue = s.drogue := rfl
@[simp] theorem State.count_counts (s : State) (c : Nat) (k : Option Nat) (e n : Nat) : (s.count c k e n).counts = s.counts := rfl
@[simp] theorem State.count_arrayErrors (s : State) (c : Nat) (k : Option Nat) (e n : Nat) : (s.count c k e n).arrayErrors = s.arrayErrors := rfl
@[simp] theorem State.count_usedSpares (s : State) (c : Nat) (k : Option Nat) (e n : Nat) : (s.count c k e n).usedSpares = s.usedSpares := rfl
@[simp] theorem State.count_lost (s : State) (c : Nat) (k : Option Nat) (e n : Nat) : (s.count c k e n).lost = s.lost := rfl
@[simp] theorem State.count_deadStacks (s : State) (c : Nat) (k : Option Nat) (e n : Nat) : (s.count c k e n).deadStacks = s.deadStacks := rfl
@[simp] theorem State.count_leafStops (s : State) (c : Nat) (k : Option Nat) (e n : Nat) : (s.count c k e n).leafStops = s.leafStops := rfl
@[simp] theorem State.count_flushDue (s : State) (c : Nat) (k : Option Nat) (e n : Nat) : (s.count c k e n).flushDue = s.flushDue := rfl
@[simp] theorem State.count_defects (s : State) (c : Nat) (k : Option Nat) (e n : Nat) : (s.count c k e n).defects = s.defects := rfl
@[simp] theorem State.count_moves (s : State) (c : Nat) (k : Option Nat) (e n : Nat) : (s.count c k e n).moves = s.moves := rfl

/-! ## countFor -/

@[simp] theorem State.countFor_agenda (s : State) (i : StreamId) (e n : Nat) : (s.countFor i e n).agenda = s.agenda := by unfold State.countFor; split <;> (try split) <;> rfl
@[simp] theorem State.countFor_cur (s : State) (i : StreamId) (e n : Nat) : (s.countFor i e n).cur = s.cur := by unfold State.countFor; split <;> (try split) <;> rfl
@[simp] theorem State.countFor_limit (s : State) (i : StreamId) (e n : Nat) : (s.countFor i e n).limit = s.limit := by unfold State.countFor; split <;> (try split) <;> rfl
@[simp] theorem State.countFor_migrating (s : State) (i : StreamId) (e n : Nat) : (s.countFor i e n).migrating = s.migrating := by unfold State.countFor; split <;> (try split) <;> rfl
@[simp] theorem State.countFor_statDue (s : State) (i : StreamId) (e n : Nat) : (s.countFor i e n).statDue = s.statDue := by unfold State.countFor; split <;> (try split) <;> rfl
@[simp] theorem State.countFor_qcmdDue (s : State) (i : StreamId) (e n : Nat) : (s.countFor i e n).qcmdDue = s.qcmdDue := by unfold State.countFor; split <;> (try split) <;> rfl
@[simp] theorem State.countFor_freeCount (s : State) (i : StreamId) (e n : Nat) : (s.countFor i e n).freeCount = s.freeCount := by unfold State.countFor; split <;> (try split) <;> rfl
@[simp] theorem State.countFor_readySeq (s : State) (i : StreamId) (e n : Nat) : (s.countFor i e n).readySeq = s.readySeq := by unfold State.countFor; split <;> (try split) <;> rfl
@[simp] theorem State.countFor_takeSeq (s : State) (i : StreamId) (e n : Nat) : (s.countFor i e n).takeSeq = s.takeSeq := by unfold State.countFor; split <;> (try split) <;> rfl
@[simp] theorem State.countFor_clock (s : State) (i : StreamId) (e n : Nat) : (s.countFor i e n).clock = s.clock := by unfold State.countFor; split <;> (try split) <;> rfl
@[simp] theorem State.countFor_mem (s : State) (i : StreamId) (e n : Nat) : (s.countFor i e n).mem = s.mem := by unfold State.countFor; split <;> (try split) <;> rfl
@[simp] theorem State.countFor_poison (s : State) (i : StreamId) (e n : Nat) : (s.countFor i e n).poison = s.poison := by unfold State.countFor; split <;> (try split) <;> rfl
@[simp] theorem State.countFor_fw (s : State) (i : StreamId) (e n : Nat) : (s.countFor i e n).fw = s.fw := by unfold State.countFor; split <;> (try split) <;> rfl
@[simp] theorem State.countFor_fwacc (s : State) (i : StreamId) (e n : Nat) : (s.countFor i e n).fwacc = s.fwacc := by unfold State.countFor; split <;> (try split) <;> rfl
@[simp] theorem State.countFor_qtbase (s : State) (i : StreamId) (e n : Nat) : (s.countFor i e n).qtbase = s.qtbase := by unfold State.countFor; split <;> (try split) <;> rfl
@[simp] theorem State.countFor_qtsize (s : State) (i : StreamId) (e n : Nat) : (s.countFor i e n).qtsize = s.qtsize := by unfold State.countFor; split <;> (try split) <;> rfl
@[simp] theorem State.countFor_qstat (s : State) (i : StreamId) (e n : Nat) : (s.countFor i e n).qstat = s.qstat := by unfold State.countFor; split <;> (try split) <;> rfl
@[simp] theorem State.countFor_mstate (s : State) (i : StreamId) (e n : Nat) : (s.countFor i e n).mstate = s.mstate := by unfold State.countFor; split <;> (try split) <;> rfl
@[simp] theorem State.countFor_asidbase (s : State) (i : StreamId) (e n : Nat) : (s.countFor i e n).asidbase = s.asidbase := by unfold State.countFor; split <;> (try split) <;> rfl
@[simp] theorem State.countFor_bstate (s : State) (i : StreamId) (e n : Nat) : (s.countFor i e n).bstate = s.bstate := by unfold State.countFor; split <;> (try split) <;> rfl
@[simp] theorem State.countFor_up (s : State) (i : StreamId) (e n : Nat) : (s.countFor i e n).up = s.up := by unfold State.countFor; split <;> (try split) <;> rfl
@[simp] theorem State.countFor_firmware (s : State) (i : StreamId) (e n : Nat) : (s.countFor i e n).firmware = s.firmware := by unfold State.countFor; split <;> (try split) <;> rfl
@[simp] theorem State.countFor_mbCode (s : State) (i : StreamId) (e n : Nat) : (s.countFor i e n).mbCode = s.mbCode := by unfold State.countFor; split <;> (try split) <;> rfl
@[simp] theorem State.countFor_mbErr (s : State) (i : StreamId) (e n : Nat) : (s.countFor i e n).mbErr = s.mbErr := by unfold State.countFor; split <;> (try split) <;> rfl
@[simp] theorem State.countFor_mbBusy (s : State) (i : StreamId) (e n : Nat) : (s.countFor i e n).mbBusy = s.mbBusy := by unfold State.countFor; split <;> (try split) <;> rfl
@[simp] theorem State.countFor_mbarg (s : State) (i : StreamId) (e n : Nat) : (s.countFor i e n).mbarg = s.mbarg := by unfold State.countFor; split <;> (try split) <;> rfl
@[simp] theorem State.countFor_sensors (s : State) (i : StreamId) (e n : Nat) : (s.countFor i e n).sensors = s.sensors := by unfold State.countFor; split <;> (try split) <;> rfl
@[simp] theorem State.countFor_mhz (s : State) (i : StreamId) (e n : Nat) : (s.countFor i e n).mhz = s.mhz := by unfold State.countFor; split <;> (try split) <;> rfl
@[simp] theorem State.countFor_sensorsDue (s : State) (i : StreamId) (e n : Nat) : (s.countFor i e n).sensorsDue = s.sensorsDue := by unfold State.countFor; split <;> (try split) <;> rfl
@[simp] theorem State.countFor_hotFor (s : State) (i : StreamId) (e n : Nat) : (s.countFor i e n).hotFor = s.hotFor := by unfold State.countFor; split <;> (try split) <;> rfl
@[simp] theorem State.countFor_coolFor (s : State) (i : StreamId) (e n : Nat) : (s.countFor i e n).coolFor = s.coolFor := by unfold State.countFor; split <;> (try split) <;> rfl
@[simp] theorem State.countFor_alerts (s : State) (i : StreamId) (e n : Nat) : (s.countFor i e n).alerts = s.alerts := by unfold State.countFor; split <;> (try split) <;> rfl
@[simp] theorem State.countFor_alertIx (s : State) (i : StreamId) (e n : Nat) : (s.countFor i e n).alertIx = s.alertIx := by unfold State.countFor; split <;> (try split) <;> rfl
@[simp] theorem State.countFor_interrupts (s : State) (i : StreamId) (e n : Nat) : (s.countFor i e n).interrupts = s.interrupts := by unfold State.countFor; split <;> (try split) <;> rfl
@[simp] theorem State.countFor_signedSeq (s : State) (i : StreamId) (e n : Nat) : (s.countFor i e n).signedSeq = s.signedSeq := by unfold State.countFor; split <;> (try split) <;> rfl
@[simp] theorem State.countFor_errlog (s : State) (i : StreamId) (e n : Nat) : (s.countFor i e n).errlog = s.errlog := by unfold State.countFor; split <;> (try split) <;> rfl
@[simp] theorem State.countFor_ports (s : State) (i : StreamId) (e n : Nat) : (s.countFor i e n).ports = s.ports := by unfold State.countFor; split <;> (try split) <;> rfl
@[simp] theorem State.countFor_iodLinkDown (s : State) (i : StreamId) (e n : Nat) : (s.countFor i e n).iodLinkDown = s.iodLinkDown := by unfold State.countFor; split <;> (try split) <;> rfl
@[simp] theorem State.countFor_supply (s : State) (i : StreamId) (e n : Nat) : (s.countFor i e n).supply = s.supply := by unfold State.countFor; split <;> (try split) <;> rfl
@[simp] theorem State.countFor_energyLow (s : State) (i : StreamId) (e n : Nat) : (s.countFor i e n).energyLow = s.energyLow := by unfold State.countFor; split <;> (try split) <;> rfl
@[simp] theorem State.countFor_flash (s : State) (i : StreamId) (e n : Nat) : (s.countFor i e n).flash = s.flash := by unfold State.countFor; split <;> (try split) <;> rfl
@[simp] theorem State.countFor_gangSeq (s : State) (i : StreamId) (e n : Nat) : (s.countFor i e n).gangSeq = s.gangSeq := by unfold State.countFor; split <;> (try split) <;> rfl
@[simp] theorem State.countFor_startSeq (s : State) (i : StreamId) (e n : Nat) : (s.countFor i e n).startSeq = s.startSeq := by unfold State.countFor; split <;> (try split) <;> rfl
@[simp] theorem State.countFor_rlslots (s : State) (i : StreamId) (e n : Nat) : (s.countFor i e n).rlslots = s.rlslots := by unfold State.countFor; split <;> (try split) <;> rfl
@[simp] theorem State.countFor_partitions (s : State) (i : StreamId) (e n : Nat) : (s.countFor i e n).partitions = s.partitions := by unfold State.countFor; split <;> (try split) <;> rfl
@[simp] theorem State.countFor_coreMaps (s : State) (i : StreamId) (e n : Nat) : (s.countFor i e n).coreMaps = s.coreMaps := by unfold State.countFor; split <;> (try split) <;> rfl
@[simp] theorem State.countFor_noMatrix (s : State) (i : StreamId) (e n : Nat) : (s.countFor i e n).noMatrix = s.noMatrix := by unfold State.countFor; split <;> (try split) <;> rfl
@[simp] theorem State.countFor_asids (s : State) (i : StreamId) (e n : Nat) : (s.countFor i e n).asids = s.asids := by unfold State.countFor; split <;> (try split) <;> rfl
@[simp] theorem State.countFor_queues (s : State) (i : StreamId) (e n : Nat) : (s.countFor i e n).queues = s.queues := by unfold State.countFor; split <;> (try split) <;> rfl
@[simp] theorem State.countFor_turnProc (s : State) (i : StreamId) (e n : Nat) : (s.countFor i e n).turnProc = s.turnProc := by unfold State.countFor; split <;> (try split) <;> rfl
@[simp] theorem State.countFor_turnStart (s : State) (i : StreamId) (e n : Nat) : (s.countFor i e n).turnStart = s.turnStart := by unfold State.countFor; split <;> (try split) <;> rfl
@[simp] theorem State.countFor_turnNext (s : State) (i : StreamId) (e n : Nat) : (s.countFor i e n).turnNext = s.turnNext := by unfold State.countFor; split <;> (try split) <;> rfl
@[simp] theorem State.countFor_nextOrder (s : State) (i : StreamId) (e n : Nat) : (s.countFor i e n).nextOrder = s.nextOrder := by unfold State.countFor; split <;> (try split) <;> rfl
@[simp] theorem State.countFor_launches (s : State) (i : StreamId) (e n : Nat) : (s.countFor i e n).launches = s.launches := by unfold State.countFor; split <;> (try split) <;> rfl
@[simp] theorem State.countFor_nextLaunch (s : State) (i : StreamId) (e n : Nat) : (s.countFor i e n).nextLaunch = s.nextLaunch := by unfold State.countFor; split <;> (try split) <;> rfl
@[simp] theorem State.countFor_shards (s : State) (i : StreamId) (e n : Nat) : (s.countFor i e n).shards = s.shards := by unfold State.countFor; split <;> (try split) <;> rfl
@[simp] theorem State.countFor_teams (s : State) (i : StreamId) (e n : Nat) : (s.countFor i e n).teams = s.teams := by unfold State.countFor; split <;> (try split) <;> rfl
@[simp] theorem State.countFor_groups (s : State) (i : StreamId) (e n : Nat) : (s.countFor i e n).groups = s.groups := by unfold State.countFor; split <;> (try split) <;> rfl
@[simp] theorem State.countFor_ctrlIret (s : State) (i : StreamId) (e n : Nat) : (s.countFor i e n).ctrlIret = s.ctrlIret := by unfold State.countFor; split <;> (try split) <;> rfl
@[simp] theorem State.countFor_dscratch (s : State) (i : StreamId) (e n : Nat) : (s.countFor i e n).dscratch = s.dscratch := by unfold State.countFor; split <;> (try split) <;> rfl
@[simp] theorem State.countFor_gangs (s : State) (i : StreamId) (e n : Nat) : (s.countFor i e n).gangs = s.gangs := by unfold State.countFor; split <;> (try split) <;> rfl
@[simp] theorem State.countFor_tags (s : State) (i : StreamId) (e n : Nat) : (s.countFor i e n).tags = s.tags := by unfold State.countFor; split <;> (try split) <;> rfl
@[simp] theorem State.countFor_ops (s : State) (i : StreamId) (e n : Nat) : (s.countFor i e n).ops = s.ops := by unfold State.countFor; split <;> (try split) <;> rfl
@[simp] theorem State.countFor_barriers (s : State) (i : StreamId) (e n : Nat) : (s.countFor i e n).barriers = s.barriers := by unfold State.countFor; split <;> (try split) <;> rfl
@[simp] theorem State.countFor_reports (s : State) (i : StreamId) (e n : Nat) : (s.countFor i e n).reports = s.reports := by unfold State.countFor; split <;> (try split) <;> rfl
@[simp] theorem State.countFor_classes (s : State) (i : StreamId) (e n : Nat) : (s.countFor i e n).classes = s.classes := by unfold State.countFor; split <;> (try split) <;> rfl
@[simp] theorem State.countFor_reclass (s : State) (i : StreamId) (e n : Nat) : (s.countFor i e n).reclass = s.reclass := by unfold State.countFor; split <;> (try split) <;> rfl
@[simp] theorem State.countFor_tlb (s : State) (i : StreamId) (e n : Nat) : (s.countFor i e n).tlb = s.tlb := by unfold State.countFor; split <;> (try split) <;> rfl
@[simp] theorem State.countFor_walkCache (s : State) (i : StreamId) (e n : Nat) : (s.countFor i e n).walkCache = s.walkCache := by unfold State.countFor; split <;> (try split) <;> rfl
@[simp] theorem State.countFor_dir (s : State) (i : StreamId) (e n : Nat) : (s.countFor i e n).dir = s.dir := by unfold State.countFor; split <;> (try split) <;> rfl
@[simp] theorem State.countFor_l1 (s : State) (i : StreamId) (e n : Nat) : (s.countFor i e n).l1 = s.l1 := by unfold State.countFor; split <;> (try split) <;> rfl
@[simp] theorem State.countFor_constLines (s : State) (i : StreamId) (e n : Nat) : (s.countFor i e n).constLines = s.constLines := by unfold State.countFor; split <;> (try split) <;> rfl
@[simp] theorem State.countFor_net (s : State) (i : StreamId) (e n : Nat) : (s.countFor i e n).net = s.net := by unfold State.countFor; split <;> (try split) <;> rfl
@[simp] theorem State.countFor_hostLines (s : State) (i : StreamId) (e n : Nat) : (s.countFor i e n).hostLines = s.hostLines := by unfold State.countFor; split <;> (try split) <;> rfl
@[simp] theorem State.countFor_hostStalls (s : State) (i : StreamId) (e n : Nat) : (s.countFor i e n).hostStalls = s.hostStalls := by unfold State.countFor; split <;> (try split) <;> rfl
@[simp] theorem State.countFor_hostReply (s : State) (i : StreamId) (e n : Nat) : (s.countFor i e n).hostReply = s.hostReply := by unfold State.countFor; split <;> (try split) <;> rfl
@[simp] theorem State.countFor_links (s : State) (i : StreamId) (e n : Nat) : (s.countFor i e n).links = s.links := by unfold State.countFor; split <;> (try split) <;> rfl
@[simp] theorem State.countFor_collections (s : State) (i : StreamId) (e n : Nat) : (s.countFor i e n).collections = s.collections := by unfold State.countFor; split <;> (try split) <;> rfl
@[simp] theorem State.countFor_nextCollection (s : State) (i : StreamId) (e n : Nat) : (s.countFor i e n).nextCollection = s.nextCollection := by unfold State.countFor; split <;> (try split) <;> rfl
@[simp] theorem State.countFor_savedScratch (s : State) (i : StreamId) (e n : Nat) : (s.countFor i e n).savedScratch = s.savedScratch := by unfold State.countFor; split <;> (try split) <;> rfl
@[simp] theorem State.countFor_saveOrder (s : State) (i : StreamId) (e n : Nat) : (s.countFor i e n).saveOrder = s.saveOrder := by unfold State.countFor; split <;> (try split) <;> rfl
@[simp] theorem State.countFor_reservations (s : State) (i : StreamId) (e n : Nat) : (s.countFor i e n).reservations = s.reservations := by unfold State.countFor; split <;> (try split) <;> rfl
@[simp] theorem State.countFor_waitingNb (s : State) (i : StreamId) (e n : Nat) : (s.countFor i e n).waitingNb = s.waitingNb := by unfold State.countFor; split <;> (try split) <;> rfl
@[simp] theorem State.countFor_imageAreas (s : State) (i : StreamId) (e n : Nat) : (s.countFor i e n).imageAreas = s.imageAreas := by unfold State.countFor; split <;> (try split) <;> rfl
@[simp] theorem State.countFor_drogue (s : State) (i : StreamId) (e n : Nat) : (s.countFor i e n).drogue = s.drogue := by unfold State.countFor; split <;> (try split) <;> rfl
@[simp] theorem State.countFor_counts (s : State) (i : StreamId) (e n : Nat) : (s.countFor i e n).counts = s.counts := by unfold State.countFor; split <;> (try split) <;> rfl
@[simp] theorem State.countFor_arrayErrors (s : State) (i : StreamId) (e n : Nat) : (s.countFor i e n).arrayErrors = s.arrayErrors := by unfold State.countFor; split <;> (try split) <;> rfl
@[simp] theorem State.countFor_usedSpares (s : State) (i : StreamId) (e n : Nat) : (s.countFor i e n).usedSpares = s.usedSpares := by unfold State.countFor; split <;> (try split) <;> rfl
@[simp] theorem State.countFor_lost (s : State) (i : StreamId) (e n : Nat) : (s.countFor i e n).lost = s.lost := by unfold State.countFor; split <;> (try split) <;> rfl
@[simp] theorem State.countFor_deadStacks (s : State) (i : StreamId) (e n : Nat) : (s.countFor i e n).deadStacks = s.deadStacks := by unfold State.countFor; split <;> (try split) <;> rfl
@[simp] theorem State.countFor_leafStops (s : State) (i : StreamId) (e n : Nat) : (s.countFor i e n).leafStops = s.leafStops := by unfold State.countFor; split <;> (try split) <;> rfl
@[simp] theorem State.countFor_flushDue (s : State) (i : StreamId) (e n : Nat) : (s.countFor i e n).flushDue = s.flushDue := by unfold State.countFor; split <;> (try split) <;> rfl
@[simp] theorem State.countFor_defects (s : State) (i : StreamId) (e n : Nat) : (s.countFor i e n).defects = s.defects := by unfold State.countFor; split <;> (try split) <;> rfl
@[simp] theorem State.countFor_moves (s : State) (i : StreamId) (e n : Nat) : (s.countFor i e n).moves = s.moves := by unfold State.countFor; split <;> (try split) <;> rfl

/-! ## countRetired -/

@[simp] theorem State.countRetired_agenda (s : State) (i : StreamId) : (s.countRetired i).agenda = s.agenda := by unfold State.countRetired; split <;> (try split) <;> rfl
@[simp] theorem State.countRetired_cur (s : State) (i : StreamId) : (s.countRetired i).cur = s.cur := by unfold State.countRetired; split <;> (try split) <;> rfl
@[simp] theorem State.countRetired_limit (s : State) (i : StreamId) : (s.countRetired i).limit = s.limit := by unfold State.countRetired; split <;> (try split) <;> rfl
@[simp] theorem State.countRetired_migrating (s : State) (i : StreamId) : (s.countRetired i).migrating = s.migrating := by unfold State.countRetired; split <;> (try split) <;> rfl
@[simp] theorem State.countRetired_statDue (s : State) (i : StreamId) : (s.countRetired i).statDue = s.statDue := by unfold State.countRetired; split <;> (try split) <;> rfl
@[simp] theorem State.countRetired_qcmdDue (s : State) (i : StreamId) : (s.countRetired i).qcmdDue = s.qcmdDue := by unfold State.countRetired; split <;> (try split) <;> rfl
@[simp] theorem State.countRetired_freeCount (s : State) (i : StreamId) : (s.countRetired i).freeCount = s.freeCount := by unfold State.countRetired; split <;> (try split) <;> rfl
@[simp] theorem State.countRetired_readySeq (s : State) (i : StreamId) : (s.countRetired i).readySeq = s.readySeq := by unfold State.countRetired; split <;> (try split) <;> rfl
@[simp] theorem State.countRetired_takeSeq (s : State) (i : StreamId) : (s.countRetired i).takeSeq = s.takeSeq := by unfold State.countRetired; split <;> (try split) <;> rfl
@[simp] theorem State.countRetired_clock (s : State) (i : StreamId) : (s.countRetired i).clock = s.clock := by unfold State.countRetired; split <;> (try split) <;> rfl
@[simp] theorem State.countRetired_mem (s : State) (i : StreamId) : (s.countRetired i).mem = s.mem := by unfold State.countRetired; split <;> (try split) <;> rfl
@[simp] theorem State.countRetired_poison (s : State) (i : StreamId) : (s.countRetired i).poison = s.poison := by unfold State.countRetired; split <;> (try split) <;> rfl
@[simp] theorem State.countRetired_fw (s : State) (i : StreamId) : (s.countRetired i).fw = s.fw := by unfold State.countRetired; split <;> (try split) <;> rfl
@[simp] theorem State.countRetired_fwacc (s : State) (i : StreamId) : (s.countRetired i).fwacc = s.fwacc := by unfold State.countRetired; split <;> (try split) <;> rfl
@[simp] theorem State.countRetired_qtbase (s : State) (i : StreamId) : (s.countRetired i).qtbase = s.qtbase := by unfold State.countRetired; split <;> (try split) <;> rfl
@[simp] theorem State.countRetired_qtsize (s : State) (i : StreamId) : (s.countRetired i).qtsize = s.qtsize := by unfold State.countRetired; split <;> (try split) <;> rfl
@[simp] theorem State.countRetired_qstat (s : State) (i : StreamId) : (s.countRetired i).qstat = s.qstat := by unfold State.countRetired; split <;> (try split) <;> rfl
@[simp] theorem State.countRetired_mstate (s : State) (i : StreamId) : (s.countRetired i).mstate = s.mstate := by unfold State.countRetired; split <;> (try split) <;> rfl
@[simp] theorem State.countRetired_asidbase (s : State) (i : StreamId) : (s.countRetired i).asidbase = s.asidbase := by unfold State.countRetired; split <;> (try split) <;> rfl
@[simp] theorem State.countRetired_bstate (s : State) (i : StreamId) : (s.countRetired i).bstate = s.bstate := by unfold State.countRetired; split <;> (try split) <;> rfl
@[simp] theorem State.countRetired_up (s : State) (i : StreamId) : (s.countRetired i).up = s.up := by unfold State.countRetired; split <;> (try split) <;> rfl
@[simp] theorem State.countRetired_firmware (s : State) (i : StreamId) : (s.countRetired i).firmware = s.firmware := by unfold State.countRetired; split <;> (try split) <;> rfl
@[simp] theorem State.countRetired_mbCode (s : State) (i : StreamId) : (s.countRetired i).mbCode = s.mbCode := by unfold State.countRetired; split <;> (try split) <;> rfl
@[simp] theorem State.countRetired_mbErr (s : State) (i : StreamId) : (s.countRetired i).mbErr = s.mbErr := by unfold State.countRetired; split <;> (try split) <;> rfl
@[simp] theorem State.countRetired_mbBusy (s : State) (i : StreamId) : (s.countRetired i).mbBusy = s.mbBusy := by unfold State.countRetired; split <;> (try split) <;> rfl
@[simp] theorem State.countRetired_mbarg (s : State) (i : StreamId) : (s.countRetired i).mbarg = s.mbarg := by unfold State.countRetired; split <;> (try split) <;> rfl
@[simp] theorem State.countRetired_sensors (s : State) (i : StreamId) : (s.countRetired i).sensors = s.sensors := by unfold State.countRetired; split <;> (try split) <;> rfl
@[simp] theorem State.countRetired_mhz (s : State) (i : StreamId) : (s.countRetired i).mhz = s.mhz := by unfold State.countRetired; split <;> (try split) <;> rfl
@[simp] theorem State.countRetired_sensorsDue (s : State) (i : StreamId) : (s.countRetired i).sensorsDue = s.sensorsDue := by unfold State.countRetired; split <;> (try split) <;> rfl
@[simp] theorem State.countRetired_hotFor (s : State) (i : StreamId) : (s.countRetired i).hotFor = s.hotFor := by unfold State.countRetired; split <;> (try split) <;> rfl
@[simp] theorem State.countRetired_coolFor (s : State) (i : StreamId) : (s.countRetired i).coolFor = s.coolFor := by unfold State.countRetired; split <;> (try split) <;> rfl
@[simp] theorem State.countRetired_alerts (s : State) (i : StreamId) : (s.countRetired i).alerts = s.alerts := by unfold State.countRetired; split <;> (try split) <;> rfl
@[simp] theorem State.countRetired_alertIx (s : State) (i : StreamId) : (s.countRetired i).alertIx = s.alertIx := by unfold State.countRetired; split <;> (try split) <;> rfl
@[simp] theorem State.countRetired_interrupts (s : State) (i : StreamId) : (s.countRetired i).interrupts = s.interrupts := by unfold State.countRetired; split <;> (try split) <;> rfl
@[simp] theorem State.countRetired_signedSeq (s : State) (i : StreamId) : (s.countRetired i).signedSeq = s.signedSeq := by unfold State.countRetired; split <;> (try split) <;> rfl
@[simp] theorem State.countRetired_errlog (s : State) (i : StreamId) : (s.countRetired i).errlog = s.errlog := by unfold State.countRetired; split <;> (try split) <;> rfl
@[simp] theorem State.countRetired_ports (s : State) (i : StreamId) : (s.countRetired i).ports = s.ports := by unfold State.countRetired; split <;> (try split) <;> rfl
@[simp] theorem State.countRetired_iodLinkDown (s : State) (i : StreamId) : (s.countRetired i).iodLinkDown = s.iodLinkDown := by unfold State.countRetired; split <;> (try split) <;> rfl
@[simp] theorem State.countRetired_supply (s : State) (i : StreamId) : (s.countRetired i).supply = s.supply := by unfold State.countRetired; split <;> (try split) <;> rfl
@[simp] theorem State.countRetired_energyLow (s : State) (i : StreamId) : (s.countRetired i).energyLow = s.energyLow := by unfold State.countRetired; split <;> (try split) <;> rfl
@[simp] theorem State.countRetired_flash (s : State) (i : StreamId) : (s.countRetired i).flash = s.flash := by unfold State.countRetired; split <;> (try split) <;> rfl
@[simp] theorem State.countRetired_gangSeq (s : State) (i : StreamId) : (s.countRetired i).gangSeq = s.gangSeq := by unfold State.countRetired; split <;> (try split) <;> rfl
@[simp] theorem State.countRetired_startSeq (s : State) (i : StreamId) : (s.countRetired i).startSeq = s.startSeq := by unfold State.countRetired; split <;> (try split) <;> rfl
@[simp] theorem State.countRetired_rlslots (s : State) (i : StreamId) : (s.countRetired i).rlslots = s.rlslots := by unfold State.countRetired; split <;> (try split) <;> rfl
@[simp] theorem State.countRetired_partitions (s : State) (i : StreamId) : (s.countRetired i).partitions = s.partitions := by unfold State.countRetired; split <;> (try split) <;> rfl
@[simp] theorem State.countRetired_coreMaps (s : State) (i : StreamId) : (s.countRetired i).coreMaps = s.coreMaps := by unfold State.countRetired; split <;> (try split) <;> rfl
@[simp] theorem State.countRetired_noMatrix (s : State) (i : StreamId) : (s.countRetired i).noMatrix = s.noMatrix := by unfold State.countRetired; split <;> (try split) <;> rfl
@[simp] theorem State.countRetired_asids (s : State) (i : StreamId) : (s.countRetired i).asids = s.asids := by unfold State.countRetired; split <;> (try split) <;> rfl
@[simp] theorem State.countRetired_queues (s : State) (i : StreamId) : (s.countRetired i).queues = s.queues := by unfold State.countRetired; split <;> (try split) <;> rfl
@[simp] theorem State.countRetired_turnProc (s : State) (i : StreamId) : (s.countRetired i).turnProc = s.turnProc := by unfold State.countRetired; split <;> (try split) <;> rfl
@[simp] theorem State.countRetired_turnStart (s : State) (i : StreamId) : (s.countRetired i).turnStart = s.turnStart := by unfold State.countRetired; split <;> (try split) <;> rfl
@[simp] theorem State.countRetired_turnNext (s : State) (i : StreamId) : (s.countRetired i).turnNext = s.turnNext := by unfold State.countRetired; split <;> (try split) <;> rfl
@[simp] theorem State.countRetired_nextOrder (s : State) (i : StreamId) : (s.countRetired i).nextOrder = s.nextOrder := by unfold State.countRetired; split <;> (try split) <;> rfl
@[simp] theorem State.countRetired_launches (s : State) (i : StreamId) : (s.countRetired i).launches = s.launches := by unfold State.countRetired; split <;> (try split) <;> rfl
@[simp] theorem State.countRetired_nextLaunch (s : State) (i : StreamId) : (s.countRetired i).nextLaunch = s.nextLaunch := by unfold State.countRetired; split <;> (try split) <;> rfl
@[simp] theorem State.countRetired_shards (s : State) (i : StreamId) : (s.countRetired i).shards = s.shards := by unfold State.countRetired; split <;> (try split) <;> rfl
@[simp] theorem State.countRetired_groups (s : State) (i : StreamId) : (s.countRetired i).groups = s.groups := by unfold State.countRetired; split <;> (try split) <;> rfl
@[simp] theorem State.countRetired_dscratch (s : State) (i : StreamId) : (s.countRetired i).dscratch = s.dscratch := by unfold State.countRetired; split <;> (try split) <;> rfl
@[simp] theorem State.countRetired_gangs (s : State) (i : StreamId) : (s.countRetired i).gangs = s.gangs := by unfold State.countRetired; split <;> (try split) <;> rfl
@[simp] theorem State.countRetired_tags (s : State) (i : StreamId) : (s.countRetired i).tags = s.tags := by unfold State.countRetired; split <;> (try split) <;> rfl
@[simp] theorem State.countRetired_ops (s : State) (i : StreamId) : (s.countRetired i).ops = s.ops := by unfold State.countRetired; split <;> (try split) <;> rfl
@[simp] theorem State.countRetired_barriers (s : State) (i : StreamId) : (s.countRetired i).barriers = s.barriers := by unfold State.countRetired; split <;> (try split) <;> rfl
@[simp] theorem State.countRetired_reports (s : State) (i : StreamId) : (s.countRetired i).reports = s.reports := by unfold State.countRetired; split <;> (try split) <;> rfl
@[simp] theorem State.countRetired_classes (s : State) (i : StreamId) : (s.countRetired i).classes = s.classes := by unfold State.countRetired; split <;> (try split) <;> rfl
@[simp] theorem State.countRetired_reclass (s : State) (i : StreamId) : (s.countRetired i).reclass = s.reclass := by unfold State.countRetired; split <;> (try split) <;> rfl
@[simp] theorem State.countRetired_tlb (s : State) (i : StreamId) : (s.countRetired i).tlb = s.tlb := by unfold State.countRetired; split <;> (try split) <;> rfl
@[simp] theorem State.countRetired_walkCache (s : State) (i : StreamId) : (s.countRetired i).walkCache = s.walkCache := by unfold State.countRetired; split <;> (try split) <;> rfl
@[simp] theorem State.countRetired_dir (s : State) (i : StreamId) : (s.countRetired i).dir = s.dir := by unfold State.countRetired; split <;> (try split) <;> rfl
@[simp] theorem State.countRetired_l1 (s : State) (i : StreamId) : (s.countRetired i).l1 = s.l1 := by unfold State.countRetired; split <;> (try split) <;> rfl
@[simp] theorem State.countRetired_constLines (s : State) (i : StreamId) : (s.countRetired i).constLines = s.constLines := by unfold State.countRetired; split <;> (try split) <;> rfl
@[simp] theorem State.countRetired_net (s : State) (i : StreamId) : (s.countRetired i).net = s.net := by unfold State.countRetired; split <;> (try split) <;> rfl
@[simp] theorem State.countRetired_hostLines (s : State) (i : StreamId) : (s.countRetired i).hostLines = s.hostLines := by unfold State.countRetired; split <;> (try split) <;> rfl
@[simp] theorem State.countRetired_hostStalls (s : State) (i : StreamId) : (s.countRetired i).hostStalls = s.hostStalls := by unfold State.countRetired; split <;> (try split) <;> rfl
@[simp] theorem State.countRetired_hostReply (s : State) (i : StreamId) : (s.countRetired i).hostReply = s.hostReply := by unfold State.countRetired; split <;> (try split) <;> rfl
@[simp] theorem State.countRetired_links (s : State) (i : StreamId) : (s.countRetired i).links = s.links := by unfold State.countRetired; split <;> (try split) <;> rfl
@[simp] theorem State.countRetired_collections (s : State) (i : StreamId) : (s.countRetired i).collections = s.collections := by unfold State.countRetired; split <;> (try split) <;> rfl
@[simp] theorem State.countRetired_nextCollection (s : State) (i : StreamId) : (s.countRetired i).nextCollection = s.nextCollection := by unfold State.countRetired; split <;> (try split) <;> rfl
@[simp] theorem State.countRetired_savedScratch (s : State) (i : StreamId) : (s.countRetired i).savedScratch = s.savedScratch := by unfold State.countRetired; split <;> (try split) <;> rfl
@[simp] theorem State.countRetired_saveOrder (s : State) (i : StreamId) : (s.countRetired i).saveOrder = s.saveOrder := by unfold State.countRetired; split <;> (try split) <;> rfl
@[simp] theorem State.countRetired_reservations (s : State) (i : StreamId) : (s.countRetired i).reservations = s.reservations := by unfold State.countRetired; split <;> (try split) <;> rfl
@[simp] theorem State.countRetired_waitingNb (s : State) (i : StreamId) : (s.countRetired i).waitingNb = s.waitingNb := by unfold State.countRetired; split <;> (try split) <;> rfl
@[simp] theorem State.countRetired_imageAreas (s : State) (i : StreamId) : (s.countRetired i).imageAreas = s.imageAreas := by unfold State.countRetired; split <;> (try split) <;> rfl
@[simp] theorem State.countRetired_drogue (s : State) (i : StreamId) : (s.countRetired i).drogue = s.drogue := by unfold State.countRetired; split <;> (try split) <;> rfl
@[simp] theorem State.countRetired_counts (s : State) (i : StreamId) : (s.countRetired i).counts = s.counts := by unfold State.countRetired; split <;> (try split) <;> rfl
@[simp] theorem State.countRetired_arrayErrors (s : State) (i : StreamId) : (s.countRetired i).arrayErrors = s.arrayErrors := by unfold State.countRetired; split <;> (try split) <;> rfl
@[simp] theorem State.countRetired_usedSpares (s : State) (i : StreamId) : (s.countRetired i).usedSpares = s.usedSpares := by unfold State.countRetired; split <;> (try split) <;> rfl
@[simp] theorem State.countRetired_lost (s : State) (i : StreamId) : (s.countRetired i).lost = s.lost := by unfold State.countRetired; split <;> (try split) <;> rfl
@[simp] theorem State.countRetired_deadStacks (s : State) (i : StreamId) : (s.countRetired i).deadStacks = s.deadStacks := by unfold State.countRetired; split <;> (try split) <;> rfl
@[simp] theorem State.countRetired_leafStops (s : State) (i : StreamId) : (s.countRetired i).leafStops = s.leafStops := by unfold State.countRetired; split <;> (try split) <;> rfl
@[simp] theorem State.countRetired_flushDue (s : State) (i : StreamId) : (s.countRetired i).flushDue = s.flushDue := by unfold State.countRetired; split <;> (try split) <;> rfl
@[simp] theorem State.countRetired_defects (s : State) (i : StreamId) : (s.countRetired i).defects = s.defects := by unfold State.countRetired; split <;> (try split) <;> rfl
@[simp] theorem State.countRetired_moves (s : State) (i : StreamId) : (s.countRetired i).moves = s.moves := by unfold State.countRetired; split <;> (try split) <;> rfl

/-! ## setDir -/

@[simp] theorem State.setDir_agenda (s : State) (e : DirEntry) : (s.setDir e).agenda = s.agenda := by unfold State.setDir; split <;> (try split) <;> rfl
@[simp] theorem State.setDir_cur (s : State) (e : DirEntry) : (s.setDir e).cur = s.cur := by unfold State.setDir; split <;> (try split) <;> rfl
@[simp] theorem State.setDir_limit (s : State) (e : DirEntry) : (s.setDir e).limit = s.limit := by unfold State.setDir; split <;> (try split) <;> rfl
@[simp] theorem State.setDir_migrating (s : State) (e : DirEntry) : (s.setDir e).migrating = s.migrating := by unfold State.setDir; split <;> (try split) <;> rfl
@[simp] theorem State.setDir_statDue (s : State) (e : DirEntry) : (s.setDir e).statDue = s.statDue := by unfold State.setDir; split <;> (try split) <;> rfl
@[simp] theorem State.setDir_qcmdDue (s : State) (e : DirEntry) : (s.setDir e).qcmdDue = s.qcmdDue := by unfold State.setDir; split <;> (try split) <;> rfl
@[simp] theorem State.setDir_freeCount (s : State) (e : DirEntry) : (s.setDir e).freeCount = s.freeCount := by unfold State.setDir; split <;> (try split) <;> rfl
@[simp] theorem State.setDir_readySeq (s : State) (e : DirEntry) : (s.setDir e).readySeq = s.readySeq := by unfold State.setDir; split <;> (try split) <;> rfl
@[simp] theorem State.setDir_takeSeq (s : State) (e : DirEntry) : (s.setDir e).takeSeq = s.takeSeq := by unfold State.setDir; split <;> (try split) <;> rfl
@[simp] theorem State.setDir_clock (s : State) (e : DirEntry) : (s.setDir e).clock = s.clock := by unfold State.setDir; split <;> (try split) <;> rfl
@[simp] theorem State.setDir_mem (s : State) (e : DirEntry) : (s.setDir e).mem = s.mem := by unfold State.setDir; split <;> (try split) <;> rfl
@[simp] theorem State.setDir_poison (s : State) (e : DirEntry) : (s.setDir e).poison = s.poison := by unfold State.setDir; split <;> (try split) <;> rfl
@[simp] theorem State.setDir_fw (s : State) (e : DirEntry) : (s.setDir e).fw = s.fw := by unfold State.setDir; split <;> (try split) <;> rfl
@[simp] theorem State.setDir_fwacc (s : State) (e : DirEntry) : (s.setDir e).fwacc = s.fwacc := by unfold State.setDir; split <;> (try split) <;> rfl
@[simp] theorem State.setDir_qtbase (s : State) (e : DirEntry) : (s.setDir e).qtbase = s.qtbase := by unfold State.setDir; split <;> (try split) <;> rfl
@[simp] theorem State.setDir_qtsize (s : State) (e : DirEntry) : (s.setDir e).qtsize = s.qtsize := by unfold State.setDir; split <;> (try split) <;> rfl
@[simp] theorem State.setDir_qstat (s : State) (e : DirEntry) : (s.setDir e).qstat = s.qstat := by unfold State.setDir; split <;> (try split) <;> rfl
@[simp] theorem State.setDir_mstate (s : State) (e : DirEntry) : (s.setDir e).mstate = s.mstate := by unfold State.setDir; split <;> (try split) <;> rfl
@[simp] theorem State.setDir_asidbase (s : State) (e : DirEntry) : (s.setDir e).asidbase = s.asidbase := by unfold State.setDir; split <;> (try split) <;> rfl
@[simp] theorem State.setDir_bstate (s : State) (e : DirEntry) : (s.setDir e).bstate = s.bstate := by unfold State.setDir; split <;> (try split) <;> rfl
@[simp] theorem State.setDir_up (s : State) (e : DirEntry) : (s.setDir e).up = s.up := by unfold State.setDir; split <;> (try split) <;> rfl
@[simp] theorem State.setDir_firmware (s : State) (e : DirEntry) : (s.setDir e).firmware = s.firmware := by unfold State.setDir; split <;> (try split) <;> rfl
@[simp] theorem State.setDir_mbCode (s : State) (e : DirEntry) : (s.setDir e).mbCode = s.mbCode := by unfold State.setDir; split <;> (try split) <;> rfl
@[simp] theorem State.setDir_mbErr (s : State) (e : DirEntry) : (s.setDir e).mbErr = s.mbErr := by unfold State.setDir; split <;> (try split) <;> rfl
@[simp] theorem State.setDir_mbBusy (s : State) (e : DirEntry) : (s.setDir e).mbBusy = s.mbBusy := by unfold State.setDir; split <;> (try split) <;> rfl
@[simp] theorem State.setDir_mbarg (s : State) (e : DirEntry) : (s.setDir e).mbarg = s.mbarg := by unfold State.setDir; split <;> (try split) <;> rfl
@[simp] theorem State.setDir_sensors (s : State) (e : DirEntry) : (s.setDir e).sensors = s.sensors := by unfold State.setDir; split <;> (try split) <;> rfl
@[simp] theorem State.setDir_mhz (s : State) (e : DirEntry) : (s.setDir e).mhz = s.mhz := by unfold State.setDir; split <;> (try split) <;> rfl
@[simp] theorem State.setDir_sensorsDue (s : State) (e : DirEntry) : (s.setDir e).sensorsDue = s.sensorsDue := by unfold State.setDir; split <;> (try split) <;> rfl
@[simp] theorem State.setDir_hotFor (s : State) (e : DirEntry) : (s.setDir e).hotFor = s.hotFor := by unfold State.setDir; split <;> (try split) <;> rfl
@[simp] theorem State.setDir_coolFor (s : State) (e : DirEntry) : (s.setDir e).coolFor = s.coolFor := by unfold State.setDir; split <;> (try split) <;> rfl
@[simp] theorem State.setDir_alerts (s : State) (e : DirEntry) : (s.setDir e).alerts = s.alerts := by unfold State.setDir; split <;> (try split) <;> rfl
@[simp] theorem State.setDir_alertIx (s : State) (e : DirEntry) : (s.setDir e).alertIx = s.alertIx := by unfold State.setDir; split <;> (try split) <;> rfl
@[simp] theorem State.setDir_interrupts (s : State) (e : DirEntry) : (s.setDir e).interrupts = s.interrupts := by unfold State.setDir; split <;> (try split) <;> rfl
@[simp] theorem State.setDir_signedSeq (s : State) (e : DirEntry) : (s.setDir e).signedSeq = s.signedSeq := by unfold State.setDir; split <;> (try split) <;> rfl
@[simp] theorem State.setDir_errlog (s : State) (e : DirEntry) : (s.setDir e).errlog = s.errlog := by unfold State.setDir; split <;> (try split) <;> rfl
@[simp] theorem State.setDir_ports (s : State) (e : DirEntry) : (s.setDir e).ports = s.ports := by unfold State.setDir; split <;> (try split) <;> rfl
@[simp] theorem State.setDir_iodLinkDown (s : State) (e : DirEntry) : (s.setDir e).iodLinkDown = s.iodLinkDown := by unfold State.setDir; split <;> (try split) <;> rfl
@[simp] theorem State.setDir_supply (s : State) (e : DirEntry) : (s.setDir e).supply = s.supply := by unfold State.setDir; split <;> (try split) <;> rfl
@[simp] theorem State.setDir_energyLow (s : State) (e : DirEntry) : (s.setDir e).energyLow = s.energyLow := by unfold State.setDir; split <;> (try split) <;> rfl
@[simp] theorem State.setDir_flash (s : State) (e : DirEntry) : (s.setDir e).flash = s.flash := by unfold State.setDir; split <;> (try split) <;> rfl
@[simp] theorem State.setDir_gangSeq (s : State) (e : DirEntry) : (s.setDir e).gangSeq = s.gangSeq := by unfold State.setDir; split <;> (try split) <;> rfl
@[simp] theorem State.setDir_startSeq (s : State) (e : DirEntry) : (s.setDir e).startSeq = s.startSeq := by unfold State.setDir; split <;> (try split) <;> rfl
@[simp] theorem State.setDir_rlslots (s : State) (e : DirEntry) : (s.setDir e).rlslots = s.rlslots := by unfold State.setDir; split <;> (try split) <;> rfl
@[simp] theorem State.setDir_partitions (s : State) (e : DirEntry) : (s.setDir e).partitions = s.partitions := by unfold State.setDir; split <;> (try split) <;> rfl
@[simp] theorem State.setDir_coreMaps (s : State) (e : DirEntry) : (s.setDir e).coreMaps = s.coreMaps := by unfold State.setDir; split <;> (try split) <;> rfl
@[simp] theorem State.setDir_noMatrix (s : State) (e : DirEntry) : (s.setDir e).noMatrix = s.noMatrix := by unfold State.setDir; split <;> (try split) <;> rfl
@[simp] theorem State.setDir_asids (s : State) (e : DirEntry) : (s.setDir e).asids = s.asids := by unfold State.setDir; split <;> (try split) <;> rfl
@[simp] theorem State.setDir_queues (s : State) (e : DirEntry) : (s.setDir e).queues = s.queues := by unfold State.setDir; split <;> (try split) <;> rfl
@[simp] theorem State.setDir_turnProc (s : State) (e : DirEntry) : (s.setDir e).turnProc = s.turnProc := by unfold State.setDir; split <;> (try split) <;> rfl
@[simp] theorem State.setDir_turnStart (s : State) (e : DirEntry) : (s.setDir e).turnStart = s.turnStart := by unfold State.setDir; split <;> (try split) <;> rfl
@[simp] theorem State.setDir_turnNext (s : State) (e : DirEntry) : (s.setDir e).turnNext = s.turnNext := by unfold State.setDir; split <;> (try split) <;> rfl
@[simp] theorem State.setDir_nextOrder (s : State) (e : DirEntry) : (s.setDir e).nextOrder = s.nextOrder := by unfold State.setDir; split <;> (try split) <;> rfl
@[simp] theorem State.setDir_launches (s : State) (e : DirEntry) : (s.setDir e).launches = s.launches := by unfold State.setDir; split <;> (try split) <;> rfl
@[simp] theorem State.setDir_nextLaunch (s : State) (e : DirEntry) : (s.setDir e).nextLaunch = s.nextLaunch := by unfold State.setDir; split <;> (try split) <;> rfl
@[simp] theorem State.setDir_shards (s : State) (e : DirEntry) : (s.setDir e).shards = s.shards := by unfold State.setDir; split <;> (try split) <;> rfl
@[simp] theorem State.setDir_teams (s : State) (e : DirEntry) : (s.setDir e).teams = s.teams := by unfold State.setDir; split <;> (try split) <;> rfl
@[simp] theorem State.setDir_groups (s : State) (e : DirEntry) : (s.setDir e).groups = s.groups := by unfold State.setDir; split <;> (try split) <;> rfl
@[simp] theorem State.setDir_cores (s : State) (e : DirEntry) : (s.setDir e).cores = s.cores := by unfold State.setDir; split <;> (try split) <;> rfl
@[simp] theorem State.setDir_ctrlIret (s : State) (e : DirEntry) : (s.setDir e).ctrlIret = s.ctrlIret := by unfold State.setDir; split <;> (try split) <;> rfl
@[simp] theorem State.setDir_dscratch (s : State) (e : DirEntry) : (s.setDir e).dscratch = s.dscratch := by unfold State.setDir; split <;> (try split) <;> rfl
@[simp] theorem State.setDir_gangs (s : State) (e : DirEntry) : (s.setDir e).gangs = s.gangs := by unfold State.setDir; split <;> (try split) <;> rfl
@[simp] theorem State.setDir_tags (s : State) (e : DirEntry) : (s.setDir e).tags = s.tags := by unfold State.setDir; split <;> (try split) <;> rfl
@[simp] theorem State.setDir_ops (s : State) (e : DirEntry) : (s.setDir e).ops = s.ops := by unfold State.setDir; split <;> (try split) <;> rfl
@[simp] theorem State.setDir_barriers (s : State) (e : DirEntry) : (s.setDir e).barriers = s.barriers := by unfold State.setDir; split <;> (try split) <;> rfl
@[simp] theorem State.setDir_reports (s : State) (e : DirEntry) : (s.setDir e).reports = s.reports := by unfold State.setDir; split <;> (try split) <;> rfl
@[simp] theorem State.setDir_classes (s : State) (e : DirEntry) : (s.setDir e).classes = s.classes := by unfold State.setDir; split <;> (try split) <;> rfl
@[simp] theorem State.setDir_reclass (s : State) (e : DirEntry) : (s.setDir e).reclass = s.reclass := by unfold State.setDir; split <;> (try split) <;> rfl
@[simp] theorem State.setDir_tlb (s : State) (e : DirEntry) : (s.setDir e).tlb = s.tlb := by unfold State.setDir; split <;> (try split) <;> rfl
@[simp] theorem State.setDir_walkCache (s : State) (e : DirEntry) : (s.setDir e).walkCache = s.walkCache := by unfold State.setDir; split <;> (try split) <;> rfl
@[simp] theorem State.setDir_l1 (s : State) (e : DirEntry) : (s.setDir e).l1 = s.l1 := by unfold State.setDir; split <;> (try split) <;> rfl
@[simp] theorem State.setDir_constLines (s : State) (e : DirEntry) : (s.setDir e).constLines = s.constLines := by unfold State.setDir; split <;> (try split) <;> rfl
@[simp] theorem State.setDir_net (s : State) (e : DirEntry) : (s.setDir e).net = s.net := by unfold State.setDir; split <;> (try split) <;> rfl
@[simp] theorem State.setDir_hostLines (s : State) (e : DirEntry) : (s.setDir e).hostLines = s.hostLines := by unfold State.setDir; split <;> (try split) <;> rfl
@[simp] theorem State.setDir_hostStalls (s : State) (e : DirEntry) : (s.setDir e).hostStalls = s.hostStalls := by unfold State.setDir; split <;> (try split) <;> rfl
@[simp] theorem State.setDir_hostReply (s : State) (e : DirEntry) : (s.setDir e).hostReply = s.hostReply := by unfold State.setDir; split <;> (try split) <;> rfl
@[simp] theorem State.setDir_links (s : State) (e : DirEntry) : (s.setDir e).links = s.links := by unfold State.setDir; split <;> (try split) <;> rfl
@[simp] theorem State.setDir_collections (s : State) (e : DirEntry) : (s.setDir e).collections = s.collections := by unfold State.setDir; split <;> (try split) <;> rfl
@[simp] theorem State.setDir_nextCollection (s : State) (e : DirEntry) : (s.setDir e).nextCollection = s.nextCollection := by unfold State.setDir; split <;> (try split) <;> rfl
@[simp] theorem State.setDir_savedScratch (s : State) (e : DirEntry) : (s.setDir e).savedScratch = s.savedScratch := by unfold State.setDir; split <;> (try split) <;> rfl
@[simp] theorem State.setDir_saveOrder (s : State) (e : DirEntry) : (s.setDir e).saveOrder = s.saveOrder := by unfold State.setDir; split <;> (try split) <;> rfl
@[simp] theorem State.setDir_reservations (s : State) (e : DirEntry) : (s.setDir e).reservations = s.reservations := by unfold State.setDir; split <;> (try split) <;> rfl
@[simp] theorem State.setDir_waitingNb (s : State) (e : DirEntry) : (s.setDir e).waitingNb = s.waitingNb := by unfold State.setDir; split <;> (try split) <;> rfl
@[simp] theorem State.setDir_imageAreas (s : State) (e : DirEntry) : (s.setDir e).imageAreas = s.imageAreas := by unfold State.setDir; split <;> (try split) <;> rfl
@[simp] theorem State.setDir_drogue (s : State) (e : DirEntry) : (s.setDir e).drogue = s.drogue := by unfold State.setDir; split <;> (try split) <;> rfl
@[simp] theorem State.setDir_counts (s : State) (e : DirEntry) : (s.setDir e).counts = s.counts := by unfold State.setDir; split <;> (try split) <;> rfl
@[simp] theorem State.setDir_arrayErrors (s : State) (e : DirEntry) : (s.setDir e).arrayErrors = s.arrayErrors := by unfold State.setDir; split <;> (try split) <;> rfl
@[simp] theorem State.setDir_usedSpares (s : State) (e : DirEntry) : (s.setDir e).usedSpares = s.usedSpares := by unfold State.setDir; split <;> (try split) <;> rfl
@[simp] theorem State.setDir_lost (s : State) (e : DirEntry) : (s.setDir e).lost = s.lost := by unfold State.setDir; split <;> (try split) <;> rfl
@[simp] theorem State.setDir_deadStacks (s : State) (e : DirEntry) : (s.setDir e).deadStacks = s.deadStacks := by unfold State.setDir; split <;> (try split) <;> rfl
@[simp] theorem State.setDir_leafStops (s : State) (e : DirEntry) : (s.setDir e).leafStops = s.leafStops := by unfold State.setDir; split <;> (try split) <;> rfl
@[simp] theorem State.setDir_flushDue (s : State) (e : DirEntry) : (s.setDir e).flushDue = s.flushDue := by unfold State.setDir; split <;> (try split) <;> rfl
@[simp] theorem State.setDir_defects (s : State) (e : DirEntry) : (s.setDir e).defects = s.defects := by unfold State.setDir; split <;> (try split) <;> rfl
@[simp] theorem State.setDir_moves (s : State) (e : DirEntry) : (s.setDir e).moves = s.moves := by unfold State.setDir; split <;> (try split) <;> rfl

/-! ## cohHomeWrite -/

@[simp] theorem State.cohHomeWrite_agenda (s : State) (l : Nat) : (s.cohHomeWrite l).agenda = s.agenda := by simp only [State.cohHomeWrite, State.dropCached, State.dropL1, State.setDir_agenda]; unfold State.adoptOwner State.adoptCopy; (repeat' split) <;> rfl
@[simp] theorem State.cohHomeWrite_cur (s : State) (l : Nat) : (s.cohHomeWrite l).cur = s.cur := by simp only [State.cohHomeWrite, State.dropCached, State.dropL1, State.setDir_cur]; unfold State.adoptOwner State.adoptCopy; (repeat' split) <;> rfl
@[simp] theorem State.cohHomeWrite_limit (s : State) (l : Nat) : (s.cohHomeWrite l).limit = s.limit := by simp only [State.cohHomeWrite, State.dropCached, State.dropL1, State.setDir_limit]; unfold State.adoptOwner State.adoptCopy; (repeat' split) <;> rfl
@[simp] theorem State.cohHomeWrite_migrating (s : State) (l : Nat) : (s.cohHomeWrite l).migrating = s.migrating := by simp only [State.cohHomeWrite, State.dropCached, State.dropL1, State.setDir_migrating]; unfold State.adoptOwner State.adoptCopy; (repeat' split) <;> rfl
@[simp] theorem State.cohHomeWrite_statDue (s : State) (l : Nat) : (s.cohHomeWrite l).statDue = s.statDue := by simp only [State.cohHomeWrite, State.dropCached, State.dropL1, State.setDir_statDue]; unfold State.adoptOwner State.adoptCopy; (repeat' split) <;> rfl
@[simp] theorem State.cohHomeWrite_qcmdDue (s : State) (l : Nat) : (s.cohHomeWrite l).qcmdDue = s.qcmdDue := by simp only [State.cohHomeWrite, State.dropCached, State.dropL1, State.setDir_qcmdDue]; unfold State.adoptOwner State.adoptCopy; (repeat' split) <;> rfl
@[simp] theorem State.cohHomeWrite_freeCount (s : State) (l : Nat) : (s.cohHomeWrite l).freeCount = s.freeCount := by simp only [State.cohHomeWrite, State.dropCached, State.dropL1, State.setDir_freeCount]; unfold State.adoptOwner State.adoptCopy; (repeat' split) <;> rfl
@[simp] theorem State.cohHomeWrite_readySeq (s : State) (l : Nat) : (s.cohHomeWrite l).readySeq = s.readySeq := by simp only [State.cohHomeWrite, State.dropCached, State.dropL1, State.setDir_readySeq]; unfold State.adoptOwner State.adoptCopy; (repeat' split) <;> rfl
@[simp] theorem State.cohHomeWrite_takeSeq (s : State) (l : Nat) : (s.cohHomeWrite l).takeSeq = s.takeSeq := by simp only [State.cohHomeWrite, State.dropCached, State.dropL1, State.setDir_takeSeq]; unfold State.adoptOwner State.adoptCopy; (repeat' split) <;> rfl
@[simp] theorem State.cohHomeWrite_clock (s : State) (l : Nat) : (s.cohHomeWrite l).clock = s.clock := by simp only [State.cohHomeWrite, State.dropCached, State.dropL1, State.setDir_clock]; unfold State.adoptOwner State.adoptCopy; (repeat' split) <;> rfl
@[simp] theorem State.cohHomeWrite_mem (s : State) (l : Nat) : (s.cohHomeWrite l).mem = s.mem := by simp only [State.cohHomeWrite, State.dropCached, State.dropL1, State.setDir_mem]; unfold State.adoptOwner State.adoptCopy; (repeat' split) <;> rfl
@[simp] theorem State.cohHomeWrite_fw (s : State) (l : Nat) : (s.cohHomeWrite l).fw = s.fw := by simp only [State.cohHomeWrite, State.dropCached, State.dropL1, State.setDir_fw]; unfold State.adoptOwner State.adoptCopy; (repeat' split) <;> rfl
@[simp] theorem State.cohHomeWrite_fwacc (s : State) (l : Nat) : (s.cohHomeWrite l).fwacc = s.fwacc := by simp only [State.cohHomeWrite, State.dropCached, State.dropL1, State.setDir_fwacc]; unfold State.adoptOwner State.adoptCopy; (repeat' split) <;> rfl
@[simp] theorem State.cohHomeWrite_qtbase (s : State) (l : Nat) : (s.cohHomeWrite l).qtbase = s.qtbase := by simp only [State.cohHomeWrite, State.dropCached, State.dropL1, State.setDir_qtbase]; unfold State.adoptOwner State.adoptCopy; (repeat' split) <;> rfl
@[simp] theorem State.cohHomeWrite_qtsize (s : State) (l : Nat) : (s.cohHomeWrite l).qtsize = s.qtsize := by simp only [State.cohHomeWrite, State.dropCached, State.dropL1, State.setDir_qtsize]; unfold State.adoptOwner State.adoptCopy; (repeat' split) <;> rfl
@[simp] theorem State.cohHomeWrite_qstat (s : State) (l : Nat) : (s.cohHomeWrite l).qstat = s.qstat := by simp only [State.cohHomeWrite, State.dropCached, State.dropL1, State.setDir_qstat]; unfold State.adoptOwner State.adoptCopy; (repeat' split) <;> rfl
@[simp] theorem State.cohHomeWrite_mstate (s : State) (l : Nat) : (s.cohHomeWrite l).mstate = s.mstate := by simp only [State.cohHomeWrite, State.dropCached, State.dropL1, State.setDir_mstate]; unfold State.adoptOwner State.adoptCopy; (repeat' split) <;> rfl
@[simp] theorem State.cohHomeWrite_asidbase (s : State) (l : Nat) : (s.cohHomeWrite l).asidbase = s.asidbase := by simp only [State.cohHomeWrite, State.dropCached, State.dropL1, State.setDir_asidbase]; unfold State.adoptOwner State.adoptCopy; (repeat' split) <;> rfl
@[simp] theorem State.cohHomeWrite_bstate (s : State) (l : Nat) : (s.cohHomeWrite l).bstate = s.bstate := by simp only [State.cohHomeWrite, State.dropCached, State.dropL1, State.setDir_bstate]; unfold State.adoptOwner State.adoptCopy; (repeat' split) <;> rfl
@[simp] theorem State.cohHomeWrite_up (s : State) (l : Nat) : (s.cohHomeWrite l).up = s.up := by simp only [State.cohHomeWrite, State.dropCached, State.dropL1, State.setDir_up]; unfold State.adoptOwner State.adoptCopy; (repeat' split) <;> rfl
@[simp] theorem State.cohHomeWrite_firmware (s : State) (l : Nat) : (s.cohHomeWrite l).firmware = s.firmware := by simp only [State.cohHomeWrite, State.dropCached, State.dropL1, State.setDir_firmware]; unfold State.adoptOwner State.adoptCopy; (repeat' split) <;> rfl
@[simp] theorem State.cohHomeWrite_mbCode (s : State) (l : Nat) : (s.cohHomeWrite l).mbCode = s.mbCode := by simp only [State.cohHomeWrite, State.dropCached, State.dropL1, State.setDir_mbCode]; unfold State.adoptOwner State.adoptCopy; (repeat' split) <;> rfl
@[simp] theorem State.cohHomeWrite_mbErr (s : State) (l : Nat) : (s.cohHomeWrite l).mbErr = s.mbErr := by simp only [State.cohHomeWrite, State.dropCached, State.dropL1, State.setDir_mbErr]; unfold State.adoptOwner State.adoptCopy; (repeat' split) <;> rfl
@[simp] theorem State.cohHomeWrite_mbBusy (s : State) (l : Nat) : (s.cohHomeWrite l).mbBusy = s.mbBusy := by simp only [State.cohHomeWrite, State.dropCached, State.dropL1, State.setDir_mbBusy]; unfold State.adoptOwner State.adoptCopy; (repeat' split) <;> rfl
@[simp] theorem State.cohHomeWrite_mbarg (s : State) (l : Nat) : (s.cohHomeWrite l).mbarg = s.mbarg := by simp only [State.cohHomeWrite, State.dropCached, State.dropL1, State.setDir_mbarg]; unfold State.adoptOwner State.adoptCopy; (repeat' split) <;> rfl
@[simp] theorem State.cohHomeWrite_sensors (s : State) (l : Nat) : (s.cohHomeWrite l).sensors = s.sensors := by simp only [State.cohHomeWrite, State.dropCached, State.dropL1, State.setDir_sensors]; unfold State.adoptOwner State.adoptCopy; (repeat' split) <;> rfl
@[simp] theorem State.cohHomeWrite_mhz (s : State) (l : Nat) : (s.cohHomeWrite l).mhz = s.mhz := by simp only [State.cohHomeWrite, State.dropCached, State.dropL1, State.setDir_mhz]; unfold State.adoptOwner State.adoptCopy; (repeat' split) <;> rfl
@[simp] theorem State.cohHomeWrite_sensorsDue (s : State) (l : Nat) : (s.cohHomeWrite l).sensorsDue = s.sensorsDue := by simp only [State.cohHomeWrite, State.dropCached, State.dropL1, State.setDir_sensorsDue]; unfold State.adoptOwner State.adoptCopy; (repeat' split) <;> rfl
@[simp] theorem State.cohHomeWrite_hotFor (s : State) (l : Nat) : (s.cohHomeWrite l).hotFor = s.hotFor := by simp only [State.cohHomeWrite, State.dropCached, State.dropL1, State.setDir_hotFor]; unfold State.adoptOwner State.adoptCopy; (repeat' split) <;> rfl
@[simp] theorem State.cohHomeWrite_coolFor (s : State) (l : Nat) : (s.cohHomeWrite l).coolFor = s.coolFor := by simp only [State.cohHomeWrite, State.dropCached, State.dropL1, State.setDir_coolFor]; unfold State.adoptOwner State.adoptCopy; (repeat' split) <;> rfl
@[simp] theorem State.cohHomeWrite_alerts (s : State) (l : Nat) : (s.cohHomeWrite l).alerts = s.alerts := by simp only [State.cohHomeWrite, State.dropCached, State.dropL1, State.setDir_alerts]; unfold State.adoptOwner State.adoptCopy; (repeat' split) <;> rfl
@[simp] theorem State.cohHomeWrite_alertIx (s : State) (l : Nat) : (s.cohHomeWrite l).alertIx = s.alertIx := by simp only [State.cohHomeWrite, State.dropCached, State.dropL1, State.setDir_alertIx]; unfold State.adoptOwner State.adoptCopy; (repeat' split) <;> rfl
@[simp] theorem State.cohHomeWrite_interrupts (s : State) (l : Nat) : (s.cohHomeWrite l).interrupts = s.interrupts := by simp only [State.cohHomeWrite, State.dropCached, State.dropL1, State.setDir_interrupts]; unfold State.adoptOwner State.adoptCopy; (repeat' split) <;> rfl
@[simp] theorem State.cohHomeWrite_signedSeq (s : State) (l : Nat) : (s.cohHomeWrite l).signedSeq = s.signedSeq := by simp only [State.cohHomeWrite, State.dropCached, State.dropL1, State.setDir_signedSeq]; unfold State.adoptOwner State.adoptCopy; (repeat' split) <;> rfl
@[simp] theorem State.cohHomeWrite_errlog (s : State) (l : Nat) : (s.cohHomeWrite l).errlog = s.errlog := by simp only [State.cohHomeWrite, State.dropCached, State.dropL1, State.setDir_errlog]; unfold State.adoptOwner State.adoptCopy; (repeat' split) <;> rfl
@[simp] theorem State.cohHomeWrite_ports (s : State) (l : Nat) : (s.cohHomeWrite l).ports = s.ports := by simp only [State.cohHomeWrite, State.dropCached, State.dropL1, State.setDir_ports]; unfold State.adoptOwner State.adoptCopy; (repeat' split) <;> rfl
@[simp] theorem State.cohHomeWrite_iodLinkDown (s : State) (l : Nat) : (s.cohHomeWrite l).iodLinkDown = s.iodLinkDown := by simp only [State.cohHomeWrite, State.dropCached, State.dropL1, State.setDir_iodLinkDown]; unfold State.adoptOwner State.adoptCopy; (repeat' split) <;> rfl
@[simp] theorem State.cohHomeWrite_supply (s : State) (l : Nat) : (s.cohHomeWrite l).supply = s.supply := by simp only [State.cohHomeWrite, State.dropCached, State.dropL1, State.setDir_supply]; unfold State.adoptOwner State.adoptCopy; (repeat' split) <;> rfl
@[simp] theorem State.cohHomeWrite_energyLow (s : State) (l : Nat) : (s.cohHomeWrite l).energyLow = s.energyLow := by simp only [State.cohHomeWrite, State.dropCached, State.dropL1, State.setDir_energyLow]; unfold State.adoptOwner State.adoptCopy; (repeat' split) <;> rfl
@[simp] theorem State.cohHomeWrite_flash (s : State) (l : Nat) : (s.cohHomeWrite l).flash = s.flash := by simp only [State.cohHomeWrite, State.dropCached, State.dropL1, State.setDir_flash]; unfold State.adoptOwner State.adoptCopy; (repeat' split) <;> rfl
@[simp] theorem State.cohHomeWrite_gangSeq (s : State) (l : Nat) : (s.cohHomeWrite l).gangSeq = s.gangSeq := by simp only [State.cohHomeWrite, State.dropCached, State.dropL1, State.setDir_gangSeq]; unfold State.adoptOwner State.adoptCopy; (repeat' split) <;> rfl
@[simp] theorem State.cohHomeWrite_startSeq (s : State) (l : Nat) : (s.cohHomeWrite l).startSeq = s.startSeq := by simp only [State.cohHomeWrite, State.dropCached, State.dropL1, State.setDir_startSeq]; unfold State.adoptOwner State.adoptCopy; (repeat' split) <;> rfl
@[simp] theorem State.cohHomeWrite_rlslots (s : State) (l : Nat) : (s.cohHomeWrite l).rlslots = s.rlslots := by simp only [State.cohHomeWrite, State.dropCached, State.dropL1, State.setDir_rlslots]; unfold State.adoptOwner State.adoptCopy; (repeat' split) <;> rfl
@[simp] theorem State.cohHomeWrite_partitions (s : State) (l : Nat) : (s.cohHomeWrite l).partitions = s.partitions := by simp only [State.cohHomeWrite, State.dropCached, State.dropL1, State.setDir_partitions]; unfold State.adoptOwner State.adoptCopy; (repeat' split) <;> rfl
@[simp] theorem State.cohHomeWrite_coreMaps (s : State) (l : Nat) : (s.cohHomeWrite l).coreMaps = s.coreMaps := by simp only [State.cohHomeWrite, State.dropCached, State.dropL1, State.setDir_coreMaps]; unfold State.adoptOwner State.adoptCopy; (repeat' split) <;> rfl
@[simp] theorem State.cohHomeWrite_noMatrix (s : State) (l : Nat) : (s.cohHomeWrite l).noMatrix = s.noMatrix := by simp only [State.cohHomeWrite, State.dropCached, State.dropL1, State.setDir_noMatrix]; unfold State.adoptOwner State.adoptCopy; (repeat' split) <;> rfl
@[simp] theorem State.cohHomeWrite_asids (s : State) (l : Nat) : (s.cohHomeWrite l).asids = s.asids := by simp only [State.cohHomeWrite, State.dropCached, State.dropL1, State.setDir_asids]; unfold State.adoptOwner State.adoptCopy; (repeat' split) <;> rfl
@[simp] theorem State.cohHomeWrite_queues (s : State) (l : Nat) : (s.cohHomeWrite l).queues = s.queues := by simp only [State.cohHomeWrite, State.dropCached, State.dropL1, State.setDir_queues]; unfold State.adoptOwner State.adoptCopy; (repeat' split) <;> rfl
@[simp] theorem State.cohHomeWrite_turnProc (s : State) (l : Nat) : (s.cohHomeWrite l).turnProc = s.turnProc := by simp only [State.cohHomeWrite, State.dropCached, State.dropL1, State.setDir_turnProc]; unfold State.adoptOwner State.adoptCopy; (repeat' split) <;> rfl
@[simp] theorem State.cohHomeWrite_turnStart (s : State) (l : Nat) : (s.cohHomeWrite l).turnStart = s.turnStart := by simp only [State.cohHomeWrite, State.dropCached, State.dropL1, State.setDir_turnStart]; unfold State.adoptOwner State.adoptCopy; (repeat' split) <;> rfl
@[simp] theorem State.cohHomeWrite_turnNext (s : State) (l : Nat) : (s.cohHomeWrite l).turnNext = s.turnNext := by simp only [State.cohHomeWrite, State.dropCached, State.dropL1, State.setDir_turnNext]; unfold State.adoptOwner State.adoptCopy; (repeat' split) <;> rfl
@[simp] theorem State.cohHomeWrite_nextOrder (s : State) (l : Nat) : (s.cohHomeWrite l).nextOrder = s.nextOrder := by simp only [State.cohHomeWrite, State.dropCached, State.dropL1, State.setDir_nextOrder]; unfold State.adoptOwner State.adoptCopy; (repeat' split) <;> rfl
@[simp] theorem State.cohHomeWrite_launches (s : State) (l : Nat) : (s.cohHomeWrite l).launches = s.launches := by simp only [State.cohHomeWrite, State.dropCached, State.dropL1, State.setDir_launches]; unfold State.adoptOwner State.adoptCopy; (repeat' split) <;> rfl
@[simp] theorem State.cohHomeWrite_nextLaunch (s : State) (l : Nat) : (s.cohHomeWrite l).nextLaunch = s.nextLaunch := by simp only [State.cohHomeWrite, State.dropCached, State.dropL1, State.setDir_nextLaunch]; unfold State.adoptOwner State.adoptCopy; (repeat' split) <;> rfl
@[simp] theorem State.cohHomeWrite_shards (s : State) (l : Nat) : (s.cohHomeWrite l).shards = s.shards := by simp only [State.cohHomeWrite, State.dropCached, State.dropL1, State.setDir_shards]; unfold State.adoptOwner State.adoptCopy; (repeat' split) <;> rfl
@[simp] theorem State.cohHomeWrite_teams (s : State) (l : Nat) : (s.cohHomeWrite l).teams = s.teams := by simp only [State.cohHomeWrite, State.dropCached, State.dropL1, State.setDir_teams]; unfold State.adoptOwner State.adoptCopy; (repeat' split) <;> rfl
@[simp] theorem State.cohHomeWrite_groups (s : State) (l : Nat) : (s.cohHomeWrite l).groups = s.groups := by simp only [State.cohHomeWrite, State.dropCached, State.dropL1, State.setDir_groups]; unfold State.adoptOwner State.adoptCopy; (repeat' split) <;> rfl
@[simp] theorem State.cohHomeWrite_cores (s : State) (l : Nat) : (s.cohHomeWrite l).cores = s.cores := by simp only [State.cohHomeWrite, State.dropCached, State.dropL1, State.setDir_cores]; unfold State.adoptOwner State.adoptCopy; (repeat' split) <;> rfl
@[simp] theorem State.cohHomeWrite_ctrlIret (s : State) (l : Nat) : (s.cohHomeWrite l).ctrlIret = s.ctrlIret := by simp only [State.cohHomeWrite, State.dropCached, State.dropL1, State.setDir_ctrlIret]; unfold State.adoptOwner State.adoptCopy; (repeat' split) <;> rfl
@[simp] theorem State.cohHomeWrite_dscratch (s : State) (l : Nat) : (s.cohHomeWrite l).dscratch = s.dscratch := by simp only [State.cohHomeWrite, State.dropCached, State.dropL1, State.setDir_dscratch]; unfold State.adoptOwner State.adoptCopy; (repeat' split) <;> rfl
@[simp] theorem State.cohHomeWrite_gangs (s : State) (l : Nat) : (s.cohHomeWrite l).gangs = s.gangs := by simp only [State.cohHomeWrite, State.dropCached, State.dropL1, State.setDir_gangs]; unfold State.adoptOwner State.adoptCopy; (repeat' split) <;> rfl
@[simp] theorem State.cohHomeWrite_tags (s : State) (l : Nat) : (s.cohHomeWrite l).tags = s.tags := by simp only [State.cohHomeWrite, State.dropCached, State.dropL1, State.setDir_tags]; unfold State.adoptOwner State.adoptCopy; (repeat' split) <;> rfl
@[simp] theorem State.cohHomeWrite_ops (s : State) (l : Nat) : (s.cohHomeWrite l).ops = s.ops := by simp only [State.cohHomeWrite, State.dropCached, State.dropL1, State.setDir_ops]; unfold State.adoptOwner State.adoptCopy; (repeat' split) <;> rfl
@[simp] theorem State.cohHomeWrite_barriers (s : State) (l : Nat) : (s.cohHomeWrite l).barriers = s.barriers := by simp only [State.cohHomeWrite, State.dropCached, State.dropL1, State.setDir_barriers]; unfold State.adoptOwner State.adoptCopy; (repeat' split) <;> rfl
@[simp] theorem State.cohHomeWrite_reports (s : State) (l : Nat) : (s.cohHomeWrite l).reports = s.reports := by simp only [State.cohHomeWrite, State.dropCached, State.dropL1, State.setDir_reports]; unfold State.adoptOwner State.adoptCopy; (repeat' split) <;> rfl
@[simp] theorem State.cohHomeWrite_classes (s : State) (l : Nat) : (s.cohHomeWrite l).classes = s.classes := by simp only [State.cohHomeWrite, State.dropCached, State.dropL1, State.setDir_classes]; unfold State.adoptOwner State.adoptCopy; (repeat' split) <;> rfl
@[simp] theorem State.cohHomeWrite_reclass (s : State) (l : Nat) : (s.cohHomeWrite l).reclass = s.reclass := by simp only [State.cohHomeWrite, State.dropCached, State.dropL1, State.setDir_reclass]; unfold State.adoptOwner State.adoptCopy; (repeat' split) <;> rfl
@[simp] theorem State.cohHomeWrite_tlb (s : State) (l : Nat) : (s.cohHomeWrite l).tlb = s.tlb := by simp only [State.cohHomeWrite, State.dropCached, State.dropL1, State.setDir_tlb]; unfold State.adoptOwner State.adoptCopy; (repeat' split) <;> rfl
@[simp] theorem State.cohHomeWrite_walkCache (s : State) (l : Nat) : (s.cohHomeWrite l).walkCache = s.walkCache := by simp only [State.cohHomeWrite, State.dropCached, State.dropL1, State.setDir_walkCache]; unfold State.adoptOwner State.adoptCopy; (repeat' split) <;> rfl
@[simp] theorem State.cohHomeWrite_constLines (s : State) (l : Nat) : (s.cohHomeWrite l).constLines = s.constLines := by simp only [State.cohHomeWrite, State.dropCached, State.dropL1, State.setDir_constLines]; unfold State.adoptOwner State.adoptCopy; (repeat' split) <;> rfl
@[simp] theorem State.cohHomeWrite_net (s : State) (l : Nat) : (s.cohHomeWrite l).net = s.net := by simp only [State.cohHomeWrite, State.dropCached, State.dropL1, State.setDir_net]; unfold State.adoptOwner State.adoptCopy; (repeat' split) <;> rfl
@[simp] theorem State.cohHomeWrite_hostLines (s : State) (l : Nat) : (s.cohHomeWrite l).hostLines = s.hostLines := by simp only [State.cohHomeWrite, State.dropCached, State.dropL1, State.setDir_hostLines]; unfold State.adoptOwner State.adoptCopy; (repeat' split) <;> rfl
@[simp] theorem State.cohHomeWrite_hostStalls (s : State) (l : Nat) : (s.cohHomeWrite l).hostStalls = s.hostStalls := by simp only [State.cohHomeWrite, State.dropCached, State.dropL1, State.setDir_hostStalls]; unfold State.adoptOwner State.adoptCopy; (repeat' split) <;> rfl
@[simp] theorem State.cohHomeWrite_hostReply (s : State) (l : Nat) : (s.cohHomeWrite l).hostReply = s.hostReply := by simp only [State.cohHomeWrite, State.dropCached, State.dropL1, State.setDir_hostReply]; unfold State.adoptOwner State.adoptCopy; (repeat' split) <;> rfl
@[simp] theorem State.cohHomeWrite_links (s : State) (l : Nat) : (s.cohHomeWrite l).links = s.links := by simp only [State.cohHomeWrite, State.dropCached, State.dropL1, State.setDir_links]; unfold State.adoptOwner State.adoptCopy; (repeat' split) <;> rfl
@[simp] theorem State.cohHomeWrite_collections (s : State) (l : Nat) : (s.cohHomeWrite l).collections = s.collections := by simp only [State.cohHomeWrite, State.dropCached, State.dropL1, State.setDir_collections]; unfold State.adoptOwner State.adoptCopy; (repeat' split) <;> rfl
@[simp] theorem State.cohHomeWrite_nextCollection (s : State) (l : Nat) : (s.cohHomeWrite l).nextCollection = s.nextCollection := by simp only [State.cohHomeWrite, State.dropCached, State.dropL1, State.setDir_nextCollection]; unfold State.adoptOwner State.adoptCopy; (repeat' split) <;> rfl
@[simp] theorem State.cohHomeWrite_savedScratch (s : State) (l : Nat) : (s.cohHomeWrite l).savedScratch = s.savedScratch := by simp only [State.cohHomeWrite, State.dropCached, State.dropL1, State.setDir_savedScratch]; unfold State.adoptOwner State.adoptCopy; (repeat' split) <;> rfl
@[simp] theorem State.cohHomeWrite_saveOrder (s : State) (l : Nat) : (s.cohHomeWrite l).saveOrder = s.saveOrder := by simp only [State.cohHomeWrite, State.dropCached, State.dropL1, State.setDir_saveOrder]; unfold State.adoptOwner State.adoptCopy; (repeat' split) <;> rfl
@[simp] theorem State.cohHomeWrite_reservations (s : State) (l : Nat) : (s.cohHomeWrite l).reservations = s.reservations := by simp only [State.cohHomeWrite, State.dropCached, State.dropL1, State.setDir_reservations]; unfold State.adoptOwner State.adoptCopy; (repeat' split) <;> rfl
@[simp] theorem State.cohHomeWrite_waitingNb (s : State) (l : Nat) : (s.cohHomeWrite l).waitingNb = s.waitingNb := by simp only [State.cohHomeWrite, State.dropCached, State.dropL1, State.setDir_waitingNb]; unfold State.adoptOwner State.adoptCopy; (repeat' split) <;> rfl
@[simp] theorem State.cohHomeWrite_imageAreas (s : State) (l : Nat) : (s.cohHomeWrite l).imageAreas = s.imageAreas := by simp only [State.cohHomeWrite, State.dropCached, State.dropL1, State.setDir_imageAreas]; unfold State.adoptOwner State.adoptCopy; (repeat' split) <;> rfl
@[simp] theorem State.cohHomeWrite_drogue (s : State) (l : Nat) : (s.cohHomeWrite l).drogue = s.drogue := by simp only [State.cohHomeWrite, State.dropCached, State.dropL1, State.setDir_drogue]; unfold State.adoptOwner State.adoptCopy; (repeat' split) <;> rfl
@[simp] theorem State.cohHomeWrite_counts (s : State) (l : Nat) : (s.cohHomeWrite l).counts = s.counts := by simp only [State.cohHomeWrite, State.dropCached, State.dropL1, State.setDir_counts]; unfold State.adoptOwner State.adoptCopy; (repeat' split) <;> rfl
@[simp] theorem State.cohHomeWrite_arrayErrors (s : State) (l : Nat) : (s.cohHomeWrite l).arrayErrors = s.arrayErrors := by simp only [State.cohHomeWrite, State.dropCached, State.dropL1, State.setDir_arrayErrors]; unfold State.adoptOwner State.adoptCopy; (repeat' split) <;> rfl
@[simp] theorem State.cohHomeWrite_usedSpares (s : State) (l : Nat) : (s.cohHomeWrite l).usedSpares = s.usedSpares := by simp only [State.cohHomeWrite, State.dropCached, State.dropL1, State.setDir_usedSpares]; unfold State.adoptOwner State.adoptCopy; (repeat' split) <;> rfl
@[simp] theorem State.cohHomeWrite_lost (s : State) (l : Nat) : (s.cohHomeWrite l).lost = s.lost := by simp only [State.cohHomeWrite, State.dropCached, State.dropL1, State.setDir_lost]; unfold State.adoptOwner State.adoptCopy; (repeat' split) <;> rfl
@[simp] theorem State.cohHomeWrite_deadStacks (s : State) (l : Nat) : (s.cohHomeWrite l).deadStacks = s.deadStacks := by simp only [State.cohHomeWrite, State.dropCached, State.dropL1, State.setDir_deadStacks]; unfold State.adoptOwner State.adoptCopy; (repeat' split) <;> rfl
@[simp] theorem State.cohHomeWrite_leafStops (s : State) (l : Nat) : (s.cohHomeWrite l).leafStops = s.leafStops := by simp only [State.cohHomeWrite, State.dropCached, State.dropL1, State.setDir_leafStops]; unfold State.adoptOwner State.adoptCopy; (repeat' split) <;> rfl
@[simp] theorem State.cohHomeWrite_flushDue (s : State) (l : Nat) : (s.cohHomeWrite l).flushDue = s.flushDue := by simp only [State.cohHomeWrite, State.dropCached, State.dropL1, State.setDir_flushDue]; unfold State.adoptOwner State.adoptCopy; (repeat' split) <;> rfl
@[simp] theorem State.cohHomeWrite_defects (s : State) (l : Nat) : (s.cohHomeWrite l).defects = s.defects := by simp only [State.cohHomeWrite, State.dropCached, State.dropL1, State.setDir_defects]; unfold State.adoptOwner State.adoptCopy; (repeat' split) <;> rfl
@[simp] theorem State.cohHomeWrite_moves (s : State) (l : Nat) : (s.cohHomeWrite l).moves = s.moves := by simp only [State.cohHomeWrite, State.dropCached, State.dropL1, State.setDir_moves]; unfold State.adoptOwner State.adoptCopy; (repeat' split) <;> rfl

/-! ## locWrite -/

@[simp] theorem State.locWrite_agenda (s : State) (l : Loc) (b : List Byte) (q : Bool) : (s.locWrite l b q).agenda = s.agenda := by unfold State.locWrite; split <;> (try split) <;> rfl
@[simp] theorem State.locWrite_cur (s : State) (l : Loc) (b : List Byte) (q : Bool) : (s.locWrite l b q).cur = s.cur := by unfold State.locWrite; split <;> (try split) <;> rfl
@[simp] theorem State.locWrite_limit (s : State) (l : Loc) (b : List Byte) (q : Bool) : (s.locWrite l b q).limit = s.limit := by unfold State.locWrite; split <;> (try split) <;> rfl
@[simp] theorem State.locWrite_migrating (s : State) (l : Loc) (b : List Byte) (q : Bool) : (s.locWrite l b q).migrating = s.migrating := by unfold State.locWrite; split <;> (try split) <;> rfl
@[simp] theorem State.locWrite_statDue (s : State) (l : Loc) (b : List Byte) (q : Bool) : (s.locWrite l b q).statDue = s.statDue := by unfold State.locWrite; split <;> (try split) <;> rfl
@[simp] theorem State.locWrite_qcmdDue (s : State) (l : Loc) (b : List Byte) (q : Bool) : (s.locWrite l b q).qcmdDue = s.qcmdDue := by unfold State.locWrite; split <;> (try split) <;> rfl
@[simp] theorem State.locWrite_freeCount (s : State) (l : Loc) (b : List Byte) (q : Bool) : (s.locWrite l b q).freeCount = s.freeCount := by unfold State.locWrite; split <;> (try split) <;> rfl
@[simp] theorem State.locWrite_readySeq (s : State) (l : Loc) (b : List Byte) (q : Bool) : (s.locWrite l b q).readySeq = s.readySeq := by unfold State.locWrite; split <;> (try split) <;> rfl
@[simp] theorem State.locWrite_takeSeq (s : State) (l : Loc) (b : List Byte) (q : Bool) : (s.locWrite l b q).takeSeq = s.takeSeq := by unfold State.locWrite; split <;> (try split) <;> rfl
@[simp] theorem State.locWrite_clock (s : State) (l : Loc) (b : List Byte) (q : Bool) : (s.locWrite l b q).clock = s.clock := by unfold State.locWrite; split <;> (try split) <;> rfl
@[simp] theorem State.locWrite_fw (s : State) (l : Loc) (b : List Byte) (q : Bool) : (s.locWrite l b q).fw = s.fw := by unfold State.locWrite; split <;> (try split) <;> rfl
@[simp] theorem State.locWrite_fwacc (s : State) (l : Loc) (b : List Byte) (q : Bool) : (s.locWrite l b q).fwacc = s.fwacc := by unfold State.locWrite; split <;> (try split) <;> rfl
@[simp] theorem State.locWrite_qtbase (s : State) (l : Loc) (b : List Byte) (q : Bool) : (s.locWrite l b q).qtbase = s.qtbase := by unfold State.locWrite; split <;> (try split) <;> rfl
@[simp] theorem State.locWrite_qtsize (s : State) (l : Loc) (b : List Byte) (q : Bool) : (s.locWrite l b q).qtsize = s.qtsize := by unfold State.locWrite; split <;> (try split) <;> rfl
@[simp] theorem State.locWrite_qstat (s : State) (l : Loc) (b : List Byte) (q : Bool) : (s.locWrite l b q).qstat = s.qstat := by unfold State.locWrite; split <;> (try split) <;> rfl
@[simp] theorem State.locWrite_mstate (s : State) (l : Loc) (b : List Byte) (q : Bool) : (s.locWrite l b q).mstate = s.mstate := by unfold State.locWrite; split <;> (try split) <;> rfl
@[simp] theorem State.locWrite_asidbase (s : State) (l : Loc) (b : List Byte) (q : Bool) : (s.locWrite l b q).asidbase = s.asidbase := by unfold State.locWrite; split <;> (try split) <;> rfl
@[simp] theorem State.locWrite_bstate (s : State) (l : Loc) (b : List Byte) (q : Bool) : (s.locWrite l b q).bstate = s.bstate := by unfold State.locWrite; split <;> (try split) <;> rfl
@[simp] theorem State.locWrite_up (s : State) (l : Loc) (b : List Byte) (q : Bool) : (s.locWrite l b q).up = s.up := by unfold State.locWrite; split <;> (try split) <;> rfl
@[simp] theorem State.locWrite_firmware (s : State) (l : Loc) (b : List Byte) (q : Bool) : (s.locWrite l b q).firmware = s.firmware := by unfold State.locWrite; split <;> (try split) <;> rfl
@[simp] theorem State.locWrite_mbCode (s : State) (l : Loc) (b : List Byte) (q : Bool) : (s.locWrite l b q).mbCode = s.mbCode := by unfold State.locWrite; split <;> (try split) <;> rfl
@[simp] theorem State.locWrite_mbErr (s : State) (l : Loc) (b : List Byte) (q : Bool) : (s.locWrite l b q).mbErr = s.mbErr := by unfold State.locWrite; split <;> (try split) <;> rfl
@[simp] theorem State.locWrite_mbBusy (s : State) (l : Loc) (b : List Byte) (q : Bool) : (s.locWrite l b q).mbBusy = s.mbBusy := by unfold State.locWrite; split <;> (try split) <;> rfl
@[simp] theorem State.locWrite_mbarg (s : State) (l : Loc) (b : List Byte) (q : Bool) : (s.locWrite l b q).mbarg = s.mbarg := by unfold State.locWrite; split <;> (try split) <;> rfl
@[simp] theorem State.locWrite_sensors (s : State) (l : Loc) (b : List Byte) (q : Bool) : (s.locWrite l b q).sensors = s.sensors := by unfold State.locWrite; split <;> (try split) <;> rfl
@[simp] theorem State.locWrite_mhz (s : State) (l : Loc) (b : List Byte) (q : Bool) : (s.locWrite l b q).mhz = s.mhz := by unfold State.locWrite; split <;> (try split) <;> rfl
@[simp] theorem State.locWrite_sensorsDue (s : State) (l : Loc) (b : List Byte) (q : Bool) : (s.locWrite l b q).sensorsDue = s.sensorsDue := by unfold State.locWrite; split <;> (try split) <;> rfl
@[simp] theorem State.locWrite_hotFor (s : State) (l : Loc) (b : List Byte) (q : Bool) : (s.locWrite l b q).hotFor = s.hotFor := by unfold State.locWrite; split <;> (try split) <;> rfl
@[simp] theorem State.locWrite_coolFor (s : State) (l : Loc) (b : List Byte) (q : Bool) : (s.locWrite l b q).coolFor = s.coolFor := by unfold State.locWrite; split <;> (try split) <;> rfl
@[simp] theorem State.locWrite_alerts (s : State) (l : Loc) (b : List Byte) (q : Bool) : (s.locWrite l b q).alerts = s.alerts := by unfold State.locWrite; split <;> (try split) <;> rfl
@[simp] theorem State.locWrite_alertIx (s : State) (l : Loc) (b : List Byte) (q : Bool) : (s.locWrite l b q).alertIx = s.alertIx := by unfold State.locWrite; split <;> (try split) <;> rfl
@[simp] theorem State.locWrite_interrupts (s : State) (l : Loc) (b : List Byte) (q : Bool) : (s.locWrite l b q).interrupts = s.interrupts := by unfold State.locWrite; split <;> (try split) <;> rfl
@[simp] theorem State.locWrite_signedSeq (s : State) (l : Loc) (b : List Byte) (q : Bool) : (s.locWrite l b q).signedSeq = s.signedSeq := by unfold State.locWrite; split <;> (try split) <;> rfl
@[simp] theorem State.locWrite_errlog (s : State) (l : Loc) (b : List Byte) (q : Bool) : (s.locWrite l b q).errlog = s.errlog := by unfold State.locWrite; split <;> (try split) <;> rfl
@[simp] theorem State.locWrite_ports (s : State) (l : Loc) (b : List Byte) (q : Bool) : (s.locWrite l b q).ports = s.ports := by unfold State.locWrite; split <;> (try split) <;> rfl
@[simp] theorem State.locWrite_iodLinkDown (s : State) (l : Loc) (b : List Byte) (q : Bool) : (s.locWrite l b q).iodLinkDown = s.iodLinkDown := by unfold State.locWrite; split <;> (try split) <;> rfl
@[simp] theorem State.locWrite_supply (s : State) (l : Loc) (b : List Byte) (q : Bool) : (s.locWrite l b q).supply = s.supply := by unfold State.locWrite; split <;> (try split) <;> rfl
@[simp] theorem State.locWrite_energyLow (s : State) (l : Loc) (b : List Byte) (q : Bool) : (s.locWrite l b q).energyLow = s.energyLow := by unfold State.locWrite; split <;> (try split) <;> rfl
@[simp] theorem State.locWrite_flash (s : State) (l : Loc) (b : List Byte) (q : Bool) : (s.locWrite l b q).flash = s.flash := by unfold State.locWrite; split <;> (try split) <;> rfl
@[simp] theorem State.locWrite_gangSeq (s : State) (l : Loc) (b : List Byte) (q : Bool) : (s.locWrite l b q).gangSeq = s.gangSeq := by unfold State.locWrite; split <;> (try split) <;> rfl
@[simp] theorem State.locWrite_startSeq (s : State) (l : Loc) (b : List Byte) (q : Bool) : (s.locWrite l b q).startSeq = s.startSeq := by unfold State.locWrite; split <;> (try split) <;> rfl
@[simp] theorem State.locWrite_rlslots (s : State) (l : Loc) (b : List Byte) (q : Bool) : (s.locWrite l b q).rlslots = s.rlslots := by unfold State.locWrite; split <;> (try split) <;> rfl
@[simp] theorem State.locWrite_partitions (s : State) (l : Loc) (b : List Byte) (q : Bool) : (s.locWrite l b q).partitions = s.partitions := by unfold State.locWrite; split <;> (try split) <;> rfl
@[simp] theorem State.locWrite_coreMaps (s : State) (l : Loc) (b : List Byte) (q : Bool) : (s.locWrite l b q).coreMaps = s.coreMaps := by unfold State.locWrite; split <;> (try split) <;> rfl
@[simp] theorem State.locWrite_noMatrix (s : State) (l : Loc) (b : List Byte) (q : Bool) : (s.locWrite l b q).noMatrix = s.noMatrix := by unfold State.locWrite; split <;> (try split) <;> rfl
@[simp] theorem State.locWrite_asids (s : State) (l : Loc) (b : List Byte) (q : Bool) : (s.locWrite l b q).asids = s.asids := by unfold State.locWrite; split <;> (try split) <;> rfl
@[simp] theorem State.locWrite_turnProc (s : State) (l : Loc) (b : List Byte) (q : Bool) : (s.locWrite l b q).turnProc = s.turnProc := by unfold State.locWrite; split <;> (try split) <;> rfl
@[simp] theorem State.locWrite_turnStart (s : State) (l : Loc) (b : List Byte) (q : Bool) : (s.locWrite l b q).turnStart = s.turnStart := by unfold State.locWrite; split <;> (try split) <;> rfl
@[simp] theorem State.locWrite_turnNext (s : State) (l : Loc) (b : List Byte) (q : Bool) : (s.locWrite l b q).turnNext = s.turnNext := by unfold State.locWrite; split <;> (try split) <;> rfl
@[simp] theorem State.locWrite_nextOrder (s : State) (l : Loc) (b : List Byte) (q : Bool) : (s.locWrite l b q).nextOrder = s.nextOrder := by unfold State.locWrite; split <;> (try split) <;> rfl
@[simp] theorem State.locWrite_launches (s : State) (l : Loc) (b : List Byte) (q : Bool) : (s.locWrite l b q).launches = s.launches := by unfold State.locWrite; split <;> (try split) <;> rfl
@[simp] theorem State.locWrite_nextLaunch (s : State) (l : Loc) (b : List Byte) (q : Bool) : (s.locWrite l b q).nextLaunch = s.nextLaunch := by unfold State.locWrite; split <;> (try split) <;> rfl
@[simp] theorem State.locWrite_shards (s : State) (l : Loc) (b : List Byte) (q : Bool) : (s.locWrite l b q).shards = s.shards := by unfold State.locWrite; split <;> (try split) <;> rfl
@[simp] theorem State.locWrite_teams (s : State) (l : Loc) (b : List Byte) (q : Bool) : (s.locWrite l b q).teams = s.teams := by unfold State.locWrite; split <;> (try split) <;> rfl
@[simp] theorem State.locWrite_groups (s : State) (l : Loc) (b : List Byte) (q : Bool) : (s.locWrite l b q).groups = s.groups := by unfold State.locWrite; split <;> (try split) <;> rfl
@[simp] theorem State.locWrite_ctrlIret (s : State) (l : Loc) (b : List Byte) (q : Bool) : (s.locWrite l b q).ctrlIret = s.ctrlIret := by unfold State.locWrite; split <;> (try split) <;> rfl
@[simp] theorem State.locWrite_gangs (s : State) (l : Loc) (b : List Byte) (q : Bool) : (s.locWrite l b q).gangs = s.gangs := by unfold State.locWrite; split <;> (try split) <;> rfl
@[simp] theorem State.locWrite_tags (s : State) (l : Loc) (b : List Byte) (q : Bool) : (s.locWrite l b q).tags = s.tags := by unfold State.locWrite; split <;> (try split) <;> rfl
@[simp] theorem State.locWrite_ops (s : State) (l : Loc) (b : List Byte) (q : Bool) : (s.locWrite l b q).ops = s.ops := by unfold State.locWrite; split <;> (try split) <;> rfl
@[simp] theorem State.locWrite_barriers (s : State) (l : Loc) (b : List Byte) (q : Bool) : (s.locWrite l b q).barriers = s.barriers := by unfold State.locWrite; split <;> (try split) <;> rfl
@[simp] theorem State.locWrite_reports (s : State) (l : Loc) (b : List Byte) (q : Bool) : (s.locWrite l b q).reports = s.reports := by unfold State.locWrite; split <;> (try split) <;> rfl
@[simp] theorem State.locWrite_classes (s : State) (l : Loc) (b : List Byte) (q : Bool) : (s.locWrite l b q).classes = s.classes := by unfold State.locWrite; split <;> (try split) <;> rfl
@[simp] theorem State.locWrite_reclass (s : State) (l : Loc) (b : List Byte) (q : Bool) : (s.locWrite l b q).reclass = s.reclass := by unfold State.locWrite; split <;> (try split) <;> rfl
@[simp] theorem State.locWrite_tlb (s : State) (l : Loc) (b : List Byte) (q : Bool) : (s.locWrite l b q).tlb = s.tlb := by unfold State.locWrite; split <;> (try split) <;> rfl
@[simp] theorem State.locWrite_walkCache (s : State) (l : Loc) (b : List Byte) (q : Bool) : (s.locWrite l b q).walkCache = s.walkCache := by unfold State.locWrite; split <;> (try split) <;> rfl
@[simp] theorem State.locWrite_dir (s : State) (l : Loc) (b : List Byte) (q : Bool) : (s.locWrite l b q).dir = s.dir := by unfold State.locWrite; split <;> (try split) <;> rfl
@[simp] theorem State.locWrite_l1 (s : State) (l : Loc) (b : List Byte) (q : Bool) : (s.locWrite l b q).l1 = s.l1 := by unfold State.locWrite; split <;> (try split) <;> rfl
@[simp] theorem State.locWrite_constLines (s : State) (l : Loc) (b : List Byte) (q : Bool) : (s.locWrite l b q).constLines = s.constLines := by unfold State.locWrite; split <;> (try split) <;> rfl
@[simp] theorem State.locWrite_net (s : State) (l : Loc) (b : List Byte) (q : Bool) : (s.locWrite l b q).net = s.net := by unfold State.locWrite; split <;> (try split) <;> rfl
@[simp] theorem State.locWrite_hostLines (s : State) (l : Loc) (b : List Byte) (q : Bool) : (s.locWrite l b q).hostLines = s.hostLines := by unfold State.locWrite; split <;> (try split) <;> rfl
@[simp] theorem State.locWrite_hostStalls (s : State) (l : Loc) (b : List Byte) (q : Bool) : (s.locWrite l b q).hostStalls = s.hostStalls := by unfold State.locWrite; split <;> (try split) <;> rfl
@[simp] theorem State.locWrite_hostReply (s : State) (l : Loc) (b : List Byte) (q : Bool) : (s.locWrite l b q).hostReply = s.hostReply := by unfold State.locWrite; split <;> (try split) <;> rfl
@[simp] theorem State.locWrite_links (s : State) (l : Loc) (b : List Byte) (q : Bool) : (s.locWrite l b q).links = s.links := by unfold State.locWrite; split <;> (try split) <;> rfl
@[simp] theorem State.locWrite_collections (s : State) (l : Loc) (b : List Byte) (q : Bool) : (s.locWrite l b q).collections = s.collections := by unfold State.locWrite; split <;> (try split) <;> rfl
@[simp] theorem State.locWrite_nextCollection (s : State) (l : Loc) (b : List Byte) (q : Bool) : (s.locWrite l b q).nextCollection = s.nextCollection := by unfold State.locWrite; split <;> (try split) <;> rfl
@[simp] theorem State.locWrite_savedScratch (s : State) (l : Loc) (b : List Byte) (q : Bool) : (s.locWrite l b q).savedScratch = s.savedScratch := by unfold State.locWrite; split <;> (try split) <;> rfl
@[simp] theorem State.locWrite_saveOrder (s : State) (l : Loc) (b : List Byte) (q : Bool) : (s.locWrite l b q).saveOrder = s.saveOrder := by unfold State.locWrite; split <;> (try split) <;> rfl
@[simp] theorem State.locWrite_reservations (s : State) (l : Loc) (b : List Byte) (q : Bool) : (s.locWrite l b q).reservations = s.reservations := by unfold State.locWrite; split <;> (try split) <;> rfl
@[simp] theorem State.locWrite_waitingNb (s : State) (l : Loc) (b : List Byte) (q : Bool) : (s.locWrite l b q).waitingNb = s.waitingNb := by unfold State.locWrite; split <;> (try split) <;> rfl
@[simp] theorem State.locWrite_imageAreas (s : State) (l : Loc) (b : List Byte) (q : Bool) : (s.locWrite l b q).imageAreas = s.imageAreas := by unfold State.locWrite; split <;> (try split) <;> rfl
@[simp] theorem State.locWrite_drogue (s : State) (l : Loc) (b : List Byte) (q : Bool) : (s.locWrite l b q).drogue = s.drogue := by unfold State.locWrite; split <;> (try split) <;> rfl
@[simp] theorem State.locWrite_counts (s : State) (l : Loc) (b : List Byte) (q : Bool) : (s.locWrite l b q).counts = s.counts := by unfold State.locWrite; split <;> (try split) <;> rfl
@[simp] theorem State.locWrite_arrayErrors (s : State) (l : Loc) (b : List Byte) (q : Bool) : (s.locWrite l b q).arrayErrors = s.arrayErrors := by unfold State.locWrite; split <;> (try split) <;> rfl
@[simp] theorem State.locWrite_usedSpares (s : State) (l : Loc) (b : List Byte) (q : Bool) : (s.locWrite l b q).usedSpares = s.usedSpares := by unfold State.locWrite; split <;> (try split) <;> rfl
@[simp] theorem State.locWrite_lost (s : State) (l : Loc) (b : List Byte) (q : Bool) : (s.locWrite l b q).lost = s.lost := by unfold State.locWrite; split <;> (try split) <;> rfl
@[simp] theorem State.locWrite_deadStacks (s : State) (l : Loc) (b : List Byte) (q : Bool) : (s.locWrite l b q).deadStacks = s.deadStacks := by unfold State.locWrite; split <;> (try split) <;> rfl
@[simp] theorem State.locWrite_leafStops (s : State) (l : Loc) (b : List Byte) (q : Bool) : (s.locWrite l b q).leafStops = s.leafStops := by unfold State.locWrite; split <;> (try split) <;> rfl
@[simp] theorem State.locWrite_flushDue (s : State) (l : Loc) (b : List Byte) (q : Bool) : (s.locWrite l b q).flushDue = s.flushDue := by unfold State.locWrite; split <;> (try split) <;> rfl
@[simp] theorem State.locWrite_defects (s : State) (l : Loc) (b : List Byte) (q : Bool) : (s.locWrite l b q).defects = s.defects := by unfold State.locWrite; split <;> (try split) <;> rfl
@[simp] theorem State.locWrite_moves (s : State) (l : Loc) (b : List Byte) (q : Bool) : (s.locWrite l b q).moves = s.moves := by unfold State.locWrite; split <;> (try split) <;> rfl

@[simp] theorem State.locWrite_mem_cores (s : State) (pa : Nat) (b : List Byte) (q : Bool) : (s.locWrite (.mem pa) b q).cores = s.cores := rfl
@[simp] theorem State.locWrite_mem_dscratch (s : State) (pa : Nat) (b : List Byte) (q : Bool) : (s.locWrite (.mem pa) b q).dscratch = s.dscratch := rfl

/-! ## traceWrite -/

@[simp] theorem State.traceWrite_agenda (s : State) (c : Nat) (n : Word) (y p a : Nat) : (s.traceWrite c n y p a).agenda = s.agenda := by unfold State.traceWrite; dsimp only; split <;> (try split) <;> simp
@[simp] theorem State.traceWrite_cur (s : State) (c : Nat) (n : Word) (y p a : Nat) : (s.traceWrite c n y p a).cur = s.cur := by unfold State.traceWrite; dsimp only; split <;> (try split) <;> simp
@[simp] theorem State.traceWrite_limit (s : State) (c : Nat) (n : Word) (y p a : Nat) : (s.traceWrite c n y p a).limit = s.limit := by unfold State.traceWrite; dsimp only; split <;> (try split) <;> simp
@[simp] theorem State.traceWrite_migrating (s : State) (c : Nat) (n : Word) (y p a : Nat) : (s.traceWrite c n y p a).migrating = s.migrating := by unfold State.traceWrite; dsimp only; split <;> (try split) <;> simp
@[simp] theorem State.traceWrite_statDue (s : State) (c : Nat) (n : Word) (y p a : Nat) : (s.traceWrite c n y p a).statDue = s.statDue := by unfold State.traceWrite; dsimp only; split <;> (try split) <;> simp
@[simp] theorem State.traceWrite_qcmdDue (s : State) (c : Nat) (n : Word) (y p a : Nat) : (s.traceWrite c n y p a).qcmdDue = s.qcmdDue := by unfold State.traceWrite; dsimp only; split <;> (try split) <;> simp
@[simp] theorem State.traceWrite_freeCount (s : State) (c : Nat) (n : Word) (y p a : Nat) : (s.traceWrite c n y p a).freeCount = s.freeCount := by unfold State.traceWrite; dsimp only; split <;> (try split) <;> simp
@[simp] theorem State.traceWrite_readySeq (s : State) (c : Nat) (n : Word) (y p a : Nat) : (s.traceWrite c n y p a).readySeq = s.readySeq := by unfold State.traceWrite; dsimp only; split <;> (try split) <;> simp
@[simp] theorem State.traceWrite_takeSeq (s : State) (c : Nat) (n : Word) (y p a : Nat) : (s.traceWrite c n y p a).takeSeq = s.takeSeq := by unfold State.traceWrite; dsimp only; split <;> (try split) <;> simp
@[simp] theorem State.traceWrite_clock (s : State) (c : Nat) (n : Word) (y p a : Nat) : (s.traceWrite c n y p a).clock = s.clock := by unfold State.traceWrite; dsimp only; split <;> (try split) <;> simp
@[simp] theorem State.traceWrite_fw (s : State) (c : Nat) (n : Word) (y p a : Nat) : (s.traceWrite c n y p a).fw = s.fw := by unfold State.traceWrite; dsimp only; split <;> (try split) <;> simp
@[simp] theorem State.traceWrite_fwacc (s : State) (c : Nat) (n : Word) (y p a : Nat) : (s.traceWrite c n y p a).fwacc = s.fwacc := by unfold State.traceWrite; dsimp only; split <;> (try split) <;> simp
@[simp] theorem State.traceWrite_qtbase (s : State) (c : Nat) (n : Word) (y p a : Nat) : (s.traceWrite c n y p a).qtbase = s.qtbase := by unfold State.traceWrite; dsimp only; split <;> (try split) <;> simp
@[simp] theorem State.traceWrite_qtsize (s : State) (c : Nat) (n : Word) (y p a : Nat) : (s.traceWrite c n y p a).qtsize = s.qtsize := by unfold State.traceWrite; dsimp only; split <;> (try split) <;> simp
@[simp] theorem State.traceWrite_qstat (s : State) (c : Nat) (n : Word) (y p a : Nat) : (s.traceWrite c n y p a).qstat = s.qstat := by unfold State.traceWrite; dsimp only; split <;> (try split) <;> simp
@[simp] theorem State.traceWrite_mstate (s : State) (c : Nat) (n : Word) (y p a : Nat) : (s.traceWrite c n y p a).mstate = s.mstate := by unfold State.traceWrite; dsimp only; split <;> (try split) <;> simp
@[simp] theorem State.traceWrite_asidbase (s : State) (c : Nat) (n : Word) (y p a : Nat) : (s.traceWrite c n y p a).asidbase = s.asidbase := by unfold State.traceWrite; dsimp only; split <;> (try split) <;> simp
@[simp] theorem State.traceWrite_bstate (s : State) (c : Nat) (n : Word) (y p a : Nat) : (s.traceWrite c n y p a).bstate = s.bstate := by unfold State.traceWrite; dsimp only; split <;> (try split) <;> simp
@[simp] theorem State.traceWrite_up (s : State) (c : Nat) (n : Word) (y p a : Nat) : (s.traceWrite c n y p a).up = s.up := by unfold State.traceWrite; dsimp only; split <;> (try split) <;> simp
@[simp] theorem State.traceWrite_firmware (s : State) (c : Nat) (n : Word) (y p a : Nat) : (s.traceWrite c n y p a).firmware = s.firmware := by unfold State.traceWrite; dsimp only; split <;> (try split) <;> simp
@[simp] theorem State.traceWrite_mbCode (s : State) (c : Nat) (n : Word) (y p a : Nat) : (s.traceWrite c n y p a).mbCode = s.mbCode := by unfold State.traceWrite; dsimp only; split <;> (try split) <;> simp
@[simp] theorem State.traceWrite_mbErr (s : State) (c : Nat) (n : Word) (y p a : Nat) : (s.traceWrite c n y p a).mbErr = s.mbErr := by unfold State.traceWrite; dsimp only; split <;> (try split) <;> simp
@[simp] theorem State.traceWrite_mbBusy (s : State) (c : Nat) (n : Word) (y p a : Nat) : (s.traceWrite c n y p a).mbBusy = s.mbBusy := by unfold State.traceWrite; dsimp only; split <;> (try split) <;> simp
@[simp] theorem State.traceWrite_mbarg (s : State) (c : Nat) (n : Word) (y p a : Nat) : (s.traceWrite c n y p a).mbarg = s.mbarg := by unfold State.traceWrite; dsimp only; split <;> (try split) <;> simp
@[simp] theorem State.traceWrite_sensors (s : State) (c : Nat) (n : Word) (y p a : Nat) : (s.traceWrite c n y p a).sensors = s.sensors := by unfold State.traceWrite; dsimp only; split <;> (try split) <;> simp
@[simp] theorem State.traceWrite_mhz (s : State) (c : Nat) (n : Word) (y p a : Nat) : (s.traceWrite c n y p a).mhz = s.mhz := by unfold State.traceWrite; dsimp only; split <;> (try split) <;> simp
@[simp] theorem State.traceWrite_sensorsDue (s : State) (c : Nat) (n : Word) (y p a : Nat) : (s.traceWrite c n y p a).sensorsDue = s.sensorsDue := by unfold State.traceWrite; dsimp only; split <;> (try split) <;> simp
@[simp] theorem State.traceWrite_hotFor (s : State) (c : Nat) (n : Word) (y p a : Nat) : (s.traceWrite c n y p a).hotFor = s.hotFor := by unfold State.traceWrite; dsimp only; split <;> (try split) <;> simp
@[simp] theorem State.traceWrite_coolFor (s : State) (c : Nat) (n : Word) (y p a : Nat) : (s.traceWrite c n y p a).coolFor = s.coolFor := by unfold State.traceWrite; dsimp only; split <;> (try split) <;> simp
@[simp] theorem State.traceWrite_alerts (s : State) (c : Nat) (n : Word) (y p a : Nat) : (s.traceWrite c n y p a).alerts = s.alerts := by unfold State.traceWrite; dsimp only; split <;> (try split) <;> simp
@[simp] theorem State.traceWrite_alertIx (s : State) (c : Nat) (n : Word) (y p a : Nat) : (s.traceWrite c n y p a).alertIx = s.alertIx := by unfold State.traceWrite; dsimp only; split <;> (try split) <;> simp
@[simp] theorem State.traceWrite_interrupts (s : State) (c : Nat) (n : Word) (y p a : Nat) : (s.traceWrite c n y p a).interrupts = s.interrupts := by unfold State.traceWrite; dsimp only; split <;> (try split) <;> simp
@[simp] theorem State.traceWrite_signedSeq (s : State) (c : Nat) (n : Word) (y p a : Nat) : (s.traceWrite c n y p a).signedSeq = s.signedSeq := by unfold State.traceWrite; dsimp only; split <;> (try split) <;> simp
@[simp] theorem State.traceWrite_errlog (s : State) (c : Nat) (n : Word) (y p a : Nat) : (s.traceWrite c n y p a).errlog = s.errlog := by unfold State.traceWrite; dsimp only; split <;> (try split) <;> simp
@[simp] theorem State.traceWrite_ports (s : State) (c : Nat) (n : Word) (y p a : Nat) : (s.traceWrite c n y p a).ports = s.ports := by unfold State.traceWrite; dsimp only; split <;> (try split) <;> simp
@[simp] theorem State.traceWrite_iodLinkDown (s : State) (c : Nat) (n : Word) (y p a : Nat) : (s.traceWrite c n y p a).iodLinkDown = s.iodLinkDown := by unfold State.traceWrite; dsimp only; split <;> (try split) <;> simp
@[simp] theorem State.traceWrite_supply (s : State) (c : Nat) (n : Word) (y p a : Nat) : (s.traceWrite c n y p a).supply = s.supply := by unfold State.traceWrite; dsimp only; split <;> (try split) <;> simp
@[simp] theorem State.traceWrite_energyLow (s : State) (c : Nat) (n : Word) (y p a : Nat) : (s.traceWrite c n y p a).energyLow = s.energyLow := by unfold State.traceWrite; dsimp only; split <;> (try split) <;> simp
@[simp] theorem State.traceWrite_flash (s : State) (c : Nat) (n : Word) (y p a : Nat) : (s.traceWrite c n y p a).flash = s.flash := by unfold State.traceWrite; dsimp only; split <;> (try split) <;> simp
@[simp] theorem State.traceWrite_gangSeq (s : State) (c : Nat) (n : Word) (y p a : Nat) : (s.traceWrite c n y p a).gangSeq = s.gangSeq := by unfold State.traceWrite; dsimp only; split <;> (try split) <;> simp
@[simp] theorem State.traceWrite_startSeq (s : State) (c : Nat) (n : Word) (y p a : Nat) : (s.traceWrite c n y p a).startSeq = s.startSeq := by unfold State.traceWrite; dsimp only; split <;> (try split) <;> simp
@[simp] theorem State.traceWrite_rlslots (s : State) (c : Nat) (n : Word) (y p a : Nat) : (s.traceWrite c n y p a).rlslots = s.rlslots := by unfold State.traceWrite; dsimp only; split <;> (try split) <;> simp
@[simp] theorem State.traceWrite_partitions (s : State) (c : Nat) (n : Word) (y p a : Nat) : (s.traceWrite c n y p a).partitions = s.partitions := by unfold State.traceWrite; dsimp only; split <;> (try split) <;> simp
@[simp] theorem State.traceWrite_coreMaps (s : State) (c : Nat) (n : Word) (y p a : Nat) : (s.traceWrite c n y p a).coreMaps = s.coreMaps := by unfold State.traceWrite; dsimp only; split <;> (try split) <;> simp
@[simp] theorem State.traceWrite_noMatrix (s : State) (c : Nat) (n : Word) (y p a : Nat) : (s.traceWrite c n y p a).noMatrix = s.noMatrix := by unfold State.traceWrite; dsimp only; split <;> (try split) <;> simp
@[simp] theorem State.traceWrite_asids (s : State) (c : Nat) (n : Word) (y p a : Nat) : (s.traceWrite c n y p a).asids = s.asids := by unfold State.traceWrite; dsimp only; split <;> (try split) <;> simp
@[simp] theorem State.traceWrite_turnProc (s : State) (c : Nat) (n : Word) (y p a : Nat) : (s.traceWrite c n y p a).turnProc = s.turnProc := by unfold State.traceWrite; dsimp only; split <;> (try split) <;> simp
@[simp] theorem State.traceWrite_turnStart (s : State) (c : Nat) (n : Word) (y p a : Nat) : (s.traceWrite c n y p a).turnStart = s.turnStart := by unfold State.traceWrite; dsimp only; split <;> (try split) <;> simp
@[simp] theorem State.traceWrite_turnNext (s : State) (c : Nat) (n : Word) (y p a : Nat) : (s.traceWrite c n y p a).turnNext = s.turnNext := by unfold State.traceWrite; dsimp only; split <;> (try split) <;> simp
@[simp] theorem State.traceWrite_nextOrder (s : State) (c : Nat) (n : Word) (y p a : Nat) : (s.traceWrite c n y p a).nextOrder = s.nextOrder := by unfold State.traceWrite; dsimp only; split <;> (try split) <;> simp
@[simp] theorem State.traceWrite_launches (s : State) (c : Nat) (n : Word) (y p a : Nat) : (s.traceWrite c n y p a).launches = s.launches := by unfold State.traceWrite; dsimp only; split <;> (try split) <;> simp
@[simp] theorem State.traceWrite_nextLaunch (s : State) (c : Nat) (n : Word) (y p a : Nat) : (s.traceWrite c n y p a).nextLaunch = s.nextLaunch := by unfold State.traceWrite; dsimp only; split <;> (try split) <;> simp
@[simp] theorem State.traceWrite_shards (s : State) (c : Nat) (n : Word) (y p a : Nat) : (s.traceWrite c n y p a).shards = s.shards := by unfold State.traceWrite; dsimp only; split <;> (try split) <;> simp
@[simp] theorem State.traceWrite_teams (s : State) (c : Nat) (n : Word) (y p a : Nat) : (s.traceWrite c n y p a).teams = s.teams := by unfold State.traceWrite; dsimp only; split <;> (try split) <;> simp
@[simp] theorem State.traceWrite_groups (s : State) (c : Nat) (n : Word) (y p a : Nat) : (s.traceWrite c n y p a).groups = s.groups := by unfold State.traceWrite; dsimp only; split <;> (try split) <;> simp
@[simp] theorem State.traceWrite_ctrlIret (s : State) (c : Nat) (n : Word) (y p a : Nat) : (s.traceWrite c n y p a).ctrlIret = s.ctrlIret := by unfold State.traceWrite; dsimp only; split <;> (try split) <;> simp
@[simp] theorem State.traceWrite_dscratch (s : State) (c : Nat) (n : Word) (y p a : Nat) : (s.traceWrite c n y p a).dscratch = s.dscratch := by unfold State.traceWrite; dsimp only; split <;> (try split) <;> simp
@[simp] theorem State.traceWrite_gangs (s : State) (c : Nat) (n : Word) (y p a : Nat) : (s.traceWrite c n y p a).gangs = s.gangs := by unfold State.traceWrite; dsimp only; split <;> (try split) <;> simp
@[simp] theorem State.traceWrite_tags (s : State) (c : Nat) (n : Word) (y p a : Nat) : (s.traceWrite c n y p a).tags = s.tags := by unfold State.traceWrite; dsimp only; split <;> (try split) <;> simp
@[simp] theorem State.traceWrite_ops (s : State) (c : Nat) (n : Word) (y p a : Nat) : (s.traceWrite c n y p a).ops = s.ops := by unfold State.traceWrite; dsimp only; split <;> (try split) <;> simp
@[simp] theorem State.traceWrite_barriers (s : State) (c : Nat) (n : Word) (y p a : Nat) : (s.traceWrite c n y p a).barriers = s.barriers := by unfold State.traceWrite; dsimp only; split <;> (try split) <;> simp
@[simp] theorem State.traceWrite_reports (s : State) (c : Nat) (n : Word) (y p a : Nat) : (s.traceWrite c n y p a).reports = s.reports := by unfold State.traceWrite; dsimp only; split <;> (try split) <;> simp
@[simp] theorem State.traceWrite_classes (s : State) (c : Nat) (n : Word) (y p a : Nat) : (s.traceWrite c n y p a).classes = s.classes := by unfold State.traceWrite; dsimp only; split <;> (try split) <;> simp
@[simp] theorem State.traceWrite_reclass (s : State) (c : Nat) (n : Word) (y p a : Nat) : (s.traceWrite c n y p a).reclass = s.reclass := by unfold State.traceWrite; dsimp only; split <;> (try split) <;> simp
@[simp] theorem State.traceWrite_tlb (s : State) (c : Nat) (n : Word) (y p a : Nat) : (s.traceWrite c n y p a).tlb = s.tlb := by unfold State.traceWrite; dsimp only; split <;> (try split) <;> simp
@[simp] theorem State.traceWrite_walkCache (s : State) (c : Nat) (n : Word) (y p a : Nat) : (s.traceWrite c n y p a).walkCache = s.walkCache := by unfold State.traceWrite; dsimp only; split <;> (try split) <;> simp
@[simp] theorem State.traceWrite_constLines (s : State) (c : Nat) (n : Word) (y p a : Nat) : (s.traceWrite c n y p a).constLines = s.constLines := by unfold State.traceWrite; dsimp only; split <;> (try split) <;> simp
@[simp] theorem State.traceWrite_net (s : State) (c : Nat) (n : Word) (y p a : Nat) : (s.traceWrite c n y p a).net = s.net := by unfold State.traceWrite; dsimp only; split <;> (try split) <;> simp
@[simp] theorem State.traceWrite_hostLines (s : State) (c : Nat) (n : Word) (y p a : Nat) : (s.traceWrite c n y p a).hostLines = s.hostLines := by unfold State.traceWrite; dsimp only; split <;> (try split) <;> simp
@[simp] theorem State.traceWrite_hostStalls (s : State) (c : Nat) (n : Word) (y p a : Nat) : (s.traceWrite c n y p a).hostStalls = s.hostStalls := by unfold State.traceWrite; dsimp only; split <;> (try split) <;> simp
@[simp] theorem State.traceWrite_hostReply (s : State) (c : Nat) (n : Word) (y p a : Nat) : (s.traceWrite c n y p a).hostReply = s.hostReply := by unfold State.traceWrite; dsimp only; split <;> (try split) <;> simp
@[simp] theorem State.traceWrite_links (s : State) (c : Nat) (n : Word) (y p a : Nat) : (s.traceWrite c n y p a).links = s.links := by unfold State.traceWrite; dsimp only; split <;> (try split) <;> simp
@[simp] theorem State.traceWrite_collections (s : State) (c : Nat) (n : Word) (y p a : Nat) : (s.traceWrite c n y p a).collections = s.collections := by unfold State.traceWrite; dsimp only; split <;> (try split) <;> simp
@[simp] theorem State.traceWrite_nextCollection (s : State) (c : Nat) (n : Word) (y p a : Nat) : (s.traceWrite c n y p a).nextCollection = s.nextCollection := by unfold State.traceWrite; dsimp only; split <;> (try split) <;> simp
@[simp] theorem State.traceWrite_savedScratch (s : State) (c : Nat) (n : Word) (y p a : Nat) : (s.traceWrite c n y p a).savedScratch = s.savedScratch := by unfold State.traceWrite; dsimp only; split <;> (try split) <;> simp
@[simp] theorem State.traceWrite_saveOrder (s : State) (c : Nat) (n : Word) (y p a : Nat) : (s.traceWrite c n y p a).saveOrder = s.saveOrder := by unfold State.traceWrite; dsimp only; split <;> (try split) <;> simp
@[simp] theorem State.traceWrite_reservations (s : State) (c : Nat) (n : Word) (y p a : Nat) : (s.traceWrite c n y p a).reservations = s.reservations := by unfold State.traceWrite; dsimp only; split <;> (try split) <;> simp
@[simp] theorem State.traceWrite_waitingNb (s : State) (c : Nat) (n : Word) (y p a : Nat) : (s.traceWrite c n y p a).waitingNb = s.waitingNb := by unfold State.traceWrite; dsimp only; split <;> (try split) <;> simp
@[simp] theorem State.traceWrite_imageAreas (s : State) (c : Nat) (n : Word) (y p a : Nat) : (s.traceWrite c n y p a).imageAreas = s.imageAreas := by unfold State.traceWrite; dsimp only; split <;> (try split) <;> simp
@[simp] theorem State.traceWrite_drogue (s : State) (c : Nat) (n : Word) (y p a : Nat) : (s.traceWrite c n y p a).drogue = s.drogue := by unfold State.traceWrite; dsimp only; split <;> (try split) <;> simp
@[simp] theorem State.traceWrite_counts (s : State) (c : Nat) (n : Word) (y p a : Nat) : (s.traceWrite c n y p a).counts = s.counts := by unfold State.traceWrite; dsimp only; split <;> (try split) <;> simp
@[simp] theorem State.traceWrite_arrayErrors (s : State) (c : Nat) (n : Word) (y p a : Nat) : (s.traceWrite c n y p a).arrayErrors = s.arrayErrors := by unfold State.traceWrite; dsimp only; split <;> (try split) <;> simp
@[simp] theorem State.traceWrite_usedSpares (s : State) (c : Nat) (n : Word) (y p a : Nat) : (s.traceWrite c n y p a).usedSpares = s.usedSpares := by unfold State.traceWrite; dsimp only; split <;> (try split) <;> simp
@[simp] theorem State.traceWrite_lost (s : State) (c : Nat) (n : Word) (y p a : Nat) : (s.traceWrite c n y p a).lost = s.lost := by unfold State.traceWrite; dsimp only; split <;> (try split) <;> simp
@[simp] theorem State.traceWrite_deadStacks (s : State) (c : Nat) (n : Word) (y p a : Nat) : (s.traceWrite c n y p a).deadStacks = s.deadStacks := by unfold State.traceWrite; dsimp only; split <;> (try split) <;> simp
@[simp] theorem State.traceWrite_leafStops (s : State) (c : Nat) (n : Word) (y p a : Nat) : (s.traceWrite c n y p a).leafStops = s.leafStops := by unfold State.traceWrite; dsimp only; split <;> (try split) <;> simp
@[simp] theorem State.traceWrite_flushDue (s : State) (c : Nat) (n : Word) (y p a : Nat) : (s.traceWrite c n y p a).flushDue = s.flushDue := by unfold State.traceWrite; dsimp only; split <;> (try split) <;> simp
@[simp] theorem State.traceWrite_defects (s : State) (c : Nat) (n : Word) (y p a : Nat) : (s.traceWrite c n y p a).defects = s.defects := by unfold State.traceWrite; dsimp only; split <;> (try split) <;> simp
@[simp] theorem State.traceWrite_moves (s : State) (c : Nat) (n : Word) (y p a : Nat) : (s.traceWrite c n y p a).moves = s.moves := by unfold State.traceWrite; dsimp only; split <;> (try split) <;> simp

/-! ## traceAt -/

@[simp] theorem State.traceAt_agenda (s : State) (c : Nat) (n : Word) (y p a : Nat) : (s.traceAt c n y p a).agenda = s.agenda := by unfold State.traceAt; split <;> simp
@[simp] theorem State.traceAt_cur (s : State) (c : Nat) (n : Word) (y p a : Nat) : (s.traceAt c n y p a).cur = s.cur := by unfold State.traceAt; split <;> simp
@[simp] theorem State.traceAt_limit (s : State) (c : Nat) (n : Word) (y p a : Nat) : (s.traceAt c n y p a).limit = s.limit := by unfold State.traceAt; split <;> simp
@[simp] theorem State.traceAt_migrating (s : State) (c : Nat) (n : Word) (y p a : Nat) : (s.traceAt c n y p a).migrating = s.migrating := by unfold State.traceAt; split <;> simp
@[simp] theorem State.traceAt_statDue (s : State) (c : Nat) (n : Word) (y p a : Nat) : (s.traceAt c n y p a).statDue = s.statDue := by unfold State.traceAt; split <;> simp
@[simp] theorem State.traceAt_qcmdDue (s : State) (c : Nat) (n : Word) (y p a : Nat) : (s.traceAt c n y p a).qcmdDue = s.qcmdDue := by unfold State.traceAt; split <;> simp
@[simp] theorem State.traceAt_freeCount (s : State) (c : Nat) (n : Word) (y p a : Nat) : (s.traceAt c n y p a).freeCount = s.freeCount := by unfold State.traceAt; split <;> simp
@[simp] theorem State.traceAt_readySeq (s : State) (c : Nat) (n : Word) (y p a : Nat) : (s.traceAt c n y p a).readySeq = s.readySeq := by unfold State.traceAt; split <;> simp
@[simp] theorem State.traceAt_takeSeq (s : State) (c : Nat) (n : Word) (y p a : Nat) : (s.traceAt c n y p a).takeSeq = s.takeSeq := by unfold State.traceAt; split <;> simp
@[simp] theorem State.traceAt_clock (s : State) (c : Nat) (n : Word) (y p a : Nat) : (s.traceAt c n y p a).clock = s.clock := by unfold State.traceAt; split <;> simp
@[simp] theorem State.traceAt_fw (s : State) (c : Nat) (n : Word) (y p a : Nat) : (s.traceAt c n y p a).fw = s.fw := by unfold State.traceAt; split <;> simp
@[simp] theorem State.traceAt_fwacc (s : State) (c : Nat) (n : Word) (y p a : Nat) : (s.traceAt c n y p a).fwacc = s.fwacc := by unfold State.traceAt; split <;> simp
@[simp] theorem State.traceAt_qtbase (s : State) (c : Nat) (n : Word) (y p a : Nat) : (s.traceAt c n y p a).qtbase = s.qtbase := by unfold State.traceAt; split <;> simp
@[simp] theorem State.traceAt_qtsize (s : State) (c : Nat) (n : Word) (y p a : Nat) : (s.traceAt c n y p a).qtsize = s.qtsize := by unfold State.traceAt; split <;> simp
@[simp] theorem State.traceAt_qstat (s : State) (c : Nat) (n : Word) (y p a : Nat) : (s.traceAt c n y p a).qstat = s.qstat := by unfold State.traceAt; split <;> simp
@[simp] theorem State.traceAt_mstate (s : State) (c : Nat) (n : Word) (y p a : Nat) : (s.traceAt c n y p a).mstate = s.mstate := by unfold State.traceAt; split <;> simp
@[simp] theorem State.traceAt_asidbase (s : State) (c : Nat) (n : Word) (y p a : Nat) : (s.traceAt c n y p a).asidbase = s.asidbase := by unfold State.traceAt; split <;> simp
@[simp] theorem State.traceAt_bstate (s : State) (c : Nat) (n : Word) (y p a : Nat) : (s.traceAt c n y p a).bstate = s.bstate := by unfold State.traceAt; split <;> simp
@[simp] theorem State.traceAt_up (s : State) (c : Nat) (n : Word) (y p a : Nat) : (s.traceAt c n y p a).up = s.up := by unfold State.traceAt; split <;> simp
@[simp] theorem State.traceAt_firmware (s : State) (c : Nat) (n : Word) (y p a : Nat) : (s.traceAt c n y p a).firmware = s.firmware := by unfold State.traceAt; split <;> simp
@[simp] theorem State.traceAt_mbCode (s : State) (c : Nat) (n : Word) (y p a : Nat) : (s.traceAt c n y p a).mbCode = s.mbCode := by unfold State.traceAt; split <;> simp
@[simp] theorem State.traceAt_mbErr (s : State) (c : Nat) (n : Word) (y p a : Nat) : (s.traceAt c n y p a).mbErr = s.mbErr := by unfold State.traceAt; split <;> simp
@[simp] theorem State.traceAt_mbBusy (s : State) (c : Nat) (n : Word) (y p a : Nat) : (s.traceAt c n y p a).mbBusy = s.mbBusy := by unfold State.traceAt; split <;> simp
@[simp] theorem State.traceAt_mbarg (s : State) (c : Nat) (n : Word) (y p a : Nat) : (s.traceAt c n y p a).mbarg = s.mbarg := by unfold State.traceAt; split <;> simp
@[simp] theorem State.traceAt_sensors (s : State) (c : Nat) (n : Word) (y p a : Nat) : (s.traceAt c n y p a).sensors = s.sensors := by unfold State.traceAt; split <;> simp
@[simp] theorem State.traceAt_mhz (s : State) (c : Nat) (n : Word) (y p a : Nat) : (s.traceAt c n y p a).mhz = s.mhz := by unfold State.traceAt; split <;> simp
@[simp] theorem State.traceAt_sensorsDue (s : State) (c : Nat) (n : Word) (y p a : Nat) : (s.traceAt c n y p a).sensorsDue = s.sensorsDue := by unfold State.traceAt; split <;> simp
@[simp] theorem State.traceAt_hotFor (s : State) (c : Nat) (n : Word) (y p a : Nat) : (s.traceAt c n y p a).hotFor = s.hotFor := by unfold State.traceAt; split <;> simp
@[simp] theorem State.traceAt_coolFor (s : State) (c : Nat) (n : Word) (y p a : Nat) : (s.traceAt c n y p a).coolFor = s.coolFor := by unfold State.traceAt; split <;> simp
@[simp] theorem State.traceAt_alerts (s : State) (c : Nat) (n : Word) (y p a : Nat) : (s.traceAt c n y p a).alerts = s.alerts := by unfold State.traceAt; split <;> simp
@[simp] theorem State.traceAt_alertIx (s : State) (c : Nat) (n : Word) (y p a : Nat) : (s.traceAt c n y p a).alertIx = s.alertIx := by unfold State.traceAt; split <;> simp
@[simp] theorem State.traceAt_interrupts (s : State) (c : Nat) (n : Word) (y p a : Nat) : (s.traceAt c n y p a).interrupts = s.interrupts := by unfold State.traceAt; split <;> simp
@[simp] theorem State.traceAt_signedSeq (s : State) (c : Nat) (n : Word) (y p a : Nat) : (s.traceAt c n y p a).signedSeq = s.signedSeq := by unfold State.traceAt; split <;> simp
@[simp] theorem State.traceAt_errlog (s : State) (c : Nat) (n : Word) (y p a : Nat) : (s.traceAt c n y p a).errlog = s.errlog := by unfold State.traceAt; split <;> simp
@[simp] theorem State.traceAt_ports (s : State) (c : Nat) (n : Word) (y p a : Nat) : (s.traceAt c n y p a).ports = s.ports := by unfold State.traceAt; split <;> simp
@[simp] theorem State.traceAt_iodLinkDown (s : State) (c : Nat) (n : Word) (y p a : Nat) : (s.traceAt c n y p a).iodLinkDown = s.iodLinkDown := by unfold State.traceAt; split <;> simp
@[simp] theorem State.traceAt_supply (s : State) (c : Nat) (n : Word) (y p a : Nat) : (s.traceAt c n y p a).supply = s.supply := by unfold State.traceAt; split <;> simp
@[simp] theorem State.traceAt_energyLow (s : State) (c : Nat) (n : Word) (y p a : Nat) : (s.traceAt c n y p a).energyLow = s.energyLow := by unfold State.traceAt; split <;> simp
@[simp] theorem State.traceAt_flash (s : State) (c : Nat) (n : Word) (y p a : Nat) : (s.traceAt c n y p a).flash = s.flash := by unfold State.traceAt; split <;> simp
@[simp] theorem State.traceAt_gangSeq (s : State) (c : Nat) (n : Word) (y p a : Nat) : (s.traceAt c n y p a).gangSeq = s.gangSeq := by unfold State.traceAt; split <;> simp
@[simp] theorem State.traceAt_startSeq (s : State) (c : Nat) (n : Word) (y p a : Nat) : (s.traceAt c n y p a).startSeq = s.startSeq := by unfold State.traceAt; split <;> simp
@[simp] theorem State.traceAt_rlslots (s : State) (c : Nat) (n : Word) (y p a : Nat) : (s.traceAt c n y p a).rlslots = s.rlslots := by unfold State.traceAt; split <;> simp
@[simp] theorem State.traceAt_partitions (s : State) (c : Nat) (n : Word) (y p a : Nat) : (s.traceAt c n y p a).partitions = s.partitions := by unfold State.traceAt; split <;> simp
@[simp] theorem State.traceAt_coreMaps (s : State) (c : Nat) (n : Word) (y p a : Nat) : (s.traceAt c n y p a).coreMaps = s.coreMaps := by unfold State.traceAt; split <;> simp
@[simp] theorem State.traceAt_noMatrix (s : State) (c : Nat) (n : Word) (y p a : Nat) : (s.traceAt c n y p a).noMatrix = s.noMatrix := by unfold State.traceAt; split <;> simp
@[simp] theorem State.traceAt_asids (s : State) (c : Nat) (n : Word) (y p a : Nat) : (s.traceAt c n y p a).asids = s.asids := by unfold State.traceAt; split <;> simp
@[simp] theorem State.traceAt_turnProc (s : State) (c : Nat) (n : Word) (y p a : Nat) : (s.traceAt c n y p a).turnProc = s.turnProc := by unfold State.traceAt; split <;> simp
@[simp] theorem State.traceAt_turnStart (s : State) (c : Nat) (n : Word) (y p a : Nat) : (s.traceAt c n y p a).turnStart = s.turnStart := by unfold State.traceAt; split <;> simp
@[simp] theorem State.traceAt_turnNext (s : State) (c : Nat) (n : Word) (y p a : Nat) : (s.traceAt c n y p a).turnNext = s.turnNext := by unfold State.traceAt; split <;> simp
@[simp] theorem State.traceAt_nextOrder (s : State) (c : Nat) (n : Word) (y p a : Nat) : (s.traceAt c n y p a).nextOrder = s.nextOrder := by unfold State.traceAt; split <;> simp
@[simp] theorem State.traceAt_launches (s : State) (c : Nat) (n : Word) (y p a : Nat) : (s.traceAt c n y p a).launches = s.launches := by unfold State.traceAt; split <;> simp
@[simp] theorem State.traceAt_nextLaunch (s : State) (c : Nat) (n : Word) (y p a : Nat) : (s.traceAt c n y p a).nextLaunch = s.nextLaunch := by unfold State.traceAt; split <;> simp
@[simp] theorem State.traceAt_shards (s : State) (c : Nat) (n : Word) (y p a : Nat) : (s.traceAt c n y p a).shards = s.shards := by unfold State.traceAt; split <;> simp
@[simp] theorem State.traceAt_teams (s : State) (c : Nat) (n : Word) (y p a : Nat) : (s.traceAt c n y p a).teams = s.teams := by unfold State.traceAt; split <;> simp
@[simp] theorem State.traceAt_groups (s : State) (c : Nat) (n : Word) (y p a : Nat) : (s.traceAt c n y p a).groups = s.groups := by unfold State.traceAt; split <;> simp
@[simp] theorem State.traceAt_ctrlIret (s : State) (c : Nat) (n : Word) (y p a : Nat) : (s.traceAt c n y p a).ctrlIret = s.ctrlIret := by unfold State.traceAt; split <;> simp
@[simp] theorem State.traceAt_dscratch (s : State) (c : Nat) (n : Word) (y p a : Nat) : (s.traceAt c n y p a).dscratch = s.dscratch := by unfold State.traceAt; split <;> simp
@[simp] theorem State.traceAt_gangs (s : State) (c : Nat) (n : Word) (y p a : Nat) : (s.traceAt c n y p a).gangs = s.gangs := by unfold State.traceAt; split <;> simp
@[simp] theorem State.traceAt_tags (s : State) (c : Nat) (n : Word) (y p a : Nat) : (s.traceAt c n y p a).tags = s.tags := by unfold State.traceAt; split <;> simp
@[simp] theorem State.traceAt_ops (s : State) (c : Nat) (n : Word) (y p a : Nat) : (s.traceAt c n y p a).ops = s.ops := by unfold State.traceAt; split <;> simp
@[simp] theorem State.traceAt_barriers (s : State) (c : Nat) (n : Word) (y p a : Nat) : (s.traceAt c n y p a).barriers = s.barriers := by unfold State.traceAt; split <;> simp
@[simp] theorem State.traceAt_reports (s : State) (c : Nat) (n : Word) (y p a : Nat) : (s.traceAt c n y p a).reports = s.reports := by unfold State.traceAt; split <;> simp
@[simp] theorem State.traceAt_classes (s : State) (c : Nat) (n : Word) (y p a : Nat) : (s.traceAt c n y p a).classes = s.classes := by unfold State.traceAt; split <;> simp
@[simp] theorem State.traceAt_reclass (s : State) (c : Nat) (n : Word) (y p a : Nat) : (s.traceAt c n y p a).reclass = s.reclass := by unfold State.traceAt; split <;> simp
@[simp] theorem State.traceAt_tlb (s : State) (c : Nat) (n : Word) (y p a : Nat) : (s.traceAt c n y p a).tlb = s.tlb := by unfold State.traceAt; split <;> simp
@[simp] theorem State.traceAt_walkCache (s : State) (c : Nat) (n : Word) (y p a : Nat) : (s.traceAt c n y p a).walkCache = s.walkCache := by unfold State.traceAt; split <;> simp
@[simp] theorem State.traceAt_constLines (s : State) (c : Nat) (n : Word) (y p a : Nat) : (s.traceAt c n y p a).constLines = s.constLines := by unfold State.traceAt; split <;> simp
@[simp] theorem State.traceAt_net (s : State) (c : Nat) (n : Word) (y p a : Nat) : (s.traceAt c n y p a).net = s.net := by unfold State.traceAt; split <;> simp
@[simp] theorem State.traceAt_hostLines (s : State) (c : Nat) (n : Word) (y p a : Nat) : (s.traceAt c n y p a).hostLines = s.hostLines := by unfold State.traceAt; split <;> simp
@[simp] theorem State.traceAt_hostStalls (s : State) (c : Nat) (n : Word) (y p a : Nat) : (s.traceAt c n y p a).hostStalls = s.hostStalls := by unfold State.traceAt; split <;> simp
@[simp] theorem State.traceAt_hostReply (s : State) (c : Nat) (n : Word) (y p a : Nat) : (s.traceAt c n y p a).hostReply = s.hostReply := by unfold State.traceAt; split <;> simp
@[simp] theorem State.traceAt_links (s : State) (c : Nat) (n : Word) (y p a : Nat) : (s.traceAt c n y p a).links = s.links := by unfold State.traceAt; split <;> simp
@[simp] theorem State.traceAt_collections (s : State) (c : Nat) (n : Word) (y p a : Nat) : (s.traceAt c n y p a).collections = s.collections := by unfold State.traceAt; split <;> simp
@[simp] theorem State.traceAt_nextCollection (s : State) (c : Nat) (n : Word) (y p a : Nat) : (s.traceAt c n y p a).nextCollection = s.nextCollection := by unfold State.traceAt; split <;> simp
@[simp] theorem State.traceAt_savedScratch (s : State) (c : Nat) (n : Word) (y p a : Nat) : (s.traceAt c n y p a).savedScratch = s.savedScratch := by unfold State.traceAt; split <;> simp
@[simp] theorem State.traceAt_saveOrder (s : State) (c : Nat) (n : Word) (y p a : Nat) : (s.traceAt c n y p a).saveOrder = s.saveOrder := by unfold State.traceAt; split <;> simp
@[simp] theorem State.traceAt_reservations (s : State) (c : Nat) (n : Word) (y p a : Nat) : (s.traceAt c n y p a).reservations = s.reservations := by unfold State.traceAt; split <;> simp
@[simp] theorem State.traceAt_waitingNb (s : State) (c : Nat) (n : Word) (y p a : Nat) : (s.traceAt c n y p a).waitingNb = s.waitingNb := by unfold State.traceAt; split <;> simp
@[simp] theorem State.traceAt_imageAreas (s : State) (c : Nat) (n : Word) (y p a : Nat) : (s.traceAt c n y p a).imageAreas = s.imageAreas := by unfold State.traceAt; split <;> simp
@[simp] theorem State.traceAt_drogue (s : State) (c : Nat) (n : Word) (y p a : Nat) : (s.traceAt c n y p a).drogue = s.drogue := by unfold State.traceAt; split <;> simp
@[simp] theorem State.traceAt_counts (s : State) (c : Nat) (n : Word) (y p a : Nat) : (s.traceAt c n y p a).counts = s.counts := by unfold State.traceAt; split <;> simp
@[simp] theorem State.traceAt_arrayErrors (s : State) (c : Nat) (n : Word) (y p a : Nat) : (s.traceAt c n y p a).arrayErrors = s.arrayErrors := by unfold State.traceAt; split <;> simp
@[simp] theorem State.traceAt_usedSpares (s : State) (c : Nat) (n : Word) (y p a : Nat) : (s.traceAt c n y p a).usedSpares = s.usedSpares := by unfold State.traceAt; split <;> simp
@[simp] theorem State.traceAt_lost (s : State) (c : Nat) (n : Word) (y p a : Nat) : (s.traceAt c n y p a).lost = s.lost := by unfold State.traceAt; split <;> simp
@[simp] theorem State.traceAt_deadStacks (s : State) (c : Nat) (n : Word) (y p a : Nat) : (s.traceAt c n y p a).deadStacks = s.deadStacks := by unfold State.traceAt; split <;> simp
@[simp] theorem State.traceAt_leafStops (s : State) (c : Nat) (n : Word) (y p a : Nat) : (s.traceAt c n y p a).leafStops = s.leafStops := by unfold State.traceAt; split <;> simp
@[simp] theorem State.traceAt_flushDue (s : State) (c : Nat) (n : Word) (y p a : Nat) : (s.traceAt c n y p a).flushDue = s.flushDue := by unfold State.traceAt; split <;> simp
@[simp] theorem State.traceAt_defects (s : State) (c : Nat) (n : Word) (y p a : Nat) : (s.traceAt c n y p a).defects = s.defects := by unfold State.traceAt; split <;> simp
@[simp] theorem State.traceAt_moves (s : State) (c : Nat) (n : Word) (y p a : Nat) : (s.traceAt c n y p a).moves = s.moves := by unfold State.traceAt; split <;> simp

/-! ## trace -/

@[simp] theorem State.trace_agenda (s : State) (t : TeamId) (y p a : Nat) : (s.trace t y p a).agenda = s.agenda := by unfold State.trace; split <;> simp
@[simp] theorem State.trace_cur (s : State) (t : TeamId) (y p a : Nat) : (s.trace t y p a).cur = s.cur := by unfold State.trace; split <;> simp
@[simp] theorem State.trace_limit (s : State) (t : TeamId) (y p a : Nat) : (s.trace t y p a).limit = s.limit := by unfold State.trace; split <;> simp
@[simp] theorem State.trace_migrating (s : State) (t : TeamId) (y p a : Nat) : (s.trace t y p a).migrating = s.migrating := by unfold State.trace; split <;> simp
@[simp] theorem State.trace_statDue (s : State) (t : TeamId) (y p a : Nat) : (s.trace t y p a).statDue = s.statDue := by unfold State.trace; split <;> simp
@[simp] theorem State.trace_qcmdDue (s : State) (t : TeamId) (y p a : Nat) : (s.trace t y p a).qcmdDue = s.qcmdDue := by unfold State.trace; split <;> simp
@[simp] theorem State.trace_freeCount (s : State) (t : TeamId) (y p a : Nat) : (s.trace t y p a).freeCount = s.freeCount := by unfold State.trace; split <;> simp
@[simp] theorem State.trace_readySeq (s : State) (t : TeamId) (y p a : Nat) : (s.trace t y p a).readySeq = s.readySeq := by unfold State.trace; split <;> simp
@[simp] theorem State.trace_takeSeq (s : State) (t : TeamId) (y p a : Nat) : (s.trace t y p a).takeSeq = s.takeSeq := by unfold State.trace; split <;> simp
@[simp] theorem State.trace_clock (s : State) (t : TeamId) (y p a : Nat) : (s.trace t y p a).clock = s.clock := by unfold State.trace; split <;> simp
@[simp] theorem State.trace_fw (s : State) (t : TeamId) (y p a : Nat) : (s.trace t y p a).fw = s.fw := by unfold State.trace; split <;> simp
@[simp] theorem State.trace_fwacc (s : State) (t : TeamId) (y p a : Nat) : (s.trace t y p a).fwacc = s.fwacc := by unfold State.trace; split <;> simp
@[simp] theorem State.trace_qtbase (s : State) (t : TeamId) (y p a : Nat) : (s.trace t y p a).qtbase = s.qtbase := by unfold State.trace; split <;> simp
@[simp] theorem State.trace_qtsize (s : State) (t : TeamId) (y p a : Nat) : (s.trace t y p a).qtsize = s.qtsize := by unfold State.trace; split <;> simp
@[simp] theorem State.trace_qstat (s : State) (t : TeamId) (y p a : Nat) : (s.trace t y p a).qstat = s.qstat := by unfold State.trace; split <;> simp
@[simp] theorem State.trace_mstate (s : State) (t : TeamId) (y p a : Nat) : (s.trace t y p a).mstate = s.mstate := by unfold State.trace; split <;> simp
@[simp] theorem State.trace_asidbase (s : State) (t : TeamId) (y p a : Nat) : (s.trace t y p a).asidbase = s.asidbase := by unfold State.trace; split <;> simp
@[simp] theorem State.trace_bstate (s : State) (t : TeamId) (y p a : Nat) : (s.trace t y p a).bstate = s.bstate := by unfold State.trace; split <;> simp
@[simp] theorem State.trace_up (s : State) (t : TeamId) (y p a : Nat) : (s.trace t y p a).up = s.up := by unfold State.trace; split <;> simp
@[simp] theorem State.trace_firmware (s : State) (t : TeamId) (y p a : Nat) : (s.trace t y p a).firmware = s.firmware := by unfold State.trace; split <;> simp
@[simp] theorem State.trace_mbCode (s : State) (t : TeamId) (y p a : Nat) : (s.trace t y p a).mbCode = s.mbCode := by unfold State.trace; split <;> simp
@[simp] theorem State.trace_mbErr (s : State) (t : TeamId) (y p a : Nat) : (s.trace t y p a).mbErr = s.mbErr := by unfold State.trace; split <;> simp
@[simp] theorem State.trace_mbBusy (s : State) (t : TeamId) (y p a : Nat) : (s.trace t y p a).mbBusy = s.mbBusy := by unfold State.trace; split <;> simp
@[simp] theorem State.trace_mbarg (s : State) (t : TeamId) (y p a : Nat) : (s.trace t y p a).mbarg = s.mbarg := by unfold State.trace; split <;> simp
@[simp] theorem State.trace_sensors (s : State) (t : TeamId) (y p a : Nat) : (s.trace t y p a).sensors = s.sensors := by unfold State.trace; split <;> simp
@[simp] theorem State.trace_mhz (s : State) (t : TeamId) (y p a : Nat) : (s.trace t y p a).mhz = s.mhz := by unfold State.trace; split <;> simp
@[simp] theorem State.trace_sensorsDue (s : State) (t : TeamId) (y p a : Nat) : (s.trace t y p a).sensorsDue = s.sensorsDue := by unfold State.trace; split <;> simp
@[simp] theorem State.trace_hotFor (s : State) (t : TeamId) (y p a : Nat) : (s.trace t y p a).hotFor = s.hotFor := by unfold State.trace; split <;> simp
@[simp] theorem State.trace_coolFor (s : State) (t : TeamId) (y p a : Nat) : (s.trace t y p a).coolFor = s.coolFor := by unfold State.trace; split <;> simp
@[simp] theorem State.trace_alerts (s : State) (t : TeamId) (y p a : Nat) : (s.trace t y p a).alerts = s.alerts := by unfold State.trace; split <;> simp
@[simp] theorem State.trace_alertIx (s : State) (t : TeamId) (y p a : Nat) : (s.trace t y p a).alertIx = s.alertIx := by unfold State.trace; split <;> simp
@[simp] theorem State.trace_interrupts (s : State) (t : TeamId) (y p a : Nat) : (s.trace t y p a).interrupts = s.interrupts := by unfold State.trace; split <;> simp
@[simp] theorem State.trace_signedSeq (s : State) (t : TeamId) (y p a : Nat) : (s.trace t y p a).signedSeq = s.signedSeq := by unfold State.trace; split <;> simp
@[simp] theorem State.trace_errlog (s : State) (t : TeamId) (y p a : Nat) : (s.trace t y p a).errlog = s.errlog := by unfold State.trace; split <;> simp
@[simp] theorem State.trace_ports (s : State) (t : TeamId) (y p a : Nat) : (s.trace t y p a).ports = s.ports := by unfold State.trace; split <;> simp
@[simp] theorem State.trace_iodLinkDown (s : State) (t : TeamId) (y p a : Nat) : (s.trace t y p a).iodLinkDown = s.iodLinkDown := by unfold State.trace; split <;> simp
@[simp] theorem State.trace_supply (s : State) (t : TeamId) (y p a : Nat) : (s.trace t y p a).supply = s.supply := by unfold State.trace; split <;> simp
@[simp] theorem State.trace_energyLow (s : State) (t : TeamId) (y p a : Nat) : (s.trace t y p a).energyLow = s.energyLow := by unfold State.trace; split <;> simp
@[simp] theorem State.trace_flash (s : State) (t : TeamId) (y p a : Nat) : (s.trace t y p a).flash = s.flash := by unfold State.trace; split <;> simp
@[simp] theorem State.trace_gangSeq (s : State) (t : TeamId) (y p a : Nat) : (s.trace t y p a).gangSeq = s.gangSeq := by unfold State.trace; split <;> simp
@[simp] theorem State.trace_startSeq (s : State) (t : TeamId) (y p a : Nat) : (s.trace t y p a).startSeq = s.startSeq := by unfold State.trace; split <;> simp
@[simp] theorem State.trace_rlslots (s : State) (t : TeamId) (y p a : Nat) : (s.trace t y p a).rlslots = s.rlslots := by unfold State.trace; split <;> simp
@[simp] theorem State.trace_partitions (s : State) (t : TeamId) (y p a : Nat) : (s.trace t y p a).partitions = s.partitions := by unfold State.trace; split <;> simp
@[simp] theorem State.trace_coreMaps (s : State) (t : TeamId) (y p a : Nat) : (s.trace t y p a).coreMaps = s.coreMaps := by unfold State.trace; split <;> simp
@[simp] theorem State.trace_noMatrix (s : State) (t : TeamId) (y p a : Nat) : (s.trace t y p a).noMatrix = s.noMatrix := by unfold State.trace; split <;> simp
@[simp] theorem State.trace_asids (s : State) (t : TeamId) (y p a : Nat) : (s.trace t y p a).asids = s.asids := by unfold State.trace; split <;> simp
@[simp] theorem State.trace_turnProc (s : State) (t : TeamId) (y p a : Nat) : (s.trace t y p a).turnProc = s.turnProc := by unfold State.trace; split <;> simp
@[simp] theorem State.trace_turnStart (s : State) (t : TeamId) (y p a : Nat) : (s.trace t y p a).turnStart = s.turnStart := by unfold State.trace; split <;> simp
@[simp] theorem State.trace_turnNext (s : State) (t : TeamId) (y p a : Nat) : (s.trace t y p a).turnNext = s.turnNext := by unfold State.trace; split <;> simp
@[simp] theorem State.trace_nextOrder (s : State) (t : TeamId) (y p a : Nat) : (s.trace t y p a).nextOrder = s.nextOrder := by unfold State.trace; split <;> simp
@[simp] theorem State.trace_launches (s : State) (t : TeamId) (y p a : Nat) : (s.trace t y p a).launches = s.launches := by unfold State.trace; split <;> simp
@[simp] theorem State.trace_nextLaunch (s : State) (t : TeamId) (y p a : Nat) : (s.trace t y p a).nextLaunch = s.nextLaunch := by unfold State.trace; split <;> simp
@[simp] theorem State.trace_shards (s : State) (t : TeamId) (y p a : Nat) : (s.trace t y p a).shards = s.shards := by unfold State.trace; split <;> simp
@[simp] theorem State.trace_teams (s : State) (t : TeamId) (y p a : Nat) : (s.trace t y p a).teams = s.teams := by unfold State.trace; split <;> simp
@[simp] theorem State.trace_groups (s : State) (t : TeamId) (y p a : Nat) : (s.trace t y p a).groups = s.groups := by unfold State.trace; split <;> simp
@[simp] theorem State.trace_ctrlIret (s : State) (t : TeamId) (y p a : Nat) : (s.trace t y p a).ctrlIret = s.ctrlIret := by unfold State.trace; split <;> simp
@[simp] theorem State.trace_dscratch (s : State) (t : TeamId) (y p a : Nat) : (s.trace t y p a).dscratch = s.dscratch := by unfold State.trace; split <;> simp
@[simp] theorem State.trace_gangs (s : State) (t : TeamId) (y p a : Nat) : (s.trace t y p a).gangs = s.gangs := by unfold State.trace; split <;> simp
@[simp] theorem State.trace_tags (s : State) (t : TeamId) (y p a : Nat) : (s.trace t y p a).tags = s.tags := by unfold State.trace; split <;> simp
@[simp] theorem State.trace_ops (s : State) (t : TeamId) (y p a : Nat) : (s.trace t y p a).ops = s.ops := by unfold State.trace; split <;> simp
@[simp] theorem State.trace_barriers (s : State) (t : TeamId) (y p a : Nat) : (s.trace t y p a).barriers = s.barriers := by unfold State.trace; split <;> simp
@[simp] theorem State.trace_reports (s : State) (t : TeamId) (y p a : Nat) : (s.trace t y p a).reports = s.reports := by unfold State.trace; split <;> simp
@[simp] theorem State.trace_classes (s : State) (t : TeamId) (y p a : Nat) : (s.trace t y p a).classes = s.classes := by unfold State.trace; split <;> simp
@[simp] theorem State.trace_reclass (s : State) (t : TeamId) (y p a : Nat) : (s.trace t y p a).reclass = s.reclass := by unfold State.trace; split <;> simp
@[simp] theorem State.trace_tlb (s : State) (t : TeamId) (y p a : Nat) : (s.trace t y p a).tlb = s.tlb := by unfold State.trace; split <;> simp
@[simp] theorem State.trace_walkCache (s : State) (t : TeamId) (y p a : Nat) : (s.trace t y p a).walkCache = s.walkCache := by unfold State.trace; split <;> simp
@[simp] theorem State.trace_constLines (s : State) (t : TeamId) (y p a : Nat) : (s.trace t y p a).constLines = s.constLines := by unfold State.trace; split <;> simp
@[simp] theorem State.trace_net (s : State) (t : TeamId) (y p a : Nat) : (s.trace t y p a).net = s.net := by unfold State.trace; split <;> simp
@[simp] theorem State.trace_hostLines (s : State) (t : TeamId) (y p a : Nat) : (s.trace t y p a).hostLines = s.hostLines := by unfold State.trace; split <;> simp
@[simp] theorem State.trace_hostStalls (s : State) (t : TeamId) (y p a : Nat) : (s.trace t y p a).hostStalls = s.hostStalls := by unfold State.trace; split <;> simp
@[simp] theorem State.trace_hostReply (s : State) (t : TeamId) (y p a : Nat) : (s.trace t y p a).hostReply = s.hostReply := by unfold State.trace; split <;> simp
@[simp] theorem State.trace_links (s : State) (t : TeamId) (y p a : Nat) : (s.trace t y p a).links = s.links := by unfold State.trace; split <;> simp
@[simp] theorem State.trace_collections (s : State) (t : TeamId) (y p a : Nat) : (s.trace t y p a).collections = s.collections := by unfold State.trace; split <;> simp
@[simp] theorem State.trace_nextCollection (s : State) (t : TeamId) (y p a : Nat) : (s.trace t y p a).nextCollection = s.nextCollection := by unfold State.trace; split <;> simp
@[simp] theorem State.trace_savedScratch (s : State) (t : TeamId) (y p a : Nat) : (s.trace t y p a).savedScratch = s.savedScratch := by unfold State.trace; split <;> simp
@[simp] theorem State.trace_saveOrder (s : State) (t : TeamId) (y p a : Nat) : (s.trace t y p a).saveOrder = s.saveOrder := by unfold State.trace; split <;> simp
@[simp] theorem State.trace_reservations (s : State) (t : TeamId) (y p a : Nat) : (s.trace t y p a).reservations = s.reservations := by unfold State.trace; split <;> simp
@[simp] theorem State.trace_waitingNb (s : State) (t : TeamId) (y p a : Nat) : (s.trace t y p a).waitingNb = s.waitingNb := by unfold State.trace; split <;> simp
@[simp] theorem State.trace_imageAreas (s : State) (t : TeamId) (y p a : Nat) : (s.trace t y p a).imageAreas = s.imageAreas := by unfold State.trace; split <;> simp
@[simp] theorem State.trace_drogue (s : State) (t : TeamId) (y p a : Nat) : (s.trace t y p a).drogue = s.drogue := by unfold State.trace; split <;> simp
@[simp] theorem State.trace_counts (s : State) (t : TeamId) (y p a : Nat) : (s.trace t y p a).counts = s.counts := by unfold State.trace; split <;> simp
@[simp] theorem State.trace_arrayErrors (s : State) (t : TeamId) (y p a : Nat) : (s.trace t y p a).arrayErrors = s.arrayErrors := by unfold State.trace; split <;> simp
@[simp] theorem State.trace_usedSpares (s : State) (t : TeamId) (y p a : Nat) : (s.trace t y p a).usedSpares = s.usedSpares := by unfold State.trace; split <;> simp
@[simp] theorem State.trace_lost (s : State) (t : TeamId) (y p a : Nat) : (s.trace t y p a).lost = s.lost := by unfold State.trace; split <;> simp
@[simp] theorem State.trace_deadStacks (s : State) (t : TeamId) (y p a : Nat) : (s.trace t y p a).deadStacks = s.deadStacks := by unfold State.trace; split <;> simp
@[simp] theorem State.trace_leafStops (s : State) (t : TeamId) (y p a : Nat) : (s.trace t y p a).leafStops = s.leafStops := by unfold State.trace; split <;> simp
@[simp] theorem State.trace_flushDue (s : State) (t : TeamId) (y p a : Nat) : (s.trace t y p a).flushDue = s.flushDue := by unfold State.trace; split <;> simp
@[simp] theorem State.trace_defects (s : State) (t : TeamId) (y p a : Nat) : (s.trace t y p a).defects = s.defects := by unfold State.trace; split <;> simp
@[simp] theorem State.trace_moves (s : State) (t : TeamId) (y p a : Nat) : (s.trace t y p a).moves = s.moves := by unfold State.trace; split <;> simp

/-! ## block -/

@[simp] theorem State.block_agenda (s : State) (i : StreamId) (w : Wait) : (s.block i w).agenda = s.agenda := by unfold State.block; simp
@[simp] theorem State.block_cur (s : State) (i : StreamId) (w : Wait) : (s.block i w).cur = s.cur := by unfold State.block; simp
@[simp] theorem State.block_limit (s : State) (i : StreamId) (w : Wait) : (s.block i w).limit = s.limit := by unfold State.block; simp
@[simp] theorem State.block_migrating (s : State) (i : StreamId) (w : Wait) : (s.block i w).migrating = s.migrating := by unfold State.block; simp
@[simp] theorem State.block_statDue (s : State) (i : StreamId) (w : Wait) : (s.block i w).statDue = s.statDue := by unfold State.block; simp
@[simp] theorem State.block_qcmdDue (s : State) (i : StreamId) (w : Wait) : (s.block i w).qcmdDue = s.qcmdDue := by unfold State.block; simp
@[simp] theorem State.block_freeCount (s : State) (i : StreamId) (w : Wait) : (s.block i w).freeCount = s.freeCount := by unfold State.block; simp
@[simp] theorem State.block_readySeq (s : State) (i : StreamId) (w : Wait) : (s.block i w).readySeq = s.readySeq := by unfold State.block; simp
@[simp] theorem State.block_takeSeq (s : State) (i : StreamId) (w : Wait) : (s.block i w).takeSeq = s.takeSeq := by unfold State.block; simp
@[simp] theorem State.block_clock (s : State) (i : StreamId) (w : Wait) : (s.block i w).clock = s.clock := by unfold State.block; simp
@[simp] theorem State.block_mem (s : State) (i : StreamId) (w : Wait) : (s.block i w).mem = s.mem := by unfold State.block; simp
@[simp] theorem State.block_poison (s : State) (i : StreamId) (w : Wait) : (s.block i w).poison = s.poison := by unfold State.block; simp
@[simp] theorem State.block_fw (s : State) (i : StreamId) (w : Wait) : (s.block i w).fw = s.fw := by unfold State.block; simp
@[simp] theorem State.block_fwacc (s : State) (i : StreamId) (w : Wait) : (s.block i w).fwacc = s.fwacc := by unfold State.block; simp
@[simp] theorem State.block_qtbase (s : State) (i : StreamId) (w : Wait) : (s.block i w).qtbase = s.qtbase := by unfold State.block; simp
@[simp] theorem State.block_qtsize (s : State) (i : StreamId) (w : Wait) : (s.block i w).qtsize = s.qtsize := by unfold State.block; simp
@[simp] theorem State.block_qstat (s : State) (i : StreamId) (w : Wait) : (s.block i w).qstat = s.qstat := by unfold State.block; simp
@[simp] theorem State.block_mstate (s : State) (i : StreamId) (w : Wait) : (s.block i w).mstate = s.mstate := by unfold State.block; simp
@[simp] theorem State.block_asidbase (s : State) (i : StreamId) (w : Wait) : (s.block i w).asidbase = s.asidbase := by unfold State.block; simp
@[simp] theorem State.block_bstate (s : State) (i : StreamId) (w : Wait) : (s.block i w).bstate = s.bstate := by unfold State.block; simp
@[simp] theorem State.block_up (s : State) (i : StreamId) (w : Wait) : (s.block i w).up = s.up := by unfold State.block; simp
@[simp] theorem State.block_firmware (s : State) (i : StreamId) (w : Wait) : (s.block i w).firmware = s.firmware := by unfold State.block; simp
@[simp] theorem State.block_mbCode (s : State) (i : StreamId) (w : Wait) : (s.block i w).mbCode = s.mbCode := by unfold State.block; simp
@[simp] theorem State.block_mbErr (s : State) (i : StreamId) (w : Wait) : (s.block i w).mbErr = s.mbErr := by unfold State.block; simp
@[simp] theorem State.block_mbBusy (s : State) (i : StreamId) (w : Wait) : (s.block i w).mbBusy = s.mbBusy := by unfold State.block; simp
@[simp] theorem State.block_mbarg (s : State) (i : StreamId) (w : Wait) : (s.block i w).mbarg = s.mbarg := by unfold State.block; simp
@[simp] theorem State.block_sensors (s : State) (i : StreamId) (w : Wait) : (s.block i w).sensors = s.sensors := by unfold State.block; simp
@[simp] theorem State.block_mhz (s : State) (i : StreamId) (w : Wait) : (s.block i w).mhz = s.mhz := by unfold State.block; simp
@[simp] theorem State.block_sensorsDue (s : State) (i : StreamId) (w : Wait) : (s.block i w).sensorsDue = s.sensorsDue := by unfold State.block; simp
@[simp] theorem State.block_hotFor (s : State) (i : StreamId) (w : Wait) : (s.block i w).hotFor = s.hotFor := by unfold State.block; simp
@[simp] theorem State.block_coolFor (s : State) (i : StreamId) (w : Wait) : (s.block i w).coolFor = s.coolFor := by unfold State.block; simp
@[simp] theorem State.block_alerts (s : State) (i : StreamId) (w : Wait) : (s.block i w).alerts = s.alerts := by unfold State.block; simp
@[simp] theorem State.block_alertIx (s : State) (i : StreamId) (w : Wait) : (s.block i w).alertIx = s.alertIx := by unfold State.block; simp
@[simp] theorem State.block_interrupts (s : State) (i : StreamId) (w : Wait) : (s.block i w).interrupts = s.interrupts := by unfold State.block; simp
@[simp] theorem State.block_signedSeq (s : State) (i : StreamId) (w : Wait) : (s.block i w).signedSeq = s.signedSeq := by unfold State.block; simp
@[simp] theorem State.block_errlog (s : State) (i : StreamId) (w : Wait) : (s.block i w).errlog = s.errlog := by unfold State.block; simp
@[simp] theorem State.block_ports (s : State) (i : StreamId) (w : Wait) : (s.block i w).ports = s.ports := by unfold State.block; simp
@[simp] theorem State.block_iodLinkDown (s : State) (i : StreamId) (w : Wait) : (s.block i w).iodLinkDown = s.iodLinkDown := by unfold State.block; simp
@[simp] theorem State.block_supply (s : State) (i : StreamId) (w : Wait) : (s.block i w).supply = s.supply := by unfold State.block; simp
@[simp] theorem State.block_energyLow (s : State) (i : StreamId) (w : Wait) : (s.block i w).energyLow = s.energyLow := by unfold State.block; simp
@[simp] theorem State.block_flash (s : State) (i : StreamId) (w : Wait) : (s.block i w).flash = s.flash := by unfold State.block; simp
@[simp] theorem State.block_gangSeq (s : State) (i : StreamId) (w : Wait) : (s.block i w).gangSeq = s.gangSeq := by unfold State.block; simp
@[simp] theorem State.block_startSeq (s : State) (i : StreamId) (w : Wait) : (s.block i w).startSeq = s.startSeq := by unfold State.block; simp
@[simp] theorem State.block_rlslots (s : State) (i : StreamId) (w : Wait) : (s.block i w).rlslots = s.rlslots := by unfold State.block; simp
@[simp] theorem State.block_partitions (s : State) (i : StreamId) (w : Wait) : (s.block i w).partitions = s.partitions := by unfold State.block; simp
@[simp] theorem State.block_coreMaps (s : State) (i : StreamId) (w : Wait) : (s.block i w).coreMaps = s.coreMaps := by unfold State.block; simp
@[simp] theorem State.block_noMatrix (s : State) (i : StreamId) (w : Wait) : (s.block i w).noMatrix = s.noMatrix := by unfold State.block; simp
@[simp] theorem State.block_asids (s : State) (i : StreamId) (w : Wait) : (s.block i w).asids = s.asids := by unfold State.block; simp
@[simp] theorem State.block_queues (s : State) (i : StreamId) (w : Wait) : (s.block i w).queues = s.queues := by unfold State.block; simp
@[simp] theorem State.block_turnProc (s : State) (i : StreamId) (w : Wait) : (s.block i w).turnProc = s.turnProc := by unfold State.block; simp
@[simp] theorem State.block_turnStart (s : State) (i : StreamId) (w : Wait) : (s.block i w).turnStart = s.turnStart := by unfold State.block; simp
@[simp] theorem State.block_turnNext (s : State) (i : StreamId) (w : Wait) : (s.block i w).turnNext = s.turnNext := by unfold State.block; simp
@[simp] theorem State.block_nextOrder (s : State) (i : StreamId) (w : Wait) : (s.block i w).nextOrder = s.nextOrder := by unfold State.block; simp
@[simp] theorem State.block_launches (s : State) (i : StreamId) (w : Wait) : (s.block i w).launches = s.launches := by unfold State.block; simp
@[simp] theorem State.block_nextLaunch (s : State) (i : StreamId) (w : Wait) : (s.block i w).nextLaunch = s.nextLaunch := by unfold State.block; simp
@[simp] theorem State.block_shards (s : State) (i : StreamId) (w : Wait) : (s.block i w).shards = s.shards := by unfold State.block; simp
@[simp] theorem State.block_cores (s : State) (i : StreamId) (w : Wait) : (s.block i w).cores = s.cores := by unfold State.block; simp
@[simp] theorem State.block_ctrlIret (s : State) (i : StreamId) (w : Wait) : (s.block i w).ctrlIret = s.ctrlIret := by unfold State.block; simp
@[simp] theorem State.block_dscratch (s : State) (i : StreamId) (w : Wait) : (s.block i w).dscratch = s.dscratch := by unfold State.block; simp
@[simp] theorem State.block_gangs (s : State) (i : StreamId) (w : Wait) : (s.block i w).gangs = s.gangs := by unfold State.block; simp
@[simp] theorem State.block_tags (s : State) (i : StreamId) (w : Wait) : (s.block i w).tags = s.tags := by unfold State.block; simp
@[simp] theorem State.block_ops (s : State) (i : StreamId) (w : Wait) : (s.block i w).ops = s.ops := by unfold State.block; simp
@[simp] theorem State.block_barriers (s : State) (i : StreamId) (w : Wait) : (s.block i w).barriers = s.barriers := by unfold State.block; simp
@[simp] theorem State.block_reports (s : State) (i : StreamId) (w : Wait) : (s.block i w).reports = s.reports := by unfold State.block; simp
@[simp] theorem State.block_classes (s : State) (i : StreamId) (w : Wait) : (s.block i w).classes = s.classes := by unfold State.block; simp
@[simp] theorem State.block_reclass (s : State) (i : StreamId) (w : Wait) : (s.block i w).reclass = s.reclass := by unfold State.block; simp
@[simp] theorem State.block_tlb (s : State) (i : StreamId) (w : Wait) : (s.block i w).tlb = s.tlb := by unfold State.block; simp
@[simp] theorem State.block_walkCache (s : State) (i : StreamId) (w : Wait) : (s.block i w).walkCache = s.walkCache := by unfold State.block; simp
@[simp] theorem State.block_dir (s : State) (i : StreamId) (w : Wait) : (s.block i w).dir = s.dir := by unfold State.block; simp
@[simp] theorem State.block_l1 (s : State) (i : StreamId) (w : Wait) : (s.block i w).l1 = s.l1 := by unfold State.block; simp
@[simp] theorem State.block_constLines (s : State) (i : StreamId) (w : Wait) : (s.block i w).constLines = s.constLines := by unfold State.block; simp
@[simp] theorem State.block_net (s : State) (i : StreamId) (w : Wait) : (s.block i w).net = s.net := by unfold State.block; simp
@[simp] theorem State.block_hostLines (s : State) (i : StreamId) (w : Wait) : (s.block i w).hostLines = s.hostLines := by unfold State.block; simp
@[simp] theorem State.block_hostStalls (s : State) (i : StreamId) (w : Wait) : (s.block i w).hostStalls = s.hostStalls := by unfold State.block; simp
@[simp] theorem State.block_hostReply (s : State) (i : StreamId) (w : Wait) : (s.block i w).hostReply = s.hostReply := by unfold State.block; simp
@[simp] theorem State.block_links (s : State) (i : StreamId) (w : Wait) : (s.block i w).links = s.links := by unfold State.block; simp
@[simp] theorem State.block_collections (s : State) (i : StreamId) (w : Wait) : (s.block i w).collections = s.collections := by unfold State.block; simp
@[simp] theorem State.block_nextCollection (s : State) (i : StreamId) (w : Wait) : (s.block i w).nextCollection = s.nextCollection := by unfold State.block; simp
@[simp] theorem State.block_savedScratch (s : State) (i : StreamId) (w : Wait) : (s.block i w).savedScratch = s.savedScratch := by unfold State.block; simp
@[simp] theorem State.block_saveOrder (s : State) (i : StreamId) (w : Wait) : (s.block i w).saveOrder = s.saveOrder := by unfold State.block; simp
@[simp] theorem State.block_reservations (s : State) (i : StreamId) (w : Wait) : (s.block i w).reservations = s.reservations := by unfold State.block; simp
@[simp] theorem State.block_waitingNb (s : State) (i : StreamId) (w : Wait) : (s.block i w).waitingNb = s.waitingNb := by unfold State.block; simp
@[simp] theorem State.block_imageAreas (s : State) (i : StreamId) (w : Wait) : (s.block i w).imageAreas = s.imageAreas := by unfold State.block; simp
@[simp] theorem State.block_drogue (s : State) (i : StreamId) (w : Wait) : (s.block i w).drogue = s.drogue := by unfold State.block; simp
@[simp] theorem State.block_counts (s : State) (i : StreamId) (w : Wait) : (s.block i w).counts = s.counts := by unfold State.block; simp
@[simp] theorem State.block_arrayErrors (s : State) (i : StreamId) (w : Wait) : (s.block i w).arrayErrors = s.arrayErrors := by unfold State.block; simp
@[simp] theorem State.block_usedSpares (s : State) (i : StreamId) (w : Wait) : (s.block i w).usedSpares = s.usedSpares := by unfold State.block; simp
@[simp] theorem State.block_lost (s : State) (i : StreamId) (w : Wait) : (s.block i w).lost = s.lost := by unfold State.block; simp
@[simp] theorem State.block_deadStacks (s : State) (i : StreamId) (w : Wait) : (s.block i w).deadStacks = s.deadStacks := by unfold State.block; simp
@[simp] theorem State.block_leafStops (s : State) (i : StreamId) (w : Wait) : (s.block i w).leafStops = s.leafStops := by unfold State.block; simp
@[simp] theorem State.block_flushDue (s : State) (i : StreamId) (w : Wait) : (s.block i w).flushDue = s.flushDue := by unfold State.block; simp
@[simp] theorem State.block_defects (s : State) (i : StreamId) (w : Wait) : (s.block i w).defects = s.defects := by unfold State.block; simp
@[simp] theorem State.block_moves (s : State) (i : StreamId) (w : Wait) : (s.block i w).moves = s.moves := by unfold State.block; simp

/-! ## unblock -/

@[simp] theorem State.unblock_agenda (s : State) (i : StreamId) : (s.unblock i).agenda = s.agenda := by unfold State.unblock; simp
@[simp] theorem State.unblock_cur (s : State) (i : StreamId) : (s.unblock i).cur = s.cur := by unfold State.unblock; simp
@[simp] theorem State.unblock_limit (s : State) (i : StreamId) : (s.unblock i).limit = s.limit := by unfold State.unblock; simp
@[simp] theorem State.unblock_migrating (s : State) (i : StreamId) : (s.unblock i).migrating = s.migrating := by unfold State.unblock; simp
@[simp] theorem State.unblock_statDue (s : State) (i : StreamId) : (s.unblock i).statDue = s.statDue := by unfold State.unblock; simp
@[simp] theorem State.unblock_qcmdDue (s : State) (i : StreamId) : (s.unblock i).qcmdDue = s.qcmdDue := by unfold State.unblock; simp
@[simp] theorem State.unblock_freeCount (s : State) (i : StreamId) : (s.unblock i).freeCount = s.freeCount := by unfold State.unblock; simp
@[simp] theorem State.unblock_readySeq (s : State) (i : StreamId) : (s.unblock i).readySeq = s.readySeq := by unfold State.unblock; simp
@[simp] theorem State.unblock_takeSeq (s : State) (i : StreamId) : (s.unblock i).takeSeq = s.takeSeq := by unfold State.unblock; simp
@[simp] theorem State.unblock_clock (s : State) (i : StreamId) : (s.unblock i).clock = s.clock := by unfold State.unblock; simp
@[simp] theorem State.unblock_mem (s : State) (i : StreamId) : (s.unblock i).mem = s.mem := by unfold State.unblock; simp
@[simp] theorem State.unblock_poison (s : State) (i : StreamId) : (s.unblock i).poison = s.poison := by unfold State.unblock; simp
@[simp] theorem State.unblock_fw (s : State) (i : StreamId) : (s.unblock i).fw = s.fw := by unfold State.unblock; simp
@[simp] theorem State.unblock_fwacc (s : State) (i : StreamId) : (s.unblock i).fwacc = s.fwacc := by unfold State.unblock; simp
@[simp] theorem State.unblock_qtbase (s : State) (i : StreamId) : (s.unblock i).qtbase = s.qtbase := by unfold State.unblock; simp
@[simp] theorem State.unblock_qtsize (s : State) (i : StreamId) : (s.unblock i).qtsize = s.qtsize := by unfold State.unblock; simp
@[simp] theorem State.unblock_qstat (s : State) (i : StreamId) : (s.unblock i).qstat = s.qstat := by unfold State.unblock; simp
@[simp] theorem State.unblock_mstate (s : State) (i : StreamId) : (s.unblock i).mstate = s.mstate := by unfold State.unblock; simp
@[simp] theorem State.unblock_asidbase (s : State) (i : StreamId) : (s.unblock i).asidbase = s.asidbase := by unfold State.unblock; simp
@[simp] theorem State.unblock_bstate (s : State) (i : StreamId) : (s.unblock i).bstate = s.bstate := by unfold State.unblock; simp
@[simp] theorem State.unblock_up (s : State) (i : StreamId) : (s.unblock i).up = s.up := by unfold State.unblock; simp
@[simp] theorem State.unblock_firmware (s : State) (i : StreamId) : (s.unblock i).firmware = s.firmware := by unfold State.unblock; simp
@[simp] theorem State.unblock_mbCode (s : State) (i : StreamId) : (s.unblock i).mbCode = s.mbCode := by unfold State.unblock; simp
@[simp] theorem State.unblock_mbErr (s : State) (i : StreamId) : (s.unblock i).mbErr = s.mbErr := by unfold State.unblock; simp
@[simp] theorem State.unblock_mbBusy (s : State) (i : StreamId) : (s.unblock i).mbBusy = s.mbBusy := by unfold State.unblock; simp
@[simp] theorem State.unblock_mbarg (s : State) (i : StreamId) : (s.unblock i).mbarg = s.mbarg := by unfold State.unblock; simp
@[simp] theorem State.unblock_sensors (s : State) (i : StreamId) : (s.unblock i).sensors = s.sensors := by unfold State.unblock; simp
@[simp] theorem State.unblock_mhz (s : State) (i : StreamId) : (s.unblock i).mhz = s.mhz := by unfold State.unblock; simp
@[simp] theorem State.unblock_sensorsDue (s : State) (i : StreamId) : (s.unblock i).sensorsDue = s.sensorsDue := by unfold State.unblock; simp
@[simp] theorem State.unblock_hotFor (s : State) (i : StreamId) : (s.unblock i).hotFor = s.hotFor := by unfold State.unblock; simp
@[simp] theorem State.unblock_coolFor (s : State) (i : StreamId) : (s.unblock i).coolFor = s.coolFor := by unfold State.unblock; simp
@[simp] theorem State.unblock_alerts (s : State) (i : StreamId) : (s.unblock i).alerts = s.alerts := by unfold State.unblock; simp
@[simp] theorem State.unblock_alertIx (s : State) (i : StreamId) : (s.unblock i).alertIx = s.alertIx := by unfold State.unblock; simp
@[simp] theorem State.unblock_interrupts (s : State) (i : StreamId) : (s.unblock i).interrupts = s.interrupts := by unfold State.unblock; simp
@[simp] theorem State.unblock_signedSeq (s : State) (i : StreamId) : (s.unblock i).signedSeq = s.signedSeq := by unfold State.unblock; simp
@[simp] theorem State.unblock_errlog (s : State) (i : StreamId) : (s.unblock i).errlog = s.errlog := by unfold State.unblock; simp
@[simp] theorem State.unblock_ports (s : State) (i : StreamId) : (s.unblock i).ports = s.ports := by unfold State.unblock; simp
@[simp] theorem State.unblock_iodLinkDown (s : State) (i : StreamId) : (s.unblock i).iodLinkDown = s.iodLinkDown := by unfold State.unblock; simp
@[simp] theorem State.unblock_supply (s : State) (i : StreamId) : (s.unblock i).supply = s.supply := by unfold State.unblock; simp
@[simp] theorem State.unblock_energyLow (s : State) (i : StreamId) : (s.unblock i).energyLow = s.energyLow := by unfold State.unblock; simp
@[simp] theorem State.unblock_flash (s : State) (i : StreamId) : (s.unblock i).flash = s.flash := by unfold State.unblock; simp
@[simp] theorem State.unblock_gangSeq (s : State) (i : StreamId) : (s.unblock i).gangSeq = s.gangSeq := by unfold State.unblock; simp
@[simp] theorem State.unblock_startSeq (s : State) (i : StreamId) : (s.unblock i).startSeq = s.startSeq := by unfold State.unblock; simp
@[simp] theorem State.unblock_rlslots (s : State) (i : StreamId) : (s.unblock i).rlslots = s.rlslots := by unfold State.unblock; simp
@[simp] theorem State.unblock_partitions (s : State) (i : StreamId) : (s.unblock i).partitions = s.partitions := by unfold State.unblock; simp
@[simp] theorem State.unblock_coreMaps (s : State) (i : StreamId) : (s.unblock i).coreMaps = s.coreMaps := by unfold State.unblock; simp
@[simp] theorem State.unblock_noMatrix (s : State) (i : StreamId) : (s.unblock i).noMatrix = s.noMatrix := by unfold State.unblock; simp
@[simp] theorem State.unblock_asids (s : State) (i : StreamId) : (s.unblock i).asids = s.asids := by unfold State.unblock; simp
@[simp] theorem State.unblock_queues (s : State) (i : StreamId) : (s.unblock i).queues = s.queues := by unfold State.unblock; simp
@[simp] theorem State.unblock_turnProc (s : State) (i : StreamId) : (s.unblock i).turnProc = s.turnProc := by unfold State.unblock; simp
@[simp] theorem State.unblock_turnStart (s : State) (i : StreamId) : (s.unblock i).turnStart = s.turnStart := by unfold State.unblock; simp
@[simp] theorem State.unblock_turnNext (s : State) (i : StreamId) : (s.unblock i).turnNext = s.turnNext := by unfold State.unblock; simp
@[simp] theorem State.unblock_nextOrder (s : State) (i : StreamId) : (s.unblock i).nextOrder = s.nextOrder := by unfold State.unblock; simp
@[simp] theorem State.unblock_launches (s : State) (i : StreamId) : (s.unblock i).launches = s.launches := by unfold State.unblock; simp
@[simp] theorem State.unblock_nextLaunch (s : State) (i : StreamId) : (s.unblock i).nextLaunch = s.nextLaunch := by unfold State.unblock; simp
@[simp] theorem State.unblock_shards (s : State) (i : StreamId) : (s.unblock i).shards = s.shards := by unfold State.unblock; simp
@[simp] theorem State.unblock_cores (s : State) (i : StreamId) : (s.unblock i).cores = s.cores := by unfold State.unblock; simp
@[simp] theorem State.unblock_ctrlIret (s : State) (i : StreamId) : (s.unblock i).ctrlIret = s.ctrlIret := by unfold State.unblock; simp
@[simp] theorem State.unblock_dscratch (s : State) (i : StreamId) : (s.unblock i).dscratch = s.dscratch := by unfold State.unblock; simp
@[simp] theorem State.unblock_gangs (s : State) (i : StreamId) : (s.unblock i).gangs = s.gangs := by unfold State.unblock; simp
@[simp] theorem State.unblock_tags (s : State) (i : StreamId) : (s.unblock i).tags = s.tags := by unfold State.unblock; simp
@[simp] theorem State.unblock_ops (s : State) (i : StreamId) : (s.unblock i).ops = s.ops := by unfold State.unblock; simp
@[simp] theorem State.unblock_barriers (s : State) (i : StreamId) : (s.unblock i).barriers = s.barriers := by unfold State.unblock; simp
@[simp] theorem State.unblock_reports (s : State) (i : StreamId) : (s.unblock i).reports = s.reports := by unfold State.unblock; simp
@[simp] theorem State.unblock_classes (s : State) (i : StreamId) : (s.unblock i).classes = s.classes := by unfold State.unblock; simp
@[simp] theorem State.unblock_reclass (s : State) (i : StreamId) : (s.unblock i).reclass = s.reclass := by unfold State.unblock; simp
@[simp] theorem State.unblock_tlb (s : State) (i : StreamId) : (s.unblock i).tlb = s.tlb := by unfold State.unblock; simp
@[simp] theorem State.unblock_walkCache (s : State) (i : StreamId) : (s.unblock i).walkCache = s.walkCache := by unfold State.unblock; simp
@[simp] theorem State.unblock_dir (s : State) (i : StreamId) : (s.unblock i).dir = s.dir := by unfold State.unblock; simp
@[simp] theorem State.unblock_l1 (s : State) (i : StreamId) : (s.unblock i).l1 = s.l1 := by unfold State.unblock; simp
@[simp] theorem State.unblock_constLines (s : State) (i : StreamId) : (s.unblock i).constLines = s.constLines := by unfold State.unblock; simp
@[simp] theorem State.unblock_net (s : State) (i : StreamId) : (s.unblock i).net = s.net := by unfold State.unblock; simp
@[simp] theorem State.unblock_hostLines (s : State) (i : StreamId) : (s.unblock i).hostLines = s.hostLines := by unfold State.unblock; simp
@[simp] theorem State.unblock_hostStalls (s : State) (i : StreamId) : (s.unblock i).hostStalls = s.hostStalls := by unfold State.unblock; simp
@[simp] theorem State.unblock_hostReply (s : State) (i : StreamId) : (s.unblock i).hostReply = s.hostReply := by unfold State.unblock; simp
@[simp] theorem State.unblock_links (s : State) (i : StreamId) : (s.unblock i).links = s.links := by unfold State.unblock; simp
@[simp] theorem State.unblock_collections (s : State) (i : StreamId) : (s.unblock i).collections = s.collections := by unfold State.unblock; simp
@[simp] theorem State.unblock_nextCollection (s : State) (i : StreamId) : (s.unblock i).nextCollection = s.nextCollection := by unfold State.unblock; simp
@[simp] theorem State.unblock_savedScratch (s : State) (i : StreamId) : (s.unblock i).savedScratch = s.savedScratch := by unfold State.unblock; simp
@[simp] theorem State.unblock_saveOrder (s : State) (i : StreamId) : (s.unblock i).saveOrder = s.saveOrder := by unfold State.unblock; simp
@[simp] theorem State.unblock_reservations (s : State) (i : StreamId) : (s.unblock i).reservations = s.reservations := by unfold State.unblock; simp
@[simp] theorem State.unblock_waitingNb (s : State) (i : StreamId) : (s.unblock i).waitingNb = s.waitingNb := by unfold State.unblock; simp
@[simp] theorem State.unblock_imageAreas (s : State) (i : StreamId) : (s.unblock i).imageAreas = s.imageAreas := by unfold State.unblock; simp
@[simp] theorem State.unblock_drogue (s : State) (i : StreamId) : (s.unblock i).drogue = s.drogue := by unfold State.unblock; simp
@[simp] theorem State.unblock_counts (s : State) (i : StreamId) : (s.unblock i).counts = s.counts := by unfold State.unblock; simp
@[simp] theorem State.unblock_arrayErrors (s : State) (i : StreamId) : (s.unblock i).arrayErrors = s.arrayErrors := by unfold State.unblock; simp
@[simp] theorem State.unblock_usedSpares (s : State) (i : StreamId) : (s.unblock i).usedSpares = s.usedSpares := by unfold State.unblock; simp
@[simp] theorem State.unblock_lost (s : State) (i : StreamId) : (s.unblock i).lost = s.lost := by unfold State.unblock; simp
@[simp] theorem State.unblock_deadStacks (s : State) (i : StreamId) : (s.unblock i).deadStacks = s.deadStacks := by unfold State.unblock; simp
@[simp] theorem State.unblock_leafStops (s : State) (i : StreamId) : (s.unblock i).leafStops = s.leafStops := by unfold State.unblock; simp
@[simp] theorem State.unblock_flushDue (s : State) (i : StreamId) : (s.unblock i).flushDue = s.flushDue := by unfold State.unblock; simp
@[simp] theorem State.unblock_defects (s : State) (i : StreamId) : (s.unblock i).defects = s.defects := by unfold State.unblock; simp
@[simp] theorem State.unblock_moves (s : State) (i : StreamId) : (s.unblock i).moves = s.moves := by unfold State.unblock; simp

end Sys2Proof.Machine
end

