-- ==== Sys2Proof/Laws/Store.lean ====
section
/-! SUPPORT. The laws of sparse tables and memories: reading after writing, and the canonical form that every write keeps. -/

namespace Sys2Proof.Machine

variable {α : Type} [DecidableEq α]

/-! ## One value -/

theorem smWfFrom_cons {d : α} {lo : Option Nat} {k : Nat} {v : α} {m : SMap α} :
    smWfFrom d lo ((k, v) :: m) = true ↔ (∀ l, lo = some l → l < k) ∧ v ≠ d ∧ smWfFrom d (some k) m = true := by
  cases lo <;> simp [smWfFrom, and_assoc]

/-- The lower bound of a table in canonical form may be lowered. -/
theorem smWfFrom_mono {d : α} {m : SMap α} {lo lo' : Option Nat} (h : smWfFrom d lo m = true)
    (hl : ∀ l', lo' = some l' → ∃ l, lo = some l ∧ l' ≤ l) : smWfFrom d lo' m = true := by
  cases m with
  | nil => rfl
  | cons p m =>
    obtain ⟨k, v⟩ := p
    rw [smWfFrom_cons] at h ⊢
    refine ⟨fun l' e => ?_, h.2⟩
    obtain ⟨l, e', hle⟩ := hl l' e
    exact Nat.lt_of_le_of_lt hle (h.1 l e')

/-- Below its lower bound a table lists nothing. -/
theorem smGet_of_le {d : α} {m : SMap α} {k a : Nat} (h : smWfFrom d (some k) m = true) (ha : a ≤ k) : smGet d m a = d := by
  cases m with
  | nil => rfl
  | cons p m =>
    obtain ⟨k', v⟩ := p
    rw [smWfFrom_cons] at h
    have := h.1 k rfl
    simp [smGet, show a ≠ k' by omega, show a < k' by omega]

theorem smGet_smSet_from {d : α} {lo : Option Nat} {m : SMap α} (h : smWfFrom d lo m = true) (a b : Nat) (v : α) :
    smGet d (smSet d m a v) b = if b = a then v else smGet d m b := by
  induction m generalizing lo with
  | nil =>
    by_cases hv : v = d
    · simp [smSet, hv, smGet]
    · by_cases hb : b = a <;> simp [smSet, hv, smGet, hb]
  | cons p m ih =>
    obtain ⟨k, w⟩ := p
    rw [smWfFrom_cons] at h
    obtain ⟨h1, h2, h3⟩ := h
    by_cases hak : a < k
    · by_cases hv : v = d
      · subst hv
        by_cases hb : b = a
        · subst hb; simp [smSet, hak, smGet, show b ≠ k by omega]
        · simp [smSet, hak, hb]
      · by_cases hb : b = a
        · simp [smSet, hak, hv, hb, smGet]
        · by_cases hlt : b < a
          · simp [smSet, hak, hv, hb, smGet, hlt, show b ≠ k by omega, show b < k by omega]
          · simp [smSet, hak, hv, hb, smGet, hlt]
    · by_cases hk : a = k
      · subst hk
        by_cases hv : v = d
        · subst hv
          by_cases hb : b = a
          · subst hb; simp [smSet, smGet_of_le h3 (Nat.le_refl _)]
          · by_cases hlt : b < a
            · simp [smSet, smGet, hb, hlt, smGet_of_le h3 (Nat.le_of_lt hlt)]
            · simp [smSet, smGet, hb, hlt]
        · by_cases hb : b = a <;> simp [smSet, hv, smGet, hb]
      · by_cases hb : b = k
        · subst hb; simp [smSet, hak, hk, smGet, show b ≠ a by omega]
        · by_cases hlt : b < k
          · simp [smSet, hak, hk, smGet, hb, hlt, show b ≠ a by omega]
          · simp [smSet, hak, hk, smGet, hb, hlt, ih h3]

/-- Reading a table after one value was replaced. -/
theorem smGet_smSet {d : α} {m : SMap α} (h : smWf d m = true) (a b : Nat) (v : α) :
    smGet d (smSet d m a v) b = if b = a then v else smGet d m b := smGet_smSet_from h a b v

/-- A table's values at keys that a filter keeps. -/
theorem smGet_filter {d : α} {lo : Option Nat} {m : SMap α} (h : smWfFrom d lo m = true) (p : Nat → Bool) (a : Nat) (ha : p a = true) :
    smGet d (m.filter (fun c => p c.1)) a = smGet d m a := by
  induction m generalizing lo with
  | nil => rfl
  | cons c m ih =>
    obtain ⟨k, v⟩ := c
    have ht := (smWfFrom_cons.mp h).2.2
    have hi := ih ht
    cases hk : p k with
    | true =>
      rw [List.filter_cons_of_pos (by exact hk)]
      simp only [smGet, hi]
    | false =>
      have hne : a ≠ k := fun e => by rw [e, hk] at ha; exact absurd ha (by decide)
      rw [List.filter_cons_of_neg (by simp [hk]), hi]
      simp only [smGet, hne, if_false]
      split
      · exact smGet_of_le ht (by omega)
      · rfl

/-- Replacing a value above the lower bound keeps the bound and the form. -/
theorem smWfFrom_smSet {d : α} {lo : Option Nat} {m : SMap α} (h : smWfFrom d lo m = true) (a : Nat) (v : α)
    (ha : ∀ l, lo = some l → l < a) : smWfFrom d lo (smSet d m a v) = true := by
  induction m generalizing lo with
  | nil =>
    by_cases hv : v = d
    · simp [smSet, hv, smWfFrom]
    · simp only [smSet, hv, if_false]; rw [smWfFrom_cons]; exact ⟨ha, hv, rfl⟩
  | cons p m ih =>
    obtain ⟨k, w⟩ := p
    have h' := h
    rw [smWfFrom_cons] at h
    obtain ⟨h1, h2, h3⟩ := h
    by_cases hak : a < k
    · by_cases hv : v = d
      · simpa [smSet, hak, hv] using h'
      · simp only [smSet, hak, hv, if_true, if_false]
        rw [smWfFrom_cons, smWfFrom_cons]
        exact ⟨ha, hv, fun l e => by cases e; exact hak, h2, h3⟩
    · by_cases hk : a = k
      · subst hk
        by_cases hv : v = d
        · simp only [smSet, hv, if_true, Nat.lt_irrefl, if_false]
          exact smWfFrom_mono h3 (fun l e => ⟨a, rfl, Nat.le_of_lt (h1 l e)⟩)
        · simp only [smSet, hv, if_true, Nat.lt_irrefl, if_false]
          rw [smWfFrom_cons]; exact ⟨h1, hv, h3⟩
      · simp only [smSet, hak, hk, if_false]
        rw [smWfFrom_cons]
        exact ⟨h1, h2, ih h3 (fun l e => by cases e; omega)⟩

/-- Replacing a value keeps the canonical form. -/
theorem smWf_smSet {d : α} {m : SMap α} (h : smWf d m = true) (a : Nat) (v : α) : smWf d (smSet d m a v) = true :=
  smWfFrom_smSet h a v (fun _ e => by cases e)

/-- Two tables in canonical form that read the same are the same. -/
theorem smWfFrom_ext {d : α} {lo : Option Nat} {m m' : SMap α} (h : smWfFrom d lo m = true) (h' : smWfFrom d lo m' = true)
    (e : ∀ a, smGet d m a = smGet d m' a) : m = m' := by
  induction m generalizing lo m' with
  | nil =>
    cases m' with
    | nil => rfl
    | cons p m' =>
      obtain ⟨k, v⟩ := p
      rw [smWfFrom_cons] at h'
      have := e k
      simp [smGet] at this
      exact absurd this.symm h'.2.1
  | cons p m ih =>
    obtain ⟨k, v⟩ := p
    rw [smWfFrom_cons] at h
    cases m' with
    | nil =>
      have := e k
      simp [smGet] at this
      exact absurd this h.2.1
    | cons p' m' =>
      obtain ⟨k', v'⟩ := p'
      rw [smWfFrom_cons] at h'
      have hk : k = k' := by
        rcases Nat.lt_trichotomy k k' with hlt | heq | hgt
        · have := e k
          simp [smGet, show k ≠ k' by omega, hlt] at this
          exact absurd this h.2.1
        · exact heq
        · have := e k'
          simp [smGet, show k' ≠ k by omega, hgt] at this
          exact absurd this.symm h'.2.1
      subst hk
      have hv : v = v' := by simpa [smGet] using e k
      subst hv
      congr 1
      refine ih h.2.2 h'.2.2 (fun a => ?_)
      by_cases ha : a ≤ k
      · rw [smGet_of_le h.2.2 ha, smGet_of_le h'.2.2 ha]
      · have := e a
        simpa [smGet, show a ≠ k by omega, show ¬a < k by omega] using this

/-! ## Runs of values -/

theorem smWf_smSetList {d : α} {m : SMap α} (h : smWf d m = true) (a : Nat) (vs : List α) : smWf d (smSetList d m a vs) = true := by
  induction vs generalizing m a with
  | nil => exact h
  | cons v vs ih => exact ih (smWf_smSet h a v) _

/-- Reading after a run of values was replaced. -/
theorem smGet_smSetList {d : α} {m : SMap α} (h : smWf d m = true) (a b : Nat) (vs : List α) :
    smGet d (smSetList d m a vs) b = if a ≤ b ∧ b < a + vs.length then vs.getD (b - a) d else smGet d m b := by
  induction vs generalizing m a with
  | nil => simp [smSetList, show ¬(a ≤ b ∧ b < a) by omega]
  | cons v vs ih =>
    simp only [smSetList, ih (smWf_smSet h a v), smGet_smSet h, List.length_cons]
    by_cases h1 : a + 1 ≤ b ∧ b < a + 1 + vs.length
    · have hs : b - a = (b - (a + 1)) + 1 := by omega
      rw [if_pos h1, if_pos (by omega), hs, List.getD_cons_succ]
    · rw [if_neg h1]
      by_cases h2 : b = a
      · subst h2; simp
      · rw [if_neg h2, if_neg (by omega)]

/-- A run of values that was written is read back. -/
theorem smGetList_smSetList {d : α} {m : SMap α} (h : smWf d m = true) (a : Nat) (vs : List α) :
    smGetList d (smSetList d m a vs) a vs.length = vs := by
  suffices H : ∀ (n i : Nat), i + n = vs.length → smGetList d (smSetList d m a vs) (a + i) n = vs.drop i by
    simpa using H vs.length 0 (by omega)
  intro n
  induction n with
  | zero => intro i hi; simp [smGetList, List.drop_eq_nil_of_le (show vs.length ≤ i by omega)]
  | succ n ih =>
    intro i hi
    have hlt : i < vs.length := by omega
    rw [smGetList, Nat.add_assoc, ih (i + 1) (by omega), smGet_smSetList h, if_pos (by omega)]
    rw [show a + i - a = i by omega, List.getD_eq_getElem?_getD, List.getElem?_eq_getElem hlt,
      List.drop_eq_getElem_cons hlt]
    rfl

/-! ## Memories -/

/-- Reading one byte after a write of bytes. -/
theorem Memory.read_writeBytes {m : Memory} (h : m.wf = true) (a b : Nat) (bs : List Byte) :
    (m.writeBytes a bs).read b = if a ≤ b ∧ b < a + bs.length then bs.getD (b - a) 0 else m.read b := smGet_smSetList h a b bs

/-- Bytes outside a write stay. -/
theorem Memory.read_writeBytes_outside {m : Memory} (h : m.wf = true) {a b : Nat} {bs : List Byte}
    (hb : b < a ∨ a + bs.length ≤ b) : (m.writeBytes a bs).read b = m.read b := by
  rw [Memory.read_writeBytes h, if_neg (by omega)]

/-- The bytes of a write are read back. -/
theorem Memory.readBytes_writeBytes {m : Memory} (h : m.wf = true) (a : Nat) (bs : List Byte) :
    (m.writeBytes a bs).readBytes a bs.length = bs := smGetList_smSetList h a bs

/-- A write keeps the canonical form. -/
theorem Memory.wf_write {m : Memory} (h : m.wf = true) (a : Nat) (b : Byte) : (m.write a b).wf = true := smWf_smSet h a b

theorem Memory.wf_writeBytes {m : Memory} (h : m.wf = true) (a : Nat) (bs : List Byte) : (m.writeBytes a bs).wf = true :=
  smWf_smSetList h a bs

/-- Equal memories are equal data. -/
theorem Memory.ext {m m' : Memory} (h : m.wf = true) (h' : m'.wf = true) (e : ∀ a, m.read a = m'.read a) : m = m' :=
  smWfFrom_ext h h' e

@[simp] theorem natBytes_length (n w : Nat) : (natBytes n w).length = n := by
  induction n generalizing w with
  | zero => rfl
  | succ n ih => simp [natBytes, ih]

/-- The little-endian bytes of a number name its low bytes. -/
theorem natOfBytes_natBytes (n w : Nat) : natOfBytes (natBytes n w) = w % 256 ^ n := by
  induction n generalizing w with
  | zero => simp [natBytes, natOfBytes, Nat.mod_one]
  | succ n ih =>
    have : (256 : Nat) ^ (n + 1) = 256 * 256 ^ n := by rw [Nat.pow_succ, Nat.mul_comm]
    simp only [natBytes, natOfBytes, ih, BitVec.toNat_ofNat, this, Nat.mod_mul, Nat.reducePow]

/-! ## Lists of records -/

/-- Looking for an element that is replaced in place, when replacing keeps the test. -/
theorem find?_replaceFirst {β : Type} (p : β → Bool) (g : β → β) (l : List β) (hg : ∀ x, p x = true → p (g x) = true) :
    (replaceFirst p g l).find? p = (l.find? p).map g := by
  induction l with
  | nil => rfl
  | cons x l ih =>
    by_cases h : p x = true
    · simp [replaceFirst, h, hg x h]
    · simp [replaceFirst, h, ih]

/-- Looking for another element. -/
theorem find?_replaceFirst_other {β : Type} (p q : β → Bool) (g : β → β) (l : List β)
    (h : ∀ x, p x = true → q x = false ∧ q (g x) = false) : (replaceFirst p g l).find? q = l.find? q := by
  induction l with
  | nil => rfl
  | cons x l ih =>
    by_cases hp : p x = true
    · simp [replaceFirst, hp, h x hp]
    · by_cases hq : q x = true <;> simp [replaceFirst, hp, hq, ih]

end Sys2Proof.Machine
end

