-- ==== Sys2Proof/Laws/Streams.lean ====
section
/-! SUPPORT. The laws of streams: looking one up after an update, what issuing an instruction comes to, and what
retiring one changes. -/

namespace Sys2Proof.Machine

/-! ## Looking up after an update -/

theorem State.team?_id {s : State} {i : TeamId} {x : Team} (h : s.team? i = some x) : x.id = i := by
  simpa using List.find?_some h

theorem State.group?_cl {s : State} {i : Nat} {g : Group} (h : s.group? i = some g) : g.cl = i := by
  simpa using List.find?_some h

theorem State.team?_mapTeam (s : State) (i : TeamId) (f : Team → Team) (hf : ∀ x, (f x).id = x.id) :
    (s.mapTeam i f).team? i = (s.team? i).map f :=
  find?_replaceFirst _ f s.teams (fun x h => by simpa [hf x] using h)

theorem State.team?_mapTeam_other (s : State) {i j : TeamId} (f : Team → Team) (hf : ∀ x, (f x).id = x.id) (h : j ≠ i) :
    (s.mapTeam i f).team? j = s.team? j :=
  find?_replaceFirst_other _ _ f s.teams (fun x hx => by
    have hx : x.id = i := by simpa using hx
    simp [hf x, hx, Ne.symm h])

theorem State.group?_mapGroup (s : State) (i : Nat) (f : Group → Group) (hf : ∀ x, (f x).cl = x.cl) :
    (s.mapGroup i f).group? i = (s.group? i).map f :=
  find?_replaceFirst _ f s.groups (fun x h => by simpa [hf x] using h)

theorem State.group?_mapGroup_other (s : State) {i j : Nat} (f : Group → Group) (hf : ∀ x, (f x).cl = x.cl) (h : j ≠ i) :
    (s.mapGroup i f).group? j = s.group? j :=
  find?_replaceFirst_other _ _ f s.groups (fun x hx => by
    have hx : x.cl = i := by simpa using hx
    simp [hf x, hx, Ne.symm h])

@[simp] theorem State.team?_mapGroup (s : State) (i : Nat) (f : Group → Group) (j : TeamId) :
    (s.mapGroup i f).team? j = s.team? j := rfl
@[simp] theorem State.group?_mapTeam (s : State) (i : TeamId) (f : Team → Team) (j : Nat) :
    (s.mapTeam i f).group? j = s.group? j := rfl
@[simp] theorem State.team?_mapCore (s : State) (i : Nat) (f : CoreState → CoreState) (j : TeamId) :
    (s.mapCore i f).team? j = s.team? j := rfl
@[simp] theorem State.group?_mapCore (s : State) (i : Nat) (f : CoreState → CoreState) (j : Nat) :
    (s.mapCore i f).group? j = s.group? j := rfl
@[simp] theorem State.team?_countFor (s : State) (st : StreamId) (e n : Nat) (j : TeamId) :
    (s.countFor st e n).team? j = s.team? j := by simp [State.team?]
@[simp] theorem State.group?_countFor (s : State) (st : StreamId) (e n : Nat) (j : Nat) :
    (s.countFor st e n).group? j = s.group? j := by simp [State.group?]
@[simp] theorem State.group?_countRetired (s : State) (st : StreamId) (j : Nat) :
    (s.countRetired st).group? j = s.group? j := by simp [State.group?]
@[simp] theorem State.scalar?_countFor (s : State) (st st' : StreamId) (e n : Nat) :
    (s.countFor st e n).scalar? st' = s.scalar? st' := by cases st' <;> simp [State.scalar?]

theorem State.team?_countRetired (s : State) (st : StreamId) (j : TeamId) : (s.countRetired st).team? j =
    if st = .team j then (s.team? j).map (fun t => { t with instrs := t.instrs + 1 }) else s.team? j := by
  cases st with
  | ctrl cl => rfl
  | team i =>
    by_cases h : i = j
    · subst h
      simp only [State.countRetired, if_true]
      split <;> rw [State.team?_mapTeam _ _ _ (by intro _; rfl)] <;> rfl
    · have hj : j ≠ i := fun e => h e.symm
      simp only [State.countRetired, StreamId.team.injEq, h, if_false]
      split <;> rw [State.team?_mapTeam_other _ _ (by intro _; rfl) hj] <;> rfl

@[simp] theorem State.scalar?_countRetired (s : State) (st st' : StreamId) : (s.countRetired st).scalar? st' = s.scalar? st' := by
  cases st' with
  | ctrl cl => simp [State.scalar?]
  | team i =>
    simp only [State.scalar?, State.team?_countRetired]
    split <;> cases s.team? i <;> rfl

theorem State.scalar?_mapScalar (s : State) (st : StreamId) (f : Scalar → Scalar) :
    (s.mapScalar st f).scalar? st = (s.scalar? st).map f := by
  cases st with
  | team i =>
    simp only [State.scalar?, State.mapScalar]
    rw [State.team?_mapTeam _ _ _ (by intro _; rfl)]; cases s.team? i <;> rfl
  | ctrl i =>
    simp only [State.scalar?, State.mapScalar]
    rw [State.group?_mapGroup _ _ _ (by intro _; rfl)]; cases s.group? i <;> rfl

theorem State.scalar?_mapScalar_other (s : State) {st st' : StreamId} (f : Scalar → Scalar) (h : st' ≠ st) :
    (s.mapScalar st f).scalar? st' = s.scalar? st' := by
  cases st with
  | team i =>
    cases st' with
    | team j =>
      simp only [State.scalar?, State.mapScalar]
      rw [State.team?_mapTeam_other _ _ (by intro _; rfl) (fun e => h (by rw [e]))]
    | ctrl j => rfl
  | ctrl i =>
    cases st' with
    | team j => rfl
    | ctrl j =>
      simp only [State.scalar?, State.mapScalar]
      rw [State.group?_mapGroup_other _ _ (by intro _; rfl) (fun e => h (by rw [e]))]

theorem State.team?_mapScalar (s : State) (i : TeamId) (f : Scalar → Scalar) :
    (s.mapScalar (.team i) f).team? i = (s.team? i).map (fun x => { x with sc := f x.sc }) :=
  State.team?_mapTeam _ _ _ (by intro _; rfl)

theorem State.team?_mapScalar_other (s : State) {st : StreamId} {j : TeamId} (f : Scalar → Scalar) (h : st ≠ .team j) :
    (s.mapScalar st f).team? j = s.team? j := by
  cases st with
  | ctrl i => rfl
  | team i => exact State.team?_mapTeam_other _ _ (by intro _; rfl) (fun e => h (by rw [e]))

/-! ## Cores -/

theorem State.core_mapCore {s : State} (h : smWf CoreState.reset s.cores = true) (c : Nat) (f : CoreState → CoreState) (d : Nat) :
    (s.mapCore c f).core d = if d = c then f (s.core c) else s.core d := smGet_smSet h c d (f (s.core c))

theorem State.cores_wf_mapCore {s : State} (h : smWf CoreState.reset s.cores = true) (c : Nat) (f : CoreState → CoreState) :
    smWf CoreState.reset (s.mapCore c f).cores = true := smWf_smSet h c _

@[simp] theorem State.core_mapScalar (s : State) (st : StreamId) (f : Scalar → Scalar) (c : Nat) :
    (s.mapScalar st f).core c = s.core c := by simp [State.core]
@[simp] theorem State.core_mapTeam (s : State) (i : TeamId) (f : Team → Team) (c : Nat) : (s.mapTeam i f).core c = s.core c := rfl

/-! ## Issuing -/

/-- What a scalar instruction of an issuing stream comes to. -/
theorem scalarInstr_of_issuing {s : State} {st : StreamId} {sc : Scalar} (h : Issuing s st sc) (i : Instr) (sup : Bool)
    (body : StreamId → Scalar → State → Res) : scalarInstr i sup body s = .next (State.finish st sc
      (if scalarLegal i && s.offered i && (!sup || sc.sup) then body st sc s else Res.fault s .illegal)) := by
  simp [scalarInstr, h.1, h.2]

theorem TeamIssues.issuing {s : State} {x : Team} (h : TeamIssues s x) : Issuing s (.team x.id) x.sc :=
  ⟨h.1, by simp [State.scalar?, h.2]⟩

theorem GroupIssues.issuing {s : State} {g : Group} (h : GroupIssues s g) : Issuing s (.ctrl g.cl) g.sc :=
  ⟨h.1, by simp [State.scalar?, h.2]⟩

theorem teamInstr_of_issues {s : State} {x : Team} (h : TeamIssues s x) (i : Instr) (sup : Bool) (body : Team → State → Res) :
    teamInstr i sup body s = .next (State.finish (.team x.id) x.sc
      (if scalarLegal i && s.offered i && (!sup || x.sc.sup) then body x s else Res.fault s .illegal)) := by
  simp [teamInstr, scalarInstr_of_issuing h.issuing, h.2]

/-- A control core that issues an instruction for teams takes ILLEGAL. -/
theorem teamInstr_of_ctrl {s : State} {cl : Nat} {sc : Scalar} (h : Issuing s (.ctrl cl) sc) (i : Instr) (sup : Bool)
    (body : Team → State → Res) : teamInstr i sup body s = .next (s.scalarTrap (.ctrl cl) (Trap.of .illegal) sc.pc) := by
  simp [teamInstr, scalarInstr_of_issuing h, Res.fault, State.finish]

theorem ctrlInstr_of_issues {s : State} {g : Group} (h : GroupIssues s g) (i : Instr) (body : Group → State → Res) :
    ctrlInstr i body s = .next (State.finish (.ctrl g.cl) g.sc
      (if scalarLegal i && s.offered i then body g s else Res.fault s .illegal)) := by
  simp [ctrlInstr, scalarInstr_of_issuing h.issuing, h.2]

/-- A team that issues an instruction for control cores takes ILLEGAL. -/
theorem ctrlInstr_of_team {s : State} {i : TeamId} {sc : Scalar} (h : Issuing s (.team i) sc) (j : Instr)
    (body : Group → State → Res) : ctrlInstr j body s = .next (s.scalarTrap (.team i) (Trap.of .illegal) sc.pc) := by
  simp [ctrlInstr, scalarInstr_of_issuing h, Res.fault, State.finish]

/-- What a lane instruction whose operands have been read comes to. -/
theorem laneInstrWith_of_reads {s u : State} {i : Instr} {c w : LaneCtx} {early : Early} (h : LaneReads i s c w u early)
    (body : LaneCtx → State → LaneRes) : laneInstrWith i early body s = .next (State.finishLane c (body w u)) := by
  obtain ⟨h1, h2, h3, v, ws, h4, h5⟩ := h
  have hw : (if c.idle i then none else c.windowFault) = none := by
    rcases h3 with h | h <;> simp [h]
  simp only [laneInstrWith, h1, h2, State.withOperands, hw, h4]
  rcases h5 with ⟨hn, ho, rfl, rfl⟩ | ⟨hn, fs, v', ps, z, own, he, hs, hc, hr, rfl, rfl⟩
  · rw [if_pos (by simpa using hn), if_pos ho]
  · rw [if_neg (by simpa using hn), he, hs]
    simp [hc, hr]

theorem laneInstr_of_reads {s u : State} {i : Instr} {c w : LaneCtx} (h : LaneReads i s c w u) (body : LaneCtx → State → LaneRes) :
    laneInstr i body s = .next (State.finishLane c (body w u)) := laneInstrWith_of_reads h body

/-- A lane instruction runs with the signature and the fields of its syntax. -/
theorem State.laneCtx_sig {s : State} {i : Instr} {c : LaneCtx} (h : s.laneCtx i = some c) : laneSig i = some (c.sig, c.args) := by
  unfold State.laneCtx at h
  repeat' split at h
  all_goals cases h
  assumption

/-- Reading window words changes nothing of what an instruction runs with but the values of its window sources. -/
theorem LaneCtx.withWindows_rest (c : LaneCtx) (ws : List PWord) :
    c.withWindows ws = { c with wa := (c.withWindows ws).wa, wb := (c.withWindows ws).wb, wc := (c.withWindows ws).wc } := rfl

theorem LaneReads.rest {s u : State} {i : Instr} {c w : LaneCtx} {early : Early}
    (h : LaneReads i s c w u early) : w = { c with wa := w.wa, wb := w.wb, wc := w.wc } := by
  obtain ⟨_, _, _, v, ws, _, ⟨_, _, rfl, _⟩ | ⟨_, _, _, _, _, own, _, _, _, _, rfl, _⟩⟩ := h
  · rfl
  · rfl

/-- A lane instruction whose body writes its lanes. -/
theorem laneWrites_of_body {s : State} {i : Instr} {body : LaneCtx → State → LaneRes} {r : LaneCtx → Nat → PPair}
    (h : ∀ s, exec i s = laneInstr i body s) (hb : ∀ c w u, LaneReads i s c w u → body w u = .write u (r w)) :
    LaneWrites i s r := by
  intro c w u hr
  rw [h, laneInstr_of_reads hr, hb c w u hr]
  rfl

/-! ## Retiring -/

/-- While no breakpoint is enabled and no step is asked for, the debug unit does nothing. -/
theorem State.debugUnit_quiet {s : State} {id : TeamId} {units : List Done} {sup q own : Bool}
    (h : sup = true ∨ ∀ x p, s.team? id = some x → x.place = some p →
      x.sc.stepping = false ∧ ∀ i, (s.core p.core).dbg.en i = false) : s.debugUnit id units sup q own = s := by
  unfold State.debugUnit
  split
  · rfl
  · rename_i x hx
    split
    · rfl
    · rename_i p hp
      by_cases hs : sup = true
      · simp [hs]
      · rcases h with h | h
        · exact absurd h hs
        · obtain ⟨h1, h2⟩ := h x p hx hp
          have : (List.finRange 4).filter (fun i => units.any (((s.core p.core).dbg).hits i x)) = [] := by
            rw [List.filter_eq_nil_iff]
            intro i _
            simp [Debug.hits, h2 i]
          simp [hs, this, h1]

/-- Counting a retired instruction or an event leaves every core's debug block, event selects and scratchpad. -/
theorem State.core_countRetired {s : State} (h : smWf CoreState.reset s.cores = true) (st : StreamId) (c : Nat) :
    smWf CoreState.reset (s.countRetired st).cores = true ∧ ((s.countRetired st).core c).dbg = (s.core c).dbg ∧
      ((s.countRetired st).core c).psel = (s.core c).psel ∧ ((s.countRetired st).core c).scratch = (s.core c).scratch := by
  unfold State.countRetired
  cases st with
  | ctrl cl => exact ⟨h, rfl, rfl, rfl⟩
  | team id =>
    simp only
    split
    · rename_i d _
      refine ⟨by rw [State.mapTeam_cores]; exact State.cores_wf_mapCore h _ _, ?_⟩
      rw [State.core_mapTeam, State.core_mapCore h]
      split
      · subst d; exact ⟨rfl, rfl, rfl⟩
      · exact ⟨rfl, rfl, rfl⟩
    · exact ⟨h, rfl, rfl, rfl⟩

theorem State.core_countFor {s : State} (h : smWf CoreState.reset s.cores = true) (st : StreamId) (e n c : Nat) :
    smWf CoreState.reset (s.countFor st e n).cores = true ∧ ((s.countFor st e n).core c).dbg = (s.core c).dbg ∧
      ((s.countFor st e n).core c).psel = (s.core c).psel ∧ ((s.countFor st e n).core c).scratch = (s.core c).scratch ∧
      ((s.countFor st e n).core c).iret = (s.core c).iret := by
  unfold State.countFor
  cases st with
  | ctrl cl => exact ⟨h, rfl, rfl, rfl, rfl⟩
  | team id =>
    simp only
    split
    · rename_i p _
      refine ⟨State.cores_wf_mapCore h _ _, ?_⟩
      unfold State.count
      rw [State.core_mapCore h]
      split
      · rename_i e; subst e; exact ⟨rfl, rfl, rfl, rfl⟩
      · exact ⟨rfl, rfl, rfl, rfl⟩
    · exact ⟨h, rfl, rfl, rfl, rfl⟩

/-- The retirement of an instruction whose debug unit does nothing: the PC moves, the wait ends, and it is counted. -/
theorem State.retire_of_quiet {s : State} {st : StreamId} {sc : Scalar} (hs : s.scalar? st = some sc) (hq : s.quiet st)
    (pc next : DWord) (q : Bool) :
    s.retire st pc next sc.sup q = ((s.mapScalar st (·.goto next)).countFor st 0x03 1).countRetired st := by
  cases st with
  | ctrl cl => rfl
  | team id =>
    obtain ⟨hw, hq⟩ := hq
    refine State.debugUnit_quiet ?_
    by_cases hsup : sc.sup = true
    · exact .inl hsup
    · refine .inr fun x p hx hp => ?_
      simp only [State.team?_countFor, State.team?_countRetired, if_true, State.team?_mapScalar, Option.map_map] at hx
      cases hx0 : s.team? id with
      | none => rw [hx0] at hx; cases hx
      | some x0 =>
        rw [hx0] at hx
        simp only [Option.map_some, Option.some.injEq, Function.comp_apply] at hx
        subst hx
        have e : sc = x0.sc := by simpa [State.scalar?, hx0] using hs.symm
        obtain h | ⟨h1, -, h2⟩ := hq x0 p hx0 hp
        · exact absurd (e ▸ h) hsup
        · refine ⟨h1, fun i => ?_⟩
          have hw1 : smWf CoreState.reset (s.mapScalar (.team id) (·.goto next)).cores = true := by simpa using hw
          have := State.core_countFor hw1 (.team id) 0x03 1 p.core
          rw [(State.core_countRetired this.1 _ _).2.1, this.2.1, State.core_mapScalar]
          exact h2 i

theorem State.scalar?_retire {s : State} {st : StreamId} {sc : Scalar} (hs : s.scalar? st = some sc) (hq : s.quiet st)
    (pc next : DWord) (q : Bool) : (s.retire st pc next sc.sup q).scalar? st = some (sc.goto next) := by
  rw [State.retire_of_quiet hs hq, State.scalar?_countRetired, State.scalar?_countFor, State.scalar?_mapScalar, hs]; rfl

theorem State.team?_retire {s : State} {id : TeamId} {x : Team} (hx : s.team? id = some x) (hq : s.quiet (.team id))
    (pc next : DWord) (q : Bool) : (s.retire (.team id) pc next x.sc.sup q).team? id =
      some { x with sc := x.sc.goto next, instrs := x.instrs + 1 } := by
  rw [State.retire_of_quiet (by simp [State.scalar?, hx]) hq, State.team?_countRetired, if_pos rfl, State.team?_countFor,
    State.team?_mapScalar, hx]
  rfl

/-- Only the streams, the cores and the counts of control cores differ. -/
def State.OnlyRest (s t : State) : Prop :=
  t = { s with teams := t.teams, groups := t.groups, cores := t.cores, ctrlIret := t.ctrlIret }

theorem State.OnlyRest.trans {s t u : State} (h : s.OnlyRest t) (h' : t.OnlyRest u) : s.OnlyRest u := by
  unfold State.OnlyRest at *
  refine h'.trans ?_
  rw [h]

theorem State.onlyRest_mapScalar (s : State) (st : StreamId) (f : Scalar → Scalar) : s.OnlyRest (s.mapScalar st f) := by
  cases st <;> rfl

theorem State.onlyRest_mapTeam (s : State) (i : TeamId) (f : Team → Team) : s.OnlyRest (s.mapTeam i f) := rfl
theorem State.onlyRest_mapCore (s : State) (i : Nat) (f : CoreState → CoreState) : s.OnlyRest (s.mapCore i f) := rfl

theorem State.onlyRest_countRetired (s : State) (st : StreamId) : s.OnlyRest (s.countRetired st) := by
  unfold State.countRetired
  split
  · split
    · exact (State.onlyRest_mapCore s _ _).trans (State.onlyRest_mapTeam _ _ _)
    · exact State.onlyRest_mapTeam s _ _
  · rfl

theorem State.onlyRest_countFor (s : State) (st : StreamId) (e n : Nat) : s.OnlyRest (s.countFor st e n) := by
  unfold State.countFor
  split
  · split
    · exact State.onlyRest_mapCore s _ _
    · rfl
  · rfl

/-- The retirement of an instruction touches nothing but its stream and the counts of its core. -/
theorem State.retire_only {s : State} {st : StreamId} {sc : Scalar} (hs : s.scalar? st = some sc) (hq : s.quiet st)
    (hw : smWf CoreState.reset s.cores = true) (pc next : DWord) (q : Bool) : OnlyStream s (s.retire st pc next sc.sup q) st := by
  rw [State.retire_of_quiet hs hq]
  have hw1 : smWf CoreState.reset (s.mapScalar st (·.goto next)).cores = true := by simpa using hw
  have h1 := fun c => State.core_countFor hw1 st 0x03 1 c
  have h2 := fun c => State.core_countRetired (h1 c).1 st c
  refine ⟨by simp, by simp, fun c a => ?_, fun c => ⟨?_, ?_⟩, by simp, fun st' hne => ?_, fun id hne => ?_, ?_⟩
  · rw [(h2 c).2.2.2, (h1 c).2.2.2.1, State.core_mapScalar]
  · rw [(h2 c).2.1, (h1 c).2.1, State.core_mapScalar]
  · rw [(h2 c).2.2.1, (h1 c).2.2.1, State.core_mapScalar]
  · rw [State.scalar?_countRetired, State.scalar?_countFor, State.scalar?_mapScalar_other _ _ hne]
  · rw [State.team?_countRetired, if_neg hne, State.team?_countFor, State.team?_mapScalar_other _ _ hne]
  · exact ((State.onlyRest_mapScalar s st _).trans (State.onlyRest_countFor _ st _ _)).trans (State.onlyRest_countRetired _ st)

end Sys2Proof.Machine
end

