-- ==== Sys2Proof/Laws/Access.lean ====
section
/-! SUPPORT. The laws of accesses: what events can change, what an access that performs whole comes to, and what scalar and lane memory
instructions come to through it. -/

namespace Sys2Proof.Machine

/-! ## What events can change -/

/-- What an event, with the dirty marks, the classifier and the coherence that go with it, can change: memories, poison, the caches, the
classes, the TLBs, the counters, queues that watch a tail, and the marks of checkpointed contexts. -/
def State.OnlyEvents (s t : State) : Prop :=
  t = { s with
    mem := t.mem
    poison := t.poison
    dscratch := t.dscratch
    cores := t.cores
    queues := t.queues
    dir := t.dir
    l1 := t.l1
    constLines := t.constLines
    net := t.net
    classes := t.classes
    reclass := t.reclass
    tlb := t.tlb
    drogue := t.drogue
    teams := t.teams
    errlog := t.errlog }

theorem State.OnlyEvents.refl (s : State) : s.OnlyEvents s := rfl

theorem State.OnlyEvents.trans {s t u : State} (h : s.OnlyEvents t) (h' : t.OnlyEvents u) : s.OnlyEvents u := by
  unfold State.OnlyEvents at *
  refine h'.trans ?_
  rw [h]

theorem State.OnlyEvents.foldl {α : Type} {f : State → α → State} (h : ∀ (s : State) (a : α), s.OnlyEvents (f s a)) (l : List α) (s : State) :
    s.OnlyEvents (l.foldl f s) := by
  induction l generalizing s with
  | nil => exact .refl s
  | cons a l ih => exact (h s a).trans (ih _)

theorem State.onlyEvents_tlb (s : State) (x : List TlbEntry) : s.OnlyEvents { s with tlb := x } := rfl

theorem State.onlyEvents_l1 (s : State) (x : List L1Line) : s.OnlyEvents { s with l1 := x } := rfl
theorem State.onlyEvents_own (s : State) (p : SMap Bool) (x : List L1Line) : s.OnlyEvents { s with poison := p, l1 := x } := rfl

theorem State.onlyEvents_adoptCopy (s : State) (n l : Nat) : s.OnlyEvents (s.adoptCopy n l) := by
  unfold State.adoptCopy
  split
  · exact .refl s
  · exact s.onlyEvents_own _ _

theorem State.onlyEvents_adoptOwner (s : State) (l : Nat) : s.OnlyEvents (s.adoptOwner l) := by
  unfold State.adoptOwner
  split
  · exact s.onlyEvents_adoptCopy _ _
  · exact .refl s

theorem State.onlyEvents_setL1 (s : State) (n l : Nat) (st : Option L1St) : s.OnlyEvents (s.setL1 n l st) := by
  unfold State.setL1
  split
  · exact s.onlyEvents_l1 _
  · rename_i v
    have h : s.OnlyEvents (if v = .m then s.adoptCopy n l else s) := by
      split
      · exact s.onlyEvents_adoptCopy _ _
      · exact .refl s
    dsimp only
    generalize (if v = .m then s.adoptCopy n l else s) = t at h ⊢
    split <;> exact h.trans (t.onlyEvents_l1 _)

theorem State.onlyEvents_setDir (s : State) (e : DirEntry) : s.OnlyEvents (s.setDir e) := by
  unfold State.setDir
  repeat' split
  all_goals rfl

theorem State.onlyEvents_takeWbd (s : State) (n l : Nat) : s.OnlyEvents (s.takeWbd n l) := by
  have h : s.OnlyEvents (if s.l1St n l == some .wb then s.setL1 n l none else s) := by
    split
    · exact s.onlyEvents_setL1 n l none
    · exact .refl s
  unfold State.takeWbd
  dsimp only
  split
  · exact h.trans (State.onlyEvents_setDir _ _)
  · exact h

theorem State.onlyEvents_demoteOwner (s : State) (o l : Nat) : s.OnlyEvents (s.demoteOwner o l) := by
  unfold State.demoteOwner
  split
  · exact s.onlyEvents_setL1 _ _ _
  · exact s.onlyEvents_setL1 _ _ _
  · exact .refl s

theorem State.onlyEvents_drainWb (s : State) (l : Nat) : s.OnlyEvents (s.drainWb l) :=
  State.OnlyEvents.foldl (fun s (x : L1Line) => s.onlyEvents_takeWbd x.node l) _ s

theorem State.onlyEvents_requested (s : State) (l : Nat) : s.OnlyEvents (s.requested l) := rfl

theorem State.onlyEvents_cohHomeRead (s : State) (l : Nat) : s.OnlyEvents (s.cohHomeRead l) := by
  have h : s.OnlyEvents (((s.drainWb l).requested l).adoptOwner l) :=
    ((s.onlyEvents_drainWb l).trans (State.onlyEvents_requested _ l)).trans (State.onlyEvents_adoptOwner _ l)
  unfold State.cohHomeRead
  dsimp only
  split
  · exact h.trans ((State.onlyEvents_demoteOwner _ _ _).trans (State.onlyEvents_setDir _ _))
  · exact h.trans ((State.onlyEvents_demoteOwner _ _ _).trans (State.onlyEvents_setDir _ _))
  · exact h

theorem State.onlyEvents_cohHomeWrite (s : State) (l : Nat) : s.OnlyEvents (s.cohHomeWrite l) := by
  unfold State.cohHomeWrite State.dropCached
  exact (s.onlyEvents_adoptOwner l).trans
    (State.OnlyEvents.trans (t := (s.adoptOwner l).dropL1 l) rfl (State.onlyEvents_setDir _ _))

theorem State.onlyEvents_count (s : State) (c : Nat) (k : Option Nat) (e n : Nat) : s.OnlyEvents (s.count c k e n) := rfl

theorem State.onlyEvents_setClass (s : State) (g : Nat) (c : GClass) : s.OnlyEvents (s.setClass g c) := by
  unfold State.setClass
  dsimp only
  split <;> rfl

theorem State.onlyEvents_reclass (s : State) (x : List Reclass) : s.OnlyEvents { s with reclass := x } := rfl

theorem State.onlyEvents_dropCopies (s : State) (g : Nat) : s.OnlyEvents (s.dropCopies g) := rfl

theorem State.onlyEvents_classifyDevice (s : State) (w : Bool) (pa : Nat) : s.OnlyEvents (s.classifyDevice w pa) := by
  have h := (s.onlyEvents_setClass (granuleOf pa) .shared).trans (State.onlyEvents_dropCopies _ (granuleOf pa))
  unfold State.classifyDevice
  dsimp only
  repeat' split
  all_goals with_reducible first
    | exact .refl s
    | exact s.onlyEvents_reclass _
    | exact s.onlyEvents_setClass _ _
    | exact h.trans (State.onlyEvents_count _ _ _ _ _)
    | exact h.trans (State.OnlyEvents.foldl (fun s n => s.onlyEvents_count n none 0x07 1) _ _)

theorem State.onlyEvents_devTouch (s : State) (pa n : Nat) (w : Bool) : s.OnlyEvents (s.devTouch pa n w) := by
  unfold State.devTouch
  split
  · exact .refl s
  · refine (s.onlyEvents_classifyDevice w pa).trans (State.OnlyEvents.foldl (fun s l => ?_) _ _)
    cases w
    · exact s.onlyEvents_cohHomeRead l
    · exact s.onlyEvents_cohHomeWrite l

theorem State.onlyEvents_locWrite (s : State) (l : Loc) (bs : List Byte) (q : Bool) : s.OnlyEvents (s.locWrite l bs q) := by
  unfold State.locWrite
  repeat' split
  all_goals rfl

theorem State.onlyEvents_bumpDcount (s : State) (a : Byte) : s.OnlyEvents (s.bumpDcount a) := by
  unfold State.bumpDcount
  split
  · rfl
  · dsimp only
    split <;> rfl

theorem State.onlyEvents_markBitmap (s : State) (a : AsidCopy) (g : Nat) : s.OnlyEvents (s.markBitmap a g) := by
  unfold State.markBitmap
  dsimp only
  split
  · exact s.onlyEvents_devTouch _ _ _
  · exact (s.onlyEvents_devTouch _ _ _).trans ((State.onlyEvents_locWrite _ _ _ _).trans (State.onlyEvents_bumpDcount _ _))

theorem State.onlyEvents_markLeaf (s : State) (e : TlbEntry) : s.OnlyEvents (s.markLeaf e) := by
  unfold State.markLeaf
  split
  · exact .refl s
  · exact (s.onlyEvents_devTouch _ _ _).trans (State.onlyEvents_locWrite _ _ _ _)

theorem State.onlyEvents_markGranule (s : State) (a : Byte) (va : DWord) (e : TlbEntry) : s.OnlyEvents (s.markGranule a va e) := by
  unfold State.markGranule
  repeat' split
  all_goals first
    | exact .refl s
    | exact s.onlyEvents_markBitmap _ _

theorem State.onlyEvents_markDirty (s : State) (ag : Agent) (va : DWord) (tr : Option TlbEntry) :
    s.OnlyEvents (s.markDirty ag va tr) := by
  unfold State.markDirty
  dsimp only
  split
  · exact .refl s
  · exact ((s.onlyEvents_markLeaf _).trans (State.onlyEvents_markGranule _ _ _ _)).trans (State.onlyEvents_tlb _ _)

theorem State.onlyEvents_landed (s : State) (l : Loc) (bs : List Byte) (q : Bool) : s.OnlyEvents (s.landed l bs q) := by
  unfold State.landed
  repeat' split
  all_goals first
    | exact s.onlyEvents_locWrite _ _ _
    | rfl

theorem State.onlyEvents_writeEvent (s : State) (ag : Agent) (p : Spot) (bs : List Byte) (q : Bool) :
    s.OnlyEvents (s.writeEvent ag p bs q) := by
  have h : s.OnlyEvents (s.dirtied ag p) := by
    unfold State.dirtied
    split
    · exact s.onlyEvents_markDirty _ _ _
    · exact .refl s
  exact h.trans (State.onlyEvents_landed _ _ _ _)

theorem State.onlyEvents_atomicEvent (s : State) (ag : Agent) (p : Spot) (op : AtomOp) (t : Wd) (c cmp : DWord) :
    s.OnlyEvents (s.atomicEvent ag p op t c cmp).1 := by
  unfold State.atomicEvent
  split
  · exact s.onlyEvents_writeEvent _ _ _ _
  · exact .refl s

theorem State.onlyEvents_perform1 (s : State) (ag : Agent) (e : AccEvent) : s.OnlyEvents (s.perform1 ag e).1 := by
  unfold State.perform1
  split
  · exact .refl s
  · exact s.onlyEvents_writeEvent _ _ _ _
  · exact s.onlyEvents_atomicEvent _ _ _ _ _ _

theorem State.onlyEvents_performAll (ag : Agent) (es : List AccEvent) (s : State) : s.OnlyEvents (State.performAll ag es s).1 := by
  induction es generalizing s with
  | nil => exact .refl s
  | cons e es ih => exact (s.onlyEvents_perform1 ag e).trans (ih _)

theorem State.OnlyEvents.limit {s t : State} (h : s.OnlyEvents t) : t.limit = s.limit := by
  unfold State.OnlyEvents at h
  rw [h]

theorem State.eventsOver_free {s : State} (ps : List Spot) (h : s.limit = none) : s.eventsOver ps = s.releaseHost ps := by
  unfold State.eventsOver State.releaseHost
  rw [h]
  cases s
  simp_all

/-! ## An access that performs whole -/

/-- An access that performs whole is complete in the step that begins it, with the words that its events read. -/
theorem State.startAccess_of_performs {s u : State} {st : StreamId} {a : Access} {ag : Agent} (h : Performs s st a ag u)
    (hw : a.wait = none) (hb : a.begun = false) (hc : a.classed = false) (ho : a.ordered = false) (hg : a.got = []) :
    ∃ b : Access, b.lane = a.lane ∧ b.dest = a.dest ∧ b.units = a.units ∧ b.sup = a.sup ∧ b.stepped = a.stepped ∧
      b.got = (State.performAll ag a.events u).2 ∧
      s.startAccess st a = ((State.performAll ag a.events u).1.releaseHost (a.events.map (·.spot))).accessDone st none b := by
  obtain ⟨h1, ⟨sc, h2, h3⟩, v, o, w, q, r, h4, h5, h6, h7⟩ := h
  have hsc : sc.accAt none = some a := by
    rw [State.scalar?_mapScalar] at h2
    cases hx : s.scalar? st with
    | none => simp [hx] at h2
    | some x =>
      simp only [hx, Option.map_some, Option.some.injEq] at h2
      subst h2
      rfl
  have hp := (State.onlyEvents_performAll ag a.events u).limit
  rw [h7] at hp
  refine ⟨{ a with
    classed := true
    ordered := o
    begun := true
    events := []
    got := a.got ++ (State.performAll ag a.events u).2 }, rfl, rfl, rfl, rfl, rfl, by simp [hg], ?_⟩
  unfold State.startAccess State.performAcc State.performSlot State.performClassed State.performBegun
  rw [h1, h2]
  simp only [hsc, hw, h3, hb, hc, ho, h4, h5, h6, h7, Option.isSome_none, Bool.or_self, Bool.false_eq_true, if_false,
    Option.getD_none, List.take_length, List.drop_length, List.isEmpty_nil, if_true]
  rw [State.eventsOver_free _ hp]

/-- What an access writes leaves its stream's accesses. -/
theorem Scalar.acc_setReg (sc : Scalar) (d : BitVec 6) (w : PWord) : (sc.setReg d w).acc = sc.acc := by
  unfold Scalar.setReg
  split <;> rfl

theorem Scalar.acc_setPair (sc : Scalar) (d : BitVec 6) (p : PPair) : (sc.setPair d p).acc = sc.acc := by
  unfold Scalar.setPair
  split
  · rfl
  · rw [Scalar.acc_setReg, Scalar.acc_setReg]

theorem Team.sc_setWords (ws : List PWord) (x : Team) (r j : Nat) : (x.setWords r j ws).sc = x.sc ∧ (x.setWords r j ws).id = x.id := by
  induction ws generalizing x r with
  | nil => exact ⟨rfl, rfl⟩
  | cons w ws ih => exact ih (x.setV r j w) (r + 1)

theorem Team.sc_putLanes (x : Team) (a : Access) (r n : Nat) (w : LdW) (gov : Mask) :
    (x.putLanes a r n w gov).sc = x.sc ∧ (x.putLanes a r n w gov).id = x.id := by
  unfold Team.putLanes
  generalize lanesIn gov x.lanes = l
  induction l generalizing x with
  | nil => exact ⟨rfl, rfl⟩
  | cons j l ih =>
    have h := Team.sc_setWords (((wordsOf a.got j).map (ldExtend w)).take n) x r j
    exact ⟨(ih _).1.trans h.1, (ih _).2.trans h.2⟩

theorem State.acc_putAccess (s : State) (st : StreamId) (a : Access) :
    ((s.putAccess st a).scalar? st).bind (·.acc) = (s.scalar? st).bind (·.acc) := by
  have keeps : ∀ (t : State) (f : Scalar → Scalar), (∀ x, (f x).acc = x.acc) →
      ((t.mapScalar st f).scalar? st).bind (·.acc) = (t.scalar? st).bind (·.acc) := by
    intro t f hf
    rw [State.scalar?_mapScalar]
    cases t.scalar? st <;> simp [hf]
  have team : ∀ (i : TeamId) (f : Team → Team), (∀ x, (f x).sc = x.sc ∧ (f x).id = x.id) →
      ((s.mapTeam i f).scalar? (.team i)).bind (·.acc) = (s.scalar? (.team i)).bind (·.acc) := by
    intro i f hf
    simp only [State.scalar?]
    rw [State.team?_mapTeam _ _ _ (fun x => (hf x).2)]
    cases s.team? i <;> simp [hf]
  unfold State.putAccess
  split
  · rfl
  · dsimp only
    split
    · exact keeps _ _ (fun x => x.acc_setPair _ _)
    · exact keeps _ _ (fun x => x.acc_setReg _ _)
  · exact team _ _ (fun x => Team.sc_putLanes x _ _ _ _ _)
  · rfl
  · exact team _ _ (fun _ => ⟨rfl, rfl⟩)
  · rfl

/-- The latest access of a stream keeps nothing of it once it is over. -/
theorem State.putBack_accOver (s : State) (st : StreamId) (a : Access) :
    ((s.accOver st).putAccess st a).putBack st a = (s.accOver st).putAccess st a := by
  unfold State.putBack
  rw [State.acc_putAccess, State.accOver, State.scalar?_mapScalar]
  cases s.scalar? st <;> rfl

/-- A scalar access that passes its checks and performs whole completes its instruction. -/
theorem State.finish_of_reaches {s u : State} {st : StreamId} {sc : Scalar} {k : AccKind} {lv : Level} {off : DWord} {width : Nat}
    {op : EvOp} {dest : AccDest} {ag : Agent} {p : Spot} (h : Reaches s st sc k lv off width op dest ag p u) (hd : dest ≠ .windows) :
    ∃ b : Access, b.dest = dest ∧ b.got = (State.performAll ag [⟨p, op⟩] u).2 ∧
      State.finish st sc (s.scalarAccess st sc k lv off width false op dest) =
        ((((State.performAll ag [⟨p, op⟩] u).1.releaseHost [p]).accOver st).putAccess st b).scalarDone st sc.pc sc.sup false
          sc.stepping := by
  obtain ⟨v, ⟨l, r, h1, h2, h3, h4⟩, h5⟩ := h
  obtain ⟨b, b1, b2, b3, b4, b7, b5, b6⟩ := State.startAccess_of_performs h5 rfl rfl rfl rfl rfl
  refine ⟨b, b2, b5, ?_⟩
  have hr : s.scalarAccess st sc k lv off width false op dest = .access v (sc.access k ⟨p, op⟩ dest) := by
    simp [State.scalarAccess, h1, h2, h3, h4]
  rw [hr]
  simp only [State.finish]
  rw [b6]
  have hn : b.dest ≠ .windows := by rw [b2]; exact hd
  have hl : b.lane = false := b1
  have h8 := ((State.performAll ag [⟨p, op⟩] u).1.releaseHost [p]).putBack_accOver st b
  simp only [State.accOver] at h8
  simp only [State.accessDone, hn, if_false, b3, b4, b7, Scalar.access, List.map_cons, List.map_nil, h8]
  cases st <;> simp [hl, State.accOver]

/-- A lane access that passes its checks and performs whole completes its instruction. -/
theorem State.finishLane_of_reaches {s u r : State} {i : Instr} {c w : LaneCtx} {early : Early} {k : AccKind} {lv : Level} {width : Nat}
    {off : Nat → DWord} {consumed : Nat → Bool} {ops : Nat → List EvOp} {dest : AccDest} {ps : List Spot}
    (hc : LaneReads i s c w u early) (h : LanesReach u w k lv width off consumed ops dest ps r) (hd : dest ≠ .windows) :
    let events := ps.flatMap (fun p => p.events (ops p.lane))
    ∃ b : Access, b.dest = dest ∧ b.units = c.x.chainUnits c.gov ∧ b.got = (State.performAll c.ag events r).2 ∧
      State.finishLane c (u.laneAccess w k lv width off consumed ops dest) =
        let t := (((State.performAll c.ag events r).1.releaseHost (events.map (·.spot))).accOver c.st).putAccess c.st b
        t.laneDone c.id (c.x.chainUnits c.gov) c.x.sc.sup c.x.sc.stepping := by
  intro events
  have hw := hc.rest
  obtain ⟨v, h1, h2, h3⟩ := h
  have e1 : w.ag = c.ag := by rw [hw]
  have e2 : w.id = c.id := by rw [hw]; rfl
  have e3 : w.gov = c.gov := by rw [hw]; rfl
  have e4 : w.st = c.st := by rw [hw]; rfl
  have e5 : w.need = c.need := by rw [hw]; rfl
  have e6 : w.args = c.args := by rw [hw]
  have e7 : w.x = c.x := by rw [hw]
  rw [e1, e2, e3, e4, e5, e6, e7] at h3
  obtain ⟨b, b1, b2, b3, b4, b7, b5, b6⟩ := State.startAccess_of_performs h3 rfl rfl rfl rfl rfl
  have hu : (w.access k events dest).units = c.x.chainUnits c.gov := by simp [LaneCtx.access, e7, e3]
  refine ⟨b, b2, b3.trans hu, b5, ?_⟩
  have hl : (w.g.filter (fun j => consumed j && !(([] : List (Nat × Trap)).any (fun f => f.1 = j)))) = [] := by
    rw [List.filter_eq_nil_iff]
    intro j hj
    simp [h2 j hj]
  have hr : u.laneAccess w k lv width off consumed ops dest = .access v (w.access k events dest) := by
    simp only [State.laneAccess, h1, hl]
    rfl
  rw [hr]
  simp only [State.finishLane]
  rw [b6]
  have hn : b.dest ≠ .windows := by rw [b2]; exact hd
  have hb : b.lane = true := b1
  have hs : b.sup = c.x.sc.sup := by rw [b4]; simp [LaneCtx.access, e7]
  have ht : b.stepped = c.x.sc.stepping := by rw [b7]; simp [LaneCtx.access, e7]
  have h8 := ((State.performAll c.ag events r).1.releaseHost (events.map (·.spot))).putBack_accOver c.st b
  simp only [State.accOver, LaneCtx.st] at h8
  simp only [State.accessDone, hn, if_false]
  simp only [LaneCtx.st, hb, b3.trans hu, hs, ht, State.accOver]
  rw [← h8]
  rfl

/-! ## Tables -/

theorem smGetList_congr {α : Type} (d : α) (m m' : SMap α) (a n : Nat) (h : ∀ i, i < n → smGet d m (a + i) = smGet d m' (a + i)) :
    smGetList d m a n = smGetList d m' a n := by
  induction n generalizing a with
  | zero => rfl
  | succ n ih =>
    rw [smGetList, smGetList, show smGet d m a = smGet d m' a from by simpa using h 0 (by omega),
      ih (a + 1) (fun i hi => by have := h (i + 1) (by omega); rwa [show a + (i + 1) = a + 1 + i by omega] at this)]

/-- Within a table, the bytes of the table are those of memory. -/
theorem State.tableAt_readBytes (s : State) (h : s.mem.wf = true) (lvl t a n : Nat) (lo : t ≤ a) (hi : a + n ≤ t + tableSize lvl) :
    (s.tableAt lvl t).readBytes a n = s.mem.readBytes a n :=
  smGetList_congr _ _ _ _ _ (fun i hi' => smGet_filter h (fun k => t ≤ k && k < t + tableSize lvl) (a + i) (by simp; omega))

end Sys2Proof.Machine
end

