-- ==== Sys2Proof/Laws/Hbm.lean ====
section
/-! SUPPORT. The check values and the code of a block: what zeros do in them (spec/11 R245–R247). -/

namespace Sys2Proof.Machine

theorem gfMul_zero_left (b : Half) : gfMul 0 b = 0 := by
  have h : ∀ l : List Nat, l.foldl (fun r i => if b.getLsbD (15 - i) then gfDouble r ^^^ 0 else gfDouble r) 0 = (0 : Half) := by
    intro l
    induction l with
    | nil => rfl
    | cons i l ih =>
      rw [List.foldl_cons, show (if b.getLsbD (15 - i) then gfDouble 0 ^^^ 0 else gfDouble 0 : Half) = 0 by split <;> decide]
      exact ih
  exact h _

/-- Leading zeros do not change the value of a polynomial. -/
theorem polyAt_zeros (p : List Half) (x : Half) : ∀ n, polyAt (List.replicate n 0 ++ p) x = polyAt p x
  | 0 => rfl
  | n + 1 => by
    rw [List.replicate_succ, List.cons_append]
    show (List.replicate n 0 ++ p).foldl (fun v c => gfMul v x ^^^ c) (gfMul 0 x ^^^ 0) = _
    rw [gfMul_zero_left, show (0 : Half) ^^^ 0 = 0 from rfl]
    exact polyAt_zeros p x n

theorem syndromes_zeros (n : Nat) (p : List Half) : syndromes (List.replicate n 0 ++ p) = syndromes p := by
  simp only [syndromes, polyAt_zeros]

/-- The parity of zeros is zeros. -/
theorem parityOf_zeros : ∀ n, parityOf (List.replicate n 0) = List.replicate 16 0 := by
  have h : (((List.replicate 16 (0 : Half)).drop 1 ++ [0]).zip generator).map (fun (x : Half × Half) => x.1 ^^^ gfMul 0 x.2) =
      List.replicate 16 0 := by
    decide +kernel
  intro n
  induction n with
  | zero => rfl
  | succ n ih =>
    rw [List.replicate_succ]
    unfold parityOf at ih ⊢
    rw [List.foldl_cons]
    simp only [show (List.replicate 16 (0 : Half)).headD 0 ^^^ 0 = 0 from rfl]
    rw [h]
    exact ih

theorem symbolsOf_zeros (n : Nat) : symbolsOf (List.replicate (2 * n) 0) = List.replicate n 0 := by
  unfold symbolsOf
  rw [List.length_replicate, Nat.mul_div_cancel_left _ (by decide : 0 < 2), List.eq_replicate_iff]
  refine ⟨by simp, fun b hb => ?_⟩
  obtain ⟨i, -, rfl⟩ := List.mem_map.mp hb
  simp only [List.getD_eq_getElem?_getD, List.getElem?_replicate]
  split <;> split <;> rfl

end Sys2Proof.Machine
end

