-- ==== Sys2Proof/Laws/Traps.lean ====
section
/-! SUPPORT. The laws of taking a trap: what a team holds after it entered its handler, and when a trap kills its gang
instead (spec/04 R97, R98). -/

namespace Sys2Proof.Machine

@[simp] theorem State.team?_trace (s : State) (t : TeamId) (y p a : Nat) (j : TeamId) : (s.trace t y p a).team? j = s.team? j := by
  simp [State.team?]

theorem State.team?_setTeam {s : State} {x y : Team} (h : s.team? y.id = some x) : (s.setTeam y).team? y.id = some y := by
  have hx := State.team?_id h
  have := find?_replaceFirst (fun z : Team => decide (z.id = y.id)) (fun _ => y) s.teams (fun _ _ => by simp)
  unfold State.team? at h ⊢
  rw [h] at this
  simpa [State.setTeam] using this

theorem State.team?_setTeam_other (s : State) (y : Team) {j : TeamId} (h : j ≠ y.id) : (s.setTeam y).team? j = s.team? j :=
  find?_replaceFirst_other _ _ _ s.teams (fun z hz => by
    have hz : z.id = y.id := by simpa using hz
    simp [hz, Ne.symm h])

/-- A trap in supervisor mode, but for a breakpoint or a step, kills the team's gang. -/
theorem State.trapTeam_double {s : State} {x : Team} {t : Trap} (h : x.sc.sup = true) (hn : t.cause.nests = false)
    (lane : Bool) (r : DWord) (tl lf : Nat) (ic : Bool) (cp : Nat) :
    s.trapTeam x t lane r tl lf ic cp = s.kill [x.gang] [] true x.killRec := by simp [State.trapTeam, h, hn]

/-- The registers that a trap of a team writes. -/
def Team.atEntry (x : Team) (t : Trap) (lane : Bool) (r : DWord) (tl lf : Nat) (ic : Bool) (cp : Nat) : Team :=
  x.entered t lane (tdetailWord (if lane || t.cause.isEvent then lf else 0) t.acc t.cause.tcode t.cause.sub (lane && ic)
    (if lane then cp else 0)) tl r (!t.cause.kills)

@[simp] theorem Team.atEntry_id (x : Team) (t : Trap) (lane : Bool) (r : DWord) (tl lf : Nat) (ic : Bool) (cp : Nat) :
    (x.atEntry t lane r tl lf ic cp).id = x.id := rfl

/-- A trap that enters the handler writes the team's registers, and a trace record when its core records. -/
theorem State.trapTeam_enters {s : State} {x : Team} {t : Trap} (h : (x.sc.sup && !t.cause.nests) = false)
    (hk : t.cause.kills = false) (lane : Bool) (r : DWord) (tl lf : Nat) (ic : Bool) (cp : Nat) :
    ∃ p a, s.trapTeam x t lane r tl lf ic cp = (s.setTeam (x.atEntry t lane r tl lf ic cp)).trace x.id 2 p a := by
  refine ⟨r.toNat, t.cause.tcauseWord.toNat + 2 ^ 32 *
    (tdetailWord (if lane || t.cause.isEvent then lf else 0) t.acc t.cause.tcode t.cause.sub (lane && ic)
      (if lane then cp else 0)).toNat, ?_⟩
  simp [State.trapTeam, Team.atEntry, h, hk]

/-- A consumed poison or a failed shadow check writes the registers and kills the gang. -/
theorem State.trapTeam_kills {s : State} {x : Team} {t : Trap} (h : (x.sc.sup && !t.cause.nests) = false)
    (hk : t.cause.kills = true) (lane : Bool) (r : DWord) (tl lf : Nat) (ic : Bool) (cp : Nat) :
    ∃ p a, s.trapTeam x t lane r tl lf ic cp = ((s.setTeam (x.atEntry t lane r tl lf ic cp)).trace x.id 2 p a).kill [x.gang] []
      false (x.atEntry t lane r tl lf ic cp).killRec := by
  refine ⟨r.toNat, t.cause.tcauseWord.toNat + 2 ^ 32 *
    (tdetailWord (if lane || t.cause.isEvent then lf else 0) t.acc t.cause.tcode t.cause.sub (lane && ic)
      (if lane then cp else 0)).toNat, ?_⟩
  simp [State.trapTeam, Team.atEntry, h, hk]

theorem State.team?_trapTeam {s : State} {x z : Team} {t : Trap} (hx : s.team? x.id = some z)
    (h : (x.sc.sup && !t.cause.nests) = false) (hk : t.cause.kills = false) (lane : Bool) (r : DWord) (tl lf : Nat) (ic : Bool)
    (cp : Nat) : (s.trapTeam x t lane r tl lf ic cp).team? x.id = some (x.atEntry t lane r tl lf ic cp) := by
  obtain ⟨p, a, e⟩ := State.trapTeam_enters (s := s) h hk lane r tl lf ic cp
  rw [e, State.team?_trace]
  exact State.team?_setTeam (y := x.atEntry t lane r tl lf ic cp) hx

/-- A trap of a team leaves every other team as it is. -/
theorem State.team?_trapTeam_other {s : State} {x : Team} {t : Trap} {j : TeamId} (hj : j ≠ x.id)
    (h : (x.sc.sup && !t.cause.nests) = false) (hk : t.cause.kills = false) (lane : Bool) (r : DWord) (tl lf : Nat) (ic : Bool)
    (cp : Nat) : (s.trapTeam x t lane r tl lf ic cp).team? j = s.team? j := by
  obtain ⟨p, a, e⟩ := State.trapTeam_enters (s := s) h hk lane r tl lf ic cp
  rw [e, State.team?_trace]
  exact State.team?_setTeam_other s _ hj

end Sys2Proof.Machine
end

