-- ==== Sys2Proof/Tests/Slice0.lean ====
section
/-! SUPPORT. Tests of single steps, and a named witness of the premises of every obligation. -/

open Sys2Proof Sys2Proof.Machine

namespace Sys2Proof.Tests

set_option Elab.async false

/-! ## Small states -/

def dataTlb : TlbEntry := { loadedTlb with page := 2, frame := 0x20000, x := false, w := true, d := true }

/-- The module with one resident team of 32 lanes that issues, every feature accepted, and a writable data page at VA 0x20000 that maps
to PA 0x20000. -/
def rig : State := { State.reset.withFetchWord 32 0x4C000000 with
  fwacc := #v[0x3FF, 0, 0, 0]
  tlb := [loadedTlb, dataTlb] }

def st0 : StreamId := .team loadedId
def x0 : Team := loadedTeam 0 0

/-- The team of the module changed, and its scalar stream. -/
def withTeam (f : Team → Team) : State := rig.mapTeam loadedId f
def onSc (f : Scalar → Scalar) (t : Team) : Team := { t with sc := f t.sc }
def withSc (f : Scalar → Scalar) : State := withTeam (onSc f)

/-- The module with a control core that issues. -/
def crig : State := { State.reset.withFetchWord 32 0xC0000000 with fwacc := #v[0x3FF, 0, 0, 0] }
def g0 : Group := loadedGroup 0
def withGroup (f : Group → Group) : State := crig.mapGroup 0 f
def onGroup (f : Scalar → Scalar) (g : Group) : Group := { g with sc := f g.sc }

theorem rig_team : rig.team? loadedId = some x0 := by decide +kernel
theorem crig_group : crig.group? 0 = some g0 := by decide +kernel

theorem issues (f : Team → Team) (h : ∀ x, (f x).id = x.id) : TeamIssues (withTeam f) (f x0) :=
  have e : (f x0).id = loadedId := h x0
  ⟨by rw [e]; rfl, by rw [e, withTeam, State.team?_mapTeam _ _ _ h, rig_team]; rfl⟩
theorem sc_issues (f : Scalar → Scalar) : TeamIssues (withSc f) (onSc f x0) := issues (onSc f) (fun _ => rfl)
theorem issuing (f : Scalar → Scalar) : Issuing (withSc f) st0 (f x0.sc) := (sc_issues f).issuing
theorem group_issues (f : Group → Group) (h : ∀ g, (f g).cl = g.cl) : GroupIssues (withGroup f) (f g0) :=
  have e : (f g0).cl = 0 := h g0
  ⟨by rw [e]; rfl, by rw [e, withGroup, State.group?_mapGroup _ _ _ h, crig_group]; rfl⟩
theorem ctrl_issues (f : Scalar → Scalar) : GroupIssues (withGroup (onGroup f)) (onGroup f g0) :=
  group_issues (onGroup f) (fun _ => rfl)
theorem ctrl_issuing (f : Scalar → Scalar) : Issuing (withGroup (onGroup f)) (.ctrl 0) (f g0.sc) := (ctrl_issues f).issuing

theorem all_some {α : Type} {o : Option α} {a : α} (h : o = some a) {P : α → Prop} (p : P a) : ∀ x, o = some x → P x :=
  fun _ e => (Option.some.inj (h.symm.trans e)) ▸ p

/-- A register of a stream set to a value, poisoned or not. -/
def setW (r : BitVec 6) (v : Word) (q : Bool) (sc : Scalar) : Scalar := sc.setReg r ⟨v, q⟩

/-- A team on core 0 whose core has the reset debug block is quiet. -/
theorem quiet_of {s : State} {id : TeamId} {x : Team} (h : s.team? id = some x) (hw : smWf CoreState.reset s.cores = true)
    (hp : x.place = some ⟨0, 0⟩) (hs : x.sc.stepping = false ∧ x.pendTrap = none) (hd : (s.core 0).dbg = Debug.reset) : s.quiet (.team id) := by
  refine ⟨hw, fun y p hy hyp => .inr ?_⟩
  rw [h] at hy
  cases hy
  rw [hp] at hyp
  cases hyp
  refine ⟨hs.1, hs.2, fun i => ?_⟩
  rw [hd]
  revert i
  decide

theorem still {s : State} (h : s.migrating = false) : ({ s with migrating := false } : State) = s := by
  cases s
  cases h
  rfl

/-- A scalar stream whose s4, s5 hold the address of the writable page. -/
def onPage (sc : Scalar) : Scalar := setW 4 0x20000 false sc

/-! ## Decoding: words written out from the encodings of spec/03 R63–R65 and R67–R81 -/

/-- The word of every scalar instruction. -/
theorem test_scalar_words_1 : ∀ p ∈ ([
    (0x0642B400, .add 36 10 52), (0x0642B401, .sub 36 10 52), (0x0642B402, .mul 36 10 52), (0x0642B403, .mulh 36 10 52),
    (0x0642B404, .mulhn 36 10 52), (0x0642B405, .and 36 10 52), (0x0642B406, .or 36 10 52), (0x0642B407, .xor 36 10 52),
    (0x0642B408, .andn 36 10 52), (0x0642B409, .shl 36 10 52), (0x0642B40A, .shr 36 10 52), (0x0642B40B, .sra 36 10 52),
    (0x0642B40C, .min 36 10 52), (0x0642B40D, .max 36 10 52), (0x0642B40E, .minn 36 10 52), (0x0642B40F, .maxn 36 10 52), (0x06428010, .clz 36 10),
    (0x06428011, .ctz 36 10), (0x06428012, .popc 36 10), (0x0A42AA5C, .addi 36 10 0x2a5c), (0x0E42AA5C, .andi 36 10 0x2a5c),
    (0x1242AA5C, .ori 36 10 0x2a5c), (0x1642AA5C, .xori 36 10 0x2a5c), (0x1A428015, .shli 36 10 21), (0x1E428015, .shri 36 10 21),
    (0x22428015, .srai 36 10 21), (0x2A455555, .lih 36 0x55555), (0x2E42AA5C, .ceqi 36 10 0x2a5c), (0x3242AA5C, .clti 36 10 0x2a5c),
    (0x3642AA5C, .aaddi 36 10 0x2a5c), (0x3A42B400, .aadd 36 10 52), (0x3A42B410, .asub 36 10 52), (0x3A42B42B, .aaddx 36 10 52 11),
    (0x3E42B400, .ceq 36 10 52), (0x3E42B401, .cne 36 10 52), (0x3E42B402, .clt 36 10 52), (0x3E42B403, .cle 36 10 52),
    (0x3E42B404, .cltn 36 10 52), (0x3E42B405, .clen 36 10 52), (0x3E42B406, .aceq 36 10 52), (0x3E42B407, .acltn 36 10 52),
    (0x4000BEEF, .b 0xbeef), (0x40A1BEEF, .beqz 10 0xbeef), (0x40A2BEEF, .bnez 10 0xbeef), (0x40A3BEEF, .bltz 10 0xbeef),
    (0x40A4BEEF, .bgez 10 0xbeef), (0x40A5BEEF, .bgtz 10 0xbeef), (0x40A6BEEF, .blez 10 0xbeef), (0x4450BEEF, .bkz 5 0xbeef),
    (0x4451BEEF, .bknz 5 0xbeef), (0x48A0BEEF, .call 10 0xbeef), (0x4C000000, .nop), (0x4C028001, .jr 10), (0x4E428002, .callr 36 10),
    (0x4C002B03, .trap 43), (0x4C000004, .rft), (0x4C000005, .bkpt), (0x4C028006, .sleep 10), (0x4C000007, .yield), (0x52580000, .kmov 9 6)] : List (Nat × Instr)), decodeTableWord 32 p.1 = some p.2 := by decide +kernel

/-- The word of every scalar instruction. -/
theorem test_scalar_words_2 : ∀ p ∈ ([
    (0x52580001, .knot 9 6), (0x5258C002, .kand 9 6 3), (0x5258C003, .kor 9 6 3), (0x5258C004, .kxor 9 6 3), (0x5258C005, .kandn 9 6 3),
    (0x52400006, .kall 9), (0x52400007, .kclr 9), (0x52401608, .ksetn 9 22), (0x50181609, .kpop 6 22), (0x5018160A, .kfirst 6 22),
    (0x5018160B, .ksum 6 22), (0x5244D60C, .kmovv 9 19 22), (0x5696BEEF, .lrun 165 0x2beef), (0x5802BEEF, .lsetpc 0x2beef),
    (0x5C028000, .setfmt 10), (0x5E400001, .getfmt 36), (0x6242B400, .lget 36 10 52), (0x6242B401, .lput 36 10 52), (0x664ABC00, .srr 36 0xabc),
    (0x656ABC01, .srw 22 0xabc), (0x664ABC02, .rdcnt 36 0xabc), (0x656ABC03, .csel 22 0xabc), (0x640ABC04, .czero 0xabc),
    (0x6A4BBEEF, .cld 36 5 0x1beef), (0x6E42B494, .sld 36 10 52 4 5), (0x7242B494, .sst 36 10 52 4 5), (0x7642B4A6, .satom 36 10 52 2 9 1),
    (0x78028000, .declass 10), (0x7C028000, .tlbinv 10), (0x7C000001, .atinv), (0x80180000, .exit 6), (0x82401601, .refill 9 22),
    (0x82401602, .refillW 9 22), (0x86428000, .spawn 36 10), (0x84028001, .binclose 10), (0x8ACA00E0, .xcopy 11 10 1 6),
    (0x8ACA01E0, .xfill 11 10 1 6), (0x8ACA0200, .xgath 11 10), (0x8ACA0300, .swbuild 11 10), (0x8AC01000, .hwait 11), (0x8AD61100, .htest 11 22),
    (0x8AC01200, .hcancel 11), (0x8C000600, .barArr 6), (0x8E400601, .barWait 36 6), (0x8C028602, .barExp 10 6), (0xC3400000, .mzero 3 1),
    (0xC3596001, .mma 3 1 1 2 1 0 1 4), (0xC3596002, .mmaq 3 1 1 2 1 0 1 4), (0xC3596003, .mmas 3 1 1 2 1 0 1 4), (0xC3002404, .mbank 3 36)] : List (Nat × Instr)), decodeTableWord 32 p.1 = some p.2 := by decide +kernel

def regArgs : LaneArgs := ⟨.reg, 200, 5, .vreg 4, .sreg 5, .imm 0x12345, 1, true, []⟩
/-- W0 of every lane operation with a lane register as destination; W1 and W2 name v4, s5 and the immediate 0x12345, RM 1 and HOLD. -/
theorem test_lane_words_1 : ∀ p ∈ ([
    (0x10032142, .fadd .f32), (0x10932142, .fsub .f64), (0x11232142, .fmul .f16), (0x11B32142, .ffma .bf16), (0x12032142, .ffms .f32),
    (0x12932142, .fmin .f64), (0x13232142, .fmax .f16), (0x13B32142, .fabs .bf16), (0x14032142, .fneg .f32), (0x14932142, .frint .f64),
    (0x15232142, .fclass .f16), (0x20132142, .frcp .f64), (0x20832142, .frsq .f32), (0x21132142, .fsqrt .f64), (0x21832142, .fdiv .f32),
    (0x22032142, .fexp2), (0x22832142, .flog2), (0x23032142, .fsint), (0x23832142, .fcost), (0x30332142, .cvt .f32 .bf16),
    (0x31832142, .cvt .f64 .i32), (0x32D32142, .cvt .f16 .n64), (0x33432142, .cvt .bf16 .e4m3), (0x34932142, .cvt .e4m3 .i64),
    (0x35032142, .cvt .e5m2 .f32), (0x36532142, .cvt .i8 .e5m2), (0x37A32142, .cvt .i16 .n8), (0x38132142, .cvt .i32 .f64),
    (0x39632142, .cvt .i64 .i8), (0x3AB32142, .cvt .n8 .n16), (0x3B232142, .cvt .n16 .f16), (0x3C732142, .cvt .n32 .i16),
    (0x3DC32142, .cvt .n64 .n32), (0x40032142, .iadd .i32), (0x40932142, .isub .n32), (0x41232142, .imul .i64), (0x41B32142, .imulh .n64),
    (0x42032142, .imad .i32), (0x42932142, .imin .n32), (0x43232142, .imax .i64), (0x43A32142, .iabs .w64), (0x44032142, .ineg .w32),
    (0x44B32142, .iadds .n64), (0x45132142, .isubs .n32), (0x50032142, .laneAnd .w32), (0x50932142, .laneOr .w64), (0x51032142, .laneXor .w32),
    (0x51932142, .laneAndn .w64), (0x52032142, .not .w32), (0x52932142, .laneShl .w64), (0x53032142, .laneShr .w32), (0x53932142, .laneSra .w64),
    (0x54032142, .rol .w32), (0x54932142, .ror .w64), (0x55032142, .laneClz .w32), (0x55932142, .laneCtz .w64), (0x56032142, .lanePopc .w32),
    (0x56932142, .brev .w64), (0x57032142, .bfe .w32), (0x57932142, .bfi .w64)] : List (Nat × (LaneArgs → Instr))), decodeTableWord 96 (p.1 + 2 ^ 32 * 0x00004001 + 2 ^ 64 * 0x85123453) = some (p.2 regArgs) := by
  decide +kernel

/-- W0 of every lane operation with a lane register as destination; W1 and W2 name v4, s5 and the immediate 0x12345, RM 1 and HOLD. -/
theorem test_lane_words_2 : ∀ p ∈ ([
    (0x58032142, .mov .w32), (0x58932142, .sel .w64), (0x80632142, .shflIdx .w32), (0x80F32142, .shflXor .w64), (0x81632142, .shflUp .w32),
    (0x81F32142, .shflDown .w64), (0x82632142, .bcast .w32), (0x82932142, .lidx), (0x84232142, .redAdd .f32), (0x84B32142, .redMin .i64),
    (0x85432142, .redMax .n64), (0x86932142, .scanAdd .n32), (0x87232142, .scanAddx .f32), (0x87B32142, .scanMax .i64), (0x85E32142, .redAnd .w32),
    (0x86732142, .redOr .w64), (0x90132142, .xswap .w64), (0xA0032142, .ld .p .n8), (0xA2432142, .ld .s .i8), (0xA4832142, .ld .n .n16),
    (0xA6C32142, .ld .d .i16), (0xA9032142, .ld .g .b32), (0xA9432142, .ld .g .b64), (0xA1832142, .ld .p .b128), (0xC4332142, .atom .and .n .w64),
    (0xC6432142, .atom .or .d .w32), (0xC2832142, .atom .min .s .w32), (0xC4B32142, .atom .max .n .w64), (0xC8F32142, .atom .maxn .g .w64),
    (0xC3032142, .atom .swap .s .w32), (0xD0032142, .cldLane .w32), (0xD0132142, .cldLane .w64), (0xE1032142, .mdrain), (0xE1832142, .qmx .e4m3),
    (0xE1932142, .qmx .e5m2)] : List (Nat × (LaneArgs → Instr))), decodeTableWord 96 (p.1 + 2 ^ 32 * 0x00004001 + 2 ^ 64 * 0x85123453) = some (p.2 regArgs) := by
  decide +kernel

def maskArgs : LaneArgs := ⟨.mask, 9, 5, .vreg 4, .sreg 5, .imm 0x12345, 1, true, []⟩
/-- W0 of every lane operation with a mask register as destination; W1 and W2 name v4, s5 and the immediate 0x12345, RM 1 and HOLD. -/
theorem test_lane_mask_words : ∀ p ∈ ([
    (0x60042542, .fcmp .eq .f32), (0x60942542, .fcmp .ne .f64), (0x61042542, .fcmp .lt .f32), (0x61942542, .fcmp .le .f64),
    (0x62042542, .fcmp .gt .f32), (0x62942542, .fcmp .ge .f64), (0x63042542, .fcmp .un .f32), (0x63942542, .fcmp .or .f64),
    (0x70042542, .icmp .eq .i32), (0x70942542, .icmp .ne .n32), (0x71242542, .icmp .lt .i64), (0x71B42542, .icmp .le .n64),
    (0x72042542, .icmp .gt .i32), (0x72942542, .icmp .ge .n32)] : List (Nat × (LaneArgs → Instr))), decodeTableWord 96 (p.1 + 2 ^ 32 * 0x00004001 + 2 ^ 64 * 0x85123453) = some (p.2 maskArgs) := by
  decide +kernel

def noneArgs : LaneArgs := ⟨.none, 0, 5, .vreg 4, .sreg 5, .imm 0x12345, 1, true, []⟩
/-- W0 of every lane operation with no destination as destination; W1 and W2 name v4, s5 and the immediate 0x12345, RM 1 and HOLD. -/
theorem test_lane_store_words : ∀ p ∈ ([
    (0x90880142, .swmark), (0xB0080142, .st .p .b8), (0xB2880142, .st .s .b16), (0xB5080142, .st .n .b32), (0xB7480142, .st .d .b64),
    (0xB9880142, .st .g .b128), (0xC2080142, .atom .add .s .w32), (0xC8780142, .atom .xor .g .w64), (0xC6C80142, .atom .minn .d .w32),
    (0xC5380142, .atom .cas .n .w64), (0xE0080142, .mfeedA), (0xE0880142, .mfeedB)] : List (Nat × (LaneArgs → Instr))), decodeTableWord 96 (p.1 + 2 ^ 32 * 0x00004001 + 2 ^ 64 * 0x85123453) = some (p.2 noneArgs) := by
  decide +kernel

/-- The example of spec/03 R72, FFMA.f32 v12, v12, s5, =0x3F8C_CCCD /k2, from its four words. -/
theorem test_r72_example : decodeLane [0x11803083, 0x0000C001, 0x85000000, 0x3F8CCCCD] =
    .ok (.ffma .f32 ⟨.reg, 12, 2, .vreg 12, .sreg 5, .lit 0, 0, false, [0x3F8CCCCD]⟩, []) := by rfl
/-- The encoder gives the same words. -/
theorem test_r72_encoded : encode (.ffma .f32 ⟨.reg, 12, 2, .vreg 12, .sreg 5, .lit 0, 0, false, [0x3F8CCCCD]⟩) =
    [0x11803083, 0x0000C001, 0x85000000, 0x3F8CCCCD] := by rfl

/-- Each source kind of R69 in source A of MOV.b32: a lane register, a latch, a scalar, a mask, a window word, an immediate. -/
theorem test_source_kinds : ∀ p ∈ ([(0x580, 0, 255, .vreg 255), (0x580, 0, 259, .latch 3), (0x580, 0, 447, .sreg 63), (0x580, 0, 527, .kreg 15),
    (0x580, 1, 0xE0123, .cwin 7 0x123), (0x580, 2, 0xFFFFF, .imm 0xFFFFF)] : List (Nat × Nat × Nat × Src)),
    decodeTableWord 96 (p.1 * 2 ^ 20 + p.2.1 * 16 + p.2.2.1 * 2 ^ 44) =
      some (.mov .w32 ⟨.reg, 0, 0, p.2.2.2, .vreg 0, .vreg 0, 0, false, []⟩) := by decide +kernel

/-- Payloads that R69 leaves out, and opcodes and words that no table row has, are refused. -/
theorem test_refused_payloads : ∀ p ∈ ([260, 383, 448, 511, 528, 1024] : List Nat), decodeTableWord 96 (0x580 * 2 ^ 20 + p * 2 ^ 44) = none := by
  decide +kernel
theorem test_refused_opcodes : ∀ o ∈ ([0x000, 0x158, 0x104, 0x240, 0x3E0, 0x4B0, 0x590, 0x640, 0x730, 0x83E, 0x910, 0xA1C, 0xB04, 0xCF4,
    0xD08, 0xE20, 0xF00] : List Nat), decodeTableWord 96 (o * 2 ^ 20) = none := by decide +kernel
theorem test_refused_scalar_words : ∀ w ∈ ([0x00000000, 0x04000013, 0x40070000, 0x44020000, 0x4C000008, 0x5000000D, 0x5C000002, 0x64000005, 0x6C000001,
    0x78000001, 0x80000003, 0x84000002, 0x88000004, 0x8C000003, 0xC4000000, 0xFC000000] : List Nat), decodeTableWord 32 w = none := by decide +kernel

/-! ## Ill-formed terms, one for each check of spec/03 R62, R65–R72 and R77 step 2, which Instr.wf refuses -/

def plain : LaneArgs := ⟨.reg, 8, 0, .vreg 4, .vreg 6, .vreg 0, 0, false, []⟩
theorem test_wf_plain : (Instr.iadd .i64 plain).wf = true ∧ (Instr.fadd .f32 { plain with rm := 4 }).wf = true := by decide +kernel
/-- A 64-bit pair that is odd, a level or width or operation code out of range, a barrier name without its flag. -/
theorem test_wf_scalar : ∀ i ∈ ([.aaddi 5 4 0, .aadd 5 4 6, .asub 5 4 6, .aaddx 5 4 6 0, .call 5 0, .jr 5, .callr 5 4, .callr 4 5, .lsetpc 0x3FFFF, .sld 4 6 8 0 4, .sld 4 6 8 5 4,
    .sld 4 6 8 1 6, .sld 5 6 8 1 5, .sst 4 6 8 0 4, .sst 4 6 8 1 1, .sst 5 6 8 1 5, .satom 4 6 8 0 10 0, .satom 5 6 8 0 0 1, .satom 4 6 9 0 0 1,
    .declass 5, .tlbinv 5, .spawn 6 4, .xcopy 0 5 0 0, .xcopy 0 4 0 1, .xfill 0 5 0 0, .xgath 0 5, .swbuild 0 5, .barExp 5 0, .mma 0 0 0 0 0 0 0 5,
    .mmaq 0 0 0 0 0 0 0 7, .mmas 0 0 0 0 0 0 0 5] : List Instr), i.wf = false := by decide +kernel
/-- A destination kind that the operation does not have, an odd or non-zero destination index, an unused source that is named, an odd
64-bit source, a mask outside SEL, a rounding field where nothing rounds and one out of range, a gap in the literals, HOLD and a level
where the operation has none. -/
theorem test_wf_lane : ∀ i ∈ ([.iadd .i32 { plain with dk := .mask, di := 1 }, .iadd .i32 { plain with dk := .none, di := 0 },
    .icmp .eq .i32 plain, .icmp .eq .i32 { plain with dk := .mask, di := 16 }, .iadd .i32 { plain with dk := .latch }, .iadd .i64 { plain with di := 9 },
    .iadd .i32 { plain with c := .vreg 1 }, .iadd .i64 { plain with a := .vreg 5 }, .iadd .i64 { plain with b := .sreg 5 }, .iadd .i32 { plain with a := .kreg 0 },
    .iadd .i32 { plain with rm := 1 }, .fadd .f32 { plain with rm := 5 }, .iadd .i32 { plain with a := .lit 1, lits := [0, 0] },
    .iadd .i32 { plain with lits := [0] }, .iadd .i32 { plain with a := .lit 0 }, .xswap .w32 { plain with b := .vreg 0, hold := true },
    .st .s .b32 { plain with dk := .none, di := 0, c := .vreg 10, hold := true }, .cvt .f32 .f32 { plain with b := .vreg 0 }, .atom .add .p .w32 { plain with c := .vreg 10 }, .atom .add .g .w32 { plain with c := .vreg 10, hold := true }] : List Instr), i.wf = false := by decide +kernel

/-! ## Single steps: results calculated by hand from the rules -/

/-- A register of the team's scalar stream after an instruction. -/
def after (i : Instr) (f : Scalar → Scalar) (r : BitVec 6) : Option PWord :=
  match exec i (withSc f) with
  | .next t => (t.team? loadedId).map (fun x => x.sc.reg r)
  | .fault _ => none
  | .refused _ => none
def inRegs (a b : Word) (sc : Scalar) : Scalar := setW 10 a false (setW 12 b false sc)

/-- 05 R108–R110: operands at a wrap, a sign change, a shift of the full width. -/
theorem test_scalar_arithmetic : ∀ p ∈ ([(.add 4 10 12, 0xFFFFFFFF, 1, 0), (.sub 4 10 12, 0, 1, 0xFFFFFFFF), (.mul 4 10 12, 0x80000000, 2, 0),
    (.mulh 4 10 12, 0xFFFFFFFF, 0xFFFFFFFF, 0), (.mulhn 4 10 12, 0xFFFFFFFF, 0xFFFFFFFF, 0xFFFFFFFE), (.and 4 10 12, 0xF0F0, 0xFF00, 0xF000),
    (.or 4 10 12, 0xF0F0, 0xFF00, 0xFFF0), (.xor 4 10 12, 0xF0F0, 0xFF00, 0x0FF0), (.andn 4 10 12, 0xF0F0, 0xFF00, 0x00F0),
    (.shl 4 10 12, 1, 31, 0x80000000), (.shr 4 10 12, 0x80000000, 31, 1), (.sra 4 10 12, 0x80000000, 31, 0xFFFFFFFF),
    (.min 4 10 12, 0xFFFFFFFF, 1, 0xFFFFFFFF), (.max 4 10 12, 0xFFFFFFFF, 1, 1), (.minn 4 10 12, 0xFFFFFFFF, 1, 1), (.maxn 4 10 12, 0xFFFFFFFF, 1, 0xFFFFFFFF),
    (.clz 4 10, 1, 0, 31), (.clz 4 10, 0, 0, 32), (.ctz 4 10, 0x80000000, 0, 31), (.popc 4 10, 0xF0F0, 0, 8), (.addi 4 10 0x3FFF, 0, 0, 0xFFFFFFFF),
    (.shli 4 10 31, 1, 0, 0x80000000), (.srai 4 10 4, 0x80000000, 0, 0xF8000000), (.lih 4 0xABCDE, 0, 0, 0xABCDE000), (.ceq 4 10 12, 5, 5, 1),
    (.clt 4 10 12, 0xFFFFFFFF, 0, 1), (.cltn 4 10 12, 0xFFFFFFFF, 0, 0), (.cle 4 10 12, 7, 7, 1), (.clti 4 10 0x3FFF, 0xFFFFFFFE, 0, 1)] :
    List (Instr × Word × Word × Word)), after p.1 (inRegs p.2.1 p.2.2.1) 4 = some ⟨p.2.2.2, false⟩ := by decide +kernel
/-- 04 R88: a poisoned operand poisons the result; 04 R85: s0 reads as zero and discards writes. -/
theorem test_scalar_poison : ((after (.add 4 10 12) (setW 10 5 true) 4).map (·.poison)) = some true ∧
    after (.add 0 10 12) (inRegs 3 4) 0 = some ⟨0, false⟩ := by decide +kernel
/-- 05 R111: a pair's carry passes into its high word. -/
theorem test_address_carry : after (.aaddi 4 10 1) (setW 10 0xFFFFFFFF false) 5 = some ⟨1, false⟩ ∧
    after (.aaddi 4 10 1) (setW 10 0xFFFFFFFF false) 4 = some ⟨0, false⟩ := by decide +kernel

def teamAfter (i : Instr) (f : Team → Team) : Option Team :=
  match exec i (withTeam f) with
  | .next t => t.team? loadedId
  | .fault _ => none
  | .refused _ => none

/-- 05 R112, R124, 04 R97: a branch goes to its own address plus four times its signed offset; TRAP completes and then enters at TVEC with
SUP set. -/
theorem test_branch : (teamAfter (.b 0xFFFF) id).map (·.sc.pc) = some 0xFFFC ∧ (teamAfter (.beqz 10 3) id).map (·.sc.pc) = some 0x1000C ∧
    (teamAfter (.bnez 10 3) id).map (·.sc.pc) = some 0x10004 := by decide +kernel
theorem test_trap_entry : (teamAfter (.trap 5) id).map (fun x => (x.sc.pc, x.sc.tpc, x.sc.sup)) = some (0x10000, 0x10004, true) := by
  decide +kernel
/-- 05 R115: masks of the 32 occupied lanes. -/
theorem test_masks : (teamAfter (.knot 1 0) id).map (fun x => x.k 1) = some 0 ∧ (teamAfter (.kpop 0 4) id).map (fun x => x.sc.reg 4) = some ⟨32, false⟩ ∧
    (teamAfter (.kfirst 1 4) id).map (fun x => x.sc.reg 4) = some ⟨0xFFFFFFFF, false⟩ := by decide +kernel

/-- Lane 0 of v8 after a lane instruction on v4 = a, v6 = b, v10 = c. -/
def laneAfter (mk : LaneArgs → Instr) (a b : Word) : Option PWord :=
  (teamAfter (mk ⟨.reg, 8, 0, .vreg 4, .vreg 6, .vreg 0, 0, false, []⟩) (fun x => ((x.setV 4 0 ⟨a, false⟩).setV 6 0 ⟨b, false⟩))).map (fun x => x.v 8 0)
def laneAfter1 (mk : LaneArgs → Instr) (a : Word) : Option PWord :=
  (teamAfter (mk ⟨.reg, 8, 0, .vreg 4, .vreg 0, .vreg 0, 0, false, []⟩) (fun x => x.setV 4 0 ⟨a, false⟩)).map (fun x => x.v 8 0)

/-- 07 R151–R163, 06 R126–R144: wraps, saturation, shifts, FP32 sums with ties, infinities and canonical NaNs, minimum of signed zeros,
conversions that round and saturate. -/
theorem test_lane_integers : ∀ p ∈ ([(.iadd .i32, 0x7FFFFFFF, 1, 0x80000000), (.isub .n32, 0, 1, 0xFFFFFFFF), (.iadds .i32, 0x7FFFFFFF, 1, 0x7FFFFFFF),
    (.isubs .n32, 0, 1, 0), (.imulh .i32, 0xFFFFFFFF, 0xFFFFFFFF, 0), (.imulh .n32, 0xFFFFFFFF, 0xFFFFFFFF, 0xFFFFFFFE), (.imin .i32, 0xFFFFFFFF, 1, 0xFFFFFFFF),
    (.imax .n32, 0xFFFFFFFF, 1, 0xFFFFFFFF), (.rol .w32, 0x80000001, 1, 3), (.ror .w32, 1, 1, 0x80000000), (.laneAndn .w32, 0xF0F0, 0xFF00, 0x00F0)] :
    List ((LaneArgs → Instr) × Word × Word × Word)), laneAfter p.1 p.2.1 p.2.2.1 = some ⟨p.2.2.2, false⟩ := by decide +kernel
theorem test_lane_floats : ∀ p ∈ ([(.fadd .f32, 0x3F800000, 0x3F800000, 0x40000000), (.fadd .f32, 0x3F800000, 0x33800000, 0x3F800000),
    (.fadd .f32, 0x3F800001, 0x33800000, 0x3F800002), (.fsub .f32, 0x7F800000, 0x7F800000, 0x7FC00000), (.fmul .f32, 0x40400000, 0xC0000000, 0xC0C00000),
    (.fdiv .f32, 0x3F800000, 0x40400000, 0x3EAAAAAB), (.fmin .f32, 0x00000000, 0x80000000, 0x80000000)] :
    List ((LaneArgs → Instr) × Word × Word × Word)), laneAfter p.1 p.2.1 p.2.2.1 = some ⟨p.2.2.2, false⟩ := by decide +kernel
theorem test_lane_unary : ∀ p ∈ ([(.fsqrt .f32, 0x40800000, 0x40000000), (.fneg .f32, 0x3F800000, 0xBF800000), (.fabs .f32, 0xBF800000, 0x3F800000),
    (.frcp .f32, 0x40800000, 0x3E800000), (.cvt .i32 .f32, 0x40200000, 2), (.cvt .i32 .f32, 0x7F800000, 0x7FFFFFFF), (.cvt .f32 .i32, 0xFFFFFFFF, 0xBF800000),
    (.cvt .n8 .f32, 0xBF800000, 0), (.not .w32, 0x0F0F0F0F, 0xF0F0F0F0), (.brev .w32, 1, 0x80000000), (.lanePopc .w32, 0xFF, 8), (.laneClz .w32, 0, 32),
    (.ineg .w32, 1, 0xFFFFFFFF)] : List ((LaneArgs → Instr) × Word × Word)), laneAfter1 p.1 p.2.1 = some ⟨p.2.2, false⟩ := by decide +kernel

/-- 10 R239, 00 R3: a store of a word to the page at 0x20000 leaves its bytes lowest first, and a load extends its sign. -/
theorem test_store_bytes : (match exec (.sst 12 4 0 4 4) (withSc (fun sc => setW 12 0x11223384 false (onPage sc))) with
    | .next t => t.mem.readBytes 0x20000 4
    | .fault _ => []
    | .refused _ => []) = [0x84, 0x33, 0x22, 0x11] := by decide +kernel
theorem test_load_signed : (match exec (.sld 12 4 0 4 1) { withSc onPage with mem := rig.mem.writeBytes 0x20000 [0x84] } with
    | .next t => (t.team? loadedId).map (fun x => x.sc.reg 12)
    | .fault _ => none
    | .refused _ => none) = some ⟨0xFFFFFF84, false⟩ := by decide +kernel
/-- 16 R346: SHAKE256 of no bytes begins with the published bytes. -/
theorem test_shake256 : shake256 4 [] = [0x46, 0xB9, 0xDD, 0x2B] := by decide +kernel

/-! ## Witnesses: the scalar stream -/

/-- Some stream issues, of a team and of a control core. -/
theorem witness_RegisterArithmeticResults :
    (∃ s sc, Issuing s st0 sc ∧ (sc.reg 4).val = 0 ∧ (sc.reg 5).val = 0xFFFFFFFF) ∧ (∃ s sc, Issuing s (.ctrl 0) sc) :=
  ⟨⟨_, _, issuing (setW 5 0xFFFFFFFF false), by decide +kernel, by decide +kernel⟩, _, _, ctrl_issuing id⟩

theorem witness_ImmediateAndAddressResults :
    (∃ s sc, Issuing s st0 sc) ∧ (∃ s sc, Issuing s (.ctrl 0) sc) ∧ (6 : BitVec 6).toNat % 2 = 0 ∧ (7 : BitVec 6).toNat % 2 = 1 :=
  ⟨⟨_, _, issuing id⟩, ⟨_, _, ctrl_issuing id⟩, by decide, by decide⟩

/-- Each branch with its condition true, false and poisoned; a mask with lanes and one without; each address register. -/
theorem witness_BranchesAndCallsTransfer :
    (∃ s sc, Issuing s st0 sc ∧ (sc.reg 4).poison = true) ∧
    (∃ s sc, Issuing s st0 sc ∧ (sc.reg 4).poison = false ∧ (sc.reg 4).val.toInt = 0) ∧
    (∃ s sc, Issuing s st0 sc ∧ (sc.reg 4).poison = false ∧ (sc.reg 4).val.toInt < 0) ∧
    (∃ s sc, Issuing s st0 sc ∧ (sc.reg 4).poison = false ∧ 0 < (sc.reg 4).val.toInt) ∧
    (∃ s sc x, Issuing s (.team x.id) sc ∧ s.team? x.id = some x ∧ (∀ j, j < x.lanes → (x.k 1).getLsbD j = false) ∧
      ¬∀ j, j < x.lanes → (x.k 0).getLsbD j = false) ∧
    (∃ s sc, Issuing s (.ctrl 0) sc) ∧
    (∃ s sc, Issuing s st0 sc ∧ (sc.pair 4).poison = false) ∧
    (∃ s sc, Issuing s st0 sc ∧ (sc.pair 4).poison = true) ∧ (4 : BitVec 6).toNat % 2 = 0 ∧ (5 : BitVec 6).toNat % 2 = 1 :=
  ⟨⟨_, _, issuing (setW 4 1 true), by decide +kernel⟩, ⟨_, _, issuing id, by decide +kernel, by decide +kernel⟩,
   ⟨_, _, issuing (setW 4 0x80000000 false), by decide +kernel, by decide +kernel⟩,
   ⟨_, _, issuing (setW 4 1 false), by decide +kernel, by decide +kernel⟩,
   ⟨_, _, x0, issuing id, (sc_issues id).2, by decide +kernel, by decide +kernel⟩, ⟨_, _, ctrl_issuing id⟩,
   ⟨_, _, issuing id, by decide +kernel⟩, ⟨_, _, issuing (setW 5 1 true), by decide +kernel⟩, by decide, by decide⟩

/-- BKPT with and without a holding debug block, RFT in each mode, with a run to resume and without. -/
theorem witness_TrapsEnterAndReturn :
    (∃ s sc, Issuing s st0 sc ∧ (∀ c, s.coreOf st0 = some c → (s.core c).dbg.hold = false) ∧ sc.sup = false) ∧
    (∃ s sc, Issuing s st0 sc ∧ (∀ c, s.coreOf st0 = some c → (s.core c).dbg.hold = false) ∧ sc.sup = true) ∧
    (∃ s sc, Issuing s (.ctrl 0) sc ∧ (∀ c, s.coreOf (.ctrl 0) = some c → (s.core c).dbg.hold = false) ∧ sc.sup = false) ∧
    (∃ s x c, TeamIssues s x ∧ s.coreOf (.team x.id) = some c ∧ (s.core c).dbg.hold = true) ∧
    (∃ s x, TeamIssues s x ∧ x.sc.sup = true ∧ x.sc.runLeftField ≠ 0) ∧
    (∃ s x, TeamIssues s x ∧ x.sc.sup = true ∧ x.sc.runLeftField = 0) ∧
    (∃ s g, GroupIssues s g ∧ g.sc.sup = true) ∧ (∃ s sc, Issuing s st0 sc ∧ sc.sup = false) :=
  ⟨⟨_, _, issuing id, all_some (a := 0) (by decide +kernel) (by decide +kernel), by decide +kernel⟩,
   ⟨_, _, issuing (fun c => { c with tstat := 1 }), all_some (a := 0) (by decide +kernel) (by decide +kernel), by decide +kernel⟩,
   ⟨_, _, ctrl_issuing id, by decide +kernel, by decide +kernel⟩,
   ⟨withSc id |>.mapCore 0 (fun c => { c with dbg := { c.dbg with dctl := 1 } }), x0, 0, by constructor <;> decide +kernel,
    by decide +kernel, by decide +kernel⟩,
   ⟨_, _, sc_issues (fun c => { c with tstat := 1, tdetail := 0x800000 }), by decide +kernel, by decide +kernel⟩,
   ⟨_, _, sc_issues (fun c => { c with tstat := 1 }), by decide +kernel, by decide +kernel⟩,
   ⟨_, _, ctrl_issues (fun c => { c with tstat := 1 }), by decide +kernel⟩, ⟨_, _, issuing id, by decide +kernel⟩⟩

theorem rig_quiet (f : Scalar → Scalar) (h : (f x0.sc).stepping = false) : (withSc f).quiet st0 :=
  quiet_of (x := onSc f x0) (sc_issues f).2 (by show smWf CoreState.reset rig.cores = true; decide +kernel) rfl ⟨h, rfl⟩
    (by show (rig.core 0).dbg = _; decide +kernel)

/-- A quiet stream, and a count for SLEEP of zero, of more, and poisoned. -/
theorem witness_StreamsAdvanceAndWait :
    (∃ (s : State) (x : Team) (p : Placement), s.team? x.id = some x ∧ x.place = some p ∧ smWf CoreState.reset s.cores = true ∧
      s.quiet (.team x.id)) ∧
    (∃ s sc, Issuing s st0 sc ∧ s.quiet st0 ∧ (sc.reg 4).poison = true) ∧
    (∃ s sc, Issuing s st0 sc ∧ s.quiet st0 ∧ (sc.reg 4).poison = false ∧ sc.debugStopped = false ∧ (sc.reg 4).val = 0) ∧
    (∃ s sc, Issuing s st0 sc ∧ s.quiet st0 ∧ (sc.reg 4).poison = false ∧ sc.debugStopped = false ∧ (sc.reg 4).val ≠ 0) ∧
    (∃ s sc, Issuing s (.ctrl 0) sc ∧ s.quiet (.ctrl 0)) :=
  ⟨⟨withSc id, onSc id x0, ⟨0, 0⟩, (sc_issues id).2, rfl, by decide +kernel, rig_quiet id rfl⟩,
   ⟨_, _, issuing (setW 4 1 true), rig_quiet _ rfl, by decide +kernel⟩,
   ⟨_, _, issuing (setW 4 0 false), rig_quiet _ rfl, by decide +kernel, by decide +kernel, by decide +kernel⟩,
   ⟨_, _, issuing (setW 4 1 false), rig_quiet _ rfl, by decide +kernel, by decide +kernel, by decide +kernel⟩,
   _, _, ctrl_issuing id, trivial⟩

/-! ## Witnesses: masks, runs and special registers -/

/-- A mask with and without a set lane, a count that is poisoned and one that is not, and a word below and at n. -/
theorem witness_MaskInstructionResults :
    (∃ s x, TeamIssues s x ∧ (x.sc.reg 4).poison = true) ∧
    (∃ s x, TeamIssues s x ∧ (x.sc.reg 4).poison = false ∧ x.k 1 = 0 ∧ (x.k 0).getLsbD 0 = true ∧
      x.nw ≤ (1 : BitVec 5).toNat ∧ (0 : BitVec 5).toNat < x.nw) ∧ ∃ s g, GroupIssues s g :=
  ⟨⟨_, _, sc_issues (setW 4 1 true), by decide +kernel⟩,
   ⟨_, _, sc_issues id, by decide +kernel, by decide +kernel, by decide +kernel, by decide +kernel, by decide +kernel⟩,
   _, _, ctrl_issues id⟩

/-- A group with one matrix operation queued. -/
def oneQueued (g : Group) : Group :=
  { g with arrays := [{ ArrayState.reset 0 with queue := [⟨.mma, 0, 0, 0, 0, false, false, false, 0, 0, none, 0, 0⟩] }] }

/-- The last offset of a run and the code 0x3FFFF; a legal FMT and an illegal one; a control core with a matrix operation queued; the
last lane and register and the ones after them. -/
theorem witness_LaneRunsAndFormats :
    (∃ s x, TeamIssues s x ∧ (0x3FFFE : BitVec 18).toNat ≠ 0x3FFFF ∧ (0x3FFFF : BitVec 18).toNat = 0x3FFFF) ∧
    (∃ s sc, Issuing s st0 sc ∧ (((sc.reg 4).val.toNat < 2 ^ 16 ∧ (sc.reg 4).val.toNat % 8 ≤ 4 ∧ (sc.reg 4).val.toNat / 128 % 2 = 0 ∧
        (sc.reg 4).val.toNat / 256 % 16 ≤ 3 ∧ (sc.reg 4).val.toNat / 4096 % 16 ≤ 6) ∧ s.feature 2 = true) ∧ (sc.reg 4).poison = false ∧ (sc.reg 4).val = 0x6304) ∧
    (∃ s sc, Issuing s st0 sc ∧ (((sc.reg 4).val.toNat < 2 ^ 16 ∧ (sc.reg 4).val.toNat % 8 ≤ 4 ∧ (sc.reg 4).val.toNat / 128 % 2 = 0 ∧
        (sc.reg 4).val.toNat / 256 % 16 ≤ 3 ∧ (sc.reg 4).val.toNat / 4096 % 16 ≤ 6) ∧ s.feature 2 = true) ∧ (sc.reg 4).poison = true) ∧
    (∃ s sc, Issuing s st0 sc ∧ ¬((sc.reg 4).val.toNat < 2 ^ 16)) ∧
    (∃ s sc g, Issuing s (.ctrl 0) sc ∧ s.group? 0 = some g ∧ (sc.reg 4).poison = false ∧ (((sc.reg 4).val.toNat < 2 ^ 16 ∧ (sc.reg 4).val.toNat % 8 ≤ 4 ∧ (sc.reg 4).val.toNat / 128 % 2 = 0 ∧
        (sc.reg 4).val.toNat / 256 % 16 ≤ 3 ∧ (sc.reg 4).val.toNat / 4096 % 16 ≤ 6) ∧ s.feature 2 = true) ∧
      ∃ x ∈ g.arrays, x.queue ≠ []) ∧
    (∃ s x, TeamIssues s x ∧ (x.sc.reg 4).val.toNat + 1 = x.lanes ∧ (x.sc.reg 5).val.toNat + 1 = x.alloc ∧
      (x.sc.reg 4).poison = false ∧ (x.sc.reg 5).poison = false) ∧
    (∃ s x, TeamIssues s x ∧ x.lanes = (x.sc.reg 4).val.toNat) ∧ (∃ s x, TeamIssues s x ∧ x.alloc = (x.sc.reg 5).val.toNat) ∧
    (∃ s x, TeamIssues s x ∧ (x.sc.reg 4).val.toNat < x.lanes ∧ (x.sc.reg 5).val.toNat < x.alloc ∧ (x.sc.reg 4).poison = true) :=
  ⟨⟨_, _, sc_issues id, by decide, by decide⟩,
   ⟨_, _, issuing (setW 4 0x6304 false), by decide +kernel, by decide +kernel, by decide +kernel⟩,
   ⟨_, _, issuing (setW 4 0 true), by decide +kernel, by decide +kernel⟩, ⟨_, _, issuing (setW 4 0x10000 false), by decide +kernel⟩,
   ⟨_, _, _, (group_issues oneQueued (fun _ => rfl)).issuing, (group_issues oneQueued (fun _ => rfl)).2, by decide +kernel, by decide +kernel,
    by decide +kernel⟩,
   ⟨_, _, sc_issues (fun c => setW 4 31 false (setW 5 255 false c)), by decide +kernel, by decide +kernel, by decide +kernel, by decide +kernel⟩,
   ⟨_, _, sc_issues (setW 4 32 false), by decide +kernel⟩, ⟨_, _, sc_issues (setW 5 256 false), by decide +kernel⟩,
   ⟨_, _, sc_issues (setW 4 31 true), by decide +kernel, by decide +kernel, by decide +kernel⟩⟩

/-- A register that is absent, one of 32 bits and one of 64 bits; the first and the last word of TK0 that a team has. -/
theorem witness_SpecialRegisterReads :
    (∃ s sc, Issuing s st0 sc ∧ s.special st0 sc 0xFFF = none ∧ s.special st0 sc 0x003 = some (.w32 32) ∧
      s.special st0 sc 0x040 = some (.w64 0x10000) ∧ s.counter st0 0xFFF = none ∧ s.counter st0 0x110 = some (.w64 0)) ∧
    (∃ (s : State) (x : Team) (c : Nat), s.team? x.id = some x ∧ s.coreOf (.team x.id) = some c ∧ 0 < x.nw ∧
      (s.coreMap (c / 36)).ltab[0]? = some (c % 36)) ∧ (∃ (s : State) (g : Group), s.group? g.cl = some g) :=
  ⟨⟨_, _, issuing id, by decide +kernel, by decide +kernel, by decide +kernel, by decide +kernel, by decide +kernel⟩,
   ⟨_, onSc id x0, 0, (sc_issues id).2, by decide +kernel, by decide +kernel, by decide +kernel⟩, _, _, (ctrl_issues id).2⟩

/-- Both modes, a poisoned source, and RUNLEFT at 256 and above; the first and last programmable counter. -/
theorem witness_SpecialRegisterWrites :
    (∃ s sc, Issuing s st0 sc ∧ sc.sup = false) ∧
    (∃ s sc, Issuing s st0 sc ∧ sc.sup = true ∧ (sc.reg 4).poison = false ∧ (sc.reg 5).poison = false) ∧
    (∃ s sc, Issuing s st0 sc ∧ sc.sup = true ∧ (sc.reg 4).poison = true) ∧
    (∃ s sc, Issuing s st0 sc ∧ sc.sup = true ∧ 256 < (sc.reg 4).val.toNat / 2 ^ 23) ∧
    (∃ s sc, Issuing s st0 sc ∧ sc.sup = true ∧ (sc.reg 4).val.toNat / 2 ^ 23 = 256) ∧
    (∃ s x p, TeamIssues s x ∧ x.place = some p ∧ (0x110 : BitVec 12).toNat = 0x110 + (0 : Fin 16).val ∧
      (0x11F : BitVec 12).toNat = 0x110 + (15 : Fin 16).val ∧ x.sc.sup = true ∧ (x.sc.reg 4).val.toNat % 256 = 13 ∧
      (x.sc.reg 4).val.toNat / 256 = 0 ∧ (x.sc.reg 4).poison = false ∧ 13 < (x.sc.reg 5).val.toNat % 256) ∧
    (∃ s sc, Issuing s (.ctrl 0) sc ∧ isTeam (.ctrl 0) = false) ∧ (∃ (s : State) (g : Group), s.group? g.cl = some g) :=
  ⟨⟨_, _, issuing id, by decide +kernel⟩, ⟨_, _, issuing (fun c => { c with tstat := 1 }), by decide +kernel, by decide +kernel, by decide +kernel⟩,
   ⟨_, _, issuing (fun c => setW 4 0 true { c with tstat := 1 }), by decide +kernel, by decide +kernel⟩,
   ⟨_, _, issuing (fun c => setW 4 0x80800000 false { c with tstat := 1 }), by decide +kernel, by decide +kernel⟩,
   ⟨_, _, issuing (fun c => setW 4 0x80000000 false { c with tstat := 1 }), by decide +kernel, by decide +kernel⟩,
   ⟨_, _, ⟨0, 0⟩, sc_issues (fun c => setW 4 13 false (setW 5 14 false { c with tstat := 1 })), by decide +kernel, by decide +kernel,
    by decide +kernel, by decide +kernel, by decide +kernel, by decide +kernel, by decide +kernel, by decide +kernel⟩,
   ⟨_, _, ctrl_issuing id, rfl⟩, _, _, (ctrl_issues id).2⟩

/-! ## Witnesses: memory from the scalar stream -/

/-- The agent that makes an access that a stream begins, and the state just before its events, when it performs whole. -/
def performs? (s : State) (st : StreamId) (a : Access) : Option (Agent × State) :=
  let held := s.mapScalar st (·.newAcc a)
  match held.agentOf st, held.scalar? st with
  | some ag, some sc =>
    match State.classAll ag a.events held false with
    | .go v o =>
      match State.versionAll ag a.events (v.orders st a o) with
      | .go w _ =>
        match State.readyAll ag true a.events w false with
        | .go u _ => if u.limit = none ∧ sc.behind none a = false then some (ag, u) else none
        | .block _ _ => none
        | .retry _ => none
      | .block _ _ => none
      | .retry _ => none
    | .block _ _ => none
    | .retry _ => none
  | _, _ => none

theorem performs_of {s : State} {st : StreamId} {a : Access} {ag : Agent} {u : State} (h : performs? s st a = some (ag, u)) :
    Performs s st a ag u := by
  simp only [performs?] at h
  split at h
  · split at h
    · split at h
      · split at h
        · split at h
          · simp only [Option.some.injEq, Prod.mk.injEq] at h
            obtain ⟨rfl, rfl⟩ := h
            rename_i hs _ _ _ h1 _ _ _ h2 _ _ _ h3 h4
            exact ⟨‹_›, ⟨_, hs, h4.2⟩, _, _, _, _, _, h1, h2, h3, h4.1⟩
          · cases h
        · cases h
        · cases h
      · cases h
      · cases h
    · cases h
    · cases h
  · cases h

/-- The agent, the place and the state of a scalar access that passes its checks and performs whole. -/
def reach? (s : State) (st : StreamId) (sc : Scalar) (k : AccKind) (lv : Level) (off : DWord) (width : Nat) (op : EvOp) (dest : AccDest) :
    Option (Agent × Spot × State) :=
  match s.agentOf st, s.launchOf st with
  | some ag, some l =>
    match s.scalarReach st l lv off width with
    | some r =>
      match s.check ag k (k == .atomic) 0 r off width with
      | (v, .spot p) =>
        match performs? ((v.mapScalar st (·.goto (sc.pc + 4))).countFor st 0x03 1) st (sc.access k ⟨p, op⟩ dest) with
        | some (ag', u) => if ag' = ag then some (ag, p, u) else none
        | none => none
      | _ => none
    | none => none
  | _, _ => none

theorem reach?_reaches {s : State} {st : StreamId} {sc : Scalar} {k : AccKind} {lv : Level} {off : DWord} {width : Nat} {op : EvOp} {dest : AccDest}
    {f : Agent × Spot × State → Bool} (h : (reach? s st sc k lv off width op dest).any f = true) :
    ∃ ag p u, Reaches s st sc k lv off width op dest ag p u ∧ f (ag, p, u) = true := by
  rw [Option.any_eq_true] at h
  obtain ⟨⟨ag, p, u⟩, e, hf⟩ := h
  refine ⟨ag, p, u, ?_, hf⟩
  simp only [reach?] at e
  split at e
  · split at e
    · split at e
      · split at e
        · split at e
          · simp only [Option.some.injEq, Prod.mk.injEq] at e
            obtain ⟨rfl, rfl, rfl⟩ := e
            rename_i h4 h5
            exact ⟨_, ⟨_, _, ‹_›, ‹_›, ‹_›, ‹_›⟩, h5 ▸ performs_of h4⟩
          · cases e
        · cases e
      · cases e
    · cases e
  · cases e

/-- The same for checks alone. -/
def passes? (s : State) (st : StreamId) (k : AccKind) (lv : Level) (off : DWord) (width : Nat) : Bool :=
  match s.agentOf st, s.launchOf st with
  | some ag, some l =>
    match s.scalarReach st l lv off width with
    | some r =>
      match (s.check ag k (k == .atomic) 0 r off width).2 with
      | .spot _ => true
      | _ => false
    | none => false
  | _, _ => false

theorem passes_of {s : State} {st : StreamId} {k : AccKind} {lv : Level} {off : DWord} {width : Nat} (h : passes? s st k lv off width = true) :
    ∃ ag p v, PassesChecks s st k lv off width ag p v := by
  simp only [passes?] at h
  split at h
  · split at h
    · split at h
      · exact ⟨_, _, _, _, _, ‹_›, ‹_›, ‹_›, Prod.ext rfl ‹_›⟩
      · cases h
    · cases h
  · cases h

/-- A global access of 1, 4 and 8 bytes; clean and poisoned data. -/
theorem witness_ScalarLoadsAndStores :
    (∃ s sc ag p u, Issuing s st0 sc ∧ scalarLevel 4 = some .g ∧ sldWidth 0 = some .n8 ∧ sldWidth 5 = some .b64 ∧
      (6 : BitVec 6).toNat % 2 = 0 ∧ (sc.address 4 0 .g).2 = false ∧
      Reaches s st0 sc .read .g (sc.address 4 0 .g).1 (ldBytes .b64) (.read (ldBytes .b64)) (.sreg 6 true .b64) ag p u) ∧
    (∃ s sc ag p u, Issuing s st0 sc ∧ (sc.address 4 0 .g).2 = false ∧
      Reaches s st0 sc .read .g (sc.address 4 0 .g).1 (ldBytes .n8) (.read (ldBytes .n8)) (.sreg 6 false .n8) ag p u) ∧
    (∃ s sc ag p u, Issuing s st0 sc ∧ sstWidth 5 = some .b64 ∧ (sc.address 4 0 .g).2 = false ∧ (sc.pair 6).poison = false ∧
      Reaches s st0 sc .write .g (sc.address 4 0 .g).1 (stBytes .b64)
        (.write ((List.range (stBytes .b64)).map (fun i => BitVec.ofNat 8 ((sc.pair 6).val.toNat / 256 ^ i)))) .none ag p u) ∧
    (∃ s sc ag p v, Issuing s st0 sc ∧ (sc.pair 6).poison = true ∧ PassesChecks s st0 .write .g (sc.address 4 0 .g).1 (stBytes .b64) ag p v) := by
  refine ⟨⟨withSc onPage, onPage x0.sc, ?_⟩, ⟨withSc onPage, onPage x0.sc, ?_⟩, ⟨withSc onPage, onPage x0.sc, ?_⟩,
    ⟨withSc (fun c => setW 7 1 true (onPage c)), setW 7 1 true (onPage x0.sc), ?_⟩⟩
  · obtain ⟨ag, p, u, h, -⟩ := reach?_reaches (s := withSc onPage) (st := st0) (sc := onPage x0.sc) (k := .read) (lv := .g)
      (off := ((onPage x0.sc).address 4 0 .g).1) (width := ldBytes .b64) (op := .read (ldBytes .b64)) (dest := .sreg 6 true .b64)
      (f := fun _ => true) (by decide +kernel)
    exact ⟨ag, p, u, issuing onPage, by decide, by decide, by decide, by decide, by decide +kernel, h⟩
  · obtain ⟨ag, p, u, h, -⟩ := reach?_reaches (s := withSc onPage) (st := st0) (sc := onPage x0.sc) (k := .read) (lv := .g)
      (off := ((onPage x0.sc).address 4 0 .g).1) (width := ldBytes .n8) (op := .read (ldBytes .n8)) (dest := .sreg 6 false .n8)
      (f := fun _ => true) (by decide +kernel)
    exact ⟨ag, p, u, issuing onPage, by decide +kernel, h⟩
  · obtain ⟨ag, p, u, h, -⟩ := reach?_reaches (s := withSc onPage) (st := st0) (sc := onPage x0.sc) (k := .write) (lv := .g)
      (off := ((onPage x0.sc).address 4 0 .g).1) (width := stBytes .b64)
      (op := .write ((List.range (stBytes .b64)).map (fun i => BitVec.ofNat 8 (((onPage x0.sc).pair 6).val.toNat / 256 ^ i)))) (dest := .none)
      (f := fun _ => true) (by decide +kernel)
    exact ⟨ag, p, u, issuing onPage, by decide, by decide +kernel, by decide +kernel, h⟩
  · obtain ⟨ag, p, v, h⟩ := passes_of (s := withSc (fun c => setW 7 1 true (onPage c))) (st := st0) (k := .write) (lv := .g)
      (off := ((setW 7 1 true (onPage x0.sc)).address 4 0 .g).1) (width := stBytes .b64) (by decide +kernel)
    exact ⟨ag, p, v, issuing (fun c => setW 7 1 true (onPage c)), by decide +kernel, h⟩

/-- A constant window of 8 words on the page: its last word may be read, and the next is beyond it. -/
def windowed : State :=
  rig.mapLaunch 0 (fun l => { l with windows := l.windows.set 0 ⟨0x20000, 8⟩ })

/-- The place of the window's last word, and the state in which its read begins. -/
def windowWord : Option (Launch × TlbEntry × Nat × Agent × State) :=
  match windowed.agentOf st0, windowed.launchOf st0 with
  | some ag, some l =>
    match windowed.translate ag ((l.windows.get 0).base + BitVec.ofNat 64 (4 * 7)) with
    | (v, .ok e pa) =>
      let p : Spot := ⟨0, some ((l.windows.get 0).base + BitVec.ofNat 64 (4 * 7)), some e, .mem pa, .const⟩
      (performs? ((v.mapScalar st0 (·.goto (x0.sc.pc + 4))).countFor st0 0x03 1) st0 (x0.sc.access .read ⟨p, .read 4⟩ (.sreg 6 false .b32))).map
        (fun r => (l, e, pa, r.1, r.2))
    | _ => none
  | _, _ => none

theorem witness_ScalarLoadsAndStores_window : ∃ s sc ag l v u e pa, Issuing s st0 sc ∧ s.agentOf st0 = some ag ∧
    s.launchOf st0 = some l ∧ (l.windows.get 0).len = 8 ∧
    s.translate ag ((l.windows.get 0).base + BitVec.ofNat 64 (4 * 7)) = (v, .ok e pa) ∧ e.permits .read ag.sup = true ∧
    ∃ ag', Performs ((v.mapScalar st0 (·.goto (sc.pc + 4))).countFor st0 0x03 1) st0 (sc.access .read
      ⟨⟨0, some ((l.windows.get 0).base + BitVec.ofNat 64 (4 * 7)), some e, .mem pa, .const⟩, .read 4⟩ (.sreg 6 false .b32)) ag' u := by
  have h : windowWord.any (fun r => (r.1.windows.get 0).len == 8 && r.2.1.permits .read r.2.2.2.1.sup && r.2.2.2.1.sup == false) = true := by
    decide +kernel
  have hs : (windowed.agentOf st0).all (fun a => a.sup == false) = true := by decide +kernel
  have i : Issuing windowed st0 x0.sc := by constructor <;> decide +kernel
  rw [Option.any_eq_true] at h
  obtain ⟨⟨l, e, pa, ag', u⟩, hw, h⟩ := h
  simp only [Bool.and_eq_true, beq_iff_eq] at h
  simp only [windowWord] at hw
  split at hw
  · split at hw
    · simp only [Option.map_eq_some_iff, Prod.mk.injEq] at hw
      obtain ⟨⟨a, w⟩, hp, rfl, rfl, rfl, rfl, rfl⟩ := hw
      rename_i ag l h1 h2 _ v e pa h3
      rw [h1] at hs
      simp only [Option.all_some, beq_iff_eq] at hs
      exact ⟨_, _, ag, l, v, _, e, pa, i, h1, h2, h.1.1, h3, by rw [hs, ← h.2]; exact h.1.2, _, performs_of hp⟩
    · cases hw
  · cases hw

/-- An access with two events left that waits for nothing, one that a turn cuts, and one that finds a version of another gang. -/
def startedRead : Access :=
  { x0.sc.access .read ⟨⟨0, some 0x20000, some dataTlb, .mem 0x20000, .l1⟩, .read 4⟩ (.sreg 4 false .b32) with
    begun := true
    classed := true
    events := [⟨⟨0, some 0x20000, some dataTlb, .mem 0x20000, .l1⟩, .read 4⟩, ⟨⟨1, some 0x20004, some dataTlb, .mem 0x20004, .l1⟩, .read 4⟩] }
def reading : State := withSc (fun c => { c with acc := some startedRead })
def readingOne : State := { reading with limit := some 1 }
def readingVersioned : State :=
  { reading with
    gangs := ⟨⟨0, 9⟩, 0, true, false, false, [], 0, []⟩ :: reading.gangs
    tags := [⟨.mem 0x400, ⟨0, 9⟩, (List.replicate 128 0), (List.replicate 32 false)⟩] }

/-- The same access at its issue, to a granule that another core has as PRIV. -/
def issuedRead : Access := { startedRead with
  begun := false
  classed := false }
def readingPriv : State := (withSc (fun c => { c with acc := some issuedRead })).setClass 2 (.priv 1 false)

/-- What the events of the current access find. -/
def found (s : State) : Option Ready :=
  match s.agentOf st0, (s.scalar? st0).bind (·.acc) with
  | some ag, some a => some (if a.classed then State.readyAll ag true a.events s false else State.classAll ag a.events s a.ordered)
  | _, _ => none

theorem witness_AccessesPerformInTurns :
    (∃ s sc ag a v o, s.scalar? st0 = some sc ∧ sc.accAt none = some a ∧ s.agentOf st0 = some ag ∧ a.wait = none ∧
      sc.behind none a = false ∧ a.classed = true ∧ a.begun = true ∧
      State.readyAll ag true a.events s false = .go v o ∧ v.limit = some 1 ∧ 1 < a.events.length) ∧
    (found readingVersioned).any (fun r => match r with | .block v _ => v.scalar? st0 == readingVersioned.scalar? st0 | _ => false) = true ∧
    (found readingPriv).any (fun r => match r with | .block v _ => v.scalar? st0 == readingPriv.scalar? st0 | _ => false) = true ∧
    (∃ sc : Scalar, sc.accAt none = some { startedRead with wait := some (.cxl 0) } ∧ ({ startedRead with wait := some (.cxl 0) } : Access).wait.isSome = true) := by
  refine ⟨?_, by decide +kernel, by decide +kernel, { x0.sc with acc := some { startedRead with wait := some (.cxl 0) } }, rfl, rfl⟩
  have h : (match readingOne.agentOf st0 with
    | some ag => match State.readyAll ag true startedRead.events readingOne false with
      | .go v _ => v.limit == some 1
      | _ => false
    | none => false) = true := by decide +kernel
  split at h
  · split at h
    · exact ⟨readingOne, { x0.sc with acc := some startedRead }, _, startedRead, _, _, by decide +kernel, rfl, ‹_›, rfl, by decide +kernel, rfl, rfl,
        ‹_›, by simpa using h, by decide⟩
    · cases h
  · cases h

/-- An atomic of 32 and of 64 bits, a CAS that matches and one that does not, and a poisoned location. -/
theorem witness_ScalarAtomicReadsAndWrites (poisoned : Bool) : ∃ s sc ag p u, Issuing s st0 sc ∧ atomOp 9 = some .cas ∧ atomOp 0 = some .add ∧
    atomLevel 3 = .g ∧ (sc.base64 4).poison = false ∧ (sc.pair 6).poison = false ∧ (sc.pair 8).poison = false ∧
    Reaches s st0 sc .atomic .g (sc.base64 4).val 8 (.atomic .cas .w64 (sc.pair 6).val (sc.pair 8).val) (.sreg 8 true .b64) ag p u ∧
    u.hostErr p.loc = false ∧ (u.locPoison p.loc 4 = poisoned ∧ u.locPoison (p.loc.add 4) 4 = false) ∧ natOfBytes (u.locBytes p.loc 4) = 0 ∧
    (sc.reg 6).val ≠ 0 ∧ (sc.pair 8).val = 0 := by
  obtain ⟨ag, p, u, h, g⟩ := reach?_reaches
    (s := { withSc (fun c => setW 6 1 false (onPage c)) with poison := if poisoned then [(0x8000, true)] else [] }) (st := st0)
    (sc := setW 6 1 false (onPage x0.sc)) (k := .atomic) (lv := .g) (off := ((setW 6 1 false (onPage x0.sc)).base64 4).val) (width := 8)
    (op := .atomic .cas .w64 ((setW 6 1 false (onPage x0.sc)).pair 6).val ((setW 6 1 false (onPage x0.sc)).pair 8).val) (dest := .sreg 8 true .b64)
    (f := fun r => !r.2.2.hostErr r.2.1.loc && r.2.2.locPoison r.2.1.loc 4 == poisoned && !r.2.2.locPoison (r.2.1.loc.add 4) 4 &&
      natOfBytes (r.2.2.locBytes r.2.1.loc 4) == 0) (by cases poisoned <;> decide +kernel)
  simp only [Bool.and_eq_true, Bool.not_eq_true', beq_iff_eq] at g
  exact ⟨_, _, ag, p, u, by cases poisoned <;> exact issuing (fun c => setW 6 1 false (onPage c)), by decide, by decide, by decide, by decide +kernel,
    by decide +kernel, by decide +kernel, h, g.1.1.1, ⟨g.1.1.2, g.1.2⟩, g.2, by decide +kernel, by decide +kernel⟩

/-! ## Witnesses: bins, engines, barriers and matrix queues -/

/-- A supervisor whose s4, s5 hold the address of the page, with the page's granule in a class, and with the page in host memory. -/
def supPage (sc : Scalar) : Scalar := { onPage sc with tstat := 1 }
def classed (c : GClass) : State := (withSc supPage).setClass 2 c
def hostTlb : TlbEntry := { dataTlb with frame := 2 ^ 51 }
def hostPage : State := { withSc supPage with
  tlb := [loadedTlb, hostTlb] }

theorem granule_witness (c : GClass) (h : ((classed c).translate ((onSc supPage x0).agent (loadedLaunch 0) 0) 0x20000).2 =
      .ok dataTlb 0x20000)
    (h2 : ((classed c).translate ((onSc supPage x0).agent (loadedLaunch 0) 0) 0x20000).1.classOf 2 = c)
    (h3 : ((classed c).translate ((onSc supPage x0).agent (loadedLaunch 0) 0) 0x20000).1.reclass = [])
    (h4 : (classed c).agentOf (.team loadedId) = some ((onSc supPage x0).agent (loadedLaunch 0) 0)) :
    ∃ s v x ag e pa, TeamIssues s x ∧ x.sc.sup = true ∧ s.agentOf (.team x.id) = some ag ∧
      s.translate ag (x.sc.pair 4).val = (v, .ok e pa) ∧ (x.sc.pair 4).poison = false ∧ isHost pa = false ∧
      (∀ r ∈ v.reclass, r.gran ≠ pa / 65536) ∧ v.classOf (pa / 65536) = c := by
  refine ⟨classed c, _, onSc supPage x0, _, dataTlb, 0x20000,
    by unfold classed State.setClass; split <;> exact ⟨(sc_issues supPage).1, (sc_issues supPage).2⟩, by decide +kernel, h4, ?_, by decide +kernel, by decide, ?_, h2⟩
  · rw [show ((onSc supPage x0).sc.pair 4).val = 0x20000 by decide +kernel]
    exact Prod.ext rfl h
  · rw [h3]; intro r hr; cases hr

/-- A supervisor whose DECLASS waits for granule 2. -/
def declassing (sc : Scalar) : Scalar := { sc with tstat := 1, wait := some (.declass 2) }

/-- A granule of each class, a page of host memory, a DECLASS whose granule is drained, and both modes. -/
theorem witness_GranulesAndTranslationsReturn :
    (∀ c ∈ ([.uncl, .shared, .ro, .priv 0 false] : List GClass), ∃ s v x ag e pa, TeamIssues s x ∧ x.sc.sup = true ∧
      s.agentOf (.team x.id) = some ag ∧ s.translate ag (x.sc.pair 4).val = (v, .ok e pa) ∧ (x.sc.pair 4).poison = false ∧
      isHost pa = false ∧ (∀ r ∈ v.reclass, r.gran ≠ pa / 65536) ∧ v.classOf (pa / 65536) = c) ∧
    (∃ s v x ag e pa, TeamIssues s x ∧ x.sc.sup = true ∧ s.agentOf (.team x.id) = some ag ∧
      s.translate ag (x.sc.pair 4).val = (v, .ok e pa) ∧ (x.sc.pair 4).poison = false ∧ isHost pa = true) ∧
    (∃ (s : State) (x : Team) (r : Reclass), s.team? x.id = some x ∧ s.reclass.find? (fun r => r.gran = 2) = some r ∧ r.target = .uncl ∧
      r.undrained = [] ∧ s.teams.filter (fun z => z.sc.wait = some (.declass 2)) = [x] ∧ s.quiet (.team x.id)) ∧
    (∃ s x, TeamIssues s x ∧ x.sc.sup = false) ∧ (4 : BitVec 6).toNat % 2 = 0 := by
  refine ⟨?_, ?_, ⟨{ withSc declassing with reclass := [⟨2, .uncl, []⟩] }, onSc declassing x0, ⟨2, .uncl, []⟩, by decide +kernel, rfl, rfl, rfl, by decide +kernel,
    quiet_of (x := onSc declassing x0) (by decide +kernel) (by decide +kernel) rfl ⟨rfl, rfl⟩ (by decide +kernel)⟩,
    ⟨_, _, sc_issues id, by decide +kernel⟩, by decide⟩
  · intro c hc
    simp only [List.mem_cons, List.not_mem_nil, or_false] at hc
    rcases hc with rfl | rfl | rfl | rfl <;>
      exact granule_witness _ (by decide +kernel) (by decide +kernel) (by decide +kernel) (by decide +kernel)
  · refine ⟨hostPage, _, onSc supPage x0, (onSc supPage x0).agent (loadedLaunch 0) 0,
      hostTlb, 2 ^ 51, by constructor <;> decide +kernel,
      by decide +kernel, by decide +kernel, Prod.ext rfl (by decide +kernel), by decide +kernel, by decide +kernel⟩

/-- A team whose EXIT mask k0 holds lanes, and k1 none. -/
theorem witness_ExitVacatesLanes : ∃ s x, TeamIssues s x ∧ smWf CoreState.reset s.cores = true ∧ x.k 0 ≠ 0 ∧ x.k 1 = 0 ∧
    ∀ c ∈ s.cores, c.2.scratch.wf = true :=
  ⟨_, _, sc_issues id, by decide +kernel, by decide +kernel, by decide +kernel, by decide +kernel⟩

/-- The module with a shard of two records, or of none, for bin 0 on die 0, the bin open or closed. -/
def binned (f : Team → Team) (recs : List Rec) (closed : Bool) : State :=
  { (withTeam f).mapLaunch 0 (fun l => { l with bins := [⟨0, 0, false, 0, false, 0, closed, none, none⟩] }) with
    shards := [⟨0, 0, 0, recs, none, none, false, none, 0, []⟩] }
def someRecs : List Rec := [⟨1, 2, 3, 4, none⟩, ⟨5, 6, 7, 8, none⟩]
@[irreducible] def lane3 : Mask := 8
@[irreducible] def lanes32 : Mask := 0xFFFFFFFF
def oneVacant (x : Team) : Team := { x with kv := lane3 }
def allVacant (x : Team) : Team := { x with kv := lanes32 }
theorem oneVacant_id (x : Team) : (oneVacant x).id = x.id := rfl
theorem allVacant_id (x : Team) : (allVacant x).id = x.id := rfl
/-- The same team, with a bin number in s4. -/
def naming (v : Word) (q : Bool) : Team → Team := onSc (setW 4 v q)

theorem binned_issues (f : Team → Team) (h : ∀ x, (f x).id = x.id) (recs : List Rec) (closed : Bool) :
    TeamIssues (binned f recs closed) (f x0) := issues f h

def aBin (closed : Bool) : Bin := ⟨0, 0, false, 0, false, 0, closed, none, none⟩
def binLaunch (closed : Bool) : Launch := { loadedLaunch 0 with bins := [aBin closed] }
def aShard (recs : List Rec) : Shard := ⟨0, 0, 0, recs, none, none, false, none, 0, []⟩

theorem binned_launch (f : Team → Team) (recs : List Rec) (closed : Bool) :
    (binned f recs closed).launch? 0 = some (binLaunch closed) := by
  rfl
theorem binned_shard (f : Team → Team) (recs : List Rec) (closed : Bool) :
    (binned f recs closed).shard? 0 0 0 = some (aShard recs) := rfl

theorem refill_witness (f : Team → Team) (h : ∀ x, (f x).id = x.id) (recs : List Rec) (closed : Bool) {P : Prop} (p : P)
    (hv : smWf PWord.zero (f x0).vregs = true) (hl : (f x0).launch = 0) (he : (binned f recs closed).entryOf (f x0) = some loadedEntry)
    (hd : (f x0).die = 0) :
    ∃ s x l e b h, TeamIssues s x ∧ smWf PWord.zero x.vregs = true ∧ s.launch? x.launch = some l ∧ s.entryOf x = some e ∧
      l.bins[e.bin]? = some b ∧ s.shard? x.launch e.bin x.die = some h ∧ x.kv = (f x0).kv ∧ x.full = (f x0).full ∧ h.recs = recs ∧
      b.closed = closed ∧ b.closeTag = none ∧ P :=
  ⟨_, _, binLaunch closed, loadedEntry, aBin closed, aShard recs, binned_issues f h recs closed, hv, by rw [hl]; exact binned_launch f recs closed,
    he, rfl, by rw [hl, hd]; exact binned_shard f recs closed, rfl, rfl, rfl, rfl, rfl, p⟩

/-- SPAWN and BINCLOSE of the bin after the last, a closed one, and an open one with and without poison; a refill of a vacant lane, of a
full team, from an empty shard of an open bin, and of a team without lanes from an empty shard of a closed bin. -/
theorem witness_RecordsAppendAndRefill :
    (∃ s x l, TeamIssues s x ∧ s.launch? x.launch = some l ∧ (8 : BitVec 6).toNat % 4 = 0 ∧ l.bins.length = (x.sc.reg 4).val.toNat) ∧
    (∃ s x l b, TeamIssues s x ∧ s.launch? x.launch = some l ∧ l.bins[(x.sc.reg 4).val.toNat]? = some b ∧ b.closed = true ∧
      b.closeTag = none) ∧
    (∃ s x l b, TeamIssues s x ∧ s.launch? x.launch = some l ∧ l.bins[(x.sc.reg 4).val.toNat]? = some b ∧ b.closed = false ∧
      (x.sc.reg 4).poison = true) ∧
    (∃ s x l b h, TeamIssues s x ∧ s.launch? x.launch = some l ∧ l.bins[(x.sc.reg 4).val.toNat]? = some b ∧ b.closed = false ∧
      (x.sc.reg 4).poison = false ∧ (∀ i, i < 4 → (x.sc.reg ((8 : BitVec 6) + BitVec.ofNat 6 i)).poison = false) ∧
      s.storeFull x.die = false ∧ s.shard? x.launch 0 x.die = some h) ∧
    ¬(oneVacant x0).kv &&& (oneVacant x0).full = 0 ∧ x0.kv &&& x0.full = 0 ∧ (allVacant x0).kv &&& (allVacant x0).full = (allVacant x0).full ∧
    (∀ q ∈ someRecs, q.tag = none) ∧
    (∀ f ∈ [oneVacant, id, allVacant], ∀ recs ∈ [someRecs, []], ∀ closed,
      ∃ s x l e b h, TeamIssues s x ∧ smWf PWord.zero x.vregs = true ∧ s.launch? x.launch = some l ∧ s.entryOf x = some e ∧
        l.bins[e.bin]? = some b ∧ s.shard? x.launch e.bin x.die = some h ∧ x.kv = (f x0).kv ∧ x.full = (f x0).full ∧ h.recs = recs ∧
        b.closed = closed ∧ b.closeTag = none ∧ True) := by
  refine ⟨⟨_, _, binLaunch false, binned_issues (naming 1 false) (fun _ => rfl) [] false, binned_launch _ _ _, by decide, by decide +kernel⟩,
    ⟨_, _, binLaunch true, aBin true, binned_issues (naming 0 false) (fun _ => rfl) [] true, binned_launch _ _ _, by decide +kernel, rfl, rfl⟩,
    ⟨_, _, binLaunch false, aBin false, binned_issues (naming 0 true) (fun _ => rfl) [] false, binned_launch _ _ _, by decide +kernel, rfl,
      by decide +kernel⟩,
    ⟨_, _, binLaunch false, aBin false, aShard [], binned_issues (naming 0 false) (fun _ => rfl) [] false, binned_launch _ _ _,
      by decide +kernel, rfl, by decide +kernel, by decide +kernel, by decide +kernel, rfl⟩,
    by decide +kernel, by decide +kernel, by decide +kernel, by decide, ?_⟩
  intro f hf recs _ closed
  have id_eq : ∀ x, (f x).id = x.id := by
    simp only [List.mem_cons, List.not_mem_nil, or_false] at hf
    rcases hf with rfl | rfl | rfl
    · exact oneVacant_id
    · exact fun _ => rfl
    · exact allVacant_id
  have rest : smWf PWord.zero (f x0).vregs = true ∧ (f x0).launch = 0 ∧ (f x0).die = 0 ∧ (f x0).entry = 0 := by
    simp only [List.mem_cons, List.not_mem_nil, or_false] at hf
    rcases hf with rfl | rfl | rfl <;> decide +kernel
  refine refill_witness f id_eq recs closed trivial rest.1 rest.2.1 ?_ rest.2.2.1
  show ((binned f recs closed).launch? (f x0).launch).bind (fun l => l.entries[(f x0).entry]?) = _
  rw [rest.2.1, binned_launch, rest.2.2.2]
  rfl

/-- The module with a launch that uses barrier 0, and its team. -/
def barLaunch : Launch := { loadedLaunch 0 with barUsed := 1 }
def barred (f : Team → Team) : State := (withTeam f).mapLaunch 0 (fun l => { l with barUsed := 1 })
theorem barred_issues (f : Team → Team) (h : ∀ x, (f x).id = x.id) : TeamIssues (barred f) (f x0) := issues f h

/-- A team of role FEED, and a team whose handle 3 is in a state, its operation the first that it forked. -/
def feeding (x : Team) : Team := { x with role := .feed, sc := onPage x.sc }
def handled (st : HState) : Team → Team := onSc (fun sc => onPage (sc.setHandle 3 ⟨st, .xcopy, 1⟩))
def anOp (st : HState) (cause : Nat) : EngineOp := { x0.newOp (loadedLaunch 0) 0 3 .xcopy 0x20000 none with st := st, cause := cause }
def operating (st : HState) : State := { withTeam (handled st) with ops := [anOp st 1] }
theorem operating_issues (st : HState) : TeamIssues (operating st) (handled st x0) := issues (handled st) (fun _ => rfl)

/-- Each engine command with an idle handle, counted and not; each state of a handle; a control core. -/
theorem witness_EngineCommandsAndHandles :
    (∃ s x l p, TeamIssues s x ∧ s.launch? x.launch = some l ∧ x.place = some p ∧ (4 : BitVec 6).toNat % 2 = 0 ∧
      (x.sc.pair 4).poison = false ∧ (x.sc.handle 3).st = .idle ∧ (∀ o ∈ s.ops, o.id ≠ ⟨x.id, x.seq + 1⟩) ∧
      (x.sc.pair 4).val.toNat % 128 = 0 ∧ l.barUsed.getLsbD (0 : BitVec 3).toNat = true) ∧
    (∃ s x l p, TeamIssues s x ∧ s.launch? x.launch = some l ∧ x.place = some p ∧ (x.sc.pair 4).poison = false ∧
      (x.sc.handle 3).st = .idle ∧ (∀ o ∈ s.ops, o.id ≠ ⟨x.id, x.seq + 1⟩) ∧ (x.sc.pair 4).val.toNat % 64 = 0 ∧ x.role = .feed ∧
      s.feature 4 = true ∧ s.feature 3 = true ∧ (s.arrayOf x).isSome = true) ∧
    (∃ s x l p, TeamIssues s x ∧ s.launch? x.launch = some l ∧ x.place = some p ∧ (x.sc.pair 4).poison = false ∧
      (x.sc.handle 3).st = .idle ∧ (∀ o ∈ s.ops, o.id ≠ ⟨x.id, x.seq + 1⟩) ∧ x.role ≠ .feed ∧ s.feature 4 = true) ∧
    (∀ st ∈ ([.idle, .running, .complete, .stopped, .cancelled] : List HState), ∃ s x o, TeamIssues s x ∧ (x.sc.handle 3).st = st ∧
      s.op? (x.opId 3) = some o ∧ o.cause ≠ 5) ∧
    (∃ s g, GroupIssues s g) := by
  refine ⟨⟨_, _, barLaunch, ⟨0, 0⟩, barred_issues (onSc onPage) (fun _ => rfl), rfl, rfl, by decide, by decide +kernel, by decide +kernel,
      by decide +kernel, by decide +kernel, by decide⟩,
    ⟨_, _, loadedLaunch 0, ⟨0, 0⟩, issues feeding (fun _ => rfl), rfl, rfl, by decide +kernel, by decide +kernel, by decide +kernel,
      by decide +kernel, rfl, by decide +kernel, by decide +kernel, by decide +kernel⟩,
    ⟨_, _, loadedLaunch 0, ⟨0, 0⟩, issues (onSc onPage) (fun _ => rfl), rfl, rfl, by decide +kernel, by decide +kernel,
      by decide +kernel, by decide, by decide +kernel⟩, ?_, _, _, ctrl_issues id⟩
  intro st _
  exact ⟨operating st, handled st x0, anOp st 1, operating_issues st, by cases st <;> decide +kernel, by cases st <;> decide +kernel,
    by cases st <;> decide⟩

/-- An instance of barrier 0 with the given participants: the team, waiting or not, and another one. -/
def aPart (arrived pend : Bool) (arrph : Word) : Part := ⟨loadedId, arrived, arrph, 0, pend, 0⟩
def other (arrived : Bool) : Part := ⟨⟨0, 1⟩, arrived, 0, 0, false, 0⟩
def anInstance (parts : List Part) (phase : Word) (at_ : Option Nat) : Barrier := ⟨0, 0, 0, false, parts, phase, 0, false, false, 0, at_⟩
def meeting (parts : List Part) (phase : Word) : State := { barred id with barriers := [anInstance parts phase none] }
theorem meeting_issues (parts : List Part) (phase : Word) : TeamIssues (meeting parts phase) x0 := issues id (fun _ => rfl)

/-- A team that waits at BAR.WAIT s4, 0 for a phase that is complete and due. -/
def waitingTeam (x : Team) : Team := onSc (fun c => { c with wait := some (.barWait 0) }) x
def released : State :=
  { (State.reset.withFetchWord 32 (((encode (.barWait 4 0)).headD 0).toNat)).mapTeam loadedId waitingTeam with
    barriers := [anInstance [aPart false true 0] 1 (some 0)] }
def aReport : ByteReport := ⟨⟨loadedId, 1⟩, 0, 0, 0, 64, false, 0⟩

/-- A name out of use; an arrival that is not the last, the last one, and a second one; waits before, in and after a phase; a byte count
that is not the last and one that is; a release. -/
theorem witness_BarriersArriveAndRelease :
    (∃ s x l, TeamIssues s x ∧ s.launch? x.launch = some l ∧ l.barUsed.getLsbD (1 : BitVec 3).toNat = false) ∧
    (∃ s x l b p, TeamIssues s x ∧ s.launch? x.launch = some l ∧ l.barUsed.getLsbD (0 : BitVec 3).toNat = true ∧
      s.barrier? x 0 = some b ∧ b.part? x.id = some p ∧ p.arrived = false ∧ p.pend = false ∧
      ∃ q ∈ b.parts, q.team ≠ x.id ∧ q.arrived = false) ∧
    (∃ s x l b p, TeamIssues s x ∧ s.launch? x.launch = some l ∧ l.barUsed.getLsbD (0 : BitVec 3).toNat = true ∧
      s.barrier? x 0 = some b ∧ b.part? x.id = some p ∧ p.arrived = false ∧ b.parts.filter (fun q => q.team = x.id) = [p] ∧
      (∀ q ∈ b.parts, q.team ≠ x.id → q.arrived = true) ∧ b.pb = 0) ∧
    (∃ s x l b p, TeamIssues s x ∧ s.launch? x.launch = some l ∧ l.barUsed.getLsbD (0 : BitVec 3).toNat = true ∧
      s.barrier? x 0 = some b ∧ b.part? x.id = some p ∧ p.arrived = true ∧ b.done = false ∧ p.pend = true ∧ p.arrph = b.phase) ∧
    (∃ s x l b p, TeamIssues s x ∧ s.launch? x.launch = some l ∧ l.barUsed.getLsbD (0 : BitVec 3).toNat = true ∧
      s.barrier? x 0 = some b ∧ b.part? x.id = some p ∧ p.pend = true ∧ p.arrph ≠ b.phase) ∧
    (∃ (s : State) (r : ByteReport) (b : Barrier) (rs : List ByteReport) (bs : List Barrier), s.reports = r :: rs ∧ s.barriers = b :: bs ∧
      r.due ≤ s.clock ∧ b.launch = r.launch ∧ b.gid = r.gid ∧ b.name = r.name ∧ (∃ p ∈ b.parts, p.team = r.op.team) ∧
      ∃ p ∈ b.parts, p.arrived = false) ∧
    (∃ (s : State) (r : ByteReport) (b : Barrier) (rs : List ByteReport) (bs : List Barrier), s.reports = r :: rs ∧ s.barriers = b :: bs ∧
      r.due ≤ s.clock ∧ b.launch = r.launch ∧ b.gid = r.gid ∧ b.name = r.name ∧ (∃ p ∈ b.parts, p.team = r.op.team) ∧
      b.pb = r.bytes ∧ b.parts ≠ [] ∧ ∀ p ∈ b.parts, p.arrived = true) ∧
    (∃ (s : State) (x : Team) (b : Barrier) (p : Part) (at_ : Nat), s.team? x.id = some x ∧ x.sc.wait = some (.barWait 0) ∧
      s.barrier? x 0 = some b ∧ b.parts = [p] ∧ p.team = x.id ∧ p.pend = true ∧ p.arrph ≠ b.phase ∧ b.releaseAt = some at_ ∧
      at_ ≤ s.clock ∧ s.scalarInstrAt (.team x.id) = some (.barWait 4 0) ∧ s.ops = [] ∧ s.quiet (.team x.id)) := by
  refine ⟨⟨_, _, barLaunch, barred_issues id (fun _ => rfl), rfl, by decide⟩,
    ⟨_, _, barLaunch, anInstance [aPart false false 0, other false] 0 none, aPart false false 0, meeting_issues [aPart false false 0, other false] 0, rfl, by decide,
      by decide +kernel, by decide, rfl, rfl, by decide⟩,
    ⟨_, _, barLaunch, anInstance [aPart false false 0, other true] 0 none, aPart false false 0, meeting_issues [aPart false false 0, other true] 0, rfl, by decide,
      by decide +kernel, by decide, rfl, by decide, by decide, rfl⟩,
    ⟨_, _, barLaunch, anInstance [aPart true true 0, other false] 0 none, aPart true true 0, meeting_issues [aPart true true 0, other false] 0, rfl, by decide,
      by decide +kernel, by decide, rfl, by decide, rfl, rfl⟩,
    ⟨_, _, barLaunch, anInstance [aPart true true 0, other false] 1 none, aPart true true 0, meeting_issues [aPart true true 0, other false] 1, rfl, by decide,
      by decide +kernel, by decide, rfl, by decide⟩,
    ⟨{ rig with reports := [aReport], barriers := [anInstance [aPart false false 0] 0 none] }, aReport, anInstance [aPart false false 0] 0 none,
      [], [], rfl, rfl, by decide, rfl, rfl, rfl, by decide, by decide⟩,
    ⟨{ rig with reports := [aReport], barriers := [{ anInstance [aPart true true 0] 0 none with pb := 64 }] }, aReport,
      { anInstance [aPart true true 0] 0 none with pb := 64 }, [], [], rfl, rfl, by decide, rfl, rfl, rfl, by decide, rfl, by decide, by decide⟩,
    ⟨released, waitingTeam x0, anInstance [aPart false true 0] 1 (some 0), aPart false true 0, 0, by decide +kernel, by decide +kernel,
      by decide +kernel, rfl, rfl, rfl, by decide, rfl, by decide, by decide +kernel, rfl,
      quiet_of (x := waitingTeam x0) (by decide +kernel) (by decide +kernel) rfl ⟨rfl, rfl⟩ (by decide +kernel)⟩⟩

/-- A control core with no operation outstanding, with eight, an array core in and beyond the group, and each kind of format. -/
def fullQueue (g : Group) : Group :=
  { g with arrays := [{ ArrayState.reset 0 with queue := List.replicate 8 ⟨.mma, 0, 0, 0, 0, false, false, false, 0, 0, none, 0, 0⟩ }] }
def inFmt (w : Word) : Group → Group := onGroup (fun c => { c with fmt := w })

theorem witness_MatrixOperationsQueue :
    (∃ s g, GroupIssues s g ∧ s.feature 1 = true ∧ s.feature 3 = true ∧ (4 : BitVec 3).toNat ≤ 4 ∧ (0 : BitVec 2).toNat < g.arrays.length ∧
      g.arrays.length ≤ (1 : BitVec 2).toNat ∧ (g.arrays.map (fun r => r.queue.length)).sum < 8 ∧ (∃ r, g.arrays[0]? = some r) ∧
      g.arrays[1]? = none ∧ g.sc.fmt = 0) ∧
    (∃ s g, GroupIssues s g ∧ s.feature 1 = true ∧ (0 : BitVec 2).toNat < g.arrays.length ∧ (g.arrays.map (fun r => r.queue.length)).sum = 8) ∧
    (∃ s g, GroupIssues s g ∧ s.feature 1 = true ∧ g.sc.fmt.toNat / 65536 % 256 = 0 ∧ g.sc.fmt.toNat / 256 % 16 = 3 ∧
      g.sc.fmt.toNat / 4096 % 16 = 6) ∧
    (∃ s g, GroupIssues s g ∧ s.feature 1 = true ∧ g.sc.fmt.toNat / 256 % 16 = 4) ∧ (∃ s x, TeamIssues s x) := by
  refine ⟨⟨_, _, group_issues id (fun _ => rfl), by decide +kernel, by decide +kernel, by decide, by decide, by decide, by decide +kernel, ⟨_, rfl⟩,
      rfl, rfl⟩,
    ⟨_, _, group_issues fullQueue (fun _ => rfl), by decide +kernel, by decide, by decide +kernel⟩,
    ⟨_, _, group_issues (inFmt 0x6300) (fun _ => rfl), by decide +kernel, by decide, by decide, by decide⟩,
    ⟨_, _, group_issues (inFmt 0x400) (fun _ => rfl), by decide +kernel, by decide⟩, _, _, sc_issues id⟩

/-! ## Witnesses: lane instructions -/

/-- A legal source of each use, and the arguments of a lane instruction made of them, with v8 as destination and k0 governing. -/
def aSource : SrcUse → Src
  | .unused => .vreg 0
  | .val _ => .vreg 4
  | .regWord => .vreg 4
  | .uniform => .sreg 4
  | .number _ => .imm 0
  | .selector => .kreg 1

def noArgs : LaneArgs := ⟨.reg, 0, 0, .vreg 0, .vreg 0, .vreg 0, 0, false, []⟩
def legal (mk : LaneArgs → Instr) : Instr :=
  match laneSig (mk noArgs) with
  | some (g, _) =>
    let k := g.dks.headD .none
    mk ⟨k, if k = .reg then 8 else if k = .mask then 1 else 0, 0, aSource g.a, aSource g.b, aSource g.c, 0, false, []⟩
  | none => mk noArgs

/-- What a lane instruction issues with, when it passes its checks and reads its operands without further window reads. -/
def reads? (i : Instr) (s : State) : Option (LaneCtx × LaneCtx × State) :=
  match s.laneCtx i with
  | none => none
  | some c =>
    if laneCheck s c.x i c.sig c.args = none ∧ (c.idle i = true ∨ c.windowFault = none) then
      match s.operandWords c i with
      | .ok v ws =>
        if (c.idle i = true ∨ c.need ≤ ws.length) ∧ v.chainOpen c i ws = true then
          some (c, c.withWindows ws, v.mapTeam c.id (fun t => { t with chainReads := some ws }))
        else none
      | _ => none
    else none

theorem reads?_reads {i : Instr} {s : State} {f : LaneCtx × LaneCtx × State → Bool} (h : (reads? i s).any f = true)
    (early : Early) : ∃ c w u, LaneReads i s c w u early ∧ f (c, w, u) = true := by
  rw [Option.any_eq_true] at h
  obtain ⟨⟨c, w, u⟩, e, hf⟩ := h
  refine ⟨c, w, u, ?_, hf⟩
  simp only [reads?] at e
  split at e
  · cases e
  · rename_i c' hc
    split at e
    · rename_i hk
      split at e
      · rename_i v ws hw
        split at e
        · rename_i hn
          simp only [Option.some.injEq, Prod.mk.injEq] at e
          obtain ⟨rfl, rfl, rfl⟩ := e
          exact ⟨hc, hk.1, hk.2, v, ws, hw, .inl ⟨hn.1, hn.2, rfl, rfl⟩⟩
        · cases e
      · cases e
    · cases e

/-- Every instruction of a list issues with a governed lane and reads its operands. -/
theorem all_read {s : State} {l : List (LaneArgs → Instr)} {f : LaneCtx × LaneCtx × State → Bool}
    (h : l.all (fun mk => (reads? (legal mk) s).any f) = true) :
    ∀ mk ∈ l, ∃ c w u, LaneReads (legal mk) s c w u ∧ f (c, w, u) = true :=
  fun mk hm => reads?_reads (List.all_eq_true.mp h mk hm) _

/-- All 32 lanes are governed, and no operand is poisoned; and the same with lane 0 of v4 poisoned. -/
def allClean (r : LaneCtx × LaneCtx × State) : Bool := r.1.g.length == 32 && r.1.g.all (fun j => !r.2.1.poison j)
def lane0Bad (r : LaneCtx × LaneCtx × State) : Bool := r.1.g.contains 0 && r.2.1.poison 0
def spoil (x : Team) : Team := x.setV 4 0 ⟨0, true⟩

theorem witness_LaneIntegerResults :
    ∀ mk ∈ ([.iadd .i32, .iadd .n32, .iadd .i64, .iadd .n64, .isub .i32, .isub .n64, .imul .i32, .imul .n64, .imulh .i32, .imulh .i64,
      .imad .n32, .imad .i64, .imin .i32, .imin .n64, .imax .i32, .imax .n64, .iadds .i32, .iadds .i64, .isubs .n32, .isubs .n64,
      .iabs .w32, .iabs .w64, .ineg .w32, .ineg .w64] : List (LaneArgs → Instr)),
      ∃ c w u, LaneReads (legal mk) rig c w u ∧ allClean (c, w, u) = true := all_read (by decide +kernel)

theorem witness_LaneBitAndMoveResults :
    ∀ mk ∈ ([.laneAnd .w32, .laneOr .w64, .laneXor .w32, .laneAndn .w64, .not .w32, .laneShl .w64, .laneShr .w32, .laneSra .w64, .rol .w32,
      .ror .w64, .brev .w32, .bfe .w64, .bfi .w32, .laneClz .w64, .laneCtz .w32, .lanePopc .w64, .mov .w32, .mov .w64, .sel .w32, .sel .w64,
      .lidx] : List (LaneArgs → Instr)), ∃ c w u, LaneReads (legal mk) rig c w u ∧ allClean (c, w, u) = true := all_read (by decide +kernel)

def compares : List (LaneArgs → Instr) :=
  [.icmp .eq .i32, .icmp .ne .n32, .icmp .lt .i64, .icmp .le .n64, .icmp .gt .i32, .icmp .ge .n64, .fcmp .eq .f32, .fcmp .ne .f64, .fcmp .lt .f32,
    .fcmp .le .f64, .fcmp .gt .f32, .fcmp .ge .f64, .fcmp .un .f32, .fcmp .or .f64]
theorem witness_LaneCompareResults :
    (∀ mk ∈ compares, ∃ c w u, LaneReads (legal mk) rig c w u ∧ allClean (c, w, u) = true) ∧
    (∀ mk ∈ compares, ∃ c w u, LaneReads (legal mk) (withTeam spoil) c w u ∧ lane0Bad (c, w, u) = true) :=
  ⟨all_read (by decide +kernel), all_read (by decide +kernel)⟩

theorem witness_LaneFloatResults : rig.defects = [] ∧
    ∀ mk ∈ ([.fadd .f32, .fadd .f64, .fadd .f16, .fadd .bf16, .fsub .f32, .fmul .f64, .ffma .f16, .ffms .bf16, .fmin .f32, .fmax .f64, .fabs .f16,
      .fneg .bf16, .frint .f32, .fclass .f64, .frcp .f32, .frcp .f64, .frsq .f32, .fsqrt .f64, .fdiv .f32, .fexp2, .flog2, .fsint, .fcost,
      .cvt .f64 .f32, .cvt .i32 .f32, .cvt .e4m3 .f32, .cvt .f32 .i64] : List (LaneArgs → Instr)),
      ∃ c w u, LaneReads (legal mk) rig c w u ∧ allClean (c, w, u) = true := ⟨by decide +kernel, all_read (by decide +kernel)⟩

/-- A NaN of each format, and a number whose format does not flush. -/
theorem witness_FloatRoundingLaws : (∀ k ∈ ([.f32, .f64, .f16, .bf16] : List FK), k.value k.nan = .nan) ∧
    (FK.f32.value 0x3F800000 ≠ .nan ∧ (∀ n, FK.f32.value 0x3F800000 ≠ .inf n) ∧ FK.f32.ftz 0 = false ∧ 0x3F800000 < 2 * FK.f32.signBit) ∧
    FK.f32.ftz 8 = true ∧ FK.f32.value 0x7FC00000 = .nan ∧ (-200 : Int) ≤ FK.f32.emin - FK.f32.fbits - 1 ∧
    (2 * 1 < 2 * 2 ^ (FK.f32.emin + 200).toNat - 2 ^ (FK.f32.emin - FK.f32.fbits - 1 + 200).toNat ∧
      FK.f32.value FK.f32.max = .num false (2 ^ 24 - 1) 104 ∧ (2 ^ 24 - 1) * 2 ^ 304 < 1 * 2 ^ (200 + 200)) := by decide +kernel

theorem witness_LaneShuffleResults :
    ∀ mk ∈ ([.shflIdx .w32, .shflIdx .w64, .shflXor .w32, .shflUp .w32, .shflDown .w64, .bcast .w32, .bcast .w64] : List (LaneArgs → Instr)),
      ∃ c w u, LaneReads (legal mk) rig c w u ∧ (allClean (c, w, u) && !(w.b 0).poison) = true :=
  all_read (f := fun r => allClean r && !(r.2.1.b 0).poison) (by decide +kernel)

theorem witness_LaneReductionResults :
    ∀ mk ∈ ([.redAdd .i32, .redAdd .n64, .redAdd .f32, .redAdd .f64, .scanAdd .i32, .scanAdd .f64, .scanAddx .n32, .scanAddx .f32, .redAnd .w32,
      .redOr .w64, .redMin .i32, .redMin .f64, .redMax .n64, .redMax .f32, .scanMax .i64, .scanMax .f32] : List (LaneArgs → Instr)),
      ∃ c w u, LaneReads (legal mk) rig c w u ∧ allClean (c, w, u) = true := all_read (by decide +kernel)

/-! ## Witnesses: exchanges and lane memory instructions -/

/-- Two teams of one gang on one core, members of pair 0. -/
def y0 : Team := { x0 with id := ⟨0, 1⟩, tix := 1, place := some ⟨0, 1⟩ }
def paired (f g : Team → Team) : State := { (rig.mapLaunch 0 (fun l => { l with pairs := [⟨0, 1, 0, 0, 0, 1⟩] })) with
  teams := [f x0, g y0] }
def swapArgs : LaneArgs := ⟨.reg, 8, 0, .vreg 4, .imm 0, .vreg 0, 0, false, []⟩
def anArrival (waited : Nat) : XArrival := ⟨0, .w32, swapArgs, 1, [], waited⟩
def arrives (waited : Nat) (x : Team) : Team := { x with xarr := some (anArrival waited), sc := { x.sc with wait := some .xswap } }

theorem witness_ExchangesMeetOrTimeOut :
    (∃ s c w u y z, LaneReads (.xswap .w32 swapArgs) s c w u slotEarly ∧ u.partnerOf c.x (pairOf c.args) = some y ∧ y.xarr = none ∧
      u.team? c.id = some z) ∧
    (∃ (s : State) (x y : Team) (a b : XArrival), s.team? x.id = some x ∧ x.xarr = some a ∧ s.partnerOf x a.pair = some y ∧
      s.team? y.id = some y ∧ x.id ≠ y.id ∧ y.xarr = some b ∧ b.pair = a.pair ∧ b.wide = a.wide ∧ a.args.dk = .reg ∧ b.args.dk = .reg ∧
      smWf PWord.zero x.vregs = true ∧ smWf PWord.zero y.vregs = true ∧ s.quiet (.team x.id) ∧ s.quiet (.team y.id)) ∧
    (∃ (s : State) (x : Team) (a : XArrival), s.team? x.id = some x ∧ x.xarr = some a ∧ a.waited = 2 ^ 20 ∧
      ∀ y, s.partnerOf x a.pair = some y → ∀ b, y.xarr = some b → b.pair ≠ a.pair) := by
  refine ⟨?_, ⟨paired (arrives 0) (arrives 1), arrives 0 x0, arrives 1 y0, anArrival 0, anArrival 1, by decide +kernel, rfl, by decide +kernel,
      by decide +kernel, by decide, rfl, rfl, rfl, rfl, rfl, by decide +kernel, by decide +kernel,
      quiet_of (x := arrives 0 x0) (by decide +kernel) (by decide +kernel) rfl ⟨rfl, rfl⟩ (by decide +kernel), ?_⟩,
    paired (arrives (2 ^ 20)) id, arrives (2 ^ 20) x0, anArrival (2 ^ 20), by decide +kernel, rfl, rfl,
      all_some (a := y0) (by decide +kernel) (fun b h => by cases h)⟩
  · obtain ⟨c, w, u, h, g⟩ := reads?_reads (i := .xswap .w32 swapArgs) (s := paired id id)
      (f := fun r => r.2.2.partnerOf r.1.x (pairOf r.1.args) == some y0 && (r.2.2.team? r.1.id).isSome) (by decide +kernel) slotEarly
    simp only [Bool.and_eq_true, beq_iff_eq, Option.isSome_iff_exists] at g
    obtain ⟨g, z, hz⟩ := g
    exact ⟨_, c, w, u, y0, z, h, g, rfl, hz⟩
  · refine ⟨by decide +kernel, fun y p hy hp => .inr ?_⟩
    have e : some (arrives 1 y0) = some y := (show (paired (arrives 0) (arrives 1)).team? (arrives 1 y0).id = some (arrives 1 y0) by
      decide +kernel).symm.trans hy
    cases e
    cases hp
    exact ⟨rfl, rfl, by rw [show ((paired (arrives 0) (arrives 1)).core 0).dbg = Debug.reset by decide +kernel]; decide⟩

/-- The places of a lane memory instruction's accesses and the state in which they perform. -/
def reachLanes? (u : State) (w : LaneCtx) (k : AccKind) (lv : Level) (width : Nat) (off : Nat → DWord) (consumed : Nat → Bool)
    (ops : Nat → List EvOp) (dest : AccDest) : Option (List Spot × State) :=
  match State.checkLanes w k (k == .atomic) lv width off w.g u with
  | (v, [], ps, false) =>
    if ∀ j ∈ w.g, consumed j = false then
      match performs? ((v.mapTeam w.id (fun t => t.laneRetired w.args w.gov w.need)).countPasses w.id w.x.nw w.gov) w.st
        (w.access k (ps.flatMap (fun p => p.events (ops p.lane))) dest) with
      | some (ag, r) => if ag = w.ag then some (ps, r) else none
      | none => none
    else none
  | _ => none

theorem reachLanes?_reach {u : State} {w : LaneCtx} {k : AccKind} {lv : Level} {width : Nat} {off : Nat → DWord} {consumed : Nat → Bool}
    {ops : Nat → List EvOp} {dest : AccDest} (h : (reachLanes? u w k lv width off consumed ops dest).isSome = true) :
    ∃ ps v, LanesReach u w k lv width off consumed ops dest ps v := by
  obtain ⟨⟨ps, v⟩, e⟩ := Option.isSome_iff_exists.mp h
  refine ⟨ps, v, ?_⟩
  simp only [reachLanes?] at e
  split at e
  · split at e
    · split at e
      · split at e
        · rename_i h4 h5
          simp only [Option.some.injEq, Prod.mk.injEq] at e
          obtain ⟨rfl, rfl⟩ := e
          exact ⟨_, ‹_›, ‹_›, h5 ▸ performs_of h4⟩
        · cases e
      · cases e
    · cases e
  · cases e

/-- The arguments of a global access at the address in s4, s5 plus v0's offset in each lane, with v8 as data or destination. -/
def atPage (k : DK) (c : Src) : LaneArgs := ⟨k, if k = .reg then 12 else 0, 0, .sreg 4, .vreg 1, c, 0, false, []⟩

theorem lane_reach (i : Instr) (early : Early) (k : AccKind) (width : Nat) (off : LaneCtx → Nat → DWord) (consumed : LaneCtx → Nat → Bool)
    (ops : LaneCtx → Nat → List EvOp) (dest : LaneCtx → AccDest)
    (h : (reads? i (withSc onPage)).any (fun r =>
      (reachLanes? r.2.2 r.2.1 k .g width (off r.2.1) (consumed r.2.1) (ops r.2.1) (dest r.1)).isSome) = true) :
    ∃ s c w u ps v, LaneReads i s c w u early ∧ LanesReach u w k .g width (off w) (consumed w) (ops w) (dest c) ps v := by
  obtain ⟨c, w, u, hr, g⟩ := reads?_reads h early
  obtain ⟨ps, v, hv⟩ := reachLanes?_reach g
  exact ⟨_, c, w, u, ps, v, hr, hv⟩

/-- What a load and an atomic do to their destinations. -/
def loadOps (wd : LdW) : List EvOp := if wd = .b128 then [.read 8, .read 8] else [.read (ldBytes wd)]
def loadDest (wd : LdW) (c : LaneCtx) : AccDest :=
  if c.args.dk = .reg then .lanes c.args.di.toNat (if wd = .b128 then 4 else if wd = .b64 then 2 else 1) wd else .none
def pairDest (t : Wd) (c : LaneCtx) : AccDest :=
  if c.args.dk = .reg then .lanes c.args.di.toNat (if t = .w64 then 2 else 1) (if t = .w64 then .b64 else .b32) else .none

/-- A load of every width, and a constant window's word and pair. -/
theorem witness_LaneLoadResults :
    ∀ wd : LdW, ∃ s c w u ps v, LaneReads (.ld .g wd (atPage .reg (.vreg 0))) s c w u
        (LaneCtx.early .read .g (ldBytes wd) (fun c => c.address .g)) ∧
      LanesReach u w .read .g (ldBytes wd) (w.address .g) w.addressPoison (fun _ => loadOps wd) (loadDest wd c) ps v := by
  intro wd
  cases wd <;> exact lane_reach _ _ .read _ (fun w => w.address .g) (fun w => w.addressPoison) (fun _ _ => loadOps _) (loadDest _)
    (by decide +kernel)

/-- The reads of a constant window by a lane instruction, and the state in which they perform. -/
def reachWindow? (t : Wd) (r : LaneCtx × LaneCtx × State) : Option (List Spot × State) :=
  match State.checkWindows r.2.1 t r.2.1.g r.2.2 with
  | (v, [], ps, false) =>
    if ∀ j ∈ r.2.1.g, (r.2.1.a j).poison = false then
      match performs? ((v.mapTeam r.1.id (fun y => y.laneRetired r.1.args r.1.gov r.1.need)).countPasses r.1.id r.1.x.nw r.1.gov) r.1.st
        (r.2.1.access .read (ps.map (fun p => ⟨p, .read (wdBytes t)⟩)) (pairDest t r.1)) with
      | some (ag, z) => if ag = r.2.1.ag then some (ps, z) else none
      | none => none
    else none
  | _ => none

theorem witness_LaneLoadResults_window : ∀ t : Wd, ∃ s c w u v ps r,
    LaneReads (.cldLane t ⟨.reg, 8, 0, .vreg 4, .imm 0, .vreg 0, 0, false, []⟩) s c w u ∧
      State.checkWindows w t w.g u = (v, [], ps, false) ∧ (∀ j ∈ w.g, (w.a j).poison = false) ∧
      Performs ((v.mapTeam c.id (fun y => y.laneRetired c.args c.gov c.need)).countPasses c.id c.x.nw c.gov) c.st
        (w.access .read (ps.map (fun p => ⟨p, .read (wdBytes t)⟩)) (pairDest t c)) w.ag r := by
  intro t
  obtain ⟨c, w, u, h, g⟩ := reads?_reads (i := .cldLane t ⟨.reg, 8, 0, .vreg 4, .imm 0, .vreg 0, 0, false, []⟩) (s := windowed)
    (f := fun r => (reachWindow? t r).isSome) (by cases t <;> decide +kernel) (fun _ _ _ => ([], false))
  obtain ⟨⟨ps, z⟩, e⟩ := Option.isSome_iff_exists.mp g
  simp only [reachWindow?] at e
  split at e
  · split at e
    · split at e
      · split at e
        · rename_i h4 h5
          exact ⟨_, c, w, u, _, _, _, h, ‹_›, ‹_›, h5 ▸ performs_of h4⟩
        · cases e
      · cases e
    · cases e
  · cases e

/-- The pieces of a lane's datum. -/
def storeOps (wd : StW) (w : LaneCtx) (j : Nat) : List EvOp :=
  let datum := if wd = .b128 then ((w.quad j).map (fun p => p.val.toNat)).foldr (fun a b => a + 2 ^ 32 * b) 0 else (w.c j).val.toNat
  let bytes := (List.range (stBytes wd)).map (fun i => BitVec.ofNat 8 (datum / 256 ^ i))
  (if wd = .b128 then [bytes.take 8, bytes.drop 8] else [bytes]).map .write

theorem witness_LaneStoreWrites :
    ∀ wd : StW, ∃ s c w u ps v, LaneReads (.st .g wd (atPage .none (.vreg 8))) s c w u
        (LaneCtx.early .write .g (stBytes wd) (fun c => c.address .g)) ∧
      LanesReach u w .write .g (stBytes wd) (w.address .g) (fun j => w.addressPoison j || (w.datum wd j).any (·.poison)) (storeOps wd w) .none
        ps v := by
  intro wd
  cases wd <;> exact lane_reach _ _ .write _ (fun w => w.address .g)
    (fun w j => w.addressPoison j || (w.datum _ j).any (·.poison)) (storeOps _) (fun _ => .none) (by decide +kernel)

theorem witness_LaneAtomicResults :
    (∀ op : AtomOp, ∃ s c w u ps v, LaneReads (.atom op .g .w32 (atPage .reg (.vreg 8))) s c w u
        (LaneCtx.early .atomic .g (wdBytes .w32) (fun c => c.address .g)) ∧
      LanesReach u w .atomic .g (wdBytes .w32) (w.address .g) (fun j => w.poison j || (op == .cas && (w.compare .w32 j).poison))
        (fun j => [.atomic op .w32 (w.c j).val (w.compare .w32 j).val]) (pairDest .w32 c) ps v) ∧
    (∃ s c w u ps v, LaneReads (.atom .add .g .w64 (atPage .none (.vreg 8))) s c w u
        (LaneCtx.early .atomic .g (wdBytes .w64) (fun c => c.address .g)) ∧
      LanesReach u w .atomic .g (wdBytes .w64) (w.address .g) (fun j => w.poison j || (AtomOp.add == .cas && (w.compare .w64 j).poison))
        (fun j => [.atomic .add .w64 (w.c j).val (w.compare .w64 j).val]) (pairDest .w64 c) ps v) ∧
    (∃ s c w u ps v, LaneReads (.swmark ⟨.none, 0, 0, .sreg 4, .vreg 4, .vreg 0, 0, false, []⟩) s c w u
        (LaneCtx.early .atomic .g 4 markAddress) ∧
      LanesReach u w .atomic .g 4 (fun j => (w.a j).val + BitVec.ofNat 64 (4 * ((w.b j).lo.val.toNat / 32))) w.poison
        (fun j => [.atomic .or .w32 (BitVec.ofNat 64 (2 ^ ((w.b j).lo.val.toNat % 32))) 0]) .none ps v) ∧
    (∃ (s : State) (p : Spot), s.hostErr p.loc = false ∧ s.locPoison p.loc 4 = false ∧
      (BitVec.ofNat 32 (natOfBytes (s.locBytes p.loc 4)) : Word) = 0) ∧
    (∃ (s : State) (p : Spot), s.hostErr p.loc = false ∧ s.locPoison p.loc 4 = true) := by
  refine ⟨?_, lane_reach _ _ .atomic _ (fun w => w.address .g) (fun w j => w.poison j || (AtomOp.add == .cas && (w.compare .w64 j).poison))
      (fun w j => [.atomic .add .w64 (w.c j).val (w.compare .w64 j).val]) (pairDest .w64) (by decide +kernel),
    lane_reach _ _ .atomic _ (fun w j => (w.a j).val + BitVec.ofNat 64 (4 * ((w.b j).lo.val.toNat / 32))) (fun w => w.poison)
      (fun w j => [.atomic .or .w32 (BitVec.ofNat 64 (2 ^ ((w.b j).lo.val.toNat % 32))) 0]) (fun _ => .none) (by decide +kernel),
    ⟨rig, ⟨0, none, none, .mem 0x20000, .l1⟩, by decide +kernel, by decide +kernel, by decide +kernel⟩,
    ⟨{ rig with poison := [(0x8000, true)] }, ⟨0, none, none, .mem 0x20000, .l1⟩, by decide +kernel, by decide +kernel⟩⟩
  intro op
  refine lane_reach (.atom op .g .w32 (atPage .reg (.vreg 8))) _ .atomic _ (fun w => w.address .g)
    (fun w j => w.poison j || (op == .cas && (w.compare .w32 j).poison))
    (fun w j => [.atomic op .w32 (w.c j).val (w.compare .w32 j).val]) (pairDest .w32) ?_
  cases op <;> decide +kernel

/-- A team of 16 lane registers, whose instruction names v16 as its destination or as its second source. -/
def small (x : Team) : Team := { x with alloc := 16 }
def wide16 (d : BitVec 8) (b : Src) : Instr := .iadd .i32 ⟨.reg, d, 0, .vreg 4, b, .vreg 0, 0, false, []⟩
theorem witness_RegistersAreHardWired :
    (∃ s i c, s.laneCtx i = some c ∧ laneLegal i = true ∧ s.offered i = true ∧ roleFault s c.x i = false ∧ c.x.alloc = (16 : BitVec 8).toNat ∧
      c.args.dk = .reg ∧ c.args.di = 16 ∧ c.sig.dst = .w32) ∧
    (∃ s i c, s.laneCtx i = some c ∧ laneLegal i = true ∧ s.offered i = true ∧ roleFault s c.x i = false ∧ c.x.alloc = (16 : BitVec 8).toNat ∧
      c.args.b = .vreg 16 ∧ c.sig.b ≠ .unused) := by
  constructor
  · obtain ⟨c, h, g⟩ := (Option.any_eq_true _ _).mp (show ((withTeam small).laneCtx (wide16 16 (.vreg 5))).any (fun c =>
      !roleFault (withTeam small) c.x (wide16 16 (.vreg 5)) && c.x.alloc == 16 && c.args.dk == .reg && c.args.di == 16 && c.sig.dst == .w32) = true by
        decide +kernel)
    simp only [Bool.and_eq_true, Bool.not_eq_true', beq_iff_eq] at g
    exact ⟨_, _, c, h, by decide +kernel, by decide +kernel, g.1.1.1.1, g.1.1.1.2, g.1.1.2, g.1.2, g.2⟩
  · obtain ⟨c, h, g⟩ := (Option.any_eq_true _ _).mp (show ((withTeam small).laneCtx (wide16 8 (.vreg 16))).any (fun c =>
      !roleFault (withTeam small) c.x (wide16 8 (.vreg 16)) && c.x.alloc == 16 && c.args.b == .vreg 16 && c.sig.b != .unused) = true by
        decide +kernel)
    simp only [Bool.and_eq_true, Bool.not_eq_true', beq_iff_eq, bne_iff_ne] at g
    exact ⟨_, _, c, h, by decide +kernel, by decide +kernel, g.1.1.1, g.1.1.2, g.1.2, g.2⟩

/-- A reach of each kind, aligned and not; an address that is canonical and one that is not; a page that permits a read and no write. -/
theorem witness_AccessChecksInOrder :
    (2 : DWord).toNat % 4 ≠ 0 ∧ (4 : DWord).toNat % 4 = 0 ∧ canonical (2 ^ 56) = false ∧
    (∃ (s : State) (ag : Agent) (e : TlbEntry), canonical 0x20000 = true ∧ s.tlb.find? (fun e => e.covers ag.owner ag.asid (va57 0x20000)) = some e ∧
      backed (e.frame + (0x20000 : DWord).toNat % 2 ^ 57 % 2 ^ levelShift e.level) = true ∧ e.permits .write ag.sup = true) ∧
    (∃ (s : State) (ag : Agent) (e : TlbEntry), canonical 0x10000 = true ∧ s.tlb.find? (fun e => e.covers ag.owner ag.asid (va57 0x10000)) = some e ∧
      backed (e.frame + (0x10000 : DWord).toNat % 2 ^ 57 % 2 ^ levelShift e.level) = true ∧ e.permits .write ag.sup = false) :=
  ⟨by decide, by decide, by decide +kernel,
   ⟨rig, x0.agent (loadedLaunch 0) 0, dataTlb, by decide +kernel, by decide +kernel, by decide +kernel, by decide +kernel⟩,
   ⟨rig, x0.agent (loadedLaunch 0) 0, loadedTlb, by decide +kernel, by decide +kernel, by decide +kernel, by decide +kernel⟩⟩

/-- A page table whose leaf for VA 0x30000 is a given entry, with the upper levels' tables in the walk cache. -/
def walked (e : Nat) : State :=
  { rig with
    asids := [⟨0, true, true, 0, 0, 0, 0⟩]
    walkCache := [⟨0, 0, 4, 0, 0x40000⟩, ⟨0, 0, 3, 0, 0x40000⟩, ⟨0, 0, 2, 0, 0x40000⟩, ⟨0, 0, 1, 0, 0x40000⟩]
    mem := rig.mem.writeBytes 0x40018 (natBytes 8 e) }
def walker : Agent := x0.agent (loadedLaunch 0) 0
def finds (e : Nat) : State × Walked := ((walked e).count 0 walker.slot 0x08 1).walk walker.asid walker.die (va57 0x30000)

/-- A leaf, one in migration, one that may not be written, one outside memory, no entry, a malformed entry, and a first-touch entry whose
pool is empty. -/
theorem witness_AccessChecksInOrder_walk :
    canonical 0x30000 = true ∧ walker.core = some 0 ∧
    (∀ e, (walked e).tlb.find? (fun e => e.covers walker.owner walker.asid (va57 0x30000)) = none) ∧
    (finds 0x2001B).2 = .leaf 0 0x40018 0x2001B ∧ (finds 0x2101B).2 = .leaf 0 0x40018 0x2101B ∧ (0x2101B).testBit 12 = true ∧
    (finds 0x2000B).2 = .leaf 0 0x40018 0x2000B ∧ (finds 0).2 = .absent 0 false ∧ (finds 1).2 = .bad ∧ (finds 0x800).2 = .absent 0 true ∧
    walker.pgpool = some 0 ∧ ((finds 0x800).1.poolEmpty walker.asid walker.die 0).2 = some true ∧ (iodAgent 0).pgpool = none := by
  refine ⟨by decide +kernel, by decide +kernel, fun _ => (by decide +kernel : rig.tlb.find? (fun e => e.covers walker.owner walker.asid (va57 0x30000)) = none), by decide +kernel, by decide +kernel, by decide +kernel,
    by decide +kernel, by decide +kernel, by decide +kernel, by decide +kernel, rfl, by decide +kernel, rfl⟩

/-! ## Witnesses: feeds and drains, traps, events and debug -/

/-- A FEED or DRAIN team on array core 0, whose bank 0 is full or whose accumulator 0 drains, with a control word in s4. -/
def feedTeam (r : Role) (ctl : Word) (x : Team) : Team := { x with role := r, sc := setW 4 ctl false x.sc }
def array0 (full drain : Bool) : ArrayState :=
  { ArrayState.reset 0 with
    ab := (ArrayState.reset 0).ab.set 0 { Bank.reset with full := full }
    bb := (ArrayState.reset 0).bb.set 0 { Bank.reset with full := full }
    acc := (ArrayState.reset 0).acc.set 0 { Acc.reset with drain := drain } }
def arrayed (r : Role) (ctl : Word) (full drain : Bool) : State :=
  (withTeam (feedTeam r ctl)).mapGroup 0 (fun g => { g with arrays := [array0 full drain] })

theorem feed_witness (r : Role) (ctl : Word) (full drain : Bool) (i : Instr)
    (h : (reads? i (arrayed r ctl full drain)).any (fun q => q.1.g.length == 32 && q.2.1.g.all (fun j => !(q.2.1.a j).poison) &&
      q.2.2.arrayOf q.1.x == some (0, 0) && q.2.2.arrayAt (0, 0) == some (array0 full drain) && (q.2.1.b 0).lo.val == ctl &&
      !(q.2.1.b 0).lo.poison && !q.1.args.hold && q.1.x.chainPos == 0) = true) :
    ∃ s c w u, LaneReads i s c w u ∧ (∀ j ∈ w.g, (w.a j).poison = false) ∧ u.arrayOf c.x = some (0, 0) ∧
      u.arrayAt (0, 0) = some (array0 full drain) ∧ (w.b 0).lo.val = ctl ∧ (w.b 0).lo.poison = false ∧ c.args.hold = false ∧ c.x.chainPos = 0 := by
  obtain ⟨c, w, u, hr, g⟩ := reads?_reads h (fun _ _ _ => ([], false))
  simp only [Bool.and_eq_true, Bool.not_eq_true', beq_iff_eq, List.all_eq_true] at g
  obtain ⟨⟨⟨⟨⟨⟨⟨-, h1⟩, h2⟩, h3⟩, h4⟩, h5⟩, h6⟩, h7⟩ := g
  exact ⟨_, c, w, u, hr, h1, h2, h3, h4, h5, h6, h7⟩

/-- A feed of an EMPTY bank that publishes and of a FULL one, a drain that finishes and one that waits, a block of QMX. -/
theorem witness_FeedsDrainsAndBlocks :
    (∀ i ∈ [legal .mfeedA, legal .mfeedB], ∀ full : Bool, ∃ s c w u, LaneReads i s c w u ∧ (∀ j ∈ w.g, (w.a j).poison = false) ∧
      u.arrayOf c.x = some (0, 0) ∧ u.arrayAt (0, 0) = some (array0 full false) ∧ (w.b 0).lo.val = 0x4000 ∧ (w.b 0).lo.poison = false ∧
      c.args.hold = false ∧ c.x.chainPos = 0) ∧
    (∀ drain : Bool, ∃ s c w u, LaneReads (legal .mdrain) s c w u ∧ (∀ j ∈ w.g, (w.a j).poison = false) ∧
      u.arrayOf c.x = some (0, 0) ∧ u.arrayAt (0, 0) = some (array0 false drain) ∧ (w.b 0).lo.val = 0x8000 ∧ (w.b 0).lo.poison = false ∧
      c.args.hold = false ∧ c.x.chainPos = 0) ∧
    (∀ mk ∈ ([.qmx .e4m3, .qmx .e5m2] : List (LaneArgs → Instr)), ∃ c w u, LaneReads (legal mk) rig c w u ∧
      (allClean (c, w, u) && decide (c.x.nw ≤ 32)) = true) := by
  refine ⟨fun i hi full => feed_witness .feed 0x4000 full false i ?_, fun drain => feed_witness .drain 0x8000 false drain _ ?_,
    all_read (f := fun r => allClean r && decide (r.1.x.nw ≤ 32)) (by decide +kernel)⟩
  · simp only [List.mem_cons, List.not_mem_nil, or_false] at hi
    rcases hi with rfl | rfl <;> cases full <;> decide +kernel
  · cases drain <;> decide +kernel

def inSup (x : Team) : Team := onSc (fun c => { c with tstat := 1 }) x

/-- A team in each mode, and causes that enter, nest and kill. -/
theorem witness_TrapEntrySavesAndEnters :
    (∃ (s : State) (x : Team), s.team? x.id = some x ∧ x.sc.sup = false ∧ x.runLeft + x.chainPos < 512) ∧
    (∃ (s : State) (x : Team), s.team? x.id = some x ∧ x.sc.sup = true) ∧ Cause.illegal ≠ .poison ∧ Cause.illegal ≠ .shadow ∧
    (∃ m : Mask, m.getLsbD 0 = true ∧ ∀ i, i < 0 → m.getLsbD i = false) :=
  ⟨⟨_, _, (sc_issues id).2, by decide +kernel, by decide +kernel⟩, ⟨_, _, (issues inSup (fun _ => rfl)).2, by decide +kernel⟩, by decide, by decide,
   ⟨lane3 >>> 3, by decide +kernel, fun _ h => absurd h (Nat.not_lt_zero _)⟩⟩

theorem witness_DoubleTrapsKill :
    (∃ (s : State) (x : Team), s.team? x.id = some x ∧ x.sc.sup = true ∧ Cause.illegal ≠ .step ∧ ∀ l, Cause.illegal ≠ .bkpt l) ∧
    (∃ (s : State) (x : Team), s.team? x.id = some x ∧ x.sc.sup = false) :=
  ⟨⟨_, _, (issues inSup (fun _ => rfl)).2, by decide +kernel, by decide, fun _ h => by cases h⟩, _, _, (sc_issues id).2, by decide +kernel⟩

/-- The module with a word of code, and a change of its team. -/
def coded (ws : List Word) (f : Team → Team) : State :=
  (State.reset.withFetchWord (32 * ws.length) ((ws.foldr (fun w n => w.toNat + 2 ^ 32 * n) 0))).mapTeam loadedId f
def waits (w : Wait) (x : Team) : Team := onSc (fun c => { c with wait := some w }) x
def pends (x : Team) : Team := { x with eventVersion := some 1, eventDirty := true }
def pendsDirty (x : Team) : Team := { x with eventDirty := true }
def laneWaits (r : Role) (w : Wait) (ws : Option (List PWord)) (x : Team) : Team :=
  { x with role := r, runLeft := 1, chainReads := ws, sc := { x.sc with wait := some w } }

/-- A FEED team that waits at MFEED.A v4, s4, alone or, with window words, in a chain. -/
def feedArgs : LaneArgs := ⟨.none, 0, 0, .vreg 4, .sreg 4, .vreg 0, 0, false, []⟩
def fedTeam (ws : Option (List PWord)) : Team := laneWaits .feed (if ws.isSome then .chainPhase else .phase) ws (loadedTeam 0 1)
def fed (ws : Option (List PWord)) : State :=
  coded (encode (.mfeedA feedArgs)) (laneWaits .feed (if ws.isSome then .chainPhase else .phase) ws)

theorem coded_team (ws : List Word) (f : Team → Team) (h : ∀ x, (f x).id = x.id) :
    (coded ws f).team? (f (loadedTeam 0 (if 32 * ws.length ≤ 32 then 0 else 1))).id =
      some (f (loadedTeam 0 (if 32 * ws.length ≤ 32 then 0 else 1))) := by
  rw [h, coded]
  show State.team? _ loadedId = _
  rw [State.team?_mapTeam _ _ _ h]
  rfl

/-- An event of each kind; SLEEP before and after its time; each wait with what it waits for at hand. -/
theorem witness_EventsAndWaitsEnd :
    (∃ (s : State) (x : Team) (c : Cause), s.team? x.id = some x ∧ x.place.isSome = true ∧ x.event? = some c ∧ x.sc.sup = false ∧
      (x.chainPos = 0 ∨ x.sc.wait = some .xswap) ∧ x.sc.accs = [] ∧ x.sc.debugStopped = false ∧ s.stopping (.team x.id) = false ∧ x.eventVersion.isSome = true) ∧
    (∃ (s : State) (x : Team) (c : Cause), s.team? x.id = some x ∧ x.place.isSome = true ∧ x.event? = some c ∧ x.sc.sup = false ∧
      (x.chainPos = 0 ∨ x.sc.wait = some .xswap) ∧ x.sc.accs = [] ∧ x.sc.debugStopped = false ∧ s.stopping (.team x.id) = false ∧ x.eventVersion = none) ∧
    (∃ (s : State) (x : Team), s.team? x.id = some x ∧ s.stopping (.team x.id) = false ∧ x.sc.wait = some (.sleep 0) ∧ 0 ≤ s.clock) ∧
    (∃ (s : State) (x : Team), s.team? x.id = some x ∧ s.stopping (.team x.id) = false ∧ x.sc.wait = some (.sleep 1) ∧ s.clock < 1) ∧
    (∃ (s : State) (x : Team), s.team? x.id = some x ∧ s.stopping (.team x.id) = false ∧ (x.sc.handle 3).st ≠ .running ∧
      x.sc.wait = some (.hwait 3) ∧ s.scalarInstrAt (.team x.id) = some (.hwait 3)) ∧
    (∃ (s : State) (x : Team), s.team? x.id = some x ∧ s.stopping (.team x.id) = false ∧ (x.sc.handle 3).st ≠ .running ∧
      x.sc.wait = some (.command 3) ∧ s.scalarInstrAt (.team x.id) = some (.xcopy 3 4 0 0)) ∧
    (∃ (s : State) (x : Team) (e : Entry) (l : Launch) (h : Shard), s.team? x.id = some x ∧ s.stopping (.team x.id) = false ∧
      x.sc.wait = some .refillW ∧ s.entryOf x = some e ∧ s.launch? x.launch = some l ∧ s.shard? x.launch e.bin x.die = some h ∧
      h.recs ≠ [] ∧ s.scalarInstrAt (.team x.id) = some (.refillW 1 4)) ∧
    (∃ (s : State) (x : Team), s.team? x.id = some x ∧ s.stopping (.team x.id) = false ∧ x.sc.wait = some .spawn ∧
      s.storeUsed x.die < 2 ^ 24 ∧ s.scalarInstrAt (.team x.id) = some (.spawn 8 4)) ∧
    (∃ (s : State) (x : Team) (a : LaneArgs) (c : LaneCtx), s.team? x.id = some x ∧ s.stopping (.team x.id) = false ∧
      x.sc.wait = some .phase ∧ s.laneInstrAt x = some (.mfeedA a, c) ∧ phaseReady s x (.mfeedA a) (controlWord x c.args (x.chainReads.getD [])) = true) ∧
    (∃ (s : State) (x : Team) (ws : List PWord) (i : Instr) (c : LaneCtx), s.team? x.id = some x ∧ s.stopping (.team x.id) = false ∧
      x.sc.wait = some .chainPhase ∧ x.chainReads = some ws ∧ s.laneInstrAt x = some (i, c) ∧
      (State.chainFrom c.ag c.e (x.runLeft - 1) (x.lanePc + laneWordCount c.args) s).2 = some [] ∧ chainReady s x [i] ws = true) ∧
    (∃ (s : State) (x : Team) (c : Cause), s.team? x.id = some x ∧ x.place.isSome = true ∧ x.event? = some c ∧ x.sc.sup = false ∧
      x.chainPos = 2 ∧ x.sc.wait = some .xswap ∧ x.sc.accs = [] ∧ x.sc.debugStopped = false ∧ s.stopping (.team x.id) = false) ∧
    (∀ k ∈ ([.bkpt true, .step] : List PendTrap), ∃ (s : State) (x : Team), TeamIssues s x ∧ x.sc.sup = true ∧ x.pendTrap = some k ∧
      x.sc.runLeftField = 0 ∧ x.runLeft = 0 ∧ x.chainPos = 0 ∧ x.sc.accs = []) := by
  refine ⟨⟨_, _, .versionFull 1, coded_team [] pends (fun _ => rfl), rfl, rfl, by decide +kernel, .inl rfl, rfl, rfl, by decide +kernel, rfl⟩,
    ⟨_, _, .dirtyBudget, coded_team [] pendsDirty (fun _ => rfl), rfl, rfl, by decide +kernel, .inl rfl, rfl, rfl, by decide +kernel, rfl⟩,
    ⟨_, _, coded_team [] (waits (.sleep 0)) (fun _ => rfl), by decide +kernel, rfl, by decide +kernel⟩,
    ⟨_, _, coded_team [] (waits (.sleep 1)) (fun _ => rfl), by decide +kernel, rfl, by decide +kernel⟩,
    ⟨_, _, coded_team (encode (.hwait 3)) (waits (.hwait 3)) (fun _ => rfl), by decide +kernel, by decide +kernel, rfl, by decide +kernel⟩,
    ⟨_, _, coded_team (encode (.xcopy 3 4 0 0)) (waits (.command 3)) (fun _ => rfl), by decide +kernel, by decide +kernel, rfl, by decide +kernel⟩,
    ⟨{ coded (encode (.refillW 1 4)) (waits .refillW) with shards := [aShard someRecs] }, waits .refillW x0, loadedEntry, loadedLaunch 0,
      aShard someRecs, by decide +kernel, by decide +kernel, rfl, by decide +kernel, by decide +kernel, by decide +kernel, by decide, by decide +kernel⟩,
    ⟨_, _, coded_team (encode (.spawn 8 4)) (waits .spawn) (fun _ => rfl), by decide +kernel, rfl, by decide +kernel, by decide +kernel⟩, ?_, ?_,
    ⟨_, _, .versionFull 1, coded_team [] (fun x => pends { x with chainPos := 2, sc := { x.sc with wait := some .xswap } }) (fun _ => rfl), rfl, rfl,
      by decide +kernel, rfl, rfl, rfl, rfl, by decide +kernel⟩,
    fun k _ => ⟨_, _, issues (fun x => { x with pendTrap := some k, sc := { x.sc with tstat := 1 } }) (fun _ => rfl), by show Scalar.sup { x0.sc with tstat := 1 } = true; decide +kernel, rfl,
      by show Scalar.runLeftField { x0.sc with tstat := 1 } = 0; decide +kernel, rfl, rfl, rfl⟩⟩
  · obtain ⟨⟨i, c⟩, h, g⟩ := (Option.any_eq_true _ _).mp (show ((fed none).laneInstrAt (fedTeam none)).any (fun q => q.1 == .mfeedA feedArgs &&
      phaseReady (fed none) (fedTeam none) (.mfeedA feedArgs) (controlWord (fedTeam none) q.2.args ((fedTeam none).chainReads.getD []))) = true by decide +kernel)
    simp only [Bool.and_eq_true, beq_iff_eq] at g
    exact ⟨fed none, fedTeam none, feedArgs, c, by decide +kernel, by decide +kernel, rfl, g.1 ▸ h, g.2⟩
  · obtain ⟨⟨i, c⟩, h, g⟩ := (Option.any_eq_true _ _).mp (show ((fed (some [])).laneInstrAt (fedTeam (some []))).any (fun q =>
      (State.chainFrom q.2.ag q.2.e 0 (laneWordCount q.2.args) (fed (some []))).2 == some [] && chainReady (fed (some [])) (fedTeam (some [])) [q.1] []) = true
        by decide +kernel)
    simp only [Bool.and_eq_true, beq_iff_eq] at g
    exact ⟨fed (some []), fedTeam (some []), [], i, c, by decide +kernel, by decide +kernel, rfl, rfl, h, by
      rw [show (fedTeam (some [])).runLeft - 1 = 0 from rfl, show (fedTeam (some [])).lanePc = 0 from rfl, Nat.zero_add]; exact g.1, g.2⟩

def stopped (x : Team) : Team := onSc (fun c => { c with debugStopped := true }) x
def debugged (dctl smpl : Word) (f : Team → Team) : State :=
  (withTeam f).mapCore 0 (fun c => { c with dbg := { c.dbg with dctl := dctl, smpl := smpl } })

/-- A team that the debug block names, running and stopped; a sample that is due; INIT and RUN. -/
theorem witness_DebugAndRegisterWrites :
    (∃ (s : State) (x : Team) (p : Placement), smWf CoreState.reset s.cores = true ∧
      s.team? ⟨(s.core 0).dbg.dasid, (s.core 0).dbg.dteam⟩ = some x ∧ x.place = some p ∧ p.core = 0 ∧ x.sc.debugStopped = false ∧
      x.chainPos = 0) ∧
    (∃ (s : State) (x : Team) (p : Placement), smWf CoreState.reset s.cores = true ∧
      s.team? ⟨(s.core 0).dbg.dasid, (s.core 0).dbg.dteam⟩ = some x ∧ x.place = some p ∧ p.core = 0 ∧ x.sc.debugStopped = true ∧
      (s.core 0).dbg.dctl.getLsbD 0 = true) ∧
    (∃ s : State, smWf CoreState.reset s.cores = true ∧ (s.core 0).dbg.smpl.getLsbD 0 = true ∧ (s.core 0).nextSample ≤ s.clock) ∧
    (∃ s : State, smWf CoreState.reset s.cores = true ∧ s.mstate = 0) ∧ (∃ s : State, smWf CoreState.reset s.cores = true ∧ s.mstate ≠ 0) :=
  ⟨⟨debugged 0 0 id, x0, ⟨0, 0⟩, by decide +kernel, by decide +kernel, rfl, rfl, rfl, rfl⟩,
   ⟨debugged 1 0 stopped, stopped x0, ⟨0, 0⟩, by decide +kernel, by decide +kernel, rfl, rfl, rfl, by decide +kernel⟩,
   ⟨debugged 0 1 id, by decide +kernel, by decide +kernel, by decide +kernel⟩,
   ⟨rig, by decide +kernel, by decide +kernel⟩, ⟨{ rig with mstate := 1 }, by decide +kernel, by decide⟩⟩

/-! ## Witnesses: queues, packets and launches -/

/-- The module with a queue table of 4 entries, whose descriptor 0 describes a signal-mapped queue with ring, tail and head on the page,
which the IOD's TLB maps. -/
def descriptor : List Byte :=
  natBytes 8 0x20000 ++ natBytes 4 0x64 ++ natBytes 4 0 ++ natBytes 8 0x21000 ++ natBytes 8 0x21008 ++ natBytes 32 0
def qrig : State := { State.reset with
  fwacc := #v[0x3FF, 0, 0, 0]
  qtsize := 4
  mem := State.reset.mem.writeBytes 0 descriptor
  tlb := [{ dataTlb with owner := .iod }] }
/-- The same, of an address space that the IOD knows already. -/
def qknown : State := { qrig with asids := [⟨0, true, true, 0, 0, 0, 0⟩] }
def aQueue : Queue := queueOf 0 0 descriptor 0
def mappedQueue : Queue := { aQueue with st := .mapped }
def queued (q : Queue) : State := { qrig with queues := [q] }

/-- Run-list queues of two processes, the first of which has had its turn. -/
def turning : State := { qrig with
  queues := [{ aQueue with signal := false, st := .mapped }, { aQueue with signal := false, num := 1, proc := 1 }]
  turnProc := some 0
  turnStart := 0
  clock := 10000 * Config.cyclesPerUs }

/-- The parts of a result that answers with bytes, or with none. -/
theorem read_witness {s : State} {asid : Byte} {va : DWord} {n : Nat} {f : List Byte → Bool} (h : (s.iodRead asid va n).2.any f = true) :
    ∃ u bs, s.iodRead asid va n = (u, some bs) ∧ f bs = true := by
  obtain ⟨bs, e, g⟩ := (Option.any_eq_true _ _).mp h
  exact ⟨_, bs, Prod.ext rfl e, g⟩
theorem no_read_witness {s : State} {asid : Byte} {va : DWord} {n : Nat} (h : (s.iodRead asid va n).2.isNone = true) :
    ∃ u, s.iodRead asid va n = (u, none) := ⟨_, Prod.ext rfl (Option.isNone_iff_eq_none.mp h)⟩

/-- The module as a register command finds it before its reads. -/
def registering (s : State) : State := ({ s with migrating := false } : State).devTouch (s.descPa 0) 64 false

/-- The queue's pages behind a leaf in migration. -/
def qmoving : State := { qrig with
  tlb := []
  asids := [⟨0, true, true, 0, 0, 0, 0⟩]
  walkCache := [⟨1, 0, 4, 0, 0x40000⟩, ⟨1, 0, 3, 0, 0x40000⟩, ⟨1, 0, 2, 0, 0x40000⟩, ⟨1, 0, 1, 0, 0x40000⟩]
  mem := qrig.mem.writeBytes 0x40010 (natBytes 8 0x2101B) }
/-- The queue's pages behind no leaf. -/
def qabsent : State := { qmoving with mem := qrig.mem }

theorem witness_QueueCommandsAndWatching :
    (∃ s : State, s.qstat.getLsbD 0 = true ∧ s.qcmdDue = none) ∧
    (∃ (s : State) (tail head : Nat), s.qstat.getLsbD 0 = false ∧ s.qcmdDue = none ∧ s.descReadable 0 = true ∧
      aQueue = queueOf 0 (s.descPa 0) ((registering s).mem.readBytes (s.descPa 0) 64) (registering s).clock ∧
      (registering s).registerRefusal 0 ((registering s).mem.readBytes (s.descPa 0) 64) aQueue = none ∧
      ((registering s).registerReads aQueue).2 = some (tail, head)) ∧
    (∀ moving : Bool, ∃ s : State, s.qstat.getLsbD 0 = false ∧ s.qcmdDue = none ∧ s.descReadable 0 = true ∧
      aQueue = queueOf 0 (s.descPa 0) ((registering s).mem.readBytes (s.descPa 0) 64) (registering s).clock ∧
      (registering s).registerRefusal 0 ((registering s).mem.readBytes (s.descPa 0) 64) aQueue = none ∧
      ((registering s).registerReads aQueue).2 = none ∧ ((registering s).registerReads aQueue).1.migrating = moving) ∧
    (∃ (s : State) (q : Queue) (c : Nat), s.qstat.getLsbD 0 = false ∧ s.qcmdDue = none ∧ s.descReadable 0 = true ∧
      (registering s).registerRefusal 0 ((registering s).mem.readBytes (s.descPa 0) 64) q = some c) ∧
    (∀ st ∈ ([.idle, .mapped, .faulted] : List QState), ∃ (s : State) (x : Queue), s.qstat.getLsbD 0 = false ∧ s.up = true ∧
      0 < s.qtsize.toNat ∧ s.queue? 0 = some x ∧ x.dereg = false ∧ x.st = st ∧ x.signal = true) ∧
    (∃ s : State, s.qstat.getLsbD 0 = false ∧ s.up = true ∧ s.qtsize.toNat = 4) ∧
    (∃ (s : State) (q : Queue), s.queue? q.num = some q ∧ q.st = .mapped ∧ q.dereg = false ∧ q.tailNew = false) ∧
    (∃ (s u : State) (q : Queue) (bs : List Byte), s.queue? q.num = some q ∧ q.st = .mapped ∧ q.dereg = false ∧ q.tailNew = true ∧
      ({ s with migrating := false } : State).iodRead q.asid q.taila 8 = (u, some bs) ∧ q.read.toNat = natOfBytes bs ∧
      natOfBytes bs ≤ q.head + 2 ^ q.log2sz) ∧
    (∃ (s u : State) (q : Queue) (bs : List Byte), s.queue? q.num = some q ∧ q.st = .mapped ∧ q.dereg = false ∧ q.tailNew = true ∧
      ({ s with migrating := false } : State).iodRead q.asid q.taila 8 = (u, some bs) ∧ natOfBytes bs < q.read.toNat) ∧
    (∀ moving : Bool, ∃ (s u : State) (q : Queue), s.queue? q.num = some q ∧ q.st = .mapped ∧ q.dereg = false ∧ q.tailNew = true ∧
      ({ s with migrating := false } : State).iodRead q.asid q.taila 8 = (u, none) ∧ u.migrating = moving) ∧
    (∃ (s : State) (q : Queue), s.queue? q.num = some q ∧ q.signal = true ∧ q.st = .mapped ∧ q.read = q.tail ∧ q.cur = none ∧ q.ibs = [] ∧
      q.lastChange + (if q.timeout = 0 then 2000 else q.timeout) * Config.cyclesPerUs = s.clock) ∧
    (∃ (s : State) (q : Queue), s.queue? q.num = some q ∧ q.dereg = true) ∧
    (∃ (s : State) (q : Queue), s.queue? q.num = some q ∧ q.dereg = false ∧ q.signal = true ∧ q.st = .unmapping ∧ q.order = none) ∧
    (∃ (s : State) (q : Queue), s.queue? q.num = some q ∧ q.dereg = false ∧ q.signal = false ∧ q.st = .unmapping ∧
      s.turnNext = some 1 ∧ (1 : Word) ∈ s.processes ∧ (1 : Word) ≠ q.proc) ∧
    (∃ (s : State) (q : Queue) (r : Word), s.queue? q.num = some q ∧ q.signal = false ∧ q.st = .mapped ∧ s.turnProc = some q.proc ∧
      nextProcess q.proc s.processes = some r ∧ r ≠ q.proc ∧ s.turnNext = none ∧ s.supply = .on ∧
      s.turnStart + s.quantumOf q.proc = s.clock ∧ s.collections = []) := by
  refine ⟨⟨{ qrig with qstat := 1 }, by decide, by decide⟩, ?_, ?_,
    ⟨{ qrig with qtsize := 0 }, aQueue, 6, by decide +kernel, by decide +kernel, by decide +kernel, by decide +kernel⟩,
    ?_, ⟨qrig, by decide +kernel, by decide +kernel, by decide +kernel⟩,
    ⟨queued { aQueue with st := .mapped, tailNew := false }, { aQueue with st := .mapped, tailNew := false }, by decide +kernel, rfl, rfl, rfl⟩,
    ?_, ?_, ?_,
    ⟨{ (queued mappedQueue) with clock := 3400000 }, mappedQueue, by decide +kernel, by decide +kernel, rfl, rfl, rfl, rfl,
      by decide +kernel⟩,
    ⟨queued { aQueue with dereg := true }, { aQueue with dereg := true }, by decide +kernel, rfl⟩,
    ⟨queued { aQueue with st := .unmapping }, { aQueue with st := .unmapping }, by decide +kernel, rfl, by decide +kernel, rfl, rfl⟩,
    ⟨{ turning with
        queues := [{ aQueue with st := .unmapping, signal := false }, { aQueue with signal := false, num := 1, proc := 1 }]
        turnNext := some 1 }, { aQueue with st := .unmapping, signal := false },
      by decide +kernel, rfl, rfl, rfl, rfl, by decide +kernel, by decide +kernel⟩, ?_⟩
  · obtain ⟨⟨tail, head⟩, e⟩ := Option.isSome_iff_exists.mp (show ((registering qknown).registerReads aQueue).2.isSome = true by decide +kernel)
    exact ⟨qknown, tail, head, by decide +kernel, by decide +kernel, by decide +kernel, by decide +kernel, by decide +kernel, e⟩
  · intro moving
    cases moving
    · exact ⟨qabsent, by decide +kernel, by decide +kernel, by decide +kernel, by decide +kernel, by decide +kernel, by decide +kernel, by decide +kernel⟩
    · exact ⟨qmoving, by decide +kernel, by decide +kernel, by decide +kernel, by decide +kernel, by decide +kernel, by decide +kernel, by decide +kernel⟩
  · intro st _
    exact ⟨queued { aQueue with st := st }, { aQueue with st := st }, by cases st <;> decide +kernel, by cases st <;> decide +kernel,
      by cases st <;> decide +kernel, by cases st <;> decide +kernel, rfl, rfl, by cases st <;> decide +kernel⟩
  · obtain ⟨u, bs, h, g⟩ := read_witness (s := queued { aQueue with st := .mapped, tailNew := true }) (asid := 0) (va := 0x21000) (n := 8)
      (f := fun bs => natOfBytes bs == 0) (by decide +kernel)
    rw [beq_iff_eq] at g
    exact ⟨queued { aQueue with st := .mapped, tailNew := true }, u, { aQueue with st := .mapped, tailNew := true }, bs, by decide +kernel, rfl, rfl, rfl, h, by rw [g]; rfl, by rw [g]; exact Nat.zero_le _⟩
  · obtain ⟨u, bs, h, g⟩ := read_witness (s := queued { aQueue with st := .mapped, tailNew := true, read := 1 }) (asid := 0) (va := 0x21000)
      (n := 8) (f := fun bs => natOfBytes bs == 0) (by decide +kernel)
    rw [beq_iff_eq] at g
    exact ⟨queued { aQueue with st := .mapped, tailNew := true, read := 1 }, u, { aQueue with st := .mapped, tailNew := true, read := 1 }, bs, by decide +kernel, rfl, rfl, rfl, h, by rw [g]; decide⟩
  · intro moving
    have h : ∀ m : Bool, ((if m then { qmoving with queues := [{ aQueue with st := .mapped, tailNew := true }] }
        else { qabsent with queues := [{ aQueue with st := .mapped, tailNew := true }] } : State).iodRead 0 0x21000 8).2 = none := by decide +kernel
    cases moving
    · exact ⟨{ qabsent with queues := [{ aQueue with st := .mapped, tailNew := true }] }, _, { aQueue with st := .mapped, tailNew := true },
        by decide +kernel, rfl, rfl, rfl, Prod.ext rfl (h false), by decide +kernel⟩
    · exact ⟨{ qmoving with queues := [{ aQueue with st := .mapped, tailNew := true }] }, _, { aQueue with st := .mapped, tailNew := true },
        by decide +kernel, rfl, rfl, rfl, Prod.ext rfl (h true), by decide +kernel⟩
  · exact ⟨turning, { aQueue with signal := false, st := .mapped }, 1,
      by decide +kernel, rfl, rfl, by decide +kernel, by decide +kernel, by decide +kernel, by decide +kernel, by decide +kernel, by decide +kernel, by decide +kernel⟩

/-- The module with one packet in the ring of a mapped queue, and a launch record with its tables on the page. -/
def packet (w0 a b c : Nat) : List Byte := natBytes 8 w0 ++ natBytes 8 a ++ natBytes 8 b ++ natBytes 8 c ++ natBytes 32 0
def launchRecord : List Byte :=
  natBytes 4 0x01010110 ++ natBytes 4 0x400500 ++ natBytes 8 0 ++ natBytes 4 0x01000001 ++ natBytes 4 0x200 ++ natBytes 8 0 ++
    natBytes 8 0x20400 ++ natBytes 8 0x20500 ++ natBytes 208 0
def launchEntry : List Byte := natBytes 8 0x10000 ++ natBytes 8 0x10000 ++ natBytes 8 0x18000 ++ natBytes 4 1 ++ natBytes 4 1 ++ natBytes 16 0 ++ natBytes 4 0x20
  ++ natBytes 12 0
def packed (q : Queue) (p : List Byte) : State :=
  { (queued q) with
    asids := [⟨0, true, true, 0, 0, 0, 0⟩]
    mem := ((((State.reset.mem.writeBytes 0x20000 p).writeBytes 0x20300 launchRecord).writeBytes 0x20400 launchEntry).writeBytes 0x20500
      (natBytes 32 0)) }
def ready1 : Queue := { aQueue with st := .mapped, tail := 1 }
def nested : Queue := { ready1 with ibs := List.replicate 4 ⟨0x20000, 2, 0⟩ }

/-- A packet that a queue starts next, well-formed and not held by a barrier. -/
def Starting (s u : State) (q : Queue) (p : List Byte) : Prop :=
  s.queue? q.num = some q ∧ q.st = .mapped ∧ q.stall = false ∧ s.supply = .on ∧ ({ s with migrating := false } : State).nextPacket q = (u, some (.ok (0x20000, p))) ∧
    packetBad p = false ∧ u.barrierHolds q.num p = false

theorem packet_witness (q : Queue) (hq : q.st = .mapped ∧ q.stall = false) (p : List Byte) (f : State → Bool)
    (h : (match (packed q p).nextPacket q with
      | (u, some (.ok (pos, bs))) => bs == p && pos == 0x20000 && !packetBad bs && !u.barrierHolds q.num bs && f u
      | _ => false) = true) : ∃ s u, Starting s u q p ∧ f u = true := by
  split at h
  · rename_i u pos bs e
    simp only [Bool.and_eq_true, Bool.not_eq_true', beq_iff_eq] at h
    obtain ⟨⟨⟨⟨rfl, rfl⟩, hb⟩, hh⟩, hf⟩ := h
    refine ⟨packed q bs, u, ⟨?_, hq.1, hq.2, rfl, by rw [still (by rfl)]; exact e, hb, hh⟩, hf⟩
    show [q].find? (fun x => x.num = q.num) = some q
    simp
  · cases h

theorem record_witness {a : Accepted} {f : State → Launch → List (List Rec) → Bool} {g : State → Bool} :
    ((match a with | .ok w l recs => f w l recs | .refused _ _ => false) = true → ∃ w l recs, a = .ok w l recs ∧ f w l recs = true) ∧
      ((match a with | .ok _ _ _ => false | .refused w _ => g w) = true → ∃ w c, a = .refused w c ∧ g w = true) := by
  cases a with
  | ok w l recs => exact ⟨fun h => ⟨_, _, _, rfl, h⟩, fun h => (by cases h)⟩
  | refused w c => exact ⟨fun h => (by cases h), fun h => ⟨_, _, rfl, h⟩⟩

def doneLaunch : State := { State.reset with launches := [binLaunch true] }

/-- Each packet with its condition holding and failing, and a launch of which nothing is left. -/
theorem witness_PacketsStartAndComplete :
    (∃ s u, Starting s u ready1 (packet 1 0 0 0)) ∧
    (∃ s u w l recs, Starting s u ready1 (packet 2 0x20300 0x22000 7) ∧ u.readLaunch ready1 0x20000 0x20300 0x22000 7 = .ok w l recs ∧
      ((w.acceptLaunch l recs).packetStarted ready1.num).migrating = false) ∧
    (∃ s u w c, Starting s u ready1 (packet 2 0x50300 0x22000 7) ∧ u.readLaunch ready1 0x20000 0x50300 0x22000 7 = .refused w c ∧
      w.migrating = false) ∧
    (∃ s u, Starting s u ready1 (packet 3 0x20000 1 0) ∧ ready1.ibs = []) ∧
    (∃ s u, Starting s u nested (packet 3 0x20000 1 0) ∧ nested.ibs.length = 4) ∧
    (∃ s u w m, Starting s u ready1 (packet 0x804 0x22000 0 1) ∧ u.iodRead 0 0x22000 8 = (w, some m) ∧ natOfBytes m = 0) ∧
    (∃ s u w m, Starting s u ready1 (packet 0xC04 0x22000 1 1) ∧ u.iodRead 0 0x22000 8 = (w, some m) ∧ natOfBytes m = 0) ∧
    (∃ s u w, Starting s u ready1 (packet 0x804 0x50000 0 1) ∧ u.iodRead 0 0x50000 8 = (w, none) ∧ w.migrating = false) ∧
    (∃ s u w, Starting s u ready1 (packet 0x805 0x22000 7 0) ∧ u.iodWrite 0 0x22000 (((packet 0x805 0x22000 7 0).drop 0x10).take 8) = (w, true)) ∧
    (∃ s u w, Starting s u ready1 (packet 0x805 0x50000 7 0) ∧ u.iodWrite 0 0x50000 (((packet 0x805 0x50000 7 0).drop 0x10).take 8) = (w, false) ∧
      w.migrating = false) ∧
    (∃ s u w m, Starting s u ready1 (packet 6 0x22000 0 0) ∧ u.feature 9 = true ∧ u.iodRead 0 0x22000 8 = (w, some m) ∧ natOfBytes m = 0) ∧
    (∃ s u w m, Starting s u ready1 (packet 6 0x22000 1 0) ∧ u.feature 9 = true ∧ u.iodRead 0 0x22000 8 = (w, some m) ∧ natOfBytes m = 0) ∧
    (∃ (s : State) (l : Launch), s.launch? l.id = some l ∧ l.lstate = .running ∧ (∀ b ∈ l.bins, b.closed = true) ∧
      (∀ h ∈ s.shards, h.launch = l.id → h.recs = []) ∧ (∀ x ∈ s.teams, x.launch ≠ l.id) ∧ (∀ o ∈ s.ops, o.launch ≠ l.id) ∧
      (∀ g ∈ s.groups, g.launch ≠ l.id) ∧ (∀ g ∈ s.gangs, g.launch ≠ l.id) ∧
      (∀ k ∈ s.links, LinkMsg.lnote l.id ∉ k.down ++ k.downWait ∧ LinkMsg.done l.id ∉ k.up ++ k.upWait) ∧
      (State.completeLaunch { s with migrating := false } l.id l).migrating = false) := by
  have reads : ∀ (p : List Byte) (v : Nat), (match (packed ready1 p).nextPacket ready1 with
      | (u, some (.ok (pos, bs))) => bs == p && pos == 0x20000 && !packetBad bs && !u.barrierHolds ready1.num bs &&
          (u.feature 9 && (u.iodRead 0 (BitVec.ofNat 64 v) 8).2.any (fun m => natOfBytes m == 0))
      | _ => false) = true →
      ∃ s u w m, Starting s u ready1 p ∧ u.feature 9 = true ∧ u.iodRead 0 (BitVec.ofNat 64 v) 8 = (w, some m) ∧ natOfBytes m = 0 := by
    intro p v h
    obtain ⟨s, u, hs, hf⟩ := packet_witness ready1 ⟨rfl, rfl⟩ p (fun u => u.feature 9 && (u.iodRead 0 (BitVec.ofNat 64 v) 8).2.any (fun m => natOfBytes m == 0)) h
    rw [Bool.and_eq_true] at hf
    obtain ⟨w, m, e, hm⟩ := read_witness hf.2
    exact ⟨s, u, w, m, hs, hf.1, e, beq_iff_eq.mp hm⟩
  refine ⟨?_, ?_, ?_, ?_, ?_, ?_, ?_, ?_, ?_, ?_, reads _ 0x22000 (by decide +kernel), reads _ 0x22000 (by decide +kernel),
    ⟨doneLaunch, binLaunch true, by decide +kernel, rfl, by decide, by decide +kernel, by decide +kernel, by decide +kernel, by decide +kernel,
      by decide +kernel, by decide +kernel, by decide +kernel⟩⟩
  · obtain ⟨s, u, h, -⟩ := packet_witness ready1 ⟨rfl, rfl⟩ (packet 1 0 0 0) (fun _ => true) (by decide +kernel)
    exact ⟨s, u, h⟩
  · obtain ⟨s, u, h, g⟩ := packet_witness ready1 ⟨rfl, rfl⟩ (packet 2 0x20300 0x22000 7) (fun u =>
      match u.readLaunch ready1 0x20000 0x20300 0x22000 7 with
      | .ok w l recs => !((w.acceptLaunch l recs).packetStarted ready1.num).migrating
      | .refused _ _ => false) (by decide +kernel)
    obtain ⟨w, l, recs, e, hm⟩ := (record_witness (f := fun w l recs => !((w.acceptLaunch l recs).packetStarted ready1.num).migrating)
      (g := fun _ => true)).1 g
    exact ⟨s, u, w, l, recs, h, e, by simpa using hm⟩
  · obtain ⟨s, u, h, g⟩ := packet_witness ready1 ⟨rfl, rfl⟩ (packet 2 0x50300 0x22000 7) (fun u =>
      match u.readLaunch ready1 0x20000 0x50300 0x22000 7 with | .ok _ _ _ => false | .refused w _ => !w.migrating) (by decide +kernel)
    obtain ⟨w, c, e, hm⟩ := (record_witness (f := fun _ _ _ => true) (g := fun w => !w.migrating)).2 g
    exact ⟨s, u, w, c, h, e, by simpa using hm⟩
  · obtain ⟨s, u, h, -⟩ := packet_witness ready1 ⟨rfl, rfl⟩ (packet 3 0x20000 1 0) (fun _ => true) (by decide +kernel)
    exact ⟨s, u, h, rfl⟩
  · obtain ⟨s, u, h, -⟩ := packet_witness nested ⟨rfl, rfl⟩ (packet 3 0x20000 1 0) (fun _ => true) (by decide +kernel)
    exact ⟨s, u, h, rfl⟩
  · obtain ⟨s, u, w, m, h, -, e⟩ := reads (packet 0x804 0x22000 0 1) 0x22000 (by decide +kernel)
    exact ⟨s, u, w, m, h, e⟩
  · obtain ⟨s, u, w, m, h, -, e⟩ := reads (packet 0xC04 0x22000 1 1) 0x22000 (by decide +kernel)
    exact ⟨s, u, w, m, h, e⟩
  · obtain ⟨s, u, h, g⟩ := packet_witness ready1 ⟨rfl, rfl⟩ (packet 0x804 0x50000 0 1) (fun u => (u.iodRead 0 0x50000 8).2.isNone && !(u.iodRead 0 0x50000 8).1.migrating)
      (by decide +kernel)
    rw [Bool.and_eq_true, Bool.not_eq_true'] at g
    exact ⟨s, u, _, h, Prod.ext rfl (Option.isNone_iff_eq_none.mp g.1), g.2⟩
  · obtain ⟨s, u, h, g⟩ := packet_witness ready1 ⟨rfl, rfl⟩ (packet 0x805 0x22000 7 0)
      (fun u => (u.iodWrite 0 0x22000 (((packet 0x805 0x22000 7 0).drop 0x10).take 8)).2) (by decide +kernel)
    exact ⟨s, u, _, h, Prod.ext rfl g⟩
  · obtain ⟨s, u, h, g⟩ := packet_witness ready1 ⟨rfl, rfl⟩ (packet 0x805 0x50000 7 0)
      (fun u => !(u.iodWrite 0 0x50000 (((packet 0x805 0x50000 7 0).drop 0x10).take 8)).2 &&
        !(u.iodWrite 0 0x50000 (((packet 0x805 0x50000 7 0).drop 0x10).take 8)).1.migrating) (by decide +kernel)
    simp only [Bool.and_eq_true, Bool.not_eq_true'] at g
    exact ⟨s, u, _, h, Prod.ext rfl g.1, g.2⟩

/-- The module with a message on the command link of cluster 0, down or up, and one pre-emption in progress. -/
def linked0 (down up : List LinkMsg) (cs : List Collection) : State :=
  { rig with links := [{ CmdLink.reset 0 with down := down, up := up }], collections := cs }
def aCollection (units told : List UnitId) : Collection := ⟨0, [.request], [], [], [.team loadedId], units, told, [0], [], []⟩

def unplaced (x : Team) : Team := { x with place := none, savedOn := none }
/-- An XSWAP that waits as the fourth member of its chain. -/
def swapping (x : Team) : Team := { x with chainPos := 3, sc := { x.sc with wait := some .xswap } }
def placing : State := { (withTeam unplaced) with saveOrder := [.team loadedId] }

/-- Each message taken; a unit that has been told to stop; a team that waits for placement and a core for it. -/
theorem witness_LinkMessagesAndPlacement :
    (∃ (s : State) (k : CmdLink) (x : Launch), s.link 0 = k ∧ k.cl = 0 ∧ k.down = [.lnote 0] ∧ k.downWait = [] ∧ s.launch? 0 = some x) ∧
    (∃ (s : State) (k : CmdLink) (c : Collection) (u : UnitId), s.link 0 = k ∧ k.down = [.preq c.id] ∧ k.downWait = [] ∧ s.collections = [c] ∧
      u ∈ c.members ∧ s.unitCluster u = some 0 ∧ u ∈ c.units ∧ s.unitLive u = true) ∧
    (∃ (s : State) (k : CmdLink) (x : Launch), s.link 0 = k ∧ k.down = [.resume 0] ∧ k.downWait = [] ∧ s.launch? 0 = some x ∧
      s.collections = [] ∧ ∀ j ∈ s.links, j.cl ≠ 0 → LinkMsg.resume 0 ∉ j.down ++ j.downWait) ∧
    (∃ (s : State) (k : CmdLink), s.link 0 = k ∧ k.down = [.mapchg 0] ∧ k.downWait = []) ∧
    (∃ (s : State) (k : CmdLink) (c : Collection) (v : UnitId), s.link 0 = k ∧ k.up = [.pack c.id] ∧ k.upWait = [] ∧ s.collections = [c] ∧
      v ∈ c.units ∧ s.unitLive v = true ∧ s.unitCluster v ≠ some 0 ∧ (∀ u ∈ c.units, s.unitCluster u ≠ some 0) ∧
      LinkMsg.preq c.id ∉ k.down ++ k.downWait) ∧
    (∃ (s : State) (k : CmdLink) (o : OpId), s.link 0 = k ∧ k.up = [.efault o] ∧ k.upWait = []) ∧
    (∃ (s : State) (k : CmdLink) (x : Launch), s.link 0 = k ∧ k.up = [.done 0] ∧ k.upWait = [] ∧ s.launch? 0 = some x) ∧
    (∃ (s : State) (x : Team) (c : Collection) (v : UnitId), s.team? x.id = some x ∧ s.collections = [c] ∧ c.units = [.team x.id, v] ∧
      v ≠ .team x.id ∧ s.unitLive v = true ∧ UnitId.team x.id ∈ c.told ∧ x.chainPos = 0 ∧ x.sc.accs = [] ∧ x.place.isSome = true) ∧
    (∃ (s : State) (x : Team) (c : Collection) (v : UnitId), s.team? x.id = some x ∧ s.collections = [c] ∧ c.units = [.team x.id, v] ∧
      v ≠ .team x.id ∧ s.unitLive v = true ∧ UnitId.team x.id ∈ c.told ∧ x.chainPos = 3 ∧ x.sc.wait = some .xswap ∧ x.sc.accs = [] ∧ x.place.isSome = true) ∧
    (∃ (s : State) (x : Team) (l : Launch) (p : Placing) (core : Nat), s.saveOrder = [.team x.id] ∧ s.team? x.id = some x ∧ x.place = none ∧
      s.launch? x.launch = some l ∧ s.mayPlace l = true ∧ s.waitingGroup (.team x.id) = ([x], []) ∧
      (l.entries[x.entry]?).isSome = true ∧ s.pickPlacing ((s.placings x.die [x] []).filter (s.placingFits x.die)) = some p ∧
      p = ⟨[(x.id, core)], [], [], [(x.left, core)]⟩) :=
  ⟨⟨linked0 [.lnote 0] [] [], { CmdLink.reset 0 with down := [.lnote 0] }, loadedLaunch 0, rfl, rfl, rfl, rfl, by decide +kernel⟩,
   ⟨linked0 [.preq 0] [] [aCollection [.team loadedId] []], { CmdLink.reset 0 with down := [.preq 0] }, aCollection [.team loadedId] [],
    .team loadedId, rfl, rfl, rfl, rfl, by decide, by decide +kernel, by decide, by decide +kernel⟩,
   ⟨linked0 [.resume 0] [] [], { CmdLink.reset 0 with down := [.resume 0] }, loadedLaunch 0, rfl, rfl, rfl, by decide +kernel, rfl, by decide +kernel⟩,
   ⟨linked0 [.mapchg 0] [] [], { CmdLink.reset 0 with down := [.mapchg 0] }, rfl, rfl, rfl⟩,
   ⟨linked0 [] [.pack 0] [aCollection [.ballast 1] []], { CmdLink.reset 0 with up := [.pack 0] }, aCollection [.ballast 1] [], .ballast 1, rfl, rfl, rfl,
    rfl, by decide, by decide +kernel, by decide +kernel, by decide +kernel, by decide⟩,
   ⟨linked0 [] [.efault ⟨loadedId, 1⟩] [], { CmdLink.reset 0 with up := [.efault ⟨loadedId, 1⟩] }, ⟨loadedId, 1⟩, rfl, rfl, rfl⟩,
   ⟨linked0 [] [.done 0] [], { CmdLink.reset 0 with up := [.done 0] }, loadedLaunch 0, rfl, rfl, rfl, by decide +kernel⟩,
   ⟨linked0 [] [] [aCollection [.team loadedId, .ballast 0] [.team loadedId]], x0, aCollection [.team loadedId, .ballast 0] [.team loadedId],
    .ballast 0, by decide +kernel, rfl, rfl, by decide, by decide +kernel, by decide, rfl, rfl, rfl⟩,
   ⟨{ (withTeam swapping) with collections := [aCollection [.team loadedId, .ballast 0] [.team loadedId]] }, swapping x0,
    aCollection [.team loadedId, .ballast 0] [.team loadedId], .ballast 0, by decide +kernel, rfl, rfl, by decide, by decide +kernel, by decide, rfl, rfl, rfl, rfl⟩,
   ⟨placing, unplaced x0, loadedLaunch 0, ⟨[(loadedId, 0)], [], [], [(10 ^ 6, 0)]⟩, 0, rfl, by decide +kernel, rfl, by decide +kernel, by decide +kernel, by decide +kernel,
    by decide +kernel, by decide +kernel, rfl⟩⟩

/-- The module with a launch and a shard of two records for its closed bin, no team yet; a neighbourhood launch of one core; one whose
register quota no core meets. -/
def startLaunch : Launch := binLaunch true
def nbLaunch : Launch := { binLaunch true with nb := true, nbq := 1, spq := 128 }
def starved : Launch := { nbLaunch with regq := 0 }
def starting (l : Launch) (clock : Nat) : State := { State.reset with launches := [l], shards := [{ aShard someRecs with ready := some 0 }], clock := clock }
def timed : State := { starting startLaunch 0 with shards := [{ aShard someRecs with timer := some 0 }] }

theorem witness_TeamsAndNeighbourhoodsStart :
    (∃ (s : State) (h : Shard) (l : Launch) (e : Entry) (core : Nat), s.shard? h.launch h.bin h.die = some h ∧ s.startFor h = some (l, e, core) ∧
      (∀ x ∈ s.shards, x.die = h.die → h.ready.getD 0 ≤ x.ready.getD 0) ∧ (∀ r ∈ h.recs, r.tag = none) ∧
      (∀ b, l.bins[h.bin]? = some b → b.closeTag = none) ∧ l.id = h.launch ∧ e.bin = h.bin ∧ core / 36 = h.die ∧ e.n ≤ 32 ∧
      h.recs.length < 32 * e.n) ∧
    (∃ (s : State) (l : Launch) (h : Shard) (rect : List Nat), s.launch? l.id = some l ∧ s.leadReady l 0 = some h ∧
      s.pickRectangle (s.candidates l 0) = some rect ∧ l.nb = true ∧ s.startsOpen l = true ∧ s.placementWaits 0 = false ∧
      (s.nbhdsOn l 0).length < l.nbq ∧ (∀ x ∈ s.shards, ∀ r ∈ x.recs, r.tag = none) ∧ ∀ b ∈ l.bins, b.closeTag = none) ∧
    (∃ (s : State) (l : Launch) (w : RectWait) (r : List Nat), s.launch? l.id = some l ∧ s.waitingNb.find? (fun w => w.die = 0) = some w ∧
      w.launch = l.id ∧ s.lackRects.any w.same = true ∧ w.since + 1000 * Config.cyclesPerUs = s.clock ∧ (∀ x ∈ s.reservations, x.die ≠ 0) ∧
      s.pickRectangle (s.usableRects l 0) = some r) ∧
    (∃ (s : State) (h : Shard) (l : Launch) (till : Nat), s.shard? h.launch h.bin h.die = some h ∧ s.launch? h.launch = some l ∧ h.frozen = none ∧
      h.timer = some till ∧ till = s.clock ∧ h.recs ≠ []) ∧
    (∃ s : State, s.clock % 256 = 0 ∧ smWf CoreState.reset s.cores = true ∧ ∃ g ∈ s.groupsOn 0, g ≠ []) ∧
    (∃ s : State, s.clock % 256 ≠ 0 ∧ smWf CoreState.reset s.cores = true) :=
  ⟨⟨starting startLaunch 0, { aShard someRecs with ready := some 0 }, startLaunch, loadedEntry, 0, rfl, by decide +kernel, by decide +kernel, by decide,
    (by rintro _ ⟨⟩; rfl), rfl, rfl, rfl, by decide, by decide⟩,
   ⟨starting nbLaunch 0, nbLaunch, { aShard someRecs with ready := some 0 }, [0], by decide +kernel, by decide +kernel, by decide +kernel, rfl,
    by decide +kernel, by decide +kernel, by decide +kernel, by decide +kernel, by decide +kernel⟩,
   ⟨{ (starting starved 1700000) with waitingNb := [⟨.start starved.id, starved.id, 0, 0⟩] }, starved, ⟨.start starved.id, starved.id, 0, 0⟩, [0],
    by decide +kernel, rfl, rfl, by decide +kernel, by decide +kernel, by decide +kernel, by decide +kernel⟩,
   ⟨timed, { aShard someRecs with timer := some 0 }, startLaunch, 0, rfl, by decide +kernel, rfl, rfl, rfl, by decide⟩,
   ⟨{ rig with launches := [{ loadedLaunch 0 with nb := true }] }, by decide +kernel, by decide +kernel, by decide +kernel⟩,
   ⟨{ rig with clock := 1 }, by decide +kernel, by decide +kernel⟩⟩

/-! ## Witnesses: matrix groups, engines and Ballast -/

def formLaunch : Launch := { loadedLaunch 0 with formed := [], cands := [0] }
def forming : State := { State.reset with launches := [formLaunch] }
def alone : State := { crig with teams := [] }
/-- An operation at the head of an array core's queue. -/
def mxOp (form : MxForm) (at_ : Option Nat) : MxOp := ⟨form, 0, 0, 0, 0, true, true, true, 0, 0, at_, 0, 0⟩
def fullBank : Bank := ⟨[], true, false⟩
def arrayWith (o : MxOp) (b : Bank) : ArrayState := { ArrayState.reset 0 with ab := Vector.replicate 4 b, bb := Vector.replicate 4 b, queue := [o] }
def queueing (o : MxOp) (b : Bank) (g : Group) : Group := { g with arrays := [arrayWith o b] }
def queuedOp (o : MxOp) (b : Bank) (clock : Nat) : State := { withGroup (queueing o b) with clock := clock }

theorem queuedOp_group (o : MxOp) (b : Bank) (n : Nat) : (queuedOp o b n).group? 0 = some (queueing o b g0) := rfl

theorem witness_MatrixGroupsAndOperationsRun :
    (∃ (s : State) (l : Launch), s.launch? l.id = some l ∧ s.canForm l 0 = true) ∧
    (∃ (s : State) (g : Group) (l : Launch), s.group? g.cl = some g ∧ s.launch? g.launch = some l ∧ s.groupDone g l = true) ∧
    (∀ form ∈ ([.mma, .mmas, .mzero] : List MxForm), ∃ (s : State) (g : Group) (a : ArrayState) (o : MxOp), s.group? 0 = some g ∧
      g.arrays[0]? = some a ∧ a.queue = [o] ∧ g.placed = true ∧ s.stopping (.ctrl 0) = false ∧ o.started = none ∧ o.form = form ∧
      (a.accOf o.acc).drain = false ∧ (a.bank false o.abank).full = true ∧ (a.bank true o.bbank).full = true) ∧
    (∀ form ∈ ([.mma, .mmas, .mzero] : List MxForm), ∃ (s : State) (g : Group) (a : ArrayState) (o : MxOp), s.group? 0 = some g ∧
      g.arrays[0]? = some a ∧ a.queue = [o] ∧ o.started = some 0 ∧ 0 + (if o.form = .mzero then 4 else 32) ≤ s.clock ∧ o.form = form) :=
  ⟨⟨forming, formLaunch, by decide +kernel, by decide +kernel⟩,
   ⟨alone, g0, loadedLaunch 0, rfl, rfl, by decide +kernel⟩,
   fun form _ => ⟨queuedOp (mxOp form none) fullBank 0, queueing (mxOp form none) fullBank g0, arrayWith (mxOp form none) fullBank, mxOp form none,
     queuedOp_group _ _ _, rfl, rfl, rfl, by cases form <;> decide +kernel, rfl, rfl, by cases form <;> decide +kernel,
     by cases form <;> decide +kernel, by cases form <;> decide +kernel⟩,
   fun form _ => ⟨queuedOp (mxOp form (some 0)) fullBank 32, queueing (mxOp form (some 0)) fullBank g0, arrayWith (mxOp form (some 0)) fullBank,
     mxOp form (some 0), queuedOp_group _ _ _, rfl, rfl, rfl, by cases form <;> decide, rfl⟩⟩

theorem witness_MatrixProductsAreBlockSums : ∀ form ∈ ([.mma, .mmas] : List MxForm), ∃ (s : State) (g : Group) (a : ArrayState) (o : MxOp),
    s.group? 0 = some g ∧ g.arrays[0]? = some a ∧ a.queue = [o] ∧ o.started = some 0 ∧ 0 + 32 ≤ s.clock ∧ s.defects = [] ∧ o.form = form ∧
      o.form ≠ .mzero ∧ (a.bank true o.bbank).z = false := by
  intro form h
  refine ⟨queuedOp (mxOp form (some 0)) fullBank 32, queueing (mxOp form (some 0)) fullBank g0, arrayWith (mxOp form (some 0)) fullBank,
     mxOp form (some 0), queuedOp_group _ _ _, rfl, rfl, rfl, Nat.le_refl 32, rfl, rfl, ?_, by cases form <;> decide +kernel⟩
  rintro rfl
  simp at h

/-- An operation of a class that runs for the team, with the descriptor at 0x20000, its reads translated to the page there. -/
def opOf (cls : EngClass) (cancel fault : Bool) (body : Option Desc) : EngineOp :=
  { anOp .running 0 with cls := cls, cancel := cancel, fault := fault, body := body, addr := 0x20000 }
def opTlb (cls : EngClass) : TlbEntry := { dataTlb with owner := (opOf cls false false none).owner }
def turned (o : EngineOp) : State := { rig with ops := [o], tlb := [opTlb o.cls] }
/-- The words of a descriptor in memory, and one of them poisoned. -/
def described (o : EngineOp) (ws : List Nat) : State :=
  { turned o with mem := rig.mem.writeBytes 0x20000 (ws.flatMap (natBytes 4)) }
def poisonedDesc (o : EngineOp) : State := { turned o with poison := [(0x20000 / 4, true)] }
def words (o : EngineOp) (s : State) : State × Except EngStop (List PWord) :=
  State.engineWords o (loadedLaunch 0) 4 ((List.range (o.cls.size / 4)).map (fun k => o.desc + BitVec.ofNat 64 (4 * k))) s
def okOf {α : Type} (r : State × Except EngStop α) : Option α :=
  match r.2 with
  | .ok a => some a
  | .error _ => none
theorem ok_of {α : Type} {r : State × Except EngStop α} {a : α} (h : okOf r = some a) : ∃ u, r = (u, .ok a) := by
  obtain ⟨u, e⟩ := r
  cases e with
  | ok b => exact ⟨u, by rw [Option.some.inj (h : some b = some a)]⟩
  | error e => cases h
/-- What the words of a descriptor come to: the first case that the spec names. -/
def descCase (o : EngineOp) (s : State) : Option (Bool × Option Desc) :=
  (okOf (words o s)).map (fun ws => (ws.any (·.poison), o.cls.parse (loadedLaunch 0) ws))

def opTurns (s : State) (o : EngineOp) : Prop :=
  s.op? o.id = some o ∧ o.st = .running ∧ s.stopping (.op o.id) = false ∧ s.opGoes o = true ∧ s.launch? o.launch = some (loadedLaunch 0) ∧
    s.team? o.id.team = some x0 ∧ o.ending = none
theorem turned_turns (cls : EngClass) (c f : Bool) (d : Option Desc) (ws : List Nat) : opTurns (described (opOf cls c f d) ws) (opOf cls c f d) :=
  ⟨by rfl, rfl, by rfl, by rfl, rfl, rfl, rfl⟩

/-- The words of a descriptor of one copied byte, and of an nx = ny = 1 bit map. -/
def copyWords : List Nat := [0x20000, 0, 0x20000, 0, 8 + 4 * 64 + 4 * 512, 0, 1] ++ List.replicate 25 0
def swardWords : List Nat := [0x20000, 0, 0, 0, 0x10001] ++ List.replicate 11 0

theorem desc_witness (cls : EngClass) (s : State) (r : Bool × Option Desc) (ht : opTurns s (opOf cls false false none))
    (h : descCase (opOf cls false false none) s = some r) :
    ∃ s o u vs, opTurns s o ∧ o.cls = cls ∧ o.cancel = false ∧ o.fault = false ∧ o.body = none ∧ words o s = (u, .ok vs) ∧
      vs.any (·.poison) = r.1 ∧ o.cls.parse (loadedLaunch 0) vs = r.2 := by
  cases hw : okOf (words (opOf cls false false none) s) with
  | none => rw [descCase, hw] at h; cases h
  | some vs =>
    rw [descCase, hw] at h
    have e := Option.some.inj h
    obtain ⟨u, hu⟩ := ok_of hw
    exact ⟨s, opOf cls false false none, u, vs, ht, rfl, rfl, rfl, rfl, hu, congrArg Prod.fst e, congrArg Prod.snd e⟩
theorem some_case {cls : EngClass} {s : State} (h : (descCase (opOf cls false false none) s).any (fun r => !r.1 && r.2.isSome) = true) :
    ∃ d, descCase (opOf cls false false none) s = some (false, some d) := by
  cases hc : descCase (opOf cls false false none) s with
  | none => rw [hc] at h; cases h
  | some r =>
    obtain ⟨q, d⟩ := r
    rw [hc] at h
    cases q with
    | true => cases h
    | false =>
      cases d with
      | none => cases h
      | some d => exact ⟨d, rfl⟩

/-- A faulted operation at an address, what its TLB holds, and the bytes of the page at 0x20000 and of a page table. -/
def stoppedOp (addr : DWord) (k : BitVec 2) : EngineOp :=
  { opOf .xcopy false true none with addr := addr, kind := k, cause := 1, pgpool := 0x20000 }
def faulted (addr : DWord) (k : BitVec 2) (w : Bool) (bytes : List (Nat × List Byte)) : State :=
  { rig with
    ops := [stoppedOp addr k]
    tlb := [{ opTlb .xcopy with w := w }]
    mem := bytes.foldl (fun m b => m.writeBytes b.1 b.2) rig.mem }
/-- A first-touch pool of one frame, its range one granule at 0x40000 whose leaf stands at 0x20080 with FT set. -/
def poolBytes : List (Nat × List Byte) :=
  [(0x20000, natBytes 4 1 ++ natBytes 4 0 ++ natBytes 8 0x40000 ++ natBytes 4 1), (0x20018, natBytes 8 0x20080), (0x20040, natBytes 4 3),
    (0x20080, natBytes 8 0x800)]
/-- An address space whose walks reach a level 0 table at 0x30000, with the entries of 0x40000 and of the pool's page. -/
def faultTable (leaf pool : Nat) (bytes : List (Nat × List Byte)) : State :=
  { faulted 0x40000 0 true ((0x30020, natBytes 8 leaf) :: (0x30010, natBytes 8 pool) :: bytes) with
    tlb := []
    asids := [⟨0, true, true, 0, 0, 0, 0⟩]
    walkCache := [⟨0, 0, 4, 0, 0⟩, ⟨0, 0, 3, 0, 0⟩, ⟨0, 0, 2, 0, 0⟩, ⟨0, 0, 1, 0, 0x30000⟩] }
/-- The first-touch protocol's result: mapped, locked, failed, or a wait. -/
def resultCode : Except LeafStop Resolved → Nat
  | .ok .mapped => 0
  | .ok .locked => 1
  | .error .failed => 2
  | .error (.waits _) => 3
/-- What the leaf controller finds: the translation, the walk and the first-touch protocol. -/
def foundAt (s : State) : Xlated × Walked × Nat :=
  let o := stoppedOp 0x40000 0
  let r := s.translate o.agent o.addr
  let w := r.1.walk o.agent.asid o.die (va57 o.addr)
  (r.2, w.2, resultCode (w.1.firstTouch o.leafAgent o.pgpool o.addr).2)
theorem foundAt_is {s : State} {x : Xlated} {k : Walked} {n : Nat} (h : foundAt s = (x, k, n)) : ∃ u v w r,
    s.translate (stoppedOp 0x40000 0).agent (stoppedOp 0x40000 0).addr = (u, x) ∧
      u.walk (stoppedOp 0x40000 0).agent.asid (stoppedOp 0x40000 0).die (va57 (stoppedOp 0x40000 0).addr) = (v, k) ∧
      v.firstTouch (stoppedOp 0x40000 0).leafAgent (stoppedOp 0x40000 0).pgpool (stoppedOp 0x40000 0).addr = (w, r) ∧ resultCode r = n := by
  simp only [foundAt, Prod.mk.injEq] at h
  exact ⟨_, _, _, _, Prod.ext rfl h.1, Prod.ext rfl h.2.1, rfl, h.2.2⟩

/-- The final write of an operation that is to end: whether it performs. -/
def writes (s : State) (o : EngineOp) : Bool :=
  match s.writeOpStatus o with
  | .made _ => true
  | .waits _ _ _ => false
theorem writes_is {s : State} {o : EngineOp} : (writes s o = true → ∃ v, s.writeOpStatus o = .made v) ∧
    (writes s o = false → ∃ v g k, s.writeOpStatus o = .waits v g k) := by
  unfold writes
  cases s.writeOpStatus o with
  | made v => exact ⟨fun _ => ⟨v, rfl⟩, fun h => by cases h⟩
  | waits v g k => exact ⟨fun h => (by cases h), fun _ => ⟨v, g, k, rfl⟩⟩

/-- An operation of a class that is to end, and a state in which it takes its turn; its final write waits while its granule is
reclassified. -/
def lastOf (cls : EngClass) : EngineOp := { opOf cls false false none with ending := some (.complete, 0) }
def endTurns (s : State) (o : EngineOp) : Prop :=
  s.op? o.id = some o ∧ o.st = .running ∧ s.stopping (.op o.id) = false ∧ s.opGoes o = true ∧ s.launch? o.launch = some (loadedLaunch 0) ∧
    s.team? o.id.team = some x0 ∧ o.ending = some (.complete, 0)
theorem last_turns (cls : EngClass) (r : List Reclass) : endTurns { turned (lastOf cls) with reclass := r } (lastOf cls) :=
  ⟨by rfl, rfl, by rfl, by rfl, rfl, rfl, rfl⟩

def faultTurns (s : State) (o : EngineOp) : Prop :=
  s.op? o.id = some o ∧ o.st = .running ∧ o.fault = true ∧ s.stopping (.op o.id) = false ∧ s.opGoes o = true ∧ s.team? o.id.team = some x0

theorem witness_OperationsReadDescriptorsAndEnd :
    (∀ cls, ∃ s o, opTurns s o ∧ o.cls = cls ∧ o.cancel = true) ∧
    (∀ cls, ∃ s o u vs, opTurns s o ∧ o.cls = cls ∧ o.cancel = false ∧ o.fault = false ∧ o.body = none ∧ words o s = (u, .ok vs) ∧
      vs.any (·.poison) = true) ∧
    (∀ cls, ∃ s o u vs, opTurns s o ∧ o.cls = cls ∧ o.cancel = false ∧ o.fault = false ∧ o.body = none ∧ words o s = (u, .ok vs) ∧
      vs.any (·.poison) = false ∧ o.cls.parse (loadedLaunch 0) vs = none) ∧
    (∀ cls, ∃ d s o u vs, opTurns s o ∧ o.cls = cls ∧ o.cancel = false ∧ o.fault = false ∧ o.body = none ∧ words o s = (u, .ok vs) ∧
      vs.any (·.poison) = false ∧ o.cls.parse (loadedLaunch 0) vs = some d) ∧
    (∃ s u e pa o, faultTurns s o ∧ o.kind = 0 ∧ s.translate o.agent o.addr = (u, .ok e pa) ∧ e.permits .read o.sup = true) ∧
    (∃ s u e pa o, faultTurns s o ∧ o.kind = 1 ∧ s.translate o.agent o.addr = (u, .ok e pa) ∧ e.permits .write o.sup = false) ∧
    (∃ s u o, faultTurns s o ∧ s.translate o.agent o.addr = (u, .stall)) ∧
    (∀ q ∈ ([(1, .absent 0 true, 2), (0, .bad, 2), (0, .absent 1 false, 2), (0, .absent 0 true, 0), (0, .absent 0 false, 1),
        (0, .absent 0 false, 2), (0, .absent 0 false, 3)] : List (Nat × Walked × Nat)),
      ∃ s u v w r o, faultTurns s o ∧ canonical o.addr = true ∧ s.translate o.agent o.addr = (u, .page q.1) ∧
        u.walk o.agent.asid o.die (va57 o.addr) = (v, q.2.1) ∧ v.firstTouch o.leafAgent o.pgpool o.addr = (w, r) ∧
        resultCode r = q.2.2) ∧
    (∀ cls, ∃ s o v, endTurns s o ∧ o.cls = cls ∧ s.writeOpStatus { o with cause := 0, kind := 0, tile := none } = .made v) ∧
    (∀ cls, ∃ s o v g k, endTurns s o ∧ o.cls = cls ∧
      s.writeOpStatus { o with cause := 0, kind := 0, tile := none } = .waits v g k) := by
  refine ⟨fun cls => ⟨_, _, turned_turns cls true false none [], rfl, rfl⟩, fun cls => ?_, fun cls => ?_, fun cls => ?_, ?_, ?_, ?_, ?_, ?_, ?_⟩
  · obtain ⟨d, h⟩ : ∃ d, descCase (opOf cls false false none) (poisonedDesc (opOf cls false false none)) = some (true, d) := by
      cases cls <;> exact ⟨_, rfl⟩
    obtain ⟨s, o, u, vs, a⟩ := desc_witness cls _ _ (by cases cls <;> exact ⟨rfl, rfl, rfl, rfl, rfl, rfl, rfl⟩) h
    exact ⟨s, o, u, vs, a.1, a.2.1, a.2.2.1, a.2.2.2.1, a.2.2.2.2.1, a.2.2.2.2.2.1, a.2.2.2.2.2.2.1⟩
  · let ws := if cls = .xgath then List.replicate 16 (2 ^ 32 - 1) else []
    exact desc_witness cls _ (false, none) (turned_turns cls false false none ws) (by cases cls <;> decide +kernel)
  · let ws := if cls = .swbuild then swardWords else if cls = .xgath then [] else copyWords
    obtain ⟨d, h⟩ := some_case (cls := cls) (s := described (opOf cls false false none) ws) (by cases cls <;> decide +kernel)
    exact ⟨d, desc_witness cls _ (false, some d) (turned_turns cls false false none ws) h⟩
  · exact ⟨faulted 0x20000 0 true [], _, opTlb .xcopy, 0x20000, stoppedOp 0x20000 0, ⟨rfl, rfl, rfl, rfl, rfl, rfl⟩, rfl,
      Prod.ext rfl (by decide +kernel), by decide +kernel⟩
  · exact ⟨faulted 0x20000 1 false [], _, { opTlb .xcopy with w := false }, 0x20000, stoppedOp 0x20000 1, ⟨rfl, rfl, rfl, rfl, rfl, rfl⟩, rfl,
      Prod.ext rfl (by decide +kernel), by decide +kernel⟩
  · exact ⟨faultTable 0x4101B 0 [], _, stoppedOp 0x40000 0, ⟨rfl, rfl, rfl, rfl, rfl, rfl⟩, Prod.ext rfl (by decide +kernel)⟩
  · have go : ∀ (s : State) (x : Nat) (k : Walked) (n : Nat), faultTurns s (stoppedOp 0x40000 0) →
        foundAt s = (.page x, k, n) → ∃ s u v w r o, faultTurns s o ∧ canonical o.addr = true ∧
          s.translate o.agent o.addr = (u, .page x) ∧ u.walk o.agent.asid o.die (va57 o.addr) = (v, k) ∧
          v.firstTouch o.leafAgent o.pgpool o.addr = (w, r) ∧ resultCode r = n := by
      intro s x k n ht h
      obtain ⟨u, v, w, r, h1, h2, h3, h4⟩ := foundAt_is h
      exact ⟨s, u, v, w, r, _, ht, by decide +kernel, h1, h2, h3, h4⟩
    intro q hq
    simp only [List.mem_cons, List.not_mem_nil, or_false] at hq
    rcases hq with rfl | rfl | rfl | rfl | rfl | rfl | rfl
    · exact go (faultTable 0x800 0 poolBytes) _ _ _ ⟨rfl, rfl, rfl, rfl, rfl, rfl⟩ (by decide +kernel)
    · exact go { faultTable 0x800 0 [] with asids := [] } _ _ _ ⟨rfl, rfl, rfl, rfl, rfl, rfl⟩ (by decide +kernel)
    · exact go { faultTable 0x800 0 [] with walkCache := [⟨0, 0, 4, 0, 0⟩, ⟨0, 0, 3, 0, 0⟩, ⟨0, 0, 2, 0, 0⟩] } _ _ _
        ⟨rfl, rfl, rfl, rfl, rfl, rfl⟩ (by decide +kernel)
    · exact go (faultTable 0x800 0x2001B poolBytes) _ _ _ ⟨rfl, rfl, rfl, rfl, rfl, rfl⟩ (by decide +kernel)
    · exact go (faultTable 0 0x2001B (poolBytes ++ [(0x20080, natBytes 8 0)])) _ _ _ ⟨rfl, rfl, rfl, rfl, rfl, rfl⟩ (by decide +kernel)
    · exact go (faultTable 0 0x2001B []) _ _ _ ⟨rfl, rfl, rfl, rfl, rfl, rfl⟩ (by decide +kernel)
    · exact go (faultTable 0 0x2101B poolBytes) _ _ _ ⟨rfl, rfl, rfl, rfl, rfl, rfl⟩ (by decide +kernel)
  · intro cls
    obtain ⟨v, hv⟩ := writes_is.1 (show writes { turned (lastOf cls) with reclass := [] } { lastOf cls with cause := 0, kind := 0, tile := none } = true by
      cases cls <;> decide +kernel)
    exact ⟨_, _, v, last_turns cls [], rfl, hv⟩
  · intro cls
    obtain ⟨v, g, k, hv⟩ := writes_is.2 (show writes { turned (lastOf cls) with reclass := [⟨2, .uncl, [0]⟩] }
      { lastOf cls with cause := 0, kind := 0, tile := none } = false by cases cls <;> decide +kernel)
    exact ⟨_, _, v, g, k, last_turns cls _, rfl, hv⟩

/-- An operation with its descriptor read. -/
def working (cls : EngClass) (d : Desc) (tile : Option (SMap PWord)) (waits : Bool) : EngineOp :=
  { opOf cls false false (some d) with src := .global, dst := .global, tile := tile, appendWait := waits }
def atWork (o : EngineOp) (recs : List Rec) : State := { turned o with shards := [aShard recs] }
theorem working_turns (cls : EngClass) (d : Desc) (t : Option (SMap PWord)) (w : Bool) (recs : List Rec) :
    opTurns (atWork (working cls d t w) recs) (working cls d t w) :=
  ⟨rfl, rfl, rfl, rfl, rfl, rfl, rfl⟩
def copyDsc (fill : Bool) : Desc := .copy fill 0x20000 0x20040 1 1 [2] [] [] .g .g
def gathDsc : Desc := .gath 0x20000 0x20000 0x20000 1 0 1 0 0
def swardDsc : Desc := .sward 0x20000 0 1 1 0 0 0 0 [(0, 1)]
def copying (fill : Bool) : EngineOp := working (if fill then .xfill else .xcopy) (copyDsc fill) none false
/-- The spots of the first line-run of the copy or fill of two bytes. -/
def copySpot (fill : Bool) (a : Nat) : Spot :=
  ⟨0, some (BitVec.ofNat 64 a), some (opTlb (copying fill).cls), .mem a, .l1⟩
def copySpots (fill : Bool) : List (Option Spot × Spot) :=
  [(if fill then none else some (copySpot fill 0x20000), copySpot fill 0x20040), (if fill then none else some (copySpot fill 0x20001), copySpot fill 0x20041)]
/-- The places of one line each that a run reads. -/
def copyLines (ps : List (Option Spot × Spot)) : List Spot :=
  (ps.filterMap (·.1)).foldl (fun acc q => if acc.any (fun z => z.loc.tagLoc = q.loc.tagLoc) then acc else acc ++ [q]) []
def bankFull (f : Bool) (s : State) : State :=
  s.mapGroup 0 (fun g => { g with arrays := g.arrays.map (fun a => { a with bb := Vector.replicate 4 ⟨[], f, false⟩ }) })
def gathering (t : Option (SMap PWord)) : EngineOp := working .xgath gathDsc t false
def banked (f : Bool) : ArrayState := { ArrayState.reset 0 with bb := Vector.replicate 4 ⟨[], f, false⟩ }
def tileIn (m : SMap PWord) (waits : Bool) : EngineOp := working .swbuild swardDsc (some m) waits
/-- An operation that takes its turn with work to do, and one with none left. -/
def workTurns (s : State) (o : EngineOp) : Prop := opTurns s o ∧ o.prog < o.total
def spent (cls : EngClass) : EngineOp :=
  { working cls (if cls = .xgath then gathDsc else if cls = .swbuild then swardDsc else copyDsc (cls = .xfill)) none false with prog := 2 }
theorem witness_OperationsDoTheirWork_ended : ∀ cls, ∃ s o, opTurns s o ∧ o.cls = cls ∧ o.cancel = false ∧ o.fault = false ∧
    o.body.isSome = true ∧ o.total ≤ o.prog :=
  fun cls => ⟨turned (spent cls), spent cls, by cases cls <;> exact ⟨rfl, rfl, rfl, rfl, rfl, rfl, rfl⟩, rfl, rfl, rfl, rfl, by cases cls <;> decide +kernel⟩
/-- A marked tile while the bin store is full. -/
theorem full_witness (recs : List Rec) (hr : recs.length = 2 ^ 24) :
    ∃ s o u m b h, workTurns s o ∧ o.cancel = false ∧ o.fault = false ∧ o.cls = .swbuild ∧ o.body = some swardDsc ∧ o.prog = 0 ∧
      s.swardRow o (loadedLaunch 0) 0x20000 (rowWords 1 1 0 0) = (u, .ok m) ∧ markedIn m 1 0 0 = true ∧ o.appendWait = false ∧
      (loadedLaunch 0).bins[0]? = some b ∧ b.closed = false ∧ u.shard? o.launch 0 o.die = some h ∧ 2 ^ 24 ≤ u.storeUsed o.die :=
  ⟨atWork (tileIn [(0, ⟨1, false⟩)] false) recs, tileIn [(0, ⟨1, false⟩)] false, _, [(0, ⟨1, false⟩)], _, aShard recs, ⟨working_turns _ _ _ _ recs, by show (0 : Nat) < 1; decide⟩,
    rfl, rfl, rfl, rfl, rfl, rfl, by decide, rfl, rfl, rfl, rfl, Nat.le_of_eq hr.symm⟩

/-- A copy and a fill of two bytes; a gather before and after its tile is read, its bank EMPTY and FULL; a tile of a Sward build that is
not marked, and one that is, with and without room, before and after a wait. -/
theorem witness_OperationsDoTheirWork :
    (∀ fill, ∃ s o u v w ps p, workTurns s o ∧ o.cancel = false ∧ o.fault = false ∧ o.cls = (if fill then .xfill else .xcopy) ∧
      o.body = some (.copy fill 0x20000 0x20040 1 1 [2] [] [] .g .g) ∧
      (let dest := elementAddr 0x20040 1 [] [2]
       let run := runFrom dest 1 ((dest o.prog).toNat / 128) (o.total - o.prog) o.prog
       State.runSpots o (loadedLaunch 0) 1 (if fill then none else some (elementAddr 0x20000 1 [] [2])) dest (if run = [] then [o.prog] else run) s =
         (u, .ok ps)) ∧
      ps.head? = some p ∧ ps.length = 2 ∧ u.engineReady o false (copyLines ps) = (v, .ok ()) ∧
      v.engineReady o true [p.2] = (w, .ok ())) ∧
    (∃ s o u t, workTurns s o ∧ o.cancel = false ∧ o.fault = false ∧ o.cls = .xgath ∧ o.body = some gathDsc ∧ o.tile = none ∧
      State.gatherRows o (loadedLaunch 0) 0x20000 0x20000 0x20000 (0 + o.prog) 0 32 0 [] s = (u, .ok t)) ∧
    (∀ f, ∃ s o m a, workTurns s o ∧ o.cancel = false ∧ o.fault = false ∧ o.cls = .xgath ∧ o.body = some gathDsc ∧ o.tile = some m ∧
      s.opArray o = some (0, 0) ∧ s.arrayAt (0, 0) = some a ∧ (a.bank true (BitVec.ofNat 2 (0 + o.prog % 1))).full = f) ∧
    (∃ s o u m, workTurns s o ∧ o.cancel = false ∧ o.fault = false ∧ o.cls = .swbuild ∧ o.body = some swardDsc ∧ o.prog = 0 ∧ o.tile = none ∧
      s.swardRow o (loadedLaunch 0) 0x20000 (rowWords 1 1 0 0) = (u, .ok m) ∧ markedIn m 1 0 0 = false ∧ o.appendWait = false) ∧
    (∀ waits, ∃ s o u m b h, workTurns s o ∧ o.cancel = false ∧ o.fault = false ∧ o.cls = .swbuild ∧ o.body = some swardDsc ∧ o.prog = 0 ∧
      s.swardRow o (loadedLaunch 0) 0x20000 (rowWords 1 1 0 0) = (u, .ok m) ∧ markedIn m 1 0 0 = true ∧ o.appendWait = waits ∧
      (loadedLaunch 0).bins[0]? = some b ∧ b.closed = false ∧ u.shard? o.launch 0 o.die = some h ∧ s.storeUsed o.die < 2 ^ 24 ∧
      u.storeUsed o.die < 2 ^ 24) ∧
    (∃ s o u m b h, workTurns s o ∧ o.cancel = false ∧ o.fault = false ∧ o.cls = .swbuild ∧ o.body = some swardDsc ∧ o.prog = 0 ∧
      s.swardRow o (loadedLaunch 0) 0x20000 (rowWords 1 1 0 0) = (u, .ok m) ∧ markedIn m 1 0 0 = true ∧ o.appendWait = false ∧
      (loadedLaunch 0).bins[0]? = some b ∧ b.closed = false ∧ u.shard? o.launch 0 o.die = some h ∧ 2 ^ 24 ≤ u.storeUsed o.die) := by
  refine ⟨fun fill => ?_, ?_, fun f => ?_, ?_, fun waits => ?_, ?_⟩
  · have spots : okOf (State.runSpots (copying fill) (loadedLaunch 0) 1 (if fill then none else some (elementAddr 0x20000 1 [] [2]))
        (elementAddr 0x20040 1 [] [2]) [0, 1] (atWork (copying fill) [])) = some (copySpots fill) := by cases fill <;> decide +kernel
    obtain ⟨u, hu⟩ := ok_of spots
    have ready : okOf (u.engineReady (copying fill) false (copyLines (copySpots fill))) = some () := by
      rw [show u = _ from (congrArg Prod.fst hu).symm]
      cases fill <;> decide +kernel
    obtain ⟨v, hv⟩ := ok_of ready
    have ready2 : okOf (v.engineReady (copying fill) true [copySpot fill 0x20040]) = some () := by
      rw [show v = _ from (congrArg Prod.fst hv).symm, show u = _ from (congrArg Prod.fst hu).symm]
      cases fill <;> decide +kernel
    obtain ⟨w, hw⟩ := ok_of ready2
    refine ⟨atWork (copying fill) [], copying fill, u, v, w, copySpots fill, _, ⟨working_turns _ _ _ _ _, by cases fill <;> decide +kernel⟩, rfl, rfl, rfl, rfl, ?_, rfl, rfl, hv, hw⟩
    rw [← hu]
    cases fill <;> rfl
  · have rows : (okOf (State.gatherRows (gathering none) (loadedLaunch 0) 0x20000 0x20000 0x20000 0 0 32 0 [] (atWork (gathering none) []))).isSome =
        true := by decide +kernel
    obtain ⟨t, ht⟩ := Option.isSome_iff_exists.mp rows
    obtain ⟨u, hu⟩ := ok_of ht
    exact ⟨_, gathering none, u, t, ⟨working_turns _ _ _ _ _, by decide +kernel⟩, rfl, rfl, rfl, rfl, rfl, hu⟩
  · exact ⟨bankFull f (atWork (gathering (some [])) []), gathering (some []), [], banked f, ⟨⟨rfl, rfl, rfl, rfl, rfl, rfl, rfl⟩, by decide +kernel⟩, rfl, rfl, rfl, rfl, rfl, rfl,
      by cases f <;> decide +kernel, by cases f <;> decide +kernel⟩
  · have row : okOf ((atWork (working .swbuild swardDsc none false) []).swardRow (working .swbuild swardDsc none false) (loadedLaunch 0) 0x20000 [0]) =
        some [(0, ⟨0, false⟩)] := by decide +kernel
    obtain ⟨u, hu⟩ := ok_of row
    exact ⟨_, working .swbuild swardDsc none false, u, _, ⟨working_turns _ _ _ _ _, by decide +kernel⟩, rfl, rfl, rfl, rfl, rfl, rfl, hu, by decide, rfl⟩
  · exact ⟨_, tileIn [(0, ⟨1, false⟩)] waits, _, [(0, ⟨1, false⟩)], _, aShard [], ⟨working_turns _ _ _ _ _, by cases waits <;> decide +kernel⟩, rfl, rfl, rfl, rfl, rfl, rfl, by decide, rfl, rfl, rfl,
      rfl, by cases waits <;> decide +kernel, by cases waits <;> decide +kernel⟩
  · exact full_witness (List.replicate (2 ^ 24) ⟨0, 0, 0, 0, none⟩) List.length_replicate

/-- A gather whose column indices stand apart from its row pointers. -/
def gathDsc2 : Desc := .gath 0x20000 0x20100 0x20000 1 0 1 0 0
def gathering2 : EngineOp := working .xgath gathDsc2 none false
def twoRows (q : List (Nat × Bool)) : State :=
  { atWork gathering2 [] with mem := (atWork gathering2 []).mem.writeBytes 0x20004 (natBytes 4 1), poison := q }
def pairFound (q : List (Nat × Bool)) : State × Except EngStop (List PWord) :=
  State.engineWords gathering2 (loadedLaunch 0) 4 [0x20000, 0x20000 + 4] (twoRows q)
def closedBin (l : Launch) : Launch := { l with bins := l.bins.map (fun b => { b with closed := true }) }

/-- A poisoned row pointer, a poisoned column index, a poisoned bitmap word, and a marked tile of a closed bin. -/
theorem witness_OperationsDoTheirWork_stops :
    (∃ s o u a b, workTurns s o ∧ o.cls = .xgath ∧ o.body = some gathDsc2 ∧ o.tile = none ∧ o.prog = 0 ∧
      State.engineWords o (loadedLaunch 0) 4 [0x20000, 0x20000 + 4] s = (u, .ok [a, b]) ∧ a.poison = true) ∧
    (∃ s o u v a b c, workTurns s o ∧ o.cls = .xgath ∧ o.body = some gathDsc2 ∧ o.tile = none ∧ o.prog = 0 ∧
      State.engineWords o (loadedLaunch 0) 4 [0x20000, 0x20000 + 4] s = (u, .ok [a, b]) ∧ a.poison = false ∧ b.poison = false ∧
      a.val.toNat < b.val.toNat ∧ u.engineWord o (loadedLaunch 0) (0x20100 + BitVec.ofNat 64 (4 * a.val.toNat)) 4 = (v, .ok c) ∧ c.poison = true) ∧
    (∃ s o v ws, workTurns s o ∧ o.cls = .swbuild ∧ o.body = some swardDsc ∧ o.tile = none ∧ o.appendWait = false ∧
      State.engineWords o (loadedLaunch 0) 4 ((rowWords 1 1 0 0).map (fun w => 0x20000 + BitVec.ofNat 64 (4 * w))) s = (v, .ok ws) ∧
      (∃ w ∈ ws, w.poison = true) ∧ ws.length = (rowWords 1 1 0 0).length) ∧
    (∃ (s u : State) (o : EngineOp) (m : SMap PWord) (l : Launch) (b : Bin), s.op? o.id = some o ∧ o.cls = .swbuild ∧ o.body = some swardDsc ∧
      s.launch? o.launch = some l ∧ s.swardRow o l 0x20000 (rowWords 1 1 0 0) = (u, .ok m) ∧ markedIn m 1 0 0 = true ∧ l.bins[0]? = some b ∧
      b.closed = true ∧ b.closeTag = none ∧ o.appendWait = false) := by
  refine ⟨?_, ?_, ?_, ?_⟩
  · have e : okOf (pairFound [(0x8000, true)]) = some [⟨0, true⟩, ⟨1, false⟩] := by decide +kernel
    obtain ⟨u, hu⟩ := ok_of e
    exact ⟨_, gathering2, u, _, _, ⟨⟨rfl, rfl, rfl, rfl, rfl, rfl, rfl⟩, by decide +kernel⟩, rfl, rfl, rfl, rfl, hu, rfl⟩
  · have e : okOf (pairFound [(0x8040, true)]) = some [⟨0, false⟩, ⟨1, false⟩] := by decide +kernel
    obtain ⟨u, hu⟩ := ok_of e
    have f : okOf (u.engineWord gathering2 (loadedLaunch 0) 0x20100 4) = some ⟨0, true⟩ := by
      rw [show u = _ from (congrArg Prod.fst hu).symm]
      decide +kernel
    obtain ⟨v, hv⟩ := ok_of f
    exact ⟨_, gathering2, u, v, _, _, _, ⟨⟨rfl, rfl, rfl, rfl, rfl, rfl, rfl⟩, by decide +kernel⟩, rfl, rfl, rfl, rfl, hu, rfl, rfl, by decide, hv, rfl⟩
  · let o := working .swbuild swardDsc none false
    have e : okOf (State.engineWords o (loadedLaunch 0) 4 [0x20000] { atWork o [] with poison := [(0x8000, true)] }) = some [⟨0, true⟩] := by
      decide +kernel
    obtain ⟨v, hv⟩ := ok_of e
    exact ⟨{ atWork o [] with poison := [(0x8000, true)] }, o, v, _, ⟨⟨rfl, rfl, rfl, rfl, rfl, rfl, rfl⟩, by decide +kernel⟩, rfl, rfl, rfl, rfl, hv, ⟨_, List.mem_singleton.mpr rfl, rfl⟩, rfl⟩
  · exact ⟨(atWork (tileIn [(0, ⟨1, false⟩)] false) []).mapLaunch 0 closedBin, _, tileIn [(0, ⟨1, false⟩)] false, [(0, ⟨1, false⟩)], closedBin (loadedLaunch 0),
      _, rfl, rfl, rfl, rfl, rfl, by decide, rfl, rfl, rfl, rfl⟩

/-- The module with a launch whose bin 0 is balanced and was built last by the descriptor at 0x20000, and shards of it on dies 0 and 1. -/
def ballastBin : Bin := ⟨0, 0, true, 0, true, 0, false, none, some 0x20000⟩
def ballastLaunch : Launch := { loadedLaunch 0 with bins := [ballastBin], pgpool := 0x20000 }
def shardOn (die n : Nat) : Shard := { aShard (List.replicate n ⟨0, 0, 0, 0, none⟩) with die := die }
def swardTlb (die : Nat) : TlbEntry := { dataTlb with owner := .sward die }
def aMove (moved : Option Nat) (split : Bool) (homes : List Word) : BallastMove := ⟨0, 0, 0, 1, moved, split, homes⟩
def balancing (ms : List BallastMove) : State :=
  { rig with launches := [ballastLaunch], shards := [shardOn 0 80, shardOn 1 0], moves := ms, tlb := [swardTlb 0, swardTlb 1] }
/-- An address space in which VA 0x30000 is mapped to granule 5 of die 0, and a pool whose first frame is granule 2211840 of die 1. -/
def treeBytes : List (Nat × List Byte) :=
  [(0x400, natBytes 8 0x3001), (0x618, natBytes 8 0x5001B), (0x1000, natBytes 8 0x8001), (0x3000, natBytes 8 0x601), (0x8000, natBytes 8 0x401),
    (0x20000, natBytes 4 1), (0x20040, natBytes 4 2211840)]
def migrating : State :=
  { balancing [aMove (some 40) false [3]] with
    mem := treeBytes.foldl (fun m b => m.writeBytes b.1 b.2) rig.mem
    asids := [⟨0, true, true, 0x1000, 0, 0, 0⟩] }
def oldLeaf : Leaf := ⟨0, 0x30000, 0, 0x618, 0x5001B⟩

theorem smGet_outside {α : Type} (d : α) (a : Nat) : ∀ (m : SMap α), (∀ c ∈ m, c.1 ≠ a) → smGet d m a = d
  | [], _ => rfl
  | c :: cs, h => by
    have e := h c List.mem_cons_self
    simp only [smGet, Ne.symm e, if_false, smGet_outside d a cs (fun x hx => h x (List.mem_cons_of_mem _ hx)), ite_self]
theorem natOfBytes_outside (m : Memory) : ∀ (n a : Nat), (∀ c ∈ m, c.1 < a ∨ a + n ≤ c.1) → natOfBytes (m.readBytes a n) = 0
  | 0, _, _ => rfl
  | n + 1, a, h => by
    show (smGet 0 m a).toNat + 256 * natOfBytes (m.readBytes (a + 1) n) = 0
    rw [smGet_outside 0 a m (fun c hc => by have := h c hc; omega), natOfBytes_outside m n (a + 1) (fun c hc => by have := h c hc; omega)]
    rfl
theorem flatMap_one {α : Type} (f : Nat → List α) (k : Nat) : ∀ n, k < n → (∀ i, i < n → i ≠ k → f i = []) → (List.range n).flatMap f = f k
  | n + 1, hk, h => by
    rw [List.range_succ, List.flatMap_append, List.flatMap_singleton]
    by_cases e : n = k
    · rw [List.flatMap_eq_nil_iff.mpr (fun i hi => h i (by have := List.mem_range.mp hi; omega) (by have := List.mem_range.mp hi; omega)), e]
      rfl
    · rw [flatMap_one f k n (by omega) (fun i hi => h i (by omega)), h n (by omega) e, List.append_nil]
/-- A table whose only listed bytes are those of one entry has the leaves below that entry. -/
theorem leavesFrom_one (s : State) (asid : Byte) (lvl : Nat) (rest : List Nat) (t va k : Nat) (hk : k < 2 ^ levelBits lvl)
    (h : ∀ c ∈ s.mem, c.1 < t ∨ t + 8 * 2 ^ levelBits lvl ≤ c.1 ∨ (t + 8 * k ≤ c.1 ∧ c.1 < t + 8 * k + 8)) :
    s.leavesFrom asid (lvl :: rest) t va =
      (let pa := t + 8 * k
       let e := natOfBytes ((s.tableAt lvl t).readBytes pa 8)
       let va := va + k * 2 ^ levelShift lvl
       if !isDevice pa || !e.testBit 0 || pteMalformed lvl e then []
       else if e.testBit 1 then [⟨asid, va, lvl, pa, e⟩]
       else State.leavesFrom s asid rest (pteNext e) va) := by
  rw [State.leavesFrom]
  refine flatMap_one _ k _ hk (fun i hi hne => ?_)
  have z : natOfBytes ((s.tableAt lvl t).readBytes (t + 8 * i) 8) = 0 := natOfBytes_outside _ _ _ (fun c hc => by
    rcases h c (List.mem_filter.mp hc).1 with a | a | a <;> omega)
  simp only [z, Nat.zero_testBit, Bool.not_false, Bool.or_true, Bool.true_or, if_true]

theorem leavesFrom_pointer (s : State) (asid : Byte) (lvl : Nat) (rest : List Nat) (t va k e : Nat) (hk : k < 2 ^ levelBits lvl)
    (h : ∀ c ∈ s.mem, c.1 < t ∨ t + 8 * 2 ^ levelBits lvl ≤ c.1 ∨ (t + 8 * k ≤ c.1 ∧ c.1 < t + 8 * k + 8)) (he : natOfBytes ((s.tableAt lvl t).readBytes (t + 8 * k) 8) = e)
    (hc : (!isDevice (t + 8 * k) || !e.testBit 0 || pteMalformed lvl e) = false) (hl : e.testBit 1 = false) :
    s.leavesFrom asid (lvl :: rest) t va = s.leavesFrom asid rest (pteNext e) (va + k * 2 ^ levelShift lvl) := by
  rw [leavesFrom_one s asid lvl rest t va k hk h]
  simp only [he, hc, hl, Bool.false_eq_true, if_false]
theorem leavesFrom_leaf (s : State) (asid : Byte) (lvl : Nat) (rest : List Nat) (t va k e : Nat) (hk : k < 2 ^ levelBits lvl)
    (h : ∀ c ∈ s.mem, c.1 < t ∨ t + 8 * 2 ^ levelBits lvl ≤ c.1 ∨ (t + 8 * k ≤ c.1 ∧ c.1 < t + 8 * k + 8)) (he : natOfBytes ((s.tableAt lvl t).readBytes (t + 8 * k) 8) = e)
    (hc : (!isDevice (t + 8 * k) || !e.testBit 0 || pteMalformed lvl e) = false) (hl : e.testBit 1 = true) :
    s.leavesFrom asid (lvl :: rest) t va = [⟨asid, va + k * 2 ^ levelShift lvl, lvl, t + 8 * k, e⟩] := by
  rw [leavesFrom_one s asid lvl rest t va k hk h]
  simp only [he, hc, hl, Bool.false_eq_true, if_false, if_true]

theorem migrating_leaves : migrating.leaves 0 = [oldLeaf] := by
  unfold State.leaves
  rw [show migrating.asidCopy? 0 = some ⟨0, true, true, 0x1000, 0, 0, 0⟩ by decide +kernel]
  simp only [if_true]
  rw [leavesFrom_pointer migrating 0 4 _ 0x1000 0 0 0x8001 (by decide) (by decide +kernel) (by decide +kernel) (by decide +kernel) (by decide +kernel),
    show pteNext 0x8001 = 0x8000 by decide +kernel,
    leavesFrom_pointer migrating 0 3 _ 0x8000 _ 0 0x401 (by decide) (by decide +kernel) (by decide +kernel) (by decide +kernel) (by decide +kernel),
    show pteNext 0x401 = 0x400 by decide +kernel,
    leavesFrom_pointer migrating 0 2 _ 0x400 _ 0 0x3001 (by decide) (by decide +kernel) (by decide +kernel) (by decide +kernel) (by decide +kernel),
    show pteNext 0x3001 = 0x3000 by decide +kernel,
    leavesFrom_pointer migrating 0 1 _ 0x3000 _ 0 0x601 (by decide) (by decide +kernel) (by decide +kernel) (by decide +kernel) (by decide +kernel),
    show pteNext 0x601 = 0x600 by decide +kernel,
    leavesFrom_leaf migrating 0 0 _ 0x600 _ 3 0x5001B (by decide) (by decide +kernel) (by decide +kernel) (by decide +kernel) (by decide +kernel)]
  decide +kernel

theorem migrating_mappings (g : Nat) : migrating.mappings g = [oldLeaf].filter (fun f => Leaf.maps f g) := by
  unfold State.mappings State.allLeaves
  rw [show migrating.asids = [⟨0, true, true, 0x1000, 0, 0, 0⟩] from rfl, List.flatMap_singleton, migrating_leaves]

/-- The measurement of two unbalanced shards; a move at each of its parts. -/
theorem witness_BallastMovesWork :
    (∃ (s : State) (l : Launch) (b : Bin) (d e : Shard), s.clock % (50 * Config.cyclesPerUs) = 0 ∧ s.shards = [d, e] ∧ s.moves = [] ∧
      d.launch = l.id ∧ e.launch = l.id ∧ d.bin = e.bin ∧ s.launch? l.id = some l ∧ l.lstate = .running ∧ l.preempted = false ∧
      l.bins[d.bin]? = some b ∧ b.ballast = true ∧ linked d.die e.die = true ∧ l.unbalanced s.clock d e = true ∧
      s.stopping (.ballast d.die) = false) ∧
    (∃ (s : State) (l : Launch) (b : Bin) (m : BallastMove) (d e : Shard), s.move? m.launch m.bin m.src m.dst = some m ∧ m.moved = none ∧
      s.launch? m.launch = some l ∧ l.lstate = .running ∧ l.preempted = false ∧ s.stopping (.ballast m.src) = false ∧
      l.bins[m.bin]? = some b ∧ m.src ≠ m.dst ∧ s.shard? m.launch m.bin m.src = some d ∧ s.shard? m.launch m.bin m.dst = some e ∧
      d.frozen = none ∧ e.frozen = none ∧ (∀ r ∈ d.recs, r.tag = none) ∧ s.storeUsed m.dst + 256 ≤ 2 ^ 24) ∧
    (∃ (s u : State) (l : Launch) (b : Bin) (m : BallastMove) (n : Nat) (va : DWord) (e : TlbEntry) (pa : Nat),
      s.move? m.launch m.bin m.src m.dst = some m ∧ m.moved = some n ∧ m.split = true ∧ s.launch? m.launch = some l ∧
      l.lstate = .running ∧ l.preempted = false ∧ s.stopping (.ballast m.src) = false ∧ l.bins[m.bin]? = some b ∧ b.lastBuild = some va ∧
      s.translate (ballastAgent l.asid m.src) va = (u, .ok e pa) ∧ e.permits .read true = true ∧ e.permits .write true = true ∧
      u.locPoison (.mem pa) 64 = false ∧ u.topTag (Loc.mem pa).tagLoc = none ∧ u.lineBusy (lineOf pa) = false) ∧
    (∃ (n : Nat) (d e : Nat × Nat), d.1 + d.2 = e.1 ∧ n ≤ d.2) ∧
    (∃ (s : State) (l : Launch) (m : BallastMove) (w : Word) (ws : List Word) (f : Leaf) (new entry : Nat),
      s.move? m.launch m.bin m.src m.dst = some m ∧ m.moved.isSome = true ∧ m.homes = w :: ws ∧ m.split = false ∧
      s.launch? m.launch = some l ∧ s.supply = .on ∧ l.lstate = .running ∧ l.preempted = false ∧ s.stopping (.ballast m.src) = false ∧
      (s.leaves l.asid).find? (fun f => f.va ≤ w.toNat * 65536 && w.toNat * 65536 < f.va + 2 ^ levelShift f.level) = some f ∧
      s.granuleBusy (granuleOf (pteFrame f.e)) = false ∧
      (∀ c ∈ s.collections, Purpose.ballast m.launch m.bin m.src m.dst ∉ c.purposes) ∧
      s.freeGranule l m.dst = some (new, entry) ∧ s.migratable f m.src = true ∧ s.mem.wf = true ∧ smWf .uncl s.classes = true ∧
      granuleOf (pteFrame f.e) ≠ new ∧ new < 2 ^ 36 ∧ ∀ i, i < 8 → f.pte + i < entry ∨ entry + 4 ≤ f.pte + i) := by
  refine ⟨⟨balancing [], ballastLaunch, ballastBin, shardOn 0 80, shardOn 1 0, rfl, rfl, rfl, rfl, rfl, rfl, rfl, rfl, rfl, rfl, rfl, by decide,
      by decide +kernel, rfl⟩,
    ⟨balancing [aMove none false []], ballastLaunch, ballastBin, aMove none false [], shardOn 0 80, shardOn 1 0, rfl, rfl, rfl, rfl, rfl, rfl, rfl,
      by decide, rfl, rfl, rfl, rfl, by decide, by decide +kernel⟩,
    ⟨balancing [aMove (some 40) true []], _, ballastLaunch, ballastBin, aMove (some 40) true [], 40, 0x20000, swardTlb 0, 0x20000, rfl, rfl, rfl, rfl, rfl, rfl,
      rfl, rfl, rfl, Prod.ext rfl (by decide +kernel), by decide +kernel, by decide +kernel, by decide +kernel, by decide +kernel, by decide +kernel⟩,
    ⟨1, (0, 2), (2, 2), rfl, by decide⟩,
    ⟨migrating, ballastLaunch, aMove (some 40) false [3], 3, [], oldLeaf, 2211840, 0x20040, rfl, rfl, rfl, rfl, rfl, rfl, rfl, rfl, rfl, ?_,
      by decide +kernel, ?_, ?_, ?_,
      by decide +kernel, by decide +kernel, by decide +kernel, by decide, by decide⟩⟩
  · rw [show ballastLaunch.asid = 0 from rfl, migrating_leaves]
    decide +kernel
  · intro c hc
    cases hc
  · unfold State.freeGranule
    rw [show migrating.translate (ballastAgent ballastLaunch.asid (aMove (some 40) false [3]).dst) ballastLaunch.pgpool =
      (migrating, .ok (swardTlb 1) 0x20000) by rfl]
    simp only [migrating_mappings]
    decide +kernel
  · unfold State.migratable
    simp only [migrating_mappings]
    decide +kernel

/-! ## Witnesses: coherence, containment and services -/

/-- The module with the directory entry of line 4, what the L1 of node 0 holds of it, and the messages in flight. -/
def coherent (e : DirEntry) (held : Option L1St) (net : List CohMsg) : State :=
  { rig with
    dir := [e]
    l1 := (match held with
      | some st => [⟨0, 4, st, none, none, none⟩]
      | none => [])
    net := net }
def aTxn : Txn := ⟨false, .rdS, 0, [1], false, false, false⟩
def lineEntry (st : DirSt) (owner : Option Nat) (shr : List Nat) (busy : Option Txn) : DirEntry := ⟨4, st, owner, shr, busy, []⟩
/-- A transaction of another L1. -/
def otherTxn : Txn := { aTxn with node := 1, awaiting := [6] }

theorem two_share : ∀ (n : Nat) (f : Nat → Nat), (∀ i, i < n + 1 → f i < n) → ∃ a b, a < n + 1 ∧ b < n + 1 ∧ a ≠ b ∧ f a = f b
  | 0, _, h => absurd (h 0 (by decide)) (Nat.not_lt_zero _)
  | n + 1, f, h => by
    by_cases e : ∃ i, i < n + 1 ∧ f i = f (n + 1)
    · obtain ⟨i, hi, e⟩ := e
      exact ⟨i, n + 1, by omega, by omega, by omega, e⟩
    · have ne : ∀ i, i < n + 1 → f i ≠ f (n + 1) := fun i hi c => e ⟨i, hi, c⟩
      have top := h (n + 1) (by omega)
      obtain ⟨a, b, ha, hb, hne, hab⟩ := two_share n (fun i => if f i = n then f (n + 1) else f i) (fun i hi => by
        have := h i (by omega)
        have := ne i hi
        split <;> omega)
      refine ⟨a, b, by omega, by omega, hne, ?_⟩
      have := ne a ha
      have := ne b hb
      split at hab <;> split at hab <;> omega

/-- Two lines of the first die whose entries are in one set, and the module with the set full of entries of the other. -/
theorem two_in_a_set : ∃ a b : Nat, a < 2 ^ 24 + 1 ∧ b < 2 ^ 24 + 1 ∧ a ≠ b ∧ filterSet a = filterSet b := by
  obtain ⟨a, b, ha, hb, hne, h⟩ := two_share (2 ^ 24) (fun l => Config.filterIndex l % 2 ^ 24) (fun l _ => Nat.mod_lt _ (by decide))
  have die : ∀ l, l < 2 ^ 24 + 1 → dieOfPa (128 * l) = 0 := fun l h => by
    unfold dieOfPa stackOf
    omega
  exact ⟨a, b, ha, hb, hne, by
    unfold filterSet
    rw [die a ha, die b hb]
    exact congrArg _ h⟩
def fullSet (b : Nat) : State := { rig with dir := List.replicate (Config.filterWays + 1) ⟨b, .s, none, [1], none, []⟩ }
theorem fullSet_entry {a b : Nat} (h : a ≠ b) : (fullSet b).dirEntry a = ⟨a, .i, none, [], none, []⟩ := by
  unfold State.dirEntry
  rw [List.find?_eq_none.mpr (fun e he => by
    rw [(List.mem_replicate.mp he).2]
    simpa using h.symm)]
  rfl
theorem fullSet_full {a b : Nat} (h : a ≠ b) (hs : filterSet a = filterSet b) : (fullSet b).filterFull a = true := by
  have f : ∀ p : DirEntry → Bool, p ⟨b, .s, none, [1], none, []⟩ = true → (fullSet b).dir.filter p = (fullSet b).dir := fun p hp =>
    List.filter_eq_self.mpr (fun e he => (List.mem_replicate.mp he).2 ▸ hp)
  unfold State.filterFull
  simp only []
  rw [f _ (by simp [h.symm]), f _ (by simp [hs])]
  simp [fullSet]
theorem fullSet_requests {a b : Nat} (ha : a < 2 ^ 24 + 1) (h : a ≠ b) : (fullSet b).mayRequest 0 a = true := by
  unfold State.mayRequest State.requesting
  rw [fullSet_entry h, show (fullSet b).isL1 0 = rig.isL1 0 from rfl, show rig.isL1 0 = true by decide +kernel, show (fullSet b).filling 0 a = false from rfl,
    show isDevice (128 * a) = true by
      unfold isDevice deviceLimit
      exact decide_eq_true (by omega)]
  rfl

/-- Each request at a home that is busy, free with and without room in its set, owned or shared; each message, at an L1 that can take it. -/
theorem witness_CoherenceMessagesAreTaken :
    (∃ s : State, s.mayRequest 0 4 = true ∧ s.l1St 0 4 = none ∧ (s.dirEntry 4).busy.isSome = true) ∧
    (∀ full, ∃ (s : State) (line : Nat), s.mayRequest 0 line = true ∧ s.l1St 0 line = none ∧ (s.dirEntry line).busy = none ∧
      (s.dirEntry line).waiting = [] ∧ (s.dirEntry line).owner = none ∧ (s.dirEntry line).shr = [] ∧ (s.dirEntry line).st = .i ∧
      s.filterFull line = full) ∧
    (∀ st ∈ ([.e, .m, .o] : List DirSt), ∃ s : State, s.mayRequest 0 4 = true ∧ s.l1St 0 4 = none ∧ (s.dirEntry 4).busy = none ∧
      (s.dirEntry 4).waiting = [] ∧ (s.dirEntry 4).owner = some 1 ∧ (s.dirEntry 4).st = st) ∧
    (∃ s : State, s.mayRequest 0 4 = true ∧ s.l1St 0 4 = some .s ∧ (s.dirEntry 4).busy.isSome = true) ∧
    (∃ s : State, s.mayRequest 0 4 = true ∧ s.l1St 0 4 = some .s ∧ (s.dirEntry 4).busy = none ∧ (s.dirEntry 4).waiting = [] ∧
      (s.dirEntry 4).st = .s ∧ (s.l1sOfAll (s.dirEntry 4).shr).filter (fun n => n ∉ [0]) = []) ∧
    (∃ s : State, s.mayRequest 0 4 = true ∧ s.l1St 0 4 = some .s ∧ (s.dirEntry 4).busy = none ∧ (s.dirEntry 4).waiting = [] ∧
      (s.dirEntry 4).st = .s ∧ (s.l1sOfAll (s.dirEntry 4).shr).filter (fun n => n ∉ [0]) ≠ []) ∧
    (∀ x, ∃ (s : State) (m : CohMsg), s.fwdFor 0 4 = some (m, 1, x) ∧ s.filling 0 4 = false ∧ s.l1St 0 4 = some .m) ∧
    (∃ s : State, CohMsg.inv 0 4 ∈ s.net ∧ s.filling 0 4 = false ∧ s.l1St 0 4 ≠ some .wb) ∧
    (∀ h ∈ ([none, some .s, some .e, some .m, some .o] : List (Option L1St)), ∃ s : State, CohMsg.binv 0 4 ∈ s.net ∧ s.filling 0 4 = false ∧
      s.l1St 0 4 = h) ∧
    (∀ st ∈ ([.m, .o] : List DirSt), ∃ s : State, s.l1St 0 4 = some .m ∧ CohMsg.wbd 0 4 ∉ s.net ∧ (s.dirEntry 4).busy = none ∧
      (s.dirEntry 4).waiting = [] ∧ (s.dirEntry 4).owner = some 0 ∧ (s.dirEntry 4).st = st) ∧
    (∀ dirty, ∃ s : State, s.net = [.ackHome 1 4 dirty true] ∧ (s.dirEntry 4).st = .m ∧ (s.dirEntry 4).owner = some 1 ∧
      (∀ e ∈ s.dir, e.waiting = []) ∧ (s.dirEntry 4).busy = some ⟨false, .rdS, 0, [1], false, false, false⟩) ∧
    (∃ s : State, s.net = [.grant 0 4 .m false true]) ∧
    (∃ s : State, s.net = [.data 0 4, .grant 0 4 .e true false] ∧ (s.dirEntry 4).busy = none) := by
  refine ⟨⟨coherent (lineEntry .s none [] (some otherTxn)) none [], by decide +kernel, rfl, rfl⟩, ?_,
    fun st _ => ⟨coherent (lineEntry st (some 1) [] none) none [], by cases st <;> decide +kernel, rfl, rfl, rfl, rfl, rfl⟩,
    ⟨coherent (lineEntry .s none [0] (some otherTxn)) (some .s) [], by decide +kernel, rfl, rfl⟩,
    ⟨coherent (lineEntry .s none [] none) (some .s) [], by decide +kernel, rfl, rfl, rfl, rfl, rfl⟩,
    ⟨coherent (lineEntry .s none [0] none) (some .s) [], by decide +kernel, rfl, rfl, rfl, rfl, by decide +kernel⟩,
    fun x => ⟨coherent (lineEntry .m (some 0) [] (some aTxn)) (some .m) [.fwd 0 4 1 x], .fwd 0 4 1 x, rfl, rfl, rfl⟩,
    ⟨coherent (lineEntry .s none [0] (some aTxn)) (some .s) [.inv 0 4], by decide +kernel, rfl, by decide +kernel⟩,
    fun h _ => ⟨coherent (lineEntry .m (some 0) [] (some aTxn)) h [.binv 0 4], List.mem_singleton.mpr rfl, by cases h <;> rfl, by
      cases h <;> rfl⟩,
    fun st _ => ⟨coherent (lineEntry st (some 0) [] none) (some .m) [], rfl, by cases st <;> decide +kernel, rfl, rfl, rfl, rfl⟩,
    fun dirty => ⟨coherent (lineEntry .m (some 1) [] (some aTxn)) none [.ackHome 1 4 dirty true], rfl, rfl, rfl, by
      intro e h
      cases List.mem_singleton.mp h
      rfl, rfl⟩,
    ⟨coherent (lineEntry .m (some 0) [] none) none [.grant 0 4 .m false true], rfl⟩,
    ⟨coherent (lineEntry .e (some 0) [] none) none [.data 0 4, .grant 0 4 .e true false], rfl, rfl⟩⟩
  rintro (_ | _)
  · exact ⟨coherent (lineEntry .i none [] none) none [], 4, by decide +kernel, rfl, rfl, rfl, rfl, rfl, rfl, rfl⟩
  · obtain ⟨a, b, ha, -, hne, hs⟩ := two_in_a_set
    refine ⟨fullSet b, a, fullSet_requests ha hne, rfl, ?_, ?_, ?_, ?_, ?_, fullSet_full hne hs⟩ <;> rw [fullSet_entry hne]

/-- An open reclassification of a granule, and one that every core has acknowledged. -/
def reclassing (undrained : List Nat) : State := { rig with reclass := [⟨2, .shared, undrained⟩] }
/-- An address space whose walks reach a level 0 table at 0x30000, where VA 0x40000 is mapped. -/
def mapped : State :=
  { rig with
    mem := rig.mem.writeBytes 0x30020 (natBytes 8 0x5001B)
    asids := [⟨0, true, true, 0, 0, 0, 0⟩]
    walkCache := [⟨0, 0, 4, 0, 0⟩, ⟨0, 0, 3, 0, 0⟩, ⟨0, 0, 2, 0, 0⟩, ⟨0, 0, 1, 0, 0x30000⟩] }

def spoilt : State := { rig with poison := [(0x8000, true)] }

theorem witness_MemoryAgentsAct :
    (∀ w, ∃ (s u : State) (pa len : Nat) (bytes : List Byte), s.supply = .on ∧ 0 < len ∧ isDevice (pa + len - 1) = true ∧
      (∀ l ∈ linesTouched pa len, s.lineBusy l = false ∧ u.topTag (.mem l) = none) ∧
      State.hostClasses w ((linesTouched pa len).map (· / 512)).eraseDups s = (u, true) ∧ bytes.length = len ∧ len ≤ 64 ∧ s.mem.wf = true ∧
      ∃ i, i < len ∧ poisonedAt s.poison (pa + i) 1 = true) ∧
    (∀ w, ∃ s u : State, s.supply = .on ∧ (∀ l ∈ linesTouched 0x20000 8, s.lineBusy l = false ∧ u.topTag (.mem l) = none) ∧
      State.hostClasses w ((linesTouched 0x20000 8).map (· / 512)).eraseDups s = (u, false)) ∧
    (∀ d ∈ ([(.m, .m), (.e, .e)] : List (DirSt × L1St)), ∃ s u : State, s.supply = .on ∧
      (∀ l ∈ linesTouched 0x200 8, s.lineBusy l = false ∧ u.topTag (.mem l) = none) ∧
      State.hostClasses false ((linesTouched 0x200 8).map (· / 512)).eraseDups s = (u, true) ∧ (u.dirEntry 4).owner = some 0 ∧
      (u.dirEntry 4).st = d.1 ∧ u.l1St 0 4 = some d.2 ∧ ∀ x ∈ u.l1, x.st ≠ .wb) ∧
    (∃ (s : State) (h : HostLine) (hs : List HostLine), s.hostLines = h :: hs ∧ h.ready = false) ∧
    (∃ (s : State) (r : Reclass) (rs : List Reclass) (node : Nat), s.reclass = r :: rs ∧ node ∈ r.undrained ∧
      s.overlapped node r.gran (r.target == .ro) = false) ∧
    (∃ (s : State) (r : Reclass) (rs : List Reclass), s.reclass = r :: rs ∧ r.undrained = [] ∧ smWf .uncl s.classes = true) ∧
    (∃ (s u : State) (va : DWord) (lvl pte e : Nat), canonical va = true ∧ (∀ x ∈ s.tlb, x.covers (.cluster 0) 0 (va57 va) = false) ∧
      s.walk 0 0 (va57 va) = (u, .leaf lvl pte e) ∧ e.testBit 12 = false) := by
  refine ⟨fun w => ⟨spoilt, (State.hostClasses w [2] spoilt).1, 0x20000, 8, List.replicate 8 0, rfl, by decide, by decide, by cases w <;> decide +kernel,
      Prod.ext rfl (by cases w <;> decide +kernel), rfl, by decide, by decide +kernel,
      0, by decide, by decide +kernel⟩,
    fun w => ⟨reclassing [0], (State.hostClasses w [2] (reclassing [0])).1, rfl, by cases w <;> decide +kernel, Prod.ext rfl (by cases w <;> decide +kernel)⟩,
    fun d h => ⟨coherent (lineEntry d.1 (some 0) [] none) (some d.2) [], (State.hostClasses false [0] (coherent (lineEntry d.1 (some 0) [] none) (some d.2) [])).1, rfl, ?_⟩,
    ⟨{ rig with hostLines := [⟨2 ^ 44, false, false, false⟩] }, ⟨2 ^ 44, false, false, false⟩, [], rfl, rfl⟩,
    ⟨reclassing [0], ⟨2, .shared, [0]⟩, [], 0, rfl, by decide, by decide +kernel⟩, ⟨reclassing [], ⟨2, .shared, []⟩, [], rfl, rfl, by decide +kernel⟩,
    ⟨mapped, (mapped.walk 0 0 0x40000).1, 0x40000, 0, 0x30020, 0x5001B, by decide, by decide +kernel, Prod.ext rfl (by decide +kernel), by decide +kernel⟩⟩
  simp only [List.mem_cons, List.not_mem_nil, or_false] at h
  rcases h with rfl | rfl <;> exact ⟨by decide +kernel, Prod.ext rfl (by decide +kernel), by decide +kernel, by decide +kernel, by decide +kernel, by decide +kernel⟩

/-- A gang of the launch; a team that a version of it stalls. -/
def aGang (prot ended : Bool) : Gang := ⟨⟨0, 0⟩, 0, prot, false, ended, [], 0, []⟩
def stalledRead : Access :=
  { x0.sc.access .read ⟨⟨0, some 0x20000, some dataTlb, .mem 0x20000, .l1⟩, .read 4⟩ (.sreg 4 false .b32) with wait := some (.version ⟨0, 0⟩ 0) }
def versioned (sc : Scalar) : Scalar := { sc with acc := some stalledRead }
def ganged (prot ended : Bool) : State := { withSc versioned with gangs := [aGang prot ended], clock := 100 * Config.cyclesPerUs + 1 }

/-- A take that waits for the gang of a record. -/
def taking (sc : Scalar) : Scalar := { sc with wait := some (.version ⟨0, 0⟩ 0) }

theorem witness_GangsCommitAndHarden :
    (∃ (s : State) (g : Gang) (st : StreamId) (sc : Scalar) (since : Nat), s.gang? g.id = some g ∧ g.deps = [] ∧ g.ended = true ∧
      s.scalar? st = some sc ∧ stalledRead ∈ sc.accs ∧ stalledRead.wait = some (.version g.id since)) ∧
    (∃ (s : State) (g : Gang) (st : StreamId) (sc : Scalar) (since : Nat) (h : Shard) (r : Rec), s.gang? g.id = some g ∧ g.deps = [] ∧
      g.ended = true ∧ s.scalar? st = some sc ∧ sc.wait = some (.version g.id since) ∧ h ∈ s.shards ∧ r ∈ h.recs ∧ r.tag = some g.id) ∧
    (∃ (s : State) (g : Gang) (w : Staller) (since : Nat) (x : Team), s.gang? g.id = some g ∧ g.deps = [] ∧ g.ended = false ∧
      s.stalledOn w = some (g.id, since) ∧ since + 100 * Config.cyclesPerUs < s.clock ∧ g.prot = true ∧ g.hardened = false ∧
      s.team? x.id = some x ∧ x.gang = g.id) :=
  ⟨⟨ganged true true, aGang true true, st0, versioned x0.sc, 0, rfl, rfl, rfl, by decide +kernel, by decide +kernel, rfl⟩,
   ⟨{ withSc taking with
      gangs := [aGang true true]
      shards := [aShard [⟨0, 0, 0, 0, some ⟨0, 0⟩⟩]] }, aGang true true, st0, taking x0.sc, 0, aShard [⟨0, 0, 0, 0, some ⟨0, 0⟩⟩], ⟨0, 0, 0, 0, some ⟨0, 0⟩⟩,
    rfl, rfl, rfl, by decide +kernel, rfl, List.mem_singleton.mpr rfl, List.mem_singleton.mpr rfl, rfl⟩,
   ⟨ganged true false, aGang true false, .stream st0, 0, onSc versioned x0, rfl, rfl, rfl, by decide +kernel, by decide, rfl, rfl, by decide +kernel, rfl⟩⟩

/-- Errors of a block of zeros: of one data symbol, and a pattern of the last sector of which 15 syndromes are 0, which no 8 symbols make. -/
def flips : List Half := [1, 32767, 21010, 25419, 27195, 12869, 39973, 4801, 61651, 17492, 28732, 3700, 9675, 61458, 58, 34577]
def oneWrong : List SymErr := [⟨255, 5⟩]
def manyWrong : List SymErr := flips.mapIdx (fun i f => ⟨240 + i, f⟩)

def oneRead : BlockRead := State.reset.readBlock 1 oneWrong
def manyRead : BlockRead := State.reset.readBlock 1 manyWrong

theorem empty_bytes : ∀ n a, Memory.readBytes [] a n = List.replicate n 0
  | 0, _ => rfl
  | n + 1, a => congrArg (List.cons 0) (empty_bytes n (a + 1))
theorem empty_line (l : Nat) : State.reset.stackLine l = (List.replicate 128 0, List.replicate 32 false) := Prod.ext (empty_bytes 128 _) rfl
theorem empty_word (errs : List SymErr) :
    (State.reset.readBlock 1 errs).word = (List.replicate 272 0).mapIdx (fun i c => c ^^^ wrongBits errs i) := by
  unfold State.readBlock
  simp only [empty_line]
  rw [show (((List.range 4).map (fun _ : Nat => (List.replicate 128 (0 : Byte), List.replicate 32 false))).flatMap (·.1)) =
      List.replicate (2 * 256) 0 by decide +kernel, symbolsOf_zeros, parityOf_zeros, List.replicate_append_replicate]
theorem one_syndromes : syndromes (5 :: List.replicate 16 (0 : Half)) = (List.range 16).map (fun i => gfMul 5 (gfPow (16 * i))) := by decide +kernel
theorem one_locator : locator ((List.range 16).map (fun i => gfMul 5 (gfPow (16 * i)))) = ⟨[1, 0x100B], 1, [1], 5, 16⟩ := by decide +kernel
theorem one_fixed : (List.replicate 255 0 ++ 5 :: List.replicate 16 (0 : Half)).mapIdx
    (fun i c => c ^^^ errorAt ((List.range 16).map (fun i => gfMul 5 (gfPow (16 * i)))) ⟨[1, 0x100B], 1, [1], 5, 16⟩ (271 - i)) =
    List.replicate 272 0 ++ [] := by decide +kernel
/-- A block with one wrong symbol decodes to what was stored. -/
theorem one_decodes : decodeBlock (State.reset.readBlock 1 oneWrong).word = some (List.replicate 272 0) := by
  rw [empty_word, show (List.replicate 272 0).mapIdx (fun i c => c ^^^ wrongBits oneWrong i) =
    List.replicate 255 0 ++ 5 :: List.replicate 16 (0 : Half) by decide +kernel]
  unfold decodeBlock
  rw [syndromes_zeros]
  simp only []
  rw [one_syndromes, one_locator, one_fixed, syndromes_zeros, show (syndromes []).all (· == 0) = true by decide +kernel, List.append_nil]
  rfl
theorem many_locator : 8 < (locator (syndromes (flips ++ List.replicate 16 (0 : Half)))).len := by decide +kernel
/-- A block with sixteen wrong symbols that no eight explain does not decode. -/
theorem many_fail : decodeBlock (State.reset.readBlock 1 manyWrong).word = none := by
  rw [empty_word, show (List.replicate 272 0).mapIdx (fun i c => c ^^^ wrongBits manyWrong i) =
    List.replicate 240 0 ++ (flips ++ List.replicate 16 (0 : Half)) by decide +kernel]
  unfold decodeBlock
  simp only [syndromes_zeros, Nat.not_le.mpr many_locator, decide_false, Bool.false_and]
  rfl

/-- A gang's launch, its queue and the one page that its address space maps. -/
def killable : State :=
  { migrating with
    launches := [loadedLaunch 0]
    gangs := [aGang true false]
    queues := [aQueue] }

theorem killable_mappings (g : Nat) : killable.mappings g = [oldLeaf].filter (fun f => Leaf.maps f g) := migrating_mappings g

/-- The module after reset holds nothing in block 1; an error that decodes, one that does not, and a check value that is all wrong. -/
theorem witness_ErrorsPoisonOrCount :
    (isDevice (512 * 1) = true ∧ State.reset.mem.wf = true ∧ smWf false State.reset.poison = true ∧ (15 : Nat) < 16 ∧
      (∀ i, i < 4 → (∀ v ∈ State.reset.tags, v.loc ≠ .mem (4 * 1 + i)) ∧ ∀ x ∈ State.reset.l1, x.line ≠ 4 * 1 + i) ∧
      ∀ i, i < 128 → smGet false State.reset.poison (128 * 1 + i) = false) ∧
    (oneRead.check 1 oneRead.data 15 = .mismatch ∧ decodeBlock oneRead.word = some (List.replicate 272 0) ∧
      bytesOf ((List.replicate 272 (0 : Half)).take 256) = State.reset.mem.readBytes (512 * 1) 512 ∧ (∀ e ∈ oneWrong, e.ix < 272) ∧
      sectorOf oneRead.data 15 ≠ State.reset.mem.readBytes (512 * 1 + 32 * 15) 32) ∧
    manyRead.check 1 manyRead.data 15 = .mismatch ∧ decodeBlock manyRead.word = none ∧
    (∃ s : State, s.mem.wf = true ∧ smWf false s.poison = true ∧ (∀ v ∈ s.tags, v.loc ≠ .mem (4 * 1 + 0 / 4)) ∧ s.changedAbove (4 * 1 + 0 / 4) = true) ∧
    (∃ (s : State) (kind : ArrayKind) (u : ArrayUnit) (r : PartId), s.inService kind = true ∧ s.arrayUnit kind = some u ∧ s.errorPart kind true = some r) ∧
    (∃ (s : State) (x : L1Line), smWf false s.poison = true ∧ s.inService (.memWord 512 (.l1 0)) = true ∧ s.l1.find? (·.at' 0 (lineOf 512)) = some x ∧
      x.clean = true) ∧
    (∃ s : State, smWf false s.poison = true ∧ s.inService (.memWord 512 (.l2 0)) = true ∧ s.changedAbove (lineOf 512) = true) ∧
    (∃ (s : State) (line cl gran l q : Nat) (o : OpId) (a : Byte), (∃ g ∈ s.gangs, g.id.asid = a) ∧
      (s.mappings (line / 512)).any (fun m => m.asid = a) = true ∧ (s.mappings gran).any (fun m => m.asid = a) = true ∧ cl = 0 ∧
      (s.launch? l).any (fun x => x.asid = a) = true ∧ (s.queue? q).any (fun x => x.asid = a) = true ∧ a = o.team.asid) ∧
    (∃ (s : State) (w : MemArray), smWf false s.poison = true ∧ s.inService (.memWord 0 w) = true) ∧
    (∃ (s : State) (st : StreamId) (sc : Scalar), s.scalar? st = some sc ∧ 2 ≤ (2 : BitVec 6).toNat) ∧
    (∃ (s : State) (lk : LinkId), .linkLane lk 0 ∉ s.lost) ∧ (∃ (s : State) (i : Fin 2), s.ports.get i = true) :=
  ⟨⟨by decide, rfl, rfl, by decide, fun _ _ => ⟨fun _ h => (by cases h), fun _ h => (by cases h)⟩, fun _ _ => rfl⟩,
    ⟨by decide +kernel, one_decodes, by decide +kernel, by decide, by decide +kernel⟩, by decide +kernel, many_fail,
    ⟨coherent (lineEntry .m (some 0) [] none) (some .m) [], rfl, by decide +kernel, fun _ h => (by cases h), by decide +kernel⟩,
    ⟨rig, .memWord 0 (.l2 0), .slice (sliceAt 0), .l2Way (sliceAt 0) 0, by decide +kernel, rfl, rfl⟩,
    ⟨coherent (lineEntry .s none [0] none) (some .s) [], ⟨0, 4, .s, none, none, none⟩, by decide +kernel, by decide +kernel, rfl, rfl⟩,
    ⟨coherent (lineEntry .m (some 0) [] none) (some .m) [], by decide +kernel, by decide +kernel, by decide +kernel⟩,
    ⟨killable, 512 * 5, 0, 5, 0, 0, ⟨⟨0, 0⟩, 0⟩, 0, ⟨aGang true false, List.mem_singleton.mpr rfl, rfl⟩,
      (congrArg (fun (fs : List Leaf) => fs.any (fun f => f.asid = 0)) (killable_mappings (512 * 5 / 512))).trans (by decide +kernel),
      (congrArg (fun (fs : List Leaf) => fs.any (fun f => f.asid = 0)) (killable_mappings 5)).trans (by decide +kernel), rfl, by decide +kernel,
      by decide +kernel, rfl⟩, ⟨rig, .l2 0, by decide +kernel, by decide +kernel⟩, ⟨rig, st0, x0.sc, by decide +kernel, by decide⟩,
    ⟨rig, .dieToDie 0 true, (by intro h; cases h)⟩, ⟨{ rig with ports := Vector.replicate 2 true }, 0, by decide +kernel⟩⟩

/-- A running launch of one placed team, its context registered with an image area. -/
def clearing : State := { rig with asids := [⟨0, true, true, 0, 0, 0, 0⟩], imageAreas := [(0, 0x40000, 4096)] }

theorem witness_RequestsPreemptTeams_supply :
    (∃ s : State, s.supply ≠ .on) ∧
    ∃ (s : State) (x : Team) (p : Placement), s.team? x.id = some x ∧ x.place = some p ∧ s.collections = [] ∧ s.supply ≠ .on ∧
      s.flushDue = [.core p.core] ∧ s.isActive p.core = true :=
  ⟨⟨{ rig with supply := .lost }, by decide⟩,
   ⟨{ clearing with
      supply := .lost
      flushDue := [.core 0] }, x0, ⟨0, 0⟩, by decide +kernel, rfl, rfl, by decide, rfl, by decide +kernel⟩⟩

theorem witness_RequestsPreemptTeams : ∃ (s : State) (x : Team) (l : Launch) (p : Placement), s.team? x.id = some x ∧ x.place = some p ∧
    s.launch? x.launch = some l ∧ l.lstate = .running ∧ l.asid = x.id.asid ∧ s.collections = [] ∧ s.supply = .on ∧
    (∃ part, s.triggered part = true ∧ p.core ∈ partCleared part) ∧ s.isActive p.core = true ∧ s.mbBusy = false ∧
    (∃ cl, p.core ∈ (clusterSites (cl % 9)).map (· + 36 * (cl / 9)) ∧ ∀ r ∈ s.leafStops, r.1 ≠ cl) ∧ (s.asidCopy? l.asid).isSome = true ∧
    ∃ a n, (l.asid, a, n) ∈ s.imageAreas ∧ (s.asidEntry l.asid).valid = true :=
  ⟨clearing, x0, loadedLaunch 0, ⟨0, 0⟩, by decide +kernel, rfl, by decide +kernel, rfl, rfl, rfl, rfl, ⟨.core 0, rfl, by decide⟩, by decide +kernel, rfl,
    ⟨0, by decide, by decide +kernel⟩, rfl, 0x40000, 4096, by decide, rfl⟩

/-- An image of no launch with one empty section; its digest computed outside this package. -/
def imgHead : List Byte :=
  natBytes 4 0x4C444E47 ++ natBytes 4 1 ++ natBytes 4 0x3FF ++ List.replicate 16 0 ++ natBytes 4 1 ++ List.replicate 24 0 ++ natBytes 8 0x90
def imgDigest : List Byte := natBytes 32 0x557db710a6a7f169081f6e93af173ea3413f947cd7d6e2a227ae6121b6124aee
def imgTail : List Byte := List.replicate 32 0 ++ natBytes 4 1 ++ natBytes 4 0 ++ natBytes 8 0x90
def imaged : State :=
  { rig with
    mem := rig.mem.writeBytes 0x30000 (imgHead ++ imgDigest ++ imgTail)
    asids := [⟨0, true, true, 0, 0, 0, 0⟩]
    queues := [aQueue] }
theorem imaged_code : imaged.restoreCode (imaged.imageAt 0x30000) 0 = 0 := by decide +kernel

/-- A module that has lost its supply; one whose context 0 is valid, with and without a dirty bitmap and a Drogue budget. -/
def lost (low : Bool) : State := { rig with supply := .lost, energyLow := low }
def drogueOf (valid : Bool) (budget : Nat) : State :=
  { rig with
    fwacc := #v[0xFFF, 0, 0, 0]
    asids := [⟨0, valid, true, 0, 0x50000, 0, 4096⟩]
    drogue := [⟨1, budget, 0, false, false, []⟩] }
/-- A record of context 0. -/
def record (done : Bool) : FlashRecord := ⟨0, 12, [], [], done, false⟩
def readings (w : Word) : List Word := List.replicate 28 w

theorem witness_ModuleServicesAct :
    (∃ s : State, (∀ c ∈ s.collections, Purpose.drogue ∉ c.purposes) ∧ s.supply = .lost ∧ s.energyLow = false ∧ s.supply ≠ .on ∧ s.flushDue = [] ∧
      (∀ f ∈ s.flash, f.committed = true ∨ f.superseded = true) ∧ ∀ f ∈ s.flash, f.superseded = false) ∧
    (∀ last, ∃ (s : State) (xs ys : List FlashRecord) (f : FlashRecord), (∀ c ∈ s.collections, Purpose.drogue ∉ c.purposes) ∧ s.supply = .lost ∧
      s.energyLow = false ∧ s.flushDue = [] ∧ s.flash = xs ++ f :: ys ∧ (∀ g ∈ xs, g.committed = true ∨ g.superseded = true) ∧ f.committed = false ∧
      f.superseded = false ∧ ((∀ g ∈ ys, g.committed = true ∨ g.superseded = true) ↔ last = true)) ∧
    (∃ s : State, (∀ c ∈ s.collections, Purpose.drogue ∉ c.purposes) ∧ s.energyLow = true ∧ s.supply ≠ .on ∧ s.flushDue = []) ∧
    (∃ s : State, s.mbBusy = true) ∧ (∃ s : State, s.mbBusy = false ∧ s.supply ≠ .on) ∧
    (∃ (s : State) (bs : List Byte), s.mbBusy = false ∧ bs.length = 32 ∧ s.mem.wf = true ∧
      ∃ near far bad : DWord, near.toNat + 4096 ≤ deviceLimit ∧ (2 ^ 51 ≤ far.toNat ∧ far.toNat + 4096 ≤ 2 ^ 52) ∧ deviceLimit < bad.toNat ∧
        bad.toNat < 2 ^ 51) ∧
    (∃ s : State, s.mbBusy = false ∧ s.supply = .on ∧ ∀ a ∈ s.imageAreas, a.1 ≠ 0) ∧
    (∃ s : State, s.mbBusy = false ∧ s.supply = .on ∧ s.feature 7 = false) ∧
    (∃ s : State, s.mbBusy = false ∧ s.supply = .on ∧ s.feature 7 = true ∧ (s.asidEntry 0).valid = false) ∧
    (∃ s : State, s.mbBusy = false ∧ s.supply = .on ∧ s.feature 7 = true ∧ (s.asidEntry 0).valid = true ∧ (s.asidEntry 0).dbbase ≠ 0 ∧
      12 < 12 + ((s.drogue.filter (fun c => c.asid ≠ 0)).map (·.budget)).sum) ∧
    (∃ s : State, s.mbBusy = false ∧ s.supply = .on ∧ s.feature 7 = true ∧ (s.asidEntry 0).valid = true ∧ (s.asidEntry 0).dbbase ≠ 0 ∧
      12 + ((s.drogue.filter (fun c => c.asid ≠ 0)).map (·.budget)).sum ≤ 12) ∧
    (∃ (s : State) (addr : DWord) (n : Nat), s.mbBusy = false ∧ s.supply = .on ∧ addr.toNat % 128 = 0 ∧ addr.toNat + n ≤ deviceLimit) ∧
    (∃ (s : State) (c : DrogueCtx) (cs : List DrogueCtx), s.mbBusy = false ∧ s.supply = .on ∧ s.drogue = c :: cs ∧ c.asid = 1) ∧
    (∃ s : State, s.mbBusy = false ∧ s.supply = .on ∧ s.restoreCode (s.imageAt 0x40000) 0 ≠ 0) ∧
    (∃ (s : State) (q : Queue), s.mbBusy = false ∧ s.supply = .on ∧ s.queue? 0 = some q ∧ s.restoreCode (s.imageAt 0x30000) 0 = 0) ∧
    (∃ s : State, s.clock < s.sensorsDue) ∧ (∃ s : State, s.sensorsDue ≤ s.clock) ∧ (readings 1051).length = 28 ∧
    (∃ i, i < 7 ∧ ∃ w, (readings 1051)[1 + i]? = some w ∧ 1050 < w.toNat) :=
  ⟨⟨lost false, by decide +kernel, rfl, rfl, by decide, rfl, by decide +kernel, by decide +kernel⟩,
   fun last => ⟨{ lost false with flash := [record true, record false, record last] }, [record true], [record last], record false, (fun _ h => by cases h), rfl, rfl, rfl,
     rfl, by decide, rfl, rfl, by cases last <;> decide⟩, ⟨lost true, by decide +kernel, rfl, by decide, rfl⟩, ⟨{ rig with mbBusy := true }, rfl⟩, ⟨lost false, rfl, by decide⟩,
   ⟨rig, List.replicate 32 0, rfl, rfl, by decide +kernel, 0, 2 ^ 51, 2 ^ 50, by decide, by decide, by decide, by decide⟩, ⟨rig, rfl, rfl, by decide +kernel⟩,
   ⟨{ rig with fwacc := Vector.replicate 4 0 }, rfl, rfl, by decide +kernel⟩,
   ⟨drogueOf false 0, rfl, rfl, by decide +kernel, by decide +kernel⟩, ⟨drogueOf true 1, rfl, rfl, by decide +kernel, by decide +kernel, by decide, by decide +kernel⟩,
   ⟨drogueOf true 0, rfl, rfl, by decide +kernel, by decide +kernel, by decide, by decide +kernel⟩, ⟨rig, 0x40000, 4096, rfl, rfl, by decide, by decide⟩,
   ⟨drogueOf true 0, ⟨1, 0, 0, false, false, []⟩, [], rfl, rfl, rfl, rfl⟩, ⟨imaged, rfl, rfl, by decide +kernel⟩,
   ⟨imaged, aQueue, rfl, rfl, by decide +kernel, imaged_code⟩, ⟨rig, by decide +kernel⟩, ⟨{ rig with clock := 1700000 }, by decide +kernel⟩, rfl, ⟨0, by decide, 1051, rfl, by decide⟩⟩

/-! ## Witnesses: frames, decoding, steps and invariants -/

def isNext (r : Host.Outcome State Fault Refusal) : Bool :=
  match r with
  | .next _ => true
  | .fault _ => false
  | .refused _ => false
theorem next_of {r : Host.Outcome State Fault Refusal} (h : isNext r = true) : ∃ t, r = .next t := by
  cases r with
  | next t => exact ⟨t, rfl⟩
  | fault _ => cases h
  | refused _ => cases h

theorem module_quiet : rig.quiet st0 := quiet_of rig_team (by decide +kernel) rfl ⟨rfl, rfl⟩ (by decide +kernel)

/-- Every kind of scalar instruction, and every mask instruction, on the small module. -/
theorem witness_ScalarInstructionsChangeOnlyDestinations :
    Issuing rig st0 x0.sc ∧ TeamIssues rig x0 ∧ rig.quiet st0 ∧ rig.tablesWf = true ∧
    (∀ i ∈ ([.add 4 5 6, .mulhn 4 5 6, .andn 4 5 6, .min 4 5 6, .maxn 4 5 6, .shl 4 5 6, .clz 4 5, .addi 4 5 1, .shli 4 5 1, .lih 4 1, .ceq 4 5 6, .ceqi 4 5 1, .aaddi 4 6 1, .aadd 4 6 8, .aaddx 4 6 8 1,
      .callr 4 6, .kpop 0 4, .kfirst 0 4, .ksum 0 4, .nop, .b 1, .beqz 4 1, .bkz 0 1, .jr 4, .call 4 1, .kmov 1 0, .knot 1 0, .kand 1 0 0, .kor 1 0 0,
      .kxor 1 0 0, .kandn 1 0 0, .kall 1, .kclr 1, .ksetn 1 4, .kmovv 1 0 4, .exit 1] : List Instr), ∃ t, exec i rig = .next t) ∧
    (∀ j, x0.k j &&& x0.kv = 0) ∧ (x0.sc.reg 4).poison = false ∧ (0 : BitVec 5).toNat < x0.nw := by
  have h : ([.add 4 5 6, .mulhn 4 5 6, .andn 4 5 6, .min 4 5 6, .maxn 4 5 6, .shl 4 5 6, .clz 4 5, .addi 4 5 1, .shli 4 5 1, .lih 4 1, .ceq 4 5 6, .ceqi 4 5 1, .aaddi 4 6 1, .aadd 4 6 8, .aaddx 4 6 8 1,
      .callr 4 6, .kpop 0 4, .kfirst 0 4, .ksum 0 4, .nop, .b 1, .beqz 4 1, .bkz 0 1, .jr 4, .call 4 1, .kmov 1 0, .knot 1 0, .kand 1 0 0, .kor 1 0 0,
      .kxor 1 0 0, .kandn 1 0 0, .kall 1, .kclr 1, .ksetn 1 4, .kmovv 1 0 4, .exit 1] : List Instr).all (fun i => isNext (exec i rig)) = true := by
    decide +kernel
  exact ⟨(sc_issues id).issuing, sc_issues id, module_quiet, by decide +kernel, fun i hi => next_of (List.all_eq_true.mp h i hi), by decide +kernel,
    by decide +kernel, by decide⟩

/-- The stream of a lane instruction stays quiet after its operands are read. -/
def staysQuiet (r : LaneCtx × LaneCtx × State) : Bool :=
  (r.2.2.team? r.1.id).any (fun x => x.place == some ⟨0, 0⟩ && !x.sc.stepping && x.pendTrap == none) && smWf CoreState.reset r.2.2.cores && (r.2.2.core 0).dbg == Debug.reset
theorem quiet_of_stays {c w : LaneCtx} {u : State} (h : staysQuiet (c, w, u) = true) : u.quiet (.team c.id) := by
  simp only [staysQuiet, Bool.and_eq_true, Option.any_eq_true, beq_iff_eq, Bool.not_eq_true'] at h
  obtain ⟨⟨⟨x, hx, ⟨hp, hs⟩, ht⟩, hw⟩, hd⟩ := h
  exact quiet_of hx hw hp ⟨hs, ht⟩ hd
theorem witness_LaneInstructionsChangeOnlyGovernedLanes :
    rig.tablesWf = true ∧ ∀ mk ∈ ([.iadd .i32, .isub .i64, .sel .w32, .icmp .lt .i32, .mov .w64, .lidx, .shflXor .w32, .bcast .w32] :
      List (LaneArgs → Instr)), ∃ t c w u, u.quiet (.team c.id) ∧ LaneReads (legal mk) rig c w u ∧ exec (legal mk) rig = .next t := by
  have h : ([.iadd .i32, .isub .i64, .sel .w32, .icmp .lt .i32, .mov .w64, .lidx, .shflXor .w32, .bcast .w32] : List (LaneArgs → Instr)).all
      (fun mk => isNext (exec (legal mk) rig)) = true := by decide +kernel
  refine ⟨by decide +kernel, fun mk hm => ?_⟩
  obtain ⟨c, w, u, hr, hq⟩ := all_read (s := rig) (f := staysQuiet) (l := [.iadd .i32, .isub .i64, .sel .w32, .icmp .lt .i32, .mov .w64, .lidx, .shflXor .w32,
    .bcast .w32]) (by decide +kernel) mk hm
  obtain ⟨t, ht⟩ := next_of (List.all_eq_true.mp h mk hm)
  exact ⟨t, c, w, u, quiet_of_stays hq, hr, ht⟩

/-- A store to device memory through a page with a dirty bitmap, under an entry of the TLB or the one that its checks found, and one to each
scratchpad. -/
def bitmapped : State := { rig with asids := [⟨0, true, true, 0, 0x30000, 0, 64⟩] }
theorem witness_StoresChangeOnlyTheirBytes :
    (∀ tr ∈ [none, some dataTlb], ∃ (s : State) (ag : Agent) (p : Spot) (pa : Nat) (va : DWord) (e : TlbEntry) (c : AsidCopy), s.memoriesWf = true ∧
      s.tablesWf = true ∧ p.loc = .mem pa ∧ s.hostErr p.loc = false ∧ p.va = some va ∧ p.tr = tr ∧ e ∈ s.tlb ∧
      e.covers ag.owner ag.asid (va57 va) = true ∧ c ∈ s.asids ∧ c.asid = ag.asid) ∧
    (∀ loc ∈ ([.scratch 0 8, .dscratch 0 0 8] : List Loc), ∃ (s : State) (p : Spot), s.memoriesWf = true ∧ s.tablesWf = true ∧ p.loc = loc) :=
  ⟨fun tr h => ⟨bitmapped, x0.agent (loadedLaunch 0) 0, ⟨0, some 0x20000, tr, .mem 0x20000, .l1⟩, 0x20000, 0x20000, dataTlb,
      ⟨0, true, true, 0, 0x30000, 0, 64⟩, by decide +kernel, by decide +kernel, rfl, rfl, rfl, rfl, by decide +kernel, by decide +kernel,
      by decide, by decide +kernel⟩,
   fun loc _ => ⟨rig, ⟨0, none, none, loc, .l1⟩, by decide +kernel, by decide +kernel, rfl⟩⟩

/-- A scalar instruction of each kind of operand, and a lane instruction with a literal. -/
def litArgs : LaneArgs := ⟨.reg, 8, 0, .vreg 4, .lit 0, .vreg 0, 0, false, [0x12345678]⟩
theorem witness_EncodedInstructionsDecode :
    (∀ i ∈ ([.add 4 5 6, .addi 63 62 0x3FFF, .beqz 5 0xFFFF, .nop, .lrun 0xFF 0x3FFFF] : List Instr), i.wf = true ∧ ∃ w, encodeScalar i = some w) ∧
    (∀ a ∈ [litArgs, ⟨.reg, 8, 0, .vreg 4, .vreg 5, .vreg 0, 0, false, []⟩], (Instr.iadd .i32 a).wf = true ∧
      encodeScalar (.iadd .i32 a) = none ∧ encode (.iadd .i32 a) ≠ []) := by
  have h : ∀ i ∈ ([.add 4 5 6, .addi 63 62 0x3FFF, .beqz 5 0xFFFF, .nop, .lrun 0xFF 0x3FFFF] : List Instr), i.wf = true ∧ (encodeScalar i).isSome = true := by
    decide +kernel
  exact ⟨fun i hi => ⟨(h i hi).1, Option.isSome_iff_exists.mp (h i hi).2⟩, by decide +kernel⟩

/-- The module with the code bytes of a word, or of three, at the team's PC. -/
def coded' (nbits w : Nat) : State := { State.reset.withFetchWord nbits w with fwacc := #v[0x3FF, 0, 0, 0], tlb := [loadedTlb, dataTlb] }
def anAgent : Agent := x0.agent (loadedLaunch 0) 0
def ctrlAgent : Agent := g0.agent (loadedLaunch 0)
def isOk {α : Type} (p : α → Bool) (f : Fetched α) : Bool :=
  match f with
  | .ok _ a => p a
  | .trap _ _ => false
  | .retry _ => false
def isTrap {α : Type} (f : Fetched α) : Bool :=
  match f with
  | .ok _ _ => false
  | .trap _ _ => true
  | .retry _ => false
def isRetry {α : Type} (f : Fetched α) : Bool :=
  match f with
  | .ok _ _ => false
  | .trap _ _ => false
  | .retry _ => true
theorem fetch_ok_of {α : Type} {p : α → Bool} {f : Fetched α} (h : isOk p f = true) : ∃ v a, f = .ok v a ∧ p a = true := by
  cases f with
  | ok v a => exact ⟨v, a, rfl, h⟩
  | trap _ _ => cases h
  | retry _ => cases h
theorem fetch_trap_of {α : Type} {f : Fetched α} (h : isTrap f = true) : ∃ v t, f = .trap v t := by
  cases f with
  | ok _ _ => cases h
  | trap v t => exact ⟨v, t, rfl⟩
  | retry _ => cases h
theorem fetch_retry_of {α : Type} {f : Fetched α} (h : isRetry f = true) : ∃ v, f = .retry v := by
  cases f with
  | ok _ _ => cases h
  | trap _ _ => cases h
  | retry v => exact ⟨v, rfl⟩
def decodes (w : Word) : Option Instr :=
  match decodeScalar w with
  | .ok i => some i
  | .error _ => none
theorem decodes_ok {w : Word} {i : Instr} (h : decodes w = some i) : decodeScalar w = .ok i := by
  unfold decodes at h
  split at h
  · rename_i j e
    rw [e, Option.some.inj h]
  · cases h
theorem decodes_error {w : Word} (h : decodes w = none) : ∃ e, decodeScalar w = .error e := by
  unfold decodes at h
  split at h
  · cases h
  · rename_i e he
    exact ⟨e, he⟩
def laneDecodes (ws : List Word) : Bool :=
  match decodeLane ws with
  | .ok _ => true
  | .error _ => false
theorem laneDecodes_iff {ws : List Word} {b : Bool} (h : laneDecodes ws = b) :
    (b = true → ∃ i r, decodeLane ws = .ok (i, r)) ∧ (b = false → ∃ e, decodeLane ws = .error e) := by
  subst h
  unfold laneDecodes
  split
  · exact ⟨fun _ => ⟨_, _, ‹_›⟩, fun h => by cases h⟩
  · exact ⟨fun h => (by cases h), fun _ => ⟨_, ‹_›⟩⟩

def ported (p : Port) (s : State) : State := { s with agenda := [.issue p none] }
def taken (s : State) : State := { s with agenda := [], limit := none }
def live (s : State) (st : StreamId) : State := { s with cur := some st }
def eventful (x : Team) : Team := { x with eventVersion := some 0, sc := { x.sc with tstat := 0 } }

/-! A control core: its word decodes, does not decode, cannot be fetched, or lies in a page that moves; and one that waits. -/

def ctrled (w : Word) : State := { State.reset.withFetchWord 32 0xC0000000 with
  fwacc := #v[0x3FF, 0, 0, 0]
  mem := (crig.mem.writeBytes 0x10000 (bytesOfNat 4 w.toNat)) }
def ctrlTrapped : State := { ctrled 0 with tlb := [] }
def ctrlMoving : State :=
  { ctrled 0 with
    tlb := []
    mem := crig.mem.writeBytes 0x30008 (natBytes 8 0x1101B)
    asids := [⟨0, true, true, 0, 0, 0, 0⟩]
    walkCache := [⟨0, 0, 4, 0, 0⟩, ⟨0, 0, 3, 0, 0⟩, ⟨0, 0, 2, 0, 0⟩, ⟨0, 0, 1, 0, 0x30000⟩] }
def ctrlIn (s : State) : State := taken (ported (.ctrl 0) s)
/-- The premises of a control core's opportunity, its fetch aside. -/
def CtrlGoes (s : State) : Prop :=
  (ctrlIn s).group? 0 = some g0 ∧ (ctrlIn s).agentOf (.ctrl 0) = some ctrlAgent ∧ (ctrlIn s).ctrlReady g0 = true
theorem witness_StepsRunDecodedInstructions_ctrl :
    (∀ w ∈ ([0x4C000000, 0] : List Word), CtrlGoes (ctrled w) ∧ ∃ v, (live (ctrlIn (ctrled w)) (.ctrl 0)).fetchScalar (.ctrl 0) ctrlAgent g0.sc.pc = .ok v w) ∧
    decodeScalar 0x4C000000 = .ok .nop ∧ (∃ e, decodeScalar 0 = .error e) ∧
    (CtrlGoes ctrlTrapped ∧ ∃ v t, (live (ctrlIn ctrlTrapped) (.ctrl 0)).fetchScalar (.ctrl 0) ctrlAgent g0.sc.pc = .trap v t) ∧
    (CtrlGoes ctrlMoving ∧ ∃ v, (live (ctrlIn ctrlMoving) (.ctrl 0)).fetchScalar (.ctrl 0) ctrlAgent g0.sc.pc = .retry v) ∧
    (∃ (s : State) (g : Group) (ag : Agent), s.group? 0 = some g ∧ s.agentOf (.ctrl 0) = some ag ∧ s.ctrlReady g = false) := by
  refine ⟨fun w hw => ?_, decodes_ok (by decide +kernel), decodes_error (by decide +kernel), ⟨⟨by decide +kernel, by decide +kernel, by decide +kernel⟩,
    fetch_trap_of (by decide +kernel)⟩, ⟨⟨by decide +kernel, by decide +kernel, by decide +kernel⟩, fetch_retry_of (by decide +kernel)⟩,
    ctrlIn (withGroup (onGroup (fun c => { c with wait := some .matrixQueue }))), onGroup (fun c => { c with wait := some .matrixQueue }) g0, ctrlAgent,
    by decide +kernel, by decide +kernel, by decide +kernel⟩
  simp only [List.mem_cons, List.not_mem_nil, or_false] at hw
  rcases hw with rfl | rfl
  · obtain ⟨v, a, h, e⟩ := fetch_ok_of (f := (live (ctrlIn (ctrled 0x4C000000)) (.ctrl 0)).fetchScalar (.ctrl 0) ctrlAgent g0.sc.pc) (p := fun a => a == 0x4C000000)
      (by decide +kernel)
    cases eq_of_beq e
    exact ⟨⟨by decide +kernel, by decide +kernel, by decide +kernel⟩, v, h⟩
  · obtain ⟨v, a, h, e⟩ := fetch_ok_of (f := (live (ctrlIn (ctrled 0)) (.ctrl 0)).fetchScalar (.ctrl 0) ctrlAgent g0.sc.pc) (p := fun a => a == 0) (by decide +kernel)
    cases eq_of_beq e
    exact ⟨⟨by decide +kernel, by decide +kernel, by decide +kernel⟩, v, h⟩

/-! A scalar pipe that chooses the team: the same, and a pending event; and one that has no team. -/

def pipePick (s : State) (core : Nat) : Option TeamId × State := (taken s).choosePipe core (((taken s).pipeCan core).map (·.id))
def pipeLive (s : State) : State := live (pipePick s 0).2 st0
/-- The premises of a pipe's opportunity that chooses a team, its fetch aside. -/
def PipeGoes (s : State) (x : Team) (event : Bool) : Prop :=
  ∃ v, pipePick s 0 = (some x.id, v) ∧ v.team? x.id = some x ∧ (live v (.team x.id)).agentOf (.team x.id) = some anAgent ∧
    (live v (.team x.id)).entryOf x = some loadedEntry ∧ x.takesEvent = event
theorem pipeGoes {s : State} {x : Team} {event : Bool} (h : ((pipePick s 0).1 == some x.id && (pipePick s 0).2.team? x.id == some x &&
    (live (pipePick s 0).2 (.team x.id)).agentOf (.team x.id) == some anAgent && (live (pipePick s 0).2 (.team x.id)).entryOf x == some loadedEntry &&
    x.takesEvent == event) = true) : PipeGoes s x event := by
  simp only [Bool.and_eq_true, beq_iff_eq] at h
  obtain ⟨⟨⟨⟨a, b⟩, c⟩, d⟩, e⟩ := h
  exact ⟨_, Prod.ext a rfl, b, c, d, e⟩
theorem witness_StepsRunDecodedInstructions_pipe :
    (∀ w ∈ ([0x4C000000, 0] : List Word), PipeGoes (coded' 32 w.toNat) x0 false ∧
      ∃ v, (pipeLive (coded' 32 w.toNat)).fetchScalar st0 anAgent x0.sc.pc = .ok v w) ∧
    (PipeGoes { coded' 32 0 with tlb := [] } x0 false ∧ ∃ v t, (pipeLive { coded' 32 0 with tlb := [] }).fetchScalar st0 anAgent x0.sc.pc = .trap v t) ∧
    PipeGoes (withTeam eventful) (eventful x0) true ∧ (∃ s v, pipePick s 1 = (none, v)) := by
  refine ⟨fun w hw => ?_, ⟨pipeGoes (by decide +kernel), fetch_trap_of (by decide +kernel)⟩, pipeGoes (by decide +kernel),
    rig, (pipePick rig 1).2, Prod.ext (by decide +kernel) rfl⟩
  simp only [List.mem_cons, List.not_mem_nil, or_false] at hw
  rcases hw with rfl | rfl
  · obtain ⟨v, a, h, e⟩ := fetch_ok_of (f := (pipeLive (coded' 32 0x4C000000)).fetchScalar st0 anAgent x0.sc.pc) (p := fun a => a == 0x4C000000) (by decide +kernel)
    cases eq_of_beq e
    exact ⟨pipeGoes (by decide +kernel), v, h⟩
  · obtain ⟨v, a, h, e⟩ := fetch_ok_of (f := (pipeLive (coded' 32 0)).fetchScalar st0 anAgent x0.sc.pc) (p := fun a => a == 0) (by decide +kernel)
    cases eq_of_beq e
    exact ⟨pipeGoes (by decide +kernel), v, h⟩

/-! A quadrant: a chain that goes on or waits, an instruction that every quadrant has chosen, and a choice of none, of the last quadrant and
of one of two; lane words that decode, that do not and that cannot be fetched, and a pending event. -/

def lanedWord : Nat := natOfBytes (bytesOfWords (encode (legal (.iadd .i32))))
def laned (f : Team → Team) : State := (coded' 96 lanedWord).mapTeam loadedId f
def laneTeam : Team := loadedTeam 0 1
def chained (x : Team) : Team := { x with chainPos := 1 }
def waiting (x : Team) : Team := { x with sc := { x.sc with wait := some .chainPhase } }
def twoWords (x : Team) : Team := { x with nw := 2, masks := Vector.replicate 16 (BitVec.allOnes 1024) }
/-- The state in which a quadrant chooses, and the team whose instruction all its quadrants have chosen. -/
def parked (s : State) (q : Nat) : State := ((taken s).quadTeams 0 q).foldl State.parkTeam (taken s)
def goer (s : State) (q : Nat) : Option (Team × LaneNext) := ((parked s q).quadReady 0 q).find? (fun k => (parked s q).laneGoes 0 k && (parked s q).mayGo 0 k.1)
def quadPick (s : State) (q : Nat) : Option TeamId × State := (parked s q).chooseQuad 0 q (((parked s q).quadCan 0 q).map (·.1.id))
/-- No chain holds the quadrant, and no instruction has been chosen by all that it needs. -/
def Chooses (s : State) (q : Nat) : Prop :=
  ((taken s).quadTeams 0 q).find? (fun t => t.chainPos != 0) = none ∧ goer s q = none
theorem none_of {α : Type} {o : Option α} (h : o.isNone = true) : o = none := Option.isNone_iff_eq_none.mp h
theorem goes_of {s : State} {q : Nat} {x : Team} (h : (((taken s).quadTeams 0 q).find? (fun t => t.chainPos != 0)).isNone = true)
    (g : (goer s q).any (fun r => r.1 == x) = true) :
    ((taken s).quadTeams 0 q).find? (fun t => t.chainPos != 0) = none ∧ ∃ n, goer s q = some (x, n) := by
  obtain ⟨⟨y, n⟩, hr, e⟩ := Option.any_eq_true _ _ |>.mp g
  exact ⟨none_of h, n, (show y = x from eq_of_beq e) ▸ hr⟩
def picked (s : State) (x : Team) : State := (quadPick s 0).2.mapTeam x.id (fun _ => x.begins 0)
theorem witness_StepsRunDecodedInstructions_quad :
    (∀ ready, ∃ (s : State) (x : Team), ((taken s).quadTeams 0 0).find? (fun t => t.chainPos != 0) = some x ∧ ((taken s).laneReady x).isSome = ready) ∧
    (∃ (s : State) (x : Team) (n : LaneNext) (v : State) (ws : List Word) (i : Instr) (r : List Word),
      ((taken s).quadTeams 0 0).find? (fun t => t.chainPos != 0) = none ∧ goer s 0 = some (x, n) ∧
      (live (parked s 0) (.team x.id)).agentOf (.team x.id) = some anAgent ∧ (live (parked s 0) (.team x.id)).entryOf x = some loadedEntry ∧
      x.takesEvent = false ∧ (live (parked s 0) (.team x.id)).fetchLane anAgent loadedEntry x.lanePc = .ok v ws ∧ decodeLane ws = .ok (i, r)) ∧
    (∃ (s : State) (x : Team) (n : LaneNext), ((taken s).quadTeams 0 0).find? (fun t => t.chainPos != 0) = none ∧
      goer s 0 = some (x, n) ∧ x.takesEvent = true) ∧
    (∃ (s : State) (x : Team) (n : LaneNext) (v : State) (ws : List Word) (r : DecodeError),
      ((taken s).quadTeams 0 0).find? (fun t => t.chainPos != 0) = none ∧ goer s 0 = some (x, n) ∧
      x.takesEvent = false ∧ (live (parked s 0) (.team x.id)).fetchLane anAgent loadedEntry x.lanePc = .ok v ws ∧ decodeLane ws = .error r) ∧
    (∃ (s : State) (x : Team) (n : LaneNext) (v : State) (t : Trap),
      ((taken s).quadTeams 0 0).find? (fun t => t.chainPos != 0) = none ∧ goer s 0 = some (x, n) ∧
      x.takesEvent = false ∧ (live (parked s 0) (.team x.id)).fetchLane anAgent loadedEntry x.lanePc = .trap v t) ∧
    (∃ (s v : State), Chooses s 1 ∧ quadPick s 1 = (none, v)) ∧
    (∀ goes, ∃ (s : State) (x y : Team) (n : LaneNext), Chooses s 0 ∧ (quadPick s 0).1 = some x.id ∧ (quadPick s 0).2.team? x.id = some x ∧
      ((parked s 0).quadCan 0 0).find? (fun k => k.1.id = x.id) = some (y, n) ∧ (picked s x).laneGoes 0 (x.begins 0, n) = goes) := by
  refine ⟨fun ready => ?_, ?_, ?_, ?_, ?_, ?_, fun goes => ?_⟩
  · cases ready
    · exact ⟨laned (fun x => chained (waiting x)), chained (waiting laneTeam), by decide +kernel, by decide +kernel⟩
    · exact ⟨laned chained, chained laneTeam, by decide +kernel, by decide +kernel⟩
  · obtain ⟨c, n, g⟩ := goes_of (s := laned (Team.begins 0)) (q := 0) (x := laneTeam.begins 0) (by decide +kernel) (by decide +kernel)
    obtain ⟨v, ws, hf, hd⟩ := fetch_ok_of (f := (live (parked (laned (Team.begins 0)) 0) (.team loadedId)).fetchLane anAgent loadedEntry laneTeam.lanePc) (p := laneDecodes)
      (by decide +kernel)
    obtain ⟨i, r, hd⟩ := (laneDecodes_iff hd).1 rfl
    exact ⟨_, _, n, v, ws, i, r, c, g, by decide +kernel, by decide +kernel, by decide +kernel, hf, hd⟩
  · obtain ⟨c, n, g⟩ := goes_of (s := laned eventful) (q := 0) (x := eventful laneTeam) (by decide +kernel) (by decide +kernel)
    exact ⟨_, _, n, c, g, by decide +kernel⟩
  · obtain ⟨c, n, g⟩ := goes_of (s := coded' 96 0xFFF) (q := 0) (x := laneTeam) (by decide +kernel) (by decide +kernel)
    obtain ⟨v, ws, hf, hd⟩ := fetch_ok_of (f := (live (parked (coded' 96 0xFFF) 0) (.team loadedId)).fetchLane anAgent loadedEntry laneTeam.lanePc) (p := fun ws => !laneDecodes ws)
      (by decide +kernel)
    obtain ⟨r, hd⟩ := (laneDecodes_iff (b := false) (by simpa using hd)).2 rfl
    exact ⟨_, _, n, v, ws, r, c, g, by decide +kernel, hf, hd⟩
  · obtain ⟨c, n, g⟩ := goes_of (s := { coded' 96 lanedWord with tlb := [] }) (q := 0) (x := laneTeam) (by decide +kernel) (by decide +kernel)
    obtain ⟨v, t, hf⟩ := fetch_trap_of (f := (live (parked { coded' 96 lanedWord with tlb := [] } 0) (.team loadedId)).fetchLane anAgent loadedEntry laneTeam.lanePc)
      (by decide +kernel)
    exact ⟨_, _, n, v, t, c, g, by decide +kernel, hf⟩
  · exact ⟨rig, (quadPick rig 1).2, ⟨none_of (by decide +kernel), none_of (by decide +kernel)⟩, Prod.ext (by decide +kernel) rfl⟩
  · cases goes
    · obtain ⟨⟨y, n⟩, hr, h⟩ := Option.any_eq_true _ _ |>.mp (show ((parked (laned twoWords) 0).quadCan 0 0 |>.find? (fun k => k.1.id = loadedId)).any (fun k =>
        !(picked (laned twoWords) (twoWords laneTeam)).laneGoes 0 ((twoWords laneTeam).begins 0, k.2)) = true by decide +kernel)
      exact ⟨laned twoWords, twoWords laneTeam, y, n, ⟨none_of (by decide +kernel), none_of (by decide +kernel)⟩, by decide +kernel, by decide +kernel, hr,
        by simpa using h⟩
    · obtain ⟨⟨y, n⟩, hr, h⟩ := Option.any_eq_true _ _ |>.mp (show ((parked (laned id) 0).quadCan 0 0 |>.find? (fun k => k.1.id = loadedId)).any (fun k =>
        (picked (laned id) laneTeam).laneGoes 0 (laneTeam.begins 0, k.2)) = true by decide +kernel)
      exact ⟨laned id, laneTeam, y, n, ⟨none_of (by decide +kernel), none_of (by decide +kernel)⟩, by decide +kernel, by decide +kernel, hr, h⟩

/-- With the agenda empty: a stream whose access goes on, a control core, a team with a scalar and with a lane instruction; a scheduled event;
a lane instruction without window sources. -/
theorem witness_StepsRunDecodedInstructions_current :
    (∃ (s : State) (k : Option Nat), s.agenda = [] ∧ s.cur = some st0 ∧ s.limit = none ∧ s.canIssue st0 = true ∧ s.nextAcc st0 = some k) ∧
    (∃ s : State, s.agenda = [] ∧ s.cur = some (.ctrl 0) ∧ s.limit = none ∧ s.canIssue (.ctrl 0) = true ∧ s.nextAcc (.ctrl 0) = none) ∧
    (∀ lane, ∃ (s : State) (x : Team) (p : Placement), s.agenda = [] ∧ s.cur = some (.team x.id) ∧ s.limit = none ∧ s.canIssue (.team x.id) = true ∧
      s.nextAcc (.team x.id) = none ∧ s.team? x.id = some x ∧ x.place = some p ∧ (s.laneReady x).isSome = lane) ∧
    (∃ (s : State) (i : Instr) (ts : List Turn), s.agenda = .event i :: ts ∧ encode i = []) ∧
    (∃ (s : State) (i : Instr) (c : LaneCtx), s.laneCtx i = some c ∧ laneCheck s c.x i c.sig c.args = none ∧ c.args.hold = false ∧
      c.x.chainReads = none ∧ c.sig.windows c.args = []) ∧
    (∃ s t : State, s.deadStacks = [] ∧ (∀ g, t.mapped g = true → s.mapped g = true) ∧ s.turnNext = none ∧ ∀ p, s.turnProc = some p → p ∈ s.processes) ∧
    (∃ (s : State) (st : StreamId), ∀ sc, s.scalar? st = some sc → sc.acc = none) := by
  refine ⟨⟨reading, none, rfl, rfl, rfl, by decide +kernel, by decide +kernel⟩,
    ⟨crig, rfl, rfl, rfl, by decide +kernel, by decide +kernel⟩, fun lane => ?_, ⟨{ rig with agenda := [.event .ballastMeasure] }, .ballastMeasure, [], rfl, by
      decide +kernel⟩, ?_, ⟨rig, rig, rfl, fun _ h => h, rfl, fun _ h => by cases h⟩,
    ⟨rig, .ctrl 0, fun _ h => by cases h; rfl⟩⟩
  · cases lane
    · exact ⟨rig, x0, ⟨0, 0⟩, rfl, rfl, rfl, by decide +kernel, by decide +kernel, rig_team, rfl, by decide +kernel⟩
    · exact ⟨coded' 96 lanedWord, laneTeam, ⟨0, 0⟩, rfl, rfl, rfl, by decide +kernel, by decide +kernel, by decide +kernel, rfl, by decide +kernel⟩
  · obtain ⟨c, hc, h⟩ := Option.any_eq_true _ _ |>.mp (show (rig.laneCtx (legal (.iadd .i32))).any (fun c =>
      decide (laneCheck rig c.x (legal (.iadd .i32)) c.sig c.args = none) && !c.args.hold && c.x.chainReads.isNone && (c.sig.windows c.args).isEmpty) = true by
        decide +kernel)
    simp only [Bool.and_eq_true, decide_eq_true_eq, Bool.not_eq_true', Option.isNone_iff_eq_none, List.isEmpty_iff] at h
    exact ⟨rig, _, c, hc, h.1.1.1, h.1.1.2, h.1.2, h.2⟩

theorem witness_StepsKeepMemoriesCanonical : ∃ s t : State, s.memoriesWf = true ∧ step s = .next t := by
  obtain ⟨t, h⟩ := next_of (r := step rig) (by decide +kernel)
  exact ⟨rig, t, by decide +kernel, h⟩
theorem witness_StepsKeepFeatures : ∃ s t : State, (∀ i, s.fwacc.get i &&& ~~~(s.fw.get i) = 0) ∧ step s = .next t := by
  obtain ⟨t, h⟩ := next_of (r := step rig) (by decide +kernel)
  exact ⟨rig, t, by decide +kernel, h⟩

end Sys2Proof.Tests
end

section
/-! SUPPORT. A lane register past the team's allotment (04 R87, 02 R24) while an older access of the team is outstanding:
its trap completes every older instruction first (04 R97), so the instruction stays where it is. -/

namespace Sys2Proof.Machine

/-! ## Lane instructions that a decode check stops -/

/-- The context of a lane instruction that a placed team of a launch issues. -/
theorem State.laneCtx_of_placed {s : State} {i : Instr} {g : LaneSig} {a : LaneArgs} {x : Team} {p : Placement} {l : Launch}
    {e : Entry} (hcur : s.cur = some (.team x.id)) (hx : s.team? x.id = some x) (hp : x.place = some p)
    (hl : s.launch? x.launch = some l) (he : l.entries[x.entry]? = some e) (hg : laneSig i = some (g, a)) :
    s.laneCtx i =
      some ⟨x, p, l, e, x.agent l p.core, g, a, lanesIn (x.governed a.ks) x.lanes, .zero, .zero, .zero⟩ := by
  simp [State.laneCtx, hcur, hx, hp, hl, he, hg]

/-- The fourth check is the first that fails (03 R77). -/
theorem laneCheck_quota {s : State} {x : Team} {i : Instr} {g : LaneSig} {a : LaneArgs} (hlegal : laneLegal i = true)
    (hoffered : s.offered i = true) (hrole : roleFault s x i = false) (hquota : quotaFault x g a = true) :
    laneCheck s x i g a = some .quota := by
  simp [laneCheck, hlegal, hoffered, hrole, hquota]

/-- A destination that starts at or above the allotment is past it. -/
theorem quotaFault_of_dst {x : Team} {g : LaneSig} {a : LaneArgs} (hdk : a.dk = .reg) (hdst : 0 < g.dst.regs)
    (hpast : x.alloc ≤ a.di.toNat) : quotaFault x g a = true := by
  have : x.alloc < a.di.toNat + g.dst.regs := by omega
  simp [quotaFault, hdk, this]

theorem laneInstr_of_laneCheck {s : State} {i : Instr} {c : LaneCtx} {k : Cause} (hc : s.laneCtx i = some c)
    (hk : laneCheck s c.x i c.sig c.args = some k) (body : LaneCtx → State → LaneRes) :
    laneInstr i body s = .next (s.laneTrap c (c.trapAll k)) := by
  simp [laneInstr, laneInstrWith, hc, hk, State.finishLane]

/-! ## When the trap is taken -/

theorem State.laneTrap_of_outstanding {c : LaneCtx} (h : c.x.sc.accs ≠ []) (s : State) (t : Trap) : s.laneTrap c t = s := by
  simp [State.laneTrap, h]

@[simp] theorem Team.sup_atEntry (x : Team) (t : Trap) (lane : Bool) (r : DWord) (tl lf : Nat) (ic : Bool) (cp : Nat) :
    (x.atEntry t lane r tl lf ic cp).sc.sup = true := by
  show (tstatWord lane false true).getLsbD 0 = true
  cases lane <;> rfl

/-- A lane trap that enters the handler leaves the team in supervisor mode (04 R97 step 5). -/
theorem State.sup_takeLaneTrap {s : State} {x : Team} {t : Trap} (hx : s.team? x.id = some x) (huser : x.sc.sup = false)
    (hk : t.cause.kills = false) (inChain : Bool) :
    ∃ y, (s.takeLaneTrap x.id t inChain).team? x.id = some y ∧ y.sc.sup = true := by
  simp only [State.takeLaneTrap, hx]
  exact ⟨_, State.team?_trapTeam hx (by simp [huser]) hk .., Team.sup_atEntry ..⟩

theorem State.takeLaneTrap_ne {s : State} {x : Team} {t : Trap} (hx : s.team? x.id = some x) (huser : x.sc.sup = false)
    (hk : t.cause.kills = false) (inChain : Bool) : s.takeLaneTrap x.id t inChain ≠ s := by
  intro heq
  obtain ⟨y, hy, hsup⟩ := State.sup_takeLaneTrap hx huser hk inChain
  rw [heq, hx] at hy
  cases hy
  simp [huser] at hsup

/-! ## The counterexample: an overlapped store is outstanding -/

namespace PastAllotment

/-- MOV.b32 v16, s1 under k0. -/
def movV16 : Instr := .mov .w32 ⟨.reg, 16, 0, .sreg 1, .vreg 0, .vreg 0, 0, false, []⟩

/-- A store of one byte to the core's scratchpad whose classes have been taken and which has not performed. -/
def byteStore : Access :=
  { (loadedTeam 0 1).sc.access .write ⟨⟨0, none, none, .scratch 0 0, .l1⟩, .write [1]⟩ .none with classed := true }

/-- A team with 16 lane registers and one lane instruction to issue, whose store is outstanding. -/
def storing : Team :=
  { loadedTeam 0 1 with
    alloc := 16
    sc := (loadedTeam 0 1).sc.newAcc byteStore }

/-- The module with that team resident on core 0, MOV as its code, and an issue opportunity of the team's quadrant to come. -/
def stalled : State :=
  { State.reset.withFetchWord 96 (natOfBytes (bytesOfWords (encode movV16))) with
    teams := [storing]
    agenda := [.issue (.quad 0 0) none] }

/-- The module's own choice brings MOV to issue here: the outstanding store does not keep it from that. -/
theorem turn_stalled_chooses_mov : stalled.turn.2 = some movV16 := by decide +kernel

theorem stalled_team : stalled.team? storing.id = some storing := rfl

/-- What MOV runs with. -/
def movCtx : LaneCtx :=
  ⟨storing, ⟨0, 0⟩, loadedLaunch 0, loadedEntry, storing.agent (loadedLaunch 0) 0, sigT .int32 .unused .unused false,
    ⟨.reg, 16, 0, .sreg 1, .vreg 0, .vreg 0, 0, false, []⟩, lanesIn (storing.governed 0) storing.lanes, .zero, .zero, .zero⟩

theorem stalled_laneCtx : stalled.laneCtx movV16 = some movCtx :=
  State.laneCtx_of_placed (x := storing) rfl stalled_team rfl rfl rfl rfl

theorem movCtx_past : movCtx.x.alloc ≤ movCtx.args.di.toNat := by decide
theorem movCtx_outstanding : movCtx.x.sc.accs ≠ [] := by decide

theorem exec_mov (t : Wd) (a : LaneArgs) (s : State) :
    exec (.mov t a) s = laneInstr (.mov t a) (fun c u => .write u c.a) s := rfl

/-- The instruction does not issue: nothing of the state changes. -/
theorem exec_stalled : exec movV16 stalled = .next stalled := by
  have hquota : laneCheck stalled movCtx.x movV16 movCtx.sig movCtx.args = some .quota :=
    laneCheck_quota rfl rfl rfl (quotaFault_of_dst rfl (by decide) movCtx_past)
  calc exec movV16 stalled
    _ = laneInstr movV16 (fun c u => .write u c.a) stalled := exec_mov ..
    _ = .next (stalled.laneTrap movCtx (movCtx.trapAll .quota)) := laneInstr_of_laneCheck stalled_laneCtx hquota _
    _ = .next stalled := by rw [State.laneTrap_of_outstanding movCtx_outstanding]

end PastAllotment

open PastAllotment

/-- Refutes O6 by its last part: a team with 16 lane registers runs MOV.b32 v16, s1 while an overlapped store of its own is
outstanding. The instruction passes every check before QUOTA, but the trap is not taken: the team's older instructions
complete before trap entry (04 R97), and until then the instruction leaves the state as it is. The statement asks for the
handler's entry at once. -/
theorem not_registersAreHardWired : ¬ Obligations.RegistersAreHardWired := by
  unfold Obligations.RegistersAreHardWired
  rintro ⟨-, -, traps⟩
  have htrap := traps stalled movV16 movCtx 16 stalled_laneCtx rfl rfl rfl movCtx_past (.inl ⟨rfl, rfl, .inl rfl⟩)
  rw [exec_stalled, Host.Outcome.next.injEq] at htrap
  exact State.takeLaneTrap_ne stalled_team rfl rfl _ htrap.symm

end Sys2Proof.Machine
end

section
/-! SUPPORT. TRAP, BKPT and RFT (05 R124, 04 R99): what retiring one counts, what a stop of the debugger keeps of a team, and what a
return from a trap puts back. -/

namespace Sys2Proof.Machine

/-! ## A core whose debugger holds -/

/-- A value other than the default is read back from a table, be its form canonical or not. -/
theorem smGet_smSet_self {α : Type} [DecidableEq α] {d v : α} (hv : v ≠ d) (m : SMap α) (a : Nat) :
    smGet d (smSet d m a v) a = v := by
  induction m with
  | nil => simp [smSet, smGet, hv]
  | cons p m ih =>
    obtain ⟨k, w⟩ := p
    by_cases hlt : a < k
    · simp [smSet, smGet, hv, hlt]
    · by_cases hk : a = k
      · simp [smSet, smGet, hv, hk]
      · simp [smSet, smGet, hlt, hk, ih]

/-- A core that a debugger holds is not as after reset, so that its update is read back from any table of cores. -/
theorem State.core_mapCore_of_hold {s : State} {c : Nat} {f : CoreState → CoreState} (h : (f (s.core c)).dbg.hold = true) :
    (s.mapCore c f).core c = f (s.core c) := by
  refine smGet_smSet_self (fun hreset => ?_) s.cores c
  rw [hreset] at h
  exact absurd h (by decide)

theorem State.hold_countFor {s : State} {x : Team} {p : Placement} {id : TeamId} (hx : s.team? id = some x)
    (hp : x.place = some p) (h : (s.core p.core).dbg.hold = true) (e n : Nat) :
    ((s.countFor (.team id) e n).core p.core).dbg.hold = true := by
  simp only [State.countFor, hx, Option.bind_some, hp, State.count]
  rw [State.core_mapCore_of_hold (by exact h)]
  exact h

theorem State.hold_countRetired {s : State} {x : Team} {p : Placement} {id : TeamId} (hx : s.team? id = some x)
    (hp : x.place = some p) (h : (s.core p.core).dbg.hold = true) :
    ((s.countRetired (.team id)).core p.core).dbg.hold = true := by
  simp only [State.countRetired, State.coreOf, hx, Option.bind_some, hp, Option.map_some, State.core_mapTeam]
  rw [State.core_mapCore_of_hold (by exact h)]
  exact h

/-! ## Retiring, before the debug block sees it -/

/-- A scalar instruction has completed and is counted, and control goes to next (05 R103, 17 R372, R373). -/
def State.counted (s : State) (st : StreamId) (next : DWord) : State :=
  ((s.mapScalar st (·.goto next)).countFor st 0x03 1).countRetired st

def Team.counted (x : Team) (next : DWord) : Team := { x with sc := x.sc.goto next, instrs := x.instrs + 1 }

@[simp] theorem Team.counted_sup (x : Team) (next : DWord) : (x.counted next).sc.sup = x.sc.sup := rfl
@[simp] theorem Team.counted_pc (x : Team) (next : DWord) : (x.counted next).sc.pc = next &&& ~~~3 := rfl
@[simp] theorem Team.counted_reg (x : Team) (next : DWord) (j : BitVec 6) : (x.counted next).sc.reg j = x.sc.reg j := rfl

theorem State.retire_team (s : State) (id : TeamId) (pc next : DWord) (sup q : Bool) :
    s.retire (.team id) pc next sup q = (s.counted (.team id) next).debugUnit id [⟨false, pc.toNat, 0⟩] sup q true := rfl

theorem State.retire_ctrl (s : State) (cl : Nat) (pc next : DWord) (sup q : Bool) :
    s.retire (.ctrl cl) pc next sup q = s.counted (.ctrl cl) next := rfl

theorem State.team?_counted {s : State} {x : Team} {id : TeamId} (hx : s.team? id = some x) (next : DWord) :
    (s.counted (.team id) next).team? id = some (x.counted next) := by
  simp [State.counted, State.team?_countRetired, State.team?_mapScalar, hx, Team.counted]

theorem State.group?_counted {s : State} {g : Group} {cl : Nat} (hg : s.group? cl = some g) (next : DWord) :
    (s.counted (.ctrl cl) next).group? cl = some { g with sc := g.sc.goto next } := by
  simp only [State.counted, State.group?_countRetired, State.group?_countFor, State.mapScalar]
  rw [State.group?_mapGroup _ _ _ (by intro _; rfl), hg]
  rfl

theorem State.hold_counted {s : State} {x : Team} {p : Placement} {id : TeamId} (hx : s.team? id = some x)
    (hp : x.place = some p) (h : (s.core p.core).dbg.hold = true) (next : DWord) :
    ((s.counted (.team id) next).core p.core).dbg.hold = true := by
  have hgone : (s.mapScalar (.team id) (·.goto next)).team? id = some { x with sc := x.sc.goto next } := by
    simp [State.team?_mapScalar, hx]
  have hcount : ((s.mapScalar (.team id) (·.goto next)).countFor (.team id) 0x03 1).team? id =
      some { x with sc := x.sc.goto next } := by simpa using hgone
  exact State.hold_countRetired hcount hp (State.hold_countFor hgone hp (by simpa using h) _ _)

/-- The debug block acts on nothing that was issued in supervisor mode (17 R377). -/
theorem State.team?_retire_of_sup {s : State} {x : Team} {id : TeamId} (hx : s.team? id = some x) (pc next : DWord) (q : Bool) :
    (s.retire (.team id) pc next true q).team? id = some (x.counted next) := by
  rw [State.retire_team, State.debugUnit_quiet (.inl rfl), State.team?_counted hx]

/-! ## Stops by the debugger -/

@[simp] theorem Team.withdrawn_id (x : Team) : x.withdrawn.id = x.id := by
  unfold Team.withdrawn
  split
  · rfl
  · split <;> rfl
@[simp] theorem Team.withdrawn_tcause (x : Team) : x.withdrawn.sc.tcause = x.sc.tcause := by
  unfold Team.withdrawn
  split
  · rfl
  · split <;> rfl
@[simp] theorem Team.withdrawn_tstat (x : Team) : x.withdrawn.sc.tstat = x.sc.tstat := by
  unfold Team.withdrawn
  split
  · rfl
  · split <;> rfl

@[simp] theorem Team.stopped_id (x : Team) : x.stopped.id = x.id := by simp [Team.stopped]
@[simp] theorem Team.stopped_debugStopped (x : Team) : x.stopped.sc.debugStopped = true := rfl
@[simp] theorem Team.stopped_tcause (x : Team) : x.stopped.sc.tcause = x.sc.tcause := by simp [Team.stopped]
@[simp] theorem Team.stopped_sup (x : Team) : x.stopped.sc.sup = x.sc.sup := by simp [Team.stopped, Scalar.sup]

theorem State.team?_foldl_trace (l : List Team) (y : Nat) (pc : Team → Nat) (a : Nat) (s : State) (id : TeamId) :
    (l.foldl (fun s t => s.trace t.id y (pc t) a) s).team? id = s.team? id := by
  induction l generalizing s with
  | nil => rfl
  | cons t l ih => rw [List.foldl_cons, ih, State.team?_trace]

/-- Looking up a team after an update of all of them. -/
theorem State.team?_map (s : State) (f : Team → Team) (hf : ∀ x, (f x).id = x.id) (id : TeamId) :
    ({ s with teams := s.teams.map f } : State).team? id = (s.team? id).map f := by
  have hkeeps : (fun x : Team => decide (x.id = id)) ∘ f = fun x => decide (x.id = id) :=
    funext fun x => by rw [Function.comp_apply, hf]
  simp only [State.team?, List.find?_map, hkeeps]

/-- A stop stops the team that it is of (17 R376). -/
theorem State.team?_debugStop {s : State} {x y : Team} (hy : s.team? x.id = some y) (grp : Bool) (why pc : Nat) :
    (s.debugStop x grp why pc).team? x.id = some y.stopped := by
  have hid := State.team?_id hy
  unfold State.debugStop
  rw [State.team?_foldl_trace, State.team?_map _ _ (fun t => by split <;> simp), hy]
  simp [hid]

/-- With HOLD, the debug block leaves a team whose instruction completes as it is, or stops it (17 R377). -/
theorem State.team?_debugUnit_of_hold {s : State} {x : Team} {p : Placement} (hx : s.team? x.id = some x)
    (hp : x.place = some p) (h : (s.core p.core).dbg.hold = true) (units : List Done) (sup q own : Bool) :
    (s.debugUnit x.id units sup q own).team? x.id = some x ∨ (s.debugUnit x.id units sup q own).team? x.id = some x.stopped := by
  have hact (u : State) (hu : u.team? x.id = some x) (hit : Option (Fin 4)) :
      (u.debugAct x (s.core p.core).dbg units hit q).team? x.id = some x.stopped := by
    simp only [State.debugAct, h, if_true]
    exact State.team?_debugStop hu ..
  have htraced (f : CoreState → CoreState) : (s.mapCore p.core f).team? x.id = some x := hx
  simp only [State.debugUnit, hx, hp]
  split
  · exact .inl hx
  · split
    · split
      · exact .inr (hact _ hx _)
      · exact .inl hx
    · split
      · exact .inr (hact _ (htraced _) _)
      · exact .inr ((State.team?_mapCore ..).trans (hact _ (htraced _) _))

/-- A team after an instruction that a debugger with HOLD lets complete: at the next word, and perhaps stopped there. -/
theorem State.team?_retire_of_hold {s : State} {x : Team} {p : Placement} (hx : s.team? x.id = some x) (hp : x.place = some p)
    (h : (s.core p.core).dbg.hold = true) (pc next : DWord) (sup q : Bool) :
    (s.retire (.team x.id) pc next sup q).team? x.id = some (x.counted next) ∨
      (s.retire (.team x.id) pc next sup q).team? x.id = some (x.counted next).stopped :=
  State.team?_debugUnit_of_hold (x := x.counted next) (State.team?_counted hx next) hp (State.hold_counted hx hp h next) ..

theorem State.coreOf_team_eq_some {s : State} {x : Team} {id : TeamId} {c : Nat} (hx : s.team? id = some x)
    (hc : s.coreOf (.team id) = some c) : ∃ p, x.place = some p ∧ p.core = c := by
  simpa [State.coreOf, hx] using hc

/-! ## TRAP and BKPT -/

/-- A scalar instruction that its fields, the module's features and its mode allow runs its body. -/
theorem scalarInstr_of_legal {s : State} {st : StreamId} {sc : Scalar} {i : Instr} {sup : Bool} (h : Issuing s st sc)
    (hlegal : scalarLegal i = true) (hoffered : s.offered i = true) (hmode : (!sup || sc.sup) = true)
    (body : StreamId → Scalar → State → Res) : scalarInstr i sup body s = .next (State.finish st sc (body st sc s)) := by
  simp [scalarInstr_of_issuing h, hlegal, hoffered, hmode]

/-- A trap after completion, with nothing older of the stream unfinished (05 R124). -/
theorem State.finish_after {s : State} {st : StreamId} (hold : s.olderLeft st = false) (sc : Scalar) (t : Trap) :
    State.finish st sc (.after s t) =
      ((s.retire st sc.pc (sc.pc + 4) sc.sup true).takeTrap st t (sc.pc + 4)).untrace s st := by
  rw [State.finish, if_neg (by simp [hold])]

theorem exec_trap_of_issuing {s : State} {st : StreamId} {sc : Scalar} (h : Issuing s st sc) (c : BitVec 6) :
    exec (.trap c) s = .next (State.finish st sc (.after s (Trap.of (.trap c)))) := by
  show execTrap c s = _
  exact scalarInstr_of_legal (sup := false) h rfl rfl rfl _

/-- BKPT under no debugger. -/
theorem exec_bkpt_of_free {s : State} {st : StreamId} {sc : Scalar} (h : Issuing s st sc)
    (hfree : ∀ c, s.coreOf st = some c → (s.core c).dbg.hold = false) :
    exec .bkpt s = .next (State.finish st sc (if sc.sup then .done s else .after s (Trap.of (.bkpt false)))) := by
  show execBkpt s = _
  refine (scalarInstr_of_legal (sup := false) h rfl rfl rfl _).trans ?_
  cases st with
  | ctrl cl => rfl
  | team id =>
    cases hc : s.coreOf (.team id) with
    | none => rfl
    | some c => simp [hfree c hc]

/-- BKPT of a team that a debugger holds: it completes, and stops the team unless the debug block has. -/
theorem exec_bkpt_of_hold {s r : State} {x y : Team} {c : Nat} (h : TeamIssues s x) (hc : s.coreOf (.team x.id) = some c)
    (hhold : (s.core c).dbg.hold = true) (hr : s.retire (.team x.id) x.sc.pc (x.sc.pc + 4) x.sc.sup false = r)
    (hy : r.team? x.id = some y) :
    exec .bkpt s = .next (if y.sc.debugStopped then r else r.debugStop y (s.core c).dbg.grp 0xFF x.sc.pc.toNat) := by
  show execBkpt s = _
  refine (scalarInstr_of_legal (sup := false) h.issuing rfl rfl rfl _).trans ?_
  simp only [hc, Option.map_some, hhold, if_true, hr, hy]
  rfl

/-- A team at BKPT under a debugger ends stopped, with its trap registers as they were. -/
theorem exec_bkpt_stops {s : State} {x : Team} {c : Nat} (h : TeamIssues s x) (hc : s.coreOf (.team x.id) = some c)
    (hhold : (s.core c).dbg.hold = true) :
    ∃ t y, exec .bkpt s = .next t ∧ t.team? x.id = some y ∧ y.sc.debugStopped = true ∧ y.sc.tcause = x.sc.tcause ∧
      y.sc.sup = x.sc.sup := by
  obtain ⟨p, hp, rfl⟩ := State.coreOf_team_eq_some h.2 hc
  obtain ⟨y, hy, hcause, hsup⟩ : ∃ y, (s.retire (.team x.id) x.sc.pc (x.sc.pc + 4) x.sc.sup false).team? x.id = some y ∧
      y.sc.tcause = x.sc.tcause ∧ y.sc.sup = x.sc.sup := by
    obtain hy | hy := State.team?_retire_of_hold h.2 hp hhold x.sc.pc (x.sc.pc + 4) x.sc.sup false
    · exact ⟨_, hy, rfl, rfl⟩
    · exact ⟨_, hy, Team.stopped_tcause _, Team.stopped_sup _⟩
  have hid := State.team?_id hy
  rw [exec_bkpt_of_hold h hc hhold rfl hy]
  by_cases hstop : y.sc.debugStopped = true
  · exact ⟨_, y, rfl, by rw [if_pos hstop, hy], hstop, hcause, hsup⟩
  · refine ⟨_, y.stopped, rfl, ?_, rfl, (Team.stopped_tcause y).trans hcause, (Team.stopped_sup y).trans hsup⟩
    rw [if_neg hstop, ← hid]
    exact State.team?_debugStop (by rw [hid]; exact hy) ..

/-! ## RFT -/

theorem exec_rft_of_sup {s : State} {st : StreamId} {sc : Scalar} (h : Issuing s st sc) (hsup : sc.sup = true) :
    exec .rft s = .next (((s.returnFromTrap st).retire st sc.pc sc.tpc sc.sup false).delivered st) := by
  show execRft s = _
  exact scalarInstr_of_legal h rfl rfl (by simp [hsup]) _

theorem exec_rft_of_user {s : State} {st : StreamId} {sc : Scalar} (h : Issuing s st sc) (hsup : sc.sup = false) :
    TrapsAt .rft s st sc .illegal := by
  show execRft s = _
  refine (scalarInstr_of_issuing h ..).trans ?_
  simp [hsup, Res.fault, State.finish]

/-- A stop that is kept for the end of a run is not delivered before it, and where none is kept there is nothing to deliver. -/
theorem State.deliver_of_none_or_run {s : State} {id : TeamId} {x : Team} (hx : s.team? id = some x)
    (h : x.pendTrap = none ∨ x.runLeft ≠ 0) : s.deliver id = s := by
  simp only [State.deliver, hx]
  cases hk : x.pendTrap with
  | none => rfl
  | some k => simp [show x.runLeft ≠ 0 by simpa [hk] using h]

theorem tstatWord_sup (lane evpend sup : Bool) : (tstatWord lane evpend sup).getLsbD 0 = sup := by
  rw [tstatWord, BitVec.getLsbD_append]
  simp

@[simp] theorem Scalar.returned_sup (sc : Scalar) : sc.returned.sup = false := tstatWord_sup ..
@[simp] theorem Scalar.returned_reg (sc : Scalar) (j : BitVec 6) : sc.returned.reg j = sc.reg j := rfl

theorem Team.k_eq_getElem (x : Team) (i : BitVec 4) : x.k i = x.masks[i.toNat]'i.isLt &&& x.full := rfl

theorem Team.k_setK_self (x : Team) (i : BitVec 4) (m : Mask) : (x.setK i m).k i = m &&& x.full := by
  simp [Team.k_eq_getElem, Team.setK, Team.full, Team.lanes, BitVec.and_assoc]

theorem Team.k_setK_other (x : Team) {i j : BitVec 4} (m : Mask) (h : j ≠ i) : (x.setK i m).k j = x.k j := by
  have hne : i.toNat ≠ j.toNat := fun e => h (BitVec.eq_of_toNat_eq e.symm)
  simp [Team.k_eq_getElem, Team.setK, Team.full, Team.lanes, hne]

@[simp] theorem Team.returned_id (x : Team) : x.returned.id = x.id := by unfold Team.returned; split <;> rfl
@[simp] theorem Team.returned_sc (x : Team) : x.returned.sc = x.sc.returned := by unfold Team.returned; split <;> rfl
@[simp] theorem Team.returned_pendTrap (x : Team) : x.returned.pendTrap = x.pendTrap := by
  unfold Team.returned; split <;> rfl
theorem Team.returned_k (x : Team) (i : BitVec 4) : x.returned.k i = (x.setK 0 (x.tk0 &&& ~~~x.kv)).k i := by
  unfold Team.returned; split <;> rfl
theorem Team.returned_of_run {x : Team} (h : x.sc.runLeftField ≠ 0) :
    x.returned.lanePc = x.tlpc.toNat ∧ x.returned.runLeft = x.sc.runLeftField := by simp [Team.returned, h]
theorem Team.returned_of_no_run {x : Team} (h : x.sc.runLeftField = 0) :
    x.returned.lanePc = x.lanePc ∧ x.returned.runLeft = x.runLeft := by simp [Team.returned, Team.setK, h]

/-- k0 takes TK0 in the lanes that are not vacant. -/
theorem Team.returned_k_zero {x : Team} {j : Nat} (h : x.kv.getLsbD j = false) :
    (x.returned.k 0).getLsbD j = (x.tk0 &&& x.full).getLsbD j := by
  rw [Team.returned_k, Team.k_setK_self]
  by_cases hj : j < 1024
  · simp only [BitVec.getLsbD_and, BitVec.getLsbD_not, h, hj, decide_true, Bool.not_false, Bool.and_true]
  · simp [BitVec.getLsbD_of_ge _ j (Nat.le_of_not_lt hj)]

/-- A team after RFT, when no stop is delivered with it (04 R99). -/
theorem team?_exec_rft {s : State} {x : Team} (h : TeamIssues s x) (hsup : x.sc.sup = true)
    (hstop : x.pendTrap = none ∨ x.sc.runLeftField ≠ 0) :
    ∃ t, exec .rft s = .next t ∧ t.team? x.id = some (x.returned.counted x.sc.tpc) := by
  have hret : (s.returnFromTrap (.team x.id)).team? x.id = some x.returned := by
    simp only [State.returnFromTrap]
    rw [State.team?_mapTeam _ _ _ Team.returned_id, h.2]
    rfl
  have hy := State.team?_retire_of_sup hret x.sc.pc x.sc.tpc false
  have hkept : (x.returned.counted x.sc.tpc).pendTrap = none ∨ (x.returned.counted x.sc.tpc).runLeft ≠ 0 := by
    refine hstop.imp (fun hnone => (Team.returned_pendTrap x).trans hnone) fun hrun => ?_
    show x.returned.runLeft ≠ 0
    rwa [(Team.returned_of_run hrun).2]
  refine ⟨_, exec_rft_of_sup h.issuing hsup, ?_⟩
  rw [hsup, State.delivered, State.deliver_of_none_or_run hy hkept, hy]

/-- A control core after RFT: it has no run and no mask. -/
theorem group?_exec_rft {s : State} {g : Group} (h : GroupIssues s g) (hsup : g.sc.sup = true) :
    ∃ t, exec .rft s = .next t ∧ t.group? g.cl = some { g with sc := g.sc.returned.goto g.sc.tpc } := by
  have hret : (s.returnFromTrap (.ctrl g.cl)).group? g.cl = some { g with sc := g.sc.returned } := by
    simp only [State.returnFromTrap]
    rw [State.group?_mapGroup _ _ _ (by intro _; rfl), h.2]
    rfl
  refine ⟨_, exec_rft_of_sup h.issuing hsup, ?_⟩
  rw [State.delivered, State.retire_ctrl, State.group?_counted hret]

/-- Settles O4: TRAP and BKPT end as their meanings say once what is older has completed; a team that a debugger holds keeps its trap
registers through its stop, whatever the form of the table of cores, since a core that is held is listed in it; and RFT meets no debug
block, being issued in supervisor mode. -/
theorem trapsEnterAndReturn : Obligations.TrapsEnterAndReturn := by
  unfold Obligations.TrapsEnterAndReturn
  refine ⟨⟨fun s st sc c h hold => ?_, fun s st sc h hfree => ⟨fun hsup hold => ?_, fun hsup => ?_⟩,
    fun s x c h hc hhold => exec_bkpt_stops h hc hhold⟩, fun s x h hsup hstop => ?_, fun s g h hsup => ?_,
    fun s st sc h hsup => exec_rft_of_user h hsup⟩
  · rw [exec_trap_of_issuing h, State.finish_after hold]
  · rw [exec_bkpt_of_free h hfree, if_neg (by simp [hsup]), State.finish_after hold, hsup]
  · rw [Completes, exec_bkpt_of_free h hfree, if_pos hsup]
    rfl
  · obtain ⟨t, ht, hy⟩ := team?_exec_rft h hsup hstop
    have hmask (j : BitVec 4) (hj : j ≠ 0) : x.returned.k j = x.k j := by rw [Team.returned_k, Team.k_setK_other _ _ hj]
    exact ⟨t, _, ht, hy, by simp, Team.counted_pc .., fun j hj => Team.returned_k_zero hj, hmask, fun j => by simp,
      Team.returned_of_run, Team.returned_of_no_run⟩
  · obtain ⟨t, ht, hh⟩ := group?_exec_rft h hsup
    exact ⟨t, _, ht, hh, Scalar.returned_sup g.sc, rfl, rfl⟩

end Sys2Proof.Machine
end

section
/-! SUPPORT. EXIT (13 R287): the lanes of its mask leave every mask register and become vacant, and nothing else is changed. -/

namespace Sys2Proof.Machine

/-! ## Summaries by bits (02 R27) -/

theorem getLsbD_maskWord (m : Mask) (w i : Nat) :
    (maskWord m w).getLsbD i = (decide (i < 32) && m.getLsbD (32 * w + i)) := BitVec.getLsbD_extractLsb' ..

theorem maskWord_ne_zero_iff (m : Mask) (w : Nat) : maskWord m w ≠ 0 ↔ ∃ i, i < 32 ∧ m.getLsbD (32 * w + i) = true := by
  constructor
  · refine fun hne => Classical.byContradiction fun hnone => hne (BitVec.eq_of_getLsbD_eq fun i hi => ?_)
    have hclear : m.getLsbD (32 * w + i) = false := Bool.eq_false_iff.mpr fun hset => hnone ⟨i, hi, hset⟩
    rw [getLsbD_maskWord, hclear, Bool.and_false]
    exact BitVec.getLsbD_zero.symm
  · rintro ⟨i, hi, hset⟩ hzero
    have hbit : (maskWord m w).getLsbD i = true := by rw [getLsbD_maskWord, hset, decide_eq_true hi, Bool.and_true]
    rw [hzero] at hbit
    exact absurd (BitVec.getLsbD_zero.symm.trans hbit) Bool.false_ne_true

/-- What the fold of a summary has set after the words of a list. -/
theorem getLsbD_foldl_summary (m : Mask) {w : Nat} (hw : w < 32) (l : List Nat) (acc : Word) :
    (l.foldl (fun x v => if maskWord m v = 0 then x else x ||| (1#32 <<< v)) acc).getLsbD w = true ↔
      acc.getLsbD w = true ∨ w ∈ l ∧ maskWord m w ≠ 0 := by
  induction l generalizing acc with
  | nil => simp only [List.foldl_nil, List.not_mem_nil, false_and, or_false]
  | cons v l ih =>
    have hbit : (1#32 <<< v).getLsbD w = true ↔ w = v := by
      simp only [BitVec.getLsbD_shiftLeft, BitVec.getLsbD_one, hw, decide_true, Bool.true_and, Bool.and_eq_true,
        Bool.not_eq_true', decide_eq_false_iff_not, decide_eq_true_eq]
      omega
    have hmem : (w ∈ v :: l ∧ maskWord m w ≠ 0) ↔ (w = v ∧ maskWord m v ≠ 0) ∨ (w ∈ l ∧ maskWord m w ≠ 0) := by
      rw [List.mem_cons, or_and_right]
      exact or_congr_left (and_congr_right fun e => by rw [e])
    have hstep : (if maskWord m v = 0 then acc else acc ||| (1#32 <<< v)).getLsbD w = true ↔
        acc.getLsbD w = true ∨ (w = v ∧ maskWord m v ≠ 0) := by
      by_cases hv : maskWord m v = 0
      · rw [if_pos hv]
        exact (or_iff_left fun h => h.2 hv).symm
      · rw [if_neg hv, BitVec.getLsbD_or, Bool.or_eq_true, hbit]
        exact or_congr_right (and_iff_left hv).symm
    rw [List.foldl_cons, ih, hstep, hmem, or_assoc]

/-- Bit w of a summary is the OR of mask word w. -/
theorem getLsbD_summary (m : Mask) {w : Nat} (hw : w < 32) :
    (summary m).getLsbD w = true ↔ ∃ i, i < 32 ∧ m.getLsbD (32 * w + i) = true := by
  rw [summary, getLsbD_foldl_summary m hw, maskWord_ne_zero_iff]
  have hclear : (0 : Word).getLsbD w = false := BitVec.getLsbD_zero
  simp only [hclear, List.mem_range, hw, Bool.false_eq_true, true_and, false_or]

/-! ## Vacating lanes of a team -/

@[simp] theorem Team.vacate_id (m : Mask) (x : Team) : (x.vacate m).id = x.id := rfl
@[simp] theorem Team.vacate_kv (m : Mask) (x : Team) : (x.vacate m).kv = x.kv ||| m := rfl

theorem Team.vacate_frame (m : Mask) (x : Team) :
    x.vacate m = { x with masks := (x.vacate m).masks, kv := (x.vacate m).kv } := rfl

@[simp] theorem Team.k_vacate (m : Mask) (x : Team) (j : BitVec 4) : (x.vacate m).k j = x.k j &&& ~~~m := by
  simp only [Team.k_eq_getElem, Team.vacate, Vector.getElem_map, Team.full, Team.lanes, BitVec.and_assoc, BitVec.and_comm (~~~m)]

theorem Team.vacate_zero (x : Team) : x.vacate 0 = x := by
  have hkeep : (fun k : Mask => k &&& ~~~0) = fun k => k := funext fun k => by
    rw [BitVec.ofNat_eq_ofNat, BitVec.not_zero, BitVec.and_allOnes]
  rw [Team.vacate, hkeep, Vector.map_id', BitVec.ofNat_eq_ofNat, BitVec.or_zero]

theorem Team.getLsbD_summary_vacate (m : Mask) (x : Team) (j : BitVec 4) {w : Nat} (hw : w < 32) :
    (summary ((x.vacate m).k j)).getLsbD w = true ↔
      ∃ i, i < 32 ∧ (x.k j).getLsbD (32 * w + i) = true ∧ m.getLsbD (32 * w + i) = false := by
  rw [Team.k_vacate, getLsbD_summary _ hw]
  refine exists_congr fun i => and_congr_right fun hi => ?_
  have hlane : 32 * w + i < 1024 := by omega
  simp only [BitVec.getLsbD_and, BitVec.getLsbD_not, hlane, decide_true, Bool.true_and, Bool.and_eq_true, Bool.not_eq_true']

/-! ## EXIT -/

theorem length_replaceFirst {α : Type} (p : α → Bool) (g : α → α) (l : List α) : (replaceFirst p g l).length = l.length := by
  induction l with
  | nil => rfl
  | cons b l ih =>
    by_cases hb : p b = true
    · rw [replaceFirst, if_pos hb, List.length_cons, List.length_cons]
    · rw [replaceFirst, if_neg hb, List.length_cons, List.length_cons, ih]

theorem State.length_teams_mapTeam (s : State) (id : TeamId) (f : Team → Team) :
    (s.mapTeam id f).teams.length = s.teams.length := length_replaceFirst ..

/-- The module once a team has vacated the lanes of a mask and they are counted (13 R287, 17 R373). -/
def State.exited (s : State) (x : Team) (m : Mask) : State :=
  (s.mapTeam x.id (Team.vacate m)).countFor (.team x.id) 0x0B (lanesIn m x.lanes).length

/-- EXIT has no field, feature or mode to refuse it by. -/
theorem completes_exit {s : State} {x : Team} (h : TeamIssues s x) (a : BitVec 4) :
    Completes (.exit a) s (.team x.id) x.sc (s.exited x (x.k a)) := by
  show execExit a s = _
  exact teamInstr_of_issues h (.exit a) false _

theorem State.team?_exited {s : State} {x : Team} (hx : s.team? x.id = some x) (m : Mask) :
    (s.exited x m).team? x.id = some (x.vacate m) := by
  rw [State.exited, State.team?_countFor, State.team?_mapTeam _ _ _ (Team.vacate_id m), hx]
  rfl

@[simp] theorem State.exited_mem (s : State) (x : Team) (m : Mask) : (s.exited x m).mem = s.mem := by
  rw [State.exited, State.countFor_mem, State.mapTeam_mem]
@[simp] theorem State.exited_poison (s : State) (x : Team) (m : Mask) : (s.exited x m).poison = s.poison := by
  rw [State.exited, State.countFor_poison, State.mapTeam_poison]

theorem State.exited_scratch {s : State} (hwf : smWf CoreState.reset s.cores = true) (x : Team) (m : Mask) (c : Nat) :
    ((s.exited x m).core c).scratch = (s.core c).scratch := by
  obtain ⟨-, -, -, hscratch, -⟩ := State.core_countFor (s := s.mapTeam x.id (Team.vacate m)) hwf (.team x.id) 0x0B
    (lanesIn m x.lanes).length c
  exact hscratch

theorem State.length_teams_exited (s : State) (x : Team) (m : Mask) : (s.exited x m).teams.length = s.teams.length := by
  rw [State.exited, State.countFor_teams, State.length_teams_mapTeam]

/-- Settles O14: EXIT always completes, and the state it completes with is that of its team with the lanes vacated and one event
counted. -/
theorem exitVacatesLanes : Obligations.ExitVacatesLanes := by
  unfold Obligations.ExitVacatesLanes
  intro s x a h hwf
  exact ⟨s.exited x (x.k a), x.vacate (x.k a), completes_exit h a, State.team?_exited h.2 _, Team.vacate_kv ..,
    fun j => Team.k_vacate .., fun j w hw => Team.getLsbD_summary_vacate _ x j hw, Team.vacate_frame ..,
    fun hnone => by rw [hnone, Team.vacate_zero], State.exited_mem .., State.exited_poison ..,
    State.exited_scratch hwf x _, State.length_teams_exited ..⟩

end Sys2Proof.Machine
end
